-- ==== Sys2Proof/Word.lean ====
section
/-! DEFINITION. Word types of BIA-1 (spec/00 R3, R4; spec/02 R28). -/
namespace Sys2Proof

/-- One byte of memory, scratchpad or a tile. -/
abbrev Byte := BitVec 8
/-- A 32-bit register or instruction word. -/
abbrev Word := BitVec 32
/-- A 64-bit register pair, address or register of a register block. -/
abbrev DWord := BitVec 64
/-- A content name or another 128-bit operand (spec/12 R236, spec/13 R255). -/
abbrev QWord := BitVec 128

end Sys2Proof
end

