-- ==== Sys2Proof/Machine/Hash.lean ====
section
/-! DEFINITION. BLAKE3, which the spec names for the parameter hash (spec/17 R331) and, with a vault's key, for content names
(spec/12 R236). The spec names the function and does not restate it: PRESUMED, the published BLAKE3 standard (log 22). -/
namespace Sys2Proof.Machine

/-- The initial chaining value of the standard. -/
def blakeIv : List Word :=
  [0x6A09E667, 0xBB67AE85, 0x3C6EF372, 0xA54FF53A, 0x510E527F, 0x9B05688C, 0x1F83D9AB, 0x5BE0CD19]
/-- The order in which a round hands the message words to the next. -/
def blakeOrder : List Nat := [2, 6, 3, 10, 7, 0, 4, 13, 1, 11, 12, 5, 9, 14, 15, 8]

def word (l : List Word) (i : Nat) : Word := (l[i]?).getD 0
/-- One quarter round on four words of the state. -/
def blakeG (v : List Word) (a b c d : Nat) (x y : Word) : List Word :=
  let a1 := word v a + word v b + x
  let d1 := (word v d ^^^ a1).rotateRight 16
  let c1 := word v c + d1
  let b1 := (word v b ^^^ c1).rotateRight 12
  let a2 := a1 + b1 + y
  let d2 := (d1 ^^^ a2).rotateRight 8
  let c2 := c1 + d2
  let b2 := (b1 ^^^ c2).rotateRight 7
  (((v.set a a2).set b b2).set c c2).set d d2
/-- One round: the four columns, then the four diagonals. -/
def blakeRound (v m : List Word) : List Word :=
  let v := blakeG v 0 4 8 12 (word m 0) (word m 1)
  let v := blakeG v 1 5 9 13 (word m 2) (word m 3)
  let v := blakeG v 2 6 10 14 (word m 4) (word m 5)
  let v := blakeG v 3 7 11 15 (word m 6) (word m 7)
  let v := blakeG v 0 5 10 15 (word m 8) (word m 9)
  let v := blakeG v 1 6 11 12 (word m 10) (word m 11)
  let v := blakeG v 2 7 8 13 (word m 12) (word m 13)
  blakeG v 3 4 9 14 (word m 14) (word m 15)
def blakeRounds : Nat → List Word → List Word → List Word
  | 0, v, _ => v
  | n + 1, v, m => blakeRounds n (blakeRound v m) (blakeOrder.map (word m))

/-- What a compression works on: chaining value, message words, counter, bytes of the block, and flags. -/
structure BlakeNode where
  cv : List Word
  msg : List Word
  ctr : Nat
  len : Nat
  flags : Nat
  deriving DecidableEq, Repr
/-- The first eight words of a compression. -/
def BlakeNode.out (n : BlakeNode) (flags : Nat) : List Word :=
  let v := blakeRounds 7
    (n.cv ++ blakeIv.take 4 ++
      [BitVec.ofNat 32 n.ctr, BitVec.ofNat 32 (n.ctr / 2 ^ 32), BitVec.ofNat 32 n.len, BitVec.ofNat 32 (n.flags + flags)]) n.msg
  (List.range 8).map fun i => word v i ^^^ word v (i + 8)

/-- The sixteen little-endian words of a block of at most 64 bytes. -/
def blakeWords (bs : List Byte) : List Word :=
  (List.range 16).map fun i => BitVec.ofNat 32 ((List.range 4).foldl (fun n j => n + ((bs[4 * i + j]?).getD 0).toNat * 256 ^ j) 0)
/-- Cuts a list into pieces of `n`; a list of at most `n` is one piece. -/
def pieces (n : Nat) : Nat → List Byte → List (List Byte)
  | 0, bs => [bs]
  | k + 1, bs => if bs.length ≤ n then [bs] else bs.take n :: pieces n k (bs.drop n)
/-- The last compression of a chunk. -/
def blakeChunk (key : List Word) (base ctr : Nat) (bs : List Byte) : BlakeNode :=
  let go := fun (acc : BlakeNode × Bool) (b : List Byte) =>
    let (n, first) := acc
    let cv := if first then key else n.out 0
    (({ cv := cv, msg := blakeWords b, ctr := ctr, len := b.length, flags := base + (if first then 1 else 0) } : BlakeNode), false)
  let n := ((pieces 64 16 bs).foldl go ({ cv := key, msg := [], ctr := 0, len := 0, flags := 0 }, true)).1
  { n with flags := n.flags + 2 }
/-- The tree over `n` chunks: the left part is the greatest power of two of chunks below all of them. -/
def blakeTree (key : List Word) (base : Nat) : Nat → Nat → List (List Byte) → BlakeNode
  | 0, ctr, cs => blakeChunk key base ctr (cs.headD [])
  | k + 1, ctr, cs =>
    if cs.length ≤ 1 then blakeChunk key base ctr (cs.headD [])
    else
      let l := 2 ^ (cs.length - 1).log2
      { cv := key, ctr := 0, len := 64, flags := base + 4,
        msg := (blakeTree key base k ctr (cs.take l)).out 0 ++ (blakeTree key base k (ctr + l) (cs.drop l)).out 0 }
/-- The first eight output words; `base` is 16 with a key. -/
def blakeHash (key : List Word) (base : Nat) (bs : List Byte) : List Word :=
  (blakeTree key base 32 0 (pieces 1024 (bs.length / 1024 + 1) bs)).out 8

/-- Bits [63:0] of the unkeyed hash (spec/17 R331). -/
def blake3 (bs : List Byte) : DWord :=
  let h := blakeHash blakeIv 0 bs
  word h 1 ++ word h 0
/-- Bits [111:0] of the keyed hash (spec/12 R236). -/
def keyedBlake3 (key : BitVec 256) (bs : List Byte) : BitVec 112 :=
  let h := blakeHash ((List.range 8).map fun i => (key >>> (32 * i)).setWidth 32) 16 bs
  (word h 3 ++ word h 2 ++ word h 1 ++ word h 0).setWidth 112

end Sys2Proof.Machine
end

