-- ==== Sys2Proof/Syntax.lean ====
section
/-! DEFINITION. The syntax of BIA-1 and of the device's steps: one constructor of `Instr` for each row of
spec/opcode_table.json (spec/03, spec/04, spec/95). -/
namespace Sys2Proof

/-- The value types of spec/03 R54 that name no narrow format. -/
inductive Ty where
  | i8 | i16 | i32 | i64 | n8 | n16 | n32 | n64 | f64 | f32 | f16 | bf16
  deriving DecidableEq, Repr

/-- A type of a converting instruction: a type of R54 or the narrow format of entry fdN (spec/03 R53, code 0xD). -/
inductive CTy where
  | std (t : Ty)
  | fd (n : Nat)
  deriving DecidableEq, Repr

/-- Rounding modes (spec/05 R82). -/
inductive Rm where
  | rne | rz | rd | ru | rna
  deriving DecidableEq, Repr

/-- Comparisons of OPM 0x1..0x6 (spec/03 R55). -/
inductive CmpOp where
  | eq | ne | lt | le | gt | ge
  deriving DecidableEq, Repr

/-- Float comparisons (spec/07 R148). -/
inductive FCmpOp where
  | cmp (c : CmpOp)
  | un | ord
  deriving DecidableEq, Repr

/-- PSET operations (spec/07 R138). -/
inductive PsetOp where
  | and | or | xor | andn | orn
  deriving DecidableEq, Repr

/-- SHF variants (spec/07 R142). -/
inductive ShfVar where
  | l | r | rl | rr
  deriving DecidableEq, Repr

/-- SHFL operations (spec/07 R158). -/
inductive ShflOp where
  | pick | rot | flip | slide
  deriving DecidableEq, Repr

/-- VOTE operations (spec/07 R159). -/
inductive VoteOp where
  | all | any | uni
  deriving DecidableEq, Repr

/-- REDUX operations (spec/07 R160). -/
inductive ReduxOp where
  | add | min | max | and | or | xor
  deriving DecidableEq, Repr

/-- Atomic operations (spec/13 R256). -/
inductive AtomOp where
  | add | mins | maxs | minu | maxu | and | or | xor | exch | cas | fadd
  deriving DecidableEq, Repr

/-- Ordering modifiers (spec/04 R70). -/
inductive Ord4 where
  | plain | acq | rel | acqrel
  deriving DecidableEq, Repr

/-- Operand widths: one register, a pair, a quad (spec/03 R50, spec/13 R255). -/
inductive Wd where
  | w32 | w64 | w128
  deriving DecidableEq, Repr

/-- A vector-or-scalar source: a register by its first index, a zero register, or the trailing literal
(spec/03 R47, R50, R51). -/
inductive Src where
  | v (n : Nat)
  | s (n : Nat)
  | zero
  | lit (x : DWord)
  deriving DecidableEq, Repr

/-- A vector-or-scalar destination; a write to vz or sz is discarded (spec/02 R28). -/
inductive Dst where
  | v (n : Nat)
  | s (n : Nat)
  | none
  deriving DecidableEq, Repr

/-- What every extended instruction carries: guard, uniform bit, lookahead count (spec/03 R45, R46, R56). -/
structure Hdr where
  g : Nat
  neg : Bool
  u : Bool
  la : Nat
  deriving DecidableEq, Repr

/-- Source B of a base form: a register of at most 64, or the literal (spec/03 R42..R44). -/
inductive BSrc where
  | v (n : Nat)
  | s (n : Nat)
  | lit (x : DWord)
  deriving DecidableEq, Repr

/-- The fields of a base-form word (spec/03 R42). -/
structure BaseF where
  g : Nat
  u : Bool
  d : Nat
  a : Nat
  b : BSrc
  deriving DecidableEq, Repr

/-- The two forms of MOVS (spec/07 R145). -/
inductive MovsForm where
  | fromFd (d : Dst) (fd : Nat)
  | toFd (fd : Nat) (b : Src)
  deriving DecidableEq, Repr

/-- The source of a CAINT line (spec/13 R269). -/
inductive CaSrc where
  | scratch (a : Src)
  | tile (t : Nat) (row : Src)
  deriving DecidableEq, Repr

/-- The set kinds of CVINIT (spec/08 R169). -/
inductive CvKind where
  | group (g : Nat)
  | warp
  | mask (b : Src)
  deriving DecidableEq, Repr

/-- The destination types of MDRAIN (spec/08 R184). -/
inductive DrainTy where
  | f32 | f16 | bf16 | i32 | x64
  | fd (n : Nat)
  deriving DecidableEq, Repr

/-- The modifiers of MDRAIN (spec/08 R184). -/
structure DrainMods where
  td : DrainTy
  rm : Rm
  rs : Bool
  cs : Bool
  add : Bool
  sp : Bool
  stile : Nat
  deriving DecidableEq, Repr

/-- A VFT frame (spec/27 R437). `good` says that the CRC-32C over header and payload matches. -/
structure Frame where
  port : Nat
  ver : Nat
  seq : Nat
  smod : Nat
  dmod : Nat
  svfn : Nat
  dvfn : Nat
  arg : DWord
  xid : Nat
  rxslot : Nat
  rxnote : Bool
  last : Bool
  payload : List Byte
  good : Bool
  deriving DecidableEq, Repr

/-- Units that management firmware can take out of service (spec/01 R17). -/
inductive UnitId where
  | core (c : Nat)
  | partition (c p : Nat)
  | other (die unit index : Nat)
  deriving DecidableEq, Repr

/-- One row of the table of operations and events: an instruction a bundle issues, or a step of the device. -/
inductive Instr where
  -- base forms (spec/04 R68)
  | nop (f : BaseF)
  | iaddI32Base (f : BaseF) | isubI32Base (f : BaseF) | imulI32Base (f : BaseF) | imulhI32Base (f : BaseF)
  | imulhN32Base (f : BaseF) | iminI32Base (f : BaseF) | iminN32Base (f : BaseF) | imaxI32Base (f : BaseF)
  | imaxN32Base (f : BaseF) | iaddI64Base (f : BaseF) | isubI64Base (f : BaseF) | imulI64Base (f : BaseF)
  | andN32Base (f : BaseF) | orN32Base (f : BaseF) | xorN32Base (f : BaseF) | shlN32Base (f : BaseF)
  | shrN32Base (f : BaseF) | sarI32Base (f : BaseF) | shlN64Base (f : BaseF) | shrN64Base (f : BaseF)
  | sarI64Base (f : BaseF) | popcN32Base (f : BaseF) | clzN32Base (f : BaseF) | ctzN32Base (f : BaseF)
  | brevN32Base (f : BaseF) | movBase (f : BaseF) | movlBase (f : BaseF) | leaN32S2Base (f : BaseF)
  | leaN32S3Base (f : BaseF) | leaI32S2Base (f : BaseF) | leaI32S3Base (f : BaseF) | faddF32Base (f : BaseF)
  | fmulF32Base (f : BaseF) | fminF32Base (f : BaseF) | fmaxF32Base (f : BaseF) | faddF16Base (f : BaseF)
  | fmulF16Base (f : BaseF) | faddBf16Base (f : BaseF) | fmulBf16Base (f : BaseF) | hadd2F16Base (f : BaseF)
  | hmul2F16Base (f : BaseF) | hadd2Bf16Base (f : BaseF) | hmul2Bf16Base (f : BaseF) | frndF32Base (f : BaseF)
  | cvtF32I32Base (f : BaseF) | cvtF32N32Base (f : BaseF) | cvtI32F32Base (f : BaseF) | cvtN32F32Base (f : BaseF)
  | cvtF32F16Base (f : BaseF) | cvtF16F32Base (f : BaseF) | cvtF32Bf16Base (f : BaseF) | cvtBf16F32Base (f : BaseF)
  | cvtF64F32Base (f : BaseF) | cvtF32F64Base (f : BaseF) | cvtI32I16Base (f : BaseF) | cvtI32I8Base (f : BaseF)
  | cvtN32N16Base (f : BaseF) | cvtN32N8Base (f : BaseF) | andN64Base (f : BaseF) | orN64Base (f : BaseF)
  | xorN64Base (f : BaseF) | iminI64Base (f : BaseF) | imaxI64Base (f : BaseF)
  -- integer, logic, moves (spec/07)
  | iadd (h : Hdr) (ty : Ty) (d : Dst) (a b : Src)
  | isub (h : Hdr) (ty : Ty) (d : Dst) (a b : Src)
  | imul (h : Hdr) (ty : Ty) (d : Dst) (a b : Src)
  | imulh (h : Hdr) (ty : Ty) (d : Dst) (a b : Src)
  | imad (h : Hdr) (wide : Bool) (ty : Ty) (d : Dst) (a b c : Src)
  | imin (h : Hdr) (ty : Ty) (d : Dst) (a b : Src)
  | imax (h : Hdr) (ty : Ty) (d : Dst) (a b : Src)
  | idot4 (h : Hdr) (sa sb : Bool) (d : Dst) (a b c : Src)
  | lea (h : Hdr) (ty : Ty) (sh : Nat) (d : Dst) (a b : Src)
  | and (h : Hdr) (w64 : Bool) (d : Dst) (a b : Src)
  | or (h : Hdr) (w64 : Bool) (d : Dst) (a b : Src)
  | xor (h : Hdr) (w64 : Bool) (d : Dst) (a b : Src)
  | lop3 (h : Hdr) (f : Byte) (d : Dst) (a b c : Src)
  | icmp (h : Hdr) (op : CmpOp) (ty : Ty) (pd : Nat) (a b : Src)
  | sel (h : Hdr) (w64 : Bool) (d : Dst) (a b : Src) (pc : Nat)
  | pset (h : Hdr) (op : PsetOp) (pd pa pb : Nat)
  | shl (h : Hdr) (w64 : Bool) (d : Dst) (a b : Src)
  | shr (h : Hdr) (w64 : Bool) (d : Dst) (a b : Src)
  | sar (h : Hdr) (w64 : Bool) (d : Dst) (a b : Src)
  | shf (h : Hdr) (var : ShfVar) (d : Dst) (a b c : Src)
  | bfe (h : Hdr) (ty : Ty) (d : Dst) (a b : Src)
  | bfi (h : Hdr) (w64 : Bool) (d : Dst) (a b c : Src)
  | popc (h : Hdr) (w64 : Bool) (d : Dst) (b : Src)
  | clz (h : Hdr) (w64 : Bool) (d : Dst) (b : Src)
  | ctz (h : Hdr) (w64 : Bool) (d : Dst) (b : Src)
  | brev (h : Hdr) (w64 : Bool) (d : Dst) (b : Src)
  | mov (h : Hdr) (d : Dst) (b : Src)
  | movl (h : Hdr) (d : Dst) (b : Src)
  | movs (h : Hdr) (m : MovsForm)
  | rdsr (h : Hdr) (num : Nat) (d : Dst)
  -- floating point (spec/07 R146..R154)
  | fadd (h : Hdr) (ty : Ty) (rm : Rm) (d : Dst) (a b : Src)
  | fmul (h : Hdr) (ty : Ty) (rm : Rm) (d : Dst) (a b : Src)
  | ffma (h : Hdr) (ty : Ty) (rm : Rm) (d : Dst) (a b c : Src)
  | fmin (h : Hdr) (ty : Ty) (d : Dst) (a b : Src)
  | fmax (h : Hdr) (ty : Ty) (d : Dst) (a b : Src)
  | fcmp (h : Hdr) (op : FCmpOp) (ty : Ty) (pd : Nat) (a b : Src)
  | frnd (h : Hdr) (x : Bool) (ty : Ty) (rm : Rm) (d : Dst) (b : Src)
  | frcp (h : Hdr) (rm : Rm) (d : Dst) (b : Src)
  | frsq (h : Hdr) (d : Dst) (b : Src)
  | fsqrt (h : Hdr) (rm : Rm) (d : Dst) (b : Src)
  | fexp2 (h : Hdr) (d : Dst) (b : Src)
  | flog2 (h : Hdr) (d : Dst) (b : Src)
  | fsin (h : Hdr) (d : Dst) (b : Src)
  | fcos (h : Hdr) (d : Dst) (b : Src)
  | ftanh (h : Hdr) (d : Dst) (b : Src)
  | hadd2 (h : Hdr) (ty : Ty) (rm : Rm) (d : Dst) (a b : Src)
  | hmul2 (h : Hdr) (ty : Ty) (rm : Rm) (d : Dst) (a b : Src)
  | hfma2 (h : Hdr) (ty : Ty) (rm : Rm) (d : Dst) (a b c : Src)
  | hdot2 (h : Hdr) (ts : Ty) (rm : Rm) (d : Dst) (a b c : Src)
  | dadd (h : Hdr) (rm : Rm) (d : Dst) (a b : Src)
  | dmul (h : Hdr) (rm : Rm) (d : Dst) (a b : Src)
  | dfma (h : Hdr) (rm : Rm) (d : Dst) (a b c : Src)
  | cvt (h : Hdr) (sat : Bool) (td ts : CTy) (rm : Rm) (d : Dst) (b : Src)
  | pack (h : Hdr) (td ts : CTy) (rm : Rm) (k : Nat) (d : Dst) (a c : Src)
  | unpack (h : Hdr) (td ts : CTy) (rm : Rm) (k : Nat) (d : Dst) (b : Src)
  -- lane and control (spec/07 R155..R167)
  | shfl (h : Hdr) (op : ShflOp) (seg : Nat) (d : Dst) (a b m : Src)
  | ballot (h : Hdr) (d : Dst) (pa : Nat) (m : Src)
  | vote (h : Hdr) (op : VoteOp) (pd pa : Nat) (m : Src)
  | matchLanes (h : Hdr) (w64 : Bool) (d : Dst) (a m : Src)
  | redux (h : Hdr) (op : ReduxOp) (ty : Ty) (rm : Rm) (d : Dst) (a m : Src)
  | prmt (h : Hdr) (d : Dst) (a b c : Src)
  | bra (h : Hdr) (off : Word)
  | brx (h : Hdr) (a : Src) (off : Word)
  | call (h : Hdr) (a : Option Src) (off : Word)
  | ret (h : Hdr)
  | exit (h : Hdr)
  | yield (h : Hdr)
  | nopExt (h : Hdr)
  -- memory and synchronisation (spec/13)
  | ld (h : Hdr) (ord : Ord4) (ty : Ty) (d : Dst) (a : Src) (off : Word)
  | st (h : Hdr) (ord : Ord4) (ty : Ty) (a b : Src) (off : Word)
  | lds (h : Hdr) (ord : Ord4) (ty : Ty) (d : Dst) (a : Src) (off : Word)
  | sts (h : Hdr) (ord : Ord4) (ty : Ty) (a b : Src) (off : Word)
  | cmpst (h : Hdr) (ty : Ty) (d : Dst) (a b : Src) (pc : Nat) (off : Word)
  | expld (h : Hdr) (ty : Ty) (d : Dst) (a : Src) (pc : Nat) (off : Word)
  | pref (h : Hdr) (lvl : Nat) (a : Src) (off : Word)
  | cctlWb (h : Hdr) (a b : Src) (off : Word)
  | cctlInv (h : Hdr) (a b : Src) (off : Word)
  | atom (h : Hdr) (op : AtomOp) (ord : Ord4) (w : Wd) (d : Dst) (a b c : Src) (off : Word)
  | red (h : Hdr) (op : AtomOp) (ord : Ord4) (w : Wd) (a b : Src) (off : Word)
  | fence (h : Hdr)
  | xfence (h : Hdr) (x y : Nat)
  | bar (h : Hdr)
  | smap (h : Hdr) (n : Nat) (a b c : Src)
  | sflush (h : Hdr)
  | cpq (h : Hdr) (a : Src) (off : Word)
  | cpld (h : Hdr) (ty : Ty) (d : Dst) (a : Src) (cq : Nat) (off : Word)
  | cqwait (h : Hdr) (cq : Nat)
  | aarm (h : Hdr) (a b c : Src) (off : Word)
  | aarrive (h : Hdr) (a : Src) (off : Word)
  | await (h : Hdr) (a b : Src) (off : Word)
  | caint (h : Hdr) (node : Bool) (src : CaSrc) (vid : Src) (d : Dst)
  | caget (h : Hdr) (d : Dst) (a b : Src) (off : Word)
  | carel (h : Hdr) (b : Src)
  | caswap (h : Hdr) (d : Dst) (a b c : Src) (off : Word)
  | caexp (h : Hdr) (a b c : Src) (off : Word)
  -- tile and matrix (spec/08)
  | tld (h : Hdr) (t : Nat) (a b : Src) (k : Nat) (off : Word)
  | tst (h : Hdr) (t : Nat) (a b : Src) (k : Nat) (off : Word)
  | tzero (h : Hdr) (t : Nat)
  | tmov (h : Hdr) (d a : Nat)
  | txpose (h : Hdr) (d a : Nat)
  | tcvt (h : Hdr) (rm : Rm) (d a : Nat)
  | movtc (h : Hdr) (tc : Nat) (b : Src)
  | rdtc (h : Hdr) (d : Dst) (tc : Nat)
  | cvinit (h : Hdr) (k : Nat) (kind : CvKind)
  | mma (h : Hdr) (c a b k : Nat)
  | mdrain (h : Hdr) (m : DrainMods) (c : Nat) (a b : Src) (k : Nat)
  | mclr (h : Hdr) (c k : Nat)
  -- groups, waits, launch (spec/18)
  | gbar (h : Hdr) (g : Nat)
  | clbar (h : Hdr)
  | rolesw (h : Hdr) (r : Nat)
  | roleswTry (h : Hdr) (pd r : Nat)
  | wait (h : Hdr) (op : CmpOp) (ty : Ty) (pd : Nat) (a b : Src)
  | waitExt (h : Hdr) (op : CmpOp) (ty : Ty) (pd : Nat) (a b : Src)
  | wake (h : Hdr) (d : Dst) (a b : Src)
  | launch (h : Hdr) (a b c : Src)
  | launchTry (h : Hdr) (pd : Nat) (a b c : Src)
  | relaunch (h : Hdr) (a b c : Src)
  | place (h : Hdr) (pd : Nat) (a b c : Src)
  | evict (h : Hdr) (pd : Nat) (b : Src)
  -- exceptions (spec/24), system and debug (spec/22)
  | tryW (h : Hdr) (off : Word)
  | tryB (h : Hdr) (off : Word)
  | endtry (h : Hdr)
  | throw (h : Hdr) (b c : Src)
  | rethrow (h : Hdr)
  | rdexc (h : Hdr) (sel : Nat) (d : Dst)
  | clrexc (h : Hdr)
  | trap (h : Hdr) (pd : Nat) (n : BitVec 16)
  | svc (h : Hdr) (n : BitVec 16)
  | brk (h : Hdr) (n : BitVec 16)
  | wrsr (h : Hdr) (num : Nat) (b : Src)
  | eret (h : Hdr)
  | halt (h : Hdr)
  | pmcfg (h : Hdr) (n : Nat) (b : Src)
  | pmrd (h : Hdr) (st : Bool) (n : Nat) (d : Dst)
  | dbgmark (h : Hdr) (n : BitVec 16)
  -- events of issue and of the memory system (spec/15, spec/10, spec/11)
  | longLatencyComplete (b k : Nat)
  | regroup (part : Nat)
  | pcGroupForce (b w : Nat) (pc : DWord)
  | warpPromotion (b w : Nat)
  | ownershipRegister (core word : Nat)
  | ownershipRecall (die line : Nat)
  | rds (die line : Nat) | rdx (die line : Nat) | upg (die line : Nat) | wbm (die line : Nat) | putc (die line : Nat)
  | snps (die line : Nat) | snpx (die line : Nat) | snpi (die line : Nat)
  | decafWriteback (die line : Nat)
  | hostWrite (pa : Nat) (bytes : List Byte)
  | copyLanding (id n : Nat)
  | asyncExceptionRaise (b thr : Nat)
  | cpldLanding (b k : Nat)
  | drainWriteAccept (id : Nat)
  | contentLanding (id n : Nat)
  | hostPathFence (b thr : Nat)
  | reclaim (e : Nat)
  -- fabric (spec/27)
  | data (f : Frame) | ack (f : Frame) | nakIntegrity (f : Frame) | nakRefused (f : Frame) | credit (f : Frame)
  | rxnote (f : Frame)
  | frameRetransmitTimeout (port dmod seq : Nat)
  -- queues, launch and placement (spec/16, spec/17)
  | notifyWrite (fn n : Nat) (v : Word)
  | notifyBind (fn n : Nat) (v : DWord)
  | notifyUnbind (fn n : Nat) (v : DWord)
  | notifyWake (die : Nat)
  | packetFetch (fn n : Nat)
  | launchPacket (fn n : Nat) | launchInd (fn n : Nat) | relaunchPacket (fn n : Nat) | waitPacket (fn n : Nat)
  | waitPacketSatisfied (fn n : Nat) | signal (fn n : Nat) | loop (fn n : Nat) | cond (fn n : Nat) | jump (fn n : Nat)
  | fetchFence (fn n : Nat) | copy (fn n : Nat)
  | copyPacketComplete (id : Nat)
  | carafeEntry (die : Nat)
  | ticketWrite (die : Nat)
  | launchComplete (fn lid : Nat)
  | blockEnd (b : Nat)
  | clusterRelease (region fn lid ci : Nat)
  | clusterHoldTimeout (region fn lid ci : Nat)
  | ageId (region : Nat) (v : DWord)
  | ageCt (region : Nat) (v : DWord)
  | baristaStart (core : Nat) (entry : DWord) (start : List Word)
  | roleswGrant (part : Nat)
  | quantumExpiry (region fn : Nat)
  | preemptRequest (region : Nat)
  | blockResume (b core : Nat) (parts : List Nat)
  | deadlockWatchdog (fn : Nat)
  -- recovery and management (spec/23, spec/01)
  | tryStopSteer (k : Nat)
  | errorConsumption (b thr pa : Nat)
  | replayMismatch (b thr : Nat) (original : Bool)
  | fatalDump (die unit index kind : Nat)
  | unitOutOfService (u : UnitId)
  | haltRelease (b w : Nat)
  -- register-driven events (spec/06, spec/12, spec/17, spec/21)
  | roastEnable (n : Nat) (v : DWord) | roastDisable (n : Nat) (v : DWord) | roastDisableDone (n : Nat)
  | vaultEnable (n : Nat) (v : DWord) | vaultEnableDone (n : Nat) | vaultDisable (n : Nat) (v : DWord)
  | watchEnable (n : Nat) (v : DWord) | watchDisable (n : Nat) (v : DWord)
  | partEnable (n : Nat) (v : DWord) | partDisable (n : Nat) (v : DWord)
  | shootdownPage (fn : Nat) (v : DWord) | shootdownAll (fn : Nat) (v : DWord) | shootdownFrame (fn : Nat) (v : DWord)
  | shootdownComplete (fn : Nat)
  | faultRecordWrite (j : Nat)
  | verdictRetry (fn : Nat) (index : Word) | verdictFail (fn : Nat) (index : Word)
  | faultReplay (id : Nat)
  | movedBounce (b thr : Nat)
  | flr (fn : Nat)
  -- debug, power, boot (spec/22, spec/21, spec/27)
  | comparatorLoad (core : Nat)
  | sampleTimer (core : Nat)
  | rowMitigation (mc bank row : Nat)
  | refreshWindow (mc : Nat)
  | powerWindow (mhz : Nat)
  | thermalThrottle (die : Nat)
  | thermalFatal (die : Nat)
  | reset (fail : Nat)
  | getVersion (req : List Byte) | getCapabilities (req : List Byte) | negotiateAlgorithms (req : List Byte)
  | getDigests (req : List Byte) | getCertificate (req : List Byte) | challenge (req : List Byte)
  | getMeasurements (req : List Byte) | keyExchange (req : List Byte) | vendorMeasurementLog (req : List Byte)
  | registerWrite (fn off : Nat) (v : DWord)
  | undefinedTypePacket (fn n : Nat)
  | redApply (id : Nat)
  | cctlComplete (id : Nat)
  | sflushComplete (id : Nat)
  deriving DecidableEq, Repr

end Sys2Proof
end

