-- ==== Sys2Proof/Config.lean ====
section
/-! DEFINITION. What the spec leaves to the device without stating it: free values (log 5), keys and measurements (log 22)
and firmware constants (log 9). None of them has a body, so no proof can lean on a value. -/
namespace Sys2Proof.Config

/-- The value of an undefined 32-bit item, one for each index (spec/00 R8; log 5). -/
opaque freeWord : Nat → Word
/-- The value of an undefined byte, one for each index (spec/00 R8; log 5). -/
opaque freeByte : Nat → Byte
/-- A choice that the spec leaves open, one for each index (log 1, log 5). -/
opaque freeNat : Nat → Nat
/-- An open yes-or-no choice, one for each index (log 5). -/
opaque freeBool : Nat → Bool

/-- What happens next where the spec leaves the order of the device's own events, and what reaches it from outside, open; one
choice for each index (log 1). -/
opaque freeEvent : Nat → Option Instr

/-- Results of FRSQ, FEXP2, FLOG2, FSIN, FCOS and FTANH, fixed for an input but stated only as error bounds
(spec/05 R78, R98; log 17). The first argument is the sub-opcode in group 0x12. -/
opaque specialFunction : Nat → Word → Word

/-- The key that the security core has generated for a vault (spec/12 R234; log 22). Arguments: vault id, which of its keys. -/
opaque vaultKey : Nat → Nat → BitVec 256
/-- SHA-384 measurement of the boot image (spec/27 R439; log 22). -/
opaque imageMeasurement : Nat → List Byte
/-- Payload of the answer to an SPDM request (spec/27 R435; log 20). Arguments: request code, request bytes, index. -/
opaque spdmAnswer : Nat → List Byte → Nat → List Byte

/-- The snoop-filter set of a line, 0..65535 after reduction (spec/10 R208: a fixed hash, not stated; log 22). -/
opaque snoopSet : Nat → Nat

/-- The L2 slice of a line, 0..63 after reduction (spec/10: a fixed hash that is not part of the architecture; log 22). -/
opaque l2Slice : Nat → Nat

/-- The module's own number, and its routing table as pairs of a port and a module, as the physical function writes them (spec/27 R436; log 25).
The argument is the index of the free value. -/
opaque moduleNumber : Nat → Nat
opaque routes : Nat → List (Nat × Nat)

/-- The die whose command processor serves a queue of a function, 0..3 after reduction (spec/16: not stated; log 9). -/
opaque queueDie : Nat → Nat → Nat

/-- Where firmware keeps the launch board of a die, as a number of 16 KiB pages (spec/16 R313: allotted at boot; log 9). -/
opaque boardPage : Nat → Nat
/-- Where the command processors keep the snapshots of launches, in 4 KiB pages (spec/16 R447: not stated; log 9). -/
opaque snapshotPool : Nat
/-- Where the placement register block of a die answers, in blocks of 256 bytes beyond device memory (spec/19 R363: given by the start block;
log 9). -/
opaque placementBlock : Nat → Nat

/-- The service vector of the signed firmware image (spec/22 R389; log 9). -/
opaque serviceVector : DWord

end Sys2Proof.Config
end

