-- ==== Sys2Proof/Decode.lean ====
section
/-! DEFINITION. Encodings of BIA-1 (spec/03, spec/04): the field table `uses` of every instruction, the decoder with the
reasons of R63, the encoder, and the readings of base forms as their extended equivalents (R42, R68). -/
namespace Sys2Proof

/-! ### Codes of types, comparisons and rounding modes -/

/-- Type codes of spec/03 R54. -/
def Ty.code : Ty → Nat
  | .i8 => 1 | .i16 => 2 | .i32 => 3 | .i64 => 4 | .n8 => 5 | .n16 => 6
  | .n32 => 7 | .n64 => 8 | .f64 => 9 | .f32 => 10 | .f16 => 11 | .bf16 => 12

/-- The type of a code; code 0 and codes above 0xC name none. -/
def Ty.ofCode : Nat → Option Ty
  | 1 => some .i8 | 2 => some .i16 | 3 => some .i32 | 4 => some .i64 | 5 => some .n8 | 6 => some .n16
  | 7 => some .n32 | 8 => some .n64 | 9 => some .f64 | 10 => some .f32 | 11 => some .f16 | 12 => some .bf16
  | _ => none

/-- Width of a type in bits. -/
def Ty.bits : Ty → Nat
  | .i8 | .n8 => 8
  | .i16 | .n16 | .f16 | .bf16 => 16
  | .i32 | .n32 | .f32 => 32
  | .i64 | .n64 | .f64 => 64

/-- Registers an operand of the type occupies (spec/03 R50). -/
def Ty.regs (t : Ty) : Nat := if t.bits = 64 then 2 else 1
def Ty.isInt : Ty → Bool
  | .i8 | .i16 | .i32 | .i64 | .n8 | .n16 | .n32 | .n64 => true
  | _ => false
def Ty.isSigned : Ty → Bool
  | .i8 | .i16 | .i32 | .i64 => true
  | _ => false
def Ty.isFloat (t : Ty) : Bool := !t.isInt
/-- i32, n32, i64 or n64. -/
def Ty.isInt32or64 : Ty → Bool
  | .i32 | .n32 | .i64 | .n64 => true
  | _ => false
/-- f32, f16 or bf16. -/
def Ty.isFloat32or16 : Ty → Bool
  | .f32 | .f16 | .bf16 => true
  | _ => false
def Ty.isHalf : Ty → Bool
  | .f16 | .bf16 => true
  | _ => false

def CTy.code : CTy → Nat
  | .std t => t.code
  | .fd _ => 13
/-- The FD field that a type needs: 0 unless it is narrow. -/
def CTy.fdOf : CTy → Nat
  | .std _ => 0
  | .fd n => n
def CTy.regs : CTy → Nat
  | .std t => t.regs
  | .fd _ => 1
def CTy.isInt : CTy → Bool
  | .std t => t.isInt
  | .fd _ => false
def CTy.isNarrow : CTy → Bool
  | .std _ => false
  | .fd _ => true
def CTy.ok : CTy → Bool
  | .std _ => true
  | .fd n => decide (n < 16)

/-- Rounding codes of spec/03 R53. -/
def Rm.code : Rm → Nat
  | .rne => 0 | .rz => 1 | .rd => 2 | .ru => 3 | .rna => 4
def Rm.ofCode : Nat → Rm
  | 1 => .rz | 2 => .rd | 3 => .ru | 4 => .rna | _ => .rne

/-- OPM codes of spec/03 R55. -/
def CmpOp.code : CmpOp → Nat
  | .eq => 1 | .ne => 2 | .lt => 3 | .le => 4 | .gt => 5 | .ge => 6
def CmpOp.ofCode : Nat → CmpOp
  | 2 => .ne | 3 => .lt | 4 => .le | 5 => .gt | 6 => .ge | _ => .eq
def FCmpOp.code : FCmpOp → Nat
  | .cmp c => c.code | .un => 7 | .ord => 8
def FCmpOp.ofCode : Nat → FCmpOp
  | 7 => .un | 8 => .ord | n => .cmp (CmpOp.ofCode n)
def PsetOp.code : PsetOp → Nat
  | .and => 7 | .or => 8 | .xor => 9 | .andn => 10 | .orn => 11
def PsetOp.ofCode : Nat → PsetOp
  | 8 => .or | 9 => .xor | 10 => .andn | 11 => .orn | _ => .and
def ShfVar.code : ShfVar → Nat
  | .l => 0 | .r => 1 | .rl => 2 | .rr => 3
def ShfVar.ofCode : Nat → ShfVar
  | 1 => .r | 2 => .rl | 3 => .rr | _ => .l
def ShflOp.code : ShflOp → Nat
  | .pick => 7 | .rot => 8 | .flip => 9 | .slide => 10
def ShflOp.ofCode : Nat → ShflOp
  | 8 => .rot | 9 => .flip | 10 => .slide | _ => .pick
def VoteOp.code : VoteOp → Nat
  | .all => 7 | .any => 8 | .uni => 9
def VoteOp.ofCode : Nat → VoteOp
  | 8 => .any | 9 => .uni | _ => .all
def ReduxOp.code : ReduxOp → Nat
  | .add => 7 | .min => 8 | .max => 9 | .and => 10 | .or => 11 | .xor => 12
def ReduxOp.ofCode : Nat → ReduxOp
  | 8 => .min | 9 => .max | 10 => .and | 11 => .or | 12 => .xor | _ => .add
/-- Operation codes of spec/13 R256. -/
def AtomOp.code : AtomOp → Nat
  | .add => 0 | .mins => 1 | .maxs => 2 | .minu => 3 | .maxu => 4 | .and => 5 | .or => 6 | .xor => 7
  | .exch => 8 | .cas => 9 | .fadd => 10
def AtomOp.ofCode : Nat → AtomOp
  | 1 => .mins | 2 => .maxs | 3 => .minu | 4 => .maxu | 5 => .and | 6 => .or | 7 => .xor
  | 8 => .exch | 9 => .cas | 10 => .fadd | _ => .add
def Ord4.code : Ord4 → Nat
  | .plain => 0 | .acq => 1 | .rel => 2 | .acqrel => 3
def Ord4.ofCode : Nat → Ord4
  | 1 => .acq | 2 => .rel | 3 => .acqrel | _ => .plain
def Wd.code : Wd → Nat
  | .w32 => 0 | .w64 => 1 | .w128 => 2
def Wd.ofCode : Nat → Wd
  | 1 => .w64 | 2 => .w128 | _ => .w32
def Wd.regs : Wd → Nat
  | .w32 => 1 | .w64 => 2 | .w128 => 4
def Wd.bytes : Wd → Nat
  | .w32 => 4 | .w64 => 8 | .w128 => 16

/-- n32 or n64 by a width flag. -/
def nTy (w64 : Bool) : Ty := if w64 then .n64 else .n32
def DrainTy.code : DrainTy → Nat
  | .f32 => 10 | .f16 => 11 | .bf16 => 12 | .i32 => 3 | .x64 => 4 | .fd _ => 13
def DrainTy.fdOf : DrainTy → Nat
  | .fd n => n
  | _ => 0

/-! ### The field table -/

/-- Classes of a source field with its value (spec/03 R47): unused; vector-or-scalar; vector only; scalar with K = 1 or
the literal; scalar with K = 1; predicate; auxiliary (first index, count, number); completion register; CALL's absent
base; CVINIT's B where its form reads none. The first number of a register class is its width in registers. -/
inductive FSpec where
  | no
  | vs (w : Nat) (x : Src)
  | v (w : Nat) (x : Src)
  | sc (w : Nat) (x : Src)
  | scK (w : Nat) (x : Src)
  | pred (n : Nat)
  | aux (base count n : Nat)
  | cq (n : Nat)
  | absent
  | blank
  deriving DecidableEq, Repr

/-- Classes of a destination field with its value. -/
inductive DSpec where
  | no
  | vs (w : Nat) (d : Dst)
  | v (w : Nat) (d : Dst)
  | sc (w : Nat) (d : Dst)
  | pred (n : Nat)
  | aux (base count n : Nat)
  deriving DecidableEq, Repr

/-- W2 classes of spec/03 R52. -/
inductive W2Class where
  | m | o | i | z
  deriving DecidableEq, Repr

/-- Uniform markings of spec/04 R67: permitted, required, forbidden. -/
inductive Mark where
  | p | q | f
  deriving DecidableEq, Repr

/-- One row of the field table. `ok` holds when every type, operation and immediate is one that the instruction
defines, `typed` when those that give its operands their widths are. -/
structure Uses where
  h : Hdr
  op : Nat
  xop : Nat
  cls : W2Class
  w2 : Nat
  d : DSpec := .no
  a : FSpec := .no
  b : FSpec := .no
  c : FSpec := .no
  mark : Mark := .p
  ll : Bool := false
  ok : Bool := true
  typed : Bool := ok
  deriving DecidableEq, Repr

/-- The modifier word of spec/03 R53. -/
def mword (fd opm rm imm tys tyd var : Nat) : Nat :=
  fd * 0x1000000 + opm * 0x100000 + rm * 0x20000 + imm * 0x1000 + tys * 0x100 + tyd * 0x10 + var

/-- A modifier word that holds TYD alone. -/
def mty (t : Ty) : Nat := mword 0 0 0 0 0 t.code 0
/-- TYD and RM. -/
def mtr (t : Ty) (rm : Rm) : Nat := mword 0 0 rm.code 0 0 t.code 0
/-- A flag as a bit. -/
def bit (b : Bool) : Nat := if b then 1 else 0

/-- A conversion that is always exact, so that RM must be 000 (spec/07 R152). -/
def cvtExact : CTy → CTy → Bool
  | .std td, .std ts =>
    (td.isInt && ts.isInt) ||
      (td.isFloat && ts.isFloat && (td = ts || td = .f64 || (td = .f32 && ts.isHalf)))
  | .std td, .fd _ => td = .f32 || td = .f64
  | .fd _, _ => false

/-- The static restrictions of CVT (spec/07 R152). -/
def cvtOk (sat : Bool) (td ts : CTy) (rm : Rm) : Bool :=
  td.ok && ts.ok && !(td.isNarrow && ts.isNarrow) && (!sat || (td.isInt && ts.isInt)) &&
    (!cvtExact td ts || rm = .rne)

/-- The narrow side types of PACK and UNPACK (spec/07 R153). -/
def packSide : CTy → Bool
  | .fd n => decide (n < 16)
  | .std t => t = .f16 || t = .bf16 || t = .i8 || t = .n8 || t = .i16 || t = .n16

/-- Containers that k may name: 32 over the container width; a narrow format has at most 8 and its own limit is checked
at issue (spec/07 R153, R154). -/
def packLimit : CTy → Nat
  | .fd _ => 8
  | .std t => if t.bits = 8 then 4 else 2

/-- PACK takes every RM: the restriction of R152 is stated for CVT and, by R154, for UNPACK. -/
def packOk (td ts : CTy) (k : Nat) : Bool :=
  packSide td && (ts = .std .f32 || ts = .std .i32 || ts = .std .n32) && decide (k < packLimit td)

def unpackOk (td ts : CTy) (rm : Rm) (k : Nat) : Bool :=
  packSide ts && (td = .std .f32 || td = .std .f16 || td = .std .bf16 || td = .std .i32) &&
    (!cvtExact td ts || rm = .rne) && decide (k < packLimit ts)

/-- Types and rounding of REDUX (spec/07 R160). -/
def reduxOk (op : ReduxOp) (ty : Ty) (rm : Rm) : Bool :=
  match op with
  | .add => ty.isInt32or64 && rm = .rne || ty = .f32
  | .min | .max => (ty.isInt32or64 || ty = .f32) && rm = .rne
  | .and | .or | .xor => (ty = .n32 || ty = .n64) && rm = .rne

/-- Widths and orderings of ATOM and RED (spec/13 R256). -/
def atomOk (red : Bool) (op : AtomOp) (ord : Ord4) (w : Wd) : Bool :=
  (match op with
    | .fadd => w = .w32
    | .cas => !red
    | .exch => !red && w ≠ .w128
    | _ => w ≠ .w128) &&
  (!red || ord = .plain || ord = .rel)

/-- The atomic XOP layout of spec/04 R70. -/
def atomXop (op : AtomOp) (ord : Ord4) (w : Wd) : Nat := op.code * 16 + ord.code * 4 + w.code
/-- The memory XOP layout of spec/04 R70. -/
def memXop (sel : Nat) (ord : Ord4) (ty : Nat) : Nat := sel * 64 + ord.code * 16 + ty

/-- Is a literal operand at least `n` (or not a literal)? -/
def Src.litGe (x : Src) (n : Nat) : Bool :=
  match x with
  | .lit y => decide (n ≤ y.toNat % 0x100000000)
  | _ => true
/-- Is a literal operand below `n` (or not a literal)? -/
def Src.litLt (x : Src) (n : Nat) : Bool :=
  match x with
  | .lit y => decide (y.toNat % 0x100000000 < n)
  | _ => true

/-- Registers of a special register as an operand (spec/07 R145, spec/22 R386). -/
def srRegs (num : Nat) : Nat := if num = 0xC ∨ num = 0x10 ∨ num = 0x13 then 2 else 1
/-- Registers of an RDEXC item (spec/24 R426). -/
def excRegs (sel : Nat) : Nat := if sel = 6 ∨ sel = 7 ∨ sel = 9 then 2 else 1
/-- The register class that CVINIT's B takes (spec/08 R169). -/
def CvKind.field : CvKind → FSpec
  | .mask b => .sc 1 b
  | _ => .blank
def CvKind.w2 : CvKind → Nat
  | .group g => g
  | .warp => 0x40000000
  | .mask _ => 0x80000000
def CvKind.ok : CvKind → Bool
  | .group g => decide (g < 16)
  | _ => true
def DrainMods.w2 (m : DrainMods) : Nat :=
  mword m.td.fdOf 0 m.rm.code m.stile 0 m.td.code (bit m.rs + 2 * bit m.cs + 4 * bit m.add + 8 * bit m.sp)
/-- The restrictions of MDRAIN (spec/08 R184). -/
def DrainMods.ok (m : DrainMods) : Bool :=
  decide (m.stile < 16) && (m.rs || m.cs || m.stile = 0) &&
  (match m.td with
    | .x64 => m.rm = .rne && !m.rs && !m.cs
    | .fd n => decide (n < 16) && !m.add
    | _ => true)

/-- The fields of every extended instruction (spec/07 R133, R139, R146, R157, R163; spec/08 R169, R176..R186; spec/13
R249..R273; spec/18 R342; spec/22 R388; spec/24 R421). Events and base forms have none here. -/
def uses : Instr → Option Uses
  | .iadd h ty d a b => some { h, op := 0x00, xop := 0, cls := .m, w2 := mty ty, d := .vs ty.regs d, a := .vs ty.regs a, b := .vs ty.regs b, ok := ty.isInt }
  | .isub h ty d a b => some { h, op := 0x00, xop := 1, cls := .m, w2 := mty ty, d := .vs ty.regs d, a := .vs ty.regs a, b := .vs ty.regs b, ok := ty.isInt }
  | .imul h ty d a b => some { h, op := 0x00, xop := 2, cls := .m, w2 := mty ty, d := .vs ty.regs d, a := .vs ty.regs a, b := .vs ty.regs b, ok := ty.isInt }
  | .imulh h ty d a b => some { h, op := 0x00, xop := 3, cls := .m, w2 := mty ty, d := .vs ty.regs d, a := .vs ty.regs a, b := .vs ty.regs b, ok := ty.isInt32or64 }
  | .imad h wide ty d a b c => some { h, op := 0x00, xop := 4, cls := .m, w2 := mword 0 0 0 0 0 ty.code (bit wide), d := .vs (if wide then 2 else ty.regs) d, a := .vs ty.regs a, b := .vs ty.regs b, c := .vs (if wide then 2 else ty.regs) c, ok := ty.isInt32or64 && (!wide || ty = .i32 || ty = .n32), typed := ty.isInt32or64 }
  | .imin h ty d a b => some { h, op := 0x00, xop := 5, cls := .m, w2 := mty ty, d := .vs ty.regs d, a := .vs ty.regs a, b := .vs ty.regs b, ok := ty.isInt }
  | .imax h ty d a b => some { h, op := 0x00, xop := 6, cls := .m, w2 := mty ty, d := .vs ty.regs d, a := .vs ty.regs a, b := .vs ty.regs b, ok := ty.isInt }
  | .idot4 h sa sb d a b c => some { h, op := 0x01, xop := 0, cls := .m, w2 := mword 0 0 0 0 (if sa then 1 else 5) 3 (bit sb), d := .vs 1 d, a := .vs 1 a, b := .vs 1 b, c := .vs 1 c }
  | .lea h ty sh d a b => some { h, op := 0x01, xop := 1, cls := .m, w2 := mword 0 0 0 sh 0 ty.code 0, d := .vs 2 d, a := .vs 2 a, b := .vs ty.regs b, ok := ty.isInt32or64 && decide (sh < 32) }
  | .and h w d a b => some { h, op := 0x02, xop := 0, cls := .m, w2 := mty (nTy w), d := .vs (nTy w).regs d, a := .vs (nTy w).regs a, b := .vs (nTy w).regs b }
  | .or h w d a b => some { h, op := 0x02, xop := 1, cls := .m, w2 := mty (nTy w), d := .vs (nTy w).regs d, a := .vs (nTy w).regs a, b := .vs (nTy w).regs b }
  | .xor h w d a b => some { h, op := 0x02, xop := 2, cls := .m, w2 := mty (nTy w), d := .vs (nTy w).regs d, a := .vs (nTy w).regs a, b := .vs (nTy w).regs b }
  | .lop3 h f d a b c => some { h, op := 0x02, xop := 3, cls := .i, w2 := f.toNat, d := .vs 1 d, a := .vs 1 a, b := .vs 1 b, c := .vs 1 c }
  | .icmp h op ty pd a b => some { h, op := 0x03, xop := 0, cls := .m, w2 := mword 0 op.code 0 0 0 ty.code 0, d := .pred pd, a := .vs ty.regs a, b := .vs ty.regs b, ok := ty.isInt }
  | .sel h w d a b pc => some { h, op := 0x03, xop := 1, cls := .m, w2 := mty (nTy w), d := .vs (nTy w).regs d, a := .vs (nTy w).regs a, b := .vs (nTy w).regs b, c := .pred pc }
  | .pset h op pd pa pb => some { h, op := 0x03, xop := 2, cls := .m, w2 := mword 0 op.code 0 0 0 0 0, d := .pred pd, a := .pred pa, b := .pred pb }
  | .shl h w d a b => some { h, op := 0x04, xop := 0, cls := .m, w2 := mty (nTy w), d := .vs (nTy w).regs d, a := .vs (nTy w).regs a, b := .vs 1 b }
  | .shr h w d a b => some { h, op := 0x04, xop := 1, cls := .m, w2 := mty (nTy w), d := .vs (nTy w).regs d, a := .vs (nTy w).regs a, b := .vs 1 b }
  | .sar h w d a b => some { h, op := 0x04, xop := 2, cls := .m, w2 := mty (if w then .i64 else .i32), d := .vs (nTy w).regs d, a := .vs (nTy w).regs a, b := .vs 1 b }
  | .shf h var d a b c => some { h, op := 0x04, xop := 3, cls := .m, w2 := var.code, d := .vs 1 d, a := .vs 1 a, b := .vs 1 b, c := .vs 1 c }
  | .bfe h ty d a b => some { h, op := 0x05, xop := 0, cls := .m, w2 := mty ty, d := .vs ty.regs d, a := .vs ty.regs a, b := .vs 1 b, ok := ty.isInt32or64 }
  | .bfi h w d a b c => some { h, op := 0x05, xop := 1, cls := .m, w2 := mty (nTy w), d := .vs (nTy w).regs d, a := .vs (nTy w).regs a, b := .vs 1 b, c := .vs (nTy w).regs c }
  | .popc h w d b => some { h, op := 0x05, xop := 2, cls := .m, w2 := mty (nTy w), d := .vs 1 d, b := .vs (nTy w).regs b }
  | .clz h w d b => some { h, op := 0x05, xop := 3, cls := .m, w2 := mty (nTy w), d := .vs 1 d, b := .vs (nTy w).regs b }
  | .ctz h w d b => some { h, op := 0x05, xop := 4, cls := .m, w2 := mty (nTy w), d := .vs 1 d, b := .vs (nTy w).regs b }
  | .brev h w d b => some { h, op := 0x05, xop := 5, cls := .m, w2 := mty (nTy w), d := .vs (nTy w).regs d, b := .vs (nTy w).regs b }
  | .mov h d b => some { h, op := 0x06, xop := 0, cls := .m, w2 := 0, d := .vs 1 d, b := .vs 1 b }
  | .movl h d b => some { h, op := 0x06, xop := 1, cls := .z, w2 := 0, d := .vs 2 d, b := .vs 2 b }
  | .movs h (.fromFd d fd) => some { h, op := 0x06, xop := 2, cls := .m, w2 := 0, d := .sc 1 d, a := .aux 0x30 16 fd, mark := .q }
  | .movs h (.toFd fd b) => some { h, op := 0x06, xop := 2, cls := .m, w2 := 1, d := .aux 0x30 16 fd, b := .sc 1 b, mark := .q }
  | .rdsr h num d => some { h, op := 0x06, xop := 3, cls := .i, w2 := num, d := .vs (srRegs num) d, ok := decide (num ≤ 0x13) }
  | .fadd h ty rm d a b => some { h, op := 0x10, xop := 0, cls := .m, w2 := mtr ty rm, d := .vs ty.regs d, a := .vs ty.regs a, b := .vs ty.regs b, ok := ty.isFloat32or16 }
  | .fmul h ty rm d a b => some { h, op := 0x10, xop := 1, cls := .m, w2 := mtr ty rm, d := .vs ty.regs d, a := .vs ty.regs a, b := .vs ty.regs b, ok := ty.isFloat32or16 }
  | .ffma h ty rm d a b c => some { h, op := 0x10, xop := 2, cls := .m, w2 := mtr ty rm, d := .vs ty.regs d, a := .vs ty.regs a, b := .vs ty.regs b, c := .vs ty.regs c, ok := ty.isFloat32or16 }
  | .fmin h ty d a b => some { h, op := 0x10, xop := 3, cls := .m, w2 := mty ty, d := .vs ty.regs d, a := .vs ty.regs a, b := .vs ty.regs b, ok := ty.isFloat }
  | .fmax h ty d a b => some { h, op := 0x10, xop := 4, cls := .m, w2 := mty ty, d := .vs ty.regs d, a := .vs ty.regs a, b := .vs ty.regs b, ok := ty.isFloat }
  | .fcmp h op ty pd a b => some { h, op := 0x11, xop := 0, cls := .m, w2 := mword 0 op.code 0 0 0 ty.code 0, d := .pred pd, a := .vs ty.regs a, b := .vs ty.regs b, ok := ty.isFloat }
  | .frnd h x ty rm d b => some { h, op := 0x11, xop := 1, cls := .m, w2 := mword 0 0 rm.code 0 0 ty.code (bit x), d := .vs ty.regs d, b := .vs ty.regs b, ok := ty.isFloat }
  | .frcp h rm d b => some { h, op := 0x12, xop := 0, cls := .m, w2 := mtr .f32 rm, d := .vs 1 d, b := .vs 1 b, ll := true }
  | .frsq h d b => some { h, op := 0x12, xop := 1, cls := .m, w2 := mty .f32, d := .vs 1 d, b := .vs 1 b, ll := true }
  | .fsqrt h rm d b => some { h, op := 0x12, xop := 2, cls := .m, w2 := mtr .f32 rm, d := .vs 1 d, b := .vs 1 b, ll := true }
  | .fexp2 h d b => some { h, op := 0x12, xop := 3, cls := .m, w2 := mty .f32, d := .vs 1 d, b := .vs 1 b, ll := true }
  | .flog2 h d b => some { h, op := 0x12, xop := 4, cls := .m, w2 := mty .f32, d := .vs 1 d, b := .vs 1 b, ll := true }
  | .fsin h d b => some { h, op := 0x12, xop := 5, cls := .m, w2 := mty .f32, d := .vs 1 d, b := .vs 1 b, ll := true }
  | .fcos h d b => some { h, op := 0x12, xop := 6, cls := .m, w2 := mty .f32, d := .vs 1 d, b := .vs 1 b, ll := true }
  | .ftanh h d b => some { h, op := 0x12, xop := 7, cls := .m, w2 := mty .f32, d := .vs 1 d, b := .vs 1 b, ll := true }
  | .hadd2 h ty rm d a b => some { h, op := 0x13, xop := 0, cls := .m, w2 := mtr ty rm, d := .vs 1 d, a := .vs 1 a, b := .vs 1 b, ok := ty.isHalf }
  | .hmul2 h ty rm d a b => some { h, op := 0x13, xop := 1, cls := .m, w2 := mtr ty rm, d := .vs 1 d, a := .vs 1 a, b := .vs 1 b, ok := ty.isHalf }
  | .hfma2 h ty rm d a b c => some { h, op := 0x13, xop := 2, cls := .m, w2 := mtr ty rm, d := .vs 1 d, a := .vs 1 a, b := .vs 1 b, c := .vs 1 c, ok := ty.isHalf }
  | .hdot2 h ts rm d a b c => some { h, op := 0x13, xop := 3, cls := .m, w2 := mword 0 0 rm.code 0 ts.code Ty.f32.code 0, d := .vs 1 d, a := .vs 1 a, b := .vs 1 b, c := .vs 1 c, ok := ts.isHalf }
  | .dadd h rm d a b => some { h, op := 0x14, xop := 0, cls := .m, w2 := mtr .f64 rm, d := .vs 2 d, a := .vs 2 a, b := .vs 2 b, ll := true }
  | .dmul h rm d a b => some { h, op := 0x14, xop := 1, cls := .m, w2 := mtr .f64 rm, d := .vs 2 d, a := .vs 2 a, b := .vs 2 b, ll := true }
  | .dfma h rm d a b c => some { h, op := 0x14, xop := 2, cls := .m, w2 := mtr .f64 rm, d := .vs 2 d, a := .vs 2 a, b := .vs 2 b, c := .vs 2 c, ll := true }
  | .cvt h sat td ts rm d b => some { h, op := 0x20, xop := 0, cls := .m, w2 := mword (td.fdOf + ts.fdOf) 0 rm.code 0 ts.code td.code (bit sat), d := .vs td.regs d, b := .vs ts.regs b, ok := cvtOk sat td ts rm, typed := td.ok && ts.ok }
  | .pack h td ts rm k d a c => some { h, op := 0x20, xop := 1, cls := .m, w2 := mword (td.fdOf + ts.fdOf) 0 rm.code k ts.code td.code 0, d := .vs 1 d, a := .vs 1 a, c := .vs 1 c, ok := packOk td ts k }
  | .unpack h td ts rm k d b => some { h, op := 0x20, xop := 2, cls := .m, w2 := mword (td.fdOf + ts.fdOf) 0 rm.code k ts.code td.code 0, d := .vs 1 d, b := .vs 1 b, ok := unpackOk td ts rm k }
  | .shfl h op seg d a b m => some { h, op := 0x21, xop := 0, cls := .m, w2 := mword 0 op.code 0 seg 0 0 0, d := .v 1 d, a := .v 1 a, b := .vs 1 b, c := .vs 1 m, mark := .f, ok := decide (seg ≤ 5) }
  | .ballot h d pa m => some { h, op := 0x21, xop := 1, cls := .m, w2 := 0, d := .v 1 d, a := .pred pa, c := .vs 1 m, mark := .f }
  | .vote h op pd pa m => some { h, op := 0x21, xop := 2, cls := .m, w2 := mword 0 op.code 0 0 0 0 0, d := .pred pd, a := .pred pa, c := .vs 1 m, mark := .f }
  | .matchLanes h w d a m => some { h, op := 0x21, xop := 3, cls := .m, w2 := mty (nTy w), d := .v 1 d, a := .v (nTy w).regs a, c := .vs 1 m, mark := .f }
  | .redux h op ty rm d a m => some { h, op := 0x21, xop := 4, cls := .m, w2 := mword 0 op.code rm.code 0 0 ty.code 0, d := .v ty.regs d, a := .v ty.regs a, c := .vs 1 m, mark := .f, ok := reduxOk op ty rm, typed := reduxOk op ty .rne }
  | .prmt h d a b c => some { h, op := 0x21, xop := 5, cls := .m, w2 := 0, d := .vs 1 d, a := .vs 1 a, b := .vs 1 b, c := .vs 1 c }
  | .bra h off => some { h, op := 0x28, xop := 0, cls := .o, w2 := off.toNat, mark := .f }
  | .brx h a off => some { h, op := 0x28, xop := 1, cls := .o, w2 := off.toNat, a := .vs 2 a, mark := .f }
  | .call h none off => some { h, op := 0x28, xop := 2, cls := .o, w2 := off.toNat, a := .absent, mark := .f }
  | .call h (some a) off => some { h, op := 0x28, xop := 2, cls := .o, w2 := off.toNat, a := .vs 2 a, mark := .f }
  | .ret h => some { h, op := 0x28, xop := 3, cls := .z, w2 := 0, mark := .f }
  | .exit h => some { h, op := 0x28, xop := 4, cls := .z, w2 := 0, mark := .f }
  | .yield h => some { h, op := 0x28, xop := 5, cls := .z, w2 := 0, mark := .f }
  | .nopExt h => some { h, op := 0x28, xop := 6, cls := .z, w2 := 0, mark := .f }
  | .ld h ord ty d a off => some { h, op := 0x30, xop := memXop 0 ord ty.code, cls := .o, w2 := off.toNat, d := .vs ty.regs d, a := .vs 2 a, ll := true, ok := ord = .plain || ord = .acq, typed := true }
  | .st h ord ty a b off => some { h, op := 0x30, xop := memXop 1 ord ty.code, cls := .o, w2 := off.toNat, a := .vs 2 a, b := .vs ty.regs b, ok := ord = .plain || ord = .rel, typed := true }
  | .lds h ord ty d a off => some { h, op := 0x30, xop := memXop 2 ord ty.code, cls := .o, w2 := off.toNat, d := .vs ty.regs d, a := .vs 1 a, ll := true, ok := ord = .plain || ord = .acq, typed := true }
  | .sts h ord ty a b off => some { h, op := 0x30, xop := memXop 3 ord ty.code, cls := .o, w2 := off.toNat, a := .vs 1 a, b := .vs ty.regs b, ok := ord = .plain || ord = .rel, typed := true }
  | .cmpst h ty d a b pc off => some { h, op := 0x31, xop := memXop 0 .plain ty.code, cls := .o, w2 := off.toNat, d := .v 1 d, a := .sc 2 a, b := .vs ty.regs b, c := .pred pc, mark := .f }
  | .expld h ty d a pc off => some { h, op := 0x31, xop := memXop 1 .plain ty.code, cls := .o, w2 := off.toNat, d := .v ty.regs d, a := .sc 2 a, c := .pred pc, mark := .f, ll := true }
  | .pref h lvl a off => some { h, op := 0x31, xop := memXop 2 .plain lvl, cls := .o, w2 := off.toNat, a := .vs 2 a, ok := decide (lvl < 3) }
  | .cctlWb h a b off => some { h, op := 0x31, xop := memXop 3 .plain 1, cls := .o, w2 := off.toNat, a := .vs 2 a, b := .vs 1 b }
  | .cctlInv h a b off => some { h, op := 0x31, xop := memXop 3 .plain 2, cls := .o, w2 := off.toNat, a := .vs 2 a, b := .vs 1 b }
  | .atom h op ord w d a b c off => some { h, op := 0x32, xop := atomXop op ord w, cls := .o, w2 := off.toNat, d := .vs w.regs d, a := .vs 2 a, b := .vs w.regs b, c := if op = .cas then .vs w.regs c else .no, ll := true, ok := atomOk false op ord w && (op = .cas || c = .zero), typed := atomOk false op .plain w }
  | .red h op ord w a b off => some { h, op := 0x33, xop := atomXop op ord w, cls := .o, w2 := off.toNat, a := .vs 2 a, b := .vs w.regs b, ok := atomOk true op ord w, typed := atomOk true op .plain w }
  | .fence h => some { h, op := 0x34, xop := 0, cls := .z, w2 := 0, mark := .f }
  | .xfence h x y => some { h, op := 0x34, xop := 1, cls := .i, w2 := x + 16 * y, mark := .f, ok := decide (x < 4) && decide (y < 4) && decide (x ≠ y) }
  | .bar h => some { h, op := 0x34, xop := 2, cls := .z, w2 := 0, mark := .f }
  | .smap h n a b c => some { h, op := 0x35, xop := 0, cls := .i, w2 := n, a := .sc 2 a, b := .sc 1 b, c := .sc 1 c, mark := .q, ok := decide (n < 16), typed := true }
  | .sflush h => some { h, op := 0x35, xop := 1, cls := .z, w2 := 0, mark := .q }
  | .cpq h a off => some { h, op := 0x40, xop := memXop 0 .plain 0, cls := .o, w2 := off.toNat, a := .vs 1 a }
  | .cpld h ty d a cq off => some { h, op := 0x40, xop := memXop 1 .plain ty.code, cls := .o, w2 := off.toNat, d := .v ty.regs d, a := .vs 2 a, c := .cq cq, mark := .f }
  | .cqwait h cq => some { h, op := 0x40, xop := memXop 2 .plain 0, cls := .z, w2 := 0, a := .cq cq, mark := .q }
  | .aarm h a b c off => some { h, op := 0x41, xop := 0, cls := .o, w2 := off.toNat, a := .vs 1 a, b := .vs 1 b, c := .vs 1 c }
  | .aarrive h a off => some { h, op := 0x41, xop := 1, cls := .o, w2 := off.toNat, a := .vs 1 a, mark := .f }
  | .await h a b off => some { h, op := 0x41, xop := 2, cls := .o, w2 := off.toNat, a := .vs 1 a, b := .vs 1 b, mark := .f }
  | .caint h node (.scratch a) vid d => some { h, op := 0x48, xop := 0, cls := .m, w2 := 2 * bit node, d := .vs 4 d, a := .vs 1 a, b := .vs 1 vid, ll := true }
  | .caint h node (.tile t row) vid d => some { h, op := 0x48, xop := 0, cls := .m, w2 := 1 + 2 * bit node, d := .vs 4 d, a := .aux 0 16 t, b := .vs 1 vid, c := .vs 1 row, ll := true, ok := row.litLt 32, typed := true }
  | .caget h d a b off => some { h, op := 0x48, xop := 1, cls := .o, w2 := off.toNat, d := .vs 1 d, a := .vs 1 a, b := .vs 4 b, ll := true }
  | .carel h b => some { h, op := 0x48, xop := 2, cls := .z, w2 := 0, b := .vs 4 b }
  | .caswap h d a b c off => some { h, op := 0x48, xop := 3, cls := .o, w2 := off.toNat, d := .vs 4 d, a := .vs 2 a, b := .vs 4 b, c := .vs 4 c, ll := true }
  | .caexp h a b c off => some { h, op := 0x48, xop := 4, cls := .o, w2 := off.toNat, a := .vs 2 a, b := .vs 4 b, c := .vs 2 c }
  | .tld h t a b k off => some { h, op := 0x50, xop := 0, cls := .o, w2 := off.toNat, d := .aux 0 16 t, a := .sc 2 a, b := .sc 1 b, c := .aux 0x28 8 k, mark := .f, ll := true }
  | .tst h t a b k off => some { h, op := 0x50, xop := 1, cls := .o, w2 := off.toNat, d := .aux 0 16 t, a := .sc 2 a, b := .sc 1 b, c := .aux 0x28 8 k, mark := .f }
  | .tzero h t => some { h, op := 0x50, xop := 2, cls := .z, w2 := 0, d := .aux 0 16 t, mark := .f }
  | .tmov h d a => some { h, op := 0x50, xop := 3, cls := .z, w2 := 0, d := .aux 0 16 d, a := .aux 0 16 a, mark := .f }
  | .txpose h d a => some { h, op := 0x50, xop := 4, cls := .z, w2 := 0, d := .aux 0 16 d, a := .aux 0 16 a, mark := .f }
  | .tcvt h rm d a => some { h, op := 0x50, xop := 5, cls := .m, w2 := mword 0 0 rm.code 0 0 0 0, d := .aux 0 16 d, a := .aux 0 16 a, mark := .f }
  | .movtc h tc b => some { h, op := 0x51, xop := 0, cls := .z, w2 := 0, d := .aux 0x10 16 tc, b := .sc 2 b, mark := .q }
  | .rdtc h d tc => some { h, op := 0x51, xop := 1, cls := .z, w2 := 0, d := .sc 2 d, a := .aux 0x10 16 tc, mark := .q }
  | .cvinit h k kind => some { h, op := 0x51, xop := 2, cls := .i, w2 := kind.w2, d := .aux 0x28 8 k, b := kind.field, mark := .q, ok := kind.ok }
  | .mma h c a b k => some { h, op := 0x51, xop := 3, cls := .m, w2 := 0, d := .aux 0x20 2 c, a := .aux 0 16 a, b := .aux 0 16 b, c := .aux 0x28 8 k, mark := .f, ll := true }
  | .mdrain h m c a b k => some { h, op := 0x51, xop := 4, cls := .m, w2 := m.w2, d := .aux 0x20 2 c, a := .scK (if m.sp then 1 else 2) a, b := .scK 2 b, c := .aux 0x28 8 k, mark := .f, ll := true, ok := m.ok, typed := true }
  | .mclr h c k => some { h, op := 0x51, xop := 5, cls := .z, w2 := 0, d := .aux 0x20 2 c, c := .aux 0x28 8 k, mark := .f }
  | .gbar h g => some { h, op := 0x58, xop := 0, cls := .i, w2 := g, mark := .f, ok := decide (g < 16) }
  | .clbar h => some { h, op := 0x58, xop := 1, cls := .z, w2 := 0, mark := .f }
  | .rolesw h r => some { h, op := 0x58, xop := 2, cls := .i, w2 := r, mark := .f, ok := decide (r < 4) }
  | .roleswTry h pd r => some { h, op := 0x58, xop := 3, cls := .i, w2 := r, d := .pred pd, mark := .f, ok := decide (r < 4) }
  | .wait h op ty pd a b => some { h, op := 0x58, xop := 4, cls := .m, w2 := mword 0 op.code 0 0 0 ty.code 0, d := .pred pd, a := .vs 2 a, b := .vs ty.regs b, mark := .f, ok := ty.isInt32or64 }
  | .waitExt h op ty pd a b => some { h, op := 0x58, xop := 5, cls := .m, w2 := mword 0 op.code 0 0 0 ty.code 0, d := .pred pd, a := .vs 2 a, b := .vs ty.regs b, mark := .f, ok := ty.isInt32or64 }
  | .wake h d a b => some { h, op := 0x58, xop := 6, cls := .z, w2 := 0, d := .vs 1 d, a := .vs 2 a, b := .vs 1 b }
  | .launch h a b c => some { h, op := 0x59, xop := 0, cls := .z, w2 := 0, a := .vs 2 a, b := .vs 2 b, c := .vs 2 c }
  | .launchTry h pd a b c => some { h, op := 0x59, xop := 1, cls := .z, w2 := 0, d := .pred pd, a := .vs 2 a, b := .vs 2 b, c := .vs 2 c }
  | .relaunch h a b c => some { h, op := 0x59, xop := 2, cls := .z, w2 := 0, a := .vs 2 a, b := .vs 2 b, c := .vs 2 c }
  | .place h pd a b c => some { h, op := 0x59, xop := 3, cls := .z, w2 := 0, d := .pred pd, a := .sc 2 a, b := .sc 1 b, c := .sc 2 c, mark := .q }
  | .evict h pd b => some { h, op := 0x59, xop := 4, cls := .z, w2 := 0, d := .pred pd, b := .sc 2 b, mark := .q }
  | .tryW h off => some { h, op := 0x60, xop := 0, cls := .o, w2 := off.toNat, mark := .f }
  | .tryB h off => some { h, op := 0x60, xop := 1, cls := .o, w2 := off.toNat, mark := .f }
  | .endtry h => some { h, op := 0x60, xop := 2, cls := .z, w2 := 0, mark := .f }
  | .throw h b c => some { h, op := 0x60, xop := 3, cls := .z, w2 := 0, b := .vs 1 b, c := .vs 2 c, mark := .f, ok := b.litGe 0x10000, typed := true }
  | .rethrow h => some { h, op := 0x60, xop := 4, cls := .z, w2 := 0, mark := .f }
  | .rdexc h sel d => some { h, op := 0x60, xop := 5, cls := .i, w2 := sel, d := .vs (excRegs sel) d, ok := decide (sel ≤ 10) }
  | .clrexc h => some { h, op := 0x60, xop := 6, cls := .z, w2 := 0, mark := .f }
  | .trap h pd n => some { h, op := 0x68, xop := 0, cls := .i, w2 := n.toNat, d := .pred pd, mark := .f }
  | .svc h n => some { h, op := 0x68, xop := 1, cls := .i, w2 := n.toNat, mark := .f }
  | .brk h n => some { h, op := 0x68, xop := 2, cls := .i, w2 := n.toNat, mark := .f }
  | .wrsr h num b => some { h, op := 0x68, xop := 3, cls := .i, w2 := num, b := .vs (srRegs num) b, ok := num = 0xE || num = 0xF || num = 0x10 || num = 0x13 }
  | .eret h => some { h, op := 0x68, xop := 4, cls := .z, w2 := 0, mark := .f }
  | .halt h => some { h, op := 0x68, xop := 5, cls := .z, w2 := 0, mark := .f }
  | .pmcfg h n b => some { h, op := 0x69, xop := 0, cls := .i, w2 := n, b := .sc 1 b, mark := .q, ok := decide (n < 8) }
  | .pmrd h st n d => some { h, op := 0x69, xop := 1, cls := .i, w2 := n + 8 * bit st, d := .vs (if st then 1 else 2) d, ok := decide (n < 8) }
  | .dbgmark h n => some { h, op := 0x69, xop := 2, cls := .i, w2 := n.toNat, mark := .f }
  | _ => none

/-! ### Base forms as their extended equivalents (spec/04 R68, R69) -/

def BaseF.hdr (f : BaseF) : Hdr := { g := f.g, neg := false, u := f.u, la := 0 }
/-- D names vD when U = 0 and sD when U = 1; 63 then names sz (spec/03 R43). -/
def BaseF.dst (f : BaseF) : Dst := if f.u then (if f.d = 63 then .none else .s f.d) else .v f.d
def BaseF.srcA (f : BaseF) : Src := if f.u then (if f.a = 63 then .zero else .s f.a) else .v f.a
def BSrc.src : BSrc → Src
  | .v n => .v n
  | .s n => if n = 63 then .zero else .s n
  | .lit x => .lit x
def BaseF.srcB (f : BaseF) : Src := f.b.src

/-- The extended instruction whose effect a base form has; any other instruction stands for itself. -/
def expand : Instr → Instr
  | .nop f => .nopExt f.hdr
  | .iaddI32Base f => .iadd f.hdr .i32 f.dst f.srcA f.srcB
  | .isubI32Base f => .isub f.hdr .i32 f.dst f.srcA f.srcB
  | .imulI32Base f => .imul f.hdr .i32 f.dst f.srcA f.srcB
  | .imulhI32Base f => .imulh f.hdr .i32 f.dst f.srcA f.srcB
  | .imulhN32Base f => .imulh f.hdr .n32 f.dst f.srcA f.srcB
  | .iminI32Base f => .imin f.hdr .i32 f.dst f.srcA f.srcB
  | .iminN32Base f => .imin f.hdr .n32 f.dst f.srcA f.srcB
  | .imaxI32Base f => .imax f.hdr .i32 f.dst f.srcA f.srcB
  | .imaxN32Base f => .imax f.hdr .n32 f.dst f.srcA f.srcB
  | .iaddI64Base f => .iadd f.hdr .i64 f.dst f.srcA f.srcB
  | .isubI64Base f => .isub f.hdr .i64 f.dst f.srcA f.srcB
  | .imulI64Base f => .imul f.hdr .i64 f.dst f.srcA f.srcB
  | .andN32Base f => .and f.hdr false f.dst f.srcA f.srcB
  | .orN32Base f => .or f.hdr false f.dst f.srcA f.srcB
  | .xorN32Base f => .xor f.hdr false f.dst f.srcA f.srcB
  | .shlN32Base f => .shl f.hdr false f.dst f.srcA f.srcB
  | .shrN32Base f => .shr f.hdr false f.dst f.srcA f.srcB
  | .sarI32Base f => .sar f.hdr false f.dst f.srcA f.srcB
  | .shlN64Base f => .shl f.hdr true f.dst f.srcA f.srcB
  | .shrN64Base f => .shr f.hdr true f.dst f.srcA f.srcB
  | .sarI64Base f => .sar f.hdr true f.dst f.srcA f.srcB
  | .popcN32Base f => .popc f.hdr false f.dst f.srcB
  | .clzN32Base f => .clz f.hdr false f.dst f.srcB
  | .ctzN32Base f => .ctz f.hdr false f.dst f.srcB
  | .brevN32Base f => .brev f.hdr false f.dst f.srcB
  | .movBase f => .mov f.hdr f.dst f.srcB
  | .movlBase f => .movl f.hdr f.dst f.srcB
  | .leaN32S2Base f => .lea f.hdr .n32 2 f.dst f.srcA f.srcB
  | .leaN32S3Base f => .lea f.hdr .n32 3 f.dst f.srcA f.srcB
  | .leaI32S2Base f => .lea f.hdr .i32 2 f.dst f.srcA f.srcB
  | .leaI32S3Base f => .lea f.hdr .i32 3 f.dst f.srcA f.srcB
  | .faddF32Base f => .fadd f.hdr .f32 .rne f.dst f.srcA f.srcB
  | .fmulF32Base f => .fmul f.hdr .f32 .rne f.dst f.srcA f.srcB
  | .fminF32Base f => .fmin f.hdr .f32 f.dst f.srcA f.srcB
  | .fmaxF32Base f => .fmax f.hdr .f32 f.dst f.srcA f.srcB
  | .faddF16Base f => .fadd f.hdr .f16 .rne f.dst f.srcA f.srcB
  | .fmulF16Base f => .fmul f.hdr .f16 .rne f.dst f.srcA f.srcB
  | .faddBf16Base f => .fadd f.hdr .bf16 .rne f.dst f.srcA f.srcB
  | .fmulBf16Base f => .fmul f.hdr .bf16 .rne f.dst f.srcA f.srcB
  | .hadd2F16Base f => .hadd2 f.hdr .f16 .rne f.dst f.srcA f.srcB
  | .hmul2F16Base f => .hmul2 f.hdr .f16 .rne f.dst f.srcA f.srcB
  | .hadd2Bf16Base f => .hadd2 f.hdr .bf16 .rne f.dst f.srcA f.srcB
  | .hmul2Bf16Base f => .hmul2 f.hdr .bf16 .rne f.dst f.srcA f.srcB
  | .frndF32Base f => .frnd f.hdr false .f32 .rne f.dst f.srcB
  | .cvtF32I32Base f => .cvt f.hdr false (.std .f32) (.std .i32) .rne f.dst f.srcB
  | .cvtF32N32Base f => .cvt f.hdr false (.std .f32) (.std .n32) .rne f.dst f.srcB
  | .cvtI32F32Base f => .cvt f.hdr false (.std .i32) (.std .f32) .rz f.dst f.srcB
  | .cvtN32F32Base f => .cvt f.hdr false (.std .n32) (.std .f32) .rz f.dst f.srcB
  | .cvtF32F16Base f => .cvt f.hdr false (.std .f32) (.std .f16) .rne f.dst f.srcB
  | .cvtF16F32Base f => .cvt f.hdr false (.std .f16) (.std .f32) .rne f.dst f.srcB
  | .cvtF32Bf16Base f => .cvt f.hdr false (.std .f32) (.std .bf16) .rne f.dst f.srcB
  | .cvtBf16F32Base f => .cvt f.hdr false (.std .bf16) (.std .f32) .rne f.dst f.srcB
  | .cvtF64F32Base f => .cvt f.hdr false (.std .f64) (.std .f32) .rne f.dst f.srcB
  | .cvtF32F64Base f => .cvt f.hdr false (.std .f32) (.std .f64) .rne f.dst f.srcB
  | .cvtI32I16Base f => .cvt f.hdr false (.std .i32) (.std .i16) .rne f.dst f.srcB
  | .cvtI32I8Base f => .cvt f.hdr false (.std .i32) (.std .i8) .rne f.dst f.srcB
  | .cvtN32N16Base f => .cvt f.hdr false (.std .n32) (.std .n16) .rne f.dst f.srcB
  | .cvtN32N8Base f => .cvt f.hdr false (.std .n32) (.std .n8) .rne f.dst f.srcB
  | .andN64Base f => .and f.hdr true f.dst f.srcA f.srcB
  | .orN64Base f => .or f.hdr true f.dst f.srcA f.srcB
  | .xorN64Base f => .xor f.hdr true f.dst f.srcA f.srcB
  | .iminI64Base f => .imin f.hdr .i64 f.dst f.srcA f.srcB
  | .imaxI64Base f => .imax f.hdr .i64 f.dst f.srcA f.srcB
  | i => i

/-- Opcode and fields of a base form; none for every other instruction (spec/04 R68). -/
def baseOf : Instr → Option (Nat × BaseF)
  | .nop f => some (0, f)
  | .iaddI32Base f => some (1, f)
  | .isubI32Base f => some (2, f)
  | .imulI32Base f => some (3, f)
  | .imulhI32Base f => some (4, f)
  | .imulhN32Base f => some (5, f)
  | .iminI32Base f => some (6, f)
  | .iminN32Base f => some (7, f)
  | .imaxI32Base f => some (8, f)
  | .imaxN32Base f => some (9, f)
  | .iaddI64Base f => some (10, f)
  | .isubI64Base f => some (11, f)
  | .imulI64Base f => some (12, f)
  | .andN32Base f => some (13, f)
  | .orN32Base f => some (14, f)
  | .xorN32Base f => some (15, f)
  | .shlN32Base f => some (16, f)
  | .shrN32Base f => some (17, f)
  | .sarI32Base f => some (18, f)
  | .shlN64Base f => some (19, f)
  | .shrN64Base f => some (20, f)
  | .sarI64Base f => some (21, f)
  | .popcN32Base f => some (22, f)
  | .clzN32Base f => some (23, f)
  | .ctzN32Base f => some (24, f)
  | .brevN32Base f => some (25, f)
  | .movBase f => some (26, f)
  | .movlBase f => some (27, f)
  | .leaN32S2Base f => some (28, f)
  | .leaN32S3Base f => some (29, f)
  | .leaI32S2Base f => some (30, f)
  | .leaI32S3Base f => some (31, f)
  | .faddF32Base f => some (32, f)
  | .fmulF32Base f => some (33, f)
  | .fminF32Base f => some (34, f)
  | .fmaxF32Base f => some (35, f)
  | .faddF16Base f => some (36, f)
  | .fmulF16Base f => some (37, f)
  | .faddBf16Base f => some (38, f)
  | .fmulBf16Base f => some (39, f)
  | .hadd2F16Base f => some (40, f)
  | .hmul2F16Base f => some (41, f)
  | .hadd2Bf16Base f => some (42, f)
  | .hmul2Bf16Base f => some (43, f)
  | .frndF32Base f => some (44, f)
  | .cvtF32I32Base f => some (45, f)
  | .cvtF32N32Base f => some (46, f)
  | .cvtI32F32Base f => some (47, f)
  | .cvtN32F32Base f => some (48, f)
  | .cvtF32F16Base f => some (49, f)
  | .cvtF16F32Base f => some (50, f)
  | .cvtF32Bf16Base f => some (51, f)
  | .cvtBf16F32Base f => some (52, f)
  | .cvtF64F32Base f => some (53, f)
  | .cvtF32F64Base f => some (54, f)
  | .cvtI32I16Base f => some (55, f)
  | .cvtI32I8Base f => some (56, f)
  | .cvtN32N16Base f => some (57, f)
  | .cvtN32N8Base f => some (58, f)
  | .andN64Base f => some (59, f)
  | .orN64Base f => some (60, f)
  | .xorN64Base f => some (61, f)
  | .iminI64Base f => some (62, f)
  | .imaxI64Base f => some (63, f)
  | _ => none

/-- The base form of an opcode; none above 0x3F. -/
def mkBase (op : Nat) (f : BaseF) : Option Instr :=
  match op with
  | 0 => some (.nop f)
  | 1 => some (.iaddI32Base f)
  | 2 => some (.isubI32Base f)
  | 3 => some (.imulI32Base f)
  | 4 => some (.imulhI32Base f)
  | 5 => some (.imulhN32Base f)
  | 6 => some (.iminI32Base f)
  | 7 => some (.iminN32Base f)
  | 8 => some (.imaxI32Base f)
  | 9 => some (.imaxN32Base f)
  | 10 => some (.iaddI64Base f)
  | 11 => some (.isubI64Base f)
  | 12 => some (.imulI64Base f)
  | 13 => some (.andN32Base f)
  | 14 => some (.orN32Base f)
  | 15 => some (.xorN32Base f)
  | 16 => some (.shlN32Base f)
  | 17 => some (.shrN32Base f)
  | 18 => some (.sarI32Base f)
  | 19 => some (.shlN64Base f)
  | 20 => some (.shrN64Base f)
  | 21 => some (.sarI64Base f)
  | 22 => some (.popcN32Base f)
  | 23 => some (.clzN32Base f)
  | 24 => some (.ctzN32Base f)
  | 25 => some (.brevN32Base f)
  | 26 => some (.movBase f)
  | 27 => some (.movlBase f)
  | 28 => some (.leaN32S2Base f)
  | 29 => some (.leaN32S3Base f)
  | 30 => some (.leaI32S2Base f)
  | 31 => some (.leaI32S3Base f)
  | 32 => some (.faddF32Base f)
  | 33 => some (.fmulF32Base f)
  | 34 => some (.fminF32Base f)
  | 35 => some (.fmaxF32Base f)
  | 36 => some (.faddF16Base f)
  | 37 => some (.fmulF16Base f)
  | 38 => some (.faddBf16Base f)
  | 39 => some (.fmulBf16Base f)
  | 40 => some (.hadd2F16Base f)
  | 41 => some (.hmul2F16Base f)
  | 42 => some (.hadd2Bf16Base f)
  | 43 => some (.hmul2Bf16Base f)
  | 44 => some (.frndF32Base f)
  | 45 => some (.cvtF32I32Base f)
  | 46 => some (.cvtF32N32Base f)
  | 47 => some (.cvtI32F32Base f)
  | 48 => some (.cvtN32F32Base f)
  | 49 => some (.cvtF32F16Base f)
  | 50 => some (.cvtF16F32Base f)
  | 51 => some (.cvtF32Bf16Base f)
  | 52 => some (.cvtBf16F32Base f)
  | 53 => some (.cvtF64F32Base f)
  | 54 => some (.cvtF32F64Base f)
  | 55 => some (.cvtI32I16Base f)
  | 56 => some (.cvtI32I8Base f)
  | 57 => some (.cvtN32N16Base f)
  | 58 => some (.cvtN32N8Base f)
  | 59 => some (.andN64Base f)
  | 60 => some (.orN64Base f)
  | 61 => some (.xorN64Base f)
  | 62 => some (.iminI64Base f)
  | 63 => some (.imaxI64Base f)
  | _ => none

/-! ### Words -/

/-- Bits hi..lo of a word. -/
def field (w hi lo : Nat) : Nat := w / 2 ^ lo % 2 ^ (hi + 1 - lo)

/-- Words of an instruction by its length field (spec/03 R39). -/
def lengthOf (w0 : Nat) : Nat :=
  match w0 % 4 with
  | 0 => 1
  | 1 => 3
  | 2 => 3
  | _ => 5

/-- The literal of two trailing words, low word first (spec/03 R40). -/
def literal (lo hi : Nat) : DWord := BitVec.ofNat 64 (lo + hi * 0x100000000)

/-- The fields of an extended instruction (spec/03 R45, R46). -/
structure Raw where
  dk : Nat
  a : Nat
  d : Nat
  gn : Nat
  g : Nat
  op : Nat
  u : Nat
  res : Nat
  ck : Nat
  bk : Nat
  ak : Nat
  xop : Nat
  la : Nat
  c : Nat
  b : Nat
  w2 : Nat
  lit : Option DWord
  deriving DecidableEq, Repr

def Raw.of (w0 w1 w2 : Nat) (lit : Option DWord) : Raw :=
  { dk := field w0 31 30, a := field w0 29 22, d := field w0 21 14, gn := field w0 13 13, g := field w0 12 10,
    op := field w0 9 3, u := field w0 2 2, res := field w1 31 31, ck := field w1 30 30, bk := field w1 29 29,
    ak := field w1 28 28, xop := field w1 27 20, la := field w1 19 16, c := field w1 15 8, b := field w1 7 0,
    w2 := w2, lit := lit }

/-- The reading of a vector or scalar source field (spec/03 R47, R50, R51). -/
def mkSrc (k n : Nat) (lit : Option DWord) : Src :=
  if n = 255 then
    match lit with
    | some x => .lit x
    | none => .zero
  else if k = 1 then (if n = 63 then .zero else .s n)
  else .v n

/-- The reading of a vector or scalar destination field. -/
def mkDst (dk n : Nat) : Dst :=
  if dk = 1 then (if n = 63 ∨ n = 255 then .none else .s n)
  else if n = 255 then .none else .v n

def Raw.srcA (r : Raw) : Src := mkSrc r.ak r.a r.lit
def Raw.srcB (r : Raw) : Src := mkSrc r.bk r.b r.lit
def Raw.srcC (r : Raw) : Src := mkSrc r.ck r.c r.lit
def Raw.dst (r : Raw) : Dst := mkDst r.dk r.d
def Raw.hdr (r : Raw) : Hdr := { g := r.g, neg := r.gn = 1, u := r.u = 1, la := r.la }
def Raw.tyd (r : Raw) : Ty := (Ty.ofCode (field r.w2 7 4)).getD .i32
def Raw.tys (r : Raw) : Ty := (Ty.ofCode (field r.w2 11 8)).getD .i32
/-- A type of a converting instruction; code 0xD is the narrow format in FD. -/
def ctyOf (code fd : Nat) : CTy := if code = 13 then .fd fd else .std ((Ty.ofCode code).getD .i32)
def Raw.ctd (r : Raw) : CTy := ctyOf (field r.w2 7 4) (field r.w2 27 24)
def Raw.cts (r : Raw) : CTy := ctyOf (field r.w2 11 8) (field r.w2 27 24)
def Raw.rm (r : Raw) : Rm := Rm.ofCode (field r.w2 19 17)
def Raw.opm (r : Raw) : Nat := field r.w2 23 20
def Raw.imm (r : Raw) : Nat := field r.w2 16 12
def Raw.var (r : Raw) (k : Nat) : Bool := field r.w2 k k = 1
/-- The n64 choice of a two-width instruction. -/
def Raw.w64 (r : Raw) : Bool := field r.w2 7 4 = 8
def Raw.off (r : Raw) : Word := BitVec.ofNat 32 r.w2
/-- ORD and TY of the memory layout. -/
def Raw.ord (r : Raw) : Ord4 := Ord4.ofCode (field r.xop 5 4)
def Raw.mty (r : Raw) : Ty := (Ty.ofCode (field r.xop 3 0)).getD .i32
def drainTyOf (code fd : Nat) : DrainTy :=
  match code with
  | 11 => .f16 | 12 => .bf16 | 3 => .i32 | 4 => .x64 | 13 => .fd fd | _ => .f32
def Raw.drain (r : Raw) : DrainMods :=
  { td := drainTyOf (field r.w2 7 4) (field r.w2 27 24), rm := r.rm, rs := r.var 0, cs := r.var 1, add := r.var 2,
    sp := r.var 3, stile := field r.w2 15 12 }

/-- The instruction of a plain-layout group (spec/04 R71, R72, R73, R74, R75): fields read without any check. -/
def buildPlain (r : Raw) : Option Instr :=
  match r.op, r.xop with
  | 0x00, 0 => some (.iadd r.hdr r.tyd r.dst r.srcA r.srcB)
  | 0x00, 1 => some (.isub r.hdr r.tyd r.dst r.srcA r.srcB)
  | 0x00, 2 => some (.imul r.hdr r.tyd r.dst r.srcA r.srcB)
  | 0x00, 3 => some (.imulh r.hdr r.tyd r.dst r.srcA r.srcB)
  | 0x00, 4 => some (.imad r.hdr (r.var 0) r.tyd r.dst r.srcA r.srcB r.srcC)
  | 0x00, 5 => some (.imin r.hdr r.tyd r.dst r.srcA r.srcB)
  | 0x00, 6 => some (.imax r.hdr r.tyd r.dst r.srcA r.srcB)
  | 0x01, 0 => some (.idot4 r.hdr (field r.w2 11 8 = 1) (r.var 0) r.dst r.srcA r.srcB r.srcC)
  | 0x01, 1 => some (.lea r.hdr r.tyd r.imm r.dst r.srcA r.srcB)
  | 0x02, 0 => some (.and r.hdr r.w64 r.dst r.srcA r.srcB)
  | 0x02, 1 => some (.or r.hdr r.w64 r.dst r.srcA r.srcB)
  | 0x02, 2 => some (.xor r.hdr r.w64 r.dst r.srcA r.srcB)
  | 0x02, 3 => some (.lop3 r.hdr (BitVec.ofNat 8 r.w2) r.dst r.srcA r.srcB r.srcC)
  | 0x03, 0 => some (.icmp r.hdr (CmpOp.ofCode r.opm) r.tyd r.d r.srcA r.srcB)
  | 0x03, 1 => some (.sel r.hdr r.w64 r.dst r.srcA r.srcB r.c)
  | 0x03, 2 => some (.pset r.hdr (PsetOp.ofCode r.opm) r.d r.a r.b)
  | 0x04, 0 => some (.shl r.hdr r.w64 r.dst r.srcA r.srcB)
  | 0x04, 1 => some (.shr r.hdr r.w64 r.dst r.srcA r.srcB)
  | 0x04, 2 => some (.sar r.hdr (field r.w2 7 4 = 4) r.dst r.srcA r.srcB)
  | 0x04, 3 => some (.shf r.hdr (ShfVar.ofCode (field r.w2 1 0)) r.dst r.srcA r.srcB r.srcC)
  | 0x05, 0 => some (.bfe r.hdr r.tyd r.dst r.srcA r.srcB)
  | 0x05, 1 => some (.bfi r.hdr r.w64 r.dst r.srcA r.srcB r.srcC)
  | 0x05, 2 => some (.popc r.hdr r.w64 r.dst r.srcB)
  | 0x05, 3 => some (.clz r.hdr r.w64 r.dst r.srcB)
  | 0x05, 4 => some (.ctz r.hdr r.w64 r.dst r.srcB)
  | 0x05, 5 => some (.brev r.hdr r.w64 r.dst r.srcB)
  | 0x06, 0 => some (.mov r.hdr r.dst r.srcB)
  | 0x06, 1 => some (.movl r.hdr r.dst r.srcB)
  | 0x06, 2 => some (.movs r.hdr (if r.var 0 then .toFd (r.d - 0x30) r.srcB else .fromFd r.dst (r.a - 0x30)))
  | 0x06, 3 => some (.rdsr r.hdr r.w2 r.dst)
  | 0x10, 0 => some (.fadd r.hdr r.tyd r.rm r.dst r.srcA r.srcB)
  | 0x10, 1 => some (.fmul r.hdr r.tyd r.rm r.dst r.srcA r.srcB)
  | 0x10, 2 => some (.ffma r.hdr r.tyd r.rm r.dst r.srcA r.srcB r.srcC)
  | 0x10, 3 => some (.fmin r.hdr r.tyd r.dst r.srcA r.srcB)
  | 0x10, 4 => some (.fmax r.hdr r.tyd r.dst r.srcA r.srcB)
  | 0x11, 0 => some (.fcmp r.hdr (FCmpOp.ofCode r.opm) r.tyd r.d r.srcA r.srcB)
  | 0x11, 1 => some (.frnd r.hdr (r.var 0) r.tyd r.rm r.dst r.srcB)
  | 0x12, 0 => some (.frcp r.hdr r.rm r.dst r.srcB)
  | 0x12, 1 => some (.frsq r.hdr r.dst r.srcB)
  | 0x12, 2 => some (.fsqrt r.hdr r.rm r.dst r.srcB)
  | 0x12, 3 => some (.fexp2 r.hdr r.dst r.srcB)
  | 0x12, 4 => some (.flog2 r.hdr r.dst r.srcB)
  | 0x12, 5 => some (.fsin r.hdr r.dst r.srcB)
  | 0x12, 6 => some (.fcos r.hdr r.dst r.srcB)
  | 0x12, 7 => some (.ftanh r.hdr r.dst r.srcB)
  | 0x13, 0 => some (.hadd2 r.hdr r.tyd r.rm r.dst r.srcA r.srcB)
  | 0x13, 1 => some (.hmul2 r.hdr r.tyd r.rm r.dst r.srcA r.srcB)
  | 0x13, 2 => some (.hfma2 r.hdr r.tyd r.rm r.dst r.srcA r.srcB r.srcC)
  | 0x13, 3 => some (.hdot2 r.hdr r.tys r.rm r.dst r.srcA r.srcB r.srcC)
  | 0x14, 0 => some (.dadd r.hdr r.rm r.dst r.srcA r.srcB)
  | 0x14, 1 => some (.dmul r.hdr r.rm r.dst r.srcA r.srcB)
  | 0x14, 2 => some (.dfma r.hdr r.rm r.dst r.srcA r.srcB r.srcC)
  | 0x20, 0 => some (.cvt r.hdr (r.var 0) r.ctd r.cts r.rm r.dst r.srcB)
  | 0x20, 1 => some (.pack r.hdr r.ctd r.cts r.rm r.imm r.dst r.srcA r.srcC)
  | 0x20, 2 => some (.unpack r.hdr r.ctd r.cts r.rm r.imm r.dst r.srcB)
  | 0x21, 0 => some (.shfl r.hdr (ShflOp.ofCode r.opm) r.imm r.dst r.srcA r.srcB r.srcC)
  | 0x21, 1 => some (.ballot r.hdr r.dst r.a r.srcC)
  | 0x21, 2 => some (.vote r.hdr (VoteOp.ofCode r.opm) r.d r.a r.srcC)
  | 0x21, 3 => some (.matchLanes r.hdr r.w64 r.dst r.srcA r.srcC)
  | 0x21, 4 => some (.redux r.hdr (ReduxOp.ofCode r.opm) r.tyd r.rm r.dst r.srcA r.srcC)
  | 0x21, 5 => some (.prmt r.hdr r.dst r.srcA r.srcB r.srcC)
  | 0x28, 0 => some (.bra r.hdr r.off)
  | 0x28, 1 => some (.brx r.hdr r.srcA r.off)
  | 0x28, 2 => some (.call r.hdr (if r.a = 255 ∧ r.lit = none then none else some r.srcA) r.off)
  | 0x28, 3 => some (.ret r.hdr)
  | 0x28, 4 => some (.exit r.hdr)
  | 0x28, 5 => some (.yield r.hdr)
  | 0x28, 6 => some (.nopExt r.hdr)
  | 0x34, 0 => some (.fence r.hdr)
  | 0x34, 1 => some (.xfence r.hdr (field r.w2 3 0) (field r.w2 7 4))
  | 0x34, 2 => some (.bar r.hdr)
  | 0x35, 0 => some (.smap r.hdr (field r.w2 3 0) r.srcA r.srcB r.srcC)
  | 0x35, 1 => some (.sflush r.hdr)
  | 0x41, 0 => some (.aarm r.hdr r.srcA r.srcB r.srcC r.off)
  | 0x41, 1 => some (.aarrive r.hdr r.srcA r.off)
  | 0x41, 2 => some (.await r.hdr r.srcA r.srcB r.off)
  | 0x48, 0 => some (.caint r.hdr (r.var 1) (if r.var 0 then .tile r.a r.srcC else .scratch r.srcA) r.srcB r.dst)
  | 0x48, 1 => some (.caget r.hdr r.dst r.srcA r.srcB r.off)
  | 0x48, 2 => some (.carel r.hdr r.srcB)
  | 0x48, 3 => some (.caswap r.hdr r.dst r.srcA r.srcB r.srcC r.off)
  | 0x48, 4 => some (.caexp r.hdr r.srcA r.srcB r.srcC r.off)
  | 0x50, 0 => some (.tld r.hdr r.d r.srcA r.srcB (r.c - 0x28) r.off)
  | 0x50, 1 => some (.tst r.hdr r.d r.srcA r.srcB (r.c - 0x28) r.off)
  | 0x50, 2 => some (.tzero r.hdr r.d)
  | 0x50, 3 => some (.tmov r.hdr r.d r.a)
  | 0x50, 4 => some (.txpose r.hdr r.d r.a)
  | 0x50, 5 => some (.tcvt r.hdr r.rm r.d r.a)
  | 0x51, 0 => some (.movtc r.hdr (r.d - 0x10) r.srcB)
  | 0x51, 1 => some (.rdtc r.hdr r.dst (r.a - 0x10))
  | 0x51, 2 => some (.cvinit r.hdr (r.d - 0x28)
      (match field r.w2 31 30 with
        | 0 => .group (field r.w2 3 0)
        | 2 => .mask r.srcB
        | _ => .warp))
  | 0x51, 3 => some (.mma r.hdr (r.d - 0x20) r.a r.b (r.c - 0x28))
  | 0x51, 4 => some (.mdrain r.hdr r.drain (r.d - 0x20) r.srcA r.srcB (r.c - 0x28))
  | 0x51, 5 => some (.mclr r.hdr (r.d - 0x20) (r.c - 0x28))
  | 0x58, 0 => some (.gbar r.hdr (field r.w2 3 0))
  | 0x58, 1 => some (.clbar r.hdr)
  | 0x58, 2 => some (.rolesw r.hdr (field r.w2 1 0))
  | 0x58, 3 => some (.roleswTry r.hdr r.d (field r.w2 1 0))
  | 0x58, 4 => some (.wait r.hdr (CmpOp.ofCode r.opm) r.tyd r.d r.srcA r.srcB)
  | 0x58, 5 => some (.waitExt r.hdr (CmpOp.ofCode r.opm) r.tyd r.d r.srcA r.srcB)
  | 0x58, 6 => some (.wake r.hdr r.dst r.srcA r.srcB)
  | 0x59, 0 => some (.launch r.hdr r.srcA r.srcB r.srcC)
  | 0x59, 1 => some (.launchTry r.hdr r.d r.srcA r.srcB r.srcC)
  | 0x59, 2 => some (.relaunch r.hdr r.srcA r.srcB r.srcC)
  | 0x59, 3 => some (.place r.hdr r.d r.srcA r.srcB r.srcC)
  | 0x59, 4 => some (.evict r.hdr r.d r.srcB)
  | 0x60, 0 => some (.tryW r.hdr r.off)
  | 0x60, 1 => some (.tryB r.hdr r.off)
  | 0x60, 2 => some (.endtry r.hdr)
  | 0x60, 3 => some (.throw r.hdr r.srcB r.srcC)
  | 0x60, 4 => some (.rethrow r.hdr)
  | 0x60, 5 => some (.rdexc r.hdr (field r.w2 3 0) r.dst)
  | 0x60, 6 => some (.clrexc r.hdr)
  | 0x68, 0 => some (.trap r.hdr r.d (BitVec.ofNat 16 r.w2))
  | 0x68, 1 => some (.svc r.hdr (BitVec.ofNat 16 r.w2))
  | 0x68, 2 => some (.brk r.hdr (BitVec.ofNat 16 r.w2))
  | 0x68, 3 => some (.wrsr r.hdr r.w2 r.srcB)
  | 0x68, 4 => some (.eret r.hdr)
  | 0x68, 5 => some (.halt r.hdr)
  | 0x69, 0 => some (.pmcfg r.hdr (field r.w2 2 0) r.srcB)
  | 0x69, 1 => some (.pmrd r.hdr (r.var 3) (field r.w2 2 0) r.dst)
  | 0x69, 2 => some (.dbgmark r.hdr (BitVec.ofNat 16 r.w2))
  | _, _ => none

/-- The instruction of a memory-layout group (spec/04 R70, R73), by group and selector. -/
def buildMemory (r : Raw) : Option Instr :=
  match r.op, field r.xop 7 6 with
  | 0x30, 0 => some (.ld r.hdr r.ord r.mty r.dst r.srcA r.off)
  | 0x30, 1 => some (.st r.hdr r.ord r.mty r.srcA r.srcB r.off)
  | 0x30, 2 => some (.lds r.hdr r.ord r.mty r.dst r.srcA r.off)
  | 0x30, 3 => some (.sts r.hdr r.ord r.mty r.srcA r.srcB r.off)
  | 0x31, 0 => some (.cmpst r.hdr r.mty r.dst r.srcA r.srcB r.c r.off)
  | 0x31, 1 => some (.expld r.hdr r.mty r.dst r.srcA r.c r.off)
  | 0x31, 2 => some (.pref r.hdr (field r.xop 3 0) r.srcA r.off)
  | 0x31, 3 => if field r.xop 3 0 = 2 then some (.cctlInv r.hdr r.srcA r.srcB r.off)
      else some (.cctlWb r.hdr r.srcA r.srcB r.off)
  | 0x40, 0 => some (.cpq r.hdr r.srcA r.off)
  | 0x40, 1 => some (.cpld r.hdr r.mty r.dst r.srcA (r.c - 48) r.off)
  | 0x40, 2 => some (.cqwait r.hdr (r.a - 48))
  | _, _ => none

/-- ATOM and RED (spec/13 R256). C is an operand of cas alone. -/
def buildAtomic (r : Raw) : Option Instr :=
  let op := AtomOp.ofCode (field r.xop 7 4)
  let ord := Ord4.ofCode (field r.xop 3 2)
  let w := Wd.ofCode (field r.xop 1 0)
  if r.op = 0x32 then
    some (.atom r.hdr op ord w r.dst r.srcA r.srcB (if op = .cas then r.srcC else .zero) r.off)
  else some (.red r.hdr op ord w r.srcA r.srcB r.off)

/-- The XOP layout of a group: none when the group is unassigned (spec/04 R71..R76). -/
inductive Layout where
  | plain | memory | atomic
  deriving DecidableEq, Repr

def layoutOf (op : Nat) : Option Layout :=
  match op with
  | 0x00 | 0x01 | 0x02 | 0x03 | 0x04 | 0x05 | 0x06 => some .plain
  | 0x10 | 0x11 | 0x12 | 0x13 | 0x14 | 0x20 | 0x21 | 0x28 => some .plain
  | 0x30 | 0x31 | 0x40 => some .memory
  | 0x32 | 0x33 => some .atomic
  | 0x34 | 0x35 | 0x41 | 0x48 | 0x50 | 0x51 | 0x58 | 0x59 | 0x60 | 0x68 | 0x69 => some .plain
  | _ => none

/-- The instruction that the fields name, or reason 0x01 or 0x02 (spec/03 R63). -/
def build (r : Raw) : Except Nat Instr :=
  match layoutOf r.op with
  | none => .error 1
  | some .plain =>
    match buildPlain r with
    | some i => .ok i
    | none => .error 2
  | some .memory =>
    match buildMemory r with
    | some i => .ok i
    | none => .error 2
  | some .atomic =>
    match buildAtomic r with
    | some i => .ok i
    | none => .error 2

/-! ### Checks of the fields -/

/-- A vector index that a `w`-register operand may name (spec/03 R47, R50; spec/13 R255). -/
def vecOk (w n : Nat) : Bool := n = 255 || (n % w = 0 && decide (n + w ≤ 255) && (w = 1 || decide (n ≤ 252)))
/-- A scalar index that a `w`-register operand may name. -/
def scaOk (w n : Nat) : Bool :=
  n = 255 || n = 63 || (n % w = 0 && decide (n ≤ (if w = 1 then 62 else if w = 2 then 60 else 56)))

/-- Does the field hold a value of its class (reason 0x06)? An unused field is checked by `unusedOk`. -/
def FSpec.rangeOk (s : FSpec) (k n : Nat) (lit : Bool) : Bool :=
  match s with
  | .no | .absent | .blank => true
  | .vs w _ => if k = 1 then scaOk w n else vecOk w n
  | .v w _ => k = 0 && vecOk w n
  | .sc w _ => (k = 1 && scaOk w n) || (n = 255 && lit)
  | .scK w _ => k = 1 && scaOk w n
  | .pred _ => k = 0 && decide (n < 8)
  | .aux base count _ => k = 0 && decide (base ≤ n) && decide (n < base + count)
  | .cq _ => k = 1 && decide (48 ≤ n) && decide (n < 56)

/-- An unused source field and its K bit must be 0 (reason 0x03). -/
def FSpec.unusedOk (s : FSpec) (k n : Nat) : Bool :=
  match s with
  | .no => k = 0 && n = 0
  | _ => true

/-- B of a CVINIT that reads none must be 0 (reason 0x0B, spec/08 R169). -/
def FSpec.blankOk (s : FSpec) (k n : Nat) : Bool :=
  match s with
  | .blank => k = 0 && n = 0
  | _ => true

/-- Is the field one that reads the literal when it holds 0xFF (spec/03 R51)? -/
def FSpec.readsLit (s : FSpec) (n : Nat) : Bool :=
  match s with
  | .vs _ _ | .v _ _ | .sc _ _ | .scK _ _ => n = 255
  | _ => false

/-- A vector index of the field below the allotment (reason 0x07; spec/03 R48). -/
def FSpec.allotOk (s : FSpec) (k n allot : Nat) : Bool :=
  match s with
  | .vs _ _ | .v _ _ => k = 1 || n = 255 || decide (n < allot)
  | _ => true

/-- The destination field and DK (reason 0x06). -/
def DSpec.rangeOk (s : DSpec) (dk n : Nat) : Bool :=
  match s with
  | .no => dk = 0 && n = 0
  | .vs w _ => (dk = 0 && vecOk w n) || (dk = 1 && scaOk w n)
  | .v w _ => dk = 0 && vecOk w n
  | .sc w _ => dk = 1 && scaOk w n
  | .pred _ => dk = 2 && decide (n < 8)
  | .aux base count _ => dk = 3 && decide (base ≤ n) && decide (n < base + count)

def DSpec.allotOk (s : DSpec) (dk n allot : Nat) : Bool :=
  match s with
  | .vs _ _ | .v _ _ => dk = 1 || n = 255 || decide (n < allot)
  | _ => true

/-- The fields of a form whose type or width is none that it defines: such a form gives its operands no width, and an
index is tested as that of one register (spec/13, the encoding of a 128-bit exch; log 16). -/
def FSpec.single : FSpec → FSpec
  | .vs _ x => .vs 1 x
  | .v _ x => .v 1 x
  | .sc _ x => .sc 1 x
  | .scK _ x => .scK 1 x
  | x => x
def DSpec.single : DSpec → DSpec
  | .vs _ x => .vs 1 x
  | .v _ x => .v 1 x
  | .sc _ x => .sc 1 x
  | x => x
def Uses.sized (f : Uses) : Uses :=
  if f.typed then f else { f with d := f.d.single, a := f.a.single, b := f.b.single, c := f.c.single }

/-- The reason for which the fields of a form are not an instruction, the lowest that applies (spec/03 R63, R64).
`allot` is the warp's vector register allotment. Bits of W2 that an immediate does not use (LOP3, RDSR) take 0x0B (the
model's choice: log 16). -/
def reason (allot : Nat) (r : Raw) (f : Uses) : Option Nat :=
  let lit := r.lit.isSome
  let f := f.sized
  if r.res ≠ 0 || (f.cls = .m && field r.w2 31 28 ≠ 0) || (f.cls = .z && r.w2 ≠ 0) ||
      !f.a.unusedOk r.ak r.a || !f.b.unusedOk r.bk r.b || !f.c.unusedOk r.ck r.c then some 3
  else if r.la ≠ 0 && !f.ll then some 4
  else if r.dk = 1 && r.u = 0 then some 5
  else if !f.d.rangeOk r.dk r.d || !f.a.rangeOk r.ak r.a lit || !f.b.rangeOk r.bk r.b lit ||
      !f.c.rangeOk r.ck r.c lit then some 6
  else if !f.d.allotOk r.dk r.d allot || !f.a.allotOk r.ak r.a allot || !f.b.allotOk r.bk r.b allot ||
      !f.c.allotOk r.ck r.c allot then some 7
  else if lit && !f.a.readsLit r.a && !f.b.readsLit r.b && !f.c.readsLit r.c then some 8
  else if (r.u = 1 && f.mark = .f) || (r.u = 0 && f.mark = .q) then some 9
  else if r.g = 7 && r.gn = 1 then some 10
  else if !f.ok || f.w2 ≠ r.w2 || f.xop ≠ r.xop || !f.b.blankOk r.bk r.b then some 11
  else none

/-- Decoding of an extended instruction. -/
def decodeExt (allot : Nat) (r : Raw) : Except Nat Instr :=
  match build r with
  | .error e => .error e
  | .ok i =>
    match uses i with
    | none => .error 2
    | some f =>
      match reason allot r f with
      | some e => .error e
      | none => .ok i

/-- Source B of a base form (spec/03 R42, R44). -/
def mkBSrc (bs b : Nat) (lit : Option DWord) : BSrc :=
  match lit with
  | some x => if b = 63 ∧ bs = 0 then .lit x else if bs = 1 then .s b else .v b
  | none => if bs = 1 then .s b else .v b

/-- A base field against its operand: even for a pair, and within the scalar limits (spec/03 R43, R50). -/
def baseIdxOk (sc : Bool) (w n : Nat) : Bool := n % w = 0 && (!sc || w = 1 || decide (n ≤ 60)) || (sc && n = 63)

/-- Registers of a field of the table. -/
def FSpec.regs : FSpec → Nat
  | .vs w _ => w
  | _ => 1
def DSpec.regs : DSpec → Nat
  | .vs w _ => w
  | _ => 1

/-- Decoding of a base form (spec/03 R42..R44; spec/04 R68, R69). -/
def decodeBase (allot w0 : Nat) (lit : Option DWord) : Except Nat Instr :=
  let bs := field w0 31 31
  let b := field w0 30 25
  let a := field w0 24 19
  let d := field w0 18 13
  let u := field w0 2 2
  let litB : Bool := lit.isSome && b = 63 && bs = 0
  match mkBase (field w0 9 3) { g := field w0 12 10, u := u = 1, d := d, a := a, b := mkBSrc bs b lit } with
  | none => .error 1
  | some i =>
    match uses (expand i) with
    | none => .error 1
    | some f =>
      if (f.a = .no && a ≠ 0) || (f.b = .no && (b ≠ 0 || bs ≠ 0)) then .error 3
      else if (if f.d = .no then d ≠ 0 else !baseIdxOk (u = 1) f.d.regs d) ||
          (f.a ≠ .no && !baseIdxOk (u = 1) f.a.regs a) ||
          (f.b ≠ .no && !litB && !baseIdxOk (bs = 1) f.b.regs b) then .error 6
      else if (u = 0 && f.d ≠ .no && allot ≤ d) || (u = 0 && f.a ≠ .no && allot ≤ a) ||
          (f.b ≠ .no && bs = 0 && !litB && allot ≤ b) then .error 7
      else if lit.isSome && (!litB || f.b = .no) then .error 8
      else if u = 1 && f.mark = .f then .error 9
      else .ok i

/-- Decoding of a word list: the instruction of the first words, or the reason of spec/03 R63. Reason 0 says that the
list is shorter than the length field asks for; a fetched instruction has all its words. -/
def decode (allot : Nat) (ws : List Nat) : Except Nat Instr :=
  match ws with
  | [] => .error 0
  | w0 :: rest =>
    match w0 % 4, rest with
    | 0, _ => decodeBase allot w0 none
    | 1, lo :: hi :: _ => decodeBase allot w0 (some (literal lo hi))
    | 2, w1 :: w2 :: _ => decodeExt allot (Raw.of w0 w1 w2 none)
    | 3, w1 :: w2 :: lo :: hi :: _ => decodeExt allot (Raw.of w0 w1 w2 (some (literal lo hi)))
    | _, _ => .error 0

/-- Bytes of a number, least significant first (spec/00 R4). -/
def leBytes : Nat → Nat → List Byte
  | 0, _ => []
  | n + 1, w => BitVec.ofNat 8 w :: leBytes n (w / 256)

/-- The number of a byte list, least significant byte first. -/
def leNat : List Byte → Nat
  | [] => 0
  | b :: bs => b.toNat + 256 * leNat bs

/-- The 32-bit words of a byte list. -/
def wordsOf : Nat → List Byte → List Nat
  | 0, _ => []
  | n + 1, bs => leNat (bs.take 4) :: wordsOf n (bs.drop 4)

/-- The instruction at the head of a byte stream, for a warp with every vector register. -/
def decodeBytes (bs : List Byte) : Except Nat Instr := decode 256 (wordsOf 5 bs)

/-- The instruction of a row of spec/opcode_table.json: its words little-endian at the head of a stream whose other
bytes are 0. -/
def decodeTableWord (nbits w : Nat) : Option Instr :=
  match decodeBytes (leBytes 20 (w % 2 ^ nbits)) with
  | .ok i => some i
  | .error _ => none

/-! ### The encoder -/

/-- K bit and index of a source (spec/03 R47). A zero operand is scalar 63, or vector 255 where only a vector may
stand. -/
def FSpec.enc : FSpec → Nat × Nat
  | .no | .blank => (0, 0)
  | .absent => (0, 255)
  | .vs _ (.v n) | .v _ (.v n) => (0, n)
  | .vs _ (.s n) | .sc _ (.s n) | .scK _ (.s n) => (1, n)
  | .vs _ (.lit _) | .v _ (.lit _) | .sc _ (.lit _) => (0, 255)
  | .scK _ (.lit _) => (1, 255)
  | .vs _ .zero | .sc _ .zero | .scK _ .zero => (1, 63)
  | .v _ .zero => (0, 255)
  | .v _ (.s n) => (1, n)
  | .sc _ (.v n) | .scK _ (.v n) => (0, n)
  | .pred n => (0, n)
  | .aux base _ n => (0, base + n)
  | .cq n => (1, 48 + n)

/-- DK and index of a destination. -/
def DSpec.enc : DSpec → Nat × Nat
  | .no => (0, 0)
  | .vs _ (.v n) | .v _ (.v n) | .sc _ (.v n) => (0, n)
  | .vs _ (.s n) | .v _ (.s n) | .sc _ (.s n) => (1, n)
  | .vs _ .none | .v _ .none => (0, 255)
  | .sc _ .none => (1, 63)
  | .pred n => (2, n)
  | .aux base _ n => (3, base + n)

/-- The literal a source holds. -/
def FSpec.litOf : FSpec → Option DWord
  | .vs _ (.lit x) | .v _ (.lit x) | .sc _ (.lit x) | .scK _ (.lit x) => some x
  | _ => none

/-- The literal of a form: that of its first source that has one. -/
def Uses.lit (f : Uses) : Option DWord := (f.a.litOf.orElse fun _ => f.b.litOf).orElse fun _ => f.c.litOf

/-- Words of the literal, low first. -/
def litWords : Option DWord → List Nat
  | none => []
  | some x => [x.toNat % 0x100000000, x.toNat / 0x100000000]

/-- W0 of the extended form. -/
def Uses.w0 (f : Uses) : Nat :=
  f.d.enc.1 * 0x40000000 + f.a.enc.2 * 0x400000 + f.d.enc.2 * 0x4000 + bit f.h.neg * 0x2000 + f.h.g * 0x400 +
    f.op * 8 + bit f.h.u * 4 + (if f.lit.isSome then 3 else 2)

/-- W1 of the extended form. -/
def Uses.w1 (f : Uses) : Nat :=
  f.c.enc.1 * 0x40000000 + f.b.enc.1 * 0x20000000 + f.a.enc.1 * 0x10000000 + f.xop * 0x100000 + f.h.la * 0x10000 +
    f.c.enc.2 * 0x100 + f.b.enc.2

def BSrc.enc : BSrc → Nat × Nat
  | .v n => (0, n)
  | .s n => (1, n)
  | .lit _ => (0, 63)
def BSrc.litOf : BSrc → Option DWord
  | .lit x => some x
  | _ => none

/-- W0 of the base form. -/
def BaseF.w0 (op : Nat) (f : BaseF) : Nat :=
  f.b.enc.1 * 0x80000000 + f.b.enc.2 * 0x2000000 + f.a * 0x80000 + f.d * 0x2000 + f.g * 0x400 + op * 8 +
    bit f.u * 4 + (if f.b.litOf.isSome then 1 else 0)

/-- The words of a well-formed instruction (spec/03, spec/04); an event has none. -/
def encode (i : Instr) : List Nat :=
  match baseOf i with
  | some (op, f) => f.w0 op :: litWords f.b.litOf
  | none =>
    match uses i with
    | some f => [f.w0, f.w1, f.w2] ++ litWords f.lit
    | none => []

/-- The bytes of a well-formed instruction as memory holds them. -/
def encodeBytes (i : Instr) : List Byte := (encode i).flatMap (leBytes 4)

end Sys2Proof
end

