-- ==== Sys2Proof/Machine/Map.lean ====
section
/-! DEFINITION. Sparse data by key in one canonical form: keys strictly rising, no entry equal to what an unlisted key
reads as. Memory, registers, tiles and tables are held so, and equal contents are equal data. -/
namespace Sys2Proof.Machine

/-- A table of values by number. An unlisted key reads as a default that the reader names. -/
abbrev Map (β : Type) := List (Nat × β)

/-- The value at key `k`; `d` when it is not listed. -/
def Map.get {β : Type} (d : β) : Map β → Nat → β
  | [], _ => d
  | (j, x) :: m, k => if j = k then x else Map.get d m k

/-- The table without key `k`. -/
def Map.erase {β : Type} (m : Map β) (k : Nat) : Map β := m.filter fun e => e.1 ≠ k

/-- Lists a key before the first larger one. -/
def Map.insert {β : Type} : Map β → Nat → β → Map β
  | [], k, v => [(k, v)]
  | (j, x) :: m, k, v => if k < j then (k, v) :: (j, x) :: m else (j, x) :: Map.insert m k v

/-- Writes `v` at key `k`; the value that an unlisted key reads as leaves no entry. -/
def Map.set {β : Type} [DecidableEq β] (d : β) (m : Map β) (k : Nat) (v : β) : Map β :=
  if v = d then m.erase k else (m.erase k).insert k v

/-- Every key is above `lo` and rising, and no value is the default. -/
def Map.wfFrom {β : Type} [DecidableEq β] (d : β) : Option Nat → Map β → Bool
  | _, [] => true
  | lo, (k, v) :: m => (match lo with
      | none => true
      | some l => decide (l < k)) && decide (v ≠ d) && Map.wfFrom d (some k) m

/-- The canonical form. -/
def Map.wf {β : Type} [DecidableEq β] (d : β) (m : Map β) : Bool := Map.wfFrom d none m

/-- Changes the value at a key. -/
def Map.upd {β : Type} [DecidableEq β] (d : β) (m : Map β) (k : Nat) (f : β → β) : Map β := m.set d k (f (m.get d k))

/-- Writes a list of consecutive values from key `k` on. -/
def Map.setList {β : Type} [DecidableEq β] (d : β) : Map β → Nat → List β → Map β
  | m, _, [] => m
  | m, k, v :: vs => Map.setList d (m.set d k v) (k + 1) vs

/-- Reads `n` consecutive values from key `k` on. -/
def Map.getList {β : Type} (d : β) (m : Map β) : Nat → Nat → List β
  | _, 0 => []
  | k, n + 1 => m.get d k :: Map.getList d m (k + 1) n

/-- Makes the keys `k .. k + n - 1` read as the default. -/
def Map.clear {β : Type} (m : Map β) (k n : Nat) : Map β := m.filter fun e => e.1 < k || k + n ≤ e.1

end Sys2Proof.Machine
end

