-- ==== Sys2Proof/Machine/State.lean ====
section
/-! DEFINITION. The state of a GYM-VN4-128 module as plain data, and the state after reset (INVENTORY.md, State). -/
namespace Sys2Proof.Machine

/-- Why the machine stops. -/
inductive Fault where
  /-- Raised by an operation on memory (any instruction or event that reads or writes at a physical address beyond
  0x1F_FFFF_FFFF): the spec gives device memory no byte there (spec/10 R190). Safe: the model stops where the spec says
  nothing (log 8). -/
  | physicalHole
  deriving DecidableEq, Repr

/-- Why the model gives an instruction no meaning. -/
inductive Refusal where
  /-- Answered by the arm of an instruction that has no meaning yet. Safe: nothing is claimed of it. -/
  | notModelled (mnemonic : String)
  deriving DecidableEq, Repr

/-! ### Exceptions and threads -/

/-- A merged exception record (spec/23 R404). -/
structure Rec where
  code : Word := 0
  count : Word := 0
  lid : Word := 0
  blk : Word := 0
  thr : BitVec 16 := 0
  peer : Bool := false
  relaunched : Bool := false
  hw : Bool := false
  async : Bool := false
  cancelled : Bool := false
  climbed : Bool := false
  level : BitVec 2 := 0
  originPc : DWord := 0
  aux : DWord := 0
  deriving DecidableEq, Repr

/-- An exception that a thread has raised and that its level has not yet received (spec/23 R400, R403). A rethrow carries
the record it throws on (spec/24 R425). `level` is the handling level: the id of an open region, or none for the launch. -/
structure Exc where
  code : Word
  aux : DWord
  pc : DWord
  async : Bool := false
  carried : Option Rec := none
  level : Option Nat := none
  deriving DecidableEq, Repr

/-- One entry of TSTACK (spec/24 R420): LEVEL 0 warp or 1 block, the catch point, and the region's id, which ties its
members together. -/
structure TryEntry where
  level : Nat
  target : DWord
  region : Nat
  deriving DecidableEq, Repr

/-- One cached translation (spec/21 R373): the page that holds `va`, of 2^`bits` bytes. -/
structure Xlat where
  fn : Nat
  va : Nat
  bits : Nat
  pa : Nat
  w : Bool
  x : Bool
  decaf : Bool
  ext : Bool
  deriving DecidableEq, Repr

/-- The waits of spec/15 R296 and spec/22 R392. The thread's pc stays at the waiting instruction; `next` is where it goes
when the wait ends. -/
inductive Wait where
  | bar (next : DWord)
  | gbar (g : Nat) (next : DWord)
  | clbar (next : DWord)
  /-- AWAIT on the object at an offset of a block's scratchpad. -/
  | await (blk off : Nat) (h : Word) (next : DWord)
  | cqwait (cq : Nat) (next : DWord)
  /-- WAIT on a word of memory: its virtual and physical address, its place in the queue by `seq`, 0 for a thread that is
  back after a pre-emption and has to read the word again (spec/18 R355); it writes `pd` when it ends. -/
  | mem (va : DWord) (pa : Nat) (op : CmpOp) (ty : Ty) (b : DWord) (ext : Bool) (seq pd : Nat) (next : DWord)
  | rolesw (r : Nat) (seq : Nat)
  /-- TRAP until the verdict on its record. -/
  | trap (record pd : Nat) (next : DWord)
  deriving DecidableEq, Repr

/-- A thread (spec/15 R277, R289; spec/22 R386; spec/24 R420). `grp` is the PC group that the last regroup put it in (spec/15
R278); `svcPc` is the address of the SVC that entered the service handler (spec/22 R390). -/
structure Thread where
  live : Bool := false
  pc : DWord := 0
  grp : Nat := 0
  preds : BitVec 7 := 0
  sp : DWord := 0
  mode : Word := 0
  ecause : Word := 0
  epc : DWord := 0
  svcPc : DWord := 0
  held : Rec := {}
  ownCode : Word := 0
  ownPc : DWord := 0
  tstack : List TryEntry := []
  wait : Option Wait := none
  raised : Option Exc := none
  asyncs : List Exc := []
  lastPage : Option Xlat := none
  deriving DecidableEq, Repr

/-! ### Warps -/

/-- Why a warp is stopped (spec/15 R281): by a debug record, by a full operand log, by HALT, or the barista after an
exception (spec/19 R365). -/
inductive Stop where
  | debug (record : Nat)
  | logFull
  | halted
  | agentFault (e : Exc)
  deriving DecidableEq, Repr

/-- A warp (spec/15 R281, R286, R287, R289, R293). `slots` are its four group membership slots, none for an invalid one;
`fbuf` is its fetch buffer, the sixteen words last fetched by their addresses (spec/03 R41). The fields `activeSince`,
`readySince`, `lastIssue`, `promoted`, `yielded` and `passed` serve the choices of R280 and R282, with the pcs issued since the
last regroup in `interval` and the groups that are due in `forced`; `bpSkip` lists the comparators that have stopped it, each
with its pc (spec/22 R393). -/
structure Warp where
  role : Nat := 0
  regs : Nat := 8
  tiles : Nat := 0
  acc : Nat := 0
  prio : Nat := 0
  uchk : Bool := false
  umis : Bool := false
  fs : BitVec 7 := 0
  stackLimit : Word := 0
  active : Bool := false
  activeSince : Nat := 0
  readySince : Option Nat := none
  lastIssue : Nat := 0
  promoted : Option Nat := none
  yielded : Bool := false
  passed : List (DWord × Nat) := []
  interval : List DWord := []
  forced : List DWord := []
  stopped : Option Stop := none
  bpSkip : List (DWord × Nat) := []
  slots : List (Option Nat) := [none, none, none, none]
  fbuf : List (Nat × Word) := []
  deriving DecidableEq, Repr

/-- Shape tags of vector registers (spec/15 R290). -/
inductive Tag where
  | u | a | g
  deriving DecidableEq, Repr

/-! ### Matrix unit and convergence registers -/

/-- One accumulator (spec/06 R103); cell (i, j) has key 64 i + j. -/
structure Acc where
  s : Map (BitVec 56) := []
  ss : Map Bool := []
  sp : Map (BitVec 3) := []
  ra : Map (BitVec 56) := []
  raSat : Map Bool := []
  cb : Map (BitVec 56) := []
  cbSat : Map Bool := []
  ea : BitVec 8 := 0
  eb : BitVec 8 := 0
  capt : Bool := false
  deriving DecidableEq, Repr

/-- A convergence register (spec/08 R168). Bit 32 w + q of SET and SIGNED is position q of warp w. `op` is the instruction
at OPPC. -/
structure KReg where
  kind : BitVec 2 := 0
  set : BitVec 1024 := 0
  anchor : Nat := 0
  signed : BitVec 1024 := 0
  opPc : DWord := 0
  opVal : QWord := 0
  live : Bool := false
  op : Option Instr := none
  deriving DecidableEq, Repr

/-! ### Memory accesses in flight -/

/-- Where an access lands: device memory or the scratchpad of a block (by its handle). -/
inductive Place where
  | mem (pa : Nat) (decaf : Bool)
  | scratch (blk off : Nat)
  deriving DecidableEq, Repr

/-- The operands that a memory instruction captured for a thread at issue (spec/03 R60, spec/21 R378). `thrs` are the threads
for which it acts, where they are more than one (U = 1), and `instr` the number of the issue. -/
structure MemOp where
  thr : Nat
  ea : DWord := 0
  b : QWord := 0
  c : QWord := 0
  thrs : List Nat := []
  instr : Nat := 0
  deriving DecidableEq, Repr

/-- An operand-log entry (spec/21 R378): a faulted instruction of a warp, its address and encoding, the operands of the
faulted threads, the progress, each faulted thread's record while it has no verdict, and the threads whose record received
fail, with their codes, until every record has one. A `held` entry takes no place in the log: it stands for a fault that found the log full, or for an operation that waits for an earlier one of its partition. -/
structure LogEntry where
  id : Nat
  blk : Nat
  warp : Nat
  part : Nat
  pc : DWord
  instr : Instr
  w0 : Word
  ops : List MemOp
  start : Nat := 0
  waiting : List (Nat × Nat) := []
  failed : List (Nat × Word) := []
  held : Bool := false
  deriving DecidableEq, Repr

/-- What a long-latency instruction writes when it completes (spec/03 R59). -/
inductive Result where
  /-- Register values by thread, for a destination of `w` registers; `tag` is what the write gives a vector register. -/
  | regs (d : Dst) (w : Nat) (vals : List (Nat × QWord)) (tag : Tag)
  /-- A loaded tile of a warp: the tile control register and the narrow-format entry before the load (spec/08 R175,
  R177). -/
  | tile (warp t : Nat) (tc : DWord) (fd : Option (Nat × Word))
  | nothing
  deriving DecidableEq, Repr

/-- A pending long-latency instruction (spec/03 R58..R60): the threads it is pending for with the window positions each has
used, the registers of its hazard set, and its result once known. `long` is false for a signed TST or MCLR, which holds
nothing back (spec/08 R176, R186); `miss` says that it is a load that missed the L1 (spec/15 R281). `k` says that it waits for the
operation of kN, `drain` for a drain, `log` for a replay; `warps` are the warps whose %fs takes the flags of a matrix operation
(spec/05 R97). -/
structure Pending where
  id : Nat
  pc : DWord
  la : Nat
  thrs : List (Nat × Nat)
  dst : Dst := .none
  w : Nat := 0
  warp : Nat
  tiles : List Nat := []
  tcs : List Nat := []
  accs : List Nat := []
  fd : Option Nat := none
  part : Nat := 0
  result : Result := .nothing
  flags : BitVec 7 := 0
  ready : Bool := false
  k : Option Nat := none
  drain : Option Nat := none
  log : Option Nat := none
  warps : List Nat := []
  long : Bool := true
  miss : Bool := false
  deriving DecidableEq, Repr

/-- A register that a CPLD writes (spec/11 R226, R227): its new value, its bytes that have not landed, and the value that it was last seen
with. It stays on record until its completion register reaches 0; `spoiled` says that something else has written the register
since. -/
structure Landing where
  thr : Nat
  dst : Dst
  val : Word
  cq : Nat
  bytes : Nat
  seen : Word := 0
  spoiled : Bool := false
  deriving DecidableEq, Repr

/-- A mapping of the stash (spec/11 R228): global base, size, offset. What the stash holds is the core's copy of memory, and
its dirty words are the words that the core owns (log 6). -/
structure Smap where
  base : Nat
  size : Nat
  off : Nat
  deriving DecidableEq, Repr

/-- One content reference of a contained block (spec/12 R245). -/
inductive Journal where
  | took (name : QWord)
  | released (name : QWord)
  deriving DecidableEq, Repr

/-- The trace record of a running block (spec/17 R332, R334). -/
structure Trace where
  ranges : List (Nat × Nat × Nat) := []
  readAll : Bool := false
  unwatched : Bool := false
  failed : Bool := false
  deriving DecidableEq, Repr

/-! ### Blocks -/

/-- An update that reads what it changes: an element of an add-on-store (spec/06 R118), or some bits of a byte (spec/08
R185). -/
inductive Merge where
  | add (td : DrainTy) (rm : Rm) (x : Nat)
  | bits (mask v : Byte)
  deriving DecidableEq, Repr

/-- Such an update that a contained block holds back (spec/23 R410); what it reads is fixed at the commit. -/
structure HeldMerge where
  pa : Nat
  decaf : Bool
  bytes : Nat
  what : Merge
  deriving DecidableEq, Repr

/-- One role of a launch descriptor (spec/16 R310). -/
structure Role where
  entry : DWord := 0
  warps : Nat := 0
  prio : Nat := 0
  acc : Nat := 0
  tiles : Nat := 0
  regq : Nat := 0
  deriving DecidableEq, Repr

/-- Where a block stands: held by its core, running, saved by pre-emption, back on a core and waiting for the rest of its
cluster (spec/16 R323), or dead with its scratchpad frozen. A block that a kill removed is saved in its initial state. -/
inductive Status where
  | held | running | saved | resuming | dead
  deriving DecidableEq, Repr

/-- A placed block (spec/15 R284..R289; spec/16 R312..R315, R322). `q` is its linear index, `ci` its cluster's, `parts` the
partition of each run. Registers are held by warp: vector key (256 w + r) 32 + lane, scalar key 64 w + r, narrow formats,
tile control registers and tiles by 16 w + n, accumulators by (4 partition + role) 2 + c. `fresh` says that it has not been
released since it was placed (spec/16 R315), `agent` marks the block of a barista warp. `buf` is the store buffer of a contained block by physical address, with the DECAF attribute of the page,
`merges` the updates and `tagBuf` the side-tag bytes that it holds back (spec/23 R410). `avoid` is the core on which it was killed (spec/23
R413), `saveAt` the offset and length of its image in the save area. -/
structure Block where
  fn : Nat := 0
  lid : Word := 0
  q : Nat := 0
  ci : Nat := 0
  rank : Nat := 0
  core : Nat := 0
  parts : List Nat := []
  status : Status := .held
  fresh : Bool := false
  agent : Bool := false
  desc : Nat := 0
  contained : Bool := false
  isProtected : Bool := false
  nwarps : Nat := 0
  roles : List Role := []
  blkIdx : Word × Word × Word := (0, 0, 0)
  nblk : Word × Word × Word := (1, 1, 1)
  clusterSize : Nat := 1
  groups : List Word := []
  bslot : Nat := 0
  threads : Map Thread := []
  warps : Map Warp := []
  vregs : Map Word := []
  vtags : Map Tag := []
  sregs : Map Word := []
  fds : Map Word := []
  tcs : Map DWord := []
  tiles : Map Byte := []
  sides : Map Byte := []
  accs : Map Acc := []
  kregs : Map KReg := []
  scratch : Map Byte := []
  scratchSize : Nat := 0
  stashSize : Nat := 0
  smaps : Map (Option Smap) := []
  barGen : Nat := 0
  barArr : List Nat := []
  gbarGen : Map Nat := []
  gbarArr : Map (List Nat) := []
  clGen : Nat := 0
  clArr : List Nat := []
  buf : Map (Option (Byte × Bool)) := []
  merges : List HeldMerge := []
  tagBuf : Map (Option Byte) := []
  restartable : Bool := false
  relaunches : Nat := 0
  avoid : Option Nat := none
  saveAt : Option (Nat × Nat) := none
  journal : List Journal := []
  trace : Option Trace := none
  pend : List Pending := []
  landings : List Landing := []
  handled : Bool := false
  notice : Bool := false
  deriving DecidableEq, Repr

/-! ### Faults, functions and windows -/

/-- Access kinds of a fault record (spec/21 R377). -/
inductive AccKind where
  | read | write | atomic | fetch | copy | drain | content | debug | command
  deriving DecidableEq, Repr

/-- What waits for a record's verdict. -/
inductive Waiter where
  | log (id thr : Nat)
  | fetch (blk : Nat) (thrs : List Nat)
  | copy (id : Nat)
  | trap (blk : Nat) (thrs : List Nat)
  | stop (blk warp : Nat)
  | queue (fn n : Nat)
  | carafe (die : Nat)
  | complete (fn : Nat) (lid : Word)
  | post (id : Nat)
  | trace (blk : Nat)
  | none
  deriving DecidableEq, Repr

/-- A fault or debug record (spec/21 R377, spec/22 R391): waiting for room in a queue, or written at a queue index and
waiting for its verdict. -/
structure Record where
  id : Nat
  fn : Nat
  queue : Nat
  w0 : DWord
  w1 : DWord
  w2 : DWord
  w3 : DWord
  cause : Nat
  kind : AccKind
  waiter : Waiter
  index : Option Word := none
  deriving DecidableEq, Repr

/-- A notify register with its capture latch (spec/27 R434, spec/21 R382). -/
structure Notify where
  fill : Word := 0
  pending : Bool := false
  qcb : DWord := 0
  en : Bool := false
  deriving DecidableEq, Repr

/-- A packet that has been started and has not completed (spec/16 R304, R306). -/
inductive Inflight where
  | launch (lid : Word)
  | copy (id : Nat) (sig : Option DWord) (tag : Word)
  deriving DecidableEq, Repr

/-- What a traced run keeps of its header (spec/17 R331, R335). -/
structure TraceRun where
  buf : DWord
  winMask : Word
  gens : List Word
  phash : DWord
  deriving DecidableEq, Repr

/-- A launch that its command processor has checked and not yet started: the bytes of its snapshot, its grid in blocks, the
clusters it runs and its trace (spec/16 R447; spec/17 R335, R338). -/
structure Plan where
  snap : List Byte
  grid : Nat × Nat × Nat
  clusters : List Nat
  trace : Option TraceRun
  deriving DecidableEq, Repr

/-- The command processor's state of a bound queue (spec/16 R301..R309). `waits` says that the packet at P is waiting, with
EXT; `fault` names the record whose verdict the queue waits for; `binding` says that the control block is still to be read,
`closing` that the queue is disabled after its current packet, `owed` that RDIDX or the status word is still to be written to
the control block; `held` is a launch whose header write has faulted. A live loop counter is its LOOP's
position, its value and BACK. -/
structure Queue where
  running : Bool := false
  qcb : DWord := 0
  base : DWord := 0
  log2n : Nat := 0
  hostq : Bool := false
  pos : Word := 0
  rdidx : Word := 0
  loops : List (Word × Word × Word) := []
  fetched : List (Word × List Byte) := []
  inflight : List (Word × Inflight) := []
  waits : Option Bool := none
  state : Nat := 0
  err : Nat := 0
  errPos : Word := 0
  fault : Option Nat := none
  binding : Bool := false
  closing : Bool := false
  owed : Bool := false
  held : Option Plan := none
  deriving DecidableEq, Repr

/-- A performance counter (spec/22 R396). -/
structure Pmc where
  count : DWord := 0
  event : BitVec 16 := 0
  en : Bool := false
  unavail : Bool := false
  deriving DecidableEq, Repr

/-- A breakpoint comparator (spec/22 R394): BPPC and BPCOND. -/
structure Bp where
  pc : DWord := 0
  cond : DWord := 0
  deriving DecidableEq, Repr

/-- The registers and counters of one function (spec/21 R368, R374; spec/22 R394, R396; spec/27 R434, R438; spec/16
R312). `ending` says what is in progress: bit 0 an FLR, bit 1 a disable; `sdFrame` is the guest frame of the shoot-down in progress. -/
structure Fn where
  regions : Word := 0
  busy : Bool := false
  cfgErr : Bool := false
  en : Bool := false
  s2base : DWord := 0
  s2frames : Word := 0
  saveBase : DWord := 0
  dropped : Word := 0
  quiesced : Bool := false
  flrDone : Bool := false
  s1root : DWord := 0
  sdAddr : DWord := 0
  sdSeq : Word := 0
  sdFn : Nat := 0
  sdKind : Nat := 0
  sdGo : Bool := false
  sdFrame : Nat := 0
  fqBase : DWord := 0
  fqCons : Word := 0
  fqProd : Word := 0
  fqResp : DWord := 0
  dbgCtl : DWord := 0
  profBase : DWord := 0
  profCons : Word := 0
  profProd : Word := 0
  profDropped : Word := 0
  bps : Map Bp := []
  rxCtl : DWord := 0
  rxSize : DWord := 0
  rxCtr : DWord := 0
  ending : Nat := 0
  notify : Map Notify := []
  queues : Map Queue := []
  nextLid : Word := 0
  pmcs : Map Pmc := []
  deriving DecidableEq, Repr

/-- Roast window registers (spec/06 R122). -/
structure Roast where
  ctl : DWord := 0
  limit : DWord := 0
  fmt : DWord := 0
  scale : DWord := 0
  deriving DecidableEq, Repr

/-- Watch window registers (spec/17 R327). -/
structure Watch where
  ctl : DWord := 0
  limit : DWord := 0
  map : DWord := 0
  gen : Word := 0
  deriving DecidableEq, Repr

/-- Vault registers and the number of keys generated for the id (spec/12 R233, R234). -/
structure Vault where
  ctl : DWord := 0
  size : DWord := 0
  grant : DWord := 0
  keys : Nat := 0
  deriving DecidableEq, Repr

/-- States of a content entry (spec/12 R237); a free entry is not listed. -/
inductive CState where
  | live | held | reclaiming
  deriving DecidableEq, Repr

/-- An entry of a vault's index (spec/12 R237): its position in the quarter's table and the line slot's address. -/
structure CEntry where
  name : QWord
  state : CState
  node : Bool
  pin : Bool
  line : Nat
  slot : Nat
  ref : Word
  data : List Byte
  deriving DecidableEq, Repr

/-! ### Launches -/

/-- One share of a launch (spec/16 R312): its die, its clusters, and the slot of its ticket once written. -/
structure Share where
  die : Nat
  first : Nat
  last : Nat
  slot : Option Nat := none
  deriving DecidableEq, Repr

/-- Why and how a launch ends. -/
inductive Ending where
  | running
  | failed (r : Rec)
  deriving DecidableEq, Repr

/-- A launch (spec/16 R312, R447; spec/23 R406). `grid` is its grid in blocks, `clusters` are the clusters it runs, `ended` the indices of ended
blocks. `injected` are throwers without a live thread, `traceFault` the failure of a record or of the last header write
(spec/17 R341), `fault` the record for whose verdict its completion waits; `code` holds the values of the words that its
fetches have seen, by word address (spec/03 R41). -/
structure Launch where
  fn : Nat
  lid : Word
  snap : Nat
  grid : Nat × Nat × Nat
  clusters : List Nat
  shares : List Share
  ended : List Nat := []
  sigAddr : Option DWord := none
  tag : Word := 0
  queue : Option (Nat × Word) := none
  qclass : Nat := 0
  ending : Ending := .running
  trace : Option TraceRun := none
  injected : List Rec := []
  traceFault : Option Rec := none
  fault : Option Nat := none
  code : Map (List Word) := []
  deriving DecidableEq, Repr

/-- A carafe entry (spec/16 R319, spec/18 R357). Kind 0 LAUNCH, 1 RELAUNCH. -/
structure Carafe where
  kind : Nat
  fn : Nat
  desc : DWord
  grid : DWord
  completion : DWord
  fault : Option Nat := none
  held : Option Plan := none
  deriving DecidableEq, Repr

/-- A completion record of a refusal that waits for a verdict on its address (spec/21 R445). -/
structure Post where
  id : Nat
  fn : Nat
  va : DWord
  bytes : List Byte
  deriving DecidableEq, Repr

/-! ### Engines -/

/-- A copy request (spec/11 R217, R219) of a thread, or a COPY packet (spec/16 R304). `todo` holds the byte ranges not yet
landed. `off` is the offset of its last fault; a `stopped` copy has told its thread, and stays until the cancellation of its
object (R220). -/
structure Copy where
  id : Nat
  core : Nat
  blk : Nat
  thr : Nat
  pc : DWord
  recAddr : Word
  fn : Nat
  packet : Option (Nat × Word) := none
  src : DWord
  dst : DWord
  rows : Nat
  rowBytes : Nat
  bytes : Nat
  sstride : Word
  dstride : Word
  aoff : Word
  srcSp : Bool
  dstSp : Bool
  rxNote : Bool
  rxSlot : Nat
  todo : List (Nat × Nat)
  fault : Option Nat := none
  off : Nat := 0
  stopped : Bool := false
  acked : Nat := 0
  deriving DecidableEq, Repr

/-- A drain in flight (spec/08 R185): the writes not yet accepted, each with its place, bytes and the mask of the bits
it writes; an add-on-store is one update of the whole tile, of the elements in `values`. `side` holds the block scales that it
writes: window, address and scale. `credit` is the offset of the arrival object. -/
structure Drain where
  id : Nat
  blk : Nat
  thr : Nat
  writes : List (Place × List Byte × List Byte) := []
  add : Option (DrainTy × Rm) := none
  values : List (Place × QWord) := []
  side : List (Nat × Nat × Byte) := []
  credit : Option Nat := none
  deriving DecidableEq, Repr

/-- A CAEXP in flight (spec/12 R243): the leaves' bytes not yet landed. `held` are the names it holds a reference on. -/
structure Export where
  id : Nat
  blk : Nat
  thr : Nat
  pc : DWord
  fn : Nat
  dst : DWord
  bytes : List Byte
  done : Nat := 0
  aoff : Word
  held : List QWord
  fault : Option Nat := none
  deriving DecidableEq, Repr

/-- A RED that has been accepted and not applied (spec/13 R257): `thr` performs it, for the threads `thrs` (all of Executing
under U = 1), and `instr` ties the REDs of one instruction together (spec/13 R251). -/
structure Red where
  id : Nat
  blk : Nat
  thr : Nat
  thrs : List Nat
  instr : Nat
  place : Place
  op : AtomOp
  w : Wd
  b : QWord
  deriving DecidableEq, Repr

/-- A CCTL or SFLUSH that has not completed (spec/13 R259, R267). -/
structure Flush where
  id : Nat
  blk : Nat
  thrs : List Nat
  die : Nat
  core : Nat
  lines : List Nat
  inv : Bool
  deriving DecidableEq, Repr

/-! ### Coherence -/

/-- A directory entry (spec/10 R204): STATE 0 I, 1 S, 2 X, 3 O. -/
structure Dir where
  owner : Nat := 0
  pres : BitVec 4 := 0
  state : Nat := 0
  deriving DecidableEq, Repr

/-- States of a line in a die's L2 (spec/10 R205). -/
inductive L2 where
  | i | s | e | o | m
  deriving DecidableEq, Repr

/-- Requests of a die to a home agent (spec/10 R205). -/
inductive Req where
  | rds | rdx | upg
  deriving DecidableEq, Repr

/-- A request in progress at a home agent (spec/10 R207) with the dies that still have to answer a snoop: 0 SnpS, 1 SnpX,
2 SnpI. -/
structure Txn where
  line : Nat
  die : Nat
  req : Req
  snoops : List (Nat × Nat)
  newDir : Dir
  deriving DecidableEq, Repr

/-- A copy of a decaf line on a die that is not its home (spec/10 R210): 128 bytes with a dirty mask, NC when the mask
is 0, and the home die from which it was filled. -/
structure Decaf where
  data : List Byte
  dirty : BitVec 128
  home : Nat := 0
  deriving DecidableEq, Repr

/-- A line of memory in a core's L1 or, with the block whose stash it is, in a stash (spec/10 R189, R201; spec/11 R228): its
bytes, which of them are valid, which are stores that the die's L2 has not received, the DECAF attribute of the page and the
home die under which it was filled. -/
structure L1Line where
  data : List Byte
  valid : BitVec 128
  dirty : BitVec 128
  decaf : Bool := false
  home : Nat := 0
  stash : Option Nat := none
  deriving DecidableEq, Repr

/-! ### Regions, dies, ports -/

/-- A region (spec/16 R317, R320; spec/19 R363; spec/21 R369). -/
structure Region where
  holder : Option Nat := none
  ageId : DWord := 0
  age : Nat := 0
  occ : DWord := 0
  preempt : Bool := false
  next : Option Nat := none
  tlb : List Xlat := []
  deriving DecidableEq, Repr

/-- A core (spec/01 R14, R17; spec/15 R286; spec/21 R373, R380; spec/22 R393, R395). `l1` is its L1 data cache with its stash
lines, `groupTab` its group table. -/
structure CoreSt where
  l1 : Map (Option L1Line) := []
  groupTab : Map DWord := []
  cyc : DWord := 0
  offsets : Map DWord := []
  tlb : List Xlat := []
  bps : List Bp := []
  sampleNext : Nat := 0
  outOfService : Bool := false
  partsOut : List Nat := []
  deriving DecidableEq, Repr

/-- A die's control complex and caches. -/
structure Die where
  carafe : List Carafe := []
  tlb : List Xlat := []
  gated : Bool := false
  machineChecks : List (DWord × DWord × DWord × DWord) := []
  deriving DecidableEq, Repr

/-- A port of the fabric towards one module (spec/27 R437): as a sender the next number, the frames not acknowledged with
their tries, and the buffers granted; as a receiver the numbers it has written, and whether an ACK is to follow. -/
structure Link where
  port : Nat
  peer : Nat
  nextSeq : Word := 0
  unacked : List (Frame × Nat) := []
  credits : Nat := 0
  seen : List Word := []
  toAck : Bool := false
  deriving DecidableEq, Repr

/-! ### The machine -/

/-- What moves next: an event of the device, the bundle of a thread, the fetch of a word that a thread's launch may use
later (spec/03 R41), the fill of a line into the L1 of a block's core (spec/10 R189), or the eviction of a line from the LLC of
its home die. -/
inductive Turn where
  | event (i : Instr)
  | issue (blk thr : Nat)
  | prefetch (blk thr : Nat) (at_ : DWord)
  | fill (blk va : Nat)
  | evict (line : Nat)
  deriving DecidableEq, Repr

/-- The bundle that is issuing (spec/15 R278): its block, its pc, its threads in ascending order, its first word and its
length in words. -/
structure Sel where
  blk : Nat := 0
  pc : DWord := 0
  thrs : List Nat := []
  w0 : Word := 0
  words : Nat := 1
  deriving DecidableEq, Repr

/-- The state of the module. The last fields are the model's own: what moves next, the bundle being issued, the index of
the next free value, and the ids and order numbers it hands out. -/
structure State where
  mem : List Host.Cell := []
  poisoned : Map (BitVec 128) := []
  dueErrors : List (Nat × Nat × Nat) := []
  blocks : Map (Option Block) := []
  cores : Map CoreSt := []
  regions : Map Region := []
  dies : Map Die := []
  fns : Map Fn := []
  roasts : Map Roast := []
  watches : Map Watch := []
  vaults : Map Vault := []
  content : List CEntry := []
  sideTags : Map (Option (BitVec 48)) := []
  homeTab : DWord := 0
  dumpBase : DWord := 0
  bootFail : Nat := 0
  bootState : Nat := 0
  powerCap : Nat := 2800
  clockMHz : Nat := 1800
  moduleNo : Nat := 0
  routes : List (Nat × Nat) := []
  attestation : List (List Byte) := []
  doe : List (List Byte) := []
  irqs : List (Nat × Nat) := []
  sent : List (Nat × Frame) := []
  links : List Link := []
  launches : List Launch := []
  copies : List Copy := []
  drains : List Drain := []
  exports : List Export := []
  reds : List Red := []
  cctls : List Flush := []
  sflushes : List Flush := []
  hostQ : List (Nat × List Byte) := []
  oplog : List LogEntry := []
  records : List Record := []
  dir : Map Dir := []
  llc : Map Nat := []
  l2 : Map L2 := []
  l2Home : Map (Option Nat) := []
  wbs : List (Nat × Nat × L2) := []
  filters : Map (List (Nat × Nat)) := []
  owners : Map (Option Nat) := []
  pendReg : List (Nat × Nat) := []
  txns : List Txn := []
  decafs : Map (Option Decaf) := []
  rows : Map Nat := []
  cpStopped : Bool := false
  unitsOut : List (Nat × Nat × Nat) := []
  posts : List Post := []
  agentReports : List (Nat × Exc) := []
  stops : List (Nat × Word × Option Nat) := []
  stopping : List (Nat × Word × Option Nat) := []
  agenda : List Turn := []
  sel : Sel := {}
  tick : Nat := 0
  hole : Bool := false
  nextId : Nat := 1
  issued : Nat := 0
  deriving DecidableEq, Repr

/-- The state of the module right after reset: BOOTSTAT reads booting, every register at the value the spec states, or at
the value of log 4 where it states none; no launch, no block, memory with nothing listed (spec/27 R439, R440). -/
def State.reset : State := {}

end Sys2Proof.Machine
end

