-- ==== Sys2Proof/Machine/Regs.lean ====
section
/-! DEFINITION. Reading and writing the parts of State: blocks, warps, threads, registers, functions, dies. -/
namespace Sys2Proof.Machine

/-! ### Blocks, warps, threads -/

/-- The block of a handle; a handle that names none reads as the empty block, whose threads are not live. -/
def State.blk (s : State) (b : Nat) : Block := (s.blocks.get none b).getD {}
/-- Replaces a block that exists. -/
def State.updBlk (s : State) (b : Nat) (f : Block → Block) : State :=
  match s.blocks.get none b with
  | none => s
  | some k => { s with blocks := s.blocks.set none b (some (f k)) }

/-- Warp and position of a thread index (spec/15 R277: position q holds the thread with %thr mod 32 = q). -/
def warpOf (t : Nat) : Nat := t / 32
def laneOf (t : Nat) : Nat := t % 32

def Block.thr (k : Block) (t : Nat) : Thread := k.threads.get {} t
def Block.updThr (k : Block) (t : Nat) (f : Thread → Thread) : Block := { k with threads := k.threads.upd {} t f }
def Block.warp (k : Block) (w : Nat) : Warp := k.warps.get {} w
def Block.updWarp (k : Block) (w : Nat) (f : Warp → Warp) : Block := { k with warps := k.warps.upd {} w f }
def State.thr (s : State) (b t : Nat) : Thread := (s.blk b).thr t
def State.updThr (s : State) (b t : Nat) (f : Thread → Thread) : State := s.updBlk b fun k => k.updThr t f
def State.updWarp (s : State) (b w : Nat) (f : Warp → Warp) : State := s.updBlk b fun k => k.updWarp w f
/-- Applies a change to each of a list of threads. -/
def State.updThrs (s : State) (b : Nat) (ts : List Nat) (f : Thread → Thread) : State :=
  ts.foldl (fun s t => s.updThr b t f) s

/-- The live threads of a block, ascending. -/
def Block.liveThreads (k : Block) : List Nat := (k.threads.filter fun e => e.2.live).map (·.1)
/-- The live threads of a warp, ascending. -/
def Block.liveOf (k : Block) (w : Nat) : List Nat := k.liveThreads.filter fun t => warpOf t = w
/-- The partition that holds a warp: that of its run (spec/15 R284). -/
def Block.partOf (k : Block) (w : Nat) : Nat := (k.parts[w / 8]?).getD 0

/-! ### Predicates -/

/-- Predicate p of a thread; p7 reads true (spec/02 R28). -/
def Thread.pred (t : Thread) (p : Nat) : Bool := if p = 7 then true else t.preds.getLsbD p
/-- Writes a predicate; a write to p7 is discarded. -/
def Thread.setPred (t : Thread) (p : Nat) (v : Bool) : Thread :=
  if p < 7 then
    { t with preds := if v then t.preds ||| (1#7 <<< p) else t.preds &&& ~~~(1#7 <<< p) }
  else t

/-- The guard of an instruction for a thread (spec/03 R56). -/
def Thread.guard (t : Thread) (h : Hdr) : Bool := t.pred h.g != h.neg

/-! ### Registers -/

def vkey (w r lane : Nat) : Nat := (w * 256 + r) * 32 + lane
def Block.vreg (k : Block) (w r lane : Nat) : Word := k.vregs.get 0 (vkey w r lane)
def Block.setVreg (k : Block) (w r lane : Nat) (x : Word) : Block := { k with vregs := k.vregs.set 0 (vkey w r lane) x }
def Block.sreg (k : Block) (w r : Nat) : Word := k.sregs.get 0 (w * 64 + r)
def Block.setSreg (k : Block) (w r : Nat) (x : Word) : Block := { k with sregs := k.sregs.set 0 (w * 64 + r) x }
def Block.tag (k : Block) (w r : Nat) : Tag := k.vtags.get .u (w * 256 + r)
def Block.setTag (k : Block) (w r : Nat) (x : Tag) : Block := { k with vtags := k.vtags.set .u (w * 256 + r) x }
def Block.fd (k : Block) (w n : Nat) : Word := k.fds.get 0 (w * 16 + n)
def Block.setFd (k : Block) (w n : Nat) (x : Word) : Block := { k with fds := k.fds.set 0 (w * 16 + n) x }
def Block.tc (k : Block) (w n : Nat) : DWord := k.tcs.get 0 (w * 16 + n)
def Block.setTc (k : Block) (w n : Nat) (x : DWord) : Block := { k with tcs := k.tcs.set 0 (w * 16 + n) x }
/-- Bytes of a tile register from `off` on (spec/06 R105). -/
def Block.tileBytes (k : Block) (w t off n : Nat) : List Byte := k.tiles.getList 0 ((w * 16 + t) * 4096 + off) n
def Block.setTile (k : Block) (w t off : Nat) (bs : List Byte) : Block :=
  { k with tiles := k.tiles.setList 0 ((w * 16 + t) * 4096 + off) bs }
/-- Bytes of a scale side store; row r, byte q at 8 r + q (spec/06 R108). -/
def Block.sideBytes (k : Block) (w t off n : Nat) : List Byte := k.sides.getList 0 ((w * 16 + t) * 512 + off) n
def Block.setSide (k : Block) (w t off : Nat) (bs : List Byte) : Block :=
  { k with sides := k.sides.setList 0 ((w * 16 + t) * 512 + off) bs }
/-- The key of accumulator c of a role on a partition (spec/15 R287; log 10). -/
def accKey (part role c : Nat) : Nat := (part * 4 + role) * 2 + c
def Block.acc (k : Block) (part role c : Nat) : Acc := k.accs.get {} (accKey part role c)
def Block.setAcc (k : Block) (part role c : Nat) (a : Acc) : Block := { k with accs := k.accs.set {} (accKey part role c) a }
def Block.kreg (k : Block) (n : Nat) : KReg := k.kregs.get {} n
def Block.setKreg (k : Block) (n : Nat) (x : KReg) : Block := { k with kregs := k.kregs.set {} n x }

/-- A value of up to four registers, low register first. -/
def joinWords (a b c d : Word) : QWord := (d ++ c) ++ (b ++ a)
/-- Register `n` of a value of several registers. -/
def wordAt (x : QWord) (n : Nat) : Word := (x >>> (32 * n)).setWidth 32
/-- The value of a `w`-register operand whose registers are given by `f`. -/
def gatherWords (w : Nat) (f : Nat → Word) : QWord :=
  if w = 1 then joinWords (f 0) 0 0 0 else if w = 2 then joinWords (f 0) (f 1) 0 0 else joinWords (f 0) (f 1) (f 2) (f 3)

/-- The value that a source operand of `w` registers has for a thread (spec/03 R47, R50, R51). -/
def Block.src (k : Block) (t w : Nat) : Src → QWord
  | .v n => gatherWords w fun j => k.vreg (warpOf t) (n + j) (laneOf t)
  | .s n => gatherWords w fun j => k.sreg (warpOf t) (n + j)
  | .zero => 0
  | .lit x => if w = 1 then (x.setWidth 32).setWidth 128 else x.setWidth 128

/-- Writes `w` registers of a vector register group at one position. -/
def Block.putVec (k : Block) (wp n lane w : Nat) (x : QWord) : Block :=
  (List.range w).foldl (fun k j => k.setVreg wp (n + j) lane (wordAt x j)) k
/-- Writes `w` scalar registers of a warp. -/
def Block.putSca (k : Block) (wp n w : Nat) (x : QWord) : Block :=
  (List.range w).foldl (fun k j => k.setSreg wp (n + j) (wordAt x j)) k
/-- Sets the shape tags of `w` vector registers. -/
def Block.putTags (k : Block) (wp n w : Nat) (x : Tag) : Block :=
  (List.range w).foldl (fun k j => k.setTag wp (n + j) x) k

/-- The tag of a source: what is not a vector register is uniform (spec/07 R131). -/
def Block.srcTag (k : Block) (wp w : Nat) : Src → Tag
  | .v n => if (List.range w).all fun j => k.tag wp (n + j) = .u then .u else if w = 1 then k.tag wp n else .g
  | _ => .u

/-- Writes a result to a destination in the threads given, with the tag that the result has; when some live thread of the
warp is not written, the tag is G (spec/07 R131). A scalar destination takes the first value. -/
def Block.putDst (k : Block) (wp w : Nat) (d : Dst) (vals : List (Nat × QWord)) (tag : Tag) : Block :=
  match d with
  | .none => k
  | .s n => (vals.head?.map fun e => k.putSca wp n w e.2).getD k
  | .v n =>
    let k' := vals.foldl (fun k e => k.putVec wp n (laneOf e.1) w e.2) k
    if vals = [] then k'
    else k'.putTags wp n w (if (k.liveOf wp).all fun t => vals.any fun e => e.1 = t then tag else .g)

/-- What a destination register of one word holds for a thread. -/
def Block.dstWord (k : Block) (wp t : Nat) : Dst → Word
  | .v n => k.vreg wp n (laneOf t)
  | .s n => k.sreg wp n
  | .none => 0

/-! ### Functions, cores, regions, dies -/

def State.fn (s : State) (n : Nat) : Fn := s.fns.get {} n
def State.updFn (s : State) (n : Nat) (f : Fn → Fn) : State := { s with fns := s.fns.upd {} n f }
def State.core (s : State) (c : Nat) : CoreSt := s.cores.get {} c
def State.updCore (s : State) (c : Nat) (f : CoreSt → CoreSt) : State := { s with cores := s.cores.upd {} c f }
def State.region (s : State) (r : Nat) : Region := s.regions.get {} r
def State.updRegion (s : State) (r : Nat) (f : Region → Region) : State := { s with regions := s.regions.upd {} r f }
def State.die (s : State) (d : Nat) : Die := s.dies.get {} d
def State.updDie (s : State) (d : Nat) (f : Die → Die) : State := { s with dies := s.dies.upd {} d f }
/-- Region and die of a core: 8 cores a region, 8 regions a die (spec/01 R12). -/
def regionOf (core : Nat) : Nat := core / 8
def dieOf (core : Nat) : Nat := core / 64
/-- The number that the model gives to firmware's address space, beyond any function field (log 9). -/
def fwFn : Nat := 256

/-! ### Free values and ids -/

/-- The next free word (log 5), and the state with its index used. -/
def State.freeWord (s : State) : Word × State := (Config.freeWord s.tick, { s with tick := s.tick + 1 })
def State.freeNat (s : State) : Nat × State := (Config.freeNat s.tick, { s with tick := s.tick + 1 })
def State.freeBool (s : State) : Bool × State := (Config.freeBool s.tick, { s with tick := s.tick + 1 })
/-- `n` free bytes. -/
def State.freeBytes (s : State) (n : Nat) : List Byte × State :=
  ((List.range n).map fun j => Config.freeByte (s.tick + j), { s with tick := s.tick + n })
/-- The next id of the model's own. -/
def State.newId (s : State) : Nat × State := (s.nextId, { s with nextId := s.nextId + 1 })

/-! ### Bits of a number -/

/-- Bits hi..lo of a 64-bit value. -/
def bits64 (x : DWord) (hi lo : Nat) : Nat := x.toNat / 2 ^ lo % 2 ^ (hi + 1 - lo)
/-- One bit of a 64-bit value. -/
def bitAt (x : DWord) (n : Nat) : Bool := x.getLsbD n
/-- Replaces bits hi..lo. -/
def setBits64 (x : DWord) (hi lo v : Nat) : DWord :=
  BitVec.ofNat 64 (x.toNat - bits64 x hi lo * 2 ^ lo + v % 2 ^ (hi + 1 - lo) * 2 ^ lo)
/-- A number as an address. -/
def addr (n : Nat) : DWord := BitVec.ofNat 64 n
/-- The signed value of W2 added to a base (spec/02 R34). -/
def addOff (base : DWord) (off : Word) : DWord := base + off.signExtend 64
/-- Little-endian bytes of a value of up to 16 bytes. -/
def bytesOf (n : Nat) (x : QWord) : List Byte := leBytes n x.toNat
/-- The value of little-endian bytes. -/
def valueOf (bs : List Byte) : QWord := BitVec.ofNat 128 (leNat bs)

end Sys2Proof.Machine
end

