-- ==== Sys2Proof/Machine/Flags.lean ====
section
/-! DEFINITION. Numbers, rounding and the flags of %fs (spec/05): exact values, the IEEE formats, the narrow formats,
conversions, sums. Every function answers the bits and the flags it sets. -/
namespace Sys2Proof.Machine

/-- The flags of %fs (spec/05 R95). -/
abbrev Flags := BitVec 7
def fNV : Flags := 1
def fDZ : Flags := 2
def fOF : Flags := 4
def fUF : Flags := 8
def fNX : Flags := 16
def fAL : Flags := 32
def fSA : Flags := 64
/-- A flag under a condition. -/
def when (c : Bool) (f : Flags) : Flags := if c then f else 0

/-! ### Exact values -/

/-- A floating-point value: `fin neg m e` is ±m × 2^e with m not 0. -/
inductive FVal where
  | nan (signalling : Bool)
  | inf (neg : Bool)
  | zero (neg : Bool)
  | fin (neg : Bool) (m : Nat) (e : Int)
  deriving DecidableEq, Repr

def FVal.isNan : FVal → Bool
  | .nan _ => true
  | _ => false
def FVal.isSnan : FVal → Bool
  | .nan s => s
  | _ => false
def FVal.isInf : FVal → Bool
  | .inf _ => true
  | _ => false
def FVal.isZero : FVal → Bool
  | .zero _ => true
  | _ => false
def FVal.neg : FVal → Bool
  | .nan _ => false
  | .inf n | .zero n | .fin n _ _ => n

/-- An exact dyadic number z × 2^e. -/
structure Dyadic where
  z : Int
  e : Int
  deriving DecidableEq, Repr

/-- 2^k for a natural exponent given as an integer. -/
def twoPow (k : Int) : Nat := 2 ^ k.toNat
def Dyadic.add (a b : Dyadic) : Dyadic :=
  let e := min a.e b.e
  { z := a.z * twoPow (a.e - e) + b.z * twoPow (b.e - e), e := e }
def Dyadic.mul (a b : Dyadic) : Dyadic := { z := a.z * b.z, e := a.e + b.e }
/-- Compares two exact numbers. -/
def Dyadic.lt (a b : Dyadic) : Bool :=
  let e := min a.e b.e
  decide (a.z * twoPow (a.e - e) < b.z * twoPow (b.e - e))
/-- The finite value of a float; 0 for the others. -/
def FVal.dyadic : FVal → Dyadic
  | .fin n m e => { z := if n then -(m : Int) else m, e := e }
  | _ => { z := 0, e := 0 }
/-- An exact number as a value; 0 is +0. -/
def Dyadic.val (a : Dyadic) : FVal := if a.z = 0 then .zero false else .fin (a.z < 0) a.z.natAbs a.e
/-- An integer as a value. -/
def intVal (z : Int) : FVal := Dyadic.val { z := z, e := 0 }

/-! ### Rounding -/

/-- The floor of the base-2 logarithm of m × 2^e, m not 0. -/
def log2Of (m : Nat) (e : Int) : Int := (Nat.log2 m : Int) + e

/-- Rounds the magnitude m × 2^e to a multiple of 2^q: the multiple and whether it is inexact. `sticky` says that the
exact magnitude lies strictly between m × 2^e and (m + 1) × 2^e (spec/05 R82). -/
def roundAt (rm : Rm) (neg : Bool) (m : Nat) (e : Int) (sticky : Bool) (q : Int) : Nat × Bool :=
  if q ≤ e then (m * twoPow (e - q), sticky)
  else
    let d := twoPow (q - e)
    let n := m / d
    let r := m % d
    let inexact := decide (r ≠ 0) || sticky
    let up : Bool :=
      match rm with
      | .rne => decide (d < 2 * r) || (decide (2 * r = d) && (sticky || decide (n % 2 = 1)))
      | .rna => decide (d ≤ 2 * r)
      | .rz => false
      | .rd => neg && inexact
      | .ru => !neg && inexact
    (if up then n + 1 else n, inexact)

/-- A float format: precision, exponents of the smallest normal and of the largest binade, the largest finite value
(maxM × 2^maxE), and whether it has an infinity that overflow may reach. -/
structure Fmt where
  p : Nat
  emin : Int
  emax : Int
  maxM : Nat
  maxE : Int
  hasInf : Bool
  sub : Bool
  deriving DecidableEq, Repr

/-- A rounded value: a finite magnitude n × 2^q (n may be 0), or an infinity. -/
inductive Rounded where
  | fin (n : Nat) (q : Int)
  | inf
  deriving DecidableEq, Repr

/-- The value that overflow delivers (spec/05 R82, R92). -/
def overflow (f : Fmt) (rm : Rm) (neg : Bool) : Rounded :=
  let toInf : Bool :=
    match rm with
    | .rne | .rna => true
    | .rz => false
    | .rd => neg
    | .ru => !neg
  if f.hasInf && toInf then .inf else .fin f.maxM f.maxE

/-- Is n × 2^q above m × 2^e? -/
def magGt (n : Nat) (q : Int) (m : Nat) (e : Int) : Bool := Dyadic.lt { z := m, e := e } { z := n, e := q }

/-- Round(x, fmt, mode) of a magnitude that is not 0, with its flags (spec/05 R82, R92). In a format that has no finite value but 0
a magnitude that does not round to 0 overflows, with OF and NX and without UF (DESIGN CHOICE, log 50). -/
def roundMag (f : Fmt) (rm : Rm) (neg : Bool) (m : Nat) (e : Int) (sticky : Bool := false) : Rounded × Flags :=
  let qmin := f.emin - (f.p - 1 : Nat)
  let free := log2Of m e - (f.p - 1 : Nat)
  if !f.sub && decide (log2Of m e < f.emin) then
    -- below the smallest normal the grid holds only zero (spec/05 R92)
    let half := log2Of m e = f.emin - 1
    let tie := half && m = 2 ^ Nat.log2 m && !sticky
    let up : Bool :=
      match rm with
      | .rne => half && !tie
      | .rna => half
      | .rz => false
      | .rd => neg
      | .ru => !neg
    let r : Rounded := if up then .fin 1 f.emin else .fin 0 0
    if up && magGt 1 f.emin f.maxM f.maxE then (overflow f rm neg, fOF ||| fNX) else (r, fUF ||| fNX)
  else
    let q := min (max qmin free) (f.emax - (f.p - 1 : Nat))
    let (n, inexact) := roundAt rm neg m e sticky q
    if magGt n q f.maxM f.maxE then (overflow f rm neg, fOF ||| fNX)
    else
      let (nu, _) := roundAt rm neg m e sticky free
      let tiny := magGt 1 f.emin nu free
      (.fin n q, when inexact fNX ||| when (inexact && tiny) fUF)

/-! ### IEEE formats (spec/05 R81) -/

/-- Exponent bits and precision. -/
structure Ieee where
  eb : Nat
  p : Nat
  deriving DecidableEq, Repr

def f64 : Ieee := { eb := 11, p := 53 }
def f32 : Ieee := { eb := 8, p := 24 }
def f16 : Ieee := { eb := 5, p := 11 }
def bf16 : Ieee := { eb := 8, p := 8 }
/-- The format of a float type. -/
def Ieee.ofTy : Ty → Ieee
  | .f64 => f64
  | .f16 => f16
  | .bf16 => bf16
  | _ => f32

def Ieee.bias (f : Ieee) : Int := 2 ^ (f.eb - 1) - 1
def Ieee.width (f : Ieee) : Nat := f.eb + f.p
/-- The format as a grid. -/
def Ieee.fmt (f : Ieee) : Fmt :=
  { p := f.p, emin := 1 - f.bias, emax := f.bias, maxM := 2 ^ f.p - 1, maxE := f.bias - (f.p - 1 : Nat), hasInf := true,
    sub := true }

/-- The value of a code. -/
def Ieee.decode (f : Ieee) (x : Nat) : FVal :=
  let frac := x % 2 ^ (f.p - 1)
  let ex := x / 2 ^ (f.p - 1) % 2 ^ f.eb
  let neg : Bool := x / 2 ^ (f.p - 1 + f.eb) % 2 = 1
  if ex = 2 ^ f.eb - 1 then
    (if frac = 0 then .inf neg else .nan (decide (frac < 2 ^ (f.p - 2))))
  else if ex = 0 then
    (if frac = 0 then .zero neg else .fin neg frac (1 - f.bias - (f.p - 1 : Nat)))
  else .fin neg (2 ^ (f.p - 1) + frac) ((ex : Int) - f.bias - (f.p - 1 : Nat))

def Ieee.signBit (f : Ieee) (neg : Bool) : Nat := if neg then 2 ^ (f.p - 1 + f.eb) else 0
def Ieee.inf (f : Ieee) (neg : Bool) : Nat := f.signBit neg + (2 ^ f.eb - 1) * 2 ^ (f.p - 1)
def Ieee.canonNan (f : Ieee) : Nat := (2 ^ f.eb - 1) * 2 ^ (f.p - 1) + 2 ^ (f.p - 2)
def Ieee.zero (f : Ieee) (neg : Bool) : Nat := f.signBit neg

/-- The code of a rounded value: significand and exponent field. -/
def Ieee.pack (f : Ieee) (neg : Bool) : Rounded → Nat
  | .inf => f.inf neg
  | .fin n q =>
    if n = 0 then f.zero neg
    else
      let k := Nat.log2 n
      let qmin := f.fmt.emin - (f.p - 1 : Nat)
      if log2Of n q < f.fmt.emin then f.signBit neg + n * twoPow (q - qmin)
      else
        let sig := if k < f.p then n * 2 ^ (f.p - 1 - k) else n / 2 ^ (k - (f.p - 1))
        f.signBit neg + (log2Of n q + f.bias).toNat * 2 ^ (f.p - 1) + (sig - 2 ^ (f.p - 1))

/-- Rounds an exact non-zero number into an IEEE format. -/
def Ieee.round (f : Ieee) (rm : Rm) (neg : Bool) (m : Nat) (e : Int) (sticky : Bool := false) : Nat × Flags :=
  let (r, fl) := roundMag f.fmt rm neg m e sticky
  (f.pack neg r, fl)

/-- The sign of an exact zero sum (spec/05 R83): that of the terms when they agree, else by the mode. -/
def zeroSign (rm : Rm) (signs : List Bool) : Bool :=
  if signs.all id then true else if signs.all (!·) then false else rm = .rd

/-- Delivers a value into an IEEE format: the last step of an arithmetic instruction or conversion. A NaN is canonical,
with NV when it was signalling (spec/05 R82, R84, R94). -/
def Ieee.deliver (f : Ieee) (rm : Rm) : FVal → Nat × Flags
  | .nan s => (f.canonNan, when s fNV)
  | .inf n => (f.inf n, 0)
  | .zero n => (f.zero n, 0)
  | .fin n m e => f.round rm n m e

/-- The exact sum of products plus an addend, rounded once (spec/05 R84, R100; spec/07 R147, R151). 0 × infinity beside a quiet NaN
sets NV in HDOT2 too (DEDUCED, log 50). -/
def Ieee.dot (f : Ieee) (rm : Rm) (ps : List (FVal × FVal)) (c : FVal) : Nat × Flags :=
  let nan := c.isNan || ps.any fun p => p.1.isNan || p.2.isNan
  let snan := c.isSnan || ps.any fun p => p.1.isSnan || p.2.isSnan
  let bad := ps.any fun p => (p.1.isZero && p.2.isInf) || (p.1.isInf && p.2.isZero)
  let sgn := fun p : FVal × FVal => p.1.neg != p.2.neg
  let infs := (ps.filter fun p => p.1.isInf || p.2.isInf).map sgn ++ (if c.isInf then [c.neg] else [])
  if nan || bad then (f.canonNan, when (snan || bad) fNV)
  else if infs.any id && infs.any (!·) then (f.canonNan, fNV)
  else if infs ≠ [] then (f.inf (infs.any id), 0)
  else
    let x := ps.foldl (fun x p => x.add (p.1.dyadic.mul p.2.dyadic)) c.dyadic
    if x.z = 0 then (f.zero (zeroSign rm (c.neg :: ps.map sgn)), 0)
    else f.round rm (x.z < 0) x.z.natAbs x.e

/-- The value 1. -/
def oneVal : FVal := .fin false 1 0
/-- Sum, product and fused product-sum, each rounded once. -/
def Ieee.add (f : Ieee) (rm : Rm) (a b : FVal) : Nat × Flags := f.dot rm [(a, oneVal)] b
def Ieee.mul (f : Ieee) (rm : Rm) (a b : FVal) : Nat × Flags := f.dot rm [(a, b)] (.zero (a.neg != b.neg))
def Ieee.fma (f : Ieee) (rm : Rm) (a b c : FVal) : Nat × Flags := f.dot rm [(a, b)] c

/-- Order of two values that are not NaN; −0 is below +0 when `zeros` is set. -/
def FVal.lt (zeros : Bool) (a b : FVal) : Bool :=
  match a, b with
  | .inf n, .inf k => n && !k
  | .inf n, _ => n
  | _, .inf k => !k
  | .zero n, .zero k => zeros && n && !k
  | _, _ => Dyadic.lt a.dyadic b.dyadic

/-- minimumNumber and maximumNumber (spec/05 R85) on codes. -/
def Ieee.minmax (f : Ieee) (isMax : Bool) (x y : Nat) : Nat × Flags :=
  let a := f.decode x
  let b := f.decode y
  let fl := when (a.isSnan || b.isSnan) fNV
  if a.isNan && b.isNan then (f.canonNan, fl)
  else if a.isNan then (y, fl)
  else if b.isNan then (x, fl)
  else if (if isMax then FVal.lt true a b else FVal.lt true b a) then (y, fl) else (x, fl)

/-- The integral neighbour that the mode chooses; the flag says that the value changed (spec/07 R149). -/
def roundToInt (rm : Rm) (v : FVal) : FVal × Bool :=
  match v with
  | .fin n m e =>
    let (k, inexact) := roundAt rm n m e false 0
    if k = 0 then (.zero n, inexact) else (.fin n k 0, inexact)
  | v => (v, false)

/-- The signed integer of an integral value. -/
def FVal.int : FVal → Int
  | .fin n m e => (if n then -1 else 1) * (m * twoPow e : Nat)
  | _ => 0

/-- Float to integer with bounds lo..hi (spec/05 R93): rounded by RM; NaN gives 0, an infinity or out-of-range result the
nearest end, each with NV; else NX when inexact. -/
def toIntRange (rm : Rm) (lo hi : Int) (v : FVal) : Int × Flags :=
  match v with
  | .nan _ => (0, fNV)
  | .inf n => (if n then lo else hi, fNV)
  | v =>
    let (k, inexact) := roundToInt rm v
    let z := k.int
    if z < lo then (lo, fNV) else if hi < z then (hi, fNV) else (z, when inexact fNX)

/-- An integer modulo 2^n. -/
def modPow (z : Int) (n : Nat) : Nat := (z % (2 ^ n : Int)).toNat

end Sys2Proof.Machine

namespace Sys2Proof
open Sys2Proof.Machine

/-- The bounds of an integer type (spec/05 R79). -/
def Ty.lo (t : Ty) : Int := if t.isSigned then -(2 ^ (t.bits - 1) : Int) else 0
def Ty.hi (t : Ty) : Int := if t.isSigned then 2 ^ (t.bits - 1) - 1 else 2 ^ t.bits - 1
/-- The value of the low bits of a register, by an integer type. -/
def Ty.read (t : Ty) (x : Nat) : Int :=
  let v : Nat := x % 2 ^ t.bits
  if t.isSigned && decide (2 ^ (t.bits - 1) ≤ v) then (v : Int) - 2 ^ t.bits else v
/-- An integer as the register bits of a result: reduced modulo 2^w and extended to 32 bits, or 64 for a pair (spec/05
R79, R80; spec/07 R134). -/
def Ty.write (t : Ty) (z : Int) : Nat := modPow (t.read (modPow z t.bits)) (if t.bits = 64 then 64 else 32)

end Sys2Proof

namespace Sys2Proof.Machine

/-! ### Narrow formats (spec/05 R86..R92) -/

/-- A narrow-format descriptor. -/
structure Narrow where
  w : Nat
  e : Nat
  sg : Bool
  bias : Int
  sub : Bool
  spec : Nat
  nzn : Bool
  sat : Bool
  res : Nat
  deriving DecidableEq, Repr

def Narrow.of (x : Word) : Narrow :=
  let v := x.toNat
  let b := field v 15 8
  { w := field v 3 0, e := field v 6 4, sg := field v 7 7 = 1, bias := if 128 ≤ b then (b : Int) - 256 else b,
    sub := field v 16 16 = 1, spec := field v 18 17, nzn := field v 19 19 = 1, sat := field v 20 20 = 1,
    res := field v 31 21 }

/-- Mantissa bits M = W − SG − E. -/
def Narrow.m (d : Narrow) : Nat := d.w - (if d.sg then 1 else 0) - d.e
/-- The exponent and mantissa fields of the largest finite code; none when every finite code is zero. -/
def Narrow.top (d : Narrow) : Nat × Nat :=
  if d.spec = 1 then (2 ^ d.e - 2, 2 ^ d.m - 1)
  else if d.spec = 2 then (if d.m = 0 then (2 ^ d.e - 2, 0) else (2 ^ d.e - 1, 2 ^ d.m - 2))
  else (2 ^ d.e - 1, 2 ^ d.m - 1)
/-- The value of exponent and mantissa fields (spec/05 R88), as m × 2^e. -/
def Narrow.mag (d : Narrow) (e m : Nat) : Nat × Int :=
  if e = 0 then (if d.sub then m else 0, 1 - d.bias - d.m)
  else (2 ^ d.m + m, (e : Int) - d.bias - d.m)
/-- The grid of a format with E ≥ 1. -/
def Narrow.fmt (d : Narrow) : Fmt :=
  let t := d.top
  let mx := d.mag t.1 t.2
  { p := d.m + 1, emin := 1 - d.bias, emax := (max t.1 1 : Nat) - d.bias, maxM := mx.1, maxE := mx.2,
    hasInf := d.spec = 1 && !d.sat, sub := d.sub }
/-- Range of a format with E = 0. -/
def Narrow.lo (d : Narrow) : Int := if d.sg then -(2 ^ (d.w - 1) : Int) else 0
def Narrow.hi (d : Narrow) : Int := if d.sg then 2 ^ (d.w - 1) - 1 else 2 ^ d.w - 1

/-- Validity (spec/05 R87). -/
def Narrow.valid (d : Narrow) : Bool :=
  decide (1 ≤ d.w) && decide (d.w ≤ 8) && decide ((if d.sg then 1 else 0) + d.e ≤ d.w) && d.res = 0 && d.spec ≠ 3 &&
  (d.e ≠ 0 || (!d.sub && d.spec = 0 && !d.nzn)) &&
  (d.spec ≠ 1 || (decide (2 ≤ d.e) && decide (1 ≤ d.m))) && (d.spec ≠ 2 || decide (1 ≤ d.e)) &&
  (!d.nzn || (d.sg && d.spec = 0 && decide (1 ≤ d.e))) &&
  (if d.e = 0 then
    -- magnitudes 1 .. 2^(W−SG), or 2^(W−1) for the most negative, times 2^(−BIAS)
    decide (-d.bias ≥ -149) &&
      Dyadic.lt { z := max d.hi (-d.lo), e := -d.bias } { z := 1, e := 128 }
  else
    let f := d.fmt
    let mn : Nat × Int := if d.sub && decide (1 ≤ d.m) then (1, 1 - d.bias - d.m) else (1, 1 - d.bias)
    f.maxM = 0 || (Dyadic.lt { z := f.maxM, e := f.maxE } { z := 1, e := 128 } && decide (mn.2 ≥ -149)))

/-- The value of a code of the format (spec/05 R88, R89). -/
def Narrow.decode (d : Narrow) (x : Nat) : FVal :=
  let c := x % 2 ^ d.w
  if d.e = 0 then
    let z : Int := if d.sg && decide (2 ^ (d.w - 1) ≤ c) then (c : Int) - 2 ^ d.w else c
    Dyadic.val { z := z, e := -d.bias }
  else
    let s : Bool := d.sg && decide (2 ^ (d.w - 1) ≤ c)
    let e := c / 2 ^ d.m % 2 ^ d.e
    let m := c % 2 ^ d.m
    if d.spec = 1 && e = 2 ^ d.e - 1 then (if m = 0 then .inf s else .nan false)
    else if d.spec = 2 && e = 2 ^ d.e - 1 && m = 2 ^ d.m - 1 then .nan false
    else if d.nzn && s && e = 0 && m = 0 then .nan false
    else
      let v := d.mag e m
      if v.1 = 0 then .zero s else .fin s v.1 v.2

/-- The code of a sign with exponent and mantissa fields. -/
def Narrow.code (d : Narrow) (s : Bool) (e m : Nat) : Nat :=
  (if s && d.sg then 2 ^ (d.w - 1) else 0) + e * 2 ^ d.m + m
/-- Zero, infinity, MaxF and NaN codes as the device writes them (spec/05 R89, R92, R94). -/
def Narrow.zero (d : Narrow) (s : Bool) : Nat := d.code (s && !d.nzn) 0 0
def Narrow.maxCode (d : Narrow) (s : Bool) : Nat := d.code s d.top.1 d.top.2
def Narrow.infCode (d : Narrow) (s : Bool) : Nat := d.code s (2 ^ d.e - 1) 0
def Narrow.nanCode (d : Narrow) : Option Nat :=
  if d.spec = 1 then some (d.code false (2 ^ d.e - 1) (2 ^ (d.m - 1)))
  else if d.spec = 2 then some (d.code false (2 ^ d.e - 1) (2 ^ d.m - 1))
  else if d.nzn then some (d.code true 0 0)
  else none

/-- The code of a rounded value in a format with E ≥ 1. -/
def Narrow.pack (d : Narrow) (s : Bool) : Rounded → Nat
  | .inf => d.infCode s
  | .fin n q =>
    if n = 0 then d.zero s
    else
      let qmin := d.fmt.emin - (d.m : Nat)
      if log2Of n q < d.fmt.emin then d.code s 0 (n * twoPow (q - qmin))
      else
        let k := Nat.log2 n
        let sig := if k ≤ d.m then n * 2 ^ (d.m - k) else n / 2 ^ (k - d.m)
        d.code s (log2Of n q + d.bias).toNat (sig - 2 ^ d.m)

/-- Delivers a value into a narrow format (spec/05 R92, R93, R94). A negative value that does not round to 0
gives, in a format without sign, 0 and NV alone, inexact or out of range too (DESIGN CHOICE, log 50). -/
def Narrow.deliver (d : Narrow) (rm : Rm) (v : FVal) : Nat × Flags :=
  if d.e = 0 then
    let scaled : FVal := match v with
      | .fin n m e => .fin n m (e + d.bias)
      | v => v
    let (z, fl) := toIntRange rm d.lo d.hi scaled
    (modPow z d.w, fl)
  else
    match v with
    | .nan s =>
      match d.nanCode with
      | some c => (c, when s fNV)
      | none => (d.maxCode false, fNV)
    | .inf n =>
      if n && !d.sg then (d.zero false, fNV)
      else if d.spec = 1 && !d.sat then (d.infCode n, 0)
      else (d.maxCode n, fOF)
    | .zero n => (d.zero n, 0)
    | .fin n m e =>
      let (r, fl) := roundMag d.fmt rm n m e
      if n && !d.sg then
        match r with
        | .fin 0 _ => (d.zero false, fl)
        | _ => (d.zero false, fNV)
      else (d.pack n r, fl)

/-! ### Conversions by type (spec/05 R93; spec/07 R152) -/

end Sys2Proof.Machine

namespace Sys2Proof
open Sys2Proof.Machine

/-- The value of a register by a converting type; `d` is the descriptor of a narrow type. -/
def CTy.read (t : CTy) (d : Narrow) (x : Nat) : FVal :=
  match t with
  | .fd _ => d.decode x
  | .std t => if t.isInt then intVal (t.read x) else (Ieee.ofTy t).decode (x % 2 ^ t.bits)

/-- Delivers a value into a converting type: the register bits and the flags. A source that is an integer reaches an
integer type by `convert` alone. -/
def CTy.deliver (t : CTy) (d : Narrow) (rm : Rm) (v : FVal) : Nat × Flags :=
  match t with
  | .fd _ => d.deliver rm v
  | .std t =>
    if t.isInt then
      let (z, fl) := toIntRange rm t.lo t.hi v
      (t.write z, fl)
    else (Ieee.ofTy t).deliver rm v

end Sys2Proof

namespace Sys2Proof.Machine

/-- Convert(x, ts → td, rm) (spec/05 R93). Between integer types the low bits are kept, or clamped when saturating. -/
def convert (sat : Bool) (td ts : CTy) (d : Narrow) (rm : Rm) (x : Nat) : Nat × Flags :=
  match td, ts with
  | .std td', .std ts' =>
    if td'.isInt && ts'.isInt then
      let z := ts'.read x
      (td'.write (if sat then max td'.lo (min td'.hi z) else z), 0)
    else (td.deliver d rm (ts.read d x))
  | _, _ => td.deliver d rm (ts.read d x)

end Sys2Proof.Machine
end

