-- ==== Sys2Proof/Machine/Mem.lean ====
section
/-! DEFINITION. Device memory, homing, watch marks, decaf copies, and translation (spec/10, spec/17 R329, spec/21 R370..R373). -/
namespace Sys2Proof.Machine

/-! ### Physical memory -/

/-- What an unlisted byte of device memory reads as: the spec states no contents at reset (DESIGN CHOICE, log 3). -/
def memDefault : Byte := 0
/-- The canonical form of memory. -/
def memWf (m : List Host.Cell) : Bool := Map.wf memDefault m
/-- One byte of device memory. -/
def State.byte (s : State) (pa : Nat) : Byte := Map.get memDefault s.mem pa
/-- The end of device memory (spec/10 R190). -/
def memEnd : Nat := 0x2000000000
/-- Are `n` bytes at `pa` device memory? -/
def inDevice (pa n : Nat) : Bool := decide (pa + n ≤ memEnd)
/-- `n` bytes at a physical address. -/
def State.readPA (s : State) (pa n : Nat) : List Byte := Map.getList memDefault s.mem pa n
/-- The number held at a physical address. -/
def State.num (s : State) (pa n : Nat) : Nat := leNat (s.readPA pa n)
/-- Clears the poison of the bytes that a write covers: a line overwritten whole is no longer poisoned (spec/23 R413). -/
def State.unpoison (s : State) (pa n : Nat) : State :=
  if s.poisoned = [] then s
  else
    let clear := fun (m : Map (BitVec 128)) (j : Nat) =>
      m.upd 0 ((pa + j) / 128) fun x => x &&& ~~~(1#128 <<< ((pa + j) % 128))
    { s with poisoned := (List.range n).foldl clear s.poisoned }

/-- Writes bytes at a physical address. -/
def State.writePA (s : State) (pa : Nat) (bs : List Byte) : State :=
  if inDevice pa bs.length then { s with mem := Map.setList memDefault s.mem pa bs }.unpoison pa bs.length
  else { s with hole := true }

/-- Writes a number of `n` bytes. -/
def State.putNum (s : State) (pa n v : Nat) : State := s.writePA pa (leBytes n v)

/-! ### Homing and watch windows -/

/-- The home die of a physical address (spec/10 R191, spec/21 R372). -/
def State.home (s : State) (pa : Nat) : Nat :=
  let e := (s.byte (bits64 s.homeTab 51 16 * 65536 + pa / 0x200000)).toNat
  if 128 ≤ e then e % 4 else pa / 4096 % 4

/-- First and last byte of a watch window. -/
def Watch.first (w : Watch) : Nat := bits64 w.ctl 51 16 * 65536
def Watch.last (w : Watch) : Nat := bits64 w.limit 51 16 * 65536 + 65535
def Watch.en (w : Watch) : Bool := bitAt w.ctl 0
def Watch.owner (w : Watch) : Nat := bits64 w.map 63 56
/-- Bytes of one dirty map (spec/17 R328). -/
def Watch.mapBytes (w : Watch) : Nat := ((w.last + 1 - w.first) / 65536 + 1023) / 1024 * 128
/-- The address of map p. -/
def Watch.mapAt (w : Watch) (p : Nat) : Nat := bits64 w.map 51 7 * 128 + p * w.mapBytes
/-- The live map. -/
def Watch.live (w : Watch) : Nat := w.mapAt (w.gen.toNat % 2)
def State.watch (s : State) (n : Nat) : Watch := s.watches.get {} n

/-- A write reaches the home agent of a byte: the bit of its watch tile is set in the live map (spec/17 R329). -/
def State.markByte (s : State) (pa : Nat) : State :=
  (List.range 32).foldl
    (fun s n =>
      let w := s.watch n
      if w.en && decide (w.first ≤ pa) && decide (pa ≤ w.last) then
        let i := (pa - w.first) / 65536
        let a := w.live + i / 8
        { s with mem := Map.set memDefault s.mem a (s.byte a ||| (1#8 <<< (i % 8))) }
      else s) s

/-- Marks the tiles of a range of bytes; a range of one access meets at most two tiles for each 64 KiB. -/
def State.mark (s : State) (pa n : Nat) : State :=
  if s.watches = [] ∨ n = 0 then s
  else (List.range ((pa + n - 1) / 65536 - pa / 65536 + 1)).foldl
    (fun s j => s.markByte (max pa ((pa / 65536 + j) * 65536))) s


/-! ### Roast windows and side tags (spec/06 R122..R126) -/

def State.roast (s : State) (n : Nat) : Roast := s.roasts.get {} n
def Roast.en (w : Roast) : Bool := bitAt w.ctl 0
def Roast.first (w : Roast) : Nat := bits64 w.ctl 51 16 * 65536
def Roast.last (w : Roast) : Nat := bits64 w.limit 51 16 * 65536 + 65535
def Roast.vf (w : Roast) : Nat := bits64 w.fmt 63 56
def Roast.scaled (w : Roast) : Bool := bitAt w.fmt 32
def Roast.sblk (w : Roast) : Nat := bits64 w.fmt 42 40
def Roast.desc (w : Roast) : Word := w.fmt.setWidth 32
def Roast.sbase (w : Roast) : Nat := bits64 w.scale 51 6 * 64
/-- Bits of a container: 4 when W ≤ 4, else 8 (spec/05 R90). -/
def containerBits (desc : Word) : Nat := if desc.toNat % 16 ≤ 4 then 4 else 8
def Roast.blockBytes (w : Roast) : Nat := 2 ^ w.sblk * containerBits w.desc / 8
/-- Bytes of the scale region. -/
def Roast.scaleBytes (w : Roast) : Nat := (w.last + 1 - w.first) / max w.blockBytes 1

/-- The enabled window of a function that holds a byte; a window of another function counts as absent (R126). -/
def State.ownWindow (s : State) (fn pa : Nat) : Option Nat :=
  if s.roasts = [] then none
  else (List.range 32).find? fun n =>
    let w := s.roast n
    w.en && w.vf = fn && decide (w.first ≤ pa) && decide (pa ≤ w.last)

/-- A line of a scaled window is filled: its side tag takes the scales of its blocks from the scale region (R125). -/
def State.fillTag (s : State) (n line : Nat) : State :=
  match s.sideTags.get none line with
  | some _ => s
  | none =>
    let w := s.roast n
    let q := (line * 128 - w.first) / w.blockBytes
    { s with sideTags := s.sideTags.set none line (some (BitVec.ofNat 48 (leNat (s.readPA (w.sbase + q) (128 / w.blockBytes))))) }
/-- The enabled window that holds a byte, whichever function owns it: the one of drains and TST (DEDUCED, log 51). -/
def State.windowAt (s : State) (pa : Nat) : Option Nat :=
  if s.roasts = [] then none
  else (List.range 32).find? fun n => (s.roast n).en && decide ((s.roast n).first ≤ pa) && decide (pa ≤ (s.roast n).last)
/-- The enabled window with scales that holds a byte. -/
def State.scaledAt (s : State) (pa : Nat) : Option Nat :=
  if s.roasts = [] then none
  else (List.range 32).find? fun n =>
    let w := s.roast n
    w.en && w.scaled && decide (w.first ≤ pa) && decide (pa ≤ w.last)

/-! ### The LLC (spec/01 R12, R15; spec/10 R189; spec/06 R125) -/

/-- Lines of the LLC of a die: 1 GiB. -/
def llcCap : Nat := 0x800000
/-- Does a die's L2 hold the line, tracked or as a decaf copy? -/
def State.inL2 (s : State) (line : Nat) : Bool :=
  (List.range 4).any fun d => s.l2.get .i (d * 0x40000000 + line) ≠ .i || (s.decafs.get none (d * 0x40000000 + line)).isSome
/-- Does a cache above the LLC hold the line, or is data of it on the way between caches? -/
def State.aboveLlc (s : State) (line : Nat) : Bool :=
  s.inL2 line || s.wbs.any (fun x => x.2.1 = line) || s.txns.any (fun x => x.line = line) ||
    s.pendReg.any (fun x => x.2 / 32 = line) || s.cores.any fun e => (e.2.l1.get none line).isSome
/-- The side tag of a line is written to the scale region of its window, as its data is to the GDDR-7 devices. -/
def State.tagBack (s : State) (line : Nat) : State :=
  match s.sideTags.get none line, s.scaledAt (line * 128) with
  | some t, some n =>
    let w := s.roast n
    s.writePA (w.sbase + (line * 128 - w.first) / w.blockBytes) (leBytes (128 / w.blockBytes) t.toNat)
  | _, _ => s
/-- A line leaves the LLC of its home die, written back when it is dirty. Its side tag stays with a copy above. -/
def State.llcEvict (s : State) (line : Nat) : State :=
  let x := s.llc.get 0 line
  if x = 0 then s
  else
    let s := if x = 2 then s.tagBack line else s
    { s with llc := s.llc.set 0 line 0, sideTags := if s.aboveLlc line then s.sideTags else s.sideTags.set none line none }
/-- Room for a line in the LLC of its home die: a full one gives up a line, chosen freely. -/
def State.llcRoom (s : State) (line : Nat) : State :=
  let mine := if s.llc.length < llcCap then [] else s.llc.filter fun e => s.home (e.1 * 128) = s.home (line * 128)
  if mine.length < llcCap then s
  else
    let (n, s) := s.freeNat
    s.llcEvict (((mine[n % mine.length]?).map (·.1)).getD line)
/-- A line fills the LLC of its home die; a line of a scaled window that no cache above holds takes its side tag from the
scale region. -/
def State.llcFill (s : State) (line : Nat) : State :=
  if s.llc.get 0 line ≠ 0 then s
  else
    let s := s.llcRoom line
    let s := { s with llc := s.llc.set 0 line 1 }
    match s.scaledAt (line * 128) with
    | some n => (if s.aboveLlc line then s else { s with sideTags := s.sideTags.set none line none }).fillTag n line
    | none => s
/-- A line that an L2 writes back goes to the LLC, with its side tag. -/
def State.llcTake (s : State) (line : Nat) : State :=
  let s := if s.llc.get 0 line ≠ 0 then s else s.llcRoom line
  { s with llc := s.llc.set 0 line 2 }
/-- The data of a line in the LLC is newer than the GDDR-7 devices'. -/
def State.llcDirty (s : State) (line : Nat) : State := { s with llc := s.llc.set 0 line 2 }
/-- An access to `n` bytes: their lines fill the LLC; one that leaves device memory ends the model's run (log 8). -/
def State.touch (s : State) (pa n : Nat) : State :=
  if !inDevice pa n then { s with hole := true }
  else if n = 0 then s
  else (List.range ((pa + n - 1) / 128 - pa / 128 + 1)).foldl (fun s j => s.llcFill (pa / 128 + j)) s

/-! ### Side tags -/

/-- The scale of the block at an address, as a block of threads reads it. -/
def State.tagByte (s : State) (b n pa : Nat) : Byte :=
  let j := pa % 128 / (s.roast n).blockBytes
  match (s.blk b).tagBuf.get none (pa / 128 * 8 + j) with
  | some x => x
  | none => (((s.sideTags.get none (pa / 128)).getD 0) >>> (8 * j)).setWidth 8
/-- Replaces a byte of a line's tag; key 8 × line + byte. -/
def State.setTag (s : State) (key : Nat) (v : Byte) : State :=
  let old := (s.sideTags.get none (key / 8)).getD 0
  let sh := 8 * (key % 8)
  let new := (old &&& ~~~(0xFF#48 <<< sh)) ||| (v.setWidth 48 <<< sh)
  { s with sideTags := s.sideTags.set none (key / 8) (some new) }

/-- Words are owned within a die: the key of a word on a die. -/
def ownKey (die word : Nat) : Nat := die * 0x800000000 + word
def State.owner (s : State) (die word : Nat) : Option Nat := s.owners.get none (ownKey die word)
/-- Words whose ownership a store of `n` bytes registers (spec/10 R201). -/
def wordsAt (pa n : Nat) : List Nat := (List.range ((pa + n - 1) / 4 - pa / 4 + 1)).map fun j => pa / 4 + j
/-- A write or a marked access at the place that orders the bytes: no core owns their words any more. What an owner has stored
to them is there already. -/
def State.disown (s : State) (pa n : Nat) : State :=
  if s.owners = [] then s
  else
    let ws := wordsAt pa n
    { s with owners := s.owners.filter fun e => !ws.contains (e.1 % 0x800000000) }

/-- A write that is made at the home agent: by an atomic, an engine, the host or a command processor. -/
def State.writeHome (s : State) (pa : Nat) (bs : List Byte) : State :=
  if bs = [] then s
  else
    let s := ((s.touch pa bs.length).disown pa bs.length).writePA pa bs
    let s := (List.range ((pa + bs.length - 1) / 128 - pa / 128 + 1)).foldl (fun s j => s.llcDirty (pa / 128 + j)) s
    s.mark pa bs.length

/-! ### Decaf copies (spec/10 R210, R212) -/

def decafKey (die line : Nat) : Nat := die * 0x40000000 + line
def State.decaf (s : State) (die line : Nat) : Option Decaf := s.decafs.get none (decafKey die line)
def State.setDecaf (s : State) (die line : Nat) (x : Option Decaf) : State :=
  { s with decafs := s.decafs.set none (decafKey die line) x }

/-- Fills a die's copy of a line from the home. -/
def State.fillDecaf (s : State) (die line : Nat) : State :=
  match s.decaf die line with
  | some _ => s
  | none => s.setDecaf die line (some { data := s.readPA (line * 128) 128, dirty := 0, home := s.home (line * 128) })

/-- Writes a byte of a die's copy; `dirty` sets its mask bit. -/
def State.putDecaf (s : State) (die pa : Nat) (x : Byte) (dirty : Bool) : State :=
  match s.decaf die (pa / 128) with
  | none => s
  | some c =>
    s.setDecaf die (pa / 128) (some
      { c with data := c.data.set (pa % 128) x,
               dirty := if dirty then c.dirty ||| (1#128 <<< (pa % 128)) else c.dirty &&& ~~~(1#128 <<< (pa % 128)) })

/-- The die writes back the dirty bytes of a copy; the home merges them as ordinary writes. The copy stays clean. -/
def State.cleanDecaf (s : State) (die line : Nat) : State :=
  match s.decaf die line with
  | none => s
  | some c =>
    if c.dirty = 0 then s
    else
      let s := (List.range 128).foldl
        (fun s j => if c.dirty.getLsbD j then s.writeHome (line * 128 + j) [(c.data[j]?).getD 0] else s) s
      s.setDecaf die line (some { c with dirty := 0 })

/-- Is a line of a decaf page cached on a die that is not its home? -/
def State.remote (s : State) (decaf : Bool) (die pa : Nat) : Bool := decaf && decide (s.home pa ≠ die)

/-- Lines that hold some of `n` bytes. -/
def linesAt (pa n : Nat) : List Nat := if n = 0 then [] else (List.range ((pa + n - 1) / 128 - pa / 128 + 1)).map (pa / 128 + ·)

/-- A byte reaches a die's L2: the die's copy of a decaf line that is homed elsewhere, else memory. -/
def State.dieWrite (s : State) (decaf : Bool) (die pa : Nat) (x : Byte) : State :=
  if s.remote decaf die pa then (s.fillDecaf die (pa / 128)).putDecaf die pa x true else s.writePA pa [x]
/-- The byte that a die's L2 supplies. -/
def State.dieByte (s : State) (decaf : Bool) (die pa : Nat) : Byte :=
  if s.remote decaf die pa then
    match s.decaf die (pa / 128) with
    | some c => (c.data[pa % 128]?).getD 0
    | none => s.byte pa
  else s.byte pa

/-! ### A core's L1 and stash (spec/10 R201..R203; spec/11 R228) -/

def State.l1At (s : State) (core line : Nat) : Option L1Line := (s.core core).l1.get none line
def State.setL1 (s : State) (core line : Nat) (x : Option L1Line) : State :=
  s.updCore core fun c => { c with l1 := c.l1.set none line x }
/-- `n` bits from bit `j` on. -/
def bitRun (j n : Nat) : BitVec 128 := (BitVec.allOnes 128 >>> (128 - n)) <<< j

/-- The bytes of a line in the words that a core owns. -/
def State.ownedMask (s : State) (core line : Nat) : BitVec 128 :=
  (List.range 32).foldl (fun m j => if s.owner (dieOf core) (line * 32 + j) = some core then m ||| bitRun (4 * j) 4 else m) 0

/-- A byte of the core's copy that is a store of its own, not yet received by the L2. -/
def State.ownByte (s : State) (core pa : Nat) : Option Byte :=
  match s.l1At core (pa / 128) with
  | some x => if x.dirty.getLsbD (pa % 128) then some ((x.data[pa % 128]?).getD 0) else none
  | none => none

/-- The stores of a core to some bytes of a line reach the die's L2; the copy stays. What has reached the die's own copy of a
decaf line that is homed elsewhere awaits no registration: no directory tracks it (R210). -/
def State.publishMask (s : State) (core line : Nat) (m : BitVec 128) : State :=
  match s.l1At core line with
  | none => s
  | some x =>
    if x.dirty &&& m = 0 then s
    else
      let s := (List.range 128).foldl
        (fun s j => if (x.dirty &&& m).getLsbD j then s.dieWrite x.decaf (dieOf core) (line * 128 + j) ((x.data[j]?).getD 0) else s) s
      let y := { x with dirty := x.dirty &&& ~~~m }
      let waits := fun e : Nat × Nat => !(e.1 = core && e.2 / 32 = line && y.dirty &&& bitRun (e.2 % 32 * 4) 4 = 0)
      let s := if s.remote x.decaf (dieOf core) (line * 128) then { s with pendReg := s.pendReg.filter waits } else s
      s.setL1 core line (some y)
/-- The stores of a core to the aligned 8 bytes that hold an address: an aligned access is single-copy atomic (R198). -/
def State.publishUnit (s : State) (core pa : Nat) : State := s.publishMask core (pa / 128) (bitRun (pa % 128 / 8 * 8) 8)
def State.publishLine (s : State) (core line : Nat) : State := s.publishMask core line (BitVec.allOnes 128)
/-- Lines of a core. -/
def State.l1Lines (s : State) (core : Nat) : List Nat := (s.core core).l1.map (·.1)
def State.publishAll (s : State) (core : Nat) : State := (s.l1Lines core).foldl (fun s l => s.publishLine core l) s

/-- Drops what a mask covers of a core's copy of a line. -/
def State.dropMask (s : State) (core line : Nat) (m : BitVec 128) : State :=
  match s.l1At core line with
  | none => s
  | some x =>
    let y := { x with valid := x.valid &&& ~~~m, dirty := x.dirty &&& ~~~m }
    s.setL1 core line (if y.valid = 0 then none else some y)
/-- A core's copy of a line goes, but for the stores that the L2 has not received. -/
def State.dropClean (s : State) (core line : Nat) : State :=
  match s.l1At core line with
  | none => s
  | some x => s.dropMask core line (~~~x.dirty)

/-- An acquire: every word in the core's L1 and stash that the core does not own is invalidated (R202). -/
def State.acquire (s : State) (core : Nat) : State :=
  (s.l1Lines core).foldl
    (fun s l => match s.l1At core l with
      | none => s
      | some x => s.dropMask core l (~~~(x.dirty ||| s.ownedMask core l))) s

/-- What the executing core has stored to some bytes reaches the L2, and its copy of them goes; no core owns their words any
more. -/
def State.settleOwn (s : State) (core pa n : Nat) : State :=
  let part := fun l : Nat => bitRun (max pa (l * 128) % 128) (min (pa + n) (l * 128 + 128) - max pa (l * 128))
  ((linesAt pa n).foldl (fun s l => (s.publishMask core l (part l)).dropMask core l (part l)) s).disown pa n
/-- A marked access is made at the line's L2 slice, at the home die for a decaf line: what the executing core has stored to its
bytes and the die's dirty copy reach it first (R199, R212). -/
def State.atSlice (s : State) (core : Nat) (decaf : Bool) (pa n : Nat) : State :=
  let s := s.settleOwn core pa n
  if s.remote decaf (dieOf core) pa then (linesAt pa n).foldl (fun s l => s.cleanDecaf (dieOf core) l) s else s

/-- L1 lines of a core beside its stash. -/
def State.l1Count (s : State) (core : Nat) : Nat := ((s.core core).l1.filter fun e => e.2.any fun x => x.stash.isNone).length
/-- Lines that the L1 holds: 128 KiB (spec/01 R14). -/
def l1Cap : Nat := 1024
/-- Room for one more line: a line of the L1 gives way, chosen freely, once its stores have reached the L2. -/
def State.l1Room (s : State) (core : Nat) : State :=
  if s.l1Count core < l1Cap then s
  else
    let (n, s) := s.freeNat
    let ls := ((s.core core).l1.filter fun e => e.2.any fun x => x.stash.isNone).map (·.1)
    match ls[n % ls.length]? with
    | none => s
    | some l => (s.publishLine core l).setL1 core l none

/-- What a fill leaves of a line: the core's own stores, and the rest as the die's L2 supplies it. -/
def State.filled (s : State) (core : Nat) (decaf : Bool) (line : Nat) : L1Line :=
  let old := (s.l1At core line).getD { data := [], valid := 0, dirty := 0 }
  let keep := if old.stash.isSome then old.valid else old.dirty
  { old with
    data := (List.range 128).map fun j =>
      if keep.getLsbD j then (old.data[j]?).getD 0 else s.dieByte decaf (dieOf core) (line * 128 + j)
    valid := BitVec.allOnes 128, decaf := decaf, home := s.home (line * 128) }
/-- A line fills a core's L1; a stash line keeps the bytes that it holds. -/
def State.l1Fill (s : State) (core : Nat) (decaf : Bool) (line : Nat) : State :=
  let s := if (s.l1At core line).isSome then s else s.l1Room core
  s.setL1 core line (some (s.filled core decaf line))

/-- A load of a line may leave it in the L1 or not: the choice is the device's, but a stash line is always filled (spec/11
R228). -/
def State.mayFill (s : State) (core : Nat) (decaf : Bool) (line : Nat) : State :=
  match s.l1At core line with
  | some x =>
    if x.stash.isSome then s.l1Fill core decaf line
    else
      let (c, s) := s.freeBool
      { s with cores := if c then (s.l1Fill core decaf line).cores else s.cores }
  | none =>
    let (c, s) := s.freeBool
    if s.l1Count core < l1Cap then { s with cores := if c then (s.l1Fill core decaf line).cores else s.cores }
    else if c then s.l1Fill core decaf line
    else s

/-- Puts a byte of a store into the core's copy of its line. -/
def State.putL1 (s : State) (core : Nat) (decaf : Bool) (pa : Nat) (x : Byte) : State :=
  let line := pa / 128
  let s := if (s.l1At core line).isSome then s else s.l1Room core
  let old := (s.l1At core line).getD { data := List.replicate 128 0, valid := 0, dirty := 0, home := s.home pa }
  let bit := 1#128 <<< (pa % 128)
  s.setL1 core line (some
    { old with data := old.data.set (pa % 128) x, valid := old.valid ||| bit, dirty := old.dirty ||| bit, decaf := decaf })

/-- A mapped line sits in the block's stash and not in the L1 (spec/11 R228). -/
def State.toStash (s : State) (b core pa : Nat) : State :=
  match s.l1At core (pa / 128) with
  | some x => if x.stash.isSome then s else s.setL1 core (pa / 128) (some { x with stash := some b })
  | none =>
    s.setL1 core (pa / 128)
      (some { data := List.replicate 128 0, valid := 0, dirty := 0, home := s.home pa, stash := some b })

/-! ### Loads and stores of a block at a physical address -/

/-- Does the block hold its global writes back (spec/23 R410, R412)? -/
def Block.tentative (k : Block) : Bool := k.contained && k.restartable

/-- A block writes the scale of the block of elements at an address: at once, or at its commit (spec/23 R410). -/
def State.putScale (s : State) (b n pa : Nat) (v : Byte) : State :=
  let s := (s.touch pa 1).fillTag n (pa / 128)
  let key := pa / 128 * 8 + pa % 128 / (s.roast n).blockBytes
  if (s.blk b).tentative then s.updBlk b fun k => { k with tagBuf := k.tagBuf.set none key (some v) } else s.setTag key v

/-- The new value of an element under an add-on-store (spec/06 R118). `x` is the value drained: f32 for a float
destination. -/
def addElem (td : DrainTy) (rm : Rm) (old x : Nat) : Nat × Flags :=
  match td with
  | .f32 => f32.add rm (f32.decode old) (f32.decode x)
  | .f16 => f16.add rm (f16.decode old) (f32.decode x)
  | .bf16 => bf16.add rm (bf16.decode old) (f32.decode x)
  | .i32 => (modPow (max Ty.i32.lo (min Ty.i32.hi (Ty.i32.read old + Ty.i32.read x))) 32, 0)
  | .x64 => ((old + x) % 2 ^ 64, 0)
  | .fd _ => (x, 0)
/-- The new bytes of an update, with its flags. -/
def Merge.apply (m : Merge) (old : List Byte) : List Byte × Flags :=
  match m with
  | .add td rm x => let r := addElem td rm (leNat old) x; (leBytes old.length r.1, r.2)
  | .bits mask v => (old.map fun o => (o &&& ~~~mask) ||| (v &&& mask), 0)

/-- The bytes of an element after the updates that a block holds back for it. -/
def heldBytes (ms : List HeldMerge) (pa : Nat) (old : List Byte) : List Byte :=
  ms.foldl (fun bs m => if m.pa = pa && m.bytes = bs.length then (m.what.apply bs).1 else bs) old

/-- How an access reaches memory: through the core's copies (plain accesses on the LSU path), at the line's L2 slice (marked
accesses), or by an engine, which knows nothing of the core's copies (spec/10 R192, R199; spec/11 R214, R215). -/
inductive Way where
  | lsu | slice | engine
  deriving DecidableEq, Repr

/-- The byte that a block's access finds beyond the clean copies of its core: its own tentative byte, on the LSU path a store of
its core that the L2 has not received, then what the die's L2 or, for a marked access, the home die supplies (spec/10 R212). -/
def State.loadByte (s : State) (b : Nat) (decaf : Bool) (way : Way) (pa : Nat) : Byte :=
  let k := s.blk b
  let base := fun p : Nat =>
    match way with
    | .lsu => (s.ownByte k.core p).getD (s.dieByte decaf (dieOf k.core) p)
    | .slice => s.byte p
    | .engine => s.dieByte decaf (dieOf k.core) p
  match k.buf.get none pa with
  | some x => x.1
  | none =>
    match k.merges.find? fun m => decide (m.pa ≤ pa) && decide (pa < m.pa + m.bytes) with
    | some m => ((heldBytes k.merges m.pa ((List.range m.bytes).map fun j => base (m.pa + j)))[pa - m.pa]?).getD 0
    | none => base pa

/-- The bytes that the clean copy of a core gives for `n` bytes of one line, when it holds them all. -/
def State.copyBytes (s : State) (b core pa n : Nat) : Option (List Byte) :=
  match s.l1At core (pa / 128) with
  | none => none
  | some x =>
    if (List.range n).all fun j => x.valid.getLsbD ((pa + j) % 128) then
      some ((List.range n).map fun j =>
        match (s.blk b).buf.get none (pa + j) with
        | some y => y.1
        | none => (x.data[(pa + j) % 128]?).getD 0)
    else none
def State.inStash (s : State) (core line : Nat) : Bool := (s.l1At core line).any fun x => x.stash.isSome

def l2Key (die line : Nat) : Nat := die * 0x40000000 + line
def State.l2At (s : State) (die line : Nat) : L2 := s.l2.get .i (l2Key die line)

/-- Is the line cached under another attribute of its page or another homing than the access finds? What it holds is then
undefined until it is written back or invalidated (spec/10 R213, spec/21 R372). -/
def State.misCached (s : State) (core : Nat) (decaf : Bool) (line : Nat) : Bool :=
  let die := dieOf core
  let h := s.home (line * 128)
  (s.l1At core line).any (fun x => x.decaf != decaf || x.home != h) ||
    (s.decaf die line).any (fun x => !decaf || x.home != h) ||
    (s.l2At die line ≠ .i && (s.l2Home.get none (l2Key die line)).any (· != h))

/-- A plain load of bytes of one aligned unit: what the core's clean copy holds, or what lies beyond it, as the device
chooses (R197); a stash line gives what it holds. -/
def State.loadUnit (s : State) (b core : Nat) (decaf : Bool) (pa n : Nat) : List Byte × State :=
  if !(s.blk b).agent && s.misCached core decaf (pa / 128) then s.freeBytes n
  else
    let fresh := (List.range n).map fun j => s.loadByte b decaf .lsu (pa + j)
    match s.copyBytes b core pa n with
    | none => (fresh, s)
    | some old =>
      if old = fresh then (fresh, s)
      else if s.inStash core (pa / 128) then (old, s)
      else
        let (c, s) := s.freeBool
        (if c then old else fresh, s)

/-- Bytes cut at multiples of 8: address and number of bytes of each piece; the recursion is on the number of pieces. -/
def unitsAt : Nat → Nat → Nat → List (Nat × Nat)
  | 0, _, _ => []
  | f + 1, pa, n => if n = 0 then [] else let m := min n (8 - pa % 8); (pa, m) :: unitsAt f (pa + m) (n - m)

/-- A load of thread `t` (spec/23 R413: poisoned data that it reads is consumed). -/
def State.load (s : State) (b t : Nat) (decaf : Bool) (way : Way) (pa n : Nat) : List Byte × State :=
  let core := (s.blk b).core
  let die := dieOf core
  let s := s.touch pa n
  let s := if s.poisoned = [] then s
    else if (List.range n).any fun j => s.poisoned.get 0 ((pa + j) / 128) ≠ 0 &&
        ((s.blk b).buf.get none (pa + j)).isNone then { s with dueErrors := s.dueErrors ++ [(b, t, pa)] }
    else s
  match way with
  | .slice =>
    let s := s.atSlice core decaf pa n
    ((List.range n).map fun j => s.loadByte b decaf .slice (pa + j), s)
  | .engine =>
    let s := if s.remote decaf die pa then (linesAt pa n).foldl (fun s l => s.fillDecaf die l) s else s
    ((List.range n).map fun j => s.loadByte b decaf .engine (pa + j), s)
  | .lsu =>
    let s := if s.remote decaf die pa then (linesAt pa n).foldl (fun s l => s.fillDecaf die l) s else s
    let (bs, s) := (unitsAt (n / 8 + 2) pa n).foldl
      (fun (x : List Byte × State) u =>
        let (bs, s) := x.2.loadUnit b core decaf u.1 u.2
        (x.1 ++ bs, s)) ([], s)
    (bs, (linesAt pa n).foldl (fun s l => s.mayFill core decaf l) s)

/-- Bytes of a block's engine reach the die's L2 (spec/11 R214): the die's copy of a decaf line that is homed elsewhere, else the
home. -/
def State.dieStore (s : State) (decaf : Bool) (die pa : Nat) (bs : List Byte) : State :=
  if s.remote decaf die pa then
    (List.range bs.length).foldl (fun s j => s.dieWrite decaf die (pa + j) ((bs[j]?).getD 0)) ((s.touch pa bs.length).disown pa bs.length)
  else s.writeHome pa bs
/-- A write at the home die, whose bytes the die's copy of a decaf line takes over (spec/10 R212). -/
def State.sliceStore (s : State) (decaf : Bool) (die pa : Nat) (bs : List Byte) : State :=
  let s := s.writeHome pa bs
  if s.remote decaf die pa then
    (List.range bs.length).foldl (fun s j => s.putDecaf die (pa + j) ((bs[j]?).getD 0) false) s
  else s

/-- A write of a block that is not held back. A plain store on the LSU path goes to the core's copy of its line, and its
words await registration; once the core owns them it is visible at once (R201). A write at the home is visible and marks its
watch tile at once. -/
def State.storeThrough (s : State) (b : Nat) (decaf : Bool) (way : Way) (pa : Nat) (bs : List Byte) : State :=
  if bs = [] then s
  else
    let core := (s.blk b).core
    let die := dieOf core
    match way with
    | .slice => (s.atSlice core decaf pa bs.length).sliceStore decaf die pa bs
    | .engine => s.dieStore decaf die pa bs
    | .lsu =>
      let s := s.touch pa bs.length
      let s := (List.range bs.length).foldl (fun s j => s.putL1 core decaf (pa + j) ((bs[j]?).getD 0)) s
      let add := fun (l : List (Nat × Nat)) (w : Nat) =>
        if l.contains (core, w) || s.owner die w = some core then l else l ++ [(core, w)]
      let s := { s with pendReg := (wordsAt pa bs.length).foldl add s.pendReg }
      (unitsAt (bs.length / 8 + 2) pa bs.length).foldl
        (fun s u => if (wordsAt (u.1 / 8 * 8) 8).any fun w => s.pendReg.contains (core, w) then s else s.publishUnit core u.1) s

/-- Lines that a store buffer holds. -/
def bufLines (m : Map (Option (Byte × Bool))) (ms : List HeldMerge) : Nat :=
  ((m.map fun (e : Nat × Option (Byte × Bool)) => e.1 / 128) ++ ms.map fun (x : HeldMerge) => x.pa / 128).eraseDups.length

/-- One indivisible update of bytes at the port of their memory (spec/06 R118, spec/08 R185): an add-on-store is made where
atomics are, at the home die of a decaf line; some bits of a byte are written where an engine writes. -/
def State.mergeThrough (s : State) (b : Nat) (decaf : Bool) (pa n : Nat) (m : Merge) : Flags × State :=
  let die := dieOf (s.blk b).core
  let s := s.touch pa n
  match m with
  | .add .. =>
    let s := if s.remote decaf die pa then (linesAt pa n).foldl (fun s l => s.cleanDecaf die l) s else s
    let r := m.apply (s.readPA pa n)
    (r.2, s.sliceStore decaf die pa r.1)
  | .bits .. =>
    let s := if s.remote decaf die pa then s.fillDecaf die (pa / 128) else s
    let r := m.apply ((List.range n).map fun j => s.dieByte decaf die (pa + j))
    (r.2, s.dieStore decaf die pa r.1)

/-- A commit: every tentative byte becomes an ordinary write of the block from its die, every update that was held back is
made, and a held content entry whose count is 0 is reclaimed (spec/23 R411, spec/12 R245). A byte of a decaf line that is
homed elsewhere goes to the die's copy. `forced` ends restartability (R412). -/
def State.commit (s : State) (b : Nat) (forced : Bool) : State :=
  let k := s.blk b
  if !k.contained then s
  else
    let die := dieOf k.core
    let s := s.updBlk b fun k =>
      { k with buf := [], merges := [], tagBuf := [], restartable := k.restartable && !forced }
    let s := k.merges.foldl (fun s m => ((s.settleOwn k.core m.pa m.bytes).mergeThrough b m.decaf m.pa m.bytes m.what).2) s
    let s := k.buf.foldl
      (fun s (e : Nat × Option (Byte × Bool)) =>
        match e.2 with
        | none => s
        | some (x, decaf) => (s.settleOwn k.core e.1 1).dieStore decaf die e.1 [x]) s
    let s := k.tagBuf.foldl (fun s (e : Nat × Option Byte) => s.setTag e.1 (e.2.getD 0)) s
    let rel := k.journal.filterMap fun j =>
      match j with
      | .released n => some n
      | .took _ => none
    let s := s.updBlk b fun k => { k with journal := [] }
    { s with content := s.content.map fun e =>
        if e.state = .held && e.ref = 0 && rel.contains e.name then { e with state := .reclaiming } else e }

/-- Updates that bytes of a store meet, when it does not replace them whole: their values become tentative bytes. -/
def Block.settleMerges (k : Block) (s : State) (b pa n : Nat) : Block :=
  let meets := fun m : HeldMerge => decide (m.pa < pa + n) && decide (pa < m.pa + m.bytes)
  let hit := k.merges.filter meets
  let buf := hit.foldl
    (fun m x => (List.range x.bytes).foldl
      (fun m j => m.set none (x.pa + j) (some (s.loadByte b x.decaf .lsu (x.pa + j), x.decaf))) m) k.buf
  { k with buf := buf, merges := k.merges.filter fun m => !meets m }

/-- A global write made by a block or on its behalf: tentative in the block's buffer while the block is restartable and
contained; a write that finds the buffer full commits first (spec/23 R410, R411). -/
def State.store (s : State) (b : Nat) (decaf : Bool) (way : Way) (pa : Nat) (bs : List Byte) : State :=
  let k := s.blk b
  if k.tentative then
    let k' := k.settleMerges s b pa bs.length
    let buf := (List.range bs.length).foldl
      (fun m j => m.set none (pa + j) (some ((bs[j]?).getD 0, decaf))) k'.buf
    if bufLines buf k'.merges ≤ 2048 then (s.touch pa bs.length).updBlk b fun _ => { k' with buf := buf }
    else (s.commit b true).storeThrough b decaf way pa bs
  else s.storeThrough b decaf way pa bs

/-- An update made by a block or on its behalf; while its block is tentative it is held back, on top of the block's own
tentative bytes. Answers its flags. -/
def State.merge (s : State) (b : Nat) (decaf : Bool) (pa n : Nat) (m : Merge) : Flags × State :=
  let k := s.blk b
  if !k.tentative then s.mergeThrough b decaf pa n m
  else
    let old := (List.range n).map fun j => s.loadByte b decaf .engine (pa + j)
    let r := m.apply old
    let mine := fun j : Nat => (k.buf.get none (pa + j)).isSome ||
      k.merges.any fun x => decide (x.pa ≤ pa + j) && decide (pa + j < x.pa + x.bytes) && !(x.pa = pa && x.bytes = n)
    if (List.range n).any mine then (r.2, s.store b decaf .engine pa r.1)
    else
      let ms := k.merges ++ [{ pa := pa, decaf := decaf, bytes := n, what := m }]
      if bufLines k.buf ms ≤ 2048 then (r.2, (s.touch pa n).updBlk b fun k => { k with merges := ms })
      else (s.commit b true).mergeThrough b decaf pa n m

/-! ### Translation -/

/-- A translation, or why there is none: a fault with its cause and the guest physical address (spec/21 R377), a frame in
transit (R379), or a table beyond device memory (log 8). -/
inductive Walk where
  | ok (x : Xlat)
  | fault (cause : Nat) (gpa : Nat)
  | transit
  | hole
  deriving DecidableEq, Repr

/-- The second stage for a guest physical address (spec/21 R371): physical address and permissions. Function 0 has one
stage (spec/21 R368). -/
def State.stage2 (s : State) (fn g : Nat) : Except Walk (Nat × Bool × Bool) :=
  if fn = 0 then .ok (g, true, true)
  else
    let f := s.fn fn
    let frame := g / 0x200000 % 0x80000000
    if f.s2frames.toNat ≤ frame then .error (.fault 5 g)
    else
      let a := bits64 f.s2base 51 12 * 4096 + 8 * frame
      if !inDevice a 8 then .error .hole
      else
        let e := s.num a 8
        if e % 2 = 0 then .error (.fault 5 g)
        else if field e 63 52 ≠ 0 ∨ field e 20 5 ≠ 0 ∨ field e 1 1 ≠ 0 then .error (.fault 7 g)
        else if field e 4 4 = 1 then .error .transit
        else .ok (field e 51 21 * 0x200000 + g % 0x200000, field e 2 2 = 1, field e 3 3 = 1)

/-- Lowest address bit that a level of the radix tree indexes (spec/21 R370). -/
def levelBit : Nat → Nat
  | 5 => 48 | 4 => 39 | 3 => 30 | 2 => 21 | _ => 16

/-- The walk from a table at guest physical address `t`, at level `l`; the recursion is on the level. -/
def State.walkFrom (s : State) (fn va : Nat) : Nat → Nat → Walk
  | 0, _ => .fault 4 0
  | l + 1, t =>
    let lvl := l + 1
    let idx := va / 2 ^ levelBit lvl % (if lvl = 1 then 32 else 512)
    match s.stage2 fn (t + 8 * idx) with
    | .error e => e
    | .ok (pa, _, _) =>
      if !inDevice pa 8 then .hole
      else
        let e := s.num pa 8
        let adr := field e 51 8 * 256
        if e % 2 = 0 then .fault 1 0
        else if field e 63 52 ≠ 0 ∨ field e 7 7 ≠ 0 ∨ field e 2 2 ≠ 0 then .fault 4 0
        else if field e 1 1 = 1 then
          let size := 2 ^ levelBit lvl
          if lvl > 3 ∨ adr % size ≠ 0 then .fault 4 0
          else
            match s.stage2 fn (adr + va % size) with
            | .error e => e
            | .ok (p, w2, x2) =>
              let b := if fn = 0 then levelBit lvl else min (levelBit lvl) 21
              .ok { fn := fn, va := va / 2 ^ b * 2 ^ b, bits := b, pa := p / 2 ^ b * 2 ^ b,
                    w := field e 3 3 = 1 && w2, x := field e 4 4 = 1 && x2, decaf := field e 5 5 = 1,
                    ext := field e 6 6 = 1 }
        else if lvl = 1 ∨ adr % (if lvl = 2 then 256 else 4096) ≠ 0 then .fault 4 0
        else s.walkFrom fn va l adr

/-- The walk of a virtual address (spec/21 R370, R374). Firmware's address space is the physical one (log 9). -/
def State.walk (s : State) (fn va : Nat) : Walk :=
  if fn = fwFn then
    .ok { fn := fn, va := va / 65536 * 65536, bits := 16, pa := va / 65536 * 65536, w := true, x := true, decaf := false, ext := false }
  else
    let f := s.fn fn
    if !bitAt f.s1root 0 then .fault 1 0
    else s.walkFrom fn (va % 2 ^ 57) 5 (bits64 f.s1root 51 12 * 4096)

/-- Does an entry hold the page of an address? -/
def Xlat.holds (x : Xlat) (fn va : Nat) : Bool := x.fn = fn && x.va = va / 2 ^ x.bits * 2 ^ x.bits
def Xlat.addr (x : Xlat) (va : Nat) : Nat := x.pa + va % 2 ^ x.bits

/-- Does the entry permit the access (spec/21 R370, R371)? -/
def Xlat.permits (x : Xlat) (kind : AccKind) : Bool :=
  match kind with
  | .write | .atomic | .drain => x.w
  | .fetch => x.x
  | _ => true

/-- The leaf entry of the first stage; the recursion is on the level. -/
def State.leafOf (s : State) (fn va : Nat) : Nat → Nat → Option Nat
  | 0, _ => none
  | l + 1, t =>
    let lvl := l + 1
    let idx := va / 2 ^ levelBit lvl % (if lvl = 1 then 32 else 512)
    match s.stage2 fn (t + 8 * idx) with
    | .error _ => none
    | .ok (pa, _, _) =>
      let e := s.num pa 8
      if field e 1 1 = 1 then some e else s.leafOf fn va l (field e 51 8 * 256)

/-- The cause of a permission that a walk denies, with the guest physical address of a second-stage denial: the first
stage's when its entry lacks the bit, else the second's (spec/21 R377). -/
def State.deniedCause (s : State) (fn va : Nat) (kind : AccKind) (x : Xlat) : Nat × Nat :=
  let first : Nat × Nat := (if kind = AccKind.fetch then 3 else 2, 0)
  if fn = 0 then first
  else
    match s.leafOf fn (va % 2 ^ 57) 5 (bits64 (s.fn fn).s1root 51 12 * 4096) with
    | none => first
    | some e =>
      if (if kind = AccKind.fetch then field e 4 4 = 1 else field e 3 3 = 1) then (6, field e 51 8 * 256 + va % 2 ^ x.bits)
      else first

/-- A walk with the access's permission. -/
def State.walkFor (s : State) (fn va : Nat) (kind : AccKind) : Walk :=
  match s.walk fn va with
  | .ok x =>
    if x.permits kind then .ok x
    else
      let c := s.deniedCause fn va kind x
      .fault c.1 c.2
  | w => w

/-- Keeps a list of cached entries at its capacity, newest first. -/
def remember (cap : Nat) (l : List Xlat) (x : Xlat) : List Xlat := if l.contains x then l else (x :: l).take cap

/-- Writes a walked translation into the caches of a core and, for a thread, its last-page register (spec/21 R373). -/
def State.cache (s : State) (core : Nat) (bt : Option (Nat × Nat)) (x : Xlat) : State :=
  let s := s.updCore core fun c => { c with tlb := remember 512 c.tlb x }
  let s := s.updRegion (regionOf core) fun r => { r with tlb := remember 8192 r.tlb x }
  let s := s.updDie (dieOf core) fun d => { d with tlb := remember 262144 d.tlb x }
  match bt with
  | some (b, t) => s.updThr b t fun th => { th with lastPage := some x }
  | none => s

/-- The translation of an access of a thread: the first cached entry that holds the page, else a walk; an entry that does
not permit the access is walked again. -/
def State.translate (s : State) (b t va : Nat) (kind : AccKind) : Walk × State :=
  let k := s.blk b
  let core := k.core
  let look := ((k.thr t).lastPage.toList ++ (s.core core).tlb ++ (s.region (regionOf core)).tlb ++
    (s.die (dieOf core)).tlb).find? fun x => x.holds k.fn va && x.permits kind
  match look with
  | some x => (.ok x, s.updThr b t fun th => { th with lastPage := some x })
  | none =>
    match s.walkFor k.fn va kind with
    | .ok x => (.ok x, s.cache core (some (b, t)) x)
    | w => (w, s)

/-! ### Addresses (spec/10 R190, spec/13 R247, R248) -/

/-- Bits [63:57] all equal bit 56. -/
def canonical (va : DWord) : Bool := bits64 va 63 56 = 0 || bits64 va 63 56 = 255
/-- The fabric window: canonical with bit 56 set. -/
def inFabric (va : DWord) : Bool := canonical va && bitAt va 56
/-- The scratchpad aperture. -/
def inAperture (va : DWord) : Bool := bits64 va 63 32 = 0x00FFFFFF

/-- Blocks of one cluster of one launch, by rank: the lowest handle that is placed. -/
def State.peer (s : State) (k : Block) (rank : Nat) : Option Nat :=
  (s.blocks.find? fun e => match e.2 with
    | some j => j.fn = k.fn && j.lid = k.lid && j.ci = k.ci && j.rank = rank && !j.agent
    | none => false).map (·.1)

end Sys2Proof.Machine
end

