-- ==== Sys2Proof/Machine/Ops.lean ====
section
/-! DEFINITION. The named operations that meanings share: taking an exception and returning from the service handler,
accesses with the checks of spec/13 R250, atomics, arrival objects, barriers, fault records. -/
namespace Sys2Proof.Machine

/-! ### Exceptions (spec/23 R400, R408) -/

def cILL : Word := 0x0001
def cPRIV : Word := 0x0002
def cPAGE : Word := 0x0010
def cPERM : Word := 0x0011
def cALIGN : Word := 0x0012
def cSTACK : Word := 0x0013
def cLAHEAD : Word := 0x0014
def cUNIFORM : Word := 0x0015
def cCAFULL : Word := 0x0020
def cARMOVF : Word := 0x0021
def cCVSET : Word := 0x0022
def cFMTMIX : Word := 0x0023
def cDEADLOCK : Word := 0x0024
def cFNRESET : Word := 0x0025
def cPEERLOST : Word := 0x0030
def cVAULTFULL : Word := 0x0040
def cDANGLING : Word := 0x0041
def cREFUNDER : Word := 0x0042
def cCHAINOUT : Word := 0x0043
def cHWUE : Word := 0x0050
def cSDC : Word := 0x0051

/-- The auxiliary word of an exception: its low half or all of it where a rule states it, a free value elsewhere
(log 5). -/
inductive Aux where
  | free
  | low (x : Word)
  | all (x : DWord)
  deriving DecidableEq, Repr

/-- The word that an `Aux` stands for, with the free indices it uses. -/
def State.auxOf (s : State) : Aux → DWord × State
  | .all x => (x, s)
  | .low x => (Config.freeWord s.tick ++ x, { s with tick := s.tick + 1 })
  | .free => (Config.freeWord (s.tick + 1) ++ Config.freeWord s.tick, { s with tick := s.tick + 2 })

/-- Codes that go straight to the launch level (spec/23 R400). -/
def launchCode (c : Word) : Bool := c = cHWUE || c = cSDC || c = cDEADLOCK

/-- A level is to receive an exception: launch `lid` of a function, or one of its regions. -/
def State.addStop (s : State) (fn : Nat) (lid : Word) (level : Option Nat) : State :=
  if s.stops.contains (fn, lid, level) then s else { s with stops := s.stops ++ [(fn, lid, level)] }

/-- TAKING AN EXCEPTION (spec/23 R400, R401; spec/22 R390; spec/19 R365). The thread stops at its stop point: the raising
instruction, or, in mode 1, the SVC that entered the handler, with the thread back in mode 0; an exception that an engine
reports keeps the address of the instruction that started the engine, and the thread stops where it stands. Its handling level is the
innermost open region or the launch; the level's stop is a step of its own. A thread that has raised already keeps its
first exception; one that raises in a wait keeps the wait, which the stop ends. The barista's warp has no level: it stops and the exception is reported. -/
def State.raiseExc (s : State) (b t : Nat) (e : Exc) : State :=
  let k := s.blk b
  let th := k.thr t
  if k.agent then
    let s := s.updWarp b (warpOf t) fun w => { w with stopped := some (.agentFault e) }
    { s with agentReports := s.agentReports ++ [(k.core, e)] }
  else if th.raised.isSome || !th.live then s
  else
    let stop := if th.mode = 1 then th.svcPc else if e.async then th.pc else e.pc
    let level := if launchCode e.code && e.carried.isNone then none else th.tstack.head?.map (·.region)
    let s := s.updThr b t fun th =>
      { th with raised := some { e with pc := if e.async then e.pc else stop, level := level }, pc := stop,
                mode := if th.mode = 1 then 0 else th.mode }
    s.addStop k.fn k.lid level

/-- A thread raises an exception at an instruction address. -/
def State.raiseAt (s : State) (b t : Nat) (pc : DWord) (code : Word) (aux : Aux) : State :=
  let (x, s) := s.auxOf aux
  s.raiseExc b t { code := code, aux := x, pc := pc }

/-- THE RETURN FROM THE SERVICE HANDLER (spec/22 R389, ERET): mode 0, at %epc. -/
def Thread.eret (th : Thread) : Thread := { th with mode := 0, pc := th.epc }
/-- The entry into the service handler (spec/22 R389, SVC), from the instruction at `pc`. -/
def Thread.svc (th : Thread) (pc : DWord) (n : Word) : Thread :=
  { th with epc := pc + 12, ecause := n, mode := 1, svcPc := pc, pc := Config.serviceVector }

/-- Each of a list of threads raises an exception at an instruction address. -/
def State.raiseAll (s : State) (b : Nat) (ts : List Nat) (pc : DWord) (code : Word) (aux : Aux) : State :=
  ts.foldl (fun s t => s.raiseAt b t pc code aux) s

/-- A step ends: at the model's own stop when an access left device memory (log 8), else in the state. -/
def finish (s : State) : Host.Outcome State Fault Refusal := if s.hole then .fault .physicalHole else .next s

/-! ### Counters of spec/22 R396 -/

/-- Counts `n` occurrences of an event in the enabled counters of a function. -/
def State.pmEvent (s : State) (fn id n : Nat) : State :=
  if (s.fn fn).pmcs = [] then s
  else
    let bump := fun (m : Map Pmc) (i : Nat) =>
      let p := m.get {} i
      if p.en && !p.unavail && p.event.toNat = id then m.set {} i { p with count := p.count + BitVec.ofNat 64 n } else m
    s.updFn fn fun f => { f with pmcs := (List.range 8).foldl bump f.pmcs }

/-! ### Scratchpad addresses (spec/13 R247, R248) -/

/-- The answer to a thread's access: where it lands, or why it makes none. `page` is a resolvable fault, `stall` a walk
that waits in transit (spec/21 R379). -/
inductive Access where
  | place (p : Place)
  | exc (code : Word) (aux : Aux)
  | page (va : DWord) (cause gpa : Nat)
  | stall
  deriving DecidableEq, Repr

/-- The block that a scratchpad address selects: the executing block, or the member of its cluster of a rank; a member all
of whose threads have exited is gone (spec/14 R276). -/
def State.scratchBlk (s : State) (b : Nat) (a : Word) : Option Nat :=
  let k := s.blk b
  let sel := a.toNat / 0x10000000
  if sel = 0 then some b
  else if sel < 8 ∨ k.clusterSize ≤ sel - 8 then none
  else if sel - 8 = k.rank then some b
  else
    match s.peer k (sel - 8) with
    | none => none
    | some p => if (s.blk p).status = .dead || (s.blk p).liveThreads ≠ [] || (s.blk p).status = .held then some p else none

/-- Scratchpad bytes: PERM, then ALIGN, then PEERLOST (spec/13 R247, R250; spec/23 R409). -/
def State.scratchAccess (s : State) (b : Nat) (a : Word) (n align : Nat) : Access :=
  let off := a.toNat % 0x10000000
  match s.scratchBlk b a with
  | none => .exc cPERM .free
  | some p =>
    if (s.blk p).scratchSize < off + n then .exc cPERM .free
    else if off % align ≠ 0 then .exc cALIGN .free
    else if (s.blk p).status = .dead && p ≠ b then .exc cPEERLOST (.low a)
    else .place (.scratch p off)

/-! ### The placement register block (spec/19 R363; log 9) -/

/-- Where the block of a die lies: no two meet, and none lies in device memory. -/
def placeRegs (die : Nat) : Nat := memEnd + (Config.placementBlock die % 2 ^ 40 * 4 + die) * 0x100
/-- Region and offset of an address in a placement register block. -/
def placeReg (pa : Nat) : Option (Nat × Nat) :=
  if pa < memEnd then none
  else
    ((List.range 4).find? fun d => decide (placeRegs d ≤ pa) && decide (pa < placeRegs d + 0x100)).map fun d =>
      (8 * d + (pa - placeRegs d) / 32, pa % 32)
def State.readPlaceReg (s : State) (r off : Nat) : DWord :=
  let x := s.region r
  if off = 0 then x.ageId else if off = 8 then addr x.age else if off = 16 then x.occ else 0
/-- A write of AGE_ID, AGE_CT or OCCADDR under the rules of spec/16 R317. -/
def Region.write (x : Region) (off : Nat) (v : DWord) : Region :=
  if off = 0 then (if x.age ≠ 0 && v ≠ x.ageId then x else { x with ageId := v })
  else if off = 8 then (if v.toNat % 8 = x.age + 1 && decide (x.age < 4) then { x with age := x.age + 1 } else x)
  else if off = 16 then { x with occ := addr (v.toNat / 4 * 4) }
  else x

/-! ### Global addresses (spec/13 R250) -/

/-- The lines of an access of a block inside one of its mappings sit in its stash (spec/11 R228). -/
def State.mapped (s : State) (b : Nat) (ea : DWord) (pa n : Nat) (kind : AccKind) : State :=
  let k := s.blk b
  if k.smaps = [] then s
  else if kind ≠ .read && kind ≠ .write && kind ≠ .atomic then s
  else
    (linesAt pa n).foldl
      (fun s l =>
        let va := ea.toNat / 128 * 128 + (l - pa / 128) * 128
        if k.smaps.any fun e => e.2.any fun m => decide (m.base ≤ va) && decide (va < m.base + m.size) then
          s.toStash b k.core (l * 128)
        else s) s

/-- An access of thread `t` to `n` bytes at a virtual address: PERM, ALIGN, translation. `ap` says that the aperture is
accepted. -/
def State.globalAccess (s : State) (b t : Nat) (ea : DWord) (n align : Nat) (kind : AccKind) (ap : Bool) : Access × State :=
  if !canonical ea || inFabric ea then (.exc cPERM .free, s)
  else if inAperture ea then
    (if ap then s.scratchAccess b (ea.setWidth 32) n align else .exc cPERM .free, s)
  else if ea.toNat % align ≠ 0 then (.exc cALIGN .free, s)
  else
    match s.translate b t ea.toNat kind with
    | (.ok x, s) =>
      let pa := x.addr ea.toNat
      if (s.blk b).fn = fwFn && (placeReg pa).isSome then (.exc cPERM .free, s)
      else (.place (.mem pa x.decaf), s.mapped b ea pa n kind)
    | (.fault c g, s) => (.page ea c g, s)
    | (.transit, s) => (.stall, s)
    | (.hole, s) => (.stall, { s with hole := true })

/-- The placement register that a barista's 8-byte aligned LD.n64 or ST.n64 reaches on its own die (spec/19 R363). -/
def State.placeAccess (s : State) (b : Nat) (ea : DWord) (n : Nat) : Option (Nat × Nat) :=
  let k := s.blk b
  if k.fn = fwFn && n = 8 && ea.toNat % 8 = 0 then
    match placeReg ea.toNat with
    | some (r, off) => if r / 8 = dieOf k.core then some (r, off) else none
    | none => none
  else none

/-! ### Reading and writing a place -/

/-- Reads `n` bytes of a place. -/
def State.readPlace (s : State) (b t : Nat) (way : Way) (p : Place) (n : Nat) : List Byte × State :=
  match p with
  | .mem pa decaf => s.load b t decaf way pa n
  | .scratch p off => ((s.blk p).scratch.getList 0 off n, s)

/-- Writes bytes to a place. -/
def State.writePlace (s : State) (b : Nat) (way : Way) (p : Place) (bs : List Byte) : State :=
  match p with
  | .mem pa decaf => s.store b decaf way pa bs
  | .scratch p off => s.updBlk p fun k => { k with scratch := k.scratch.setList 0 off bs }

/-- Do `n` bytes at one place and `m` bytes at another meet? -/
def Place.meets (p : Place) (n : Nat) (q : Place) (m : Nat) : Bool :=
  match p, q with
  | .mem a _, .mem c _ => decide (a < c + m) && decide (c < a + n)
  | .scratch b a, .scratch d c => b = d && decide (a < c + m) && decide (c < a + n)
  | _, _ => false

/-! ### Atomics (spec/13 R256, R257) -/

/-- The new value of an atomic, as a number of the width. -/
def atomNew (op : AtomOp) (w : Wd) (old b c : Nat) : Nat :=
  let bits := 8 * w.bytes
  let sgn := fun x : Nat => if 2 ^ (bits - 1) ≤ x then (x : Int) - 2 ^ bits else (x : Int)
  match op with
  | .add => (old + b) % 2 ^ bits
  | .mins => if sgn b < sgn old then b else old
  | .maxs => if sgn old < sgn b then b else old
  | .minu => min old b
  | .maxu => max old b
  | .and => old &&& b
  | .or => old ||| b
  | .xor => old ^^^ b
  | .exch => b
  | .cas => if old = b then c else old
  | .fadd => (f32.add .rne (f32.decode old) (f32.decode b)).1

/-- One indivisible read-modify-write of a place; answers the old value. A compare-and-swap that fails writes nothing, and
marks no watch tile (spec/17 R329). -/
def State.rmw (s : State) (b t : Nat) (p : Place) (op : AtomOp) (w : Wd) (x y : QWord) : QWord × State :=
  let (bs, s) := s.readPlace b t .slice p w.bytes
  let old := leNat bs
  let v := x.toNat % 2 ^ (8 * w.bytes)
  let new := atomNew op w old v (y.toNat % 2 ^ (8 * w.bytes))
  (BitVec.ofNat 128 old, if op = .cas && old ≠ v then s else s.writePlace b .slice p (leBytes w.bytes new))

/-- A RED that has been accepted is applied (spec/13 R257). -/
def State.applyRed (s : State) (r : Red) : State :=
  let s := { s with reds := s.reds.filter fun x => x.id ≠ r.id }
  (s.rmw r.blk r.thr r.place r.op r.w r.b 0).2

/-- Does a RED take effect before another: marked writes of one thread do so in program order, and those of one instruction
in ascending thread order (spec/10 R195, spec/13 R251)? Accepted ones are listed in that order. -/
def Red.before (r x : Red) : Bool := r.blk = x.blk && (r.instr = x.instr || x.thrs.any r.thrs.contains)
/-- The REDs of a list that are wanted, with those that take effect before one of them. -/
def redsFor (want : Red → Bool) : List Red → List Red
  | [] => []
  | r :: rest =>
    let l := redsFor want rest
    if want r || l.any r.before then r :: l else l

/-- A thread's accesses to overlapping bytes take effect in program order: its REDs that meet an access come first, after
those that come before them (spec/03 R60). -/
def State.settle (s : State) (b t : Nat) (p : Place) (n : Nat) : State :=
  (redsFor (fun r => r.blk = b && r.thrs.contains t && r.place.meets r.w.bytes p n) s.reds).foldl (fun s r => s.applyRed r) s

/-- The forced commit of a contained block before an access that forces one (spec/23 R411). -/
def State.force (s : State) (b : Nat) : State := s.commit b true

/-! ### What a traced block notes (spec/17 R333, R334) -/

/-- Adds a tile of a window to the ranges of a record. -/
def Trace.add (r : Trace) (win tile : Nat) : Trace :=
  let inRange := fun x : Nat × Nat × Nat => x.1 = win && decide (x.2.1 ≤ tile) && decide (tile < x.2.1 + x.2.2)
  let near := fun x : Nat × Nat × Nat => x.1 = win && (x.2.1 + x.2.2 = tile || x.2.1 = tile + 1)
  if r.ranges.any inRange || r.readAll then r
  else
    match r.ranges.findIdx? near with
    | some i =>
      { r with ranges := r.ranges.modify i fun x => (x.1, min x.2.1 tile, x.2.2 + 1) }
    | none =>
      if r.ranges.length < 30 then { r with ranges := r.ranges ++ [(win, tile, 1)] } else { r with readAll := true }

/-- A field of a block's launch descriptor, which its snapshot holds (spec/16 R447). -/
def State.descNum (s : State) (b off n : Nat) : Nat := s.num ((s.blk b).desc + off) n

/-- WINMASK of the run that a block belongs to (spec/17 R331). -/
def State.winMask (s : State) (k : Block) : Word :=
  match s.launches.find? fun l => l.fn = k.fn && l.lid = k.lid with
  | some l => (l.trace.map (·.winMask)).getD 0
  | none => 0

/-- Notes a read of `n` bytes at a physical address for a traced block. -/
def State.noteTiles (s : State) (b pa n : Nat) : State :=
  let k := s.blk b
  match k.trace with
  | none => s
  | some tr =>
    let mask := s.winMask k
    let one := fun (r : Trace) (j : Nat) =>
      let p := max pa ((pa / 65536 + j) * 65536)
      match (List.range 32).find? fun i =>
          mask.getLsbD i && (s.watch i).en && decide ((s.watch i).first ≤ p) && decide (p ≤ (s.watch i).last) with
      | some i => r.add i ((p - (s.watch i).first) / 65536)
      | none => { r with unwatched := true }
    let tr := (List.range ((pa + n - 1) / 65536 - pa / 65536 + 1)).foldl one tr
    s.updBlk b fun k => { k with trace := some tr }

/-- The base of a thread's stack (spec/15 R294); a barista's warp has none. -/
def State.stackBase (s : State) (b t : Nat) : DWord :=
  let k := s.blk b
  let size := (k.warp (warpOf t)).stackLimit.toNat
  if k.agent then 0
  else addr (s.descNum b 0x50 8 + (k.q * ((if k.isProtected then 16 else 32) * k.nwarps) + t + 1) * size)

/-- The translation that an access of a thread would use, without a change of the caches. -/
def State.pageOf (s : State) (b t va : Nat) : Option Xlat :=
  let k := s.blk b
  match ((k.thr t).lastPage.toList ++ (s.core k.core).tlb).find? fun x => x.holds k.fn va with
  | some x => some x
  | none =>
    match s.walk k.fn va with
    | .ok x => some x
    | _ => none

/-- Bytes cut at multiples of 64 KiB; the recursion is on the number of pieces. -/
def tileCuts : Nat → Nat → Nat → List (Nat × Nat)
  | 0, _, _ => []
  | f + 1, va, n => if n = 0 then [] else let m := min n (65536 - va % 65536); (va, m) :: tileCuts f (va + m) (n - m)

/-- Does a read of a thread hold a byte that a trace notes: one that is neither of the thread's own stack nor of the parameter
block (spec/17 R333)? The first such byte of a run is the read's first byte, or the first one beyond an excluded range. -/
def State.noted (s : State) (b t va n : Nat) : Bool :=
  let size := ((s.blk b).warp (warpOf t)).stackLimit.toNat
  let base := (s.stackBase b t).toNat
  let param := s.descNum b 0x20 8
  let stop := param + s.descNum b 0x28 4
  let out := fun x : Nat => decide (x < base - size ∨ base ≤ x) && decide (x < param ∨ stop ≤ x)
  [va, base, stop].any fun x => decide (va ≤ x) && decide (x < va + n) && out x

/-- A traced block notes a global read of `n` bytes when its address is generated, whatever comes of the read: each physical
tile that it touches on a page that does not deny write, and, through the aperture, memory outside every window (spec/17 R333,
R334). -/
def State.note (s : State) (b t : Nat) (ea : DWord) (n : Nat) : State :=
  match (s.blk b).trace with
  | none => s
  | some tr =>
    if !canonical ea || inFabric ea then s
    else if inAperture ea then s.updBlk b fun k => { k with trace := some { tr with unwatched := true } }
    else
      (tileCuts (n / 65536 + 2) ea.toNat n).foldl
        (fun s c =>
          match s.pageOf b t c.1 with
          | some x => if x.w && s.noted b t c.1 c.2 then s.noteTiles b (x.addr c.1) c.2 else s
          | none => s) s

/-! ### Arrival objects (spec/11 R221, R222) -/

/-- The two 64-bit words of an arrival object. -/
structure Arrival where
  gen : Nat
  paths : Nat
  pend : Nat
  hi : Nat
  expect : Nat
  arrive : Nat
  deriving DecidableEq, Repr

def Arrival.of (x y : Nat) : Arrival :=
  { gen := x / 2 ^ 32 % 2 ^ 32, paths := x / 2 ^ 28 % 16, pend := x % 2 ^ 28, hi := y / 2 ^ 32 % 2 ^ 32,
    expect := y / 2 ^ 16 % 2 ^ 16, arrive := y % 2 ^ 16 }
def Arrival.bytes (a : Arrival) : List Byte :=
  leBytes 8 (a.gen * 2 ^ 32 + a.paths * 2 ^ 28 + a.pend) ++ leBytes 8 (a.hi * 2 ^ 32 + a.expect * 2 ^ 16 + a.arrive)

/-- CANCELLED is bit 32 and EXTRA bit 33 of the second word. -/
def Arrival.setCancelled (a : Arrival) (v : Bool) : Arrival :=
  { a with hi := a.hi / 2 * 2 + (if v then 1 else 0) }
/-- The next generation. -/
def Arrival.advance (a : Arrival) (cancelled : Bool) : Arrival :=
  { a with gen := (a.gen + 1) % 2 ^ 32, arrive := a.expect }.setCancelled cancelled
/-- AARM n, m: none when PEND would overflow. -/
def Arrival.arm (a : Arrival) (n m : Nat) : Option Arrival :=
  if 2 ^ 28 - 1 < a.pend + n then none else some { a with pend := a.pend + n, paths := a.paths ||| m % 16 }
/-- A transfer of a path names the object. -/
def Arrival.feed (a : Arrival) (path : Nat) : Arrival := { a with paths := a.paths ||| path }
/-- `c` bytes land. -/
def Arrival.credit (a : Arrival) (c : Nat) : Arrival :=
  let b := { a with pend := a.pend - c }
  if b.pend < a.pend && b.pend = 0 && b.arrive = 0 then b.advance false else b
/-- AARRIVE. -/
def Arrival.arriveOne (a : Arrival) : Arrival :=
  if a.arrive = 0 then { a with hi := a.hi / 4 * 4 + 2 + a.hi % 2 }
  else
    let b := { a with arrive := a.arrive - 1 }
    if b.pend = 0 && b.arrive = 0 then b.advance false else b
/-- Cancellation by a try region. -/
def Arrival.cancel (a : Arrival) : Arrival := { a with pend := 0 }.advance true
/-- Has the generation passed `h` (spec/11 R223)? -/
def Arrival.passed (a : Arrival) (h : Word) : Bool :=
  let d := (a.gen + 2 ^ 32 - h.toNat) % 2 ^ 32
  decide (1 ≤ d) && decide (d ≤ 2 ^ 31)

def State.arrival (s : State) (b off : Nat) : Arrival :=
  let m := (s.blk b).scratch
  Arrival.of (leNat (m.getList 0 off 8)) (leNat (m.getList 0 (off + 8) 8))
def State.setArrival (s : State) (b off : Nat) (a : Arrival) : State :=
  s.updBlk b fun k => { k with scratch := k.scratch.setList 0 off a.bytes }
/-- Changes the object at a block's offset. -/
def State.updArrival (s : State) (b off : Nat) (f : Arrival → Arrival) : State :=
  s.setArrival b off (f (s.arrival b off))
/-- The object that a 32-bit address names for a block: 0xFFFFFFFF names none. -/
def State.objectAt (s : State) (b : Nat) (a : Word) : Option (Nat × Nat) :=
  if a = 0xFFFFFFFF then none
  else
    match s.scratchAccess b a 16 16 with
    | .place (.scratch p off) => some (p, off)
    | _ => none
/-- Applies an operation to the object that an address names, when there is one. -/
def State.onObject (s : State) (b : Nat) (a : Word) (f : Arrival → Arrival) : State :=
  match s.objectAt b a with
  | some (p, off) => s.updArrival p off f
  | none => s

/-! ### Barriers (spec/13 R261; spec/18 R343, R344) -/

/-- Releases waits of a kind, in one step (spec/15 R298): each such thread goes on to where its wait leads. -/
def Block.release (k : Block) (f : Wait → Option DWord) : Block :=
  { k with threads := k.threads.map fun e =>
      match (if e.2.raised.isNone then e.2.wait.bind f else none) with
      | some pc => (e.1, { e.2 with wait := none, pc := pc })
      | none => e }

/-- The block barrier releases when every live thread has arrived. -/
def State.checkBar (s : State) (b : Nat) : State :=
  let k := s.blk b
  if k.barArr ≠ [] && k.liveThreads.all fun t => k.barArr.contains t then
    (s.acquire k.core).updBlk b fun k =>
      { k.release (fun w => match w with
          | .bar pc => some pc
          | _ => none) with barArr := [], barGen := k.barGen + 1 }
  else s

/-- Live threads of the warps of a group. -/
def Block.groupThreads (k : Block) (g : Nat) : List Nat :=
  k.liveThreads.filter fun t => ((k.groups[g]?).getD 0).getLsbD (warpOf t)
def State.checkGbar (s : State) (b g : Nat) : State :=
  let k := s.blk b
  let arr := k.gbarArr.get [] g
  if arr ≠ [] && (k.groupThreads g).all fun t => arr.contains t then
    (s.acquire k.core).updBlk b fun k =>
      { k.release (fun w => match w with
          | .gbar j pc => if j = g then some pc else none
          | _ => none) with
        gbarArr := k.gbarArr.set [] g []
        gbarGen := k.gbarGen.upd 0 g (· + 1) }
  else s

/-- Handles of the blocks of a block's cluster that are placed, dead ones included. -/
def State.cluster (s : State) (b : Nat) : List Nat :=
  let k := s.blk b
  (s.blocks.filter fun e => match e.2 with
    | some j => j.fn = k.fn && j.lid = k.lid && j.ci = k.ci && !j.agent && !k.agent || e.1 = b
    | none => false).map (·.1)
/-- Has a member of the cluster died (spec/23 R409)? -/
def State.clusterLost (s : State) (b : Nat) : Bool := (s.cluster b).any fun x => (s.blk x).status = .dead

def State.checkClbar (s : State) (b : Nat) : State :=
  let bs := s.cluster b
  if !s.clusterLost b && (bs.any fun x => (s.blk x).clArr ≠ []) &&
      bs.all fun x => (s.blk x).liveThreads.all fun t => (s.blk x).clArr.contains t then
    bs.foldl
      (fun s x => (s.acquire (s.blk x).core).updBlk x fun k =>
        { k.release (fun w => match w with
            | .clbar pc => some pc
            | _ => none) with clArr := [], clGen := k.clGen + 1 }) s
  else s

/-- Every barrier of a block is looked at again: a thread has left it. -/
def State.checkBarriers (s : State) (b : Nat) : State :=
  ((List.range 16).foldl (fun s g => s.checkGbar b g) (s.checkBar b)).checkClbar b

/-! ### Fault records (spec/21 R377, R378, R444; spec/22 R391) -/

/-- Access kinds of a record. -/
def AccKind.code : AccKind → Nat
  | .read => 0 | .write => 1 | .atomic => 2 | .fetch => 3 | .copy => 4 | .drain => 5 | .content => 6 | .debug => 7
  | .command => 8

/-- Is a fault queue usable: a ring of 2^4 to 2^12 records whose first bytes translate (spec/21 R374, R377)? -/
def State.fqValid (s : State) (fn : Nat) : Bool :=
  let f := s.fn fn
  let n := bits64 f.fqBase 3 0
  decide (4 ≤ n) && decide (n ≤ 12) &&
    (match s.stage2 fn (bits64 f.fqBase 51 12 * 4096) with
      | .ok (pa, w, _) => w && inDevice pa 32
      | .error _ => false)

/-- A record is to be written: to the function's own queue, or to the physical function's for causes 5..7. -/
def State.newRecord (s : State) (fn : Nat) (va : DWord) (lid blk : Word) (thr cause gpa : Nat) (kind : AccKind)
    (w : Waiter) : Nat × State :=
  let (id, s) := s.newId
  let second := decide (5 ≤ cause) && decide (cause ≤ 7)
  let r : Record :=
    { id := id, fn := fn, queue := if second then 0 else fn, w0 := va, w1 := lid ++ blk,
      w2 := addr (thr % 0x10000 * 2 ^ 32 + cause * 256 + kind.code),
      w3 := if second then addr (fn * 2 ^ 56 + gpa % 2 ^ 52) else if kind = .debug then addr gpa else 0,
      cause := cause, kind := kind, waiter := w }
  (id, { s with records := s.records ++ [r] })

/-- Bits of the page that a fault concerns: the leaf's, or 64 KiB where there is no leaf (log 12). -/
def State.faultPage (s : State) (fn : Nat) (va : DWord) : Nat :=
  match s.walk fn va.toNat with
  | .ok x => x.bits
  | _ => 16

/-- Operand-log entries of a partition (spec/21 R378). -/
def State.logUsed (s : State) (core part : Nat) : Nat :=
  (s.oplog.filter fun l => (s.blk l.blk).core = core && l.part = part && !l.held).length
def State.logFull (s : State) (b wp : Nat) : Bool := decide (32 ≤ s.logUsed (s.blk b).core ((s.blk b).partOf wp))

/-- One record for each page and cause of a list of faulted threads, lowest thread first; answers each thread's
record. -/
def State.recordFaults (s : State) (b : Nat) (log : Nat) (kind : AccKind) (fs : List (Nat × DWord × Nat × Nat)) :
    List (Nat × Nat) × State :=
  let k := s.blk b
  let (_, w, s) := fs.foldl
    (fun (acc : List (Nat × Nat × Nat) × List (Nat × Nat) × State) f =>
      let (seen, ws, s) := acc
      let (t, va, cause, gpa) := f
      let page := va.toNat / 2 ^ s.faultPage k.fn va
      match seen.find? fun x => x.1 = page && x.2.1 = cause with
      | some x => (seen, ws ++ [(t, x.2.2)], s)
      | none =>
        let (id, s) := s.newRecord k.fn va k.lid (BitVec.ofNat 32 k.q) t cause gpa kind (.log log t)
        (seen ++ [(page, cause, id)], ws ++ [(t, id)], s)) ([], [], s)
  (w, s)

/-- The exception after a fail verdict (spec/21 R377). -/
def failCode (cause : Nat) : Word := if cause = 2 ∨ cause = 3 ∨ cause = 6 then cPERM else cPAGE

end Sys2Proof.Machine
end

