-- ==== Sys2Proof/Machine/Operands.lean ====
section
/-! DEFINITION. Operand forms at issue: executing threads and Leader, lookahead hazards, the uniform check, effective
addresses, results and their tags (spec/03 R56..R61; spec/07 R131; spec/15 R292). -/
namespace Sys2Proof.Machine

/-! ### The issuing bundle -/

/-- What an instruction knows of its issue: block, warp, address, next address, the bundle's threads, Executing, the
uniform bit and the Leader (spec/15 R292). -/
structure Ctx where
  b : Nat
  wp : Nat
  pc : DWord
  next : DWord
  bundle : List Nat
  exe : List Nat
  u : Bool
  lead : Nat
  deriving DecidableEq, Repr

/-- The threads that perform the operation: the Leader alone under U = 1. -/
def Ctx.acting (c : Ctx) : List Nat := if c.u then [c.lead] else c.exe

/-- The address after the instruction (spec/03 R39). -/
def Sel.next (x : Sel) : DWord := x.pc + BitVec.ofNat 64 (4 * x.words)

/-- Threads go on to an address; each instruction they pass occupies one window position of what is pending for them
(spec/03 R59). -/
def Block.advance (k : Block) (ts : List Nat) (pc : DWord) : Block :=
  { k with
    threads := ts.foldl (fun m t => m.upd {} t fun th => { th with pc := pc }) k.threads
    pend := k.pend.map fun p =>
      { p with thrs := p.thrs.map fun e => if ts.contains e.1 then (e.1, e.2 + 1) else e } }
def State.advance (s : State) (b : Nat) (ts : List Nat) (pc : DWord) : State := s.updBlk b fun k => k.advance ts pc

/-! ### Registers that an instruction reads or writes (spec/03 R60) -/

inductive Reg where
  | v (n : Nat) | s (n : Nat) | tile (n : Nat) | tc (n : Nat) | acc (n : Nat) | fd (n : Nat)
  deriving DecidableEq, Repr

def srcRegs (w : Nat) : Src → List Reg
  | .v n => (List.range w).map fun j => .v (n + j)
  | .s n => (List.range w).map fun j => .s (n + j)
  | _ => []
def dstRegs (w : Nat) : Dst → List Reg
  | .v n => (List.range w).map fun j => .v (n + j)
  | .s n => (List.range w).map fun j => .s (n + j)
  | .none => []
/-- Registers of the auxiliary table (spec/03 R49). -/
def auxRegs (base n : Nat) : List Reg :=
  if base = 0 then [.tile n] else if base = 0x10 then [.tc n] else if base = 0x20 then [.acc n]
  else if base = 0x30 then [.fd n] else []
def fspecRegs : FSpec → List Reg
  | .vs w x | .v w x | .sc w x | .scK w x => srcRegs w x
  | .aux base _ n => auxRegs base n
  | .cq n => [.s (48 + n)]
  | _ => []
def dspecRegs : DSpec → List Reg
  | .vs w d | .v w d | .sc w d => dstRegs w d
  | .aux base _ n => auxRegs base n
  | _ => []
/-- Registers that no field names: narrow-format entries, the scale tile of a drain, and the tile control registers that
describe a named tile. -/
def fdRegs : Instr → List Reg
  | .cvt _ _ td ts _ _ _ => [.fd (td.fdOf + ts.fdOf)].filter fun _ => td.isNarrow || ts.isNarrow
  | .pack _ td ts _ _ _ _ _ => [.fd (td.fdOf + ts.fdOf)].filter fun _ => td.isNarrow || ts.isNarrow
  | .unpack _ td ts _ _ _ _ => [.fd (td.fdOf + ts.fdOf)].filter fun _ => td.isNarrow || ts.isNarrow
  | .mdrain _ m _ _ _ _ => (match m.td with
      | .fd n => [.fd n]
      | _ => []) ++ (if m.rs || m.cs then [.tile m.stile] else [])
  | .tld _ t .. | .tst _ t .. => [.tc t]
  | .txpose _ d a | .tcvt _ _ d a => [.tc d, .tc a]
  | .mma _ _ a b _ => [.tc a, .tc b]
  | _ => []
/-- The narrow-format entry that a tile control register of a warp names (spec/06 R106). -/
def Block.tcFd (k : Block) (wp n : Nat) : List Reg :=
  if bits64 (k.tc wp n) 22 18 < 16 then [.fd (bits64 (k.tc wp n) 22 18)] else []
/-- That entry, and the scale tile. -/
def Block.tcRegs (k : Block) (wp n : Nat) : List Reg :=
  k.tcFd wp n ++ (if bits64 (k.tc wp n) 33 32 = 2 then [.tile (bits64 (k.tc wp n) 40 37)] else [])
/-- What an instruction reads through the tile control registers of a warp: TLD and the destination of TCVT read a format and
no scales (spec/08 R177, R181). -/
def Block.tcNames (k : Block) (wp : Nat) : Instr → List Reg
  | .tld _ t .. => k.tcFd wp t
  | .tst _ t .. => k.tcRegs wp t
  | .txpose _ _ a => k.tcRegs wp a
  | .tcvt _ _ d a => k.tcRegs wp a ++ k.tcFd wp d
  | .mma _ _ a b _ => k.tcRegs wp a ++ k.tcRegs wp b
  | _ => []
/-- Every register that the instruction names. -/
def touches (i : Instr) (f : Uses) : List Reg :=
  dspecRegs f.d ++ fspecRegs f.a ++ fspecRegs f.b ++ fspecRegs f.c ++ fdRegs i

/-- The hazard set of a pending instruction. -/
def Pending.hazard (p : Pending) : List Reg :=
  dstRegs p.w p.dst ++ p.tiles.map .tile ++ p.tcs.map .tc ++ p.accs.map .acc ++ (p.fd.toList.map .fd)

/-- Do tile names of a pending instruction and of one that names its tiles in warp `wp` mean the same registers? An
accumulator is that of a role on a partition (spec/08 R172; log 10). -/
def Block.sameReg (k : Block) (p : Pending) (wp : Nat) : Reg → Bool
  | .v _ | .s _ => true
  | .acc _ => k.partOf p.warp = k.partOf wp && (k.warp p.warp).role = (k.warp wp).role
  | _ => p.warp = wp

/-- Does an instruction with these registers, whose tiles are those of warp `wp`, touch what is pending for the thread? -/
def Block.hazardous (k : Block) (t wp : Nat) (regs : List Reg) : Bool :=
  k.pend.any fun p => p.thrs.any (fun e => e.1 = t) && p.hazard.any fun r => regs.contains r && k.sameReg p wp r

/-! ### The uniform check (spec/15 R292) -/

/-- Does a source hold one value for the whole bundle? -/
def Block.uniformSrc (k : Block) (wp : Nat) (bundle : List Nat) : FSpec → Bool
  | .vs w (.v n) | .v w (.v n) | .sc w (.v n) | .scK w (.v n) =>
    (List.range w).all fun j => k.tag wp (n + j) = .u
  | .pred n =>
    match bundle with
    | [] => true
    | t :: ts => ts.all fun x => (k.thr x).pred n = (k.thr t).pred n
  | _ => true
def Block.uniformGuard (k : Block) (h : Hdr) (bundle : List Nat) : Bool :=
  match bundle with
  | [] => true
  | t :: ts => ts.all fun x => (k.thr x).guard h = (k.thr t).guard h
def Block.uniform (k : Block) (f : Uses) (wp : Nat) (bundle : List Nat) : Bool :=
  k.uniformGuard f.h bundle && k.uniformSrc wp bundle f.a && k.uniformSrc wp bundle f.b && k.uniformSrc wp bundle f.c

/-! ### Issue -/

/-- The context of the selected bundle before any check. -/
def State.ctxOf (s : State) (u : Bool) : Ctx :=
  { b := s.sel.blk, wp := warpOf (s.sel.thrs.headD 0), pc := s.sel.pc, next := s.sel.next, bundle := s.sel.thrs,
    exe := [], u := u, lead := s.sel.thrs.headD 0 }

/-- The common start of an instruction that is not gathered: guard, hazard check, uniform check (spec/03 R56, R60;
spec/15 R292). Threads whose guard is false go on. The answer holds Executing, or nothing when the instruction has no
further effect: under U = 1 a hazard of one executing thread leaves it without effect in any thread, and the threads that do not
raise stay where they are and issue it again (DEDUCED, log 27). -/
def State.enter (s : State) (i : Instr) (f : Uses) : Option Ctx × State :=
  let c := s.ctxOf f.h.u
  let k := s.blk c.b
  let exe := c.bundle.filter fun t => (k.thr t).guard f.h
  let bad := exe.filter fun t => k.hazardous t c.wp (touches i f ++ k.tcNames c.wp i)
  let fin := fun (ok : List Nat) (s : State) =>
    let s := s.advance c.b (c.bundle.filter fun t => !exe.contains t) c.next
    (some { c with exe := ok }, s)
  if f.h.u then
    if bad ≠ [] then (none, s.raiseAll c.b bad c.pc cLAHEAD .free)
    else if exe ≠ [] && !k.uniform f c.wp c.bundle then
      let s := (s.updWarp c.b c.wp fun w => { w with umis := true }).pmEvent k.fn 0x31 1
      if (k.warp c.wp).uchk then (none, s.raiseAll c.b c.bundle c.pc cUNIFORM .free)
      else fin exe s
    else fin exe s
  else fin (exe.filter fun t => !bad.contains t) (s.raiseAll c.b bad c.pc cLAHEAD .free)

/-- Runs a meaning for Executing, when there is any. The meaning sends its threads on itself. -/
def issue (i : Instr) (s : State) (body : Ctx → State → State) : Host.Outcome State Fault Refusal :=
  match uses (expand i) with
  | none => finish s
  | some f =>
    match s.enter (expand i) f with
    | (none, s) => finish s
    | (some c, s) => finish (if c.exe = [] then s else body c s)

/-! ### Results -/

/-- The values that an operation gives to Executing: each its own, or the Leader's. -/
def Ctx.values (c : Ctx) (f : Nat → QWord) : List (Nat × QWord) :=
  if c.u then let x := f c.lead; c.exe.map fun t => (t, x) else c.exe.map fun t => (t, f t)

/-- Writes a result of `w` registers; under U = 1 the tag is U (spec/07 R131). -/
def State.put (s : State) (c : Ctx) (w : Nat) (d : Dst) (f : Nat → QWord) (tag : Tag) : State :=
  s.updBlk c.b fun k => k.putDst c.wp w d (c.values f) (if c.u then .u else tag)

/-- Writes a predicate in Executing. -/
def State.putPred (s : State) (c : Ctx) (p : Nat) (f : Nat → Bool) : State :=
  let one := fun (m : Map Thread) (t : Nat) => m.upd {} t fun th => th.setPred p (f (if c.u then c.lead else t))
  s.updBlk c.b fun k => { k with threads := c.exe.foldl one k.threads }

/-- Sets flags of %fs. -/
def State.orFlags (s : State) (b wp : Nat) (fl : Flags) : State :=
  if fl = 0 then s else s.updWarp b wp fun w => { w with fs := w.fs ||| fl }

/-- A result: register bits and flags. -/
abbrev Res := Nat × Flags

/-- An operation on registers: every acting thread computes its result, the destination receives it, %fs its flags. -/
def alu (i : Instr) (s : State) (w : Nat) (d : Dst) (tag : Block → Nat → Tag) (g : Block → Nat → Res) :
    Host.Outcome State Fault Refusal :=
  issue i s fun c s =>
    let k := s.blk c.b
    let fl := c.acting.foldl (fun fl t => fl ||| (g k t).2) 0
    let s := s.put c w d (fun t => BitVec.ofNat 128 (g k t).1) (tag k c.wp)
    (s.orFlags c.b c.wp fl).advance c.b c.exe c.next

/-- An operation that writes a predicate. -/
def aluPred (i : Instr) (s : State) (pd : Nat) (g : Block → Nat → Bool × Flags) : Host.Outcome State Fault Refusal :=
  issue i s fun c s =>
    let k := s.blk c.b
    let fl := c.acting.foldl (fun fl t => fl ||| (g k t).2) 0
    let s := s.putPred c pd fun t => (g k t).1
    (s.orFlags c.b c.wp fl).advance c.b c.exe c.next

/-- The tag of a result none of whose rows is special: U when every source is, else G (spec/07 R131). -/
def tagOf (srcs : List (Nat × Src)) (k : Block) (wp : Nat) : Tag :=
  if srcs.all fun x => k.srcTag wp x.1 x.2 = .u then .u else .g

/-- A source as a number. -/
def Block.num (k : Block) (t w : Nat) (x : Src) : Nat := (k.src t w x).toNat
/-- A source as a 64-bit value. -/
def Block.pair (k : Block) (t : Nat) (x : Src) : DWord := (k.src t 2 x).setWidth 64
/-- A source as a 32-bit value. -/
def Block.word (k : Block) (t : Nat) (x : Src) : Word := (k.src t 1 x).setWidth 32

/-- A 64-bit effective address (spec/02 R34). -/
def Block.ea64 (k : Block) (t : Nat) (a : Src) (off : Word) : DWord := addOff (k.pair t a) off
/-- A scratchpad address (spec/13 R249). -/
def Block.ea32 (k : Block) (t : Nat) (a : Src) (off : Word) : Word := k.word t a + off

/-! ### Accesses that are still to take effect (spec/03 R60, spec/08 R173) -/

/-- Addresses of the rows of a TLD or TST. -/
def rowAddrs (o : MemOp) (off : Word) (n : Nat) : List DWord :=
  let stride : DWord := ((o.b.setWidth 32 : Word)).signExtend 64
  (List.range n).map fun r => addOff o.ea off + BitVec.ofNat 64 r * stride
/-- Rows and bytes of a row, as a tile control register states them. -/
def tcExtent (x : DWord) : Nat × Nat :=
  let cols := if bits64 x 14 8 = 0 then 128 else bits64 x 14 8
  let cw := match bits64 x 17 15 with
    | 1 => 4
    | 2 => 8
    | _ => 16
  (bits64 x 6 0, (cols * cw + 7) / 8)

/-- The global bytes that a memory instruction names for captured operands: address and length. -/
def Block.ranges (k : Block) (wp : Nat) (i : Instr) (o : MemOp) : List (Nat × Nat) :=
  let one := fun n : Nat => [(o.ea.toNat, n)]
  let rows := fun (t : Nat) (off : Word) =>
    let e := tcExtent (k.tc wp t)
    (rowAddrs o off e.1).map fun a => (a.toNat, e.2)
  match i with
  | .ld _ _ ty .. | .st _ _ ty .. | .cpld _ ty .. | .cmpst _ ty .. | .expld _ ty .. | .wait _ _ ty .. | .waitExt _ _ ty .. =>
    one (ty.bits / 8)
  | .atom _ _ _ w .. | .red _ _ _ w .. => one w.bytes
  | .caswap .. => one 16
  | .call .. => [((k.thr o.thr).sp.toNat - 8, 8)]
  | .ret _ => [((k.thr o.thr).sp.toNat, 8)]
  | .tld _ t _ _ _ off | .tst _ t _ _ _ off => rows t off
  | _ => []

/-- The operation that kN's signers have signed, as one of captured operands. -/
def KReg.memOp (r : KReg) (t : Nat) : MemOp := { thr := t, ea := r.opVal.setWidth 64, b := r.opVal >>> 64 }

/-- What a pending instruction is still to do, with the warp that resolves its tiles: a faulted one, from the operand log, or one that
its signers have signed and that has not issued. -/
def State.pendOps (s : State) (b : Nat) (p : Pending) : List (Nat × Instr × MemOp) :=
  match p.log, p.k with
  | some id, _ =>
    (match s.oplog.find? fun e => e.id = id with
      | some e => (e.ops.drop e.start).map fun o => (e.warp, e.instr, o)
      | none => [])
  | none, some n =>
    let r := (s.blk b).kreg n
    (match r.op with
      | some i => [(r.anchor, i, r.memOp 0)]
      | none => [])
  | none, none => []
/-- The bytes that a pending instruction is still to access for a thread. -/
def State.pendRanges (s : State) (b t : Nat) (p : Pending) : List (Nat × Nat) :=
  let l := s.pendOps b p
  let mine := l.filter fun x => x.2.2.thr = t
  (if mine = [] then l else mine).flatMap fun x => (s.blk b).ranges x.1 x.2.1 x.2.2

/-- Do two ranges meet? -/
def rangesMeet (a n c m : Nat) : Bool := decide (a < c + m) && decide (c < a + n)

/-- Does an access of a thread meet bytes that an earlier instruction of the thread is still to access? `used` is the window
position of the instruction that accesses, for a replay; an instruction that issues comes after all of them. -/
def State.overtakes (s : State) (b t : Nat) (used : Option Nat) (rs : List (Nat × Nat)) : Bool :=
  rs ≠ [] && (s.blk b).pend.any fun p =>
    (p.thrs.any fun e => e.1 = t && used.all fun u => decide (u < e.2)) &&
      (s.pendRanges b t p).any fun q => rs.any fun r => rangesMeet q.1 q.2 r.1 r.2

/-! ### Gatherings (spec/07 R155) -/

/-- A thread that stands at an address and can take part: live, in no wait, with no exception raised. -/
def Block.arrived (k : Block) (pc : DWord) (t : Nat) : Bool :=
  let th := k.thr t
  th.live && th.pc = pc && th.wait.isNone && th.raised.isNone && th.asyncs.isEmpty

/-- Has every one of the threads arrived? A gathering that is not complete has issued nothing. -/
def Block.complete (k : Block) (pc : DWord) (ts : List Nat) : Bool := ts.all (k.arrived pc)

end Sys2Proof.Machine
end

