-- ==== Sys2Proof/Machine/Access.lean ====
section
/-! DEFINITION. Memory instructions as one operation for each thread, run at issue and again at a replay, with the operand
log and the pending results of long-latency instructions (spec/03 R59..R61; spec/13 R250, R251; spec/21 R378, R444). -/
namespace Sys2Proof

/-- Bytes of an access type. -/
def Ty.bytes (t : Ty) : Nat := t.bits / 8
/-- Comparisons of spec/03 R55. -/
def CmpOp.holds (op : CmpOp) (a b : Int) : Bool :=
  match op with
  | .eq => a = b
  | .ne => a ≠ b
  | .lt => a < b
  | .le => a ≤ b
  | .gt => a > b
  | .ge => a ≥ b

end Sys2Proof

namespace Sys2Proof.Machine

/-- What an access of one thread comes to: a value with which the thread goes on, an effect that has already moved or held
the thread, an exception, a resolvable fault, or a stall with no effect. -/
inductive AccOut where
  | done (v : QWord)
  | moved
  | exc (code : Word) (aux : Aux)
  | page (va : DWord) (cause gpa : Nat)
  | stall
  deriving DecidableEq, Repr

/-- The answer of an access that makes none. -/
def Access.out : Access → AccOut
  | .place _ => .stall
  | .exc c a => .exc c a
  | .page va c g => .page va c g
  | .stall => .stall

/-- Extend of spec/13 R252: the register bits of a value read from memory. -/
def extend (ty : Ty) (bs : List Byte) : QWord :=
  BitVec.ofNat 128 (if ty.isInt then ty.write (ty.read (leNat bs)) else leNat bs)
/-- The low bytes of a register that a store writes. -/
def lowBytes (n : Nat) (x : QWord) : List Byte := leBytes n x.toNat

/-- Compare of spec/18 R350, by the signedness of the type. -/
def compareTy (op : CmpOp) (ty : Ty) (a b : Nat) : Bool := op.holds (ty.read a) (ty.read b)

/-- The acquire of an access that has read (spec/10 R202). -/
def State.acquireIf (s : State) (b : Nat) (acq : Bool) : State := if acq then s.acquire (s.blk b).core else s

/-- LD and LDS at a place. -/
def State.loadAt (s : State) (b t : Nat) (acq : Bool) (ty : Ty) (p : Place) : AccOut × State :=
  let s := s.settle b t p ty.bytes
  let (bs, s) := s.readPlace b t (if acq then .slice else .lsu) p ty.bytes
  (.done (extend ty bs), s.acquireIf b acq)
/-- ST and STS at a place; a global release forces a commit (spec/23 R411). -/
def State.storeAt (s : State) (b t : Nat) (rel : Bool) (ty : Ty) (p : Place) (x : QWord) : AccOut × State :=
  let s := s.settle b t p ty.bytes
  let s := match p with
    | .mem _ _ => if rel then s.force b else s
    | .scratch _ _ => s
  (.done 0, s.writePlace b (if rel then .slice else .lsu) p (lowBytes ty.bytes x))
/-- ATOM, or CASWAP, at a place. -/
def State.atomAt (s : State) (b t : Nat) (acq : Bool) (op : AtomOp) (w : Wd) (p : Place) (x y : QWord) : AccOut × State :=
  let s := s.settle b t p w.bytes
  let s := match p with
    | .mem _ _ => s.force b
    | .scratch _ _ => s
  let (old, s) := s.rmw b t p op w x y
  (.done old, s.acquireIf b acq)
/-- RED at a place: accepted, applied by a step of its own. -/
def State.redAt (s : State) (b : Nat) (op : AtomOp) (w : Wd) (p : Place) (o : MemOp) : AccOut × State :=
  let s := match p with
    | .mem _ _ => s.force b
    | .scratch _ _ => s
  let (id, s) := s.newId
  let r : Red :=
    { id := id, blk := b, thr := o.thr, thrs := if o.thrs = [] then [o.thr] else o.thrs, instr := o.instr, place := p, op := op,
      w := w, b := o.b }
  (.done 0, { s with reds := s.reds ++ [r] })

/-- CALL of one thread: target in `o.ea`, return address in `o.b` (spec/07 R165). -/
def State.callAt (s : State) (b : Nat) (o : MemOp) : AccOut × State :=
  let sp := (s.thr b o.thr).sp
  let size := ((s.blk b).warp (warpOf o.thr)).stackLimit
  let limit := s.stackBase b o.thr - size.setWidth 64
  if o.ea.toNat % 4 ≠ 0 then (.exc cALIGN .free, s)
  else if size = 0 || decide (sp.toNat < limit.toNat + 8) then (.exc cSTACK .free, s)
  else
    match s.globalAccess b o.thr (sp - 8) 8 8 .write false with
    | (.place p, s) =>
      let s := (s.settle b o.thr p 8).writePlace b .lsu p (lowBytes 8 o.b)
      (.moved, (s.updThr b o.thr fun th => { th with sp := sp - 8 }).advance b [o.thr] o.ea)
    | (a, s) => (a.out, s)

/-- RET of one thread. -/
def State.retAt (s : State) (b : Nat) (o : MemOp) : AccOut × State :=
  let sp := (s.thr b o.thr).sp
  if sp = s.stackBase b o.thr then (.exc cSTACK .free, s)
  else
    match s.globalAccess b o.thr sp 8 8 .read false with
    | (.place p, s) =>
      let s := s.settle b o.thr p 8
      let (bs, s) := s.readPlace b o.thr .lsu p 8
      let ret := (valueOf bs).setWidth 64
      if ret.toNat % 4 ≠ 0 then (.exc cALIGN .free, s)
      else (.moved, (s.updThr b o.thr fun th => { th with sp := sp + 8 }).advance b [o.thr] ret)
    | (a, s) => (a.out, s)

/-- The last read of a WAIT, at the home agent: the thread leaves the wait with what the comparison gives (spec/18 R350). -/
def State.endMem (s : State) (b t : Nat) : State :=
  match (s.thr b t).wait with
  | some (.mem _ pa op ty v _ _ pd next) =>
    let (bs, s) := s.readPlace b t .slice (.mem pa false) ty.bytes
    (s.acquire (s.blk b).core).updThr b t fun th =>
      { th with wait := none, pc := next }.setPred pd (compareTy op ty (leNat bs) v.toNat)
  | _ => s

/-- WAIT and WAIT.EXT of one thread: the address in `o.ea`, the value in `o.b` (spec/18 R350). The read is made at the home
agent (R354). A waiter that finds the condition false joins the tail of its queue. -/
def State.waitAt (s : State) (b : Nat) (op : CmpOp) (ty : Ty) (pd : Nat) (ext : Bool) (next : DWord) (o : MemOp) :
    AccOut × State :=
  match s.globalAccess b o.thr o.ea ty.bytes ty.bytes .read false with
  | (.place (.mem pa d), s) =>
    let extPage := match (s.thr b o.thr).lastPage with
      | some x => x.ext
      | none => false
    let s := s.settle b o.thr (.mem pa d) ty.bytes
    let (bs, s) := s.readPlace b o.thr .slice (.mem pa d) ty.bytes
    let s := s.acquire (s.blk b).core
    if compareTy op ty (leNat bs) o.b.toNat then
      (.moved, (s.updThr b o.thr fun th => { th with wait := none }.setPred pd true).advance b [o.thr] next)
    else
      let (q, s) := s.newId
      (.moved, s.updThr b o.thr fun th =>
        { th with wait := some (.mem o.ea pa op ty (o.b.setWidth 64) (ext || extPage) q pd next) })
  | (a, s) => (a.out, s)

/-- Is the thread waiting on the queue of a key, and in what place? -/
def Thread.queued (th : Thread) (key : Nat) : Option Nat :=
  match th.wait with
  | some (.mem _ pa _ _ _ _ q _ _) => if pa / 4 * 4 = key && q ≠ 0 && th.raised.isNone then some q else none
  | _ => none

/-- The waiters of a key, as block and thread, in arrival order (spec/18 R351). -/
def State.waiters (s : State) (key : Nat) : List (Nat × Nat) :=
  let all := s.blocks.flatMap fun e => match e.2 with
    | some k => k.threads.filterMap fun t => (t.2.queued key).map fun q => (q, e.1, t.1)
    | none => []
  (all.mergeSort fun x y => x.1 ≤ y.1).map (·.2)

/-- WAKE of one thread: address in `o.ea`, count in `o.b`; the waiters that it releases leave their queue in arrival order and
are ready at once (spec/18 R351, R353; spec/15 R298). -/
def State.wakeAt (s : State) (b : Nat) (o : MemOp) : AccOut × State :=
  match s.globalAccess b o.thr o.ea 4 4 .read false with
  | (.place (.mem pa _), s) =>
    let s := s.force b
    let n := o.b.toNat % 2 ^ 32
    let q := s.waiters (pa / 4 * 4)
    let q := if n = 0 then q else q.take n
    (.done (BitVec.ofNat 128 q.length), q.foldl (fun s x => s.endMem x.1 x.2) s)
  | (a, s) => (a.out, s)

/-- A memory instruction for one thread with its captured operands. Answers `stall` for an instruction that is not one of
these. -/
def State.memOp (s : State) (b : Nat) (i : Instr) (next : DWord) (o : MemOp) : AccOut × State :=
  match i with
  | .ld _ ord ty _ _ _ =>
    (match s.placeAccess b o.ea ty.bytes with
      | some (r, off) => if ty = .n64 then (.done ((s.readPlaceReg r off).setWidth 128), s) else (.exc cPERM .free, s)
      | none =>
        match (s.note b o.thr o.ea ty.bytes).globalAccess b o.thr o.ea ty.bytes ty.bytes .read true with
        | (.place p, s) => s.loadAt b o.thr (ord ≠ .plain) ty p
        | (a, s) => (a.out, s))
  | .st _ ord ty _ _ _ =>
    (match s.placeAccess b o.ea ty.bytes with
      | some (r, off) =>
        if ty = .n64 then (.done 0, s.updRegion r fun x => x.write off (o.b.setWidth 64)) else (.exc cPERM .free, s)
      | none =>
        match s.globalAccess b o.thr o.ea ty.bytes ty.bytes .write true with
        | (.place p, s) => s.storeAt b o.thr (ord ≠ .plain) ty p o.b
        | (a, s) => (a.out, s))
  | .lds _ ord ty _ _ _ =>
    (match s.scratchAccess b (o.ea.setWidth 32) ty.bytes ty.bytes with
      | .place p => s.loadAt b o.thr (ord ≠ .plain) ty p
      | a => (a.out, s))
  | .sts _ ord ty _ _ _ =>
    (match s.scratchAccess b (o.ea.setWidth 32) ty.bytes ty.bytes with
      | .place p => s.storeAt b o.thr (ord ≠ .plain) ty p o.b
      | a => (a.out, s))
  | .atom _ op ord w _ _ _ _ _ =>
    (match (s.note b o.thr o.ea w.bytes).globalAccess b o.thr o.ea w.bytes w.bytes .atomic true with
      | (.place p, s) => s.atomAt b o.thr (ord = .acq || ord = .acqrel) op w p o.b o.c
      | (a, s) => (a.out, s))
  | .red _ op _ w _ _ _ =>
    (match s.globalAccess b o.thr o.ea w.bytes w.bytes .atomic true with
      | (.place p, s) => s.redAt b op w p o
      | (a, s) => (a.out, s))
  | .caswap _ _ _ _ _ _ =>
    (match s.globalAccess b o.thr o.ea 16 16 .atomic false with
      | (.place p, s) => s.atomAt b o.thr true .cas .w128 p o.b o.c
      | (a, s) => (a.out, s))
  | .call _ _ _ => s.callAt b o
  | .ret _ => s.retAt b o
  | .wait _ op ty pd _ _ => s.waitAt b op ty pd false next o
  | .waitExt _ op ty pd _ _ => s.waitAt b op ty pd true next o
  | .wake _ _ _ _ => s.wakeAt b o
  | _ => (.stall, s)

/-- The access kind in a fault record. -/
def accKind : Instr → AccKind
  | .st .. | .cmpst .. | .call .. | .tst .. => .write
  | .atom .. | .red .. | .caswap .. => .atomic
  | .mdrain .. => .drain
  | _ => .read

/-! ### Pending results (spec/03 R59, R60) -/

/-- A long-latency instruction of some threads becomes pending with its result known; the registers it writes are its
hazard set. -/
def State.pend (s : State) (c : Ctx) (la : Nat) (thrs : List Nat) (w : Nat) (d : Dst) (vals : List (Nat × QWord)) (tag : Tag)
    (fl : Flags) (miss : Bool) : State :=
  if thrs = [] then s
  else
    let (id, s) := s.newId
    let p : Pending :=
      { id := id, pc := c.pc, la := la, thrs := thrs.map fun t => (t, 0), dst := d, w := w, warp := c.wp,
        part := (s.blk c.b).partOf c.wp, result := .regs d w vals tag, flags := fl, ready := true, miss := miss }
    s.updBlk c.b fun k => { k with pend := k.pend ++ [p] }

/-- A faulted instruction of some threads stays pending with its operand-log entry. -/
def State.pendFault (s : State) (c : Ctx) (la : Nat) (thrs : List Nat) (w : Nat) (d : Dst) (log : Nat) : State :=
  let (id, s) := s.newId
  let p : Pending :=
    { id := id, pc := c.pc, la := la, thrs := thrs.map fun t => (t, 0), dst := d, w := w, warp := c.wp,
      part := (s.blk c.b).partOf c.wp, log := some log, miss := true }
  s.updBlk c.b fun k => { k with pend := k.pend ++ [p] }

/-- The results of one run over threads. -/
structure Outs where
  done : List (Nat × QWord) := []
  moved : List Nat := []
  exc : List (Nat × Word × Aux) := []
  page : List (Nat × DWord × Nat × Nat) := []
  stall : List Nat := []
  deriving DecidableEq, Repr

/-- Adds one thread's outcome. -/
def Outs.add (r : Outs) (t : Nat) : AccOut → Outs
  | .done v => { r with done := r.done ++ [(t, v)] }
  | .moved => { r with moved := r.moved ++ [t] }
  | .exc c a => { r with exc := r.exc ++ [(t, c, a)] }
  | .page va c g => { r with page := r.page ++ [(t, va, c, g)] }
  | .stall => { r with stall := r.stall ++ [t] }

/-- Runs an operation for a list of captured operands, in order (spec/13 R251). -/
def State.runOps (s : State) (f : State → MemOp → AccOut × State) (ops : List MemOp) : Outs × State :=
  ops.foldl
    (fun (x : Outs × State) o =>
      let (r, s) := f x.2 o
      (x.1.add o.thr r, s)) ({}, s)

/-- The threads that an outcome of a thread concerns: all of Executing under U = 1 (spec/03 R57). -/
def Ctx.spread (c : Ctx) (t : Nat) : List Nat := if c.u then c.exe else [t]

/-- The errors consumed since there were `n` concern the same threads as an exception of the instruction (spec/23 R413). -/
def State.spreadDue (s : State) (c : Ctx) (n : Nat) : State :=
  if c.u && decide (n < s.dueErrors.length) then
    { s with dueErrors :=
        s.dueErrors.take n ++ (s.dueErrors.drop n).flatMap fun e => c.exe.map fun t => (e.1, t, e.2.2) }
  else s

/-- Opens an operand-log entry for faulted operands, with its records; when the partition's log is full the warp stops, and
the fault is taken again once an entry is free (spec/21 R378). -/
def State.openLog (s : State) (c : Ctx) (i : Instr) (ops : List MemOp) (start : Nat) (kind : AccKind)
    (fs : List (Nat × DWord × Nat × Nat)) : Nat × State :=
  let (id, s) := s.newId
  let full := s.logFull c.b c.wp
  let (ws, s) := if full then ([], s.updWarp c.b c.wp fun x => { x with stopped := some .logFull })
    else s.recordFaults c.b id kind fs
  let e : LogEntry :=
    { id := id, blk := c.b, warp := c.wp, part := (s.blk c.b).partOf c.wp, pc := c.pc, instr := i,
      w0 := BitVec.ofNat 32 ((encode i).headD 0), ops := ops, start := start, waiting := ws, held := full }
  (id, { s with oplog := s.oplog ++ [e] })

/-- Does a load miss the L1: for some operand its line is not in the core's L1 or stash, or its page does not translate
(spec/15 R281)? -/
def State.misses (s : State) (b : Nat) (i : Instr) (ops : List MemOp) : Bool :=
  match i with
  | .ld .. | .expld .. =>
    ops.any fun o => !inAperture o.ea && match s.walk (s.blk b).fn o.ea.toNat with
      | .ok x => (s.l1At (s.blk b).core (x.addr o.ea.toNat / 128)).isNone
      | _ => true
  | _ => false

/-- A memory instruction at issue: runs it for the acting threads, raises, finishes, and logs the faults. A thread whose
access meets bytes that an earlier instruction of the thread is still to access stays at the instruction (spec/03 R60). -/
def State.issueOps (s : State) (c : Ctx) (i : Instr) (h : Hdr) (ll : Bool) (w : Nat) (d : Dst) (ops : List MemOp)
    (f : State → MemOp → AccOut × State) : State :=
  let due := s.dueErrors.length
  let miss := ll && s.misses c.b i ops
  let (r, s) := s.runOps
    (fun s o => if s.overtakes c.b o.thr none ((s.blk c.b).ranges c.wp i o) then (.stall, s) else f s o) ops
  let s := s.spreadDue c due
  let s := r.exc.foldl (fun s x => s.raiseAll c.b (c.spread x.1) c.pc x.2.1 x.2.2) s
  let vals := r.done.flatMap fun x => (c.spread x.1).map fun t => (t, x.2)
  let ts := vals.map (·.1)
  let tag : Tag := if c.u then .u else .g
  let s := if ts = [] then s else s.advance c.b ts c.next
  let s := if ll then s.pend c h.la ts w d vals tag 0 miss
    else s.updBlk c.b fun k => k.putDst c.wp w d vals tag
  if r.page = [] then s
  else
    let ft := r.page.map (·.1)
    let (id, s) := s.openLog c i (ops.filter fun o => ft.contains o.thr) 0 (accKind i) r.page
    let all := ft.flatMap c.spread
    let s := if ll then s.advance c.b all c.next else s
    s.pendFault c h.la all w d id

/-- An instruction that performs an operation for each acting thread: `cap` captures a thread's operands. -/
def opInstr (i : Instr) (s : State) (h : Hdr) (ll : Bool) (w : Nat) (d : Dst) (cap : Ctx → Block → Nat → MemOp)
    (f : Ctx → State → MemOp → AccOut × State) : Host.Outcome State Fault Refusal :=
  issue i s fun c s =>
    let k := s.blk c.b
    let one := fun t : Nat =>
      { cap c k t with thrs := if c.u then c.exe else [], instr := s.issued }
    s.issueOps c i h ll w d (c.acting.map one) (f c)
/-- A memory instruction. -/
def memInstr (i : Instr) (s : State) (h : Hdr) (ll : Bool) (w : Nat) (d : Dst) (cap : Ctx → Block → Nat → MemOp) :
    Host.Outcome State Fault Refusal :=
  opInstr i s h ll w d cap fun c s o => s.memOp c.b i c.next o

/-- A long-latency instruction on registers: the result lands when it completes (spec/07 R150). -/
def aluLong (i : Instr) (s : State) (h : Hdr) (w : Nat) (d : Dst) (tag : Block → Nat → Tag) (g : Block → Nat → Res) :
    Host.Outcome State Fault Refusal :=
  issue i s fun c s =>
    let k := s.blk c.b
    let fl := c.acting.foldl (fun fl t => fl ||| (g k t).2) 0
    let vals := c.values fun t => BitVec.ofNat 128 (g k t).1
    (s.advance c.b c.exe c.next).pend c h.la c.exe w d vals (if c.u then .u else tag k c.wp) fl false

end Sys2Proof.Machine
end

