-- ==== Sys2Proof/Machine/Integer.lean ====
section
/-! DEFINITION. Integer, logic, bit, move and special-register instructions (spec/07 R128, R133..R145). -/
namespace Sys2Proof.Machine

/-! ### Instructions that need a run-time check of an encoding -/

/-- ILL at issue for the whole bundle, with a reason of spec/03 R63 (R64, R65). -/
def State.ill (s : State) (reason : Nat) : State :=
  s.raiseAll s.sel.blk s.sel.thrs s.sel.pc cILL (.all (BitVec.ofNat 64 (s.sel.w0.toNat + reason * 2 ^ 32)))

/-! ### Integer arithmetic -/

/-- Tag rows of spec/07 R131 for affine results. -/
def affine (uniform : Bool) (ok : Bool) : Tag := if uniform then .u else if ok then .a else .g
def isA (t : Tag) : Bool := t = .a
def isU (t : Tag) : Bool := t = .u

/-- IADD and ISUB of 32-bit type keep an affine tag. -/
def tagAdd (ty : Ty) (a b : Src) (k : Block) (wp : Nat) : Tag :=
  let x := k.srcTag wp ty.regs a
  let y := k.srcTag wp ty.regs b
  affine (isU x && isU y) (ty.bits = 32 && x ≠ .g && y ≠ .g)
/-- IMUL of 32-bit type: one source A, the other U. -/
def tagMul (ty : Ty) (a b : Src) (k : Block) (wp : Nat) : Tag :=
  let x := k.srcTag wp ty.regs a
  let y := k.srcTag wp ty.regs b
  affine (isU x && isU y) (ty.bits = 32 && ((isA x && isU y) || (isU x && isA y)))
/-- SHL of 32-bit type of an A source by a U count. -/
def tagShl (w64 : Bool) (a b : Src) (k : Block) (wp : Nat) : Tag :=
  let x := k.srcTag wp (nTy w64).regs a
  let y := k.srcTag wp 1 b
  affine (isU x && isU y) (!w64 && isA x && isU y)
/-- MOV of an A source. -/
def tagMov (b : Src) (k : Block) (wp : Nat) : Tag := k.srcTag wp 1 b

/-- An operation on two integers of a type, exact, then reduced (spec/07 R134). -/
def intOp (i : Instr) (ty : Ty) (d : Dst) (a b : Src) (f : Int → Int → Int) (tag : Block → Nat → Tag) (s : State) :
    Host.Outcome State Fault Refusal :=
  alu i s ty.regs d tag fun k t =>
    (ty.write (f (ty.read (k.num t ty.regs a)) (ty.read (k.num t ty.regs b))), 0)

def iaddOp (i : Instr) (ty : Ty) (d : Dst) (a b : Src) (s : State) := intOp i ty d a b (· + ·) (tagAdd ty a b) s
def isubOp (i : Instr) (ty : Ty) (d : Dst) (a b : Src) (s : State) := intOp i ty d a b (· - ·) (tagAdd ty a b) s
def imulOp (i : Instr) (ty : Ty) (d : Dst) (a b : Src) (s : State) := intOp i ty d a b (· * ·) (tagMul ty a b) s
def iminOp (i : Instr) (ty : Ty) (d : Dst) (a b : Src) (s : State) :=
  intOp i ty d a b (fun x y => min x y) (tagOf [(ty.regs, a), (ty.regs, b)]) s
def imaxOp (i : Instr) (ty : Ty) (d : Dst) (a b : Src) (s : State) :=
  intOp i ty d a b (fun x y => max x y) (tagOf [(ty.regs, a), (ty.regs, b)]) s
/-- IMULH: the upper half of the exact product (spec/07 R135). -/
def imulhOp (i : Instr) (ty : Ty) (d : Dst) (a b : Src) (s : State) :=
  intOp i ty d a b (fun x y => x * y / (2 ^ ty.bits : Int)) (tagOf [(ty.regs, a), (ty.regs, b)]) s
/-- LEA (spec/07 R137). -/
def leaOp (i : Instr) (ty : Ty) (sh : Nat) (d : Dst) (a b : Src) (s : State) :=
  alu i s 2 d (tagOf [(2, a), (ty.regs, b)]) fun k t =>
    (modPow ((k.num t 2 a : Int) + ty.read (k.num t ty.regs b) * 2 ^ sh) 64, 0)

/-- IMAD and IMAD.WIDE (spec/07 R135). -/
def imadOp (i : Instr) (wide : Bool) (ty : Ty) (d : Dst) (a b c : Src) (s : State) :=
  let cw := if wide then 2 else ty.regs
  alu i s cw d (tagOf [(ty.regs, a), (ty.regs, b), (cw, c)]) fun k t =>
    let p := ty.read (k.num t ty.regs a) * ty.read (k.num t ty.regs b)
    if wide then (modPow (p + (k.num t 2 c : Int)) 64, 0) else (ty.write (p + ty.read (k.num t cw c)), 0)

/-- Byte k of a register, signed when it is i8 (spec/07 R136). -/
def byteOf (signed : Bool) (x k : Nat) : Int := (if signed then Ty.i8 else Ty.n8).read (x / 256 ^ k)
def idot4Op (i : Instr) (sa sb : Bool) (d : Dst) (a b c : Src) (s : State) :=
  alu i s 1 d (tagOf [(1, a), (1, b), (1, c)]) fun k t =>
    let x := k.num t 1 a
    let y := k.num t 1 b
    let sum := (List.range 4).foldl (fun z j => z + byteOf sa x j * byteOf sb y j) (Ty.i32.read (k.num t 1 c))
    (modPow sum 32, 0)

/-! ### Comparison, selection, predicates (spec/07 R138) -/

def icmpOp (i : Instr) (op : CmpOp) (ty : Ty) (pd : Nat) (a b : Src) (s : State) :=
  aluPred i s pd fun k t => (compareTy op ty (k.num t ty.regs a) (k.num t ty.regs b), 0)
/-- SEL: its predicate is a source that carries no tag, so under U = 0 the result is G (spec/07 R131). -/
def selOp (i : Instr) (w64 : Bool) (d : Dst) (a b : Src) (pc : Nat) (s : State) :=
  let w := (nTy w64).regs
  alu i s w d (fun _ _ => .g) fun k t => (if (k.thr t).pred pc then k.num t w a else k.num t w b, 0)
def psetEval (op : PsetOp) (a b : Bool) : Bool :=
  match op with
  | .and => a && b
  | .or => a || b
  | .xor => a != b
  | .andn => a && !b
  | .orn => a || !b
def psetOp (i : Instr) (op : PsetOp) (pd pa pb : Nat) (s : State) :=
  aluPred i s pd fun k t => (psetEval op ((k.thr t).pred pa) ((k.thr t).pred pb), 0)

/-! ### Logic and bits (spec/07 R139..R144) -/

/-- An operation on two w-bit values. -/
def logicOp (i : Instr) (w64 : Bool) (d : Dst) (a b : Src) (f : Nat → Nat → Nat) (s : State) :=
  let w := (nTy w64).regs
  alu i s w d (tagOf [(w, a), (w, b)]) fun k t => (f (k.num t w a) (k.num t w b), 0)
def andOp (i : Instr) (w64 : Bool) (d : Dst) (a b : Src) (s : State) := logicOp i w64 d a b (· &&& ·) s
def orOp (i : Instr) (w64 : Bool) (d : Dst) (a b : Src) (s : State) := logicOp i w64 d a b (· ||| ·) s
def xorOp (i : Instr) (w64 : Bool) (d : Dst) (a b : Src) (s : State) := logicOp i w64 d a b (· ^^^ ·) s

/-- LOP3: bit f[x] for x = c, b, a with a least significant (spec/07 R140). -/
def lop3 (f a b c : Nat) : Nat :=
  (List.range 32).foldl
    (fun r q =>
      let x := field c q q * 4 + field b q q * 2 + field a q q
      r + field f x x * 2 ^ q) 0
def lop3Op (i : Instr) (f : Byte) (d : Dst) (a b c : Src) (s : State) :=
  alu i s 1 d (tagOf [(1, a), (1, b), (1, c)]) fun k t => (lop3 f.toNat (k.num t 1 a) (k.num t 1 b) (k.num t 1 c), 0)

/-- A shift of a w-bit value by a full 32-bit count (spec/07 R141). -/
def shiftOp (i : Instr) (w64 : Bool) (d : Dst) (a b : Src) (f : Nat → Nat → Nat → Nat) (tag : Block → Nat → Tag) (s : State) :=
  let ty := nTy w64
  alu i s ty.regs d tag fun k t => (f ty.bits (k.num t ty.regs a) (k.num t 1 b), 0)
def shlOp (i : Instr) (w64 : Bool) (d : Dst) (a b : Src) (s : State) :=
  shiftOp i w64 d a b (fun w x n => if w ≤ n then 0 else x * 2 ^ n % 2 ^ w) (tagShl w64 a b) s
def shrOp (i : Instr) (w64 : Bool) (d : Dst) (a b : Src) (s : State) :=
  shiftOp i w64 d a b (fun w x n => if w ≤ n then 0 else x / 2 ^ n) (tagOf [((nTy w64).regs, a), (1, b)]) s
def sarOp (i : Instr) (w64 : Bool) (d : Dst) (a b : Src) (s : State) :=
  shiftOp i w64 d a b
    (fun w x n => modPow ((if w = 64 then Ty.i64 else Ty.i32).read x / (2 ^ min n w : Int)) w)
    (tagOf [((nTy w64).regs, a), (1, b)]) s

/-- SHF (spec/07 R142). -/
def shf (var : ShfVar) (a b n : Nat) : Nat :=
  let x := a * 2 ^ 32 + b
  let m := n % 64
  match var with
  | .l => x * 2 ^ m / 2 ^ 32 % 2 ^ 32
  | .r => x / 2 ^ m % 2 ^ 32
  | .rl => (x * 2 ^ m + x / 2 ^ (64 - m)) / 2 ^ 32 % 2 ^ 32
  | .rr => (x / 2 ^ m + x * 2 ^ (64 - m)) % 2 ^ 32
def shfOp (i : Instr) (var : ShfVar) (d : Dst) (a b c : Src) (s : State) :=
  alu i s 1 d (tagOf [(1, a), (1, b), (1, c)]) fun k t => (shf var (k.num t 1 a) (k.num t 1 b) (k.num t 1 c), 0)

/-- BFE (spec/07 R143): position in bits [7:0] of b, length in [15:8] clamped to w. -/
def bfe (ty : Ty) (a b : Nat) : Nat :=
  let p := b % 256
  let l := min (b / 256 % 256) ty.bits
  let f := modPow (ty.read a / (2 ^ p : Int)) l
  if l = 0 then 0
  else modPow (if ty.isSigned && decide (2 ^ (l - 1) ≤ f) then (f : Int) - 2 ^ l else f) ty.bits
def bfeOp (i : Instr) (ty : Ty) (d : Dst) (a b : Src) (s : State) :=
  alu i s ty.regs d (tagOf [(ty.regs, a), (1, b)]) fun k t => (bfe ty (k.num t ty.regs a) (k.num t 1 b), 0)
/-- BFI (spec/07 R143). -/
def bfi (w a b c : Nat) : Nat :=
  let p := b % 256
  let l := min (b / 256 % 256) w
  let hi := min (p + l) w
  let m := if hi ≤ p then 0 else 2 ^ hi - 2 ^ p
  (c - (c &&& m)) ||| (a * 2 ^ p &&& m)
def bfiOp (i : Instr) (w64 : Bool) (d : Dst) (a b c : Src) (s : State) :=
  let ty := nTy w64
  alu i s ty.regs d (tagOf [(ty.regs, a), (1, b), (ty.regs, c)]) fun k t =>
    (bfi ty.bits (k.num t ty.regs a) (k.num t 1 b) (k.num t ty.regs c), 0)

/-- Counting and reversing bits of a w-bit value (spec/07 R144). -/
def popc (w x : Nat) : Nat := ((List.range w).filter fun q => field x q q = 1).length
def clz (w x : Nat) : Nat := if x = 0 then w else w - 1 - Nat.log2 x
def ctz (w x : Nat) : Nat := ((List.range w).find? fun q => field x q q = 1).getD w
def brev (w x : Nat) : Nat := (List.range w).foldl (fun r q => r + field x q q * 2 ^ (w - 1 - q)) 0
def bitOp (i : Instr) (w64 : Bool) (wide : Bool) (d : Dst) (b : Src) (f : Nat → Nat → Nat) (s : State) :=
  let ty := nTy w64
  alu i s (if wide then ty.regs else 1) d (tagOf [(ty.regs, b)]) fun k t => (f ty.bits (k.num t ty.regs b), 0)
def popcOp (i : Instr) (w64 : Bool) (d : Dst) (b : Src) (s : State) := bitOp i w64 false d b popc s
def clzOp (i : Instr) (w64 : Bool) (d : Dst) (b : Src) (s : State) := bitOp i w64 false d b clz s
def ctzOp (i : Instr) (w64 : Bool) (d : Dst) (b : Src) (s : State) := bitOp i w64 false d b ctz s
def brevOp (i : Instr) (w64 : Bool) (d : Dst) (b : Src) (s : State) := bitOp i w64 true d b brev s

/-! ### Moves (spec/07 R145) -/

def movOp (i : Instr) (d : Dst) (b : Src) (s : State) := alu i s 1 d (tagMov b) fun k t => (k.num t 1 b, 0)
def movlOp (i : Instr) (d : Dst) (b : Src) (s : State) := alu i s 2 d (tagOf [(2, b)]) fun k t => (k.num t 2 b, 0)

/-- The value of %wstat (spec/15 R293). -/
def Block.wstat (k : Block) (wp : Nat) : Nat :=
  let w := k.warp wp
  w.regs / 8 * 2 ^ 25 + w.tiles * 2 ^ 20 + w.acc * 2 ^ 18 + w.role * 2 ^ 16 + w.prio * 2 ^ 14 + bit k.isProtected * 256 +
    bit w.uchk * 2 + bit w.umis

/-- The value of a special register for a thread (spec/02 R26, spec/22 R386); %cyc is read by `readCyc`. -/
def Block.special (k : Block) (t num : Nat) : Nat :=
  let th := k.thr t
  match num with
  | 0x0 => t
  | 0x1 => warpOf t
  | 0x2 => k.blkIdx.1.toNat
  | 0x3 => k.blkIdx.2.1.toNat
  | 0x4 => k.blkIdx.2.2.toNat
  | 0x5 => k.nblk.1.toNat
  | 0x6 => k.nblk.2.1.toNat
  | 0x7 => k.nblk.2.2.toNat
  | 0x8 => k.rank
  | 0x9 => k.core % 64
  | 0xA => k.core % 64 / 8
  | 0xB => k.core / 64
  | 0xD => 0x80000000 + k.rank * 2 ^ 28
  | 0xE => (k.warp (warpOf t)).fs.toNat
  | 0xF => k.wstat (warpOf t)
  | 0x10 => th.sp.toNat
  | 0x11 => th.mode.toNat
  | 0x12 => th.ecause.toNat
  | 0x13 => th.epc.toNat
  | _ => 0

/-- %cyc as the context sees it (spec/01 R16, spec/21 R380): the core's counter, which has gone on by a free number of
cycles, plus the context's offset (log 18). -/
def State.readCyc (s : State) (b : Nat) : Nat × State :=
  let k := s.blk b
  let (n, s) := s.freeNat
  let s := s.updCore k.core fun c => { c with cyc := c.cyc + BitVec.ofNat 64 (n % 2 ^ 32) }
  ((s.core k.core).cyc.toNat + ((s.core k.core).offsets.get 0 k.fn).toNat, s)

def tagSpecial (num : Nat) (_ : Block) (_ : Nat) : Tag :=
  if num = 0 then .a else if decide (0x10 ≤ num) then .g else .u
def rdsrOp (i : Instr) (num : Nat) (d : Dst) (s : State) :=
  let r := s.readCyc s.sel.blk
  let s := if num = 0xC then r.2 else s
  alu i s (srRegs num) d (tagSpecial num) fun k t => (if num = 0xC then r.1 % 2 ^ 64 else k.special t num, 0)

/-! ### The meanings: base forms (spec/04 R68) -/
def execIaddI32Base (f : BaseF) (s : State) : Host.Outcome State Fault Refusal :=
  iaddOp (.iaddI32Base f) .i32 f.dst f.srcA f.srcB s
def execIsubI32Base (f : BaseF) (s : State) : Host.Outcome State Fault Refusal :=
  isubOp (.isubI32Base f) .i32 f.dst f.srcA f.srcB s
def execImulI32Base (f : BaseF) (s : State) : Host.Outcome State Fault Refusal :=
  imulOp (.imulI32Base f) .i32 f.dst f.srcA f.srcB s
def execImulhI32Base (f : BaseF) (s : State) : Host.Outcome State Fault Refusal :=
  imulhOp (.imulhI32Base f) .i32 f.dst f.srcA f.srcB s
def execImulhN32Base (f : BaseF) (s : State) : Host.Outcome State Fault Refusal :=
  imulhOp (.imulhN32Base f) .n32 f.dst f.srcA f.srcB s
def execIminI32Base (f : BaseF) (s : State) : Host.Outcome State Fault Refusal :=
  iminOp (.iminI32Base f) .i32 f.dst f.srcA f.srcB s
def execIminN32Base (f : BaseF) (s : State) : Host.Outcome State Fault Refusal :=
  iminOp (.iminN32Base f) .n32 f.dst f.srcA f.srcB s
def execImaxI32Base (f : BaseF) (s : State) : Host.Outcome State Fault Refusal :=
  imaxOp (.imaxI32Base f) .i32 f.dst f.srcA f.srcB s
def execImaxN32Base (f : BaseF) (s : State) : Host.Outcome State Fault Refusal :=
  imaxOp (.imaxN32Base f) .n32 f.dst f.srcA f.srcB s
def execIaddI64Base (f : BaseF) (s : State) : Host.Outcome State Fault Refusal :=
  iaddOp (.iaddI64Base f) .i64 f.dst f.srcA f.srcB s
def execIsubI64Base (f : BaseF) (s : State) : Host.Outcome State Fault Refusal :=
  isubOp (.isubI64Base f) .i64 f.dst f.srcA f.srcB s
def execImulI64Base (f : BaseF) (s : State) : Host.Outcome State Fault Refusal :=
  imulOp (.imulI64Base f) .i64 f.dst f.srcA f.srcB s
def execAndN32Base (f : BaseF) (s : State) : Host.Outcome State Fault Refusal :=
  andOp (.andN32Base f) false f.dst f.srcA f.srcB s
def execOrN32Base (f : BaseF) (s : State) : Host.Outcome State Fault Refusal :=
  orOp (.orN32Base f) false f.dst f.srcA f.srcB s
def execXorN32Base (f : BaseF) (s : State) : Host.Outcome State Fault Refusal :=
  xorOp (.xorN32Base f) false f.dst f.srcA f.srcB s
def execShlN32Base (f : BaseF) (s : State) : Host.Outcome State Fault Refusal :=
  shlOp (.shlN32Base f) false f.dst f.srcA f.srcB s
def execShrN32Base (f : BaseF) (s : State) : Host.Outcome State Fault Refusal :=
  shrOp (.shrN32Base f) false f.dst f.srcA f.srcB s
def execSarI32Base (f : BaseF) (s : State) : Host.Outcome State Fault Refusal :=
  sarOp (.sarI32Base f) false f.dst f.srcA f.srcB s
def execShlN64Base (f : BaseF) (s : State) : Host.Outcome State Fault Refusal :=
  shlOp (.shlN64Base f) true f.dst f.srcA f.srcB s
def execShrN64Base (f : BaseF) (s : State) : Host.Outcome State Fault Refusal :=
  shrOp (.shrN64Base f) true f.dst f.srcA f.srcB s
def execSarI64Base (f : BaseF) (s : State) : Host.Outcome State Fault Refusal :=
  sarOp (.sarI64Base f) true f.dst f.srcA f.srcB s
def execPopcN32Base (f : BaseF) (s : State) : Host.Outcome State Fault Refusal :=
  popcOp (.popcN32Base f) false f.dst f.srcB s
def execClzN32Base (f : BaseF) (s : State) : Host.Outcome State Fault Refusal :=
  clzOp (.clzN32Base f) false f.dst f.srcB s
def execCtzN32Base (f : BaseF) (s : State) : Host.Outcome State Fault Refusal :=
  ctzOp (.ctzN32Base f) false f.dst f.srcB s
def execBrevN32Base (f : BaseF) (s : State) : Host.Outcome State Fault Refusal :=
  brevOp (.brevN32Base f) false f.dst f.srcB s
def execMovBase (f : BaseF) (s : State) : Host.Outcome State Fault Refusal :=
  movOp (.movBase f) f.dst f.srcB s
def execMovlBase (f : BaseF) (s : State) : Host.Outcome State Fault Refusal :=
  movlOp (.movlBase f) f.dst f.srcB s
def execLeaN32S2Base (f : BaseF) (s : State) : Host.Outcome State Fault Refusal :=
  leaOp (.leaN32S2Base f) .n32 2 f.dst f.srcA f.srcB s
def execLeaN32S3Base (f : BaseF) (s : State) : Host.Outcome State Fault Refusal :=
  leaOp (.leaN32S3Base f) .n32 3 f.dst f.srcA f.srcB s
def execLeaI32S2Base (f : BaseF) (s : State) : Host.Outcome State Fault Refusal :=
  leaOp (.leaI32S2Base f) .i32 2 f.dst f.srcA f.srcB s
def execLeaI32S3Base (f : BaseF) (s : State) : Host.Outcome State Fault Refusal :=
  leaOp (.leaI32S3Base f) .i32 3 f.dst f.srcA f.srcB s
def execAndN64Base (f : BaseF) (s : State) : Host.Outcome State Fault Refusal :=
  andOp (.andN64Base f) true f.dst f.srcA f.srcB s
def execOrN64Base (f : BaseF) (s : State) : Host.Outcome State Fault Refusal :=
  orOp (.orN64Base f) true f.dst f.srcA f.srcB s
def execXorN64Base (f : BaseF) (s : State) : Host.Outcome State Fault Refusal :=
  xorOp (.xorN64Base f) true f.dst f.srcA f.srcB s
def execIminI64Base (f : BaseF) (s : State) : Host.Outcome State Fault Refusal :=
  iminOp (.iminI64Base f) .i64 f.dst f.srcA f.srcB s
def execImaxI64Base (f : BaseF) (s : State) : Host.Outcome State Fault Refusal :=
  imaxOp (.imaxI64Base f) .i64 f.dst f.srcA f.srcB s

/-! ### The meanings: extended forms -/

def execIadd (h : Hdr) (ty : Ty) (d : Dst) (a b : Src) (s : State) : Host.Outcome State Fault Refusal :=
  iaddOp (.iadd h ty d a b) ty d a b s
def execIsub (h : Hdr) (ty : Ty) (d : Dst) (a b : Src) (s : State) : Host.Outcome State Fault Refusal :=
  isubOp (.isub h ty d a b) ty d a b s
def execImul (h : Hdr) (ty : Ty) (d : Dst) (a b : Src) (s : State) : Host.Outcome State Fault Refusal :=
  imulOp (.imul h ty d a b) ty d a b s
def execImulh (h : Hdr) (ty : Ty) (d : Dst) (a b : Src) (s : State) : Host.Outcome State Fault Refusal :=
  imulhOp (.imulh h ty d a b) ty d a b s
def execImad (h : Hdr) (wide : Bool) (ty : Ty) (d : Dst) (a b c : Src) (s : State) : Host.Outcome State Fault Refusal :=
  imadOp (.imad h wide ty d a b c) wide ty d a b c s
def execImin (h : Hdr) (ty : Ty) (d : Dst) (a b : Src) (s : State) : Host.Outcome State Fault Refusal :=
  iminOp (.imin h ty d a b) ty d a b s
def execImax (h : Hdr) (ty : Ty) (d : Dst) (a b : Src) (s : State) : Host.Outcome State Fault Refusal :=
  imaxOp (.imax h ty d a b) ty d a b s
def execIdot4 (h : Hdr) (sa sb : Bool) (d : Dst) (a b c : Src) (s : State) : Host.Outcome State Fault Refusal :=
  idot4Op (.idot4 h sa sb d a b c) sa sb d a b c s
def execLea (h : Hdr) (ty : Ty) (sh : Nat) (d : Dst) (a b : Src) (s : State) : Host.Outcome State Fault Refusal :=
  leaOp (.lea h ty sh d a b) ty sh d a b s
def execAnd (h : Hdr) (w64 : Bool) (d : Dst) (a b : Src) (s : State) : Host.Outcome State Fault Refusal :=
  andOp (.and h w64 d a b) w64 d a b s
def execOr (h : Hdr) (w64 : Bool) (d : Dst) (a b : Src) (s : State) : Host.Outcome State Fault Refusal :=
  orOp (.or h w64 d a b) w64 d a b s
def execXor (h : Hdr) (w64 : Bool) (d : Dst) (a b : Src) (s : State) : Host.Outcome State Fault Refusal :=
  xorOp (.xor h w64 d a b) w64 d a b s
def execLop3 (h : Hdr) (f : Byte) (d : Dst) (a b c : Src) (s : State) : Host.Outcome State Fault Refusal :=
  lop3Op (.lop3 h f d a b c) f d a b c s
def execIcmp (h : Hdr) (op : CmpOp) (ty : Ty) (pd : Nat) (a b : Src) (s : State) : Host.Outcome State Fault Refusal :=
  icmpOp (.icmp h op ty pd a b) op ty pd a b s
def execSel (h : Hdr) (w64 : Bool) (d : Dst) (a b : Src) (pc : Nat) (s : State) : Host.Outcome State Fault Refusal :=
  selOp (.sel h w64 d a b pc) w64 d a b pc s
def execPset (h : Hdr) (op : PsetOp) (pd pa pb : Nat) (s : State) : Host.Outcome State Fault Refusal :=
  psetOp (.pset h op pd pa pb) op pd pa pb s
def execShl (h : Hdr) (w64 : Bool) (d : Dst) (a b : Src) (s : State) : Host.Outcome State Fault Refusal :=
  shlOp (.shl h w64 d a b) w64 d a b s
def execShr (h : Hdr) (w64 : Bool) (d : Dst) (a b : Src) (s : State) : Host.Outcome State Fault Refusal :=
  shrOp (.shr h w64 d a b) w64 d a b s
def execSar (h : Hdr) (w64 : Bool) (d : Dst) (a b : Src) (s : State) : Host.Outcome State Fault Refusal :=
  sarOp (.sar h w64 d a b) w64 d a b s
def execShf (h : Hdr) (var : ShfVar) (d : Dst) (a b c : Src) (s : State) : Host.Outcome State Fault Refusal :=
  shfOp (.shf h var d a b c) var d a b c s
def execBfe (h : Hdr) (ty : Ty) (d : Dst) (a b : Src) (s : State) : Host.Outcome State Fault Refusal :=
  bfeOp (.bfe h ty d a b) ty d a b s
def execBfi (h : Hdr) (w64 : Bool) (d : Dst) (a b c : Src) (s : State) : Host.Outcome State Fault Refusal :=
  bfiOp (.bfi h w64 d a b c) w64 d a b c s
def execPopc (h : Hdr) (w64 : Bool) (d : Dst) (b : Src) (s : State) : Host.Outcome State Fault Refusal :=
  popcOp (.popc h w64 d b) w64 d b s
def execClz (h : Hdr) (w64 : Bool) (d : Dst) (b : Src) (s : State) : Host.Outcome State Fault Refusal :=
  clzOp (.clz h w64 d b) w64 d b s
def execCtz (h : Hdr) (w64 : Bool) (d : Dst) (b : Src) (s : State) : Host.Outcome State Fault Refusal :=
  ctzOp (.ctz h w64 d b) w64 d b s
def execBrev (h : Hdr) (w64 : Bool) (d : Dst) (b : Src) (s : State) : Host.Outcome State Fault Refusal :=
  brevOp (.brev h w64 d b) w64 d b s
def execMov (h : Hdr) (d : Dst) (b : Src) (s : State) : Host.Outcome State Fault Refusal := movOp (.mov h d b) d b s
def execMovl (h : Hdr) (d : Dst) (b : Src) (s : State) : Host.Outcome State Fault Refusal := movlOp (.movl h d b) d b s
/-- MOVS: a descriptor to a scalar register, or to an entry, once. -/
def execMovs (h : Hdr) (m : MovsForm) (s : State) : Host.Outcome State Fault Refusal :=
  match m with
  | .fromFd d n =>
    issue (.movs h (.fromFd d n)) s fun c s =>
      (s.put c 1 d (fun _ => ((s.blk c.b).fd c.wp n).setWidth 128) .u).advance c.b c.exe c.next
  | .toFd n b =>
    issue (.movs h (.toFd n b)) s fun c s =>
      (s.updBlk c.b fun k => k.setFd c.wp n (k.word c.lead b)).advance c.b c.exe c.next
def execRdsr (h : Hdr) (num : Nat) (d : Dst) (s : State) : Host.Outcome State Fault Refusal := rdsrOp (.rdsr h num d) num d s

end Sys2Proof.Machine
end

