-- ==== Sys2Proof/Machine/Special.lean ====
section
/-! DEFINITION. The special functions of f32 (spec/05 R98, R99): exact where the spec says so; elsewhere any result within the error
bound of R98, fixed for an input (R78; log 17). Exact values are enclosed in fixed point, with `fixBits` bits below the binary point. -/
namespace Sys2Proof.Machine

/-- Integer square root by bisection on bits. -/
def isqrt (n : Nat) : Nat :=
  (List.range (Nat.log2 n / 2 + 1)).foldr
    (fun k r => if (r + 2 ^ k) * (r + 2 ^ k) ≤ n then r + 2 ^ k else r) 0

/-- 1.0 as an f32 code. -/
def oneF32 : Nat := 0x3F800000

/-! ### Results within a bound (R98) -/

/-- Bits below the binary point of the enclosures. -/
def fixBits : Nat := 200
/-- A positive number that lies between lo and hi, in units of 2^-fixBits. -/
structure Span where
  lo : Nat
  hi : Nat
  deriving DecidableEq, Repr
/-- m × 2^e in units of 2^-fixBits; e is at least -149. -/
def fixOf (m : Nat) (e : Int) : Nat := m * twoPow (e + fixBits)
/-- The magnitude of an f32 code in units of 2^-fixBits; the code of +Inf counts as 2^128. -/
def codeFix (c : Nat) : Nat :=
  let ex := c / 0x800000
  if ex = 0 then fixOf c (-149) else fixOf (0x800000 + c % 0x800000) ((ex : Int) - 150)
/-- The magnitudes, as codes up to `cap`, that are within `b` ulp of every number of a span. -/
def Span.near (x : Span) (b cap : Nat) : List Nat :=
  let k : Int := if x.lo = 0 then -126 else max (log2Of x.lo (-(fixBits : Int))) (-126)
  let u := b * twoPow (k - 23 + fixBits)
  let c := if x.lo = 0 then 0 else (f32.round .rz false x.lo (-(fixBits : Int)) true).1
  (((List.range 10).filter fun j => decide (4 ≤ c + j)).map fun j => c + j - 4).filter fun c =>
    decide (c ≤ cap) && decide (x.hi ≤ codeFix c + u) && decide (codeFix c ≤ x.lo + u)
/-- The device's result for an input: one of the magnitudes within `b` ulp. `fn` is the sub-opcode in group 0x12. -/
def Span.pick (x : Span) (fn input b cap : Nat) : Nat :=
  let l := x.near b cap
  (l[(Config.specialFunction fn (BitVec.ofNat 32 input)).toNat % l.length]?).getD (min cap (f32.round .rne false x.lo (-(fixBits : Int))).1)

/-! ### FRCP, FSQRT, FRSQ -/

/-- FRCP: 1/x, correctly rounded; the exact cases of R99. -/
def frcpVal (rm : Rm) (v : FVal) : Nat × Flags :=
  match v with
  | .nan s => (f32.canonNan, when s fNV)
  | .inf n => (f32.zero n, 0)
  | .zero n => (f32.inf n, fDZ)
  | .fin n m e =>
    -- 2^64 / m has more than 40 bits for a significand below 2^24
    let q := 2 ^ 64 / m
    f32.round rm n q (-64 - e) (2 ^ 64 % m ≠ 0)

/-- FSQRT: the square root, correctly rounded. -/
def fsqrtVal (rm : Rm) (v : FVal) : Nat × Flags :=
  match v with
  | .nan s => (f32.canonNan, when s fNV)
  | .inf true => (f32.canonNan, fNV)
  | .inf false => (f32.inf false, 0)
  | .zero n => (f32.zero n, 0)
  | .fin true _ _ => (f32.canonNan, fNV)
  | .fin false m e =>
    -- an even exponent and 60 bits more
    let k : Int := if e % 2 = 0 then 60 else 61
    let n := m * twoPow k
    let r := isqrt n
    f32.round rm false r ((e - k) / 2) (r * r ≠ n)

/-- 1/√(m 2^e) = √(2^112 / m) × 2^(-56 - e/2), for an even exponent. -/
def rsqSpan (m : Nat) (e : Int) : Span :=
  let (m, e) := if e % 2 = 0 then (m, e) else (2 * m, e - 1)
  let r := isqrt (2 ^ 112 / m)
  let w := twoPow (fixBits - 56 - e / 2)
  { lo := r * w, hi := (if r * r * m = 2 ^ 112 then r else r + 1) * w }
/-- FRSQ: 1/√x within 1 ulp. -/
def frsqVal (x : Nat) : Nat × Flags :=
  match f32.decode x with
  | .nan s => (f32.canonNan, when s fNV)
  | .inf true => (f32.canonNan, fNV)
  | .inf false => (f32.zero false, 0)
  | .zero n => (f32.inf n, fDZ)
  | .fin true _ _ => (f32.canonNan, fNV)
  | .fin false m e => ((rsqSpan m e).pick 1 x 1 0x7F7FFFFF, fNX)

/-! ### FEXP2 and FLOG2 -/

/-- The roots 2^(2^-1), 2^(2^-2), … rounded down, in units of 2^-fixBits. -/
def rootsFrom : Nat → Nat → List Nat
  | 0, _ => []
  | n + 1, r =>
    let q := isqrt (r * 2 ^ fixBits)
    q :: rootsFrom n q
def twoRoots (n : Nat) : List Nat := rootsFrom n (2 ^ (fixBits + 1))
/-- 2^(f / 2^149) for f below 2^149: the product of the roots that its bits name. -/
def exp2Frac (f : Nat) : Span :=
  let y := ((twoRoots 149).zipIdx).foldl (fun y r => if f.testBit (148 - r.2) then y * r.1 / 2 ^ fixBits else y) (2 ^ fixBits)
  { lo := y, hi := min (y + 2 ^ 20) (2 ^ (fixBits + 1)) }
/-- A span times 2^z. -/
def Span.scale (x : Span) (z : Int) : Span :=
  if 0 ≤ z then { lo := x.lo * twoPow z, hi := x.hi * twoPow z }
  else { lo := x.lo / twoPow (-z), hi := x.hi / twoPow (-z) + 1 }
/-- FEXP2: exact for integers n with 2^n normal; elsewhere 2^x within 1 ulp, with NX, and OF or UF as R82 gives. -/
def fexp2Val (x : Nat) : Nat × Flags :=
  match f32.decode x with
  | .nan s => (f32.canonNan, when s fNV)
  | .inf n => (if n then f32.zero false else f32.inf false, 0)
  | .zero _ => (oneF32, 0)
  | v =>
    let (k, inexact) := roundToInt .rd v
    let z := k.int
    if !inexact && decide (-126 ≤ z) && decide (z ≤ 127) then (f32.round .rne false 1 z)
    else if decide (128 ≤ z) then (f32.inf false, fOF ||| fNX)
    else
      let d := v.dyadic
      let f := (d.z * twoPow (d.e + 149) - z * 2 ^ 149).toNat
      let y := (exp2Frac f).scale (max z (-190))
      let c := y.pick 3 x 1 0x7F800000
      let tiny := (f32.round .rne false y.lo (-(fixBits : Int)) true).2 &&& fUF
      (c, when (c = 0x7F800000) fOF ||| tiny ||| fNX)

/-- Does a positive finite value equal 2^k for an integer k? -/
def FVal.pow2 : FVal → Option Int
  | .fin false m e => if m = 2 ^ Nat.log2 m then some (log2Of m e) else none
  | _ => none
/-- The first 96 bits of log2 t below the point, t between 1 and 2 in units of 2^-fixBits: the product of the roots that fits. -/
def log2Frac (t : Nat) : Nat :=
  (((twoRoots 96).zipIdx).foldl
    (fun (x : Nat × Nat) r =>
      let y := x.1 * r.1 / 2 ^ fixBits
      if y ≤ t then (y, x.2 + 2 ^ (95 - r.2)) else x) (2 ^ fixBits, 0)).2
/-- FLOG2: n for 2^n; elsewhere log2 x within 1 ulp. -/
def flog2Val (x : Nat) : Nat × Flags :=
  match f32.decode x with
  | .nan s => (f32.canonNan, when s fNV)
  | .inf true => (f32.canonNan, fNV)
  | .inf false => (f32.inf false, 0)
  | .zero _ => (f32.inf true, fDZ)
  | .fin true _ _ => (f32.canonNan, fNV)
  | v =>
    match v, v.pow2 with
    | _, some k => f32.deliver .rne (intVal k)
    | .fin _ m e, none =>
      let k := log2Of m e
      let y : Int := k * 2 ^ 96 + log2Frac (m * twoPow (fixBits - Nat.log2 m))
      let w := 2 ^ (fixBits - 96)
      let (a, b) := if 0 ≤ y then ((y - 1).toNat, (y + 2).toNat) else ((-y - 2).toNat, (-y + 1).toNat)
      (f32.signBit (decide (y < 0)) + ({ lo := a * w, hi := b * w } : Span).pick 4 x 1 0x7F7FFFFF, fNX)
    | _, none => (f32.canonNan, fNV)

/-! ### FSIN and FCOS -/

/-- Bits below the binary point of π / 2. -/
def piBits : Nat := 340
/-- arctan (1 / n) in units of 2^-piBits, by its series. -/
def atanInv (n : Nat) : Nat :=
  let t := fun k : Nat => 2 ^ piBits / n ^ (2 * k + 1) / (2 * k + 1)
  ((List.range 76).foldl (fun (y : Int) k => if k % 2 = 0 then y + t k else y - t k) 0).toNat
/-- π / 2 in units of 2^-piBits, by Machin's formula. -/
def halfPi : Nat := 8 * atanInv 5 - 2 * atanInv 239
/-- A series in an angle below π / 2, in units of 2^-fixBits: its term `t` and the factors of its later terms. -/
def angleSeries (r : Nat) : Nat → Nat → Nat → Int
  | 0, _, _ => 0
  | n + 1, j, t => (t : Int) - angleSeries r n (j + 2) (t * r / 2 ^ fixBits * r / 2 ^ fixBits / (j * (j + 1)))
def sinFix (r : Nat) : Nat := (angleSeries r 32 2 r).toNat
def cosFix (r : Nat) : Nat := (angleSeries r 32 1 (2 ^ fixBits)).toNat
/-- The quadrant of a magnitude, and the angle in it. -/
def reduceAngle (m : Nat) (e : Int) : Nat × Nat :=
  let x := m * twoPow (e + piBits)
  (x / halfPi % 4, x % halfPi / 2 ^ (piBits - fixBits))
/-- FSIN and FCOS (`fn` 5 and 6): within 1 ulp, and never above 1 in magnitude. -/
def fsincosVal (fn x : Nat) : Nat × Flags :=
  match f32.decode x with
  | .nan s => (f32.canonNan, when s fNV)
  | .inf _ => (f32.canonNan, fNV)
  | .zero n => (if fn = 5 then f32.zero n else oneF32, 0)
  | .fin n m e =>
    let (q, r) := reduceAngle m e
    let sine := fn = 5
    let y := if (q % 2 = 0) = sine then sinFix r else cosFix r
    let neg := if sine then n != decide (2 ≤ q) else q = 1 || q = 2
    -- the sine of a positive number is below it
    let top := if sine then min (2 ^ fixBits) (fixOf m e) else 2 ^ fixBits
    (f32.signBit neg + ({ lo := y - 2 ^ 12, hi := min (y + 2 ^ 12) top } : Span).pick fn x 1 oneF32, fNX)

/-! ### FTANH -/

/-- e^a for a below 2^-3, in units of 2^-piBits, by its series. -/
def expSeries (a : Nat) : Nat → Nat → Nat → Nat
  | 0, _, t => t
  | n + 1, j, t => t + expSeries a n (j + 1) (t * a / 2 ^ piBits / j)
/-- e^a by ten squarings. -/
def expFix (a : Nat) : Nat := (List.range 10).foldl (fun y _ => y * y / 2 ^ piBits) (expSeries (a / 2 ^ 10) 60 1 (2 ^ piBits))
/-- tanh of a magnitude below 32: (E - 1) / (E + 1), E its exponential squared; above, it is next to 1. -/
def tanhSpan (m : Nat) (e : Int) : Span :=
  if 5 ≤ log2Of m e then { lo := 2 ^ fixBits - 2 ^ (fixBits - 80), hi := 2 ^ fixBits }
  else
    let y := expFix (m * twoPow (e + 1 + piBits))
    let v := (y - 2 ^ piBits) * 2 ^ fixBits / (y + 2 ^ piBits)
    { lo := v - 2 ^ 12, hi := min (v + 2 ^ 12) (min (fixOf m e) (2 ^ fixBits)) }
/-- FTANH: within 2 ulp, and never above 1 in magnitude. -/
def ftanhVal (x : Nat) : Nat × Flags :=
  match f32.decode x with
  | .nan s => (f32.canonNan, when s fNV)
  | .inf n => (f32.signBit n + oneF32, 0)
  | .zero n => (f32.zero n, 0)
  | .fin n m e => (f32.signBit n + (tanhSpan m e).pick 7 x 2 oneF32, fNX)

end Sys2Proof.Machine
end

