-- ==== Sys2Proof/Machine/Float.lean ====
section
/-! DEFINITION. Floating-point, special-function, packed and converting instructions (spec/07 R146..R154; spec/05). -/
namespace Sys2Proof.Machine

/-- The value of a float operand. -/
def Block.fval (k : Block) (t : Nat) (ty : Ty) (x : Src) : FVal := (Ieee.ofTy ty).decode (k.num t ty.regs x % 2 ^ ty.bits)

/-- A float operation of two or three operands (spec/07 R147). -/
def fop2 (i : Instr) (ty : Ty) (d : Dst) (a b : Src) (f : FVal → FVal → Res) (s : State) : Host.Outcome State Fault Refusal :=
  alu i s ty.regs d (tagOf [(ty.regs, a), (ty.regs, b)]) fun k t => f (k.fval t ty a) (k.fval t ty b)
def faddOp (i : Instr) (ty : Ty) (rm : Rm) (d : Dst) (a b : Src) (s : State) :=
  fop2 i ty d a b ((Ieee.ofTy ty).add rm) s
def fmulOp (i : Instr) (ty : Ty) (rm : Rm) (d : Dst) (a b : Src) (s : State) :=
  fop2 i ty d a b ((Ieee.ofTy ty).mul rm) s
def ffmaOp (i : Instr) (ty : Ty) (rm : Rm) (d : Dst) (a b c : Src) (s : State) :=
  alu i s ty.regs d (tagOf [(ty.regs, a), (ty.regs, b), (ty.regs, c)]) fun k t =>
    (Ieee.ofTy ty).fma rm (k.fval t ty a) (k.fval t ty b) (k.fval t ty c)
/-- FMIN and FMAX (spec/05 R85). -/
def fminmaxOp (i : Instr) (isMax : Bool) (ty : Ty) (d : Dst) (a b : Src) (s : State) :=
  alu i s ty.regs d (tagOf [(ty.regs, a), (ty.regs, b)]) fun k t =>
    (Ieee.ofTy ty).minmax isMax (k.num t ty.regs a % 2 ^ ty.bits) (k.num t ty.regs b % 2 ^ ty.bits)
def fminOp (i : Instr) (ty : Ty) (d : Dst) (a b : Src) (s : State) := fminmaxOp i false ty d a b s
def fmaxOp (i : Instr) (ty : Ty) (d : Dst) (a b : Src) (s : State) := fminmaxOp i true ty d a b s

/-- A float comparison (spec/07 R148). −0 equals +0. -/
def fcmp (op : FCmpOp) (a b : FVal) : Bool :=
  let un := a.isNan || b.isNan
  let lt := FVal.lt false a b
  let gt := FVal.lt false b a
  match op with
  | .un => un
  | .ord => !un
  | .cmp .ne => un || lt || gt
  | .cmp .eq => !un && !lt && !gt
  | .cmp .lt => !un && lt
  | .cmp .le => !un && !gt
  | .cmp .gt => !un && gt
  | .cmp .ge => !un && !lt
def fcmpOp (i : Instr) (op : FCmpOp) (ty : Ty) (pd : Nat) (a b : Src) (s : State) :=
  aluPred i s pd fun k t =>
    let x := k.fval t ty a
    let y := k.fval t ty b
    (fcmp op x y, when (x.isSnan || y.isSnan) fNV)

/-- FRND (spec/07 R149). -/
def frnd (f : Ieee) (x : Bool) (rm : Rm) (v : FVal) : Res :=
  let (r, changed) := roundToInt rm v
  let (c, fl) := f.deliver .rne r
  (c, (fl &&& fNV) ||| when (x && changed) fNX)
def frndOp (i : Instr) (x : Bool) (ty : Ty) (rm : Rm) (d : Dst) (b : Src) (s : State) :=
  alu i s ty.regs d (tagOf [(ty.regs, b)]) fun k t => frnd (Ieee.ofTy ty) x rm (k.fval t ty b)

/-- The special-function group: f32 to f32, long-latency (spec/07 R150). -/
def sfuOp (i : Instr) (h : Hdr) (d : Dst) (b : Src) (f : Nat → Res) (s : State) :=
  aluLong i s h 1 d (tagOf [(1, b)]) fun k t => f (k.num t 1 b)

/-- The FP64 group, long-latency. -/
def dOp (i : Instr) (h : Hdr) (d : Dst) (srcs : List Src) (f : Block → Nat → Res) (s : State) :=
  aluLong i s h 2 d (tagOf (srcs.map fun x => (2, x))) f

/-! ### Packed halves (spec/07 R151) -/

/-- Element 0 or 1 of a register as a value. -/
def half (ty : Ty) (x j : Nat) : FVal := (Ieee.ofTy ty).decode (x / 65536 ^ j % 65536)
/-- Two elements, each rounded on its own. -/
def two (r0 r1 : Res) : Res := (r0.1 + r1.1 * 65536, r0.2 ||| r1.2)
def hop2 (i : Instr) (ty : Ty) (d : Dst) (a b : Src) (f : FVal → FVal → Res) (s : State) :=
  alu i s 1 d (tagOf [(1, a), (1, b)]) fun k t =>
    let x := k.num t 1 a
    let y := k.num t 1 b
    two (f (half ty x 0) (half ty y 0)) (f (half ty x 1) (half ty y 1))
def hadd2Op (i : Instr) (ty : Ty) (rm : Rm) (d : Dst) (a b : Src) (s : State) := hop2 i ty d a b ((Ieee.ofTy ty).add rm) s
def hmul2Op (i : Instr) (ty : Ty) (rm : Rm) (d : Dst) (a b : Src) (s : State) := hop2 i ty d a b ((Ieee.ofTy ty).mul rm) s
def hfma2Op (i : Instr) (ty : Ty) (rm : Rm) (d : Dst) (a b c : Src) (s : State) :=
  alu i s 1 d (tagOf [(1, a), (1, b), (1, c)]) fun k t =>
    let x := k.num t 1 a
    let y := k.num t 1 b
    let z := k.num t 1 c
    let f := fun j => (Ieee.ofTy ty).fma rm (half ty x j) (half ty y j) (half ty z j)
    two (f 0) (f 1)
def hdot2Op (i : Instr) (ts : Ty) (rm : Rm) (d : Dst) (a b c : Src) (s : State) :=
  alu i s 1 d (tagOf [(1, a), (1, b), (1, c)]) fun k t =>
    let x := k.num t 1 a
    let y := k.num t 1 b
    f32.dot rm [(half ts x 0, half ts y 0), (half ts x 1, half ts y 1)] (f32.decode (k.num t 1 c))

/-! ### Conversion (spec/07 R152..R154) -/

/-- The descriptor that a converting instruction names; an entry is read only by a narrow type. -/
def convDesc (k : Block) (wp : Nat) (td ts : CTy) : Narrow := Narrow.of (k.fd wp (td.fdOf + ts.fdOf))
/-- Container width (spec/07 R153). -/
def contWidth (d : Narrow) : CTy → Nat
  | .fd _ => if d.w ≤ 4 then 4 else 8
  | .std t => t.bits
/-- ILL at use of an invalid descriptor (spec/05 R87). -/
def withDesc (td ts : CTy) (limit : Narrow → Bool) (s : State) (body : Host.Outcome State Fault Refusal) :
    Host.Outcome State Fault Refusal :=
  let d := convDesc (s.blk s.sel.blk) (warpOf (s.sel.thrs.headD 0)) td ts
  if (td.isNarrow || ts.isNarrow) && (!d.valid || !limit d) then finish (s.ill 0x0B) else body

def cvtOp (i : Instr) (sat : Bool) (td ts : CTy) (rm : Rm) (d : Dst) (b : Src) (s : State) :=
  withDesc td ts (fun _ => true) s <|
    alu i s td.regs d (tagOf [(ts.regs, b)]) fun k t =>
      convert sat td ts (convDesc k (warpOf t) td ts) rm (k.num t ts.regs b)

/-- Container k of `c` replaced by a code. -/
def insertAt (cw k c code : Nat) : Nat :=
  let lo := cw * k
  c - field c (lo + cw - 1) lo * 2 ^ lo + code % 2 ^ cw * 2 ^ lo
def packOp (i : Instr) (td ts : CTy) (rm : Rm) (n : Nat) (d : Dst) (a c : Src) (s : State) :=
  withDesc td ts (fun x => decide (n < 32 / contWidth x td)) s <|
    alu i s 1 d (tagOf [(1, a), (1, c)]) fun k t =>
      let x := convDesc k (warpOf t) td ts
      let r := convert false td ts x rm (k.num t 1 a)
      (insertAt (contWidth x td) n (k.num t 1 c) r.1, r.2)
def unpackOp (i : Instr) (td ts : CTy) (rm : Rm) (n : Nat) (d : Dst) (b : Src) (s : State) :=
  withDesc td ts (fun x => decide (n < 32 / contWidth x ts)) s <|
    alu i s 1 d (tagOf [(1, b)]) fun k t =>
      let x := convDesc k (warpOf t) td ts
      let cw := contWidth x ts
      convert false td ts x rm (k.num t 1 b / 2 ^ (cw * n) % 2 ^ cw)

/-- NOP (spec/07 R167): the threads go on. -/
def nopOp (i : Instr) (s : State) : Host.Outcome State Fault Refusal := issue i s fun c s => s.advance c.b c.exe c.next

/-! ### The meanings: base forms (spec/04 R68) -/

def execNop (f : BaseF) (s : State) : Host.Outcome State Fault Refusal :=
  nopOp (.nop f) s
def execFaddF32Base (f : BaseF) (s : State) : Host.Outcome State Fault Refusal :=
  faddOp (.faddF32Base f) .f32 .rne f.dst f.srcA f.srcB s
def execFmulF32Base (f : BaseF) (s : State) : Host.Outcome State Fault Refusal :=
  fmulOp (.fmulF32Base f) .f32 .rne f.dst f.srcA f.srcB s
def execFminF32Base (f : BaseF) (s : State) : Host.Outcome State Fault Refusal :=
  fminOp (.fminF32Base f) .f32 f.dst f.srcA f.srcB s
def execFmaxF32Base (f : BaseF) (s : State) : Host.Outcome State Fault Refusal :=
  fmaxOp (.fmaxF32Base f) .f32 f.dst f.srcA f.srcB s
def execFaddF16Base (f : BaseF) (s : State) : Host.Outcome State Fault Refusal :=
  faddOp (.faddF16Base f) .f16 .rne f.dst f.srcA f.srcB s
def execFmulF16Base (f : BaseF) (s : State) : Host.Outcome State Fault Refusal :=
  fmulOp (.fmulF16Base f) .f16 .rne f.dst f.srcA f.srcB s
def execFaddBf16Base (f : BaseF) (s : State) : Host.Outcome State Fault Refusal :=
  faddOp (.faddBf16Base f) .bf16 .rne f.dst f.srcA f.srcB s
def execFmulBf16Base (f : BaseF) (s : State) : Host.Outcome State Fault Refusal :=
  fmulOp (.fmulBf16Base f) .bf16 .rne f.dst f.srcA f.srcB s
def execHadd2F16Base (f : BaseF) (s : State) : Host.Outcome State Fault Refusal :=
  hadd2Op (.hadd2F16Base f) .f16 .rne f.dst f.srcA f.srcB s
def execHmul2F16Base (f : BaseF) (s : State) : Host.Outcome State Fault Refusal :=
  hmul2Op (.hmul2F16Base f) .f16 .rne f.dst f.srcA f.srcB s
def execHadd2Bf16Base (f : BaseF) (s : State) : Host.Outcome State Fault Refusal :=
  hadd2Op (.hadd2Bf16Base f) .bf16 .rne f.dst f.srcA f.srcB s
def execHmul2Bf16Base (f : BaseF) (s : State) : Host.Outcome State Fault Refusal :=
  hmul2Op (.hmul2Bf16Base f) .bf16 .rne f.dst f.srcA f.srcB s
def execFrndF32Base (f : BaseF) (s : State) : Host.Outcome State Fault Refusal :=
  frndOp (.frndF32Base f) false .f32 .rne f.dst f.srcB s
def execCvtF32I32Base (f : BaseF) (s : State) : Host.Outcome State Fault Refusal :=
  cvtOp (.cvtF32I32Base f) false (.std .f32) (.std .i32) .rne f.dst f.srcB s
def execCvtF32N32Base (f : BaseF) (s : State) : Host.Outcome State Fault Refusal :=
  cvtOp (.cvtF32N32Base f) false (.std .f32) (.std .n32) .rne f.dst f.srcB s
def execCvtI32F32Base (f : BaseF) (s : State) : Host.Outcome State Fault Refusal :=
  cvtOp (.cvtI32F32Base f) false (.std .i32) (.std .f32) .rz f.dst f.srcB s
def execCvtN32F32Base (f : BaseF) (s : State) : Host.Outcome State Fault Refusal :=
  cvtOp (.cvtN32F32Base f) false (.std .n32) (.std .f32) .rz f.dst f.srcB s
def execCvtF32F16Base (f : BaseF) (s : State) : Host.Outcome State Fault Refusal :=
  cvtOp (.cvtF32F16Base f) false (.std .f32) (.std .f16) .rne f.dst f.srcB s
def execCvtF16F32Base (f : BaseF) (s : State) : Host.Outcome State Fault Refusal :=
  cvtOp (.cvtF16F32Base f) false (.std .f16) (.std .f32) .rne f.dst f.srcB s
def execCvtF32Bf16Base (f : BaseF) (s : State) : Host.Outcome State Fault Refusal :=
  cvtOp (.cvtF32Bf16Base f) false (.std .f32) (.std .bf16) .rne f.dst f.srcB s
def execCvtBf16F32Base (f : BaseF) (s : State) : Host.Outcome State Fault Refusal :=
  cvtOp (.cvtBf16F32Base f) false (.std .bf16) (.std .f32) .rne f.dst f.srcB s
def execCvtF64F32Base (f : BaseF) (s : State) : Host.Outcome State Fault Refusal :=
  cvtOp (.cvtF64F32Base f) false (.std .f64) (.std .f32) .rne f.dst f.srcB s
def execCvtF32F64Base (f : BaseF) (s : State) : Host.Outcome State Fault Refusal :=
  cvtOp (.cvtF32F64Base f) false (.std .f32) (.std .f64) .rne f.dst f.srcB s
def execCvtI32I16Base (f : BaseF) (s : State) : Host.Outcome State Fault Refusal :=
  cvtOp (.cvtI32I16Base f) false (.std .i32) (.std .i16) .rne f.dst f.srcB s
def execCvtI32I8Base (f : BaseF) (s : State) : Host.Outcome State Fault Refusal :=
  cvtOp (.cvtI32I8Base f) false (.std .i32) (.std .i8) .rne f.dst f.srcB s
def execCvtN32N16Base (f : BaseF) (s : State) : Host.Outcome State Fault Refusal :=
  cvtOp (.cvtN32N16Base f) false (.std .n32) (.std .n16) .rne f.dst f.srcB s
def execCvtN32N8Base (f : BaseF) (s : State) : Host.Outcome State Fault Refusal :=
  cvtOp (.cvtN32N8Base f) false (.std .n32) (.std .n8) .rne f.dst f.srcB s

/-! ### The meanings: extended forms -/

def execFadd (h : Hdr) (ty : Ty) (rm : Rm) (d : Dst) (a b : Src) (s : State) : Host.Outcome State Fault Refusal :=
  faddOp (.fadd h ty rm d a b) ty rm d a b s
def execFmul (h : Hdr) (ty : Ty) (rm : Rm) (d : Dst) (a b : Src) (s : State) : Host.Outcome State Fault Refusal :=
  fmulOp (.fmul h ty rm d a b) ty rm d a b s
def execFfma (h : Hdr) (ty : Ty) (rm : Rm) (d : Dst) (a b c : Src) (s : State) : Host.Outcome State Fault Refusal :=
  ffmaOp (.ffma h ty rm d a b c) ty rm d a b c s
def execFmin (h : Hdr) (ty : Ty) (d : Dst) (a b : Src) (s : State) : Host.Outcome State Fault Refusal :=
  fminOp (.fmin h ty d a b) ty d a b s
def execFmax (h : Hdr) (ty : Ty) (d : Dst) (a b : Src) (s : State) : Host.Outcome State Fault Refusal :=
  fmaxOp (.fmax h ty d a b) ty d a b s
def execFcmp (h : Hdr) (op : FCmpOp) (ty : Ty) (pd : Nat) (a b : Src) (s : State) : Host.Outcome State Fault Refusal :=
  fcmpOp (.fcmp h op ty pd a b) op ty pd a b s
def execFrnd (h : Hdr) (x : Bool) (ty : Ty) (rm : Rm) (d : Dst) (b : Src) (s : State) : Host.Outcome State Fault Refusal :=
  frndOp (.frnd h x ty rm d b) x ty rm d b s
def execFrcp (h : Hdr) (rm : Rm) (d : Dst) (b : Src) (s : State) : Host.Outcome State Fault Refusal :=
  sfuOp (.frcp h rm d b) h d b (fun x => frcpVal rm (f32.decode x)) s
def execFrsq (h : Hdr) (d : Dst) (b : Src) (s : State) : Host.Outcome State Fault Refusal :=
  sfuOp (.frsq h d b) h d b frsqVal s
def execFsqrt (h : Hdr) (rm : Rm) (d : Dst) (b : Src) (s : State) : Host.Outcome State Fault Refusal :=
  sfuOp (.fsqrt h rm d b) h d b (fun x => fsqrtVal rm (f32.decode x)) s
def execFexp2 (h : Hdr) (d : Dst) (b : Src) (s : State) : Host.Outcome State Fault Refusal :=
  sfuOp (.fexp2 h d b) h d b fexp2Val s
def execFlog2 (h : Hdr) (d : Dst) (b : Src) (s : State) : Host.Outcome State Fault Refusal :=
  sfuOp (.flog2 h d b) h d b flog2Val s
def execFsin (h : Hdr) (d : Dst) (b : Src) (s : State) : Host.Outcome State Fault Refusal :=
  sfuOp (.fsin h d b) h d b (fsincosVal 5) s
def execFcos (h : Hdr) (d : Dst) (b : Src) (s : State) : Host.Outcome State Fault Refusal :=
  sfuOp (.fcos h d b) h d b (fsincosVal 6) s
def execFtanh (h : Hdr) (d : Dst) (b : Src) (s : State) : Host.Outcome State Fault Refusal :=
  sfuOp (.ftanh h d b) h d b ftanhVal s
def execHadd2 (h : Hdr) (ty : Ty) (rm : Rm) (d : Dst) (a b : Src) (s : State) : Host.Outcome State Fault Refusal :=
  hadd2Op (.hadd2 h ty rm d a b) ty rm d a b s
def execHmul2 (h : Hdr) (ty : Ty) (rm : Rm) (d : Dst) (a b : Src) (s : State) : Host.Outcome State Fault Refusal :=
  hmul2Op (.hmul2 h ty rm d a b) ty rm d a b s
def execHfma2 (h : Hdr) (ty : Ty) (rm : Rm) (d : Dst) (a b c : Src) (s : State) : Host.Outcome State Fault Refusal :=
  hfma2Op (.hfma2 h ty rm d a b c) ty rm d a b c s
def execHdot2 (h : Hdr) (ts : Ty) (rm : Rm) (d : Dst) (a b c : Src) (s : State) : Host.Outcome State Fault Refusal :=
  hdot2Op (.hdot2 h ts rm d a b c) ts rm d a b c s
def execDadd (h : Hdr) (rm : Rm) (d : Dst) (a b : Src) (s : State) : Host.Outcome State Fault Refusal :=
  dOp (.dadd h rm d a b) h d [a, b] (fun k t => f64.add rm (k.fval t .f64 a) (k.fval t .f64 b)) s
def execDmul (h : Hdr) (rm : Rm) (d : Dst) (a b : Src) (s : State) : Host.Outcome State Fault Refusal :=
  dOp (.dmul h rm d a b) h d [a, b] (fun k t => f64.mul rm (k.fval t .f64 a) (k.fval t .f64 b)) s
def execDfma (h : Hdr) (rm : Rm) (d : Dst) (a b c : Src) (s : State) : Host.Outcome State Fault Refusal :=
  dOp (.dfma h rm d a b c) h d [a, b, c] (fun k t => f64.fma rm (k.fval t .f64 a) (k.fval t .f64 b) (k.fval t .f64 c)) s
def execCvt (h : Hdr) (sat : Bool) (td ts : CTy) (rm : Rm) (d : Dst) (b : Src) (s : State) :
    Host.Outcome State Fault Refusal := cvtOp (.cvt h sat td ts rm d b) sat td ts rm d b s
def execPack (h : Hdr) (td ts : CTy) (rm : Rm) (k : Nat) (d : Dst) (a c : Src) (s : State) :
    Host.Outcome State Fault Refusal := packOp (.pack h td ts rm k d a c) td ts rm k d a c s
def execUnpack (h : Hdr) (td ts : CTy) (rm : Rm) (k : Nat) (d : Dst) (b : Src) (s : State) :
    Host.Outcome State Fault Refusal := unpackOp (.unpack h td ts rm k d b) td ts rm k d b s
def execNopExt (h : Hdr) (s : State) : Host.Outcome State Fault Refusal := nopOp (.nopExt h) s

end Sys2Proof.Machine
end

