-- ==== Sys2Proof/Machine/Lane.lean ====
section
/-! DEFINITION. Lane instructions (spec/07 R155..R161). -/
namespace Sys2Proof.Machine

/-! ### Gathering by a member mask (spec/07 R155, R156) -/

/-- The member set that a mask names in a warp: its live threads, or those at the positions of the mask. -/
def Block.members (k : Block) (wp : Nat) (m : Word) : List Nat :=
  (k.liveOf wp).filter fun t => m = 0 || m.getLsbD (laneOf t)

/-- The first thread whose whole member set has arrived. -/
def Block.gathered (k : Block) (pc : DWord) (m : Src) (bundle : List Nat) : Option Nat :=
  bundle.find? fun t => k.complete pc (k.members (warpOf t) (k.word t m))

/-- A lane instruction: gathers by the mask in `m`, then runs once for the participants. A gathering that is not complete
has no effect. An arrived thread whose mask names a participant takes part too, whether or not its mask names itself, so masks
that differ, and a mask that leaves its own thread out, raise CVSET in all of them (R156; log 14). -/
def laneIssue (i : Instr) (m : Src) (s : State) (body : Ctx → State → State) : Host.Outcome State Fault Refusal :=
  match uses i with
  | none => finish s
  | some f =>
    let c := s.ctxOf false
    let k := s.blk c.b
    match k.gathered c.pc m c.bundle with
    | none => finish s
    | some t =>
      let parts := k.members c.wp (k.word t m)
      let near := (k.liveOf c.wp).filter fun x =>
        x = t || (k.arrived c.pc x && (k.members c.wp (k.word x m)).any parts.contains)
      if near.any fun x => k.word x m ≠ k.word t m || !parts.contains x then finish (s.raiseAll c.b near c.pc cCVSET .free)
      else
        let exe := parts.filter fun x => (k.thr x).guard f.h
        let bad := exe.filter fun x => k.hazardous x c.wp (touches i f ++ k.tcNames c.wp i)
        let s := s.raiseAll c.b bad c.pc cLAHEAD .free
        let ok := exe.filter fun x => !bad.contains x
        let s := s.advance c.b (parts.filter fun x => !exe.contains x) c.next
        finish (if ok = [] then s else body { c with bundle := parts, exe := ok } s)

/-- Tag of a lane result: U when every source is and the values agree (spec/07 R131; log 14). -/
def laneTag (srcs : List (Nat × Src)) (k : Block) (wp : Nat) (vals : List Nat) : Tag :=
  if tagOf srcs k wp = .u && vals.all (fun x => x = vals.headD 0) then .u else .g

/-- Mask of the positions of threads. -/
def maskOf (ts : List Nat) : Nat := ts.foldl (fun m t => m + 2 ^ laneOf t) 0

/-! ### Values -/

/-- The source position of a SHFL, when it lies in the segment (spec/07 R158). -/
def shflFrom (op : ShflOp) (seg q : Nat) (b : Word) : Option Nat :=
  let w := 2 ^ seg
  let g := q - q % w
  let o := q % w
  match op with
  | .pick => some (g + b.toNat % w)
  | .rot => some (g + (o + b.toNat) % w)
  | .flip => some (g + (o ^^^ (b.toNat % w)))
  | .slide =>
    let x : Int := (o : Int) + b.toInt
    if 0 ≤ x ∧ x < w then some (g + x.toNat) else none

/-- One combine of the tree of spec/05 R101. -/
def combine (f : Nat → Nat → Res) (a b : Option Nat) : Option Nat × Flags :=
  match a, b with
  | some x, some y => let r := f x y; (some r.1, r.2)
  | some x, none => (some x, 0)
  | none, y => (y, 0)

/-- One level of the tree: adjacent pairs. -/
def treeLevel (f : Nat → Nat → Res) : List (Option Nat) → List (Option Nat) × Flags
  | a :: b :: rest =>
    let r := combine f a b
    let t := treeLevel f rest
    (r.1 :: t.1, r.2 ||| t.2)
  | l => (l, 0)

/-- `n` levels. -/
def tree (f : Nat → Nat → Res) : Nat → List (Option Nat) → List (Option Nat) × Flags
  | 0, l => (l, 0)
  | n + 1, l =>
    let r := treeLevel f l
    let t := tree f n r.1
    (t.1, r.2 ||| t.2)

/-- A float REDUX over positions: NaNs made canonical first (spec/05 R101). -/
def reduxF32 (op : ReduxOp) (rm : Rm) (leaf : Nat → Option Nat) : Res :=
  let canon := fun x : Nat => let v := f32.decode x; if v.isNan then (f32.canonNan, when v.isSnan fNV) else (x, 0)
  let leaves := (List.range 32).map leaf
  let fl := leaves.foldl (fun fl x => match x with
    | some x => fl ||| (canon x).2
    | none => fl) (0 : Flags)
  let f : Nat → Nat → Res := match op with
    | .min => f32.minmax false
    | .max => f32.minmax true
    | _ => fun x y => f32.add rm (f32.decode x) (f32.decode y)
  let r := tree f 5 (leaves.map fun x => x.map fun x => (canon x).1)
  ((r.1.headD none).getD 0, fl ||| r.2)

/-- An integer REDUX. -/
def reduxInt (op : ReduxOp) (ty : Ty) (xs : List Nat) : Nat :=
  match xs with
  | [] => 0
  | x :: rest =>
    match op with
    | .add => ty.write (rest.foldl (fun z y => z + ty.read y) (ty.read x))
    | .min => ty.write (rest.foldl (fun z y => min z (ty.read y)) (ty.read x))
    | .max => ty.write (rest.foldl (fun z y => max z (ty.read y)) (ty.read x))
    | .and => rest.foldl (· &&& ·) x
    | .or => rest.foldl (· ||| ·) x
    | .xor => rest.foldl (· ^^^ ·) x

/-- PRMT (spec/07 R161). -/
def prmtByte (y e : Nat) : Nat :=
  let x := y / 256 ^ (e % 8) % 256
  let b :=
    match e / 8 % 4 with
    | 0 => x
    | 1 => 0
    | 2 => if 128 ≤ x then 255 else 0
    | _ => brev 8 x
  if e / 32 % 2 = 1 then 255 - b else b
def prmt (a b c : Nat) : Nat :=
  (List.range 4).foldl (fun r k => r + prmtByte (a * 2 ^ 32 + b) (c / 64 ^ k % 64) * 256 ^ k) 0

/-! ### The meanings -/

def execShfl (h : Hdr) (op : ShflOp) (seg : Nat) (d : Dst) (a b m : Src) (s : State) : Host.Outcome State Fault Refusal :=
  laneIssue (.shfl h op seg d a b m) m s fun c s =>
    let k := s.blk c.b
    let val := fun t : Nat =>
      match shflFrom op seg (laneOf t) (k.word t b) with
      | some q => if c.exe.contains (c.wp * 32 + q) then k.num (c.wp * 32 + q) 1 a else 0
      | none => 0
    let tag := laneTag [(1, a), (1, b), (1, m)] k c.wp (c.exe.map val)
    (s.put c 1 d (fun t => BitVec.ofNat 128 (val t)) tag).advance c.b c.exe c.next

def execBallot (h : Hdr) (d : Dst) (pa : Nat) (m : Src) (s : State) : Host.Outcome State Fault Refusal :=
  laneIssue (.ballot h d pa m) m s fun c s =>
    let k := s.blk c.b
    let r := maskOf (c.exe.filter fun t => (k.thr t).pred pa)
    (s.put c 1 d (fun _ => BitVec.ofNat 128 r) .u).advance c.b c.exe c.next

def execVote (h : Hdr) (op : VoteOp) (pd pa : Nat) (m : Src) (s : State) : Host.Outcome State Fault Refusal :=
  laneIssue (.vote h op pd pa m) m s fun c s =>
    let k := s.blk c.b
    let ps := c.exe.map fun t => (k.thr t).pred pa
    let r : Bool :=
      match op with
      | .all => ps.all id
      | .any => ps.any id
      | .uni => ps.all id || !ps.any id
    (s.putPred c pd fun _ => r).advance c.b c.exe c.next

def execMatchLanes (h : Hdr) (w64 : Bool) (d : Dst) (a m : Src) (s : State) : Host.Outcome State Fault Refusal :=
  laneIssue (.matchLanes h w64 d a m) m s fun c s =>
    let k := s.blk c.b
    let w := (nTy w64).regs
    let val := fun t : Nat => maskOf (c.exe.filter fun x => k.num x w a = k.num t w a)
    let tag := laneTag [(w, a), (1, m)] k c.wp (c.exe.map val)
    (s.put c 1 d (fun t => BitVec.ofNat 128 (val t)) tag).advance c.b c.exe c.next

def execRedux (h : Hdr) (op : ReduxOp) (ty : Ty) (rm : Rm) (d : Dst) (a m : Src) (s : State) :
    Host.Outcome State Fault Refusal :=
  laneIssue (.redux h op ty rm d a m) m s fun c s =>
    let k := s.blk c.b
    let r : Res :=
      if ty = .f32 then
        reduxF32 op rm fun q => if c.exe.contains (c.wp * 32 + q) then some (k.num (c.wp * 32 + q) 1 a) else none
      else (reduxInt op ty (c.exe.map fun t => k.num t ty.regs a), 0)
    let s := s.put c ty.regs d (fun _ => BitVec.ofNat 128 r.1) .u
    (s.orFlags c.b c.wp r.2).advance c.b c.exe c.next

def execPrmt (h : Hdr) (d : Dst) (a b c : Src) (s : State) : Host.Outcome State Fault Refusal :=
  alu (.prmt h d a b c) s 1 d (tagOf [(1, a), (1, b), (1, c)]) fun k t =>
    (prmt (k.num t 1 a) (k.num t 1 b) (k.num t 1 c), 0)

end Sys2Proof.Machine
end

