-- ==== Sys2Proof/Machine/Tile.lean ====
section
/-! DEFINITION. Tile control registers and the instructions on a warp's own tiles; CVINIT (spec/06 R105..R108; spec/08
R169, R179..R182). -/
namespace Sys2Proof.Machine

/-! ### Tile control registers (spec/06 R106, R107) -/

/-- The fields of a tile control register; `cw` is the container width in bits, 0 for an invalid code. -/
structure Tcf where
  rows : Nat
  cols : Nat
  cw : Nat
  fmt : Nat
  exp : Int
  scm : Nat
  sblk : Nat
  stile : Nat
  reserved : Bool
  deriving DecidableEq, Repr

def Tcf.of (x : DWord) : Tcf :=
  { rows := bits64 x 6 0
    cols := if bits64 x 14 8 = 0 then 128 else bits64 x 14 8
    cw := match bits64 x 17 15 with
      | 1 => 4
      | 2 => 8
      | 3 => 16
      | _ => 0
    fmt := bits64 x 22 18
    exp := (BitVec.ofNat 8 (bits64 x 31 24)).toInt
    scm := bits64 x 33 32
    sblk := bits64 x 36 34
    stile := bits64 x 40 37
    reserved := bits64 x 63 41 ≠ 0 || bitAt x 23 || bitAt x 7 }

/-- FMT names a format that CW fits; `fd` gives the narrow-format entries. -/
def Tcf.fmtOk (f : Tcf) (fd : Nat → Word) : Bool :=
  f.cw ≠ 0 && (if f.fmt < 16 then (Narrow.of (fd f.fmt)).valid && f.cw = containerBits (fd f.fmt)
    else decide (f.fmt ≤ 18) && f.cw = 16)
/-- Validity of R107, with the warp's tile allotment. -/
def Tcf.valid (f : Tcf) (fd : Nat → Word) (allot : Nat) : Bool :=
  decide (1 ≤ f.rows) && decide (f.rows ≤ 64) && !f.reserved && f.scm ≠ 3 && decide (f.cols * f.cw ≤ 512) && f.fmtOk fd &&
    (f.scm = 0 || (decide (f.fmt ≤ 15) && decide (4 ≤ f.sblk) && decide (f.sblk ≤ 6))) &&
    (f.scm ≠ 2 || decide (f.stile < allot))

def Block.tcf (k : Block) (wp n : Nat) : Tcf := Tcf.of (k.tc wp n)
def Block.tcValid (k : Block) (wp n : Nat) : Bool := (k.tcf wp n).valid (k.fd wp) (k.warp wp).tiles

/-! ### Elements (spec/05 R90; spec/06 R105, R108) -/

/-- Element c of a row of bytes. -/
def rowElem (cw : Nat) (row : List Byte) (c : Nat) : Nat :=
  if cw = 4 then ((row[c / 2]?).getD 0).toNat / 16 ^ (c % 2) % 16
  else if cw = 8 then ((row[c]?).getD 0).toNat
  else leNat [(row[2 * c]?).getD 0, (row[2 * c + 1]?).getD 0]
/-- Two codes to a byte, low half first. -/
def pairNibbles : List Nat → List Byte
  | a :: b :: rest => BitVec.ofNat 8 (a % 16 + b % 16 * 16) :: pairNibbles rest
  | [a] => [BitVec.ofNat 8 (a % 16)]
  | [] => []
/-- The bytes of a row of codes. -/
def packRow (cw : Nat) (codes : List Nat) : List Byte :=
  if cw = 4 then pairNibbles codes else codes.flatMap (leBytes (cw / 8))
/-- Zero-fills a row to 64 bytes. -/
def fillRow (bs : List Byte) : List Byte := (bs ++ List.replicate 64 0).take 64

def Block.tileRow (k : Block) (wp t r : Nat) : List Byte := k.tileBytes wp t (64 * r) 64
/-- The codes of the elements of a tile, row by row. -/
def Block.codes (k : Block) (wp t : Nat) (f : Tcf) : List (List Nat) :=
  (List.range f.rows).map fun r =>
    let row := k.tileRow wp t r
    (List.range f.cols).map fun c => rowElem f.cw row c

/-- The value of a code under FMT. -/
def Tcf.decode (f : Tcf) (fd : Nat → Word) (x : Nat) : FVal :=
  if f.fmt = 16 then bf16.decode x else if f.fmt = 17 then f16.decode x else if f.fmt = 18 then intVal (Ty.i16.read x)
  else (Narrow.of (fd f.fmt)).decode x
/-- Delivers a value under FMT (spec/05 R92..R94). -/
def Tcf.encode (f : Tcf) (fd : Nat → Word) (rm : Rm) (v : FVal) : Nat × Flags :=
  if f.fmt = 16 then bf16.deliver rm v else if f.fmt = 17 then f16.deliver rm v
  else if f.fmt = 18 then
    let r := toIntRange rm Ty.i16.lo Ty.i16.hi v
    (modPow r.1 16, r.2)
  else (Narrow.of (fd f.fmt)).deliver rm v

/-- The scale codes of a row: none without scales; from the side store, or from the scale tile. -/
def Block.scaleCodes (k : Block) (wp t : Nat) (f : Tcf) (r : Nat) : Option (List Byte) :=
  if f.scm = 1 then some (k.sideBytes wp t (8 * r) 8) else if f.scm = 2 then some (k.tileBytes wp f.stile (64 * r) 8) else none
/-- The scale of element c: none for a NaN, else its exponent. -/
def scaleExp (f : Tcf) (codes : Option (List Byte)) (c : Nat) : Option Int :=
  match codes with
  | none => some 0
  | some bs =>
    let s := (bs[c / 2 ^ f.sblk]?).getD 0
    if s = 0xFF then none else some ((s.toNat : Int) - 127)
/-- x × σ × 2^n, exact; a NaN scale gives a NaN. -/
def FVal.scaled (x : FVal) (scale : Option Int) (n : Int) : FVal :=
  match x, scale with
  | .nan s, _ => .nan s
  | _, none => .nan false
  | .fin s m e, some g => .fin s m (e + g + n)
  | x, some _ => x

/-! ### Instructions on a warp's tiles -/

/-- ILL with a reason for a list of threads. -/
def State.illAll (s : State) (b : Nat) (ts : List Nat) (pc : DWord) (w0 : Word) (reason : Nat) : State :=
  s.raiseAll b ts pc cILL (.all (BitVec.ofNat 64 (w0.toNat + reason * 2 ^ 32)))

/-- A warp-local tile instruction: allotment, the gathering of the warp's live threads, the check of its tile control
registers, and one operation (spec/08 R179). -/
def tileIssue (i : Instr) (tiles : List Nat) (check : Block → Nat → Bool) (s : State) (body : Ctx → State → State) :
    Host.Outcome State Fault Refusal :=
  let c := s.ctxOf false
  let k := s.blk c.b
  if tiles.any fun t => (k.warp c.wp).tiles ≤ t then finish (s.ill 7)
  else if !k.complete c.pc (k.liveOf c.wp) then finish s
  else if !check k c.wp then finish (s.illAll c.b (k.liveOf c.wp) c.pc s.sel.w0 0xB)
  else laneIssue i .zero s body

/-- Writes rows to a tile, zero-filling it, and clears its side store. -/
def Block.putRows (k : Block) (wp t : Nat) (rows : List (List Byte)) : Block :=
  let bytes := (List.range 64).flatMap fun r => fillRow ((rows[r]?).getD [])
  (k.setTile wp t 0 bytes).setSide wp t 0 (List.replicate 512 0)
/-- Sets ROWS and COLS of a tile control register. -/
def withShape (x : DWord) (rows cols : Nat) : DWord := setBits64 (setBits64 x 6 0 rows) 14 8 (cols % 128)

def execTzero (h : Hdr) (t : Nat) (s : State) : Host.Outcome State Fault Refusal :=
  tileIssue (.tzero h t) [t] (fun _ _ => true) s fun c s =>
    (s.updBlk c.b fun k => k.putRows c.wp t []).advance c.b c.exe c.next

def execTmov (h : Hdr) (d a : Nat) (s : State) : Host.Outcome State Fault Refusal :=
  tileIssue (.tmov h d a) [d, a] (fun _ _ => true) s fun c s =>
    (s.updBlk c.b fun k => (k.setTile c.wp d 0 (k.tileBytes c.wp a 0 4096)).setSide c.wp d 0 (k.sideBytes c.wp a 0 512)).advance
      c.b c.exe c.next

/-- What TXPOSE asks of its source (spec/08 R180). -/
def txposeOk (a : Nat) (k : Block) (wp : Nat) : Bool :=
  let f := k.tcf wp a
  k.tcValid wp a && f.scm = 0 && decide (f.cols ≤ 64) && decide (f.rows * f.cw ≤ 512)
def execTxpose (h : Hdr) (d a : Nat) (s : State) : Host.Outcome State Fault Refusal :=
  tileIssue (.txpose h d a) [d, a] (txposeOk a) s fun c s =>
    let s := s.updBlk c.b fun k =>
      let f := k.tcf c.wp a
      let codes := k.codes c.wp a f
      let rows := (List.range f.cols).map fun j => packRow f.cw (codes.map fun row => (row[j]?).getD 0)
      (k.putRows c.wp d rows).setTc c.wp d (withShape (k.tc c.wp a) f.cols f.rows)
    s.advance c.b c.exe c.next

/-- What TCVT asks of its source and of the fields of its destination (spec/08 R181). -/
def tcvtOk (d a : Nat) (k : Block) (wp : Nat) : Bool :=
  let f := k.tcf wp a
  let g := k.tcf wp d
  k.tcValid wp a && !g.reserved && g.scm = 0 && g.fmtOk (k.fd wp) && decide (f.cols * g.cw ≤ 512)
/-- The rows that TCVT writes, with its flags. -/
def Block.tcvt (k : Block) (wp d a : Nat) (rm : Rm) : List (List Byte) × Flags :=
  let f := k.tcf wp a
  let g := k.tcf wp d
  let rows := (List.range f.rows).map fun r =>
    let row := k.tileRow wp a r
    let sc := k.scaleCodes wp a f r
    (List.range f.cols).map fun j =>
      g.encode (k.fd wp) rm ((f.decode (k.fd wp) (rowElem f.cw row j)).scaled (scaleExp f sc j) (f.exp - g.exp))
  (rows.map fun row => packRow g.cw (row.map (·.1)), rows.foldl (fun fl row => row.foldl (fun fl x => fl ||| x.2) fl) 0)
def execTcvt (h : Hdr) (rm : Rm) (d a : Nat) (s : State) : Host.Outcome State Fault Refusal :=
  tileIssue (.tcvt h rm d a) [d, a] (tcvtOk d a) s fun c s =>
    let k := s.blk c.b
    let f := k.tcf c.wp a
    let r := k.tcvt c.wp d a rm
    let s := s.updBlk c.b fun k => (k.putRows c.wp d r.1).setTc c.wp d (withShape (k.tc c.wp d) f.rows f.cols)
    (s.orFlags c.b c.wp r.2).advance c.b c.exe c.next

/-- Bits of a tile control register that MOVTC writes (spec/06 R106; spec/08 R182). -/
def tcMask : DWord := 0x000001FFFF7FFF7F
def execMovtc (h : Hdr) (tc : Nat) (b : Src) (s : State) : Host.Outcome State Fault Refusal :=
  let c := s.ctxOf true
  if ((s.blk c.b).warp c.wp).tiles ≤ tc then finish (s.ill 7)
  else issue (.movtc h tc b) s fun c s =>
    (s.updBlk c.b fun k => k.setTc c.wp tc (k.pair c.lead b &&& tcMask)).advance c.b c.exe c.next
/-- RDTC reads a tile control register whether or not it is valid: its entry has no check of R107 (spec/08 R182, R187; DEDUCED, log
51). -/
def execRdtc (h : Hdr) (d : Dst) (tc : Nat) (s : State) : Host.Outcome State Fault Refusal :=
  let c := s.ctxOf true
  if ((s.blk c.b).warp c.wp).tiles ≤ tc then finish (s.ill 7)
  else issue (.rdtc h d tc) s fun c s =>
    (s.put c 2 d (fun _ => ((s.blk c.b).tc c.wp tc).setWidth 128) .u).advance c.b c.exe c.next

/-! ### CVINIT (spec/08 R169) -/

/-- A set of threads as bits. -/
def setOf (ts : List Nat) : BitVec 1024 := ts.foldl (fun m t => m ||| (1#1024 <<< t)) 0
/-- The live threads that a declaration names; none when its group is not defined. -/
def Block.declared (k : Block) (wp t : Nat) : CvKind → Option (List Nat)
  | .group g => if (k.groups[g]?).getD 0 = 0 then none else some (k.groupThreads g)
  | .warp => some (k.liveOf wp)
  | .mask b => some ((k.liveOf wp).filter fun x => (k.word t b).getLsbD (laneOf x))
def kindCode : CvKind → BitVec 2
  | .group _ => 1
  | .warp => 2
  | .mask _ => 3
/-- Do the warps of a set lie on one partition? -/
def Block.onePart (k : Block) (ts : List Nat) : Bool := ts.all fun t => k.partOf (warpOf t) = k.partOf (warpOf (ts.headD 0))

def execCvinit (h : Hdr) (n : Nat) (kind : CvKind) (s : State) : Host.Outcome State Fault Refusal :=
  issue (.cvinit h n kind) s fun c s =>
    let k := s.blk c.b
    match k.declared c.wp c.lead kind with
    | none => s.raiseAll c.b c.exe c.pc cCVSET .free
    | some ts =>
      if ts = [] || !k.onePart ts || (k.kreg n).signed ≠ 0 then s.raiseAll c.b c.exe c.pc cCVSET .free
      else
        let r : KReg := { kind := kindCode kind, set := setOf ts, anchor := warpOf (ts.headD 0) }
        (s.updBlk c.b fun k => k.setKreg n r).advance c.b c.exe c.next

end Sys2Proof.Machine
end

