-- ==== Sys2Proof/Machine/Matrix.lean ====
section
/-! DEFINITION. The squarer array: alignment, accumulation, cell values and their delivery (spec/06 R103..R119). -/
namespace Sys2Proof.Machine

/-! ### Alignment (spec/06 R109) -/

/-- Kinds of an aligned element; an absent one has none. -/
inductive ElemKind where
  | nan | inf | zero | finite
  deriving DecidableEq, Repr

/-- An element in the array: its integer, its kind and its sign. -/
structure Elem where
  v : Int := 0
  kind : Option ElemKind := none
  neg : Bool := false
  deriving DecidableEq, Repr

/-- Align(x, σ, e) with the range L; `scale` is the exponent of σ, none for a NaN. -/
def align (lo hi : Int) (x : FVal) (scale : Option Int) (e : Int) : Elem × Flags :=
  let nv := when x.isSnan fNV
  match x, scale with
  | .nan _, _ => ({ kind := some .nan }, nv)
  | _, none => ({ kind := some .nan }, 0)
  | .inf n, _ => ({ kind := some .inf, neg := n }, 0)
  | .zero n, _ => ({ kind := some .zero, neg := n }, 0)
  | .fin n m q, some g =>
    let (mag, inexact) := roundAt .rne n m (q + g - e) false 0
    let z : Int := if n then -(mag : Int) else mag
    ({ v := max lo (min hi z), kind := some .finite, neg := n }, when (inexact || decide (z < lo) || decide (hi < z)) fAL)

/-- The aligned rows of a tile: 64 rows of K elements, absent at or above ROWS, and the flags. -/
def Block.aligned (k : Block) (wp t : Nat) (lo hi e : Int) : List (List Elem) × Flags :=
  let f := k.tcf wp t
  let rows := (List.range 64).map fun r =>
    if r < f.rows then
      let row := k.tileRow wp t r
      let sc := k.scaleCodes wp t f r
      (List.range f.cols).map fun j => align lo hi (f.decode (k.fd wp) (rowElem f.cw row j)) (scaleExp f sc j) e
    else List.replicate f.cols ({}, 0)
  (rows.map fun row => row.map (·.1), rows.foldl (fun fl row => row.foldl (fun fl x => fl ||| x.2) fl) 0)

/-! ### Accumulation (spec/06 R110..R113) -/

/-- SatAdd: the sum and whether it saturated. -/
def satAdd (x : Nat × Bool) (d : Nat) : Nat × Bool := if x.1 + d ≤ 2 ^ 53 then (x.1 + d, x.2) else (2 ^ 53, true)

/-- Special-state bits PINF 1, NINF 2, NAN 4 of a product, and its flags. -/
def special (a b : Elem) : BitVec 3 × Flags :=
  match a.kind, b.kind with
  | none, _ | _, none => (0, 0)
  | some x, some y =>
    if x = .nan ∨ y = .nan then (4, 0)
    else if (x = .inf ∧ y = .zero) ∨ (x = .zero ∧ y = .inf) then (4, fNV)
    else if x = .inf ∨ y = .inf then (if a.neg = b.neg then (1, 0) else (2, 0))
    else (0, 0)

/-- One cell over the K steps of an MMA. -/
structure Cell where
  s : Nat
  ss : Bool
  sp : BitVec 3
  fl : Flags
  deriving DecidableEq, Repr
def Cell.step (c : Cell) (ab : Elem × Elem) : Cell :=
  let t := satAdd (c.s, c.ss) ((ab.1.v + ab.2.v).natAbs ^ 2)
  let q := special ab.1 ab.2
  let sp := c.sp ||| q.1
  let both := sp &&& 3 = 3 && c.sp &&& 3 ≠ 3
  { s := t.1, ss := t.2, sp := sp,
    fl := c.fl ||| q.2 ||| when both fNV ||| when (decide (2 ^ 53 < c.s + (ab.1.v + ab.2.v).natAbs ^ 2)) fSA }

/-- A correction sum over the K steps. -/
def correct (x : Nat × Bool) (es : List Elem) : (Nat × Bool) × Flags :=
  let r := es.foldl (fun (y : (Nat × Bool) × Flags) e =>
    (satAdd y.1 (e.v.natAbs ^ 2), y.2 ||| when (decide (2 ^ 53 < y.1.1 + e.v.natAbs ^ 2)) fSA)) (x, 0)
  r

/-- MMA on an accumulator: EA and EB are captured by the first one. -/
def Block.mma (k : Block) (wp a b : Nat) (acc : Acc) : Acc × Flags :=
  let fa := k.tcf wp a
  let fb := k.tcf wp b
  let acc := if acc.capt then acc else { acc with ea := BitVec.ofInt 8 fa.exp, eb := BitVec.ofInt 8 fb.exp, capt := true }
  let small := fa.cw = 4 && fb.cw = 4
  let lo : Int := if small then -128 else -32768
  let hi : Int := if small then 127 else 32767
  let (xs, f1) := k.aligned wp a lo hi acc.ea.toInt
  let (ys, f2) := k.aligned wp b lo hi acc.eb.toInt
  let cellAt := fun (z : Acc × Flags) (i j : Nat) (row col : List Elem) =>
    let key := 64 * i + j
    let c0 : Cell := { s := (z.1.s.get 0 key).toNat, ss := z.1.ss.get false key, sp := z.1.sp.get 0 key, fl := z.2 }
    let c := (row.zip col).foldl Cell.step c0
    ({ z.1 with s := z.1.s.set 0 key (BitVec.ofNat 56 c.s), ss := z.1.ss.set false key c.ss,
                sp := z.1.sp.set 0 key c.sp }, c.fl)
  let z := (xs.zipIdx).foldl (fun z x => (ys.zipIdx).foldl (fun z y => cellAt z x.2 y.2 x.1 y.1) z) (acc, f1 ||| f2)
  let z := (xs.zipIdx).foldl
    (fun (z : Acc × Flags) x =>
      let r := correct ((z.1.ra.get 0 x.2).toNat, z.1.raSat.get false x.2) x.1
      ({ z.1 with ra := z.1.ra.set 0 x.2 (BitVec.ofNat 56 r.1.1), raSat := z.1.raSat.set false x.2 r.1.2 }, z.2 ||| r.2)) z
  (ys.zipIdx).foldl
    (fun (z : Acc × Flags) y =>
      let r := correct ((z.1.cb.get 0 y.2).toNat, z.1.cbSat.get false y.2) y.1
      ({ z.1 with cb := z.1.cb.set 0 y.2 (BitVec.ofNat 56 r.1.1), cbSat := z.1.cbSat.set false y.2 r.1.2 }, z.2 ||| r.2)) z

/-! ### Cell values (spec/06 R114, R115) -/

/-- S − RA − CB of a cell. -/
def Acc.diff (a : Acc) (i j : Nat) : Int :=
  ((a.s.get 0 (64 * i + j)).toNat : Int) - (a.ra.get 0 i).toNat - (a.cb.get 0 j).toNat
/-- P of a cell that is not saturated. -/
def Acc.p (a : Acc) (i j : Nat) : Int := a.diff i j / 2
def Acc.saturated (a : Acc) (i j : Nat) : Bool := a.ss.get false (64 * i + j) || a.raSat.get false i || a.cbSat.get false j

/-- What a drain finds in a cell: saturated with the sign of its difference, or a value. -/
inductive CellV where
  | sat (neg : Bool)
  | val (v : FVal)
  deriving DecidableEq, Repr

/-- An exact product by IEEE 754 with its flags. -/
def FVal.times (a b : FVal) : FVal × Flags :=
  let nv := when (a.isSnan || b.isSnan) fNV
  match a, b with
  | .nan _, _ | _, .nan _ => (.nan false, nv)
  | .inf _, .zero _ | .zero _, .inf _ => (.nan false, fNV)
  | .inf n, y => (.inf (n != y.neg), 0)
  | x, .inf n => (.inf (x.neg != n), 0)
  | .zero n, y => (.zero (n != y.neg), 0)
  | x, .zero n => (.zero (x.neg != n), 0)
  | .fin n m e, .fin n' m' e' => (.fin (n != n') (m * m') (e + e'), 0)

def FVal.finite (v : FVal) : Bool := !v.isNan && !v.isInf

/-- CellValue(i, j) with its row and column scale. -/
def Acc.value (a : Acc) (i j : Nat) (ra cb : FVal) : CellV × Flags :=
  let sp := a.sp.get 0 (64 * i + j)
  let nan := sp.getLsbD 2 || (sp.getLsbD 0 && sp.getLsbD 1)
  if !nan && !sp.getLsbD 0 && !sp.getLsbD 1 && a.saturated i j then (.sat (a.diff i j < 0), 0)
  else
    let e : Int := if a.capt then a.ea.toInt + a.eb.toInt else 0
    let v : FVal :=
      if nan then .nan false
      else if sp.getLsbD 0 then .inf false
      else if sp.getLsbD 1 then .inf true
      else Dyadic.val { z := if a.capt then a.p i j else 0, e := e }
    if v.isZero && ra.finite && cb.finite then (.val (.zero false), 0)
    else
      let x := v.times ra
      let y := x.1.times cb
      (.val y.1, x.2 ||| y.2)

/-! ### Delivery (spec/06 R116) -/

/-- Bits of a drained element. -/
def drainBits (fd : Nat → Word) : DrainTy → Nat
  | .f32 | .i32 => 32
  | .f16 | .bf16 => 16
  | .x64 => 64
  | .fd n => containerBits (fd n)

/-- Deliver of a cell value into a destination that is not X64. -/
def deliverCell (td : DrainTy) (d : Narrow) (rm : Rm) (v : CellV) : Nat × Flags :=
  match td, v with
  | .f32, .val x => f32.deliver rm x
  | .f32, .sat _ => (f32.canonNan, 0)
  | .f16, .val x => f16.deliver rm x
  | .f16, .sat _ => (f16.canonNan, 0)
  | .bf16, .val x => bf16.deliver rm x
  | .bf16, .sat _ => (bf16.canonNan, 0)
  | .fd _, .val x => d.deliver rm x
  | .fd _, .sat n => if d.e = 0 then (modPow (if n then d.lo else d.hi) d.w, 0) else d.deliver rm (.nan false)
  | .x64, _ => (0, 0)
  | .i32, .val x =>
    let r := toIntRange rm Ty.i32.lo Ty.i32.hi x
    (modPow r.1 32, r.2)
  | .i32, .sat n => (modPow (if n then Ty.i32.lo else Ty.i32.hi) 32, 0)
/-- What X64 writes or adds, with its flags: P, or 0 for a special or saturated cell. -/
def Acc.x64 (a : Acc) (i j : Nat) : Nat × Flags :=
  if a.sp.get 0 (64 * i + j) ≠ 0 then (0, fNV)
  else if a.saturated i j then (0, 0)
  else (modPow (if a.capt then a.p i j else 0) 64, 0)

/-! ### Block scales of a narrow drain (spec/06 R117) -/

/-- The exponent of the largest binade of a format's finite values. -/
def Narrow.topBinade (d : Narrow) : Int :=
  if d.e = 0 then log2Of (max d.hi (-d.lo)).natAbs (-d.bias) else d.fmt.emax
/-- The scale code of a block of cells. -/
def blockScale (d : Narrow) (vs : List CellV) : Nat :=
  let logs := vs.filterMap fun v => match v with
    | .val (.fin _ m e) => some (log2Of m e)
    | _ => none
  match logs with
  | [] => 127
  | l :: ls => (max 0 (min 254 ((ls.foldl max l) - d.topBinade + 127))).toNat
/-- A cell value divided by a block's scale. -/
def CellV.unscaled (v : CellV) (s : Nat) : CellV :=
  match v with
  | .val x => .val (x.scaled (some 0) (127 - (s : Int)))
  | v => v

end Sys2Proof.Machine
end

