-- ==== Sys2Proof/Machine/Converge.lean ====
section
/-! DEFINITION. Convergence-issued instructions: signing, issue, and the operations TLD, TST, MMA, MDRAIN and MCLR
(spec/08 R168..R178, R183..R186; spec/06 R117, R126). -/
namespace Sys2Proof.Machine

/-! ### Names of a convergence-issued instruction -/

/-- The convergence register that an instruction names in field C. -/
def convReg : Instr → Option Nat
  | .tld _ _ _ _ n _ | .tst _ _ _ _ n _ | .mma _ _ _ _ n | .mdrain _ _ _ _ _ n | .mclr _ _ n => some n
  | _ => none
/-- The scalar operand values that a signer captures, low part first (R171). -/
def Block.convVal (k : Block) (t : Nat) : Instr → QWord
  | .tld _ _ a b _ _ | .tst _ _ a b _ _ => (k.word t b).setWidth 64 ++ k.pair t a
  | .mdrain _ m _ a b _ => k.pair t b ++ (if m.sp then (k.word t a).setWidth 64 else k.pair t a)
  | _ => 0
/-- Tiles that the allotment check of R172 looks at. -/
def convTiles : Instr → List Nat
  | .tld _ t _ _ _ _ | .tst _ t _ _ _ _ => [t]
  | .mma _ _ a b _ => [a, b]
  | .mdrain _ m _ _ _ _ => if m.rs || m.cs then [m.stile] else []
  | _ => []
def convAccs : Instr → List Nat
  | .mma _ c _ _ _ | .mdrain _ _ c _ _ _ | .mclr _ c _ => [c]
  | _ => []
/-- Are all names allotted to the anchor warp? -/
def Block.convNamed (k : Block) (wp : Nat) (i : Instr) : Bool :=
  (convTiles i).all (fun t => decide (t < (k.warp wp).tiles)) && (convAccs i).all fun c => decide (c < (k.warp wp).acc)
/-- The hazard set of a pending convergence-issued instruction but for the narrow-format entry of a TLD (spec/03 R60). TST and
MCLR have none, and are not long-latency (R58). -/
def Block.convHazard (k : Block) (wp : Nat) (i : Instr) (p : Pending) : Pending :=
  match i with
  | .tld _ t _ _ _ _ => { p with tiles := [t], tcs := [t] }
  | .mma _ c a b _ =>
    let sc := [a, b].filterMap fun t => if bits64 (k.tc wp t) 33 32 = 2 then some (bits64 (k.tc wp t) 40 37) else none
    { p with tiles := [a, b] ++ sc, tcs := [a, b], accs := [c] }
  | .mdrain _ _ c _ _ _ => { p with tiles := convTiles i, accs := [c] }
  | _ => { p with long := false }

/-! ### Rows of memory (spec/08 R174) -/

/-- The places of `n` bytes from an address on, cut at 64 KiB pages; the recursion is on the number of pieces. -/
def State.pieces (s : State) (b t : Nat) (kind : AccKind) (align : Nat) :
    Nat → DWord → Nat → Except Access (List (Place × Nat)) × State
  | 0, _, _ => (.ok [], s)
  | f + 1, ea, n =>
    if n = 0 then (.ok [], s)
    else
      let m := min n (65536 - ea.toNat % 65536)
      match s.globalAccess b t ea m align kind false with
      | (.place p, s) =>
        match s.pieces b t kind align f (ea + BitVec.ofNat 64 m) (n - m) with
        | (.ok l, s) => (.ok ((p, m) :: l), s)
        | r => r
      | (a, s) => (.error a, s)

/-- Every row is translated and checked, in order; the first that fails decides. -/
def State.rowPlaces (s : State) (b t : Nat) (kind : AccKind) (align n : Nat) :
    List DWord → Except Access (List (List (Place × Nat))) × State
  | [] => (.ok [], s)
  | ea :: rest =>
    match s.pieces b t kind align 2 ea n with
    | (.error a, s) => (.error a, s)
    | (.ok l, s) =>
      match s.rowPlaces b t kind align n rest with
      | (.ok ls, s) => (.ok (l :: ls), s)
      | r => r

/-- Reads a row. -/
def State.readRow (s : State) (b t : Nat) (l : List (Place × Nat)) : List Byte × State :=
  l.foldl
    (fun (x : List Byte × State) p =>
      let (bs, s) := x.2.readPlace b t .lsu p.1 p.2
      (x.1 ++ bs, s)) ([], s)
/-- Cuts bytes along the places of a row. -/
def cutRow : List (Place × Nat) → List Byte → List (Place × List Byte)
  | [], _ => []
  | (p, n) :: rest, bs => (p, bs.take n) :: cutRow rest (bs.drop n)
/-- Writes a row as plain stores. -/
def State.writeRow (s : State) (b : Nat) (l : List (Place × Nat)) (bs : List Byte) : State :=
  (cutRow l bs).foldl (fun s x => s.writePlace b .lsu x.1 x.2) s
/-- The signers' earlier REDs to the bytes of the rows come first (spec/08 R173, spec/03 R60). -/
def State.settleRows (s : State) (b : Nat) (thrs : List Nat) (rows : List (List (Place × Nat))) : State :=
  thrs.foldl (fun s t => rows.foldl (fun s row => row.foldl (fun s p => s.settle b t p.1 p.2) s) s) s

def Place.pa? : Place → Option Nat
  | .mem pa _ => some pa
  | .scratch _ _ => none
/-- The window of each piece of the rows; a piece lies in one 64 KiB page, as a window does. -/
def rowWindows (window : Nat → Option Nat) (rows : List (List (Place × Nat))) : List (Option Nat) :=
  rows.flatMap fun row => row.map fun p => p.1.pa?.bind window
/-- The place of byte `off` of a row. -/
def placeIn : List (Place × Nat) → Nat → Place
  | [], _ => .scratch 0 0
  | (p, n) :: rest, off =>
    if off < n then (match p with
      | .mem pa d => .mem (pa + off) d
      | .scratch b o => .scratch b (o + off))
    else placeIn rest (off - n)
/-- The physical address of byte `off` of a row in memory. -/
def rowPa (row : List (Place × Nat)) (off : Nat) : Nat := (placeIn row off).pa?.getD 0
/-- Does the row start off a block boundary of a window (R177, R185)? -/
def Roast.offBlock (w : Roast) (row : List (Place × Nat)) : Bool := (rowPa row 0 - w.first) % w.blockBytes ≠ 0
/-- The pieces of a row with their offsets in it. -/
def piecesFrom : Nat → List (Place × Nat) → List (Nat × Place × Nat)
  | _, [] => []
  | off, (p, n) :: rest => (off, p, n) :: piecesFrom (off + n) rest

/-! ### What an operation comes to -/

inductive ConvOut where
  /-- Complete at its issue. -/
  | fin
  /-- Pending with its result, its flags, the narrow-format entry it wrote, and its drain. -/
  | pend (r : Result) (fl : Flags) (fd : Option Nat) (drain : Option Nat)
  | exc (code : Word) (aux : Aux)
  | page (va : DWord) (cause gpa : Nat)
  | stall
  deriving DecidableEq, Repr

def Access.conv : Access → ConvOut
  | .place _ => .stall
  | .exc c a => .exc c a
  | .page va c g => .page va c g
  | .stall => .stall
/-- ILL with reason 0x0B of a convergence-issued instruction. -/
def convIll (i : Instr) : ConvOut := .exc cILL (.all (BitVec.ofNat 64 ((encode i).headD 0 + 0xB * 2 ^ 32)))

/-! ### TLD and TST (R176..R178) -/

/-- The tile control register as a window makes it (spec/06 R126). -/
def windowTc (x : DWord) (w : Roast) : DWord :=
  let x := setBits64 x 31 24 (bits64 w.fmt 55 48)
  let x := setBits64 x 36 34 w.sblk
  let x := setBits64 x 33 32 (if w.scaled then 1 else 0)
  setBits64 x 17 15 (if containerBits w.desc = 4 then 1 else 2)

/-- The window of the first row, when it can be read: the row's first byte is translated first. -/
def State.firstWindow (s : State) (b lead align : Nat) (ea : DWord) : Except Access (Option Nat) × State :=
  match s.globalAccess b lead ea 1 align .read false with
  | (.place p, s) => (.ok (p.pa?.bind (s.ownWindow (s.blk b).fn)), s)
  | (a, s) => (.error a, s)

/-- The side-tag scales of the blocks that a tile's rows hold, from row `r` on, go to its side store (spec/06 R126). -/
def State.loadScales (s : State) (b wp t n per : Nat) (rows : List (List (Place × Nat))) : State :=
  (rows.zipIdx).foldl
    (fun s r => (List.range per).foldl
      (fun s q =>
        let pa := rowPa r.1 (q * (s.roast n).blockBytes)
        let s := s.fillTag n (pa / 128)
        s.updBlk b fun k => k.setSide wp t (8 * r.2 + q) [s.tagByte b n pa]) s) s

/-- TLD of tile `t` of the anchor warp. The checks of R107 are made before the narrow-format entry takes the window's
descriptor (R177). -/
def State.tldOp (s : State) (b wp lead : Nat) (thrs : List Nat) (i : Instr) (t : Nat) (off : Word) (o : MemOp) :
    ConvOut × State :=
  let k := s.blk b
  let x := k.tc wp t
  let f0 := Tcf.of x
  if !k.tcValid wp t then (convIll i, s)
  else
    let align := if f0.cw = 16 then 2 else 1
    let addrs := rowAddrs o off f0.rows
    match s.firstWindow b lead align (addrs.headD 0) with
    | (.error a, s) => (a.conv, addrs.foldl (fun s ea => s.note b lead ea ((f0.cols * f0.cw + 7) / 8)) s)
    | (.ok win, s) =>
      let y := match win with
        | some n => windowTc x (s.roast n)
        | none => x
      let f := Tcf.of y
      let nb := (f.cols * f.cw + 7) / 8
      let s := addrs.foldl (fun s ea => s.note b lead ea nb) s
      match s.rowPlaces b lead .read align nb addrs with
      | (.error a, s) => (a.conv, s)
      | (.ok rows, s) =>
        let mixed : Bool := (rowWindows (s.ownWindow k.fn) rows).any (· ≠ win) || (match win with
          | none => false
          | some n =>
            decide (16 ≤ f.fmt) || !f.valid (k.fd wp) (k.warp wp).tiles ||
              ((s.roast n).scaled && rows.any fun row => (s.roast n).offBlock row))
        if mixed then (.exc cFMTMIX .free, s)
        else
          let s := s.settleRows b thrs rows
          let (data, s) := rows.foldl
            (fun (z : List (List Byte) × State) row =>
              let (bs, s) := z.2.readRow b lead row
              (z.1 ++ [bs], s)) ([], s)
          let bytes := (List.range 64).flatMap fun r => fillRow ((data[r]?).getD [])
          let s := s.updBlk b fun k => k.setTile wp t 0 bytes
          match win with
          | none => (.pend (.tile wp t x none) 0 none none, s)
          | some n =>
            let w := s.roast n
            let old := k.fd wp f.fmt
            let s := s.updBlk b fun k => (k.setTc wp t y).setFd wp f.fmt w.desc
            let s := if w.scaled then s.loadScales b wp t n ((f.cols + 2 ^ f.sblk - 1) / 2 ^ f.sblk) rows else s
            (.pend (.tile wp t x (some (f.fmt, old))) 0 (some f.fmt) none, s)
/-- The window that a TLD finds, as far as a translation says where its first row lies. -/
def State.tldWindow (s : State) (b : Nat) (off : Word) (o : MemOp) : Option (Option Nat) :=
  let ea := ((rowAddrs o off 1).headD 0).toNat
  (s.pageOf b o.thr ea).map fun x => s.ownWindow (s.blk b).fn (x.addr ea)
/-- The narrow-format entry that a TLD may write: its first row lies in a window that its function owns, or no translation says
where it lies. -/
def State.tldFd (s : State) (b wp : Nat) (i : Instr) (o : MemOp) : Option Nat :=
  match i with
  | .tld _ t _ _ _ off =>
    let k := s.blk b
    let n := bits64 (k.tc wp t) 22 18
    let own := match s.tldWindow b off o with
      | some w => w.isSome
      | none => (List.range 32).any fun j => (s.roast j).en && (s.roast j).vf = k.fn
    if decide (n < 16) && own then some n else none
  | _ => none

/-- TST of tile `t` of the anchor warp. Where the tile's block size and the window's differ, byte q of a row's scales goes to
the q-th block of the row (DESIGN CHOICE, log 51). -/
def State.tstOp (s : State) (b wp lead : Nat) (thrs : List Nat) (i : Instr) (t : Nat) (off : Word) (o : MemOp) :
    ConvOut × State :=
  let k := s.blk b
  let f := k.tcf wp t
  if !k.tcValid wp t then (convIll i, s)
  else
    let nb := (f.cols * f.cw + 7) / 8
    match s.rowPlaces b lead .write (if f.cw = 16 then 2 else 1) nb (rowAddrs o off f.rows) with
    | (.error a, s) => (a.conv, s)
    | (.ok rows, s) =>
      let scaled := fun p : Place => p.pa?.bind s.scaledAt
      let bad := f.scm ≠ 0 && rows.any fun row => row.any fun p => (scaled p.1).any fun n => (s.roast n).offBlock [p]
      if bad then (.exc cFMTMIX .free, s)
      else
        let s := s.settleRows b thrs rows
        let s := (rows.zipIdx).foldl
          (fun s r =>
            let bs := (k.tileRow wp t r.2).take nb
            let bs := if f.cw = 4 && f.cols % 2 = 1 then bs.dropLast ++ [(bs.getLast?.getD 0) &&& 0x0F] else bs
            let s := s.writeRow b r.1 bs
            if f.scm = 0 then s
            else
              let codes := (k.scaleCodes wp t f r.2).getD []
              (piecesFrom 0 r.1).foldl
                (fun s p =>
                  match scaled p.2.1 with
                  | none => s
                  | some n =>
                    let bb := (s.roast n).blockBytes
                    (List.range ((p.2.2 + bb - 1) / bb)).foldl
                      (fun s q => s.putScale b n (p.2.1.pa?.getD 0 + q * bb) ((codes[p.1 / bb + q]?).getD 0)) s) s) s
        (.fin, s)

/-! ### MDRAIN (R184, R185; spec/06 R115..R118) -/

/-- A 32-bit float of a tile row area. -/
def Block.f32At (k : Block) (wp t off : Nat) : FVal := f32.decode (leNat (k.tileBytes wp t off 4))

/-- Rows of a drain: in the scratchpad as STS resolves them, or in memory. -/
def State.drainRows (s : State) (b lead : Nat) (sp : Bool) (align n : Nat) (rows : List DWord) :
    Except Access (List (List (Place × Nat))) × State :=
  if sp then
    (rows.foldr
      (fun ea (r : Except Access (List (List (Place × Nat)))) =>
        match s.scratchAccess b (ea.setWidth 32) n align with
        | .place p => r.map fun ls => [(p, n)] :: ls
        | a => .error a) (.ok []), s)
  else s.rowPlaces b lead .drain align n rows

/-- Bytes of a drained row, with the mask of the bits it writes. -/
def drainBytes (bits : Nat) (codes : List Nat) : List Byte × List Byte :=
  if bits = 4 then
    let bs := pairNibbles codes
    (bs, if codes.length % 2 = 1 then List.replicate (bs.length - 1) 0xFF ++ [0x0F] else List.replicate bs.length 0xFF)
  else
    let bs := codes.flatMap (leBytes (bits / 8))
    (bs, List.replicate bs.length 0xFF)

/-- Lists of a list in runs of `n`; the recursion is on the number of runs. -/
def runsOf {α : Type} (n : Nat) : Nat → List α → List (List α)
  | 0, _ => []
  | f + 1, l => if l = [] then [] else l.take n :: runsOf n f (l.drop n)

def State.drainOp (s : State) (b wp lead : Nat) (i : Instr) (m : DrainMods) (c : Nat) (o : MemOp) : ConvOut × State :=
  let k := s.blk b
  let stride : Word := o.b.setWidth 32
  let hi : Nat := (o.b.toNat / 2 ^ 32) % 2 ^ 32
  let n := hi % 64 + 1
  let cols := hi / 256 % 64 + 1
  let ar := hi / 2 ^ 15 % 2 = 1
  let aoff := hi / 2 ^ 16 * 16
  let d := Narrow.of (k.fd wp m.td.fdOf)
  let narrow := match m.td with
    | .fd _ => true
    | _ => false
  if narrow && !d.valid then (convIll i, s)
  else if ar && decide (k.scratchSize < aoff + 16) then (.exc cPERM .free, s)
  else
    let bits := drainBits (k.fd wp) m.td
    let nb := (cols * bits + 7) / 8
    let addrs := (List.range n).map fun r =>
      if m.sp then ((o.ea.setWidth 32 : Word) + BitVec.ofNat 32 r * stride).setWidth 64
      else o.ea + BitVec.ofNat 64 r * stride.signExtend 64
    let feed := fun s : State => if ar then s.updArrival b aoff fun a => a.feed 2 else s
    match s.drainRows b lead m.sp (max 1 (bits / 8)) nb addrs with
    | (.error (.exc code aux), s) => (.exc code aux, s)
    | (.error a, s) => (a.conv, feed s)
    | (.ok rows, s) =>
      let acc := k.acc (k.partOf wp) (k.warp wp).role c
      let wins := rowWindows s.windowAt rows
      let win : Option Nat := if narrow then wins.findSome? fun w => w.filter fun n => (s.roast n).scaled else none
      let mixed : Bool := match win with
        | none => false
        | some w =>
          wins.any (· ≠ some w) || (s.roast w).desc ≠ k.fd wp m.td.fdOf ||
            rows.any fun row => (s.roast w).offBlock row
      if mixed then (.exc cFMTMIX .free, s)
      else
        let one : FVal := oneVal
        let cell := fun r j : Nat => acc.value r j (if m.rs then k.f32At wp m.stile (4 * r) else one)
          (if m.cs then k.f32At wp m.stile (256 + 4 * j) else one)
        let (id, s) := s.newId
        let credit := if ar then some aoff else none
        let s := feed s
        let d0 : Drain := { id := id, blk := b, thr := lead, credit := credit }
        if m.add then
          let each := (rows.zipIdx).flatMap fun r => (List.range cols).map fun j =>
            let v := cell r.2 j
            let x : Nat × Flags := match m.td with
              | .x64 => acc.x64 r.2 j
              | .i32 => deliverCell .i32 d m.rm v.1
              | _ => deliverCell .f32 d m.rm v.1
            let fl : Flags := if m.td = .x64 then x.2 else v.2 ||| x.2
            (placeIn r.1 (j * (bits / 8)), BitVec.ofNat 128 x.1, fl)
          let dr := { d0 with add := some (m.td, m.rm), values := each.map fun e => (e.1, e.2.1) }
          let fl := each.foldl (fun fl e => fl ||| e.2.2) (0 : Flags)
          (.pend .nothing fl none (some id), { s with drains := s.drains ++ [dr] })
        else
          let per := match win with
            | some w => 2 ^ (s.roast w).sblk
            | none => 64
          let each := (rows.zipIdx).map fun r =>
            let cells := (List.range cols).map fun j => cell r.2 j
            let groups := runsOf per 64 cells
            let outs := groups.map fun g =>
              let sc := blockScale d (g.map (·.1))
              (sc, g.map fun v => if win.isSome then deliverCell m.td d m.rm (v.1.unscaled sc) else deliverCell m.td d m.rm v.1,
                g.foldl (fun fl v => fl ||| v.2) (0 : Flags))
            let codes : List (Nat × Flags) :=
              if m.td = .x64 then (List.range cols).map fun j => acc.x64 r.2 j else outs.flatMap (·.2.1)
            let fl := codes.foldl (fun fl x => fl ||| x.2)
              (if m.td = .x64 then 0 else outs.foldl (fun fl x => fl ||| x.2.2) (0 : Flags))
            let bm := drainBytes bits (codes.map (·.1))
            let w := ((cutRow r.1 bm.1).zip (cutRow r.1 bm.2)).map fun x => (x.1.1, x.1.2, x.2.2)
            let side := match win with
              | some n => (outs.zipIdx).map fun g => (n, rowPa r.1 (g.2 * (s.roast n).blockBytes), BitVec.ofNat 8 g.1.1)
              | none => []
            (w, side, fl)
          let dr := { d0 with writes := each.flatMap (·.1), side := each.flatMap (·.2.1) }
          let fl := each.foldl (fun fl e => fl ||| e.2.2) (0 : Flags)
          (.pend .nothing fl none (some id), { s with drains := s.drains ++ [dr] })

/-! ### Issue of a convergence-issued operation -/

/-- One operation of the declared set, on the anchor warp `wp`; `lead` is the lowest thread of the set. -/
def State.convOp (s : State) (b wp lead : Nat) (thrs : List Nat) (i : Instr) (o : MemOp) : ConvOut × State :=
  let k := s.blk b
  let part := k.partOf wp
  let role := (k.warp wp).role
  match i with
  | .tld _ t _ _ _ off => s.tldOp b wp lead thrs i t off o
  | .tst _ t _ _ _ off => s.tstOp b wp lead thrs i t off o
  | .mma _ c x y _ =>
    if !k.tcValid wp x || !k.tcValid wp y || (k.tcf wp x).cols ≠ (k.tcf wp y).cols then (convIll i, s)
    else
      let r := k.mma wp x y (k.acc part role c)
      (.pend .nothing r.2 none none,
        (s.updBlk b fun k => k.setAcc part role c r.1).pmEvent k.fn 0x30 (k.tcf wp x).cols)
  | .mdrain _ m c _ _ _ => s.drainOp b wp lead i m c o
  | .mclr _ c _ => (.fin, s.updBlk b fun k => k.setAcc part role c {})
  | _ => (.fin, s)

def State.updPend (s : State) (b id : Nat) (f : Pending → Pending) : State :=
  s.updBlk b fun k => { k with pend := k.pend.map fun p => if p.id = id then f p else p }
def State.dropPend (s : State) (b id : Nat) : State :=
  s.updBlk b fun k => { k with pend := k.pend.filter fun p => p.id ≠ id }

/-- Is an earlier convergence-issued operation of the partition waiting in the operand log (spec/08 R173)? -/
def State.convBlocked (s : State) (b wp before : Nat) : Bool :=
  let k := s.blk b
  s.oplog.any fun e => (convReg e.instr).isSome && decide (e.id < before) && (s.blk e.blk).core = k.core &&
    e.part = k.partOf wp

/-- Runs an operation for a pending instruction `pid`, from its issue or from the log entry `e`. Exceptions reach every
thread of the set; a fault leaves an entry from which the whole operation runs again (spec/08 R174). The accesses of a TLD or
TST come after the signers' earlier ones to the same bytes (R173). -/
def State.convPerform (s : State) (b pid : Nat) (thrs : List Nat) (e : LogEntry) : State :=
  let o := e.ops.headD { thr := 0 }
  let s := { s with oplog := s.oplog.filter fun x => x.id ≠ e.id }
  let again := fun (s : State) (ws : List (Nat × Nat)) =>
    let s := { s with oplog := s.oplog ++ [{ e with waiting := ws, held := ws = [] }] }
    s.updPend b pid fun p => { p with log := some e.id }
  let rows := (s.blk b).ranges e.warp e.instr o
  let mine := (((s.blk b).pend.find? fun p => p.id = pid).map (·.thrs)).getD []
  if mine.any fun x => s.overtakes b x.1 (some x.2) rows then again s []
  else
  match s.convOp b e.warp o.thr thrs e.instr o with
  | (.fin, s) => s.dropPend b pid
  | (.pend r fl fd dr, s) =>
    s.updPend b pid fun p =>
      { p with result := r, flags := fl, fd := fd, drain := dr, ready := dr.isNone, log := none,
               warps := (thrs.map warpOf).eraseDups }
  | (.exc c a, s) => (s.dropPend b pid).raiseAll b (thrs.filter fun t => ((s.blk b).thr t).live) e.pc c a
  | (.page va c g, s) =>
    let (ws, s) := s.recordFaults b e.id (accKind e.instr) [(o.thr, va, c, g)]
    again s ws
  | (.stall, s) => again s []

/-- The operation of kN issues: SIGNED equals SET (spec/08 R170). -/
def State.convRun (s : State) (b n : Nat) : State :=
  let k := s.blk b
  let r := k.kreg n
  match r.op, k.pend.find? fun p => p.k = some n with
  | some i, some p =>
    let thrs := k.liveThreads.filter fun t => r.set.getLsbD t
    let s := s.updBlk b fun k => k.setKreg n { r with signed := 0, opPc := 0, opVal := 0, live := false, op := none }
    if !r.live then s.dropPend b p.id
    else
      let s := s.updPend b p.id fun p => { p with k := none }
      let (id, s) := s.newId
      let o : MemOp := { thr := thrs.headD 0, ea := r.opVal.setWidth 64, b := r.opVal >>> 64 }
      let e : LogEntry :=
        { id := id, blk := b, warp := r.anchor, part := k.partOf r.anchor, pc := r.opPc, instr := i,
          w0 := BitVec.ofNat 32 ((encode i).headD 0), ops := [o], held := true }
      if s.convBlocked b r.anchor id then
        ({ s with oplog := s.oplog ++ [e] }).updPend b p.id fun p => { p with log := some id }
      else s.convPerform b p.id thrs e
  | _, _ => s

/-- Issues the operation when every thread of the set has signed. -/
def State.convCheck (s : State) (b n : Nat) : State :=
  let r := (s.blk b).kreg n
  if r.signed ≠ 0 && r.signed = r.set then s.convRun b n else s

/-- One thread signs kN (spec/08 R171). -/
def State.signOne (s : State) (c : Ctx) (n : Nat) (i : Instr) (h : Hdr) (t : Nat) (live : Bool) : State :=
  let k := s.blk c.b
  let r := k.kreg n
  let val := k.convVal t i
  if r.kind = 0 || !r.set.getLsbD t || (r.signed ≠ 0 && (r.opPc ≠ c.pc || r.opVal ≠ val)) then
    s.raiseAt c.b t c.pc cCVSET .free
  else
    let first := r.signed = 0
    let (id, s) := s.newId
    let s := s.advance c.b [t] c.next
    let r := { r with signed := r.signed ||| (1#1024 <<< t), opPc := c.pc, opVal := val, live := r.live || live, op := some i }
    let p0 : Pending :=
      { id := id, pc := c.pc, la := h.la, thrs := [(t, 0)], warp := r.anchor, part := k.partOf r.anchor,
        fd := s.tldFd c.b r.anchor i (r.memOp t), k := some n }
    s.updBlk c.b fun k =>
      { k.setKreg n r with
        pend := if first then k.pend ++ [k.convHazard r.anchor i p0]
          else k.pend.map fun p => if p.k = some n then { p with thrs := p.thrs ++ [(t, 0)] } else p }

/-- A convergence-issued instruction: every thread of the bundle signs, whatever its guard. A thread whose earlier
signature has not issued yet stalls here (spec/08 R170, R171). A name beyond the anchor warp's allotment raises ILL in every
thread that would sign, before the guard and the hazard check (R172; spec/03 R56). -/
def convIssue (i : Instr) (n : Nat) (s : State) : Host.Outcome State Fault Refusal :=
  match uses i with
  | none => finish s
  | some f =>
    let c := s.ctxOf false
    let k := s.blk c.b
    let r := k.kreg n
    let free := c.bundle.filter fun t => !(r.kind ≠ 0 && r.signed.getLsbD t)
    if r.kind ≠ 0 && !k.convNamed r.anchor i then finish (s.illAll c.b free c.pc s.sel.w0 7)
    else
      let bad := free.filter fun t => (k.thr t).guard f.h && k.hazardous t r.anchor (touches i f ++ k.tcNames r.anchor i)
      let s := s.raiseAll c.b bad c.pc cLAHEAD .free
      let s := (free.filter fun t => !bad.contains t).foldl
        (fun s t => s.signOne c n i f.h t ((k.thr t).guard f.h)) s
      finish (s.convCheck c.b n)

def execTld (h : Hdr) (t : Nat) (a b : Src) (n : Nat) (off : Word) (s : State) : Host.Outcome State Fault Refusal :=
  convIssue (.tld h t a b n off) n s
def execTst (h : Hdr) (t : Nat) (a b : Src) (n : Nat) (off : Word) (s : State) : Host.Outcome State Fault Refusal :=
  convIssue (.tst h t a b n off) n s
def execMma (h : Hdr) (c a b n : Nat) (s : State) : Host.Outcome State Fault Refusal := convIssue (.mma h c a b n) n s
def execMdrain (h : Hdr) (m : DrainMods) (c : Nat) (a b : Src) (n : Nat) (s : State) : Host.Outcome State Fault Refusal :=
  convIssue (.mdrain h m c a b n) n s
def execMclr (h : Hdr) (c n : Nat) (s : State) : Host.Outcome State Fault Refusal := convIssue (.mclr h c n) n s

/-! ### Leaving a set, and cancellation (spec/08 R170, R175) -/

/-- A register whose pending signatures are discarded. -/
def State.convReset (s : State) (b n : Nat) : State :=
  s.updBlk b fun k => { k.setKreg n {} with pend := k.pend.filter fun p => p.k ≠ some n }

/-- A thread that exits leaves every set that holds it. -/
def State.leaveSets (s : State) (b t : Nat) : State :=
  (List.range 8).foldl
    (fun s n =>
      let r := (s.blk b).kreg n
      if r.kind = 0 || !r.set.getLsbD t then s
      else
        let bit := 1#1024 <<< t
        let set := r.set &&& ~~~bit
        if set = 0 then s.convReset b n
        else
          let low := ((List.range 1024).find? fun j => set.getLsbD j).getD 0
          (s.updBlk b fun k => k.setKreg n { r with set := set, signed := r.signed &&& ~~~bit, anchor := warpOf low }).convCheck
            b n) s

/-- The flags of a completed matrix operation reach its warps (spec/05 R97). -/
def State.pendFlags (s : State) (b : Nat) (p : Pending) : State :=
  (if p.warps = [] then [p.warp] else p.warps).foldl (fun s w => s.orFlags b w p.flags) s

/-- A cancelled TLD: tile and side store hold undefined values, tile control register and narrow-format entry each what they
hold or the other of their old and new values, `tc` and `fd`. -/
def State.voidTile (s : State) (b wp t : Nat) (tc : DWord) (fd : Option (Nat × Word)) : State :=
  let (bs, s) := s.freeBytes 4096
  let (ss, s) := s.freeBytes 512
  let (x, s) := s.freeBool
  let (y, s) := s.freeBool
  s.updBlk b fun k =>
    let k := (k.setTile wp t 0 bs).setSide wp t 0 ss
    let k := if x then k.setTc wp t tc else k
    match fd with
    | some (n, v) => if y then k.setFd wp n v else k
    | none => k
/-- A TLD that rests in the operand log leaves it, cancelled (spec/08 R175). -/
def State.voidResting (s : State) (b : Nat) (p : Pending) : State :=
  match p.log.bind fun id => s.oplog.find? fun e => e.id = id with
  | none => s
  | some e =>
    match e.instr with
    | .tld _ t _ _ _ off =>
      let x := (s.blk b).tc e.warp t
      let n := bits64 x 22 18
      let new := match s.tldWindow b off (e.ops.headD { thr := 0 }) with
        | some (some w) => (windowTc x (s.roast w), if n < 16 then some (n, (s.roast w).desc) else none)
        | _ => (x, none)
      let s := s.voidTile b e.warp t new.1 new.2
      { s with oplog := s.oplog.filter fun y => y.id ≠ e.id }
    | _ => s

/-- What a cancellation of threads does to convergence registers and to the operations issued for them. -/
def State.convCancel (s : State) (b : Nat) (ts : List Nat) : State :=
  let s := (List.range 8).foldl
    (fun s n => if ts.any fun t => ((s.blk b).kreg n).signed.getLsbD t then s.convReset b n else s) s
  let mine := (s.blk b).pend.filter fun p => p.thrs.any fun e => ts.contains e.1
  mine.foldl
    (fun s p =>
      match p.result with
      | .tile wp t tc fd => (s.voidTile b wp t tc fd).dropPend b p.id
      | .nothing => if p.ready then (s.pendFlags b p).dropPend b p.id else s.voidResting b p
      | .regs .. => s) s
/-- Does an issued operation of some threads other than a TLD rest in the operand log? It completes before a stop cancels the
rest of their work (R175). -/
def State.convResting (s : State) (b : Nat) (ts : List Nat) : Bool :=
  (s.blk b).pend.any fun p => (p.thrs.any fun e => ts.contains e.1) && s.oplog.any fun e =>
    p.log = some e.id && (match e.instr with
      | .tld .. => false
      | i => (convReg i).isSome)

end Sys2Proof.Machine
end

