-- ==== Sys2Proof/Machine/Control.lean ====
section
/-! DEFINITION. Control-transfer instructions (spec/07 R162..R167). -/
namespace Sys2Proof.Machine

/-- Each executing thread goes to its target; a target that is not a multiple of 4 raises ALIGN (R164). -/
def State.jump (s : State) (c : Ctx) (f : Block → Nat → DWord) : State :=
  let k := s.blk c.b
  c.exe.foldl
    (fun s t => if (f k t).toNat % 4 ≠ 0 then s.raiseAt c.b t c.pc cALIGN .free else s.advance c.b [t] (f k t)) s

/-- A thread retires (R166): it closes its try regions, leaves every set and every barrier, and is live no more. -/
def State.retire (s : State) (b t : Nat) : State :=
  let s := s.updThr b t fun th => { th with live := false, tstack := [], wait := none }
  (s.leaveSets b t).checkBarriers b

def execBra (h : Hdr) (off : Word) (s : State) : Host.Outcome State Fault Refusal :=
  issue (.bra h off) s fun c s => s.jump c fun _ _ => addOff c.pc off

def execBrx (h : Hdr) (a : Src) (off : Word) (s : State) : Host.Outcome State Fault Refusal :=
  issue (.brx h a off) s fun c s => s.jump c fun k t => addOff (k.pair t a) off

/-- The target of a CALL for a thread (R165). -/
def callTarget (a : Option Src) (off : Word) (c : Ctx) (k : Block) (t : Nat) : DWord :=
  match a with
  | none => addOff c.pc off
  | some a => addOff (k.pair t a) off

def execCall (h : Hdr) (a : Option Src) (off : Word) (s : State) : Host.Outcome State Fault Refusal :=
  memInstr (.call h a off) s h false 0 .none fun c k t =>
    { thr := t, ea := callTarget a off c k t, b := c.next.setWidth 128 }

def execRet (h : Hdr) (s : State) : Host.Outcome State Fault Refusal :=
  memInstr (.ret h) s h false 0 .none fun _ _ t => { thr := t }

def execExit (h : Hdr) (s : State) : Host.Outcome State Fault Refusal :=
  issue (.exit h) s fun c s => c.exe.foldl (fun s t => s.retire c.b t) s

def execYield (h : Hdr) (s : State) : Host.Outcome State Fault Refusal :=
  issue (.yield h) s fun c s => (s.updWarp c.b c.wp fun w => { w with yielded := true }).advance c.b c.exe c.next

end Sys2Proof.Machine
end

