-- ==== Sys2Proof/Machine/Memory.lean ====
section
/-! DEFINITION. Memory, atomic, cache, fence, barrier, copy, completion-register, arrival and stash instructions (spec/13;
spec/11). -/
namespace Sys2Proof.Machine

/-! ### Loads, stores, atomics (spec/13 R252, R257) -/

/-- Captured operands of an access at a 64-bit base. -/
def cap64 (a : Src) (off : Word) (bw : Nat) (b : Src) (cw : Nat) (x : Src) (_ : Ctx) (k : Block) (t : Nat) : MemOp :=
  { thr := t, ea := k.ea64 t a off, b := k.src t bw b, c := k.src t cw x }
/-- Captured operands of an access at a scratchpad base. -/
def cap32 (a : Src) (off : Word) (bw : Nat) (b : Src) (cw : Nat) (x : Src) (_ : Ctx) (k : Block) (t : Nat) : MemOp :=
  { thr := t, ea := (k.ea32 t a off).setWidth 64, b := k.src t bw b, c := k.src t cw x }

def execLd (h : Hdr) (ord : Ord4) (ty : Ty) (d : Dst) (a : Src) (off : Word) (s : State) :
    Host.Outcome State Fault Refusal :=
  memInstr (.ld h ord ty d a off) s h true ty.regs d (cap64 a off 1 .zero 1 .zero)
def execSt (h : Hdr) (ord : Ord4) (ty : Ty) (a b : Src) (off : Word) (s : State) : Host.Outcome State Fault Refusal :=
  memInstr (.st h ord ty a b off) s h false 0 .none (cap64 a off ty.regs b 1 .zero)
def execLds (h : Hdr) (ord : Ord4) (ty : Ty) (d : Dst) (a : Src) (off : Word) (s : State) :
    Host.Outcome State Fault Refusal :=
  memInstr (.lds h ord ty d a off) s h true ty.regs d (cap32 a off 1 .zero 1 .zero)
def execSts (h : Hdr) (ord : Ord4) (ty : Ty) (a b : Src) (off : Word) (s : State) : Host.Outcome State Fault Refusal :=
  memInstr (.sts h ord ty a b off) s h false 0 .none (cap32 a off ty.regs b 1 .zero)
def execAtom (h : Hdr) (op : AtomOp) (ord : Ord4) (w : Wd) (d : Dst) (a b c : Src) (off : Word) (s : State) :
    Host.Outcome State Fault Refusal :=
  memInstr (.atom h op ord w d a b c off) s h true w.regs d (cap64 a off w.regs b w.regs c)
def execRed (h : Hdr) (op : AtomOp) (ord : Ord4) (w : Wd) (a b : Src) (off : Word) (s : State) :
    Host.Outcome State Fault Refusal :=
  memInstr (.red h op ord w a b off) s h false 0 .none (cap64 a off w.regs b 1 .zero)
def execCaswap (h : Hdr) (d : Dst) (a b c : Src) (off : Word) (s : State) : Host.Outcome State Fault Refusal :=
  memInstr (.caswap h d a b c off) s h true 4 d (cap64 a off 4 b 4 c)

/-! ### Compress store and expand load (spec/13 R253, R254) -/

/-- One element. -/
def State.elemOp (s : State) (b : Nat) (i : Instr) (o : MemOp) : AccOut × State :=
  match i with
  | .cmpst _ ty _ _ _ _ _ =>
    (match s.globalAccess b o.thr o.ea ty.bytes ty.bytes .write true with
      | (.place p, s) => s.storeAt b o.thr false ty p o.b
      | (a, s) => (a.out, s))
  | .expld _ ty _ _ _ _ =>
    (match (s.note b o.thr o.ea ty.bytes).globalAccess b o.thr o.ea ty.bytes ty.bytes .read true with
      | (.place p, s) => s.loadAt b o.thr false ty p
      | (a, s) => (a.out, s))
  | _ => (.stall, s)

/-- A run over elements: the values of those done, and the element and outcome it stopped at. -/
structure ElemRun where
  vals : List (Nat × QWord) := []
  stop : Option (Nat × AccOut) := none
  deriving DecidableEq, Repr

/-- Elements in ascending order from number `j`. One that meets bytes which an earlier instruction of its thread is still to
access waits (spec/03 R60); `used` is its window position in a replay. -/
def State.runElems (s : State) (b : Nat) (i : Instr) (used : Nat → Option Nat) : Nat → List MemOp → ElemRun × State
  | _, [] => ({}, s)
  | j, o :: rest =>
    match (if s.overtakes b o.thr (used o.thr) ((s.blk b).ranges (warpOf o.thr) i o) then (.stall, s) else s.elemOp b i o) with
    | (.done v, s) =>
      let (r, s) := s.runElems b i used (j + 1) rest
      ({ r with vals := (o.thr, v) :: r.vals }, s)
    | (x, s) => ({ stop := some (j, x) }, s)

/-- The context of a logged instruction for the threads that it holds. Those for which a CMPST had a false guard have gone on:
they are no part of Executing, and an exception reaches them (R254). -/
def LogEntry.ctx (e : LogEntry) (k : Block) (thrs : List Nat) : Ctx :=
  let exe := match e.instr with
    | .cmpst .. => thrs.filter fun t => (k.thr t).pc = e.pc
    | _ => thrs
  { b := e.blk, wp := e.warp, pc := e.pc, next := e.pc + BitVec.ofNat 64 (4 * (encode e.instr).length), bundle := thrs,
    exe := exe, u := false, lead := exe.headD 0 }
/-- The position in its window that a thread has used of a pending instruction. -/
def Block.usedOf (k : Block) (pend thr : Nat) : Option Nat :=
  (k.pend.find? fun p => p.id = pend).bind fun p => (p.thrs.find? fun e => e.1 = thr).map (·.2)

/-- What a run over elements leaves: `old` is the pending instruction of a replay, whose entry goes. An exception at element j
reaches every participant with AUX[31:0] = j; a faulted instruction is therefore pending for all of them. -/
def State.elemsDone (s : State) (c : Ctx) (i : Instr) (h : Hdr) (ops : List MemOp) (start : Nat) (old : Option Nat) : State :=
  let (ll, w, d) : Bool × Nat × Dst := match i with
    | .expld _ ty d _ _ _ => (true, ty.regs, d)
    | .cmpst _ _ d _ _ _ _ => (false, 1, d)
    | _ => (false, 0, .none)
  let used := fun t => old.bind fun id => (s.blk c.b).usedOf id t
  let (r, s) := s.runElems c.b i used start (ops.drop start)
  let drop := fun (s : State) => match old with
    | some id => s.dropPend c.b id
    | none => s
  match r.stop with
  | none =>
    if ll then
      match old with
      | some id =>
        s.updPend c.b id fun p => { p with result := .regs d w r.vals .g, ready := true, log := none }
      | none =>
        let s := s.advance c.b c.exe c.next
        if ops = [] then s else s.pend c h.la c.exe w d r.vals .g 0 (s.misses c.b i ops)
    else
      let n := BitVec.ofNat 128 ops.length
      ((drop s).updBlk c.b fun k => k.putDst c.wp 1 d (c.exe.map fun t => (t, n)) .u).advance c.b c.exe c.next
  | some (j, out) =>
    let s := if ll then s.updBlk c.b fun k => k.putDst c.wp w d r.vals .g else s
    match out with
    | .exc code _ => (drop s).raiseAll c.b c.bundle c.pc code (.low (BitVec.ofNat 32 j))
    | .page va cause gpa =>
      let t := ((ops[j]?).map (·.thr)).getD 0
      let (id, s) := s.openLog c i ops j (accKind i) [(t, va, cause, gpa)]
      (match old with
        | some p => s.updPend c.b p fun p => { p with log := some id }
        | none => (if ll then s.advance c.b c.exe c.next else s).pendFault c h.la c.bundle w d id)
    | _ =>
      -- a walk in transit: the run goes on from this element later
      let (id, s) := s.newId
      let e : LogEntry :=
        { id := id, blk := c.b, warp := c.wp, part := (s.blk c.b).partOf c.wp, pc := c.pc, instr := i,
          w0 := BitVec.ofNat 32 ((encode i).headD 0), ops := ops, start := j, held := true }
      let s := { s with oplog := s.oplog ++ [e] }
      (match old with
        | some p => s.updPend c.b p fun p => { p with log := some id }
        | none => (if ll then s.advance c.b c.exe c.next else s).pendFault c h.la c.bundle w d id)

/-- CMPST and EXPLD at issue, for the whole warp. -/
def elemInstr (i : Instr) (h : Hdr) (ty : Ty) (a : Src) (off : Word) (b : Src) (pc : Nat) (s : State) :
    Host.Outcome State Fault Refusal :=
  laneIssue i .zero s fun c s =>
    let k := s.blk c.b
    let sel := c.exe.filter fun t => (k.thr t).pred pc
    let base := k.ea64 c.lead a off
    if base.toNat % ty.bytes ≠ 0 then s.raiseAll c.b c.bundle c.pc cALIGN .free
    else
      let ops := (sel.zipIdx).map fun x =>
        ({ thr := x.1, ea := base + BitVec.ofNat 64 (x.2 * ty.bytes), b := k.src x.1 ty.regs b } : MemOp)
      s.elemsDone c i h ops 0 none

def execCmpst (h : Hdr) (ty : Ty) (d : Dst) (a b : Src) (pc : Nat) (off : Word) (s : State) :
    Host.Outcome State Fault Refusal :=
  elemInstr (.cmpst h ty d a b pc off) h ty a off b pc s
def execExpld (h : Hdr) (ty : Ty) (d : Dst) (a : Src) (pc : Nat) (off : Word) (s : State) :
    Host.Outcome State Fault Refusal :=
  elemInstr (.expld h ty d a pc off) h ty a off .zero pc s

/-! ### Prefetch and cache control (spec/13 R258, R259) -/

/-- Lines that hold bytes of a range of virtual addresses; pages that do not translate and the aperture hold none. -/
def State.rangeLines (s : State) (fn va n : Nat) : List Nat :=
  if n = 0 then []
  else (List.range ((va + n - 1) / 65536 - va / 65536 + 1)).flatMap fun j =>
    let lo := max va ((va / 65536 + j) * 65536)
    let hi := min (va + n) ((va / 65536 + j + 1) * 65536)
    if inAperture (addr lo) then []
    else
      match s.walk fn lo with
      | .ok x => (List.range ((x.addr (hi - 1)) / 128 - x.addr lo / 128 + 1)).map fun l => x.addr lo / 128 + l
      | _ => []

def execPref (h : Hdr) (lvl : Nat) (a : Src) (off : Word) (s : State) : Host.Outcome State Fault Refusal :=
  issue (.pref h lvl a off) s fun c s => s.advance c.b c.exe c.next

/-- A CCTL of one thread: the range leaves the canonical device space, or its lines are to be written back. -/
def State.cctlAt (s : State) (c : Ctx) (inv : Bool) (o : MemOp) : AccOut × State :=
  let n := o.b.toNat % 2 ^ 32
  if !canonical o.ea || inFabric o.ea || decide (2 ^ 56 < o.ea.toNat + n) then (.exc cPERM .free, s)
  else if n = 0 then (.done 0, s)
  else
    let k := s.blk c.b
    let (id, s) := s.newId
    let f : Flush :=
      { id := id, blk := c.b, thrs := c.spread o.thr, die := dieOf k.core, core := k.core,
        lines := s.rangeLines k.fn o.ea.toNat n, inv := inv }
    (.done 0, { s with cctls := s.cctls ++ [f] })

def execCctlWb (h : Hdr) (a b : Src) (off : Word) (s : State) : Host.Outcome State Fault Refusal :=
  opInstr (.cctlWb h a b off) s h false 0 .none (cap64 a off 1 b 1 .zero) fun c s o => s.cctlAt c false o
def execCctlInv (h : Hdr) (a b : Src) (off : Word) (s : State) : Host.Outcome State Fault Refusal :=
  opInstr (.cctlInv h a b off) s h false 0 .none (cap64 a off 1 b 1 .zero) fun c s o => s.cctlAt c true o

/-- The core's stores to some lines reach the L2, and its words there are owned no more (spec/10 R203). -/
def State.recallWords (s : State) (core : Nat) (lines : List Nat) : State :=
  let s := lines.foldl (fun s l => s.publishLine core l) s
  { s with owners := s.owners.filter fun e => !(e.2 = some core && lines.contains (e.1 % 0x800000000 / 32)) }
/-- A core gives up its copies of some lines. -/
def State.dropLines (s : State) (core : Nat) (lines : List Nat) : State :=
  lines.foldl (fun s l => s.setL1 core l none) (s.recallWords core lines)
/-- A core gives up all that it holds of memory: its stores are received by the die's L2. -/
def State.emptyCore (s : State) (core : Nat) : State :=
  let s := s.dropLines core (s.l1Lines core)
  let mine := s.pendReg.filter fun x => x.1 = core
  let s := mine.foldl (fun s x => s.mark (x.2 * 4) 4) { s with pendReg := s.pendReg.filter fun x => x.1 ≠ core }
  { s with owners := s.owners.filter fun e => e.2 ≠ some core }

/-! ### Fences and the block barrier (spec/13 R260, R261; spec/11 R215) -/

def execFence (h : Hdr) (s : State) : Host.Outcome State Fault Refusal :=
  issue (.fence h) s fun c s => ((s.force c.b).acquire (s.blk c.b).core).advance c.b c.exe c.next
/-- The waiting of a cross-path fence is a condition of its issue; with X = 0 it forces a commit (spec/23 R411), with Y = 0 it
self-invalidates. -/
def execXfence (h : Hdr) (x y : Nat) (s : State) : Host.Outcome State Fault Refusal :=
  issue (.xfence h x y) s fun c s => ((if x = 0 then s.force c.b else s).acquireIf c.b (y = 0)).advance c.b c.exe c.next

/-- A thread enters a wait. -/
def State.setWait (s : State) (b t : Nat) (w : Wait) : State := s.updThr b t fun th => { th with wait := some w }

/-- BAR: every thread of the bundle arrives; one whose guard is false goes on at once. -/
def execBar (h : Hdr) (s : State) : Host.Outcome State Fault Refusal :=
  let c := s.ctxOf false
  let k := s.blk c.b
  let exe := c.bundle.filter fun t => (k.thr t).guard h
  let s := s.advance c.b (c.bundle.filter fun t => !exe.contains t) c.next
  let s := exe.foldl (fun s t => s.setWait c.b t (.bar c.next)) s
  let s := s.updBlk c.b fun k => { k with barArr := k.barArr ++ c.bundle.filter fun t => !k.barArr.contains t }
  finish (s.checkBar c.b)

/-! ### Copies (spec/11 R217, R218; spec/13 R263) -/

/-- A copy request record. -/
structure CopyRec where
  src : DWord
  dst : DWord
  bytes : Nat
  rows : Nat
  rowBytes : Nat
  sstride : Word
  dstride : Word
  aoff : Word
  ctl : DWord
  deriving DecidableEq, Repr
def CopyRec.of (bs : List Byte) : CopyRec :=
  let at4 := fun n : Nat => leNat ((bs.drop n).take 4)
  let at8 := fun n : Nat => BitVec.ofNat 64 (leNat ((bs.drop n).take 8))
  { src := at8 0, dst := at8 8, bytes := at4 0x10, rows := at4 0x14, rowBytes := at4 0x18,
    sstride := BitVec.ofNat 32 (at4 0x1C), dstride := BitVec.ofNat 32 (at4 0x20), aoff := BitVec.ofNat 32 (at4 0x24),
    ctl := at8 0x28 }
def CopyRec.srcSp (r : CopyRec) : Bool := bitAt r.ctl 0
def CopyRec.dstSp (r : CopyRec) : Bool := bitAt r.ctl 1
def CopyRec.rxNote (r : CopyRec) : Bool := bitAt r.ctl 2
def CopyRec.fabric (r : CopyRec) : Bool := inFabric r.dst
/-- The conditions of R218. -/
def CopyRec.valid (r : CopyRec) : Bool :=
  bits64 r.ctl 63 32 = 0 && bits64 r.ctl 15 3 = 0 && decide (r.bytes < 2 ^ 28) &&
    (if r.rows = 0 then r.rowBytes = 0 && r.sstride = 0 && r.dstride = 0
     else decide (1 ≤ r.rowBytes) && r.bytes = r.rows * r.rowBytes) &&
    (!r.srcSp || bits64 r.src 63 32 = 0) && (!r.dstSp || bits64 r.dst 63 32 = 0) &&
    (r.aoff = 0xFFFFFFFF || r.aoff.toNat % 16 = 0) && !(r.fabric && r.dstSp) && (r.srcSp || !inFabric r.src) &&
    (!r.rxNote || r.fabric)

/-- An arrival object that a transfer names is checked at issue and told of the transfer's path (spec/11 R222; spec/13
R247). -/
def State.feedObject (s : State) (b : Nat) (a : Word) (path : Nat) : Option (Word × Aux) × State :=
  if a = 0xFFFFFFFF then (none, s)
  else
    match s.scratchAccess b a 16 16 with
    | .place (.scratch p off) => (none, s.updArrival p off fun x => x.feed path)
    | .exc code aux => (some (code, aux), s)
    | _ => (none, s)

/-- Copy requests that the engine of a core holds. -/
def State.copiesOf (s : State) (core : Nat) : Nat := (s.copies.filter fun q => q.packet.isNone && !q.stopped && q.core = core).length
/-- Is an MDRAIN that a thread has signed still to name the object in its issue (spec/11 R222: each thread's operations on one
object are ordered)? -/
def State.feedAhead (s : State) (b t : Nat) (p : Place) : Bool :=
  (s.blk b).pend.any fun x => (x.thrs.any fun e => e.1 = t) &&
    (s.pendOps b x).any fun y => match y.2.1, p with
      | .mdrain .., .scratch d off =>
        let hi := y.2.2.b.toNat / 2 ^ 32 % 2 ^ 32
        hi / 2 ^ 15 % 2 = 1 && d = b && off = hi / 2 ^ 16 * 16
      | _, _ => false
/-- The rows of a copy's source are noted when the copy is handed over (spec/17 R333). -/
def State.noteRows (s : State) (b t : Nat) (r : CopyRec) : State :=
  if (s.blk b).trace.isNone || r.srcSp then s
  else (List.range (max r.rows 1)).foldl
    (fun s j => s.note b t (r.src + BitVec.ofNat 64 j * r.sstride.signExtend 64) (if r.rows = 0 then r.bytes else r.rowBytes)) s

/-- CPQ of one thread: the record at `o.ea` is handed to the core's engine; one that holds 64 requests takes no more (spec/13
R263). -/
def State.cpqAt (s : State) (c : Ctx) (w0 : Word) (o : MemOp) : AccOut × State :=
  if 64 ≤ s.copiesOf (s.blk c.b).core then (.stall, s) else
  match s.scratchAccess c.b (o.ea.setWidth 32) 48 16 with
  | .place p =>
    let s := s.settle c.b o.thr p 48
    let (bs, s) := s.readPlace c.b o.thr .lsu p 48
    let r := CopyRec.of bs
    let ahead := (s.objectAt c.b r.aoff).any fun x => s.feedAhead c.b o.thr (.scratch x.1 x.2)
    if !r.valid then (.exc cILL (.all (BitVec.ofNat 64 (w0.toNat + 0xB * 2 ^ 32))), s)
    else if ahead then (.stall, s)
    else
      match s.feedObject c.b r.aoff 1 with
      | (some e, s) => (.exc e.1 e.2, s)
      | (none, s) =>
        let s := (if r.fabric then s.force c.b else s).noteRows c.b o.thr r
        let (id, s) := s.newId
        let k := s.blk c.b
        let q : Copy :=
          { id := id, core := k.core, blk := c.b, thr := o.thr, pc := c.pc, recAddr := o.ea.setWidth 32, fn := k.fn,
            src := r.src, dst := r.dst, rows := max r.rows 1, rowBytes := if r.rows = 0 then r.bytes else r.rowBytes,
            bytes := r.bytes, sstride := r.sstride, dstride := r.dstride, aoff := r.aoff, srcSp := r.srcSp,
            dstSp := r.dstSp, rxNote := r.rxNote, rxSlot := bits64 r.ctl 31 16, todo := [(0, r.bytes)] }
        (.done 0, if r.bytes = 0 && !r.rxNote then s else { s with copies := s.copies ++ [q] })
  | a => (a.out, s)

def execCpq (h : Hdr) (a : Src) (off : Word) (s : State) : Host.Outcome State Fault Refusal :=
  let w0 := s.sel.w0
  opInstr (.cpq h a off) s h false 0 .none (cap32 a off 1 .zero 1 .zero) fun c s o => s.cpqAt c w0 o

/-! ### Completion registers (spec/11 R226; spec/13 R264) -/

/-- Does the count of a warp's completion register take `n` more bytes (R226)? -/
def Block.cqFits (k : Block) (wp cq n : Nat) : Bool := decide ((k.sreg wp (48 + cq)).toNat + n < 2 ^ 31)
/-- The registers that a loaded value is to land in, each with its bytes. -/
def landingsOf (k : Block) (wp cq : Nat) (ty : Ty) (d : Dst) (t : Nat) (v : QWord) : List Landing :=
  (List.range ty.regs).map fun j =>
    let r : Dst := match d with
      | .v n => .v (n + j)
      | .s n => .s (n + j)
      | .none => .none
    { thr := t, dst := r, val := wordAt v j, cq := cq, bytes := min 4 ty.bytes, seen := k.dstWord wp t r }

/-- A CPLD for captured operands: every access is checked, then every element is read and is to land. An exception or a
fault leaves all of it undone. `old` is the pending instruction of a replay. -/
def State.cpldRun (s : State) (c : Ctx) (i : Instr) (ty : Ty) (d : Dst) (cq : Nat) (ops : List MemOp) (old : Option Nat) :
    State :=
  let used := fun t => old.bind fun id => (s.blk c.b).usedOf id t
  let s := ops.foldl (fun s o => s.note c.b o.thr o.ea ty.bytes) s
  let (r, s) := s.runOps
    (fun s o =>
      if s.overtakes c.b o.thr (used o.thr) ((s.blk c.b).ranges c.wp i o) then (.stall, s)
      else
        match s.globalAccess c.b o.thr o.ea ty.bytes ty.bytes .read true with
        | (.place _, s) => (.done 0, s)
        | (a, s) => (a.out, s)) ops
  let drop := fun (s : State) => match old with
    | some id => s.dropPend c.b id
    | none => s
  if r.exc ≠ [] then r.exc.foldl (fun s x => s.raiseAll c.b [x.1] c.pc x.2.1 x.2.2) (drop s)
  else if r.page ≠ [] then
    let (id, s) := s.openLog c i ops 0 .read r.page
    match old with
    | some p => s.updPend c.b p fun p => { p with log := some id }
    | none => s.pendFault c 0 c.exe ty.regs d id
  else if r.stall ≠ [] then drop s
  else
    let s := drop s
    let (v, s) := s.runOps
      (fun s o =>
        match s.globalAccess c.b o.thr o.ea ty.bytes ty.bytes .read true with
        | (.place p, s) => s.loadAt c.b o.thr false ty p
        | (a, s) => (a.out, s)) ops
    let s := s.updBlk c.b fun k =>
      let n := k.sreg c.wp (48 + cq) + BitVec.ofNat 32 (ty.bytes * c.exe.length)
      let k := k.setSreg c.wp (48 + cq) n
      { k with landings := k.landings ++ v.done.flatMap fun x => landingsOf k c.wp cq ty d x.1 x.2 }
    s.advance c.b c.exe c.next

def execCpld (h : Hdr) (ty : Ty) (d : Dst) (a : Src) (cq : Nat) (off : Word) (s : State) :
    Host.Outcome State Fault Refusal :=
  issue (.cpld h ty d a cq off) s fun c s =>
    let k := s.blk c.b
    if k.cqFits c.wp cq (ty.bytes * c.exe.length) then
      s.cpldRun c (.cpld h ty d a cq off) ty d cq (c.exe.map (cap64 a off 1 .zero 1 .zero c k)) none
    else s

/-- CQWAIT: the executing threads go on when the register reads 0. -/
def execCqwait (h : Hdr) (cq : Nat) (s : State) : Host.Outcome State Fault Refusal :=
  issue (.cqwait h cq) s fun c s =>
    if (s.blk c.b).sreg c.wp (48 + cq) = 0 then s.advance c.b c.exe c.next
    else c.exe.foldl (fun s t => s.setWait c.b t (.cqwait cq c.next)) s

/-! ### Arrival objects (spec/11 R221..R224; spec/13 R265) -/

/-- AARM of one thread: n in `o.b`, m in `o.c`. -/
def State.aarmAt (s : State) (c : Ctx) (o : MemOp) : AccOut × State :=
  match s.scratchAccess c.b (o.ea.setWidth 32) 16 16 with
  | .place (.scratch p off) =>
    if s.feedAhead c.b o.thr (.scratch p off) then (.stall, s) else
    let s := s.settle c.b o.thr (.scratch p off) 16
    (match (s.arrival p off).arm (o.b.toNat % 2 ^ 32) (o.c.toNat % 2 ^ 32) with
      | none => (.exc cARMOVF .free, s)
      | some x => (.done 0, s.setArrival p off x))
  | a => (a.out, s)
def State.aarriveAt (s : State) (c : Ctx) (o : MemOp) : AccOut × State :=
  match s.scratchAccess c.b (o.ea.setWidth 32) 16 16 with
  | .place (.scratch p off) =>
    if s.feedAhead c.b o.thr (.scratch p off) then (.stall, s) else
    (.done 0, (s.settle c.b o.thr (.scratch p off) 16).updArrival p off Arrival.arriveOne)
  | a => (a.out, s)
/-- Is the HOST bit of the object's PATHS set? -/
def Arrival.hostFed (a : Arrival) : Bool := 8 ≤ a.paths
/-- AWAIT of one thread: h in `o.b`. An object fed by the HOST path also asks for the fence of R224. -/
def State.awaitAt (s : State) (c : Ctx) (o : MemOp) : AccOut × State :=
  match s.scratchAccess c.b (o.ea.setWidth 32) 16 16 with
  | .place (.scratch p off) =>
    let s := s.settle c.b o.thr (.scratch p off) 16
    let x := s.arrival p off
    let h : Word := o.b.setWidth 32
    if x.passed h && (!x.hostFed || s.hostQ = []) then (.done 0, s.acquire (s.blk c.b).core)
    else (.moved, s.setWait c.b o.thr (.await p off h c.next))
  | a => (a.out, s)

def execAarm (h : Hdr) (a b c : Src) (off : Word) (s : State) : Host.Outcome State Fault Refusal :=
  opInstr (.aarm h a b c off) s h false 0 .none (cap32 a off 1 b 1 c) fun c s o => s.aarmAt c o
def execAarrive (h : Hdr) (a : Src) (off : Word) (s : State) : Host.Outcome State Fault Refusal :=
  opInstr (.aarrive h a off) s h false 0 .none (cap32 a off 1 .zero 1 .zero) fun c s o => s.aarriveAt c o
def execAwait (h : Hdr) (a b : Src) (off : Word) (s : State) : Host.Outcome State Fault Refusal :=
  opInstr (.await h a b off) s h false 0 .none (cap32 a off 1 b 1 .zero) fun c s o => s.awaitAt c o

/-! ### The stash (spec/11 R228, R229; spec/13 R266, R267) -/

def Block.smap (k : Block) (n : Nat) : Option Smap := k.smaps.get none n
/-- Lines of memory that a block's mappings hold. -/
def State.smapLines (s : State) (b : Nat) : List Nat :=
  let k := s.blk b
  (List.range 16).flatMap fun n => match k.smap n with
    | some m => s.rangeLines k.fn m.base m.size
    | none => []
/-- SMAP by the Leader: the old mapping of the slot goes first, then the checks, then the new mapping. -/
def State.smapSet (s : State) (c : Ctx) (n : Nat) (g : DWord) (size off : Nat) : State :=
  let k := s.blk c.b
  let s := match k.smap n with
    | some m => (s.dropLines k.core (s.rangeLines k.fn m.base m.size)).updBlk c.b fun k =>
        { k with smaps := k.smaps.set none n none }
    | none => s
  if size = 0 then s.advance c.b c.exe c.next
  else if g.toNat % 128 ≠ 0 || size % 128 ≠ 0 || off % 128 ≠ 0 then s.raiseAll c.b c.exe c.pc cALIGN .free
  else
    let meets := (List.range 16).any fun j => match (s.blk c.b).smap j with
      | some m => j ≠ n && (rangesMeet m.base m.size g.toNat size || rangesMeet m.off m.size off size)
      | none => false
    if decide (k.stashSize < off + size) || meets || !canonical g || inFabric g || inAperture g then
      s.raiseAll c.b c.exe c.pc cPERM .free
    else
      let s := s.dropLines k.core (s.rangeLines k.fn g.toNat size)
      (s.updBlk c.b fun k =>
        { k with smaps := k.smaps.set none n (some { base := g.toNat, size := size, off := off }) }).advance c.b c.exe c.next

def execSmap (h : Hdr) (n : Nat) (a b c : Src) (s : State) : Host.Outcome State Fault Refusal :=
  issue (.smap h n a b c) s fun x s =>
    let k := s.blk x.b
    s.smapSet x n (k.pair x.lead a) (k.num x.lead 1 b) (k.num x.lead 1 c)

def execSflush (h : Hdr) (s : State) : Host.Outcome State Fault Refusal :=
  issue (.sflush h) s fun c s =>
    let k := s.blk c.b
    let (id, s) := s.newId
    let f : Flush :=
      { id := id, blk := c.b, thrs := c.exe, die := dieOf k.core, core := k.core, lines := s.smapLines c.b, inv := false }
    ({ s with sflushes := s.sflushes ++ [f] }).advance c.b c.exe c.next

end Sys2Proof.Machine
end

