-- ==== Sys2Proof/Machine/Content.lean ====
section
/-! DEFINITION. The content store and its instructions (spec/12 R233..R246; spec/13 R268..R273). -/
namespace Sys2Proof.Machine

/-! ### Vaults (spec/12 R233..R235) -/

def State.vault (s : State) (n : Nat) : Vault := s.vaults.get {} n
def Vault.en (v : Vault) : Bool := bitAt v.ctl 0
def Vault.owner (v : Vault) : Nat := bits64 v.ctl 15 8
def Vault.base (v : Vault) : Nat := bits64 v.ctl 51 21 * 0x200000
def Vault.ixq (v : Vault) : Nat := bits64 v.size 47 32
def Vault.qf (v : Vault) : Nat := bits64 v.size 15 0
/-- Buckets of a quarter's index, and line slots of a quarter. -/
def Vault.buckets (v : Vault) : Nat := v.ixq * 16384
def Vault.slots (v : Vault) : Nat := (v.qf - v.ixq) * 16384
/-- The address of line slot `j` of quarter `d`. -/
def Vault.slotAt (v : Vault) (d j : Nat) : Nat := v.base + (d * v.qf + v.ixq) * 0x200000 + j * 128
/-- May a function use vault n? -/
def State.usable (s : State) (fn n : Nat) : Bool :=
  let v := s.vault n
  decide (1 ≤ n) && decide (n ≤ 255) && v.en &&
    (v.owner = fn || (decide (1 ≤ fn) && decide (fn ≤ 64) && bitAt v.grant (fn - 1)))

/-! ### Names and entries (spec/12 R236, R237) -/

def nameVid (x : QWord) : Nat := x.toNat / 2 ^ 120
def nameHash (x : QWord) : Nat := x.toNat / 2 ^ 8 % 2 ^ 112
def nameCi (x : QWord) : Nat := x.toNat % 256
def nameOf (vid h ci : Nat) : QWord := BitVec.ofNat 128 (vid * 2 ^ 120 + h * 2 ^ 8 + ci)
/-- The home die of a name's line: name bits [9:8]. -/
def nameDie (x : QWord) : Nat := nameHash x % 4

def CEntry.alive (e : CEntry) : Bool := e.state ≠ .reclaiming
/-- The entry of a name. -/
def State.entry (s : State) (x : QWord) : Option CEntry := s.content.find? fun e => e.name = x
/-- The live or held entry that a function may read by a name. -/
def State.readable (s : State) (fn : Nat) (x : QWord) : Option CEntry :=
  if s.usable fn (nameVid x) then (s.entry x).filter CEntry.alive else none
/-- Changes the entry of a name. -/
def State.updEntry (s : State) (x : QWord) (f : CEntry → CEntry) : State :=
  { s with content := s.content.map fun e => if e.name = x then f e else e }
/-- AddRef (spec/12 R238). -/
def CEntry.addRef (e : CEntry) : CEntry := if e.ref = 0xFFFFFFFF then { e with pin := true } else { e with ref := e.ref + 1 }
/-- The child names of a node's line, null ones left out. -/
def childNames (data : List Byte) : List QWord :=
  ((List.range 8).map fun j => valueOf ((data.drop (16 * j)).take 16)).filter (· ≠ 0)

/-- Adds a reference to a block's journal while it is contained and restartable (spec/12 R245). -/
def State.journal (s : State) (b : Nat) (j : Journal) : State :=
  s.updBlk b fun k => if k.tentative then { k with journal := k.journal ++ [j] } else k

/-! ### Release and reclaim (spec/12 R239, R240) -/

/-- What a CAREL of an entry does to it; `hold` says that the releasing block has uncommitted references. None is
REFUNDER. -/
def CEntry.release (e : CEntry) (hold : Bool) : Option CEntry :=
  if e.state = .reclaiming || e.ref = 0 then none
  else if e.pin then some e
  else if e.ref = 1 then some { e with ref := 0, state := if hold then .held else .reclaiming }
  else some { e with ref := e.ref - 1 }
/-- Has a restartable block released a name and not committed it? A kill would restore that count, so the entry is held when its count
falls to 0 (R245; log 38). -/
def State.journalled (s : State) (x : QWord) : Bool :=
  s.blocks.any fun e => e.2.any fun k => k.tentative && k.journal.contains (.released x)
/-- A CAREL that raises nothing: made by a reclaim, at the end of a copy-out, or to undo a reference. -/
def State.releaseQuiet (s : State) (x : QWord) : State := s.updEntry x fun e => (e.release (s.journalled x)).getD e
/-- A reclaiming entry gives up its children and its slot, and is free. -/
def State.reclaimEntry (s : State) (e : CEntry) : State :=
  let s := { s with content := s.content.filter fun x => x.name ≠ e.name }
  if e.node then (childNames e.data).foldl (fun s x => s.releaseQuiet x) s else s
/-- Every pending reclaim of a die completes; the recursion is on the number of entries. -/
def State.reclaimDie (s : State) (die : Nat) : Nat → State
  | 0 => s
  | n + 1 =>
    match s.content.find? fun e => e.state = .reclaiming && nameDie e.name = die with
    | some e => (s.reclaimEntry e).reclaimDie die n
    | none => s

/-! ### CAINT (spec/12 R238; spec/13 R269) -/

/-- A free index position of the probed buckets, and a free line slot (R237, R238). -/
def State.freePlace (s : State) (vid : Nat) (name : QWord) : Option (Nat × Nat) :=
  let v := s.vault vid
  let d := nameDie name
  let mine := s.content.filter fun e => nameVid e.name = vid && nameDie e.name = d
  let start := name.toNat / 2 ^ 10 % 2 ^ 38 % max v.buckets 1
  let probe := (List.range (min 16 v.buckets)).flatMap fun j =>
    (List.range 4).map fun q => (start + j) % v.buckets * 4 + q
  match probe.find? fun p => mine.all fun e => e.line ≠ p, (List.range v.slots).find? fun j => mine.all fun e =>
      e.slot ≠ v.slotAt d j with
  | some p, some j => some (p, v.slotAt d j)
  | _, _ => none

/-- CAINT of 128 bytes for a block. -/
def State.intern (s : State) (b vid : Nat) (node : Bool) (x : List Byte) : AccOut × State :=
  let fn := (s.blk b).fn
  if !s.usable fn vid then (.exc cDANGLING .free, s)
  else
    let h := (keyedBlake3 (Config.vaultKey vid (s.vault vid).keys) ((if node then 1 else 0) :: x)).toNat
    let same := s.content.filter fun e => nameVid e.name = vid && nameHash e.name = h
    match same.find? fun e => e.alive && e.node = node && e.data = x with
    | some e =>
      (.done e.name, (s.updEntry e.name fun e => { e.addRef with state := .live }).journal b (.took e.name))
    | none =>
      match (List.range 256).find? fun c => same.all fun e => nameCi e.name ≠ c with
      | none => (.exc cCHAINOUT .free, s)
      | some c =>
        let kids := if node then childNames x else []
        if kids.any fun y => nameVid y ≠ vid || (s.readable fn y).isNone then (.exc cDANGLING .free, s)
        else
          let name := nameOf vid h c
          let s := if (s.freePlace vid name).isSome then s else s.reclaimDie (nameDie name) (s.content.length * 2)
          match s.freePlace vid name with
          | none => (.exc cVAULTFULL .free, s)
          | some (p, slot) =>
            let e : CEntry := { name := name, state := .live, node := node, pin := false, line := p, slot := slot, ref := 1, data := x }
            let s := { s.writePA slot x with content := s.content ++ [e] }
            let s := kids.foldl (fun s y => s.updEntry y CEntry.addRef) s
            (.done name, s.journal b (.took name))

/-- The 128 bytes that a CAINT names for a thread, or why there are none: a row pair beyond 31 is PERM at run time. -/
def State.caintBytes (s : State) (c : Ctx) (src : CaSrc) (t : Nat) : Except (Word × Aux) (List Byte) × State :=
  let k := s.blk c.b
  match src with
  | .tile n row =>
    let r := k.num t 1 row
    (if 31 < r then .error (cPERM, .free) else .ok (k.tileBytes c.wp n (128 * r) 128), s)
  | .scratch a =>
    match s.scratchAccess c.b (k.word t a) 128 16 with
    | .place p =>
      let s := s.settle c.b t p 128
      let (bs, s) := s.readPlace c.b t .lsu p 128
      (.ok bs, s)
    | .exc code aux => (.error (code, aux), s)
    | _ => (.ok [], s)

def State.caintAt (s : State) (c : Ctx) (node : Bool) (src : CaSrc) (o : MemOp) : AccOut × State :=
  match s.caintBytes c src o.thr with
  | (.error e, s) => (.exc e.1 e.2, s)
  | (.ok bs, s) => s.intern c.b (o.b.toNat % 256) node bs

def execCaint (h : Hdr) (node : Bool) (src : CaSrc) (vid : Src) (d : Dst) (s : State) : Host.Outcome State Fault Refusal :=
  let c := s.ctxOf h.u
  let beyond : Bool := match src with
    | .tile n _ => decide (((s.blk c.b).warp c.wp).tiles ≤ n)
    | .scratch _ => false
  if beyond then finish (s.ill 7)
  else opInstr (.caint h node src vid d) s h true 4 d (fun _ k t => { thr := t, b := k.src t 1 vid })
    fun c s o => s.caintAt c node src o

/-! ### CAGET, CAREL, CAEXP (spec/12 R239, R241, R243; spec/13 R270..R273) -/

/-- CAGET of one thread: the line's bytes to the scratchpad, the kind as its value. -/
def State.cagetAt (s : State) (c : Ctx) (o : MemOp) : AccOut × State :=
  match s.scratchAccess c.b (o.ea.setWidth 32) 128 16 with
  | .place p =>
    (match s.readable (s.blk c.b).fn o.b with
      | none => (.exc cDANGLING .free, s)
      | some e => (.done (if e.node then 1 else 0), (s.settle c.b o.thr p 128).writePlace c.b .lsu p e.data))
  | a => (a.out, s)
def execCaget (h : Hdr) (d : Dst) (a b : Src) (off : Word) (s : State) : Host.Outcome State Fault Refusal :=
  opInstr (.caget h d a b off) s h true 1 d (cap32 a off 4 b 1 .zero) fun c s o => s.cagetAt c o

/-- CAREL of one thread. -/
def State.carelAt (s : State) (c : Ctx) (o : MemOp) : AccOut × State :=
  let k := s.blk c.b
  if o.b = 0 then (.done 0, s)
  else if !s.usable k.fn (nameVid o.b) then (.exc cDANGLING .free, s)
  else
    match s.entry o.b with
    | none => (.exc cDANGLING .free, s)
    | some e =>
      match e.release (k.tentative || s.journalled o.b) with
      | none => (.exc cREFUNDER .free, s)
      | some f =>
        let s := s.updEntry o.b fun _ => f
        (.done 0, if e.pin then s else s.journal c.b (.released o.b))
def execCarel (h : Hdr) (b : Src) (s : State) : Host.Outcome State Fault Refusal :=
  opInstr (.carel h b) s h false 0 .none (fun _ k t => { thr := t, b := k.src t 4 b }) fun c s o => s.carelAt c o

/-- The tree below a name that a function may read, depth first: the entries read and the leaves' bytes, up to a limit; none
when a name is unknown. The recursion is on a depth bound; a tree is no deeper than the number of entries. -/
def State.export (s : State) (fn limit : Nat) : Nat → QWord → List QWord × List Byte → Option (List QWord × List Byte)
  | 0, _, acc => some acc
  | n + 1, x, acc =>
    if limit ≤ acc.2.length then some acc
    else
      match s.readable fn x with
      | none => none
      | some e =>
        let acc := (if acc.1.contains x then acc.1 else acc.1 ++ [x], acc.2)
        if e.node then (childNames e.data).foldl (fun acc y => acc.bind (s.export fn limit n y)) (some acc)
        else some (acc.1, (acc.2 ++ e.data).take limit)

/-- CAEXP of one thread: the address in `o.ea`, the name in `o.b`, limit and arrival object in `o.c`. -/
def State.caexpAt (s : State) (c : Ctx) (o : MemOp) : AccOut × State :=
  let limit := o.c.toNat % 2 ^ 32
  let aoff : Word := BitVec.ofNat 32 (o.c.toNat / 2 ^ 32)
  let k := s.blk c.b
  if (s.objectAt c.b aoff).any fun x => s.feedAhead c.b o.thr (.scratch x.1 x.2) then (.stall, s)
  else if (s.readable k.fn o.b).isNone then (.exc cDANGLING .free, s)
  else
    match s.export k.fn limit (s.content.length + 1) o.b ([], []) with
    | none => (.exc cDANGLING .free, s)
    | some (names, bytes) =>
      match s.feedObject c.b aoff 4 with
      | (some e, s) => (.exc e.1 e.2, s)
      | (none, s) =>
        let (id, s) := s.newId
        let x : Export :=
          { id := id, blk := c.b, thr := o.thr, pc := c.pc, fn := k.fn, dst := o.ea, bytes := bytes, aoff := aoff,
            held := names }
        if bytes = [] then (.done 0, s)
        else
          let s := names.foldl (fun s y => s.updEntry y CEntry.addRef) s
          (.done 0, { s with exports := s.exports ++ [x] })
/-- CAEXP: a byte limit of a thread that is beyond 2^28 - 1 makes the instruction an illegal one, for the whole bundle
(spec/13 R273; spec/03 R64). -/
def execCaexp (h : Hdr) (a b c : Src) (off : Word) (s : State) : Host.Outcome State Fault Refusal :=
  let k := s.blk s.sel.blk
  let named := if h.u then s.sel.thrs.take 1 else s.sel.thrs
  if named.any fun t => decide (2 ^ 28 ≤ k.num t 2 c % 2 ^ 32) then finish (s.ill 0xB)
  else opInstr (.caexp h a b c off) s h false 0 .none (cap64 a off 4 b 2 c) fun c s o => s.caexpAt c o

end Sys2Proof.Machine
end

