-- ==== Sys2Proof/Machine/Place.lean ====
section
/-! DEFINITION. Launch descriptors, the free resources of a core, and the dispatcher (spec/16 R310, R311, R314, R315, R447;
spec/15 R284..R289; spec/02 R25). -/
namespace Sys2Proof.Machine

/-! ### Launch descriptors (spec/16 R310) -/

/-- A launch descriptor. `clean` says that its reserved fields are 0. -/
structure Desc where
  clean : Bool
  flags : Nat
  gx : Nat
  gy : Nat
  gz : Nat
  clx : Nat
  cly : Nat
  clz : Nat
  stash : Nat
  scratch : Nat
  param : DWord
  paramSize : Nat
  gtempl : DWord
  format : DWord
  traceBuf : DWord
  catchPc : DWord
  stack : DWord
  stackSize : Nat
  roles : List Role
  deriving DecidableEq, Repr

/-- A little-endian number of `n` bytes at an offset of a list of bytes. -/
def numIn (bs : List Byte) (off n : Nat) : Nat := leNat ((bs.drop off).take n)

/-- Role n of a descriptor, with its reserved bits. -/
def roleOf (bs : List Byte) (n : Nat) : Role × Bool :=
  let x := numIn bs (0x60 + 16 * n + 8) 8
  ({ entry := addr (numIn bs (0x60 + 16 * n) 8), warps := field x 25 20, prio := field x 19 18, acc := field x 17 16,
     tiles := field x 12 8, regq := field x 5 0 },
   field x 63 26 = 0 && field x 15 13 = 0 && field x 7 6 = 0)

/-- The descriptor that 256 bytes hold. -/
def Desc.of (bs : List Byte) : Desc :=
  let w := fun n : Nat => numIn bs n 8
  let nr := field (w 0) 13 12 + 1
  let roles := (List.range nr).map (roleOf bs)
  { clean := field (w 0) 63 16 = 0 && field (w 0) 11 5 = 0 && field (w 0x10) 63 44 = 0 && field (w 0x18) 63 24 = 0 &&
      field (w 0x28) 63 32 = 0 && field (w 0x58) 63 32 = 0 && (bs.drop 0xA0).all (· = 0) && roles.all (·.2)
    flags := w 0, gx := field (w 8) 31 0, gy := field (w 8) 63 32, gz := field (w 0x10) 31 0, clx := field (w 0x10) 35 32,
    cly := field (w 0x10) 39 36, clz := field (w 0x10) 43 40, stash := field (w 0x18) 23 20, scratch := field (w 0x18) 19 0,
    param := addr (w 0x20), paramSize := field (w 0x28) 31 0, gtempl := addr (w 0x30), format := addr (w 0x38),
    traceBuf := addr (w 0x40), catchPc := addr (w 0x48), stack := addr (w 0x50), stackSize := field (w 0x58) 31 0,
    roles := roles.map (·.1) }

def Desc.traced (d : Desc) : Bool := d.flags % 2 = 1
def Desc.contained (d : Desc) : Bool := d.flags / 2 % 2 = 1
def Desc.isProtected (d : Desc) : Bool := d.flags / 4 % 2 = 1
def Desc.coresident (d : Desc) : Bool := d.flags / 8 % 2 = 1
def Desc.hasCatch (d : Desc) : Bool := d.flags / 16 % 2 = 1
def Desc.qclass (d : Desc) : Nat := field d.flags 15 14
def Desc.nwarps (d : Desc) : Nat := d.roles.foldl (fun n r => n + r.warps) 0
/-- Blocks of a cluster. -/
def Desc.csize (d : Desc) : Nat := d.clx * d.cly * d.clz
/-- The grid in blocks replaced, as GRIDADDR does (R304). -/
def Desc.withGrid (d : Desc) (g : Nat × Nat × Nat) : Desc := { d with gx := g.1, gy := g.2.1, gz := g.2.2 }
def Desc.grid (d : Desc) : Nat × Nat × Nat := (d.gx, d.gy, d.gz)
/-- Clusters of the grid. -/
def Desc.clusters (d : Desc) : Nat := (d.gx / d.clx) * (d.gy / d.cly) * (d.gz / d.clz)

def Role.ok (r : Role) : Bool :=
  decide (1 ≤ r.warps) && decide (r.warps ≤ 32) && decide (r.acc ≤ 2) && decide (r.tiles ≤ 16) && decide (1 ≤ r.regq) &&
    decide (r.regq ≤ 32) && r.entry.toNat % 4 = 0
/-- The conditions of R311 on the descriptor alone. -/
def Desc.ok (d : Desc) : Bool :=
  d.clean && decide (1 ≤ d.gx) && decide (1 ≤ d.gy) && decide (1 ≤ d.gz) && decide (1 ≤ d.csize) && decide (d.csize ≤ 8) &&
    d.gx % d.clx = 0 && d.gy % d.cly = 0 && d.gz % d.clz = 0 && decide (d.stash ≤ 8) && d.scratch % 128 = 0 &&
    decide (d.scratch + 65536 * d.stash ≤ 524288) && d.param.toNat % 8 = 0 && d.stackSize % 128 = 0 &&
    (!d.hasCatch || d.catchPc.toNat % 4 = 0) && (!d.traced || d.traceBuf.toNat % 256 = 0) && d.gtempl.toNat % 64 = 0 &&
    d.format.toNat % 64 = 0 && d.roles.all Role.ok && decide (d.nwarps ≤ 32)

/-- The 16 masks of a group template. -/
def groupMasks (bs : List Byte) : List Word := (List.range 16).map fun g => BitVec.ofNat 32 (numIn bs (4 * g) 4)
/-- No bit at or above the warp count, no warp in more than 4 groups (R311). -/
def groupsOk (nw : Nat) (gs : List Word) : Bool :=
  gs.all (fun m => decide (m.toNat < 2 ^ nw)) &&
    (List.range 32).all fun w => decide ((gs.filter fun m => m.getLsbD w).length ≤ 4)

/-! ### Resources (spec/15 R284, R285) -/

/-- What warps need of a partition, or what it has free. -/
structure Need where
  slots : Nat
  regs : Nat
  tiles : Nat
  accs : Nat
  deriving DecidableEq, Repr

def Need.fits (n f : Need) : Bool :=
  decide (n.slots ≤ f.slots) && decide (n.regs ≤ f.regs) && decide (n.tiles ≤ f.tiles) && decide (n.accs ≤ f.accs)
def Need.add (a b : Need) : Need :=
  { slots := a.slots + b.slots, regs := a.regs + b.regs, tiles := a.tiles + b.tiles, accs := a.accs + b.accs }
/-- An empty partition, as tenants may use it. -/
def capacity (part : Nat) : Need :=
  if part = 3 then { slots := 15, regs := 504, tiles := 16, accs := 2 } else { slots := 16, regs := 512, tiles := 16, accs := 2 }

/-- The role of each warp of a descriptor, in order (R284). -/
def Desc.warpRoles (d : Desc) : List Nat := (d.roles.zipIdx).flatMap fun r => List.replicate r.1.warps r.2
/-- What each run needs. -/
def Desc.runs (d : Desc) : List Need :=
  let ws := d.warpRoles
  (List.range ((ws.length + 7) / 8)).map fun k =>
    let run := (ws.drop (8 * k)).take 8
    let role := fun n : Nat => ((d.roles[n]?).getD {} : Role)
    { slots := run.length, regs := run.foldl (fun n r => n + 8 * (role r).regq) 0,
      tiles := run.foldl (fun n r => n + (role r).tiles) 0, accs := run.eraseDups.foldl (fun n r => n + (role r).acc) 0 }

/-- Ways to put runs on distinct partitions that have room; the recursion is on the runs. -/
def placings (free : Nat → Need) : List Need → List Nat → List (List Nat)
  | [], _ => [[]]
  | n :: ns, used =>
    (List.range 4).flatMap fun p =>
      if used.contains p || !n.fits (free p) then [] else (placings free ns (p :: used)).map (p :: ·)

/-- The block fits an empty core (R311). -/
def Desc.fitsEmpty (d : Desc) : Bool := placings capacity d.runs [] ≠ []

/-- Blocks that hold resources of a core. -/
def State.onCore (s : State) (core : Nat) : List Block :=
  s.blocks.filterMap fun e => e.2.filter fun k =>
    k.core = core && k.status ≠ .saved && !k.agent && !(k.status = .dead && k.notice)
/-- What a block's warps hold on a partition: a warp gives up its resources when its last thread exits (log 24). -/
def Block.holds (k : Block) (part : Nat) : Need :=
  let ws := (List.range k.nwarps).filter fun w => k.partOf w = part && k.liveOf w ≠ []
  let roles := (ws.map fun w => (k.warp w).role).eraseDups
  { slots := ws.length, regs := ws.foldl (fun n w => n + (k.warp w).regs) 0,
    tiles := ws.foldl (fun n w => n + (k.warp w).tiles) 0,
    accs := roles.foldl (fun n r => n + ((k.roles[r]?).getD {}).acc) 0 }
/-- What is free on a partition; nothing on one that is out of service (spec/01 R17). -/
def State.freeOn (s : State) (core part : Nat) : Need :=
  let used := (s.onCore core).foldl (fun (n : Need) k => n.add (k.holds part)) { slots := 0, regs := 0, tiles := 0, accs := 0 }
  let c := capacity part
  if (s.core core).outOfService || (s.core core).partsOut.contains part then { slots := 0, regs := 0, tiles := 0, accs := 0 }
  else { slots := c.slots - used.slots, regs := c.regs - used.regs, tiles := c.tiles - used.tiles, accs := c.accs - used.accs }

/-- Scratchpad, stash and group-table room of a core for `bytes` more bytes (spec/01 R14, spec/15 R286). -/
def State.roomFor (s : State) (core bytes : Nat) (gs : List Word) : Bool :=
  let ks := s.onCore core
  let groups := fun l : List Word => (l.filter (· ≠ 0)).length
  decide (ks.foldl (fun n k => n + k.scratchSize + k.stashSize) bytes ≤ 524288) &&
    decide (ks.foldl (fun n k => n + groups k.groups) (groups gs) ≤ 256)
def State.roomOn (s : State) (core : Nat) (d : Desc) (gs : List Word) : Bool :=
  s.roomFor core (d.scratch + 65536 * d.stash) gs

/-- Warps that wait for a role on a partition, oldest first: block, warp, role. -/
def State.roleWaiters (s : State) (core part : Nat) : List (Nat × Nat × Nat) :=
  let all := s.blocks.flatMap fun e => match e.2 with
    | some k =>
      if k.core = core && k.status = .running then
        (List.range k.nwarps).filterMap fun w =>
          match ((k.liveOf w).head?.bind fun t => if (k.thr t).raised.isSome then none else (k.thr t).wait) with
          | some (.rolesw r seq) => if k.partOf w = part then some (seq, e.1, w, r) else none
          | _ => none
      else []
    | none => []
  (all.mergeSort fun x y => x.1 ≤ y.1).map (·.2)

/-- What a block may be placed in: nothing on a partition where a ROLESW waits (spec/18 R349). -/
def State.openOn (s : State) (core part : Nat) : Need :=
  if s.roleWaiters core part = [] then s.freeOn core part else { slots := 0, regs := 0, tiles := 0, accs := 0 }

/-- The ways in which a block fits a core: the partitions of its runs. -/
def State.waysOn (s : State) (core : Nat) (d : Desc) (gs : List Word) : List (List Nat) :=
  if s.roomOn core d gs then placings (s.openOn core) d.runs [] else []

/-! ### The dispatcher (spec/16 R314; spec/15 R289; spec/02 R25) -/

/-- The threads of a warp: 32, or 16 in a protected launch (spec/15 R277). -/
def warpThreads (isProtected : Bool) (w : Nat) : List Nat := (List.range (if isProtected then 16 else 32)).map (32 * w + ·)

/-- A launch's descriptor with its grid. -/
def State.launchDesc (s : State) (l : Launch) : Desc := (Desc.of (s.readPA l.snap 256)).withGrid l.grid

/-- The lowest block slot of a core that is free (spec/15 R286). -/
def State.freeSlot (s : State) (core : Nat) : Nat :=
  let used := (s.onCore core).map (·.bslot)
  ((List.range 63).find? fun n => !used.contains n).getD 0

/-- The group ids of the groups that hold a warp, as its four membership slots (spec/15 R286). -/
def memberSlots (gs : List Word) (w : Nat) : List (Option Nat) :=
  let ids := (List.range 16).filter fun g => ((gs[g]?).getD 0).getLsbD w
  (List.range 4).map fun j => ids[j]?

/-- A block as it stands when its core's dispatcher has placed it: cluster `ci`, rank `rank`, runs on `parts`. -/
def State.newBlock (s : State) (l : Launch) (core : Nat) (parts : List Nat) (ci rank : Nat) (status : Status) : Block :=
  let d := s.launchDesc l
  let nw := d.nwarps
  let q := ci * d.csize + rank
  let nx := d.gx / d.clx
  let ny := d.gy / d.cly
  let w32 := BitVec.ofNat 32
  let gs := groupMasks (s.readPA (l.snap + 0x100) 64)
  let nt := (if d.isProtected then 16 else 32) * nw
  let ws := (d.warpRoles.zipIdx).map fun x =>
    let r := (d.roles[x.1]?).getD {}
    ({ role := x.1, regs := 8 * r.regq, tiles := r.tiles, acc := r.acc, prio := r.prio, stackLimit := w32 d.stackSize,
       slots := memberSlots gs x.2 } : Warp)
  let fds := (List.range 16).map fun n => w32 (s.num (l.snap + 0x140 + 4 * n) 4)
  let ss := (List.range 16).map (fun n => w32 (s.num (l.snap + 0x180 + 4 * n) 4)) ++
    [d.param.setWidth 32, (d.param >>> 32).setWidth 32]
  let thread := fun t : Nat =>
    let r := (d.roles[((d.warpRoles)[t / 32]?).getD 0]?).getD {}
    ({ live := true, pc := r.entry, grp := t / 32 * 32, sp := addr (d.stack.toNat + (q * nt + t + 1) * d.stackSize) } : Thread)
  let ts := (List.range nw).flatMap (warpThreads d.isProtected)
  { fn := l.fn, lid := l.lid, q := q, ci := ci, rank := rank, core := core, parts := parts, status := status, fresh := true, desc := l.snap,
    contained := d.contained, isProtected := d.isProtected, nwarps := nw, roles := d.roles,
    blkIdx := (w32 (ci % nx * d.clx + rank % d.clx), w32 (ci / nx % ny * d.cly + rank / d.clx % d.cly),
      w32 (ci / (nx * ny) * d.clz + rank / (d.clx * d.cly))),
    nblk := (w32 d.gx, w32 d.gy, w32 d.gz), clusterSize := d.csize,
    groups := gs, bslot := s.freeSlot core,
    threads := ts.foldl (fun m t => m.set {} t (thread t)) [],
    warps := Map.setList {} [] 0 ws,
    sregs := (List.range nw).foldl (fun m w => Map.setList 0 m (w * 64) ss) [],
    fds := (List.range nw).foldl (fun m w => Map.setList 0 m (w * 16) fds) [],
    scratchSize := d.scratch, stashSize := 65536 * d.stash, restartable := d.contained,
    trace := if d.traced then some {} else none }

/-- Puts a new block at a fresh handle. -/
def State.addBlock (s : State) (k : Block) : Nat × State :=
  let (h, s) := s.newId
  (h, { s with blocks := s.blocks.set none h (some k) })

/-! ### The group table (spec/15 R286) -/

/-- An entry of a core's group table. -/
def groupEntry (bslot g : Nat) (mask : Word) : DWord := addr (bslot * 2 ^ 43 + g * 2 ^ 39 + 2 ^ 38 + mask.toNat)
/-- The block slot of an entry. -/
def entrySlot (e : DWord) : Nat := bits64 e 48 43
/-- The lowest unused entry of a table. -/
def freeEntry (m : Map DWord) : Nat := ((List.range 256).find? fun j => m.get 0 j = 0).getD 0
/-- The dispatcher fills one entry for each group of a block. -/
def State.fillGroups (s : State) (b : Nat) : State :=
  let k := s.blk b
  let put := fun (m : Map DWord) (x : Word × Nat) => if x.1 = 0 then m else m.set 0 (freeEntry m) (groupEntry k.bslot x.2 x.1)
  s.updCore k.core fun c => { c with groupTab := k.groups.zipIdx.foldl put c.groupTab }
/-- The entries of a block that leaves its core are free. -/
def State.freeGroups (s : State) (b : Nat) : State :=
  let k := s.blk b
  if k.status = .saved || k.agent then s
  else s.updCore k.core fun c => { c with groupTab := c.groupTab.filter fun e => entrySlot e.2 ≠ k.bslot }

/-- A block is gone. -/
def State.dropBlock (s : State) (b : Nat) : State :=
  let s := s.freeGroups b
  { s with blocks := s.blocks.set none b none }
/-- A warp that is on no core holds no active slot and no fetched words. -/
def Warp.offCore (w : Warp) : Warp := { w with active := false, readySince := none, promoted := none, fbuf := [] }
/-- A block leaves its core and waits to come back. -/
def State.leaveCore (s : State) (b : Nat) : State :=
  (s.freeGroups b).updBlk b fun k => { k with status := .saved, warps := k.warps.map fun e => (e.1, e.2.offCore) }

/-- The held members of a cluster of a region. -/
def State.heldOf (s : State) (region fn : Nat) (lid : Word) (ci : Nat) : List Nat :=
  (s.blocks.filter fun e => match e.2 with
    | some k => k.status = .held && regionOf k.core = region && k.fn = fn && k.lid = lid && k.ci = ci && !k.agent
    | none => false).map (·.1)

/-- A held member is removed from its core; one that was placed again after a kill goes on waiting for a placement. -/
def State.unhold (s : State) (b : Nat) : State :=
  if (s.blk b).avoid.isSome then s.leaveCore b else s.dropBlock b

/-- A cluster is released: its blocks run, each with what the launch or its own stores on another core have written before (log 6),
and the age register that registers it clears (R315, R317). -/
def State.releaseCluster (s : State) (region : Nat) (lid : Word) (ci : Nat) (bs : List Nat) : State :=
  let s := bs.foldl (fun s b => (s.acquire (s.blk b).core).updBlk b fun k => { k with status := .running, fresh := false, avoid := none, saveAt := none }) s
  s.updRegion region fun r =>
    if r.ageId = BitVec.ofNat 32 ci ++ lid then { r with ageId := 0, age := 0 } else r

/-- The block of a cluster and rank that was killed and waits to be placed again (spec/23 R413). -/
def State.killedAt (s : State) (fn : Nat) (lid : Word) (ci rank : Nat) : Option Nat :=
  (s.blocks.find? fun e => match e.2 with
    | some k => k.status = .saved && k.avoid.isSome && k.fn = fn && k.lid = lid && k.ci = ci && k.rank = rank
    | none => false).map (·.1)

/-- The dispatcher of a core takes a block: none when it does not fit. The partitions are the device's choice (R284). -/
def State.dispatch (s : State) (l : Launch) (core ci rank : Nat) : Option Nat × State :=
  let d := s.launchDesc l
  let ways := s.waysOn core d (groupMasks (s.readPA (l.snap + 0x100) 64))
  if ways = [] then (none, s)
  else
    let (c, s) := s.freeNat
    let parts := (ways[c % ways.length]?).getD []
    let fresh := s.newBlock l core parts ci rank .held
    let (h, s) := match s.killedAt l.fn l.lid ci rank with
      | some h => (h, s.updBlk h fun k => { fresh with relaunches := k.relaunches, avoid := k.avoid })
      | none => s.addBlock fresh
    let s := s.fillGroups h
    (some h, if d.csize = 1 then s.releaseCluster (regionOf core) l.lid ci [h] else s)

def State.launchOf (s : State) (fn : Nat) (lid : Word) : Option Launch :=
  s.launches.find? fun l => l.fn = fn && l.lid = lid

/-- Is AGE 4 for another cluster than this one (R317)? -/
def State.banned (s : State) (region : Nat) (lid : Word) (ci : Nat) : Bool :=
  let r := s.region region
  r.age = 4 && r.ageId ≠ BitVec.ofNat 32 ci ++ lid
/-- Does the core hold or run a member of the cluster? -/
def State.memberOn (s : State) (core fn : Nat) (lid : Word) (ci : Nat) : Bool :=
  (s.onCore core).any fun k => k.fn = fn && k.lid = lid && k.ci = ci

end Sys2Proof.Machine
end

