-- ==== Sys2Proof/Machine/Group.lean ====
section
/-! DEFINITION. Group and cluster barriers, role changes, waits on memory, launches from a kernel, and placing blocks
(spec/18). -/
namespace Sys2Proof.Machine

/-! ### Group and cluster barriers (R343, R344) -/

/-- GBAR: every thread of the bundle arrives; one whose guard is false goes on at once. A group that is not defined, or that
does not hold the warp, raises CVSET in the whole bundle. -/
def execGbar (h : Hdr) (g : Nat) (s : State) : Host.Outcome State Fault Refusal :=
  let c := s.ctxOf false
  let k := s.blk c.b
  if !((k.groups[g]?).getD 0).getLsbD c.wp then finish (s.raiseAll c.b c.bundle c.pc cCVSET .free)
  else
    let exe := c.bundle.filter fun t => (k.thr t).guard h
    let s := s.advance c.b (c.bundle.filter fun t => !exe.contains t) c.next
    let s := exe.foldl (fun s t => s.setWait c.b t (.gbar g c.next)) s
    let arr := k.gbarArr.get [] g
    let new := c.bundle.filter fun t => !arr.contains t
    let s := s.updBlk c.b fun k => { k with gbarArr := k.gbarArr.set [] g (arr ++ new) }
    finish (s.checkGbar c.b g)

/-- CLBAR: as GBAR with the cluster; it forces a commit, and raises PEERLOST in every arriving thread once a member of the
cluster has died. -/
def execClbar (h : Hdr) (s : State) : Host.Outcome State Fault Refusal :=
  let c := s.ctxOf false
  let k := s.blk c.b
  if s.clusterLost c.b then finish (s.raiseAll c.b c.bundle c.pc cPEERLOST .free)
  else
    let s := s.force c.b
    let exe := c.bundle.filter fun t => (k.thr t).guard h
    let s := s.advance c.b (c.bundle.filter fun t => !exe.contains t) c.next
    let s := exe.foldl (fun s t => s.setWait c.b t (.clbar c.next)) s
    let s := s.updBlk c.b fun k => { k with clArr := k.clArr ++ c.bundle.filter fun t => !k.clArr.contains t }
    finish (s.checkClbar c.b)

/-! ### Changing role (R347..R349) -/

/-- Live warps of a role on a partition, other than one warp. -/
def Block.roleOthers (k : Block) (part role wp : Nat) : List Nat :=
  (List.range k.nwarps).filter fun w => w ≠ wp && k.partOf w = part && (k.warp w).role = role && k.liveOf w ≠ []

/-- What a warp needs beyond what it frees when it takes role r. -/
def Block.roleGrowth (k : Block) (wp r : Nat) : Need :=
  let w := k.warp wp
  let p := k.partOf wp
  let new := (k.roles[r]?).getD {}
  let freed := if r ≠ w.role && k.roleOthers p w.role wp = [] then ((k.roles[w.role]?).getD {}).acc else 0
  let taken := if r ≠ w.role && k.roleOthers p r wp = [] then new.acc else 0
  { slots := 0, regs := 8 * new.regq - w.regs, tiles := new.tiles - w.tiles, accs := taken - freed }

/-- Can a warp take role r now: it needs nothing more, or what it needs is free and no earlier ROLESW waits for the
partition. -/
def State.roleFree (s : State) (b wp r : Nat) : Bool :=
  let k := s.blk b
  let g := k.roleGrowth wp r
  g = { slots := 0, regs := 0, tiles := 0, accs := 0 } ||
    (g.fits (s.freeOn k.core (k.partOf wp)) &&
      ((s.roleWaiters k.core (k.partOf wp)).head?.map fun x => (x.1, x.2.1)).all fun x => x = (b, wp))

/-- The warp takes role r in one step (R348). -/
def Block.takeRole (k : Block) (wp r : Nat) : Block :=
  let w := k.warp wp
  let p := k.partOf wp
  let o := w.role
  let new := (k.roles[r]?).getD {}
  let keepR := min w.regs (8 * new.regq)
  let keepT := min w.tiles new.tiles
  let accs := if r = o then k.accs
    else
      let m := if k.roleOthers p o wp = [] then k.accs.clear (accKey p o 0) 2 else k.accs
      if k.roleOthers p r wp = [] then m.clear (accKey p r 0) 2 else m
  let ts := k.liveOf wp
  { k with
    vregs := k.vregs.clear (vkey wp keepR 0) ((256 - keepR) * 32)
    vtags := k.vtags.clear (wp * 256 + keepR) (256 - keepR)
    tiles := k.tiles.clear ((wp * 16 + keepT) * 4096) ((16 - keepT) * 4096)
    sides := k.sides.clear ((wp * 16 + keepT) * 512) ((16 - keepT) * 512)
    tcs := k.tcs.clear (wp * 16 + keepT) (16 - keepT)
    accs := accs
    warps := k.warps.upd {} wp fun w =>
      { w with role := r, regs := 8 * new.regq, tiles := new.tiles, acc := new.acc, prio := new.prio }
    threads := ts.foldl
      (fun m t => m.upd {} t fun th =>
        { th with pc := new.entry, wait := none, tstack := th.tstack.filter fun e => e.level ≠ 0 }) k.threads }

/-- Does a thread of the warp hold a signature? -/
def Block.signedWarp (k : Block) (ts : List Nat) : Bool :=
  (List.range 8).any fun n => ts.any fun t => (k.kreg n).signed.getLsbD t

/-- ROLESW, or ROLESW.TRY with its predicate: gathers every live thread of the warp and issues once. -/
def roleInstr (h : Hdr) (pd : Option Nat) (r : Nat) (s : State) : Host.Outcome State Fault Refusal :=
  let c := s.ctxOf false
  let k := s.blk c.b
  let all := k.liveOf c.wp
  let exe := all.filter fun t => (k.thr t).guard h
  if !k.complete c.pc all then finish s
  else if k.roles.length ≤ r then finish (s.illAll c.b all c.pc s.sel.w0 0xB)
  else if exe = [] then finish (s.advance c.b all c.next)
  else if exe ≠ all then finish (s.raiseAll c.b all c.pc cCVSET .free)
  else if k.signedWarp all then finish (s.raiseAll c.b all c.pc cCVSET .free)
  else
    let set := fun (v : Bool) (s : State) => match pd with
      | some p => s.updThrs c.b all fun th => th.setPred p v
      | none => s
    if s.roleFree c.b c.wp r then finish ((set true s).updBlk c.b fun k => k.takeRole c.wp r)
    else
      match pd with
      | some _ => finish ((set false s).advance c.b all c.next)
      | none =>
        let (seq, s) := s.newId
        finish (s.updThrs c.b all fun th => { th with wait := some (.rolesw r seq) })

def execRolesw (h : Hdr) (r : Nat) (s : State) : Host.Outcome State Fault Refusal := roleInstr h none r s
def execRoleswTry (h : Hdr) (pd r : Nat) (s : State) : Host.Outcome State Fault Refusal := roleInstr h (some pd) r s

/-! ### Waiting on memory (R350..R355) -/

/-- Captured operands of WAIT and WAKE. -/
def capWait (a : Src) (bw : Nat) (b : Src) (_ : Ctx) (k : Block) (t : Nat) : MemOp :=
  { thr := t, ea := k.pair t a, b := k.src t bw b }
def execWait (h : Hdr) (op : CmpOp) (ty : Ty) (pd : Nat) (a b : Src) (s : State) : Host.Outcome State Fault Refusal :=
  memInstr (.wait h op ty pd a b) s h false 0 .none (capWait a ty.regs b)
def execWaitExt (h : Hdr) (op : CmpOp) (ty : Ty) (pd : Nat) (a b : Src) (s : State) :
    Host.Outcome State Fault Refusal :=
  memInstr (.waitExt h op ty pd a b) s h false 0 .none (capWait a ty.regs b)
def execWake (h : Hdr) (d : Dst) (a b : Src) (s : State) : Host.Outcome State Fault Refusal :=
  memInstr (.wake h d a b) s h false 1 d (capWait a 1 b)

/-! ### Launching from a kernel (R356, R357) -/

/-- Canonical device space, outside the aperture and the fabric window. -/
def deviceSpace (a : DWord) : Bool := canonical a && !inFabric a && !inAperture a

/-- The first exception of the operands: descriptor, grid words or trace buffer, completion record. -/
def launchCheck (trace : Bool) (a g c : DWord) : Option Word :=
  if [a, g, c].any fun x => x ≠ 0 && !deviceSpace x then some cPERM
  else if a.toNat % 256 ≠ 0 then some cALIGN
  else if !trace && g.toNat % 4 ≠ 0 then some cALIGN
  else if trace && g = 0 then some cPERM
  else if trace && g.toNat % 256 ≠ 0 then some cALIGN
  else if c.toNat % 64 ≠ 0 then some cALIGN
  else none

/-- One thread's launch: a carafe entry of its core's die; `may` says that a full carafe is answered with false. -/
def State.launchAt (s : State) (c : Ctx) (trace may : Bool) (o : MemOp) : AccOut × State :=
  let g : DWord := o.b.setWidth 64
  let x : DWord := o.c.setWidth 64
  match launchCheck trace o.ea g x with
  | some code => (.exc code .free, s)
  | none =>
    let k := s.blk c.b
    let die := dieOf k.core
    if 4096 ≤ (s.die die).carafe.length then (if may then .done 0 else .exc cCAFULL .free, s)
    else
      let e : Carafe := { kind := if trace then 1 else 0, fn := k.fn, desc := o.ea, grid := g, completion := x }
      (.done 1, (s.force c.b).updDie die fun d => { d with carafe := d.carafe ++ [e] })

def capLaunch (a b c : Src) (_ : Ctx) (k : Block) (t : Nat) : MemOp :=
  { thr := t, ea := k.pair t a, b := k.src t 2 b, c := k.src t 2 c }

def execLaunch (h : Hdr) (a b c : Src) (s : State) : Host.Outcome State Fault Refusal :=
  opInstr (.launch h a b c) s h false 0 .none (capLaunch a b c) fun x s o => s.launchAt x false false o
def execRelaunch (h : Hdr) (a b c : Src) (s : State) : Host.Outcome State Fault Refusal :=
  opInstr (.relaunch h a b c) s h false 0 .none (capLaunch a b c) fun x s o => s.launchAt x true false o

/-- The outcomes of an operation whose value is a predicate. -/
def State.predOuts (s : State) (c : Ctx) (pd : Nat) (r : Outs) : State :=
  let s := r.exc.foldl (fun s x => s.raiseAll c.b (c.spread x.1) c.pc x.2.1 x.2.2) s
  r.done.foldl
    (fun s x => (s.updThrs c.b (c.spread x.1) fun th => th.setPred pd (x.2 ≠ 0)).advance c.b (c.spread x.1) c.next) s

def execLaunchTry (h : Hdr) (pd : Nat) (a b c : Src) (s : State) : Host.Outcome State Fault Refusal :=
  issue (.launchTry h pd a b c) s fun x s =>
    let k := s.blk x.b
    let (r, s) := s.runOps (fun s o => s.launchAt x false true o) (x.acting.map (capLaunch a b c x k))
    s.predOuts x pd r

/-! ### Placing blocks (R359..R361) -/

/-- The function that holds the region of a core. -/
def State.holderOf (s : State) (core : Nat) : Option Nat := (s.region (regionOf core)).holder

/-- PLACE by the Leader. On a region that no context holds, nothing changes. -/
def State.placeAt (s : State) (c : Ctx) (o : MemOp) : AccOut × State :=
  let core := (s.blk c.b).core
  let x : DWord := o.c.setWidth 64
  let lid : Word := x.setWidth 32
  let rank := bits64 x 34 32
  let i := o.b.toNat % 2 ^ 32
  match s.holderOf core with
  | none => (.done 0, s)
  | some fn =>
    match s.globalAccess c.b o.thr o.ea 256 1 .read false with
    | (.place p, s) =>
      let (bs, s) := s.readPlace c.b o.thr .lsu p 256
      let d := Desc.of bs
      (match s.launchOf fn lid with
        | none => (.exc cPERM .free, s)
        | some l =>
          let d := d.withGrid l.grid
          if bits64 x 63 35 ≠ 0 || !d.ok || !d.fitsEmpty || decide (d.clusters ≤ i) || decide (d.csize ≤ rank) then
            (.exc cPERM .free, s)
          else if s.banned (regionOf core) lid i || s.memberOn core fn lid i then (.done 0, s)
          else
            match s.dispatch l core i rank with
            | (some _, s) => (.done 1, s)
            | (none, s) => (.done 0, s))
    | (a, s) => (a.out, s)

/-- EVICT by the Leader: every held member of the cluster in the region is removed. -/
def State.evictAt (s : State) (c : Ctx) (o : MemOp) : AccOut × State :=
  let region := regionOf (s.blk c.b).core
  let lid : Word := o.b.setWidth 32
  let i := o.b.toNat / 2 ^ 32 % 2 ^ 32
  match (s.region region).holder with
  | none => (.done 0, s)
  | some fn =>
    let bs := s.heldOf region fn lid i
    (.done (if bs = [] then 0 else 1), bs.foldl State.unhold s)

/-- PLACE and EVICT belong to the barista's warp: elsewhere every thread of the bundle raises PRIV, whatever
its guard (spec/18 R359; DEDUCED, log 13). -/
def agentInstr (i : Instr) (pd : Nat) (cap : Ctx → Block → Nat → MemOp) (f : Ctx → State → MemOp → AccOut × State)
    (s : State) : Host.Outcome State Fault Refusal :=
  if !(s.blk s.sel.blk).agent then finish (s.raiseAll s.sel.blk s.sel.thrs s.sel.pc cPRIV .free)
  else
    issue i s fun c s =>
      let (r, s) := s.runOps (f c) (c.acting.map (cap c (s.blk c.b)))
      s.predOuts c pd r

def execPlace (h : Hdr) (pd : Nat) (a b c : Src) (s : State) : Host.Outcome State Fault Refusal :=
  agentInstr (.place h pd a b c) pd
    (fun _ k t => { thr := t, ea := k.pair t a, b := k.src t 1 b, c := k.src t 2 c }) (fun x s o => s.placeAt x o) s
def execEvict (h : Hdr) (pd : Nat) (b : Src) (s : State) : Host.Outcome State Fault Refusal :=
  agentInstr (.evict h pd b) pd (fun _ k t => { thr := t, b := k.src t 2 b }) (fun x s o => s.evictAt x o) s

end Sys2Proof.Machine
end

