-- ==== Sys2Proof/Machine/Except.lean ====
section
/-! DEFINITION. The instructions that open and close try regions, throw, and read the exception state (spec/24). -/
namespace Sys2Proof.Machine

/-! ### Opening and closing regions (R422, R423) -/

def Thread.warpRegions (th : Thread) : Nat := (th.tstack.filter fun e => e.level = 0).length
def Thread.blockRegions (th : Thread) : Nat := (th.tstack.filter fun e => e.level = 1).length
/-- The innermost open block region. -/
def Thread.blockRegion (th : Thread) : Option Nat := ((th.tstack.filter fun e => e.level = 1).head?).map (·.region)
/-- May a thread open one more region of a level (R420)? -/
def Thread.roomFor (th : Thread) (level : Nat) : Bool :=
  decide (th.tstack.length < 8) && (level = 0 || decide (th.blockRegions < 4))

/-- TRY.W or TRY.B: gathers the live threads of the warp or of the block, and opens one region for them. -/
def tryInstr (level : Nat) (h : Hdr) (off : Word) (s : State) : Host.Outcome State Fault Refusal :=
  let c := s.ctxOf false
  let k := s.blk c.b
  let all := if level = 0 then k.liveOf c.wp else k.liveThreads
  let target := addOff c.pc off
  let exe := all.filter fun t => (k.thr t).guard h
  if !k.complete c.pc all then finish s
  else if exe = [] then finish (s.advance c.b all c.next)
  else if exe ≠ all then finish (s.raiseAll c.b all c.pc cCVSET .free)
  else if level = 1 && all.any (fun t => (k.thr t).warpRegions ≠ 0) then finish (s.raiseAll c.b all c.pc cCVSET .free)
  else if level = 1 && all.any (fun t => (k.thr t).blockRegion ≠ (k.thr (all.headD 0)).blockRegion) then
    finish (s.raiseAll c.b all c.pc cCVSET .free)
  else if target.toNat % 4 ≠ 0 then finish (s.raiseAll c.b all c.pc cALIGN .free)
  else if all.any fun t => !(k.thr t).roomFor level then finish (s.raiseAll c.b all c.pc cSTACK .free)
  else
    let (id, s) := s.newId
    let e : TryEntry := { level := level, target := target, region := id }
    finish ((s.updThrs c.b all fun th => { th with tstack := e :: th.tstack }).advance c.b all c.next)

def execTryW (h : Hdr) (off : Word) (s : State) : Host.Outcome State Fault Refusal := tryInstr 0 h off s
def execTryB (h : Hdr) (off : Word) (s : State) : Host.Outcome State Fault Refusal := tryInstr 1 h off s

def execEndtry (h : Hdr) (s : State) : Host.Outcome State Fault Refusal :=
  issue (.endtry h) s fun c s =>
    (s.updThrs c.b c.exe fun th => { th with tstack := th.tstack.tail }).advance c.b c.exe c.next

/-! ### Throwing (R424, R425) -/

/-- THROW: each executing thread raises its code, with its AUX; a code of the device's range is refused with PERM. -/
def execThrow (h : Hdr) (b c : Src) (s : State) : Host.Outcome State Fault Refusal :=
  issue (.throw h b c) s fun x s =>
    let k := s.blk x.b
    x.exe.foldl
      (fun s t =>
        let code := k.word t b
        if code.toNat < 0x10000 then s.raiseAt x.b t x.pc cPERM (.low code)
        else s.raiseAt x.b t x.pc code (.all (k.pair t c))) s

/-- RETHROW: each executing thread that holds a record raises an exception that carries it on; the others go on. -/
def execRethrow (h : Hdr) (s : State) : Host.Outcome State Fault Refusal :=
  issue (.rethrow h) s fun x s =>
    let k := s.blk x.b
    x.exe.foldl
      (fun s t =>
        let r := (k.thr t).held
        if r.code = 0 then s.advance x.b [t] x.next
        else s.raiseExc x.b t
          { code := r.code, aux := r.aux, pc := x.pc, carried := some { r with climbed := true } }) s

/-! ### Reading and clearing the record (R426, R427) -/

/-- The flags and the level of a record: bits [31:0] at offset 0x10 (spec/23 R404). -/
def Rec.flags (r : Rec) : Nat :=
  let b := fun (x : Bool) (n : Nat) => if x then 2 ^ n else 0
  b r.peer 13 + b r.relaunched 12 + b r.hw 11 + b r.async 10 + b r.cancelled 9 + b r.climbed 8 + r.level.toNat
/-- The 56 bytes of a record (spec/23 R404). -/
def Rec.bytes (r : Rec) : List Byte :=
  leBytes 4 r.code.toNat ++ leBytes 4 r.count.toNat ++ leBytes 4 r.blk.toNat ++ leBytes 4 r.lid.toNat ++
    leBytes 4 r.flags ++ leBytes 4 r.thr.toNat ++ leBytes 8 r.originPc.toNat ++ leBytes 8 r.aux.toNat ++ leBytes 16 0

/-- The item that a selector names. -/
def Thread.excItem (th : Thread) (sel : Nat) : Nat :=
  let r := th.held
  match sel with
  | 0 => r.code.toNat
  | 1 => r.count.toNat
  | 2 => r.lid.toNat
  | 3 => r.blk.toNat
  | 4 => r.thr.toNat
  | 5 => r.flags
  | 6 => r.originPc.toNat
  | 7 => r.aux.toNat
  | 8 => th.ownCode.toNat
  | 9 => th.ownPc.toNat
  | 10 => th.warpRegions + 16 * th.blockRegions
  | _ => 0

/-- RDEXC: a value read from an exception state makes no register uniform (spec/07 R131). -/
def execRdexc (h : Hdr) (sel : Nat) (d : Dst) (s : State) : Host.Outcome State Fault Refusal :=
  alu (.rdexc h sel d) s (excRegs sel) d (fun _ _ => .g) fun k t => ((k.thr t).excItem sel, 0)

def execClrexc (h : Hdr) (s : State) : Host.Outcome State Fault Refusal :=
  issue (.clrexc h) s fun c s =>
    (s.updThrs c.b c.exe fun th => { th with held := {}, ownCode := 0, ownPc := 0 }).advance c.b c.exe c.next

end Sys2Proof.Machine
end

