-- ==== Sys2Proof/Machine/System.lean ====
section
/-! DEFINITION. System, debug and profiling instructions (spec/22). -/
namespace Sys2Proof.Machine

/-- An instruction of certain modes: in another mode of an executing thread every thread of the bundle raises PRIV
(R388). -/
def moded (modes : List Word) (i : Instr) (h : Hdr) (s : State) (body : Ctx → State → State) :
    Host.Outcome State Fault Refusal :=
  let k := s.blk s.sel.blk
  if s.sel.thrs.any fun t => (k.thr t).guard h && !modes.contains (k.thr t).mode then
    finish (s.raiseAll s.sel.blk s.sel.thrs s.sel.pc cPRIV .free)
  else issue i s body

/-! ### Service calls (R389) -/

def execSvc (h : Hdr) (n : BitVec 16) (s : State) : Host.Outcome State Fault Refusal :=
  moded [0] (.svc h n) h s fun c s => s.updThrs c.b c.exe fun th => th.svc c.pc (n.setWidth 32)

/-- ERET; a misaligned target raises ALIGN in mode 0, at the ERET. -/
def execEret (h : Hdr) (s : State) : Host.Outcome State Fault Refusal :=
  moded [1] (.eret h) h s fun c s =>
    c.exe.foldl
      (fun s t =>
        if (s.thr c.b t).epc.toNat % 4 ≠ 0 then
          (s.updThr c.b t fun th => { th with mode := 0 }).raiseAt c.b t c.pc cALIGN .free
        else s.updThr c.b t Thread.eret) s

/-! ### Traps and debug stops (R391, R392, R397) -/

/-- A debug record of an issuing bundle (R391): cause, the named thread, and its fourth word. -/
def State.debugRecord (s : State) (b : Nat) (pc : DWord) (cause t x : Nat) (w : Waiter) : Nat × State :=
  let k := s.blk b
  let (id, s) := s.newRecord k.fn pc k.lid (BitVec.ofNat 32 k.q) t cause x .debug w
  (id, s.pmEvent k.fn 0x40 1)

/-- TRAP: a record, and a wait for its verdict; false when the function has no fault queue. -/
def execTrap (h : Hdr) (pd : Nat) (n : BitVec 16) (s : State) : Host.Outcome State Fault Refusal :=
  moded [0, 1] (.trap h pd n) h s fun c s =>
    if s.fqValid (s.blk c.b).fn then
      let (id, s) := s.debugRecord c.b c.pc 8 (c.exe.headD 0) n.toNat (.trap c.b c.exe)
      c.exe.foldl (fun s t => s.setWait c.b t (.trap id pd c.next)) s
    else (s.updThrs c.b c.exe fun th => th.setPred pd false).advance c.b c.exe c.next

/-- BRK: with DEN and a fault queue a record, and the warp stops behind it until the verdict; else nothing. -/
def execBrk (h : Hdr) (n : BitVec 16) (s : State) : Host.Outcome State Fault Refusal :=
  issue (.brk h n) s fun c s =>
    let fn := (s.blk c.b).fn
    let s := s.advance c.b c.exe c.next
    if bitAt (s.fn fn).dbgCtl 0 && s.fqValid fn then
      let (id, s) := s.debugRecord c.b c.pc 9 (c.exe.headD 0) n.toNat (.stop c.b c.wp)
      s.updWarp c.b c.wp fun w => { w with stopped := some (.debug id) }
    else s

def execHalt (h : Hdr) (s : State) : Host.Outcome State Fault Refusal :=
  moded [1, 2] (.halt h) h s fun c s =>
    (s.updWarp c.b c.wp fun w => { w with stopped := some .halted }).advance c.b c.exe c.next

/-! ### WRSR (R386..R388) -/

/-- %wstat: bit 1 is written to UCHK, a 1 in bit 0 clears UMIS. -/
def Warp.writeStat (w : Warp) (x : Word) : Warp :=
  { w with uchk := x.getLsbD 1, umis := w.umis && !x.getLsbD 0 }

def execWrsr (h : Hdr) (num : Nat) (b : Src) (s : State) : Host.Outcome State Fault Refusal :=
  issue (.wrsr h num b) s fun c s =>
    let k := s.blk c.b
    let from_ := fun t : Nat => if c.u then c.lead else t
    let first := from_ (c.exe.headD 0)
    if num = 0xE then
      (s.updWarp c.b c.wp fun w => { w with fs := w.fs &&& ~~~((k.word first b).setWidth 7) }).advance c.b c.exe c.next
    else if num = 0xF then (s.updWarp c.b c.wp fun w => w.writeStat (k.word first b)).advance c.b c.exe c.next
    else
      c.exe.foldl
        (fun s t =>
          let x := k.pair (from_ t) b
          if num = 0x10 then (s.updThr c.b t fun th => { th with sp := x }).advance c.b [t] c.next
          else if (k.thr t).mode = 0 then s.raiseAt c.b t c.pc cPRIV .free
          else (s.updThr c.b t fun th => { th with epc := x }).advance c.b [t] c.next) s

/-! ### Performance counters (R396) -/

/-- Is an event id in the catalogue? -/
def pmKnown (id : Nat) : Bool := [0x1, 0x2, 0x3, 0x10, 0x11, 0x20, 0x21, 0x30, 0x31, 0x40].contains id
def Pmc.config (p : Pmc) (x : Word) : Pmc :=
  let p := if x.getLsbD 17 then { p with count := 0 } else p
  { p with event := x.setWidth 16, en := x.getLsbD 16, unavail := !pmKnown (x.setWidth 16 : BitVec 16).toNat }
def Pmc.status (p : Pmc) : Nat :=
  (if p.en then 1 else 0) + (if p.unavail then 2 else 0) + p.event.toNat * 2 ^ 16

def execPmcfg (h : Hdr) (n : Nat) (b : Src) (s : State) : Host.Outcome State Fault Refusal :=
  issue (.pmcfg h n b) s fun c s =>
    let k := s.blk c.b
    (s.updFn k.fn fun f => { f with pmcs := f.pmcs.upd {} n fun p => p.config (k.word c.lead b) }).advance c.b c.exe c.next

/-- Cycles, L1 misses and L2 accesses are timing: a counter of one of them has gone on by a free amount (log 18). -/
def State.pmTick (s : State) (fn n : Nat) : State :=
  let p := (s.fn fn).pmcs.get {} n
  if p.en && !p.unavail && [0x1, 0x10, 0x11].contains p.event.toNat then
    let (x, s) := s.freeNat
    s.updFn fn fun f => { f with pmcs := f.pmcs.upd {} n fun p => { p with count := p.count + addr (x % 2 ^ 32) } }
  else s

def execPmrd (h : Hdr) (st : Bool) (n : Nat) (d : Dst) (s : State) : Host.Outcome State Fault Refusal :=
  let fn := (s.blk s.sel.blk).fn
  let s := if st then s else s.pmTick fn n
  let p := (s.fn fn).pmcs.get {} n
  alu (.pmrd h st n d) s (if st then 1 else 2) d (fun _ _ => .g) fun _ _ => (if st then p.status else p.count.toNat, 0)

/-! ### Marks (R395) -/

/-- A profile record of a function: written to its ring, or counted as dropped when the ring is full. A ring that the
second stage does not map takes nothing. -/
def State.profile (s : State) (fn : Nat) (w0 w1 w2 w3 : Nat) : State :=
  let f := s.fn fn
  let n := bits64 f.profBase 3 0
  if n = 0 then s
  else if f.profProd - f.profCons = BitVec.ofNat 32 (2 ^ n) then
    s.updFn fn fun f => { f with profDropped := f.profDropped + 1 }
  else
    match s.stage2 fn (bits64 f.profBase 51 12 * 4096 + f.profProd.toNat % 2 ^ n * 32) with
    | .ok (pa, true, _) =>
      (s.writeHome pa (leBytes 8 w0 ++ leBytes 8 w1 ++ leBytes 8 w2 ++ leBytes 8 w3)).updFn fn fun f =>
        { f with profProd := f.profProd + 1 }
    | _ => s

def execDbgmark (h : Hdr) (n : BitVec 16) (s : State) : Host.Outcome State Fault Refusal :=
  issue (.dbgmark h n) s fun c s =>
    let k := s.blk c.b
    let s := s.profile k.fn (k.lid.toNat * 2 ^ 32 + k.q) (c.exe.headD 0 * 2 ^ 32 + 2) c.pc.toNat n.toNat
    s.advance c.b c.exe c.next

end Sys2Proof.Machine
end

