-- ==== Sys2Proof/Machine/Coherence.lean ====
section
/-! DEFINITION. Word ownership, the directory, the snoop filters and decaf writebacks (spec/10 R201..R212). A store that has
reached the L2 of its die is in `mem` (log 6); what the L2 states decide is when it has reached its home agent, and so which
watch tiles are marked (spec/17 R329) and when a release may issue. -/
namespace Sys2Proof.Machine

/-! ### A die's L2 and its snoop filter (R205, R208, R209) -/

def State.setL2 (s : State) (die line : Nat) (x : L2) : State :=
  { s with
    l2 := s.l2.set .i (l2Key die line) x
    l2Home := if x = .i then s.l2Home.set none (l2Key die line) none else s.l2Home }
def State.dirAt (s : State) (line : Nat) : Dir := s.dir.get {} line
def State.setDir (s : State) (line : Nat) (x : Dir) : State := { s with dir := s.dir.set {} line x }
def State.lineHome (s : State) (line : Nat) : Nat := s.home (line * 128)
/-- A home agent handles the requests for one line one at a time (R207). -/
def State.lineBusy (s : State) (line : Nat) : Bool := s.txns.any fun x => x.line = line
/-- A line of device memory, and a die. -/
def lineOk (die line : Nat) : Bool := decide (die < 4) && decide (line < 0x40000000)

def L2.code : L2 → Nat
  | .i => 0 | .s => 1 | .e => 2 | .o => 3 | .m => 4
def filterKey (die line : Nat) : Nat := die * 65536 + Config.snoopSet line % 65536
def State.filterAt (s : State) (die line : Nat) : List (Nat × Nat) := s.filters.get [] (filterKey die line)
def State.setFilter (s : State) (die line : Nat) (x : List (Nat × Nat)) : State :=
  { s with filters := s.filters.set [] (filterKey die line) x }

/-- Owned words of a line go back from the cores of a die to its L2 (R203). -/
def State.recallLine (s : State) (die line : Nat) : State :=
  (List.range 32).foldl
    (fun s j => match s.owner die (line * 32 + j) with
      | some c => { s.publishUnit c (line * 128 + 4 * j) with owners := s.owners.set none (ownKey die (line * 32 + j)) none }
      | none => s) s

/-- A die's copy of a line changes its state, and the die's filter entry with it. Only a line in M holds owned words. -/
def State.moveL2 (s : State) (die line : Nat) (x : L2) : State :=
  let s := if x = .m then s else s.recallLine die line
  let s := s.setL2 die line x
  if s.lineHome line = die then s
  else
    let f := s.filterAt die line
    s.setFilter die line (if x = .i then f.filter fun e => e.1 ≠ line
      else f.map fun e => if e.1 = line then (line, x.code) else e)

/-! ### Writebacks and drops (R206, R329; spec/06 R125) -/

/-- A line's data goes from an L2 to the LLC: its watch tile is marked. -/
def State.wroteBack (s : State) (line : Nat) : State := (s.mark (line * 128) 128).llcTake line

/-- The entry after die `d` has left the holders. -/
def Dir.without (x : Dir) (d : Nat) : Dir :=
  let p := x.pres &&& ~~~(1#4 <<< d)
  if p = 0 then {} else { x with owner := 0, pres := p, state := 1 }

/-- The home agent takes a WbM of die `d`; one from a die that is not the owner any more is discarded (R207). -/
def State.homeWbm (s : State) (d line : Nat) : State :=
  let x := s.dirAt line
  if x.state = 2 && x.owner = d then (s.setDir line {}).wroteBack line
  else if x.state = 3 && x.owner = d then (s.setDir line (x.without d)).wroteBack line
  else s
/-- The home agent takes a PutC of die `d`. -/
def State.homePutc (s : State) (d line : Nat) : State :=
  let x := s.dirAt line
  if x.state = 2 && x.owner = d then s.setDir line {}
  else if x.state = 1 && x.pres.getLsbD d then s.setDir line (x.without d)
  else if x.state = 3 && x.pres.getLsbD d && x.owner ≠ d then s.setDir line { x with pres := x.pres &&& ~~~(1#4 <<< d) }
  else s

/-- A WbM of an M or O line or a PutC of an E or S line reaches the home agent. -/
def State.homeTakes (s : State) (die line : Nat) (x : L2) : State :=
  match x with
  | .m | .o => s.homeWbm die line
  | .e | .s => s.homePutc die line
  | .i => s

/-- A die's L2 gives up a line. While the home agent serves a request for the line, the copy waits in the writeback buffer
(R207). -/
def State.evictLine (s : State) (die line : Nat) : State :=
  let x := s.l2At die line
  let s := s.moveL2 die line .i
  if s.lineBusy line then (if x = .i then s else { s with wbs := s.wbs ++ [(die, line, x)] }) else s.homeTakes die line x

/-- A back-invalidation: the L1s and stashes of the die lose the line as well, and it counts for each function that holds a
region of the die (R209). -/
def State.backInvalidate (s : State) (die line : Nat) : State :=
  let holders := ((List.range 8).filterMap fun r => (s.region (die * 8 + r)).holder).eraseDups
  let s := holders.foldl (fun s fn => s.pmEvent fn 0x20 1) (s.recallLine die line)
  ((List.range 64).foldl (fun s c => s.dropClean (die * 64 + c) line) s).evictLine die line

/-- A line fills a die's L2. A full filter set first gives up the entry allocated longest ago, whose line is
back-invalidated (R209). -/
def State.fillLine (s : State) (die line : Nat) (x : L2) : State :=
  let s := { s with l2Home := s.l2Home.set none (l2Key die line) (some (s.lineHome line)) }
  if s.lineHome line = die then s.moveL2 die line x
  else
    let f := s.filterAt die line
    if f.any fun e => e.1 = line then s.moveL2 die line x
    else
      let s := match f with
        | e :: _ => if f.length < 16 then s else s.backInvalidate die e.1
        | [] => s
      (s.setL2 die line x).setFilter die line ((s.filterAt die line) ++ [(line, x.code)])

/-! ### The capacity of an L2: 64 slices of 512 KiB (spec/01 R12) -/

/-- Lines of one slice of a die, decaf copies included. -/
def State.sliceLines (s : State) (die slice : Nat) : List Nat :=
  let mine := fun key : Nat => key / 0x40000000 = die && Config.l2Slice (key % 0x40000000) % 64 = slice
  ((s.l2.map (·.1)).filter mine ++ (s.decafs.map (·.1)).filter mine).map (· % 0x40000000)
/-- A line leaves a die's L2, tracked or not. -/
def State.leaveL2 (s : State) (die line : Nat) : State :=
  let s := if (s.decaf die line).isSome then (s.cleanDecaf die line).setDecaf die line none else s
  if s.l2At die line = .i then s else s.evictLine die line
/-- Lines that a slice of a die can hold: none when it is out of service (spec/01 R17). -/
def State.sliceCap (s : State) (die slice : Nat) : Nat := if s.unitsOut.contains (die, 2, slice) then 0 else 4096
/-- A slice that holds too many lines gives up some, chosen freely; the recursion is on the number of lines. -/
def State.trimSlice (s : State) (die slice : Nat) : Nat → State
  | 0 => s
  | f + 1 =>
    let ls := s.sliceLines die slice
    if ls.length ≤ s.sliceCap die slice then s
    else
      let (n, s) := s.freeNat
      (s.leaveL2 die ((ls[n % ls.length]?).getD 0)).trimSlice die slice f
def State.trimL2 (s : State) : State :=
  if s.l2.length + s.decafs.length ≤ 4096 && !(s.unitsOut.any fun u => u.2.1 = 2) then s
  else
    (List.range 256).foldl
      (fun s j => s.trimSlice (j / 64) (j % 64) ((s.sliceLines (j / 64) (j % 64)).length - s.sliceCap (j / 64) (j % 64))) s
/-- The LLC of a die that is out of service keeps no line. -/
def State.trimLlc (s : State) : State :=
  let out := s.unitsOut.filter fun u => u.2.1 = 3
  if out = [] then s
  else (s.llc.filter fun e => out.any fun u => u.1 = s.home (e.1 * 128)).foldl (fun s e => s.llcEvict e.1) s

/-! ### Requests and snoops (R206, R207) -/

def presOf (l : List Nat) : BitVec 4 := l.foldl (fun p d => p ||| (1#4 <<< d)) 0
def Dir.holders (x : Dir) : List Nat := (List.range 4).filter fun d => x.pres.getLsbD d

/-- The state that a request ends in: M for a write; for a read S, or E when the new entry has one holder. -/
def Req.grant (r : Req) (x : Dir) : L2 :=
  match r with
  | .rds => if x.state = 2 then .e else .s
  | _ => .m

/-- A request whose snoops are all answered completes; then the home agent takes what other dies have sent of the line
meanwhile. A copy that the requester itself was giving up goes on as the line that it receives. -/
def State.txnDone (s : State) (x : Txn) : State :=
  let sent := s.wbs.filter fun y => y.2.1 = x.line && y.1 ≠ x.die
  let s := { s with txns := s.txns.filter fun y => y.line ≠ x.line, wbs := s.wbs.filter fun y => y.2.1 ≠ x.line }
  let s := (s.setDir x.line x.newDir).fillLine x.die x.line (x.req.grant x.newDir)
  sent.foldl (fun s y => s.homeTakes y.1 y.2.1 y.2.2) s

/-- A request starts: it completes at once when no die is to be snooped. -/
def State.txnStart (s : State) (x : Txn) : State :=
  if x.snoops = [] then s.txnDone x else { s with txns := s.txns ++ [x] }

/-- RdS of die d. -/
def State.readShare (s : State) (d line : Nat) : State :=
  let x := s.dirAt line
  let t : Txn := { line := line, die := d, req := .rds, snoops := [], newDir := x }
  match x.state with
  | 0 => s.txnStart { t with newDir := { owner := d, pres := presOf [d], state := 2 } }
  | 1 => s.txnStart { t with newDir := { x with pres := x.pres ||| presOf [d] } }
  | _ => if x.owner = d then s else s.txnStart { t with snoops := [(x.owner, 0)] }

/-- RdX or Upg of die d. -/
def State.readOwn (s : State) (d line : Nat) (r : Req) : State :=
  let x := s.dirAt line
  let others := x.holders.filter (· ≠ d)
  let t : Txn := { line := line, die := d, req := r, snoops := [], newDir := { owner := d, pres := presOf [d], state := 2 } }
  match x.state with
  | 0 => s.txnStart t
  | 1 => s.txnStart { t with snoops := others.map fun o => (o, 2) }
  | 2 => if x.owner = d then s else s.txnStart { t with snoops := [(x.owner, 1)] }
  | _ =>
    if x.owner = d then s.txnStart { t with snoops := others.map fun o => (o, 2) }
    else s.txnStart { t with snoops := (x.owner, 1) :: (others.filter (· ≠ x.owner)).map fun o => (o, 2) }

/-- The new entry of a RdS whose owner answers: from E the line becomes shared; from M or O the owner keeps the dirty data;
an owner that has lost the line leaves the requester alone. -/
def Txn.afterShare (t : Txn) (o : Nat) (x : L2) (old : Dir) : Dir :=
  match x with
  | .m => { owner := o, pres := presOf [o, t.die], state := 3 }
  | .o => { owner := o, pres := old.pres ||| presOf [t.die], state := 3 }
  | .i => { owner := t.die, pres := presOf [t.die], state := 2 }
  | _ => { owner := 0, pres := presOf [o, t.die], state := 1 }

/-- The state in which a die's L2 or its writeback buffer holds a line. -/
def State.snooped (s : State) (die line : Nat) : L2 :=
  match s.l2At die line, s.wbs.find? fun y => y.1 = die && y.2.1 = line with
  | .i, some y => y.2.2
  | x, _ => x

/-- A die answers a snoop of a kind for a line: 0 SnpS, 1 SnpX, 2 SnpI. A copy on its way home answers from the writeback
buffer (R207). -/
def State.snoop (s : State) (die line kind : Nat) : State :=
  match s.txns.find? fun x => x.line = line && x.snoops.contains (die, kind) with
  | none => s
  | some t =>
    let x := s.snooped die line
    let t := { t with snoops := t.snoops.filter (· ≠ (die, kind)),
                      newDir := if kind = 0 then t.afterShare die x (s.dirAt line) else t.newDir }
    let moved : L2 := if kind ≠ 0 then .i else match x with
      | .m | .o => .o
      | .i => .i
      | _ => .s
    let s := if s.l2At die line = .i then s else s.moveL2 die line moved
    if t.snoops = [] then s.txnDone t
    else { s with txns := s.txns.map fun y => if y.line = line then t else y }

/-! ### The events -/

/-- Is the word that of a store to a decaf line that is homed elsewhere (R210)? -/
def State.untracked (s : State) (core word : Nat) : Bool :=
  (s.l1At core (word / 32)).any fun x => s.remote x.decaf (dieOf core) (word * 4)
/-- Is a word's registration possible: the die's L2 holds the line in M or E (R202), or no directory tracks it? -/
def State.registrable (s : State) (core word : Nat) : Bool :=
  s.pendReg.contains (core, word) &&
    (s.l2At (dieOf core) (word / 32) = .m || s.l2At (dieOf core) (word / 32) = .e || s.untracked core word)

/-- OWNERSHIP_REGISTER: a plain store's word is registered to its core, once the bytes of a previous owner are in the slice; E
becomes M silently (R201, R205). The store is visible from the slice once every word of its aligned 8 bytes is registered. -/
def execOwnershipRegister (core word : Nat) (s : State) : Host.Outcome State Fault Refusal :=
  if s.registrable core word then
    let die := dieOf core
    let s := match s.owner die word with
      | some c => if c = core then s else s.publishUnit c (word * 4)
      | none => s
    let s := if s.untracked core word then s else s.moveL2 die (word / 32) .m
    let own := (s.l1At core (word / 32)).isSome
    let s := { s with
      pendReg := s.pendReg.filter (· ≠ (core, word))
      owners := s.owners.set none (ownKey die word) (if own then some core else none) }
    finish (if s.pendReg.contains (core, word / 2 * 2) || s.pendReg.contains (core, word / 2 * 2 + 1) then s
      else s.publishUnit core (word * 4))
  else finish s

def execOwnershipRecall (die line : Nat) (s : State) : Host.Outcome State Fault Refusal := finish (s.recallLine die line)

/-- May a die send a request for a line: the line is not busy, the die holds no decaf copy of it (R208, R210), and its state
asks for it? -/
def State.mayAsk (s : State) (die line : Nat) (r : Req) : Bool :=
  lineOk die line && !s.lineBusy line && (s.decaf die line).isNone &&
    (match r with
      | .rds => s.l2At die line = .i
      | _ => s.l2At die line ≠ .m && s.l2At die line ≠ .e)

def execRds (die line : Nat) (s : State) : Host.Outcome State Fault Refusal :=
  finish (if s.mayAsk die line .rds then s.readShare die line else s)
def execRdx (die line : Nat) (s : State) : Host.Outcome State Fault Refusal :=
  finish (if s.mayAsk die line .rdx then s.readOwn die line .rdx else s)
/-- An Upg from a die that is no longer in PRES is handled as RdX: both act alike on the line's entry. -/
def execUpg (die line : Nat) (s : State) : Host.Outcome State Fault Refusal :=
  finish (if s.mayAsk die line .upg then s.readOwn die line .upg else s)
def execWbm (die line : Nat) (s : State) : Host.Outcome State Fault Refusal :=
  finish (if !s.lineBusy line && (s.l2At die line = .m || s.l2At die line = .o) then s.evictLine die line else s)
def execPutc (die line : Nat) (s : State) : Host.Outcome State Fault Refusal :=
  finish (if !s.lineBusy line && (s.l2At die line = .e || s.l2At die line = .s) then s.evictLine die line else s)
def execSnps (die line : Nat) (s : State) : Host.Outcome State Fault Refusal := finish (s.snoop die line 0)
def execSnpx (die line : Nat) (s : State) : Host.Outcome State Fault Refusal := finish (s.snoop die line 1)
def execSnpi (die line : Nat) (s : State) : Host.Outcome State Fault Refusal := finish (s.snoop die line 2)

/-- DECAF_WRITEBACK: an NC or ND copy is evicted; its dirty bytes are merged at the home (R210). -/
def execDecafWriteback (die line : Nat) (s : State) : Host.Outcome State Fault Refusal :=
  finish ((s.cleanDecaf die line).setDecaf die line none)

/-- What the cores of a die have stored to a line reaches its L2. -/
def State.publishDie (s : State) (die line : Nat) : State :=
  (List.range 64).foldl (fun s c => s.publishLine (die * 64 + c) line) s

/-- CCTL_COMPLETE: once no store of the core to the lines awaits registration, the die's dirty bytes of the lines are in its L2,
its decaf bytes home, and the core's words recalled; CCTL.INV then drops the die's decaf copies and what the core does not own
(spec/13 R259). -/
def execCctlComplete (id : Nat) (s : State) : Host.Outcome State Fault Refusal :=
  match s.cctls.find? fun f => f.id = id with
  | none => finish s
  | some f =>
    if s.pendReg.any fun x => x.1 = f.core && f.lines.contains (x.2 / 32) then finish s
    else
      let s := f.lines.foldl (fun s l => (s.publishDie f.die l).cleanDecaf f.die l) (s.recallWords f.core f.lines)
      let s := if f.inv then f.lines.foldl (fun s l => (s.setDecaf f.die l none).dropClean f.core l) s else s
      finish { s with cctls := s.cctls.filter fun x => x.id ≠ id }

/-- SFLUSH_COMPLETE: the dirty words of the block's mappings are written back (spec/13 R267). -/
def execSflushComplete (id : Nat) (s : State) : Host.Outcome State Fault Refusal :=
  match s.sflushes.find? fun f => f.id = id with
  | none => finish s
  | some f =>
    if s.pendReg.any fun x => x.1 = f.core && f.lines.contains (x.2 / 32) then finish s
    else finish { s.recallWords f.core f.lines with sflushes := s.sflushes.filter fun x => x.id ≠ id }

/-- RED_APPLY (spec/13 R257): one that no earlier RED has to precede. -/
def execRedApply (id : Nat) (s : State) : Host.Outcome State Fault Refusal :=
  match s.reds.find? fun r => r.id = id with
  | none => finish s
  | some r =>
    if (s.reds.takeWhile fun x => x.id ≠ id).any fun x => x.before r then finish s else finish (s.applyRed r)

/-! ### Fills of an L1 and evictions from an LLC (R189) -/

/-- The core of a block fetches a line into its L1 of its own accord; an address that does not translate fetches nothing. -/
def State.fillTurn (s : State) (b va : Nat) : State :=
  let k := s.blk b
  match s.walk k.fn va with
  | .ok x =>
    let pa := x.addr va
    if inDevice pa 1 && k.status = .running then
      let s := s.touch pa 1
      (if s.remote x.decaf (dieOf k.core) pa then s.fillDecaf (dieOf k.core) (pa / 128) else s).l1Fill k.core x.decaf (pa / 128)
    else s
  | _ => s
/-- The LLC of its home die gives up a line. -/
def State.evictTurn (s : State) (line : Nat) : State := s.llcEvict line

end Sys2Proof.Machine
end

