-- ==== Sys2Proof/Machine/Fetch.lean ====
section
/-! DEFINITION. Fetching an instruction's words, and forming the bundle of a thread (spec/03 R39..R41; spec/15 R278). -/
namespace Sys2Proof.Machine

/-- The outcome of a fetch: words, an exception of the bundle, a resolvable fault, or a stall in transit. -/
inductive Fetched where
  | words (ws : List Nat)
  | exc (code : Word)
  | page (va : DWord) (cause gpa : Nat)
  | stall
  deriving DecidableEq, Repr

/-- Is a launch the one that a block belongs to? -/
def Block.ofLaunch (k : Block) (l : Launch) : Bool := l.fn = k.fn && l.lid = k.lid && !k.agent
/-- A word of memory that the fetches of a block's launch may use from now on (spec/03 R41). -/
def State.sawCode (s : State) (k : Block) (pa : Nat) (x : Word) : State :=
  { s with launches := s.launches.map fun l =>
      if k.ofLaunch l then { l with code := l.code.upd [] pa fun xs => if xs.contains x then xs else xs ++ [x] } else l }
/-- The values that a fetch of a word may find: what memory holds, what a copy of a decaf line holds, and what the fetches of the
launch have found there before (spec/03 R41; log 41). -/
def State.codeWords (s : State) (k : Block) (decaf : Bool) (pa : Nat) : List Word :=
  let die := dieOf k.core
  let here := BitVec.ofNat 32 (leNat ((List.range 4).map fun j => s.dieByte decaf die (pa + j)))
  let old := match s.launches.find? k.ofLaunch with
    | some l => l.code.get [] pa
    | none => []
  (BitVec.ofNat 32 (s.num pa 4) :: here :: old).eraseDups
/-- One of several values, chosen freely. -/
def State.freeOf (s : State) (xs : List Word) : Word × State :=
  match xs with
  | [] => (0, s)
  | [x] => (x, s)
  | x :: _ =>
    let (n, s) := s.freeNat
    ((xs[n % xs.length]?).getD x, s)

/-- One word at an instruction address. An address that no access may name is refused with PERM (log 13). -/
def State.fetchWord (s : State) (b t : Nat) (pc : DWord) : Fetched × State :=
  if !canonical pc || inFabric pc || inAperture pc then (.exc cPERM, s)
  else
    match s.translate b t pc.toNat .fetch with
    | (.ok x, s) =>
      let pa := x.addr pc.toNat
      let s := s.touch pa 4
      let k := s.blk b
      let r := s.freeOf (s.codeWords k x.decaf pa)
      (.words [r.1.toNat], r.2.sawCode k pa (BitVec.ofNat 32 (s.num pa 4)))
    | (.fault c g, s) => (.page pc c g, s)
    | (.transit, s) => (.stall, s)
    | (.hole, s) => (.stall, { s with hole := true })

/-- `n` more words from an address on. -/
def State.fetchMore (s : State) (b t : Nat) (pc : DWord) : Nat → Fetched × State
  | 0 => (.words [], s)
  | n + 1 =>
    match s.fetchWord b t pc with
    | (.words ws, s) =>
      match s.fetchMore b t (pc + 4) n with
      | (.words vs, s) => (.words (ws ++ vs), s)
      | r => r
    | r => r

/-- The words of the instruction at a thread's pc as memory gives them: all of them, as its length field says (spec/03 R39,
R41). -/
def State.fetchMem (s : State) (b t : Nat) : Fetched × State :=
  let pc := (s.thr b t).pc
  match s.fetchWord b t pc with
  | (.words ws, s) =>
    match s.fetchMore b t (pc + 4) (lengthOf (ws.headD 0) - 1) with
    | (.words vs, s) => (.words (ws ++ vs), s)
    | r => r
  | r => r

/-- A word that a warp's fetch buffer holds. -/
def Warp.fetched (w : Warp) (a : Nat) : Option Nat := (w.fbuf.find? fun e => e.1 = a).map (·.2.toNat)
/-- The instruction at an address, when the fetch buffer holds all its words. -/
def Warp.buffered (w : Warp) (pc : Nat) : Option (List Nat) :=
  match w.fetched pc with
  | none => none
  | some x =>
    let rest := (List.range (lengthOf x - 1)).map fun j => w.fetched (pc + 4 * (j + 1))
    if rest.all Option.isSome then some (x :: rest.filterMap id) else none
/-- The fetch buffer after a fetch: the last sixteen words. -/
def Warp.fill (w : Warp) (pc : Nat) (ws : List Nat) : Warp :=
  let new := ws.zipIdx.map fun e => (pc + 4 * e.2, BitVec.ofNat 32 e.1)
  { w with fbuf := (new ++ w.fbuf.filter fun e => !(new.any fun x => x.1 = e.1)).take 16 }

/-- The fetch of the instruction at a thread's pc: from memory, or, as the device chooses where the two differ, from the warp's
fetch buffer, which may hold words that memory has lost since (spec/03 R41; spec/21 R376). -/
def State.fetch (s : State) (b t : Nat) : Fetched × State :=
  let pc := (s.thr b t).pc
  let (m, s') := s.fetchMem b t
  let r := match ((s.blk b).warp (warpOf t)).buffered pc.toNat with
    | none => (m, s')
    | some ws =>
      if m = Fetched.words ws then (m, s')
      else
        let (c, s1) := s.freeBool
        if c then (.words ws, s1) else (m, { s' with tick := max s'.tick s1.tick })
  match r with
  | (.words ws, s) => (.words ws, s.updWarp b (warpOf t) fun w => w.fill pc.toNat ws)
  | r => r

/-- The device fetches a word ahead for a thread. -/
def State.prefetchTurn (s : State) (b t : Nat) (a : DWord) : State :=
  match (if a.toNat % 4 = 0 && (s.blk b).status = .running then s.fetchWord b t a else (.stall, s)) with
  | (.words _, s) => s
  | _ => s

/-- Threads of a thread's PC group that stand at its pc and are in no wait, with no exception and no fetch fault. -/
def State.bundleOf (s : State) (b t : Nat) : List Nat :=
  let k := s.blk b
  let th := k.thr t
  (k.liveOf (warpOf t)).filter fun x => k.arrived th.pc x && (k.thr x).grp = th.grp

end Sys2Proof.Machine
end

