-- ==== Sys2Proof/Machine/Ready.lean ====
section
/-! DEFINITION. When a thread may issue, and when a wait ends (spec/03 R59; spec/10 R202; spec/11 R215; spec/15 R279, R296,
R297; spec/18 R350). -/
namespace Sys2Proof.Machine

/-! ### Windows (spec/03 R59) -/

/-- Instructions that issue only when nothing long-latency is pending for the thread. -/
def drainClass : Instr → Bool
  | .exit _ | .yield _ | .rolesw .. | .roleswTry .. | .bar _ | .gbar .. | .clbar _ | .wait .. | .waitExt .. | .await ..
  | .cqwait .. | .fence _ | .xfence .. | .tryW .. | .tryB .. | .endtry _ | .throw .. | .rethrow _ | .trap .. | .svc ..
  | .brk .. | .eret _ | .halt _ | .place .. | .evict .. => true
  | _ => false

/-- Does the next instruction of a thread lie within every window that is open for it? A signed convergence operation is
pending from its signature on (spec/08 R170); TST and MCLR are no long-latency instructions (R176, R186). -/
def Block.windowOk (k : Block) (t : Nat) (drain : Bool) : Bool :=
  k.pend.all fun p => !p.long || p.thrs.all fun e => e.1 ≠ t || (!drain && decide (e.2 < p.la))

/-! ### Conditions of the memory system -/

/-- Is the instruction a release (spec/10 R192; spec/18 R353)? -/
def releases : Instr → Bool
  | .st _ o .. | .sts _ o .. => o ≠ .plain
  | .atom _ _ o .. | .red _ _ o .. => o = .rel || o = .acqrel
  | .fence _ | .bar _ | .gbar .. | .clbar _ | .aarrive .. | .wake .. | .launch .. | .launchTry .. | .relaunch .. |
    .caswap .. => true
  | .xfence _ x _ => x = 0
  | _ => false
/-- Is the instruction a marked access that is not itself listed behind the thread's REDs (spec/10 R192, R195)? -/
def marked : Instr → Bool
  | .ld _ o .. | .lds _ o .. => o ≠ .plain
  | .atom .. | .await .. | .wait .. | .waitExt .. => true
  | i => releases i
/-- Does the instruction access memory on a path? -/
def accesses : Instr → Bool
  | .ld .. | .st .. | .lds .. | .sts .. | .cmpst .. | .expld .. | .atom .. | .red .. | .caswap .. | .call .. | .ret _
  | .cpq .. | .cpld .. | .aarm .. | .aarrive .. | .await .. | .caint .. | .caget .. | .carel .. | .caexp .. | .tld ..
  | .tst .. | .mdrain .. | .wait .. | .waitExt .. | .wake .. | .cctlWb .. | .cctlInv .. | .pref .. => true
  | _ => false

/-- Have the stores, REDs, cache writebacks and stash flushes before a release completed (spec/10 R202; spec/13 R257, R259,
R267)? -/
def State.released (s : State) (b t : Nat) : Bool :=
  let core := (s.blk b).core
  !(s.reds.any fun r => r.blk = b && r.thrs.contains t) && !(s.pendReg.any fun x => x.1 = core) &&
    !(s.cctls.any fun f => f.blk = b && f.thrs.contains t) && !(s.sflushes.any fun f => f.blk = b)
/-- Have the thread's accesses on path x completed (spec/11 R215)? Those of a drain have when nothing is pending. -/
def State.pathDone (s : State) (b t x : Nat) : Bool :=
  match x with
  | 1 => !(s.copies.any fun q => q.packet.isNone && q.blk = b && q.thr = t)
  | 3 => !(s.exports.any fun e => e.blk = b && e.thr = t)
  | _ => true
/-- The conditions of an instruction's issue beyond its window. -/
def State.gate (s : State) (b t : Nat) (i : Instr) : Bool :=
  let k := s.blk b
  (!releases i || s.released b t) &&
    (!marked i || !(s.reds.any fun r => r.blk = b && r.thrs.contains t)) &&
    (!accesses i || !(s.cctls.any fun f => f.inv && f.blk = b && f.thrs.contains t)) &&
    (match i with
      | .xfence _ x _ => s.pathDone b t x
      | .cpq .. => decide (s.copiesOf k.core < 64)
      | .cpld h ty _ _ cq _ =>
        k.cqFits (warpOf t) cq
          (ty.bytes * ((s.bundleOf b t).filter fun x => (k.thr x).guard h && k.windowOk x false).length)
      | _ => true)

/-! ### Gatherings (spec/07 R155; spec/08 R170, R179; spec/18 R347; spec/24 R422) -/

/-- The threads that an instruction gathers for a thread; none for one that does not gather. -/
def Block.gatherOf (k : Block) (t : Nat) : Instr → Option (List Nat)
  | .shfl _ _ _ _ _ _ m | .ballot _ _ _ m | .vote _ _ _ _ m | .matchLanes _ _ _ _ m | .redux _ _ _ _ _ _ m =>
    some (k.members (warpOf t) (k.word t m))
  | .cmpst .. | .expld .. | .tzero .. | .tmov .. | .txpose .. | .tcvt .. | .rolesw .. | .roleswTry .. | .tryW .. =>
    some (k.liveOf (warpOf t))
  | .tryB .. => some k.liveThreads
  | _ => none
/-- Is the thread held at its instruction by others: its gathering is not complete, or its earlier signature has not issued? -/
def Block.gathering (k : Block) (t : Nat) (i : Instr) : Bool :=
  match k.gatherOf t i with
  | some ts =>
    !(k.complete (k.thr t).pc ts && ts.all fun x => k.windowOk x (drainClass i))
  | none => match convReg i with
    | some n => (k.kreg n).kind ≠ 0 && (k.kreg n).signed.getLsbD t
    | none => false

/-! ### Ready threads (spec/15 R279) -/

/-- The instruction at a thread's pc as a fetch would find it; none where there is none. -/
def State.peek (s : State) (b t : Nat) : Option Instr :=
  match s.fetch b t with
  | (.words ws, _) => match decode (((s.blk b).warp (warpOf t)).regs) ws with
    | .ok i => some i
    | .error _ => none
  | _ => none
/-- May a thread issue instruction `i`, where it stands at one? -/
def State.canIssue (s : State) (b t : Nat) (i : Option Instr) : Bool :=
  let k := s.blk b
  match i with
  | none => k.windowOk t false
  | some i => k.windowOk t (drainClass i) && s.gate b t i
/-- Does the fetch of a thread wait for a verdict? -/
def State.fetchWaits (s : State) (b t : Nat) : Bool :=
  s.records.any fun r => match r.waiter with
    | .fetch b' ts => b' = b && ts.contains t
    | _ => false
/-- Is the block resident on a region whose holder it belongs to, and not being pre-empted? -/
def State.resident (s : State) (b : Nat) : Bool :=
  let k := s.blk b
  let r := s.region (regionOf k.core)
  k.status = .running && (k.agent || (r.holder = some k.fn && !r.preempt))
/-- A thread that could issue but for a gathering. -/
def State.issuable (s : State) (b t : Nat) : Bool :=
  let k := s.blk b
  k.arrived (k.thr t).pc t && (k.warp (warpOf t)).stopped.isNone && !s.fetchWaits b t
/-- Has the thread stopped for a level whose members are being stopped (spec/23 R401)? -/
def State.held (s : State) (b t : Nat) : Bool :=
  s.stopping.any fun x =>
    let k := s.blk b
    x.1 = k.fn && x.2.1 = k.lid && !k.agent && (match x.2.2 with
      | none => true
      | some r => (k.thr t).tstack.any fun e => e.region = r)
def State.readyThread (s : State) (b t : Nat) : Bool :=
  let i := s.peek b t
  s.resident b && !s.held b t && s.issuable b t && s.canIssue b t i && !(i.any fun i => (s.blk b).gathering t i)
/-- Is the thread in an external wait (spec/18 R354; spec/22 R392)? -/
def Thread.external (th : Thread) : Bool :=
  match th.wait with
  | some (.mem _ _ _ _ _ ext _ _ _) => ext
  | some (.trap ..) => true
  | _ => false

/-! ### The end of a wait (spec/11 R223, R224, R226; spec/18 R350, R352, R353) -/

/-- Has what a thread waits for come: a completion count at 0, a generation that has passed, a word for which the condition
holds at the home agent? -/
def State.waitHolds (s : State) (b t : Nat) : Bool :=
  let k := s.blk b
  match (k.thr t).wait with
  | some (.cqwait cq _) => k.sreg (warpOf t) (48 + cq) = 0
  | some (.await p off h _) => let x := s.arrival p off; x.passed h && (!x.hostFed || s.hostQ = [])
  | some (.mem _ pa op ty v _ _ _ _) =>
    compareTy op ty (leNat ((List.range ty.bytes).map fun j => s.loadByte b false .slice (pa + j))) v.toNat
  | _ => false
/-- Is a thread in a wait that has not ended, at a gathering included (spec/15 R297)? -/
def State.inWait (s : State) (b t : Nat) : Bool :=
  let k := s.blk b
  ((k.thr t).wait.isSome && !s.waitHolds b t) || (s.issuable b t && (s.peek b t).any (k.gathering t))
/-- Is every live thread of a warp in a wait? A stopped warp is in none (spec/22 R392, R397). -/
def State.warpWaits (s : State) (b w : Nat) : Bool :=
  ((s.blk b).warp w).stopped.isNone && ((s.blk b).liveOf w).all fun t => s.inWait b t
/-- The wait of a thread ends, once what it waits for has come: what ends a wait that no other step ends. AWAIT acquires, and a
thread that waits on memory reads its word once more (spec/10 R192; spec/18 R350). -/
def State.endWait (s : State) (b t : Nat) : State :=
  let th := s.thr b t
  if th.raised.isSome || !s.waitHolds b t then s
  else match th.wait with
    | some (.cqwait _ next) => s.updThr b t fun th => { th with wait := none, pc := next }
    | some (.await _ _ _ next) => (s.acquire (s.blk b).core).updThr b t fun th => { th with wait := none, pc := next }
    | some (.mem ..) => s.endMem b t
    | _ => s

/-- Threads of running blocks that wait, by block and thread. -/
def State.waiting (s : State) (f : Wait → Bool) : List (Nat × Nat) :=
  s.blocks.flatMap fun e => match e.2 with
    | some k => if k.status = .running then (k.threads.filter fun t => t.2.wait.any f).map fun t => (e.1, t.1) else []
    | none => []
/-- Waits on a completion count or an arrival object. -/
def Wait.counted : Wait → Bool
  | .cqwait .. | .await .. => true
  | _ => false
/-- The queue of a wait on memory: its key and the place in it; 0 for a thread that is to read its word again (R355). -/
def Wait.place : Wait → Option (Nat × Nat)
  | .mem _ pa _ _ _ _ q _ _ => some (pa / 4 * 4, q)
  | _ => none

/-- A thread that is back after a pre-emption checks its address and reads its word again, and joins the tail of the queue when
the condition fails (spec/18 R355). Its wait tells its operands; an access that faults is taken up again by the replay of its
instruction. -/
def State.reread (s : State) (b t : Nat) : State :=
  let th := s.thr b t
  match th.wait with
  | some (.mem va _ op ty v ext q pd next) =>
    if q ≠ 0 || th.raised.isSome then s
    else
      let o : MemOp := { thr := t, ea := va, b := v.setWidth 128 }
      let stand := fun s : State => s.updThr b t fun th => { th with wait := none }
      match s.waitAt b op ty pd ext next o with
      | (.exc code aux, s) => (stand s).raiseAt b t th.pc code aux
      | (.page va cause gpa, s) =>
        let c : Ctx := { b := b, wp := warpOf t, pc := th.pc, next := next, bundle := [t], exe := [t], u := false, lead := t }
        let i := ((s.peek b t).getD (.wait { u := false, g := 7, neg := false, la := 0 } op ty pd .zero .zero))
        let (id, s) := (stand s).openLog c i [o] 0 .read [(t, va, cause, gpa)]
        s.pendFault c 0 [t] 0 .none id
      | (.stall, s) => s
      | (_, s) => s
  | _ => s

/-- What the end of a step decides of the waits: a count or an object that has come ends a wait at once (R298); the waiters of
a key whose condition holds end together, in their order, as soon as the home agent looks (spec/18 R351, R352). -/
def State.endWaits (s : State) : State :=
  let s := (s.waiting Wait.counted).foldl (fun s x => s.endWait x.1 x.2) s
  let s := (s.waiting fun w => w.place.any fun x => x.2 = 0).foldl (fun s x => s.reread x.1 x.2) s
  let holding := (s.waiting fun w => w.place.any fun x => x.2 ≠ 0).filter fun x =>
    s.waitHolds x.1 x.2 && (s.thr x.1 x.2).raised.isNone
  let keys := (holding.filterMap fun x => (((s.thr x.1 x.2).wait.bind Wait.place).map (·.1))).eraseDups
  keys.foldl
    (fun s key =>
      let (now, s) := s.freeBool
      if now then ((s.waiters key).filter holding.contains).foldl (fun s x => s.endWait x.1 x.2) s else s) s

end Sys2Proof.Machine
end

