-- ==== Sys2Proof/Machine/Cp.lean ====
section
/-! DEFINITION. The command processors' own accesses, their queues' control blocks, and completion records (spec/16
R301..R309; spec/21 R445; spec/27 R434). -/
namespace Sys2Proof.Machine

/-! ### Accesses (spec/21 R445) -/

/-- Why an access of a command processor is not made: a fault that is to be reported, an address that no report can mend, a
frame in transit, or the end of device memory. -/
inductive CpStop where
  | fault (va : DWord) (cause gpa : Nat)
  | bad
  | stall
  | hole
  deriving DecidableEq, Repr

/-- The physical pieces of `n` bytes at a virtual address, cut at 64 KiB pages; the recursion is on the number of pieces. -/
def State.cpPieces (s : State) (fn : Nat) (kind : AccKind) : Nat → DWord → Nat → Except CpStop (List (Nat × Nat))
  | 0, _, _ => .ok []
  | f + 1, va, n =>
    if n = 0 then .ok []
    else if !deviceSpace va then .error .bad
    else
      let m := min n (65536 - va.toNat % 65536)
      match s.walkFor fn va.toNat kind with
      | .ok x =>
        if !inDevice (x.addr va.toNat) m then .error .hole
        else (s.cpPieces fn kind f (va + BitVec.ofNat 64 m) (n - m)).map fun l => (x.addr va.toNat, m) :: l
      | .fault c g => .error (.fault va c g)
      | .transit => .error .stall
      | .hole => .error .hole

def State.cpRead (s : State) (fn : Nat) (va : DWord) (n : Nat) : Except CpStop (List Byte) :=
  (s.cpPieces fn .read (n / 65536 + 2) va n).map fun l => l.flatMap fun p => s.readPA p.1 p.2
/-- The number that `n` bytes hold. -/
def State.cpNum (s : State) (fn : Nat) (va : DWord) (n : Nat) : Except CpStop Nat := (s.cpRead fn va n).map leNat

/-- Writes bytes at physical pieces, at their homes. -/
def State.putPieces (s : State) : List (Nat × Nat) → List Byte → State
  | [], _ => s
  | (pa, n) :: rest, bs => (s.writeHome pa (bs.take n)).putPieces rest (bs.drop n)
def State.cpWrite (s : State) (fn : Nat) (va : DWord) (bs : List Byte) : Except CpStop State :=
  (s.cpPieces fn .write (bs.length / 65536 + 2) va bs.length).map fun l => s.putPieces l bs

/-- A fault record of a command processor's access. -/
def State.cpRecord (s : State) (fn : Nat) (lid : Word) (va : DWord) (cause gpa : Nat) (w : Waiter) : Nat × State :=
  s.newRecord fn va lid 0xFFFFFFFF 0xFFFF cause gpa .command w

/-! ### Completion records (R308) -/

def recordBytes (status : Nat) (tag : Word) (r : Option Rec) : List Byte :=
  leBytes 4 status ++ leBytes 4 tag.toNat ++ (r.map Rec.bytes).getD (List.replicate 56 0)

/-- A completion record that no packet waits for: written, or waiting for a verdict or for a frame in transit; one whose address
cannot be written is left out. -/
def State.post (s : State) (fn : Nat) (va : DWord) (bs : List Byte) : State :=
  let (id, s) := s.newId
  let later := fun s : State => { s with posts := s.posts ++ [{ id := id, fn := fn, va := va, bytes := bs }] }
  match s.cpWrite fn va bs with
  | .ok s => s
  | .error (.fault v c g) => later (s.cpRecord fn 0 v c g (.post id)).2
  | .error .hole => { s with hole := true }
  | .error .stall => later s
  | .error .bad => s
/-- Completion records that waited for a frame in transit are tried again. -/
def State.postAgain (s : State) : State :=
  let due := s.posts.filter fun p => !s.records.any fun r => r.waiter = .post p.id
  due.foldl (fun s p => { s with posts := s.posts.filter fun x => x.id ≠ p.id }.post p.fn p.va p.bytes) s

/-! ### Queues (R301, R302, R309) -/

def State.queue (s : State) (fn n : Nat) : Queue := (s.fn fn).queues.get {} n
def State.updQueue (s : State) (fn n : Nat) (f : Queue → Queue) : State :=
  s.updFn fn fun x => { x with queues := x.queues.upd {} n f }
def State.notifyReg (s : State) (fn n : Nat) : Notify := (s.fn fn).notify.get {} n
def State.updNotify (s : State) (fn n : Nat) (f : Notify → Notify) : State :=
  s.updFn fn fun x => { x with notify := x.notify.upd {} n f }
/-- The address of the bound control block. -/
def State.qcb (s : State) (fn n : Nat) : DWord := (s.queue fn n).qcb

/-- The status word at 0x18 of a control block. -/
def Queue.word (q : Queue) : Nat := q.errPos.toNat * 2 ^ 32 + q.err * 256 + q.state
/-- Writes RDIDX and the status word of a queue's control block. What a fault or a frame in transit keeps from being written is
owed; a fault makes a queue that has not stopped wait for its verdict. -/
def State.putWords (s : State) (fn n : Nat) : State :=
  let q := s.queue fn n
  let owe := fun s : State => s.updQueue fn n fun q => { q with owed := true }
  match s.cpWrite fn (s.qcb fn n + 0x10) (leBytes 8 q.rdidx.toNat ++ leBytes 8 q.word) with
  | .ok s => s.updQueue fn n fun q => { q with owed := false }
  | .error (.fault v c g) =>
    if q.owed || q.fault.isSome then owe s
    else if q.state = 4 || q.state = 0 then owe (s.cpRecord fn 0 v c g .none).2
    else
      let (r, s) := s.cpRecord fn 0 v c g (.queue fn n)
      owe (s.updQueue fn n fun q => { q with fault := some r, state := 2 })
  | .error .hole => { s with hole := true }
  | .error .stall => owe s
  | .error .bad => s
/-- Changes a queue, and its control block where RDIDX or the status word changes. -/
def State.setQueue (s : State) (fn n : Nat) (f : Queue → Queue) : State :=
  let q := s.queue fn n
  let s := s.updQueue fn n f
  let p := s.queue fn n
  if p.word = q.word && p.rdidx = q.rdidx then s else s.putWords fn n

/-- An interrupt of a function: MSI-X vector 0 fault queue, 1 queue errors, 2 completion of an FLR, 3 management (spec/27
R431). -/
def State.irq (s : State) (fn v : Nat) : State := { s with irqs := s.irqs ++ [(fn, v)] }

/-- A field of a packet: `n` bytes at an offset. -/
def pkt (bs : List Byte) (off n : Nat) : Nat := numIn bs off n
def pktType (bs : List Byte) : Nat := pkt bs 0 1
def pktBarrier (bs : List Byte) : Bool := pkt bs 1 1 % 2 = 1
def pktSig (bs : List Byte) : Option DWord := if pkt bs 1 1 / 2 % 2 = 1 then some (addr (pkt bs 8 8)) else none
def pktTag (bs : List Byte) : Word := BitVec.ofNat 32 (pkt bs 4 4)

/-- The record of a packet that fails with CSIG = 1 and a proper SIGADDR: STATUS 3. -/
def State.post3 (s : State) (fn : Nat) (sig : Option DWord) (tag : Word) : State :=
  match sig with
  | some a => if a.toNat % 64 = 0 then s.post fn a (recordBytes 3 tag none) else s
  | none => s
/-- A queue error (R309): the queue stops, and the failing packet's record is written. -/
def State.queueError (s : State) (fn n err : Nat) (pos : Word) (sig : Option DWord) (tag : Word) : State :=
  let s := s.setQueue fn n fun q =>
    { q with running := false, state := 4, err := err, errPos := pos, waits := none, fault := none, binding := false,
             held := none }
  (s.irq fn 1).post3 fn sig tag
/-- A queue error at the packet at P. -/
def State.packetError (s : State) (fn n err : Nat) : State :=
  let q := s.queue fn n
  match q.fetched.find? fun e => e.1 = q.pos && e.2.length = 64 with
  | some e => s.queueError fn n err q.pos (pktSig e.2) (pktTag e.2)
  | none => s.queueError fn n err q.pos none 0

/-- An access for the packet at P has failed (R309): its completion record is not tried again where it was that access. -/
def State.accessError (s : State) (fn n : Nat) (va : DWord) : State :=
  let q := s.queue fn n
  match q.fetched.find? fun e => e.1 = q.pos && e.2.length = 64 with
  | some e =>
    let sig := (pktSig e.2).filter fun a => decide (64 ≤ (va - a).toNat)
    s.queueError fn n 6 q.pos sig (pktTag e.2)
  | none => s.queueError fn n 6 q.pos none 0

/-- An access of a queue's processing is not made: the queue waits for a verdict, or stops with 0x06. -/
def State.queueStop (s : State) (fn n : Nat) (lid : Word) (e : CpStop) : State :=
  match e with
  | .fault va c g =>
    let (r, s) := s.cpRecord fn lid va c g (.queue fn n)
    s.setQueue fn n fun q => { q with fault := some r, state := 2 }
  | .bad => s.packetError fn n 6
  | .stall => s
  | .hole => { s with hole := true }

/-! ### Binding (spec/27 R434) -/

/-- Is a control block well-formed (R301)? -/
def qcbOk (bs : List Byte) : Bool :=
  pkt bs 0 8 % 4096 = 0 && pkt bs 8 8 / 64 = 0 && decide (4 ≤ pkt bs 8 8 % 32) && decide (pkt bs 8 8 % 32 ≤ 16) &&
    pkt bs 0x20 8 / 2 ^ 32 = 0 && (bs.drop 0x28).all (· = 0)

/-- The command processor reads the control block of a bound queue and starts it at its RDIDX. -/
def State.bindQueue (s : State) (fn n : Nat) : State :=
  let stop := fun (err : Nat) (s : State) => s.queueError fn n err 0 none 0
  match s.cpRead fn (s.qcb fn n) 64 with
  | .ok bs =>
    if !qcbOk bs then stop 2 s
    else
      let r : Word := BitVec.ofNat 32 (pkt bs 0x10 4)
      s.setQueue fn n fun q =>
        { q with running := true, binding := false, base := addr (pkt bs 0 8), log2n := pkt bs 8 8 % 32,
                 hostq := pkt bs 8 8 / 32 % 2 = 1, pos := r, rdidx := r, loops := [], fetched := [], waits := none,
                 state := 1, err := 0, errPos := 0, closing := false, held := none }
  | .error .bad => stop 6 s
  | .error e => s.queueStop fn n 0 e

/-- The queue of a notify register is disabled (R434; spec/21 R381). -/
def State.unbindQueue (s : State) (fn n : Nat) : State :=
  s.setQueue fn n fun q =>
    { q with running := false, binding := false, closing := false, state := 0, waits := none, fault := none, fetched := [],
             loops := [], held := none }

/-! ### Processing (R302, R305..R307) -/

/-- The die that serves a queue. -/
def queueDie (fn n : Nat) : Nat := Config.queueDie fn n % 4
/-- Do the command processors of a die run: no fatal error has stopped them, and their control complex (unit 6) is powered and
in service (spec/23 R418; spec/21 R382; spec/01 R17)? -/
def State.cpRuns (s : State) (die : Nat) : Bool :=
  !s.cpStopped && !(s.die die).gated && !(s.unitsOut.any fun u => u.1 = die && u.2.1 = 6)
/-- May the command processor work on a queue: it is bound, waits for no verdict, and its command processor runs? -/
def State.cpReady (s : State) (fn n : Nat) : Bool :=
  let q := s.queue fn n
  (q.running || q.binding) && q.fault.isNone && s.cpRuns (queueDie fn n)
/-- The fill position. -/
def State.fill (s : State) (fn n : Nat) : Except CpStop Word :=
  if (s.queue fn n).hostq then .ok (s.notifyReg fn n).fill
  else (s.cpNum fn (s.qcb fn n + 0x20) 4).map (BitVec.ofNat 32)

/-- Work on a queue with its fill position. A bound queue whose control block has not been read reads it first. -/
def State.withFill (s : State) (fn n : Nat) (k : Word → State → State) : State :=
  let q := s.queue fn n
  if !s.cpReady fn n then s
  else if q.binding then s.bindQueue fn n
  else
    match s.fill fn n with
    | .error e => s.queueStop fn n 0 e
    | .ok f =>
      if 2 ^ q.log2n < (f - q.rdidx).toNat && decide ((f - q.rdidx).toNat ≤ 2 ^ 31) then s.packetError fn n 7 else k f s

/-- Is position `p` processable at fill position `f`? -/
def processable (f p : Word) : Bool := decide (1 ≤ (f - p).toNat) && decide ((f - p).toNat ≤ 2 ^ 31)

/-- The packet at P, when it is fetched, of a type asked for, and not held back by BARRIER. -/
def State.withPacket (s : State) (fn n : Nat) (waiting : Bool) (type : Nat → Bool) (k : List Byte → State → State) : State :=
  s.withFill fn n fun f s =>
    let q := s.queue fn n
    if !processable f q.pos || q.waits.isSome ≠ waiting then s
    else
      match q.fetched.find? fun e => e.1 = q.pos with
      | some (_, bs) =>
        if bs.length = 64 && type (pktType bs) && (!pktBarrier bs || q.inflight = []) then k bs s else s
      | none => s

/-- Targets of LOOP packets: those with a live counter, and those that are fetched and not yet reached. -/
def Queue.targets (q : Queue) : List Word :=
  q.loops.map (fun l => l.1 - l.2.2) ++
    (q.fetched.filter fun e => e.2.length = 64 && pktType e.2 = 6).map fun e => e.1 - BitVec.ofNat 32 (pkt e.2 0x14 4)
/-- The lowest position, from RDIDX on, that the command processor knows that it may still read: P, or a LOOP's target. -/
def Queue.lowest (q : Queue) : Word :=
  let d := fun t : Word => (t - q.rdidx).toNat
  q.targets.foldl (fun (m : Word) t => if d t < d m then t else m) q.pos

/-- P moves; fetched packets that are no longer ahead of it are dropped. RDIDX moves up as far as the command processor chooses,
and never past a position that it knows it may still read (log 48). A queue that is being disabled stops here. -/
def State.movePos (s : State) (fn n : Nat) (p : Word) : State :=
  let (c, s) := s.freeNat
  let s := s.setQueue fn n fun q =>
    let q := { q with pos := p, waits := none, state := 1, held := none,
                      fetched := q.fetched.filter fun e => e.1 ≠ q.pos && decide ((e.1 - p).toNat ≤ 64) }
    { q with rdidx := q.rdidx + BitVec.ofNat 32 (c % ((q.lowest - q.rdidx).toNat + 1)) }
  if (s.queue fn n).closing then s.unbindQueue fn n else s

/-- The header's reserved bits are 0, SIGADDR is proper, and every byte that no field names is 0 (R303, R304). -/
def pktOk (bs : List Byte) (fields : Nat → Bool) : Bool :=
  pkt bs 0 4 / 1024 = 0 && (if (pktSig bs).isSome then pkt bs 8 8 % 64 = 0 else pkt bs 8 8 = 0) &&
    (List.range 64).all fun j => decide (j < 16) || fields j || (bs[j]?).getD 0 = 0

/-- A packet that completes at once: its completion record's place is looked at first, its effect made, its record written,
and P moved. -/
def State.atOnce (s : State) (fn n : Nat) (bs : List Byte) (next : Word) (effect : State → Except CpStop State) : State :=
  let probe : Except CpStop (List (Nat × Nat)) := match pktSig bs with
    | some a => s.cpPieces fn .write 2 a 64
    | none => .ok []
  match probe with
  | .error e => s.queueStop fn n 0 e
  | .ok l =>
    match effect s with
    | .error e => s.queueStop fn n 0 e
    | .ok s => (s.putPieces l (if l = [] then [] else recordBytes 1 (pktTag bs) none)).movePos fn n next

end Sys2Proof.Machine
end

