-- ==== Sys2Proof/Machine/Launch.lean ====
section
/-! DEFINITION. How a command processor turns a launch or a relaunch into shares, tickets and a trace header, and how a
launch completes (spec/16 R311..R313, R319, R447; spec/17 R331, R335..R341; spec/18 R357). -/
namespace Sys2Proof.Machine

/-! ### Regions and dies of a context (spec/21 R368; spec/16 R311, R312) -/

/-- The regions of a function, ascending. -/
def Fn.regionList (f : Fn) : List Nat := (List.range 32).filter fun r => f.regions.getLsbD r
/-- The dies that hold regions of it. -/
def Fn.dieList (f : Fn) : List Nat := (f.regionList.map (· / 8)).eraseDups
/-- What is free on an empty core; nothing on a partition out of service. -/
def State.emptyOn (s : State) (core part : Nat) : Need :=
  if (s.core core).outOfService || (s.core core).partsOut.contains part then { slots := 0, regs := 0, tiles := 0, accs := 0 }
  else capacity part
/-- What remains after runs have taken their partitions. -/
def afterRuns (free : Nat → Need) (runs : List (Need × Nat)) (p : Nat) : Need :=
  runs.foldl
    (fun (f : Need) x => if x.2 = p then
        { slots := f.slots - x.1.slots, regs := f.regs - x.1.regs, tiles := f.tiles - x.1.tiles, accs := f.accs - x.1.accs }
      else f) (free p)
/-- The most blocks of one shape that fit free partitions, up to a bound; the recursion is on the bound. -/
def mostBlocks (runs : List Need) : Nat → (Nat → Need) → Nat
  | 0, _ => 0
  | n + 1, free =>
    ((placings free runs []).map fun ps => 1 + mostBlocks runs n (afterRuns free (runs.zip ps))).foldl max 0
/-- Blocks of a descriptor that fit an empty core (spec/15 R285, R286). -/
def State.blocksOn (s : State) (core : Nat) (d : Desc) (gs : List Word) : Nat :=
  let groups := (gs.filter (· ≠ 0)).length
  let bytes := d.scratch + 65536 * d.stash
  let room := min 63 (min (if bytes = 0 then 63 else 524288 / bytes) (if groups = 0 then 63 else 256 / groups))
  mostBlocks d.runs room (s.emptyOn core)
/-- Clusters that fit a region at once, its cores all taken as empty: members lie on distinct cores. -/
def State.clustersOn (s : State) (region : Nat) (d : Desc) (gs : List Word) : Nat :=
  let ms := (List.range 8).map fun c => s.blocksOn (region * 8 + c) d gs
  let ok := fun n : Nat => decide (n * d.csize ≤ (ms.map fun m => min m n).foldl (· + ·) 0)
  (((List.range 505).filter ok).getLast?).getD 0

/-! ### Checking a launch (R311) -/

/-- Why a launch is not started: an access that is not made, or a refused descriptor. -/
inductive Refuse where
  | stop (e : CpStop)
  | descriptor
  deriving DecidableEq, Repr

def orStop {α : Type} : Except CpStop α → Except Refuse α
  | .ok x => .ok x
  | .error e => .error (.stop e)

/-- What a launch packet or a carafe entry names. -/
structure Ask where
  fn : Nat
  desc : DWord
  gridAt : Option DWord := none
  traceAt : Option DWord := none
  deriving DecidableEq, Repr

/-- A checked launch: its descriptor with its grid, the bytes of its snapshot, and the hash of its parameter block when it is
traced. -/
structure Checked where
  d : Desc
  snap : List Byte
  phash : DWord
  deriving DecidableEq, Repr

/-- A table of 64 bytes; zeros when its address is 0. -/
def State.cpTable (s : State) (fn : Nat) (a : DWord) : Except CpStop (List Byte) :=
  if a = 0 then .ok (List.replicate 64 0) else s.cpRead fn a 64
/-- The grid of a launch: from its descriptor, or three words of memory. -/
def State.askGrid (s : State) (a : Ask) (d : Desc) : Except CpStop Desc :=
  match a.gridAt with
  | none => .ok d
  | some g => (s.cpRead a.fn g 12).map fun bs => d.withGrid (numIn bs 0 4, numIn bs 4 4, numIn bs 8 4)
/-- Are the conditions of R311 on the tables and the context met? -/
def State.askOk (s : State) (fn : Nat) (d : Desc) (gs : List Word) : Bool :=
  groupsOk d.nwarps gs && d.fitsEmpty && (s.fn fn).regions ≠ 0 &&
    (!d.coresident || decide (d.clusters ≤ ((s.fn fn).regionList.map fun r => s.clustersOn r d gs).foldl (· + ·) 0))

/-- Reads and checks everything that a launch names. -/
def State.check (s : State) (a : Ask) : Except Refuse Checked :=
  match s.cpRead a.fn a.desc 256 with
  | .error e => .error (.stop e)
  | .ok bs =>
    match s.askGrid a (Desc.of bs) with
    | .error e => .error (.stop e)
    | .ok d =>
      if !d.ok || (a.traceAt.isSome && !d.traced) then .error .descriptor
      else
        let n := min 64 d.paramSize
        match s.cpTable a.fn d.gtempl, s.cpTable a.fn d.format, s.cpRead a.fn d.param n with
        | .ok gt, .ok ft, .ok ps =>
          if !s.askOk a.fn d (groupMasks gt) then .error .descriptor
          else
            let snap := bs ++ gt ++ ft ++ ps ++ List.replicate (128 - n) 0
            if d.traced then
              match s.cpRead a.fn d.param d.paramSize with
              | .ok all => .ok { d := d, snap := snap, phash := blake3 all }
              | .error e => .error (.stop e)
            else .ok { d := d, snap := snap, phash := 0 }
        | .error e, _, _ => .error (.stop e)
        | _, .error e, _ => .error (.stop e)
        | _, _, .error e => .error (.stop e)

/-! ### Windows and flips (spec/17 R335, R337) -/

/-- The enabled watch windows that a function owns. -/
def State.ownWatches (s : State) (fn : Nat) : List Nat :=
  (List.range 32).filter fun n => (s.watch n).en && (s.watch n).owner = fn
def windowMask (ns : List Nat) : Word := ns.foldl (fun (m : Word) n => m ||| (1#32 <<< n)) 0
def State.updWatch (s : State) (n : Nat) (f : Watch → Watch) : State := { s with watches := s.watches.upd {} n f }
/-- The generation advances: the live map becomes the snapshot map. -/
def State.flip (s : State) (n : Nat) : State := s.updWatch n fun w => { w with gen := w.gen + 1 }
/-- The snapshot map. -/
def Watch.old (w : Watch) : Nat := w.mapAt ((w.gen.toNat + 1) % 2)
/-- Zeroes the snapshot map of a window. -/
def State.zeroOld (s : State) (n : Nat) : State :=
  let w := s.watch n
  { s with mem := Map.clear s.mem w.old w.mapBytes }
/-- The generations of all windows. -/
def State.gens (s : State) : List Word := (List.range 32).map fun n => (s.watch n).gen

/-- Is the bit of a tile set in a map at `a`? -/
def State.mapBit (s : State) (a tile : Nat) : Bool := (s.byte (a + tile / 8)).getLsbD (tile % 8)
/-- Tiles of a window. -/
def Watch.tiles (w : Watch) : Nat := (w.last + 1 - w.first) / 65536

/-! ### Trace headers and records (R331, R332) -/

/-- The 256 bytes of a header at the start of a run. -/
def headerBytes (d : Desc) (lid : Word) (r : TraceRun) : List Byte :=
  leBytes 8 8 ++ leBytes 4 lid.toNat ++ leBytes 4 (d.gx * d.gy * d.gz) ++ leBytes 4 d.gx ++ leBytes 4 d.gy ++
    leBytes 4 d.gz ++ leBytes 4 (d.clx + d.cly * 16 + d.clz * 256) ++ leBytes 8 r.phash.toNat ++
    leBytes 8 r.winMask.toNat ++ r.gens.flatMap (fun (g : Word) => leBytes 4 g.toNat) ++ List.replicate 80 0
/-- One range of a record as its window, first tile and length. -/
def rangeOf (x : Nat) : Nat × Nat × Nat := (field x 63 59, field x 35 0, field x 58 36 + 1)
def recordRanges (bs : List Byte) : List (Nat × Nat × Nat) :=
  (List.range (min 30 (field (numIn bs 0 8) 12 8))).map fun k => rangeOf (numIn bs (0x10 + 8 * k) 8)
/-- The 256 bytes of a block's record. -/
def Trace.bytes (r : Trace) (lid : Word) (q : Nat) (done : Bool) : List Byte :=
  let flags := (if done then 1 else 0) + (if r.readAll then 2 else 0) + (if r.unwatched then 4 else 0)
  let one := fun x : Nat × Nat × Nat => leBytes 8 (x.1 * 2 ^ 59 + (x.2.2 - 1) * 2 ^ 36 + x.2.1)
  leBytes 4 (flags + r.ranges.length * 256) ++ leBytes 4 lid.toNat ++ leBytes 8 q ++
    (r.ranges.take 30).flatMap one ++ List.replicate (240 - 8 * (r.ranges.take 30).length) 0

/-- Does a range meet a set bit of the map that `at_` gives for its window? -/
def State.meetsMap (s : State) (at_ : Watch → Nat) (x : Nat × Nat × Nat) : Bool :=
  let w := s.watch x.1
  (List.range x.2.2).any fun j => decide (x.2.1 + j < w.tiles) && s.mapBit (at_ w) (x.2.1 + j)
/-- Is any bit of the map of a window set? -/
def State.anyBit (s : State) (at_ : Watch → Nat) (n : Nat) : Bool :=
  (List.range (s.watch n).tiles).any fun j => s.mapBit (at_ (s.watch n)) j

/-! ### RELAUNCH (R338) -/

/-- Must the relaunch run every block: by the header and by the windows as they stand before the flips? -/
def State.fullRun (s : State) (fn : Nat) (c : Checked) (hdr : List Byte) : Bool :=
  let fl := numIn hdr 0 8
  let d := c.d
  fl % 2 = 0 || fl / 2 % 2 = 1 || fl / 4 % 2 = 1 ||
    (numIn hdr 0x10 4, numIn hdr 0x14 4, numIn hdr 0x18 4) ≠ d.grid ||
    field (numIn hdr 0x18 8) 43 32 ≠ d.clx + d.cly * 16 + d.clz * 256 ||
    addr (numIn hdr 0x20 8) ≠ c.phash ||
    (List.range 32).any fun n =>
      (numIn hdr 0x28 4).testBit n && (!(s.watch n).en || (s.watch n).owner ≠ fn ||
        (s.watch n).gen.toNat ≠ numIn hdr (0x30 + 4 * n) 4)

/-- Does a line meet a window of a list? -/
def State.lineIn (s : State) (ns : List Nat) (line : Nat) : Bool :=
  ns.any fun n => decide ((s.watch n).first ≤ line * 128) && decide (line * 128 ≤ (s.watch n).last)
/-- A written-back line of a die stays there clean: M becomes E, O becomes S. -/
def State.cleanLine (s : State) (die line : Nat) : State :=
  match s.l2At die line with
  | .m => (s.wroteBack line).moveL2 die line .e
  | .o =>
    let x := s.dirAt line
    ((s.wroteBack line).moveL2 die line .s).setDir line (if x.state = 3 then { x with owner := 0, state := 1 } else x)
  | _ => s
/-- Requests in progress for some lines come to their end: every die answers. -/
def State.finishTxns (s : State) (p : Nat → Bool) : State :=
  (s.txns.filter fun t => p t.line).foldl (fun s t => t.snoops.foldl (fun s x => s.snoop x.1 t.line x.2) s) s
/-- What every core has stored to some lines reaches the L2 of its die. -/
def State.publishLines (s : State) (p : Nat → Bool) : State :=
  s.cores.foldl (fun s e => ((s.l1Lines e.1).filter p).foldl (fun s l => s.publishLine e.1 l) s) s
/-- Every dirty or owned byte of some lines is written back from every core and die. -/
def State.writeBackLines (s : State) (p : Nat → Bool) : State :=
  let s := (s.publishLines p).finishTxns p
  let mine := s.pendReg.filter fun x => p (x.2 / 32)
  let s := mine.foldl (fun s x => s.mark (x.2 * 4) 4) { s with pendReg := s.pendReg.filter fun x => !p (x.2 / 32) }
  let s := { s with owners := s.owners.filter fun e => !p (e.1 % 0x800000000 / 32) }
  let s := (s.l2.filter fun e => p (e.1 % 0x40000000)).foldl
    (fun s e => s.cleanLine (e.1 / 0x40000000) (e.1 % 0x40000000)) s
  (s.decafs.filter fun e => p (e.1 % 0x40000000)).foldl
    (fun s e => s.cleanDecaf (e.1 / 0x40000000) (e.1 % 0x40000000)) s
def State.writeBackWindows (s : State) (ns : List Nat) : State := s.writeBackLines (s.lineIn ns)

/-- The records of a grid. -/
def State.readRecords (s : State) (fn : Nat) (buf : DWord) (n : Nat) : Except CpStop (List (List Byte)) :=
  (s.cpRead fn (buf + 256) (256 * n)).map fun bs => (List.range n).map fun q => (bs.drop (256 * q)).take 256
/-- Does a record select its block? -/
def State.selects (s : State) (bs : List Byte) : Bool :=
  let fl := numIn bs 0 4
  fl % 2 = 0 || fl / 2 % 2 = 1 || fl / 4 % 2 = 1 || (recordRanges bs).any (s.meetsMap Watch.old)

/-! ### Preparing a run -/

/-- A plain or traced LAUNCH: every cluster; a traced one flips its windows (R335). -/
def State.planLaunch (s : State) (a : Ask) (c : Checked) : Plan × State :=
  let all := List.range c.d.clusters
  let p : Plan := { snap := c.snap, grid := c.d.grid, clusters := all, trace := none }
  if !c.d.traced then (p, s)
  else
    let ns := s.ownWatches a.fn
    let s := ns.foldl (fun s n => (s.flip n).zeroOld n) s
    ({ p with trace := some { buf := c.d.traceBuf, winMask := windowMask ns, gens := s.gens, phash := c.phash } }, s)

/-- A RELAUNCH on a trace buffer: header and records are read, dirty bytes written back, the windows flipped, the blocks
selected and widened to whole clusters, and the snapshot maps zeroed. -/
def State.planRelaunch (s : State) (a : Ask) (buf : DWord) (c : Checked) : Except CpStop (Plan × State) :=
  match s.cpRead a.fn buf 256 with
  | .error e => .error e
  | .ok hdr =>
    let full := s.fullRun a.fn c hdr
    let d := c.d
    match (if full then .ok [] else s.readRecords a.fn buf (d.gx * d.gy * d.gz)) with
    | .error e => .error e
    | .ok recs =>
      let ns := s.ownWatches a.fn
      let s := ns.foldl (fun s n => s.flip n) (s.writeBackWindows ns)
      let picked := fun q : Nat => full || s.selects ((recs[q]?).getD [])
      let cl := (List.range d.clusters).filter fun i => (List.range d.csize).any fun r => picked (i * d.csize + r)
      let s := ns.foldl (fun s n => s.zeroOld n) s
      .ok ({ snap := c.snap, grid := d.grid, clusters := cl,
             trace := some { buf := buf, winMask := windowMask ns, gens := s.gens, phash := c.phash } }, s)

/-- Is a run on a trace buffer of the function not complete, one whose header is still to be written included? -/
def State.traceBusy (s : State) (fn : Nat) (buf : DWord) : Bool :=
  let on := fun p : Option Plan => (p.bind (·.trace)).any fun t => t.buf = buf
  (s.launches.any fun l => l.fn = fn && l.trace.any fun t => t.buf = buf) || ((s.fn fn).queues.any fun q => on q.2.held) ||
    s.dies.any fun d => d.2.carafe.any fun e => e.fn = fn && on e.held

/-! ### Starting a launch (R312, R313, R447) -/

/-- The next launch id of a function; 0 is skipped. -/
def Fn.lidNext (f : Fn) : Word := if f.nextLid + 1 = 0 then 1 else f.nextLid + 1
/-- Where the next snapshot lies: the lowest free place (log 9). -/
def snapBase : Nat := Config.snapshotPool % 2 ^ 24 * 0x1000
def State.freeSnap (s : State) : Nat :=
  let used := s.launches.map (·.snap)
  ((List.range (s.launches.length + 1)).map fun j => snapBase + 512 * j).find? (fun a => !used.contains a) |>.getD snapBase

/-- Cuts a rising list into runs of consecutive numbers, each its first and the number after its last. -/
def runsIn : List Nat → List (Nat × Nat)
  | [] => []
  | x :: rest =>
    match runsIn rest with
    | (a, b) :: more => if a = x + 1 then (x, b) :: more else (x, x + 1) :: (a, b) :: more
    | [] => [(x, x + 1)]
/-- The shares of a launch: its clusters split over the dies in order, one ticket for each run of consecutive clusters. -/
def sharesOf (dies clusters : List Nat) : List Share :=
  let n := clusters.length
  let m := dies.length
  (dies.zipIdx).flatMap fun d =>
    let lo := d.2 * n / m
    let hi := (d.2 + 1) * n / m
    (runsIn ((clusters.drop lo).take (hi - lo))).map fun r => ({ die := d.1, first := r.1, last := r.2 } : Share)

/-- Where a launch came from: its completion record, its tag, and its queue and position. -/
structure Origin where
  sig : Option DWord
  tag : Word
  queue : Option (Nat × Word)
  deriving DecidableEq, Repr

/-- Writes the snapshot and starts the launch; answers its id. -/
def State.startLaunch (s : State) (fn : Nat) (p : Plan) (o : Origin) : Word × State :=
  let lid := (s.fn fn).lidNext
  let a := s.freeSnap
  let s := (s.updFn fn fun f => { f with nextLid := lid }).writePA a p.snap
  let l : Launch :=
    { fn := fn, lid := lid, snap := a, grid := p.grid, clusters := p.clusters,
      shares := sharesOf (s.fn fn).dieList p.clusters, sigAddr := o.sig, tag := o.tag, queue := o.queue,
      qclass := (Desc.of p.snap).qclass, trace := p.trace }
  (lid, { s with launches := s.launches ++ [l] })

/-- The outcome of processing a launch. -/
inductive Begun where
  | started (lid : Word)
  /-- A RELAUNCH waits for a run on its trace buffer. -/
  | busy
  | refused (r : Refuse)
  /-- The header's write is not made: the prepared run is kept. -/
  | held (p : Plan) (e : CpStop)
  deriving DecidableEq, Repr

/-- A prepared run writes its header and starts. -/
def State.beginPlan (s : State) (fn : Nat) (p : Plan) (o : Origin) : Begun × State :=
  match p.trace with
  | none =>
    let (lid, s) := s.startLaunch fn p o
    (.started lid, s)
  | some t =>
    match s.cpWrite fn t.buf (headerBytes ((Desc.of p.snap).withGrid p.grid) (s.fn fn).lidNext t) with
    | .error e => (.held p e, s)
    | .ok s =>
      let (lid, s) := s.startLaunch fn p o
      (.started lid, s)

/-- Processes a launch or relaunch, or goes on with one whose header's write had faulted. -/
def State.beginLaunch (s : State) (a : Ask) (held : Option Plan) (o : Origin) : Begun × State :=
  match held with
  | some p => s.beginPlan a.fn p o
  | none =>
    match s.check a with
    | .error r => (.refused r, s)
    | .ok c =>
      match a.traceAt with
      | none =>
        let (p, s) := s.planLaunch a c
        s.beginPlan a.fn p o
      | some buf =>
        if s.traceBusy a.fn buf then (.busy, s)
        else
          match s.planRelaunch a buf c with
          | .error e => (.refused (.stop e), s)
          | .ok (p, s) => s.beginPlan a.fn p o

/-! ### Tickets (R312, R313) -/

/-- The launch board of a die: 16 KiB of device memory (log 9). -/
def boardAt (die : Nat) : Nat := (Config.boardPage die % 2 ^ 21 * 4 + die % 4) * 0x4000
/-- The first share of a die that has no ticket yet. -/
def State.nextShare (s : State) (die : Nat) : Option (Nat × Word × Nat × Share) :=
  s.launches.findSome? fun l =>
    if l.ending = .running then
      (l.shares.zipIdx).findSome? fun x => if x.1.die = die && x.1.slot.isNone then some (l.fn, l.lid, x.2, x.1) else none
    else none
def State.updLaunch (s : State) (fn : Nat) (lid : Word) (f : Launch → Launch) : State :=
  { s with launches := s.launches.map fun l => if l.fn = fn && l.lid = lid then f l else l }

/-- TICKET_WRITE: the ticket goes into slot FILL mod 255 when its launch-id word reads 0, and FILL advances. -/
def execTicketWrite (die : Nat) (s : State) : Host.Outcome State Fault Refusal :=
  match s.nextShare die with
  | none => finish s
  | some (fn, lid, i, sh) =>
    let fill := s.num (boardAt die) 4
    let slot := fill % 255
    let a := boardAt die + 64 + 64 * slot
    if s.cpStopped || s.unitsOut.any (fun u => u.1 = die && u.2.1 = 6) || s.num (a + 8) 4 ≠ 0 then finish s
    else
      let snap := ((s.launchOf fn lid).map (·.snap)).getD 0
      let s := s.writeHome a (leBytes 4 sh.first ++ leBytes 4 sh.last ++ leBytes 8 lid.toNat ++ leBytes 8 snap)
      let s := s.writeHome (boardAt die) (leBytes 4 ((fill + 1) % 2 ^ 32))
      finish (s.updLaunch fn lid fun l => { l with shares := l.shares.modify i fun x => { x with slot := some slot } })

/-- A failing launch: every ticket of it that is still on its board is exhausted (spec/23 R406). -/
def State.exhaust (s : State) (l : Launch) : State :=
  l.shares.foldl
    (fun s sh => match sh.slot with
      | none => s
      | some k =>
        let a := boardAt sh.die + 64 + 64 * k
        if s.num (a + 8) 4 = l.lid.toNat then s.writeHome a (leBytes 4 sh.last) else s) s

/-! ### Completion (R306, R308, R335, R336) -/

/-- Blocks of a launch that are placed, by handle. -/
def State.blocksOf (s : State) (fn : Nat) (lid : Word) : List Nat :=
  (s.blocks.filter fun e => match e.2 with
    | some k => k.fn = fn && k.lid = lid && !k.agent
    | none => false).map (·.1)
/-- Has every block of the launch ended: all its clusters' blocks, or, when it has failed, all that were placed? -/
def State.launchOver (s : State) (l : Launch) : Bool :=
  let left := (s.blocksOf l.fn l.lid).filter fun b => (s.blk b).status ≠ .dead || (s.blk b).trace.isSome
  let d := s.launchDesc l
  left = [] && !(s.stops.any fun x => x.1 = l.fn && x.2.1 = l.lid) &&
    (match l.ending with
      | .running => decide (l.clusters.length * d.csize ≤ l.ended.length)
      | .failed _ => true)

/-- The record that a completion carries: of the failure, or of a trace failure. -/
def Launch.failure (l : Launch) : Option Rec :=
  match l.ending with
  | .failed r => some r
  | .running => l.traceFault

/-- SELFDEP of a run whose blocks wrote some records: one of them meets a live map of its windows. -/
def State.selfDep (s : State) (t : TraceRun) (recs : List (List Byte)) : Bool :=
  let ns := (List.range 32).filter fun n => t.winMask.getLsbD n && (s.watch n).en
  recs.any fun bs =>
    (recordRanges bs).any (fun x => ns.contains x.1 && s.meetsMap Watch.live x) ||
      (numIn bs 0 4 / 2 % 2 = 1 && ns.any (s.anyBit Watch.live))

/-- The records of some blocks. -/
def State.recordsOf (s : State) (fn : Nat) (buf : DWord) : List Nat → Except CpStop (List (List Byte))
  | [] => .ok []
  | q :: qs =>
    match s.cpRead fn (buf + 256 + BitVec.ofNat 64 (256 * q)) 256, s.recordsOf fn buf qs with
    | .ok bs, .ok l => .ok (bs :: l)
    | .error e, _ => .error e
    | _, r => r
/-- The header of a completed run: its flags word. Where a record could not be written, VALID stays 0, and records that cannot
be read count for nothing (R341). -/
def State.closeHeader (s : State) (l : Launch) (t : TraceRun) : Except CpStop State :=
  let read := s.recordsOf l.fn t.buf l.ended
  match (if l.traceFault.isSome then .ok (read.toOption.getD []) else read) with
  | .error e => .error e
  | .ok recs =>
    let valid := if l.traceFault.isSome then 0 else 1
    let self := if s.selfDep t recs then 2 else 0
    let exc := if l.failure.isSome then 4 else 0
    s.cpWrite l.fn t.buf (leBytes 8 (valid + self + exc))

/-- The launch is gone: its snapshot is free, its dead blocks' scratchpads with it, and its packet has completed. -/
def State.dropLaunch (s : State) (l : Launch) : State :=
  let s := (s.blocksOf l.fn l.lid).foldl State.dropBlock s
  let s := { s with launches := s.launches.filter fun x => !(x.fn = l.fn && x.lid = l.lid) }
  match l.queue with
  | none => s
  | some (n, pos) => s.updQueue l.fn n fun q => { q with inflight := q.inflight.erase (pos, .launch l.lid) }

/-- A trace header cannot be written at completion: the run fails with PAGE and its header stays as it is (spec/17 R341). -/
def State.failHeader (s : State) (l : Launch) : State :=
  let (a, s) := s.freeWord
  let (b, s) := s.freeWord
  let r : Rec := { code := cPAGE, count := 1, lid := l.lid, blk := 0xFFFFFFFF, thr := 0xFFFF, level := 2, aux := b ++ a }
  s.updLaunch l.fn l.lid fun x => { x with trace := none, traceFault := some (x.traceFault.getD r), fault := none }
/-- A completion record cannot be written: it is left out, and a queue stops with 0x06 (R309). -/
def State.failRecord (s : State) (l : Launch) : State :=
  let s := s.dropLaunch l
  match l.queue with
  | some (n, pos) => if (s.queue l.fn n).state = 4 then s else s.queueError l.fn n 6 pos none 0
  | none => s
/-- The completion's access is not made: it waits for a verdict, or fails where none can help. -/
def State.completeStop (s : State) (l : Launch) (header : Bool) (e : CpStop) : State :=
  match e with
  | .fault va c g =>
    let (r, s) := s.cpRecord l.fn l.lid va c g (.complete l.fn l.lid)
    let s := s.updLaunch l.fn l.lid fun x => { x with fault := some r }
    match l.queue with
    | some (n, _) => s.setQueue l.fn n fun q => { q with state := if q.state = 1 then 2 else q.state }
    | none => s
  | .stall => s
  | .hole => { s with hole := true }
  | .bad => if header then s.failHeader l else s.failRecord l

/-- LAUNCH_COMPLETE: the header first, then the completion record. -/
def execLaunchComplete (fn lid : Nat) (s : State) : Host.Outcome State Fault Refusal :=
  match s.launchOf fn (BitVec.ofNat 32 lid) with
  | none => finish s
  | some l =>
    if !s.launchOver l || l.fault.isSome || s.cpStopped then finish s
    else
      let record := fun (s : State) =>
        match l.sigAddr with
        | none => s.dropLaunch l
        | some a =>
          match s.cpWrite fn a (recordBytes (if l.failure.isSome then 2 else 1) l.tag l.failure) with
          | .ok s => s.dropLaunch l
          | .error e => s.completeStop l false e
      match l.trace with
      | none => finish (record s)
      | some t =>
        match s.closeHeader l t with
        | .error e => finish (s.completeStop l true e)
        | .ok s => finish (record s)

/-! ### Carafe entries (R319, R357) -/

def Carafe.ask (e : Carafe) : Ask :=
  { fn := e.fn, desc := e.desc, gridAt := if e.kind = 0 && e.grid ≠ 0 then some e.grid else none,
    traceAt := if e.kind = 1 then some e.grid else none }
/-- The head entry leaves the carafe. -/
def State.popCarafe (s : State) (die : Nat) : State := s.updDie die fun d => { d with carafe := d.carafe.tail }
def State.headCarafe (s : State) (die : Nat) (f : Carafe → Carafe) : State :=
  s.updDie die fun d => { d with carafe := d.carafe.modify 0 f }
/-- An entry is refused: STATUS 3 in its completion record. -/
def State.refuseCarafe (s : State) (die : Nat) (e : Carafe) : State :=
  let s := s.popCarafe die
  if e.completion = 0 then s else s.post e.fn e.completion (recordBytes 3 0 none)
/-- An access of an entry is not made. -/
def State.carafeStop (s : State) (die : Nat) (e : Carafe) (x : CpStop) : State :=
  match x with
  | .fault va c g =>
    let (r, s) := s.cpRecord e.fn 0 va c g (.carafe die)
    s.headCarafe die fun e => { e with fault := some r }
  | .bad => s.refuseCarafe die e
  | .stall => s
  | .hole => { s with hole := true }

/-- CARAFE_ENTRY: the command processor of a die processes the head of its carafe. -/
def execCarafeEntry (die : Nat) (s : State) : Host.Outcome State Fault Refusal :=
  match (s.die die).carafe with
  | [] => finish s
  | e :: _ =>
    if e.fault.isSome || !s.cpRuns die then finish s
    else
      let o : Origin := { sig := if e.completion = 0 then none else some e.completion, tag := 0, queue := none }
      match s.beginLaunch e.ask e.held o with
      | (.started _, s) => finish (s.popCarafe die)
      | (.busy, s) => finish s
      | (.refused .descriptor, s) => finish (s.refuseCarafe die e)
      | (.refused (.stop x), s) => finish (s.carafeStop die e x)
      | (.held p x, s) => finish ((s.headCarafe die fun e => { e with held := some p }).carafeStop die e x)

end Sys2Proof.Machine
end

