-- ==== Sys2Proof/Machine/Queue.lean ====
section
/-! DEFINITION. Notify registers and the processing of packets (spec/16 R301..R309, R325; spec/21 R382; spec/27 R434). -/
namespace Sys2Proof.Machine

/-! ### What a queue's STATE reports (R301, R325; spec/21 R445) -/

/-- The warps of a function that have live threads: block and warp. -/
def State.fnWarps (s : State) (fn : Nat) : List (Nat × Nat) :=
  s.blocks.flatMap fun e => match e.2 with
    | some k => if k.fn = fn && !k.agent && k.status ≠ .dead then
        ((List.range k.nwarps).filter fun w => k.liveOf w ≠ []).map fun w => (e.1, w)
      else []
    | none => []
def State.warpExternal (s : State) (b w : Nat) : Bool := ((s.blk b).liveOf w).any fun t => (s.thr b t).external
/-- The condition of WAITING_EXTERNAL. -/
def State.waitsExternally (s : State) (fn : Nat) : Bool :=
  let ws := s.fnWarps fn
  (ws.all (fun x => s.warpWaits x.1 x.2) && ws.any fun x => s.warpExternal x.1 x.2) ||
    (s.fn fn).queues.any fun q => q.2.waits = some true
/-- What a queue's STATE is to read. -/
def Queue.reports (q : Queue) (ext late : Bool) : Nat :=
  if q.state = 0 || q.state = 4 then q.state
  else if ext then 3
  else if q.fault.isSome || q.waits.isSome || late then 2
  else 1
/-- Does the packet at P wait for earlier ones (BARRIER), or for a run on its trace buffer (spec/17 R338)? -/
def State.stalls (s : State) (fn : Nat) (q : Queue) : Bool :=
  match q.fetched.find? fun e => e.1 = q.pos && e.2.length = 64 with
  | some (_, bs) => (pktBarrier bs && q.inflight ≠ []) || (pktType bs = 3 && s.traceBusy fn (addr (pkt bs 0x18 8)))
  | none => false
/-- Does the queue wait without a WAIT packet: the completion of a launch of it waits for a verdict (spec/21 R445), or the
packet at P waits? -/
def State.late (s : State) (fn n : Nat) : Bool :=
  let q := s.queue fn n
  (s.launches.any fun l => l.fn = fn && l.fault.isSome && l.queue.any fun x => x.1 = n) || (q.held.isNone && s.stalls fn q)
/-- Brings the STATE of every queue of a function up to date. -/
def State.syncQueues (s : State) (fn : Nat) : State :=
  let ext := s.waitsExternally fn
  ((s.fn fn).queues.map (·.1)).foldl (fun s n => s.setQueue fn n fun q => { q with state := q.reports ext (s.late fn n) }) s

/-- What the end of a step makes of the queues: a warp that enters or leaves an external wait changes what they report (R325), and
what is owed to a control block is written as soon as it can be. -/
def State.noticeQueues (s : State) : State :=
  let fns := s.fns.filter fun e => e.2.queues ≠ []
  let s := fns.foldl (fun s e => s.syncQueues e.1) s
  let s := fns.foldl
    (fun s e => e.2.queues.foldl (fun s q => if (s.queue e.1 q.1).owed then s.putWords e.1 q.1 else s) s) s
  s.postAgain

/-! ### Notify registers (spec/27 R434, R440; spec/21 R381, R382) -/

/-- A write to the aperture of a function whose FLR has passed its quiesce point is dropped and counted. -/
def State.aperture (s : State) (fn : Nat) (k : State → State) : Host.Outcome State Fault Refusal :=
  finish (if s.bootState ≠ 2 then s
    else if (s.fn fn).busy && (s.fn fn).quiesced then s.updFn fn fun f => { f with dropped := f.dropped + 1 }
    else k s)

/-- NOTIFY_WRITE: the latch takes the value; a write to a power-gated command processor leaves the pending bit. -/
def execNotifyWrite (fn n : Nat) (v : Word) (s : State) : Host.Outcome State Fault Refusal :=
  s.aperture fn fun s =>
    let gated := (s.die (queueDie fn n)).gated
    let s := s.updNotify fn n fun r => { r with fill := v, pending := gated }
    if (s.queue fn n).hostq then (s.withFill fn n fun _ s => s).syncQueues fn else s

/-- NOTIFY_BIND: EN = 1 binds the queue and its control block is read; ignored while EN = 1. -/
def execNotifyBind (fn n : Nat) (v : DWord) (s : State) : Host.Outcome State Fault Refusal :=
  s.aperture fn fun s =>
    if (s.notifyReg fn n).en then s
    else
      let s := s.updNotify fn n fun r => { r with qcb := addr (bits64 v 63 6 * 64), en := true }
      let s := s.updQueue fn n fun _ => { qcb := addr (bits64 v 63 6 * 64), binding := true }
      (s.withFill fn n fun _ s => s).syncQueues fn

/-- NOTIFY_UNBIND: EN = 0 disables the queue after its current packet. -/
def execNotifyUnbind (fn n : Nat) (v : DWord) (s : State) : Host.Outcome State Fault Refusal :=
  s.aperture fn fun s =>
    let s := s.updNotify fn n fun r => { r with qcb := addr (bits64 v 63 6 * 64), en := false }
    let q := s.queue fn n
    if q.running && (q.waits.isSome || q.fault.isSome) then s.updQueue fn n fun q => { q with closing := true }
    else (s.unbindQueue fn n).syncQueues fn

/-- NOTIFY_WAKE: a power-gated command processor wakes and takes the latched values. -/
def execNotifyWake (die : Nat) (s : State) : Host.Outcome State Fault Refusal :=
  let wake := fun (fn : Nat) (f : Fn) =>
    { f with notify := f.notify.map fun e => (e.1, if queueDie fn e.1 = die then { e.2 with pending := false } else e.2) }
  finish ((s.fns.map (·.1)).foldl (fun s fn => s.updFn fn (wake fn)) (s.updDie die fun d => { d with gated := false }))

/-! ### Fetching (R307) -/

/-- The next unit to be fetched: its position and how many bytes of the slot are there. -/
def Queue.nextUnit (q : Queue) (f : Word) : Option (Word × Nat) :=
  ((List.range 65).map fun j => q.pos + BitVec.ofNat 32 j).findSome? fun p =>
    if !processable f p then none
    else
      match q.fetched.find? fun e => e.1 = p with
      | none => some (p, 0)
      | some e => if e.2.length < 64 then some (p, e.2.length) else none
/-- PACKET_FETCH: one aligned 8-byte unit of a packet ahead of P. -/
def execPacketFetch (fn n : Nat) (s : State) : Host.Outcome State Fault Refusal :=
  finish (s.withFill fn n fun f s =>
    let q := s.queue fn n
    match q.nextUnit f with
    | none => s
    | some (p, have_) =>
      match s.cpRead fn (q.base + BitVec.ofNat 64 (p.toNat % 2 ^ q.log2n * 64 + have_)) 8 with
      | .error e => (s.queueStop fn n 0 e).syncQueues fn
      | .ok bs =>
        let s := s.updQueue fn n fun q =>
          { q with fetched := if have_ = 0 then q.fetched ++ [(p, bs)]
              else q.fetched.map fun e => if e.1 = p then (p, e.2 ++ bs) else e }
        s.syncQueues fn)

/-! ### Packets (R304, R305) -/

/-- Bytes of an 8-byte field, or of a part of one. -/
def inField (off n j : Nat) : Bool := decide (off ≤ j) && decide (j < off + n)
/-- A packet event: of one type, with its fields' check (error 0x02), then its meaning. -/
def packetEvent (fn n : Nat) (waiting : Bool) (type : Nat) (ok : List Byte → Bool) (k : List Byte → Word → State → State)
    (s : State) : Host.Outcome State Fault Refusal :=
  finish ((s.withPacket fn n waiting (fun x => x = type) fun bs s =>
    if ok bs then k bs (s.queue fn n).pos s else s.packetError fn n 2).syncQueues fn)

/-- A LAUNCH, LAUNCH_IND or RELAUNCH packet. -/
def State.packetLaunch (s : State) (fn n : Nat) (a : Ask) (bs : List Byte) (pos : Word) : State :=
  let q := s.queue fn n
  match s.beginLaunch a q.held { sig := pktSig bs, tag := pktTag bs, queue := some (n, pos) } with
  | (.started lid, s) =>
    (s.updQueue fn n fun q => { q with inflight := q.inflight ++ [(pos, .launch lid)] }).movePos fn n (pos + 1)
  | (.busy, s) => s
  | (.refused .descriptor, s) => s.packetError fn n 3
  | (.refused (.stop e), s) => s.queueStop fn n 0 e
  | (.held p e, s) => (s.updQueue fn n fun q => { q with held := some p }).queueStop fn n 0 e

def execLaunchPacket (fn n : Nat) (s : State) : Host.Outcome State Fault Refusal :=
  packetEvent fn n false 1 (fun bs => pktOk bs (inField 0x10 8) && pkt bs 0x10 8 % 256 = 0)
    (fun bs pos s => s.packetLaunch fn n { fn := fn, desc := addr (pkt bs 0x10 8) } bs pos) s
def execLaunchInd (fn n : Nat) (s : State) : Host.Outcome State Fault Refusal :=
  packetEvent fn n false 2
    (fun bs => pktOk bs (inField 0x10 16) && pkt bs 0x10 8 % 256 = 0 && pkt bs 0x18 8 % 4 = 0)
    (fun bs pos s =>
      s.packetLaunch fn n { fn := fn, desc := addr (pkt bs 0x10 8), gridAt := some (addr (pkt bs 0x18 8)) } bs pos) s
def execRelaunchPacket (fn n : Nat) (s : State) : Host.Outcome State Fault Refusal :=
  packetEvent fn n false 3
    (fun bs => pktOk bs (inField 0x10 16) && pkt bs 0x10 8 % 256 = 0 && pkt bs 0x18 8 % 256 = 0)
    (fun bs pos s =>
      s.packetLaunch fn n { fn := fn, desc := addr (pkt bs 0x10 8), traceAt := some (addr (pkt bs 0x18 8)) } bs pos) s

/-- Does a packet act on 8 bytes (W64)? -/
def pktWide (bs : List Byte) : Bool := pkt bs 0x28 4 / 8 % 2 = 1
def pktBytes (bs : List Byte) : Nat := if pktWide bs then 8 else 4
/-- The masked compare of WAIT and COND on a word. -/
def pktCompare (bs : List Byte) (x : Nat) : Bool :=
  let m := 2 ^ (8 * pktBytes bs)
  let a := x &&& (pkt bs 0x20 8 % m)
  let b := (pkt bs 0x18 8 % m) &&& (pkt bs 0x20 8 % m)
  match pkt bs 0x28 4 % 8 with
  | 0 => a = b
  | 1 => a ≠ b
  | 2 => decide (a < b)
  | _ => decide (b ≤ a)
/-- The fields of WAIT: ADDR aligned to its width, CMP 0..3, no other bit. -/
def waitOk (bs : List Byte) : Bool :=
  pktOk bs (inField 0x10 28) && pkt bs 0x10 8 % pktBytes bs = 0 && decide (pkt bs 0x28 4 % 8 < 4) &&
    decide (pkt bs 0x28 4 < 32)

/-- WAIT_PACKET: the packet starts to wait. -/
def execWaitPacket (fn n : Nat) (s : State) : Host.Outcome State Fault Refusal :=
  packetEvent fn n false 4 waitOk
    (fun bs _ s => s.setQueue fn n fun q => { q with waits := some (pkt bs 0x28 4 / 16 % 2 = 1), state := 2 }) s
/-- WAIT_PACKET_SATISFIED: the compare holds, and the packet completes. -/
def execWaitPacketSatisfied (fn n : Nat) (s : State) : Host.Outcome State Fault Refusal :=
  packetEvent fn n true 4 (fun _ => true)
    (fun bs pos s =>
      match s.cpNum fn (addr (pkt bs 0x10 8)) (pktBytes bs) with
      | .error e => s.queueStop fn n 0 e
      | .ok x => if pktCompare bs x then s.atOnce fn n bs (pos + 1) .ok else s) s

/-- What a SIGNAL writes over a word: store, add, or. -/
def signalValue (bs : List Byte) (x : Nat) : Nat :=
  let v := pkt bs 0x18 8 % 2 ^ (8 * pktBytes bs)
  match pkt bs 0x28 4 % 4 with
  | 0 => v
  | 1 => x + v
  | _ => x ||| v
def signalOk (bs : List Byte) : Bool :=
  pktOk bs (fun j => inField 0x10 16 j || inField 0x28 1 j) && pkt bs 0x10 8 % pktBytes bs = 0 &&
    decide (pkt bs 0x28 4 % 4 < 3) && pkt bs 0x28 4 / 4 % 2 = 0 && decide (pkt bs 0x28 4 < 16)
def execSignal (fn n : Nat) (s : State) : Host.Outcome State Fault Refusal :=
  packetEvent fn n false 5 signalOk
    (fun bs pos s => s.atOnce fn n bs (pos + 1) fun s =>
      let a := addr (pkt bs 0x10 8)
      match s.cpNum fn a (pktBytes bs) with
      | .error e => .error e
      | .ok x => s.cpWrite fn a (leBytes (pktBytes bs) (signalValue bs x))) s

/-- LOOP (R305): the counter of its position, with its checks. -/
def State.loopPacket (s : State) (fn n : Nat) (bs : List Byte) (pos : Word) : State :=
  let q := s.queue fn n
  let count := pkt bs 0x10 4
  let back : Word := BitVec.ofNat 32 (pkt bs 0x14 4)
  let live := q.loops.find? fun l => l.1 = pos
  let c : Word := (live.map (·.2.1)).getD (BitVec.ofNat 32 (count - 1))
  let rest := q.loops.filter fun l => l.1 ≠ pos
  if (pos - q.rdidx).toNat < back.toNat then s.packetError fn n 5
  else if c ≠ 0 && live.isNone && decide (4 ≤ q.loops.length) then s.packetError fn n 4
  else
    let loops := if c = 0 then rest else rest ++ [(pos, c - 1, back)]
    let next := if c = 0 then pos + 1 else pos - back
    match pktSig bs with
    | none => (s.updQueue fn n fun q => { q with loops := loops }).movePos fn n next
    | some _ => s.atOnce fn n bs next fun s => .ok (s.updQueue fn n fun q => { q with loops := loops })
def execLoop (fn n : Nat) (s : State) : Host.Outcome State Fault Refusal :=
  packetEvent fn n false 6
    (fun bs => pktOk bs (inField 0x10 8) && decide (1 ≤ pkt bs 0x10 4) && decide (1 ≤ pkt bs 0x14 4) &&
      decide (pkt bs 0x14 4 ≤ 1024))
    (fun bs pos s => s.loopPacket fn n bs pos) s

def condOk (bs : List Byte) : Bool :=
  pktOk bs (inField 0x10 32) && pkt bs 0x10 8 % pktBytes bs = 0 && decide (pkt bs 0x28 4 % 8 < 4) &&
    decide (pkt bs 0x28 4 < 16) && decide (pkt bs 0x2C 4 ≤ 1024)
def execCond (fn n : Nat) (s : State) : Host.Outcome State Fault Refusal :=
  packetEvent fn n false 7 condOk
    (fun bs pos s =>
      match s.cpNum fn (addr (pkt bs 0x10 8)) (pktBytes bs) with
      | .error e => s.queueStop fn n 0 e
      | .ok x =>
        let skip := if pktCompare bs x then pkt bs 0x2C 4 else 0
        s.atOnce fn n bs (pos + 1 + BitVec.ofNat 32 skip) .ok) s

def execJump (fn n : Nat) (s : State) : Host.Outcome State Fault Refusal :=
  packetEvent fn n false 8
    (fun bs => pktOk bs (inField 0x10 4) && decide (1 ≤ pkt bs 0x10 4) && decide (pkt bs 0x10 4 ≤ 2 ^ 31))
    (fun bs pos s => s.atOnce fn n bs (pos + BitVec.ofNat 32 (pkt bs 0x10 4)) .ok) s
/-- FETCH_FENCE: every packet fetched after it is discarded. -/
def execFetchFence (fn n : Nat) (s : State) : Host.Outcome State Fault Refusal :=
  packetEvent fn n false 9 (fun bs => pktOk bs fun _ => false)
    (fun bs pos s => s.atOnce fn n bs (pos + 1) fun s =>
      .ok (s.updQueue fn n fun q => { q with fetched := q.fetched.filter fun e => e.1 = pos })) s

/-- COPY: a request to the copy engine of the queue's die. -/
def execCopy (fn n : Nat) (s : State) : Host.Outcome State Fault Refusal :=
  packetEvent fn n false 10 (fun bs => pktOk bs (inField 0x10 24) && decide (pkt bs 0x20 8 ≤ 2 ^ 40))
    (fun bs pos s =>
      let (id, s) := s.newId
      let bytes := pkt bs 0x20 8
      let q : Copy :=
        { id := id, core := 64 * queueDie fn n, blk := 0, thr := 0, pc := 0, recAddr := 0, fn := fn, packet := some (n, pos),
          src := addr (pkt bs 0x10 8), dst := addr (pkt bs 0x18 8), rows := 1, rowBytes := bytes, bytes := bytes,
          sstride := 0, dstride := 0, aoff := 0xFFFFFFFF, srcSp := false, dstSp := false, rxNote := false, rxSlot := 0,
          todo := if bytes = 0 then [] else [(0, bytes)] }
      let s := { s with copies := s.copies ++ [q] }
      (s.updQueue fn n fun q => { q with inflight := q.inflight ++ [(pos, .copy id (pktSig bs) (pktTag bs))] }).movePos
        fn n (pos + 1)) s

/-- A COPY packet is over: its request and its place among the started packets are gone. -/
def State.dropCopyPacket (s : State) (fn n id : Nat) : State :=
  let s := { s with copies := s.copies.filter fun q => q.id ≠ id }
  s.updQueue fn n fun q => { q with inflight := q.inflight.filter fun e => match e.2 with
    | .copy j _ _ => j ≠ id
    | .launch _ => true }
/-- The completion record that a COPY packet asks for, with its tag. -/
def State.copySig (s : State) (fn n id : Nat) : Option DWord × Word :=
  ((s.queue fn n).inflight.findSome? fun e => match e.2 with
    | .copy j sig tag => if j = id then some (sig, tag) else none
    | .launch _ => none).getD (none, 0)
/-- A COPY packet fails: its queue stops with 0x06, and its completion record tells (R304, R309). -/
def State.failCopyPacket (s : State) (fn n id : Nat) (pos : Word) : State :=
  let (sig, tag) := s.copySig fn n id
  let s := s.dropCopyPacket fn n id
  if (s.queue fn n).state = 4 || (s.queue fn n).state = 0 then s.post3 fn sig tag else s.queueError fn n 6 pos sig tag

/-- Have all bytes of a copy landed, at the receiver for a fabric copy? -/
def Copy.landed (q : Copy) : Bool := q.todo = [] && (!inFabric q.dst || decide (q.bytes ≤ q.acked))
/-- COPY_PACKET_COMPLETE (R306): the record after the bytes. -/
def execCopyPacketComplete (id : Nat) (s : State) : Host.Outcome State Fault Refusal :=
  match s.copies.find? fun q => q.id = id with
  | none => finish s
  | some q =>
    match q.packet with
    | none => finish s
    | some (n, pos) =>
      if !q.landed || q.fault.isSome then finish s
      else
        let (sig, tag) := s.copySig q.fn n id
        match sig with
        | none => finish (s.dropCopyPacket q.fn n id)
        | some a =>
          match s.cpWrite q.fn a (recordBytes 1 tag none) with
          | .ok s => finish (s.dropCopyPacket q.fn n id)
          | .error (.fault va c g) =>
            let (r, s) := s.cpRecord q.fn 0 va c g (.copy id)
            finish { s with copies := s.copies.map fun x => if x.id = id then { x with fault := some r } else x }
          | .error .bad => finish (s.failCopyPacket q.fn n id pos)
          | .error .stall => finish s
          | .error .hole => finish { s with hole := true }

/-- UNDEFINED_TYPE_PACKET: TYPE 0x00 or 0x0B..0xFF stops the queue with 0x01. -/
def execUndefinedTypePacket (fn n : Nat) (s : State) : Host.Outcome State Fault Refusal :=
  finish ((s.withPacket fn n false (fun x => x = 0 || decide (0xB ≤ x)) fun _ s => s.packetError fn n 1).syncQueues fn)

end Sys2Proof.Machine
end

