-- ==== Sys2Proof/Machine/Async.lean ====
section
/-! DEFINITION. The engines: copies, content copy-out, drains, landings, and the fabric (spec/11 R219..R232; spec/12 R240,
R243; spec/08 R185; spec/27 R436..R438). -/
namespace Sys2Proof.Machine

/-! ### Translation by an engine (R220; spec/21 R373) -/

/-- The translation of an engine of a core: its caches, else a walk. -/
def State.engineWalk (s : State) (core fn va : Nat) (kind : AccKind) : Walk × State :=
  let look := ((s.core core).tlb ++ (s.region (regionOf core)).tlb ++ (s.die (dieOf core)).tlb).find? fun x =>
    x.holds fn va && x.permits kind
  match look with
  | some x => (.ok x, s)
  | none =>
    match s.walkFor fn va kind with
    | .ok x => (.ok x, s.cache core none x)
    | w => (w, s)
/-- One byte's place of a virtual address that an engine accesses. -/
def State.engineByte (s : State) (core fn : Nat) (va : DWord) (kind : AccKind) : Access × State :=
  if !deviceSpace va then (.exc cPERM .free, s)
  else
    match s.engineWalk core fn va.toNat kind with
    | (.ok x, s) => (.place (.mem (x.addr va.toNat) x.decaf), s)
    | (.fault c g, s) => (.page va c g, s)
    | (.transit, s) => (.stall, s)
    | (.hole, s) => (.stall, { s with hole := true })

/-- The places of `n` consecutive bytes, each looked up alone; the first that fails decides. -/
def State.enginePlaces (s : State) (look : State → DWord → Access × State) : Nat → DWord → Except Access (List Place) × State
  | 0, _ => (.ok [], s)
  | n + 1, va =>
    match look s va with
    | (.place p, s) =>
      match s.enginePlaces look n (va + 1) with
      | (.ok l, s) => (.ok (p :: l), s)
      | r => r
    | (a, s) => (.error a, s)

/-! ### Copies (R219, R220) -/

/-- Addresses of byte `o` of a copy: source and destination. -/
def Copy.srcAt (q : Copy) (o : Nat) : DWord :=
  q.src + BitVec.ofNat 64 (o / max q.rowBytes 1) * q.sstride.signExtend 64 + BitVec.ofNat 64 (o % max q.rowBytes 1)
def Copy.dstAt (q : Copy) (o : Nat) : DWord :=
  q.dst + BitVec.ofNat 64 (o / max q.rowBytes 1) * q.dstride.signExtend 64 + BitVec.ofNat 64 (o % max q.rowBytes 1)
/-- Bytes from `o` on that lie in one row and have not been copied. -/
def Copy.runAt (q : Copy) (o : Nat) : Nat :=
  match q.todo.find? fun r => decide (r.1 ≤ o) && decide (o < r.2) with
  | none => 0
  | some r => min (q.rowBytes - o % max q.rowBytes 1) (r.2 - o)
/-- The first byte of the unit that is copied with byte `o`: an aligned 8-byte unit of the destination is written whole (R219). -/
def Copy.unitAt (q : Copy) (o : Nat) : Nat :=
  match q.todo.find? fun r => decide (r.1 ≤ o) && decide (o < r.2) with
  | none => o
  | some r => o - min (o - r.1) (min (o % max q.rowBytes 1) ((q.dstAt o).toNat % 8))
/-- Bytes of a frame or a landing from `o` on, at most `n` aligned to 8 at their end. -/
def Copy.cutAt (q : Copy) (o n : Nat) : Nat := min (q.runAt o) (n - (q.dstAt o).toNat % 8)
/-- Bytes `o .. o + n - 1` are done. -/
def Copy.take (q : Copy) (o n : Nat) : Copy :=
  { q with todo := q.todo.flatMap fun r =>
      if r.1 ≤ o ∧ o < r.2 then [(r.1, o), (o + n, r.2)].filter fun x => x.1 < x.2 else [r] }
def State.updCopy (s : State) (id : Nat) (f : Copy → Copy) : State :=
  { s with copies := s.copies.map fun q => if q.id = id then f q else q }

/-- Where a byte of a copy lies on a side. -/
def State.copySide (s : State) (q : Copy) (sp : Bool) (kind : AccKind) (va : DWord) : Access × State :=
  if sp then (s.scratchAccess q.blk (va.setWidth 32) 1 1, s) else s.engineByte q.core q.fn va kind

/-- An engine's exception is reported to the issuing thread (R220). -/
def State.report (s : State) (b t : Nat) (code : Word) (aux pc : DWord) : State :=
  if (s.thr b t).live then
    s.updThr b t fun th => { th with asyncs := th.asyncs ++ [{ code := code, aux := aux, pc := pc, async := true }] }
  else s
/-- A copy stops at a byte offset: its thread is told, with the cancellation of its object to follow, or its queue stops. -/
def State.stopCopy (s : State) (q : Copy) (code : Word) (off : Nat) : State :=
  match q.packet with
  | some (n, pos) => s.failCopyPacket q.fn n q.id pos
  | none =>
    let s := if (s.thr q.blk q.thr).live then s.updCopy q.id fun x => { x with stopped := true, todo := [], fault := none }
      else { s with copies := s.copies.filter fun x => x.id ≠ q.id }
    s.report q.blk q.thr code (BitVec.ofNat 64 (off % 2 ^ 28 * 2 ^ 32 + q.recAddr.toNat)) q.pc
/-- An access of a copy is not made: a fault record and a wait for its verdict, or a stop. -/
def State.copyStop (s : State) (q : Copy) (off : Nat) (a : Access) : State :=
  match a with
  | .page va c g =>
    let k := s.blk q.blk
    let (r, s) := match q.packet with
      | some _ => s.newRecord q.fn va 0 0xFFFFFFFF 0xFFFF c g .copy (.copy q.id)
      | none => s.newRecord q.fn va k.lid (BitVec.ofNat 32 k.q) q.thr c g .copy (.copy q.id)
    s.updCopy q.id fun x => { x with fault := some r, off := off }
  | .exc code _ => s.stopCopy q code off
  | _ => s

/-- Reads one byte for an engine on behalf of a thread, or of a queue. -/
def State.engineRead (s : State) (q : Copy) (p : Place) : Byte × State :=
  match q.packet, p with
  | some _, .mem pa _ => (s.byte pa, s.touch pa 1)
  | _, p =>
    let (bs, s) := s.readPlace q.blk q.thr .engine p 1
    (bs.headD 0, s)
/-- Reads the bytes at places, one after the other. -/
def State.engineReads (s : State) (q : Copy) (ps : List Place) : List Byte × State :=
  ps.foldl
    (fun (x : List Byte × State) p =>
      let (v, s) := x.2.engineRead q p
      (x.1 ++ [v], s)) ([], s)
/-- Writes the bytes at places. -/
def State.engineWrites (s : State) (q : Copy) (ps : List Place) (bs : List Byte) : State :=
  (ps.zip bs).foldl
    (fun s x => match q.packet, x.1 with
      | some _, .mem pa _ => s.writeHome pa [x.2]
      | _, p => s.writePlace q.blk .engine p [x.2]) s
/-- A traced block notes the source bytes of its copies (spec/17 R333). -/
def State.noteCopy (s : State) (q : Copy) (va : DWord) (n : Nat) : State :=
  if q.packet.isSome || q.srcSp then s else s.note q.blk q.thr va n
/-- Bytes have landed: the object that the copy names is credited, and a copy whose bytes have all landed is over. -/
def State.landed (s : State) (id n : Nat) : State :=
  match s.copies.find? fun q => q.id = id with
  | none => s
  | some q =>
    let s := s.onObject q.blk q.aoff fun a => a.credit n
    if q.packet.isNone && q.landed && !q.rxNote then { s with copies := s.copies.filter fun x => x.id ≠ id } else s

/-! ### Links of the fabric (spec/27 R437) -/

def State.link (s : State) (port peer : Nat) : Link :=
  (s.links.find? fun l => l.port = port && l.peer = peer).getD { port := port, peer := peer }
def State.setLink (s : State) (l : Link) : State :=
  { s with links := (s.links.filter fun x => !(x.port = l.port && x.peer = l.peer)) ++ [l] }
/-- Kinds of frames. -/
def kData : Nat := 1
def kAck : Nat := 2
def kNak : Nat := 3
def kCredit : Nat := 4
def kRxnote : Nat := 5
def State.send (s : State) (kind : Nat) (f : Frame) : State := { s with sent := s.sent ++ [(kind, f)] }
/-- The kind of a frame that awaits an ACK: DATA carries bytes. -/
def frameKind (f : Frame) : Nat := if f.payload = [] then kRxnote else kData
/-- Sends a numbered frame on a port, after some tries elsewhere. -/
def State.sendNumbered (s : State) (port peer : Nat) (f : Frame) (tries : Nat := 0) : State :=
  let l := s.link port peer
  let f := { f with port := port, seq := l.nextSeq.toNat, dmod := peer, smod := s.moduleNo }
  (s.setLink { l with nextSeq := l.nextSeq + 1, unacked := l.unacked ++ [(f, tries)] }).send (frameKind f) f
/-- Ports with a route to a module. -/
def State.portsTo (s : State) (m : Nat) : List Nat := (s.routes.filter fun r => r.2 = m).map (·.1)
/-- Has a port a free buffer of a module? -/
def Link.room (l : Link) : Bool := decide ((l.unacked.filter fun e => (frameKind e.1) = kData).length < l.credits)

/-- Fields of a fabric address (R230). -/
def fabMod (a : DWord) : Nat := bits64 a 55 42
def fabFn (a : DWord) : Nat := bits64 a 41 35
def fabOff (a : DWord) : Nat := bits64 a 34 0
def blankFrame : Frame :=
  { port := 0, ver := 1, seq := 0, smod := 0, dmod := 0, svfn := 0, dvfn := 0, arg := 0, xid := 0, rxslot := 0, rxnote := false,
    last := false, payload := [], good := true }

/-- The RXNOTE frame of a copy (R232). -/
def Copy.note (q : Copy) : Frame :=
  { blankFrame with svfn := q.fn, dvfn := fabFn q.dst, arg := addr q.bytes, xid := q.id % 2 ^ 32, rxslot := q.rxSlot, rxnote := true }
/-- A copy of no bytes sends its RXNOTE, once. -/
def State.sendNote (s : State) (q : Copy) : State :=
  let ports := s.portsTo (fabMod q.dst)
  if s.links.any fun l => l.unacked.any fun e => e.1.xid = q.id % 2 ^ 32 then s
  else if ports = [] then s.stopCopy q cPEERLOST 0
  else
    let (c, s) := s.freeNat
    s.sendNumbered ((ports[c % ports.length]?).getD 0) (fabMod q.dst) q.note

/-- A DATA frame of a fabric copy from byte `o` on. -/
def State.sendData (s : State) (q : Copy) (o : Nat) : State :=
  let dst := q.dstAt o
  let ports := s.portsTo (fabMod dst)
  if ports = [] then s.stopCopy q cPEERLOST q.acked
  else
    let open_ := ports.filter fun p => (s.link p (fabMod dst)).room
    if open_ = [] then s
    else
      let n := q.cutAt o 4096
      match s.enginePlaces (fun s va => s.copySide q q.srcSp .read va) n (q.srcAt o) with
      | (.error a, s) => s.copyStop q o a
      | (.ok ps, s) =>
        let s := s.noteCopy q (q.srcAt o) n
        let (bs, s) := s.engineReads q ps
        let (c, s) := s.freeNat
        let q' := q.take o n
        let f : Frame :=
          { blankFrame with svfn := q.fn, dvfn := fabFn dst, arg := addr (fabOff dst), xid := q.id % 2 ^ 32,
                             rxslot := q.rxSlot, rxnote := q.rxNote, last := q'.todo = [], payload := bs }
        (s.updCopy q.id fun _ => q').sendNumbered ((open_[c % open_.length]?).getD 0) (fabMod dst) f

/-- COPY_LANDING: the bytes of a row that lie in one aligned 8-byte unit of the destination with byte `o` are read and land. -/
def execCopyLanding (id at_ : Nat) (s : State) : Host.Outcome State Fault Refusal :=
  match s.copies.find? fun q => q.id = id with
  | none => finish s
  | some q =>
    let o := q.unitAt at_
    if q.bytes = 0 && q.rxNote && !q.stopped && (s.blk q.blk).status = .running then finish (s.sendNote q)
    else if q.fault.isSome || q.stopped || q.runAt o = 0 || (q.packet.isNone && (s.blk q.blk).status ≠ .running) then finish s
    else if inFabric (q.dstAt o) && !q.dstSp then finish (s.sendData q o)
    else
      let n := q.cutAt o 8
      match s.enginePlaces (fun s va => s.copySide q q.srcSp .read va) n (q.srcAt o) with
      | (.error a, s) => finish (s.copyStop q o a)
      | (.ok src, s) =>
        match s.enginePlaces (fun s va => s.copySide q q.dstSp .write va) n (q.dstAt o) with
        | (.error a, s) => finish (s.copyStop q o a)
        | (.ok dst, s) =>
          let s := s.noteCopy q (q.srcAt o) n
          let (bs, s) := s.engineReads q src
          finish (((s.engineWrites q dst bs).updCopy id fun x => x.take o n).landed id n)

/-- ASYNC_EXCEPTION_RAISE: the oldest exception that an engine has reported to a thread (R220). -/
def execAsyncExceptionRaise (b thr : Nat) (s : State) : Host.Outcome State Fault Refusal :=
  match (s.thr b thr).asyncs with
  | [] => finish s
  | e :: rest =>
    if (s.thr b thr).raised.isSome || (s.blk b).status ≠ .running then finish s
    else finish ((s.updThr b thr fun th => { th with asyncs := rest }).raiseExc b thr e)

/-! ### Completion registers (R226, R227) -/

/-- A register that a CPLD writes takes a value. -/
def Block.putLanding (k : Block) (l : Landing) (x : Word) : Block :=
  k.putDst (warpOf l.thr) 1 l.dst [(l.thr, x.setWidth 128)] .g
/-- The landing of the register at an index of the list. -/
def Block.setLanding (k : Block) (i : Nat) (l : Landing) : Block := { k with landings := k.landings.set i l }

/-- CPLD_LANDING: one byte lands; the register is written with its last byte. One that has been written meanwhile is undefined
until its completion register reads 0. -/
def execCpldLanding (b i : Nat) (s : State) : Host.Outcome State Fault Refusal :=
  match (s.blk b).landings[i]? with
  | none => finish s
  | some l =>
    if l.bytes = 0 then finish s
    else
      let r := 48 + l.cq
      let wp := warpOf l.thr
      let s := s.updBlk b fun k => k.setSreg wp r (k.sreg wp r - 1)
      if l.bytes ≠ 1 then finish (s.updBlk b fun k => k.setLanding i { l with bytes := l.bytes - 1 })
      else
        let (x, s) := if l.spoiled then s.freeWord else (l.val, s)
        finish (s.updBlk b fun k => (k.putLanding l x).setLanding i { l with bytes := 0, seen := x })

/-- What the end of a step makes of a register that a CPLD writes: written by something else, it is undefined; once its bytes
have landed and the completion register reads 0, it holds its new value for good (R227). -/
def State.noticeLanding (s : State) (b i : Nat) : State :=
  match (s.blk b).landings[i]? with
  | none => s
  | some l =>
    let k := s.blk b
    let wp := warpOf l.thr
    if l.bytes = 0 && k.sreg wp (48 + l.cq) = 0 then
      if k.dstWord wp l.thr l.dst = l.val then s else s.updBlk b fun k => k.putLanding l l.val
    else if k.dstWord wp l.thr l.dst = l.seen then s
    else
      let (x, s) := s.freeWord
      s.updBlk b fun k => (k.putLanding l x).setLanding i { l with seen := x, spoiled := true }
/-- The same for every such register of a block. -/
def State.noticeLandings (s : State) (b : Nat) : State :=
  if (s.blk b).landings = [] then s
  else
    let s := (List.range (s.blk b).landings.length).foldl (fun s i => s.noticeLanding b i) s
    s.updBlk b fun k =>
      { k with landings := k.landings.filter fun l => !(l.bytes = 0 && k.sreg (warpOf l.thr) (48 + l.cq) = 0) }

/-! ### Drains (spec/08 R185; spec/06 R117, R118) -/

/-- Bytes of an element of an add-on-store. -/
def addBytes : DrainTy → Nat
  | .f16 | .bf16 => 2
  | .x64 => 8
  | _ => 4
/-- One update of a drain at a place (spec/06 R118): a scratchpad element, or an element of memory. -/
def State.drainMerge (s : State) (d : Drain) (p : Place) (n : Nat) (m : Merge) : Flags × State :=
  match p with
  | .mem pa decaf => s.merge d.blk decaf pa n m
  | .scratch b off =>
    let r := m.apply ((s.blk b).scratch.getList 0 off n)
    (r.2, s.updBlk b fun k => { k with scratch := k.scratch.setList 0 off r.1 })
/-- The whole update of an add-on-store; answers its flags. -/
def State.addDrain (s : State) (d : Drain) (td : DrainTy) (rm : Rm) : Flags × State :=
  d.values.foldl
    (fun (x : Flags × State) e =>
      let r := x.2.drainMerge d e.1 (addBytes td) (.add td rm e.2.toNat)
      (x.1 ||| r.1, r.2)) (0, s)
/-- The address `j` bytes on in a place. -/
def Place.plus : Place → Nat → Place
  | .mem pa decaf, j => .mem (pa + j) decaf
  | .scratch b off, j => .scratch b (off + j)
/-- Writes of a drain: its bytes, each with the mask of the bits that it writes. -/
def State.drainWrite (s : State) (d : Drain) (p : Place) (bs mask : List Byte) : State :=
  if mask.all (· = 0xFF) then s.writePlace d.blk .engine p bs
  else
    ((bs.zip mask).zipIdx).foldl
      (fun s x => (s.drainMerge d (p.plus x.2) 1 (.bits x.1.2 x.1.1)).2) s
def State.creditDrain (s : State) (d : Drain) (n : Nat) : State :=
  match d.credit with
  | some off => s.updArrival d.blk off fun a => a.credit n
  | none => s
/-- The port has accepted every write: the block scales go with them, and the drain is pending no more. -/
def State.drainDone (s : State) (d : Drain) (fl : Flags) : State :=
  let s := { s with drains := s.drains.filter fun x => x.id ≠ d.id }
  let s := d.side.foldl (fun s x => s.putScale d.blk x.1 x.2.1 x.2.2) s
  let one := fun (p : Pending) => if p.drain = some d.id then { p with ready := true, flags := p.flags ||| fl } else p
  s.updBlk d.blk fun k => { k with pend := k.pend.map one }

/-- DRAIN_WRITE_ACCEPT: the port accepts an add-on-store whole, else the next write. -/
def execDrainWriteAccept (id : Nat) (s : State) : Host.Outcome State Fault Refusal :=
  match s.drains.find? fun d => d.id = id with
  | none => finish s
  | some d =>
    match d.add with
    | some (td, rm) =>
      let (fl, s) := s.addDrain d td rm
      finish ((s.creditDrain d (d.values.length * addBytes td)).drainDone d fl)
    | none =>
      match d.writes with
      | [] => finish (s.drainDone d 0)
      | (p, bs, mask) :: rest =>
        let s := (s.drainWrite d p bs mask).creditDrain d bs.length
        let d := { d with writes := rest }
        if rest = [] then finish (s.drainDone d 0)
        else finish { s with drains := s.drains.map fun x => if x.id = id then d else x }

/-! ### Content copy-out and reclaim (spec/12 R240, R243; spec/13 R273) -/

/-- A CAEXP is over: the references it held are released. -/
def State.dropExport (s : State) (x : Export) : State :=
  x.held.foldl (fun s y => s.releaseQuiet y) { s with exports := s.exports.filter fun e => e.id ≠ x.id }
/-- An access of a CAEXP is not made. -/
def State.exportStop (s : State) (x : Export) (a : Access) : State :=
  match a with
  | .page va c g =>
    let k := s.blk x.blk
    let (r, s) := s.newRecord x.fn va k.lid (BitVec.ofNat 32 k.q) x.thr c g .content (.copy x.id)
    { s with exports := s.exports.map fun e => if e.id = x.id then { e with fault := some r } else e }
  | .exc code _ =>
    let (low, s) := s.freeWord
    (s.dropExport x).report x.blk x.thr code ((BitVec.ofNat 32 (x.done % 2 ^ 28) : Word) ++ low) x.pc
  | _ => s
/-- CONTENT_LANDING: the bytes from `n` on, which is where the copy-out stands, up to the end of an aligned 8-byte unit. -/
def execContentLanding (id n : Nat) (s : State) : Host.Outcome State Fault Refusal :=
  match s.exports.find? fun x => x.id = id with
  | none => finish s
  | some x =>
    if x.fault.isSome || x.done ≠ n || (s.blk x.blk).status ≠ .running then finish s
    else
      let va := x.dst + BitVec.ofNat 64 n
      let m := min (x.bytes.length - n) (8 - va.toNat % 8)
      match s.enginePlaces (fun s va => s.engineByte (s.blk x.blk).core x.fn va .write) m va with
      | (.error a, s) => finish (s.exportStop x a)
      | (.ok ps, s) =>
        let bs := (x.bytes.drop n).take m
        let s := (ps.zip bs).foldl (fun s p => s.writePlace x.blk .engine p.1 [p.2]) s
        let s := s.onObject x.blk x.aoff fun a => a.credit m
        if x.bytes.length ≤ n + m then finish (s.dropExport x)
        else finish { s with exports := s.exports.map fun e => if e.id = id then { e with done := n + m } else e }

/-- RECLAIM: the home agent reclaims one reclaiming entry. -/
def execReclaim (e : Nat) (s : State) : Host.Outcome State Fault Refusal :=
  match s.content[e]? with
  | some x => finish (if x.state = .reclaiming then s.reclaimEntry x else s)
  | none => finish s

/-! ### The HOST path (R216, R224; spec/27 R437) -/

/-- Once every accepted write has reached its home, the acknowledgements that wait for them are sent: each names the lowest
number not written. -/
def State.sendAcks (s : State) : State :=
  if s.hostQ ≠ [] then s
  else
    s.links.foldl
      (fun s l =>
        if l.toAck then
          let low := ((List.range (l.seen.length + 1)).find? fun j => !l.seen.contains (BitVec.ofNat 32 j)).getD 0
          (s.setLink { l with toAck := false }).send kAck
            { blankFrame with port := l.port, seq := low, smod := s.moduleNo, dmod := l.peer }
        else s) s
/-- A write of the HOST path that the port has accepted, or that the host makes, reaches its home (R216). -/
def execHostWrite (pa : Nat) (bytes : List Byte) (s : State) : Host.Outcome State Fault Refusal :=
  finish ({ s with hostQ := s.hostQ.erase (pa, bytes) }.writeHome pa bytes).sendAcks
/-- HOST_PATH_FENCE: an AWAIT on an object that the HOST path feeds returns after every accepted write has reached its
home. -/
def execHostPathFence (b thr : Nat) (s : State) : Host.Outcome State Fault Refusal :=
  match (s.thr b thr).wait with
  | some (.await p off h _) =>
    let x := s.arrival p off
    if x.passed h && x.hostFed && (s.thr b thr).raised.isNone then
      let s := s.hostQ.foldl (fun s w => s.writeHome w.1 w.2) { s with hostQ := [] }
      finish (s.sendAcks.endWait b thr)
    else finish s
  | _ => finish s

/-! ### Receiving (R231, R232; spec/27 R437, R438) -/

/-- Is the frame for this module, of version 1 and whole? -/
def State.mine (s : State) (f : Frame) : Bool := f.ver = 1 && f.dmod = s.moduleNo && decide (f.payload.length ≤ 4096)
/-- A NAK of a frame. -/
def State.nak (s : State) (f : Frame) (reason : Nat) : State :=
  s.send kNak { blankFrame with port := f.port, seq := f.seq, smod := s.moduleNo, dmod := f.smod, xid := f.xid,
                                 arg := addr reason }
/-- A numbered frame has been taken. -/
def State.took (s : State) (f : Frame) : State :=
  let l := s.link f.port f.smod
  s.setLink { l with seen := l.seen ++ [BitVec.ofNat 32 f.seq], toAck := true }
/-- Has the frame been written already? It is acknowledged again. -/
def State.known (s : State) (f : Frame) : Bool := (s.link f.port f.smod).seen.contains (BitVec.ofNat 32 f.seq)
def State.againAck (s : State) (f : Frame) : State := (s.setLink { s.link f.port f.smod with toAck := true }).sendAcks
/-- Does a receiver take a DATA frame (R231, R438)? -/
def Fn.receives (r : Fn) (f : Frame) : Bool :=
  bitAt r.rxCtl 0 && decide (f.dvfn ≤ 64) && decide (bits64 f.arg 34 0 + f.payload.length ≤ bits64 r.rxSize 34 0) &&
    (!f.rxnote || decide (f.rxslot < bits64 r.rxCtr 11 0))

/-- DATA: checked, and its bytes accepted for the HOST path through the receiving function's translation. A frame whose
address faults is reported and left for its retransmission. -/
def execData (f : Frame) (s : State) : Host.Outcome State Fault Refusal :=
  if !s.mine f then finish s
  else if !f.good then finish (s.nak f 1)
  else if s.known f then finish (s.againAck f)
  else
    let r := s.fn f.dvfn
    if !r.receives f then finish (s.nak f 2)
    else
      let va := addr (bits64 r.rxCtl 63 16 * 65536 + bits64 f.arg 34 0)
      match s.cpPieces f.dvfn .write 3 va f.payload.length with
      | .error (.fault v c g) => finish (s.newRecord f.dvfn v 0 0xFFFFFFFF 0xFFFF c g .write .none).2
      | .error .bad => finish (s.nak f 2)
      | .error .stall => finish s
      | .error .hole => finish { s with hole := true }
      | .ok l =>
        let cut := l.foldl
          (fun (x : List (Nat × List Byte) × List Byte) p => (x.1 ++ [(p.1, x.2.take p.2)], x.2.drop p.2)) ([], f.payload)
        finish (({ s with hostQ := s.hostQ ++ cut.1 }.took f).sendAcks)

/-- RXNOTE: the receive counter of its slot takes the copy's bytes, and the frame is acknowledged. -/
def execRxnote (f : Frame) (s : State) : Host.Outcome State Fault Refusal :=
  if !s.mine f then finish s
  else if !f.good then finish (s.nak f 1)
  else if s.known f then finish (s.againAck f)
  else
    let r := s.fn f.dvfn
    if decide (64 < f.dvfn) || decide (bits64 r.rxCtr 11 0 ≤ f.rxslot) then finish (s.nak f 2)
    else
      let va := addr (bits64 r.rxCtr 63 12 * 4096 + 8 * f.rxslot)
      match s.cpPieces f.dvfn .write 2 va 8 with
      | .error (.fault v c g) => finish (s.newRecord f.dvfn v 0 0xFFFFFFFF 0xFFFF c g .write .none).2
      | .error .bad => finish (s.nak f 2)
      | .error .stall => finish s
      | .error .hole => finish { s with hole := true }
      | .ok l =>
        let s := s.hostQ.foldl (fun s w => s.writeHome w.1 w.2) { s with hostQ := [] }
        let old := leNat (l.flatMap fun p => s.readPA p.1 p.2)
        let s := s.putPieces l (leBytes 8 (old + f.arg.toNat))
        finish ((s.took f).sendAcks)

/-! ### Sending (R231; spec/27 R436, R437) -/

/-- The fabric copy of a transfer id. -/
def State.xfer (s : State) (xid : Nat) : Option Copy :=
  s.copies.find? fun q => q.id % 2 ^ 32 = xid && inFabric q.dst && !q.stopped
/-- One frame is acknowledged: the bytes of a DATA frame are credited, and after the last the RXNOTE is sent, whose own
acknowledgement ends the copy. -/
def State.ackOne (s : State) (port : Nat) (f : Frame) : State :=
  if (frameKind f) ≠ kData then
    match s.xfer f.xid with
    | some q => { s with copies := s.copies.filter fun x => x.id ≠ q.id }
    | none => s
  else
    match s.xfer f.xid with
    | none => s
    | some q =>
      let n := f.payload.length
      let s := s.updCopy q.id fun x => { x with acked := x.acked + n }
      let ended := q.todo = [] && decide (q.bytes ≤ q.acked + n)
      let s := if ended && q.rxNote then s.sendNumbered port f.dmod q.note else s
      s.landed q.id n
/-- ACK: every frame of the port and peer numbered below SEQ has been written. -/
def execAck (f : Frame) (s : State) : Host.Outcome State Fault Refusal :=
  if !s.mine f || !f.good then finish s
  else
    let l := s.link f.port f.smod
    let below := fun e : Frame × Nat =>
      let d := (f.seq + 2 ^ 32 - e.1.seq) % 2 ^ 32
      decide (1 ≤ d) && decide (d ≤ 2 ^ 31)
    let s := s.setLink { l with unacked := l.unacked.filter fun e => !below e }
    finish ((l.unacked.filter below).foldl (fun s e => s.ackOne f.port e.1) s)
/-- NAK_INTEGRITY: the frame that SEQ names is sent again. -/
def execNakIntegrity (f : Frame) (s : State) : Host.Outcome State Fault Refusal :=
  if !s.mine f || !f.good then finish s
  else
    match (s.link f.port f.smod).unacked.find? fun e => e.1.seq = f.seq with
    | none => finish s
    | some e => finish (s.send (frameKind e.1) e.1)
/-- Frames of a transfer wait for no ACK any more. -/
def State.dropFrames (s : State) (xid : Nat) : State :=
  { s with links := s.links.map fun l => { l with unacked := l.unacked.filter fun e => e.1.xid ≠ xid } }
/-- NAK_REFUSED: the whole copy is refused, and its thread throws PERM. -/
def execNakRefused (f : Frame) (s : State) : Host.Outcome State Fault Refusal :=
  if !s.mine f || !f.good then finish s
  else
    match s.xfer f.xid with
    | none => finish (s.dropFrames f.xid)
    | some q => finish ((s.dropFrames f.xid).stopCopy q cPERM q.acked)
/-- CREDIT: the peer grants buffers on a port. -/
def execCredit (f : Frame) (s : State) : Host.Outcome State Fault Refusal :=
  if !s.mine f || !f.good then finish s
  else
    let l := s.link f.port f.smod
    finish (s.setLink { l with credits := l.credits + bits64 f.arg 15 0 })

/-- The port after one in a list, round the end. -/
def portAfter (ports : List Nat) (p : Nat) : Option Nat := (ports.find? (p < ·)).or ports.head?
/-- FRAME_RETRANSMIT_TIMEOUT: a frame is sent again, at most 8 times; then on the next port with a route, until it has been tried
on every one; when every route has failed the copy throws PEERLOST. -/
def execFrameRetransmitTimeout (port dmod seq : Nat) (s : State) : Host.Outcome State Fault Refusal :=
  let l := s.link port dmod
  match l.unacked.find? fun e => e.1.seq = seq with
  | none => finish s
  | some (f, tries) =>
    if tries % 9 < 8 then
      let again := fun e : Frame × Nat => if e.1.seq = seq then (e.1, tries + 1) else e
      finish ((s.setLink { l with unacked := l.unacked.map again }).send (frameKind f) f)
    else
      let s := s.setLink { l with unacked := l.unacked.filter fun e => e.1.seq ≠ seq }
      let ports := (s.portsTo dmod).mergeSort fun p q => decide (p ≤ q)
      match (if tries / 9 + 1 < ports.length then portAfter ports port else none) with
      | some p => finish (s.sendNumbered p dmod f (tries + 1))
      | none =>
        match s.xfer f.xid with
        | some q => finish ((s.dropFrames f.xid).stopCopy q cPEERLOST q.acked)
        | none => finish s

end Sys2Proof.Machine
end

