-- ==== Sys2Proof/Machine/Blocks.lean ====
section
/-! DEFINITION. Completion of long-latency instructions, the warps' active set, and how a block is released, ends and leaves its
core (spec/03 R59; spec/07 R166; spec/15 R278..R283; spec/16 R306, R315, R317; spec/17 R334, R341; spec/18 R349; spec/19 R363..R365;
spec/23 R409). -/
namespace Sys2Proof.Machine

/-! ### Long-latency instructions (spec/03 R59) -/

/-- Registers that a completed instruction writes; a tile was filled as it was loaded. -/
def Block.writeResult (k : Block) (p : Pending) : Block :=
  match p.result with
  | .regs d w vals tag => k.putDst p.warp w d vals tag
  | .tile .. | .nothing => k
/-- A pending instruction completes: its registers and flags are written, and its window ends. -/
def State.completePend (s : State) (b : Nat) (p : Pending) : State :=
  ((s.updBlk b fun k => k.writeResult p).pendFlags b p).dropPend b p.id

/-- LONG_LATENCY_COMPLETE: the `n`-th pending instruction of a block, once its result is known. -/
def execLongLatencyComplete (b n : Nat) (s : State) : Host.Outcome State Fault Refusal :=
  match (s.blk b).pend[n]? with
  | none => finish s
  | some p => finish (if p.ready then s.completePend b p else s)

/-! ### The active set (spec/15 R278, R280..R282) -/

/-- Resident warps of a partition that have live threads, by block and warp. -/
def State.partWarps (s : State) (part : Nat) : List (Nat × Nat) :=
  s.blocks.flatMap fun e => match e.2 with
    | some k =>
      if k.core = part / 4 && k.status = .running then
        ((List.range k.nwarps).filter fun w => k.partOf w = part % 4 && k.liveOf w ≠ []).map fun w => (e.1, w)
      else []
    | none => []
def State.warp (s : State) (b w : Nat) : Warp := (s.blk b).warp w
def State.readyWarp (s : State) (b w : Nat) : Bool := ((s.blk b).liveOf w).any fun t => s.readyThread b t
/-- Does a thread wait on a load that missed the L1, with no instruction left that it may issue in a window? -/
def State.missing (s : State) (b t : Nat) : Bool :=
  !s.readyThread b t && (s.blk b).pend.any fun p => p.miss && p.thrs.any fun e => e.1 = t
/-- The states of a resident warp (R281); `idle` is that of a warp that waits for operands. -/
inductive WarpState where
  | active | ready | parked | waiting | stopped | idle
  deriving DecidableEq, Repr
def State.warpState (s : State) (b w : Nat) : WarpState :=
  let x := s.warp b w
  if x.stopped.isSome then .stopped
  else if s.warpWaits b w then .waiting
  else if ((s.blk b).liveOf w).all fun t => s.inWait b t || s.missing b t then .parked
  else if x.active then .active
  else if s.readyWarp b w then .ready
  else .idle

/-- The lowest live thread of a warp at an address. -/
def Block.lowAt (k : Block) (w : Nat) (pc : DWord) : Nat := ((k.liveOf w).find? fun t => (k.thr t).pc = pc).getD 1024
/-- The program counters of a warp's live threads, in the order of the lowest thread of each. -/
def Block.pcsOf (k : Block) (w : Nat) : List DWord := ((k.liveOf w).map fun t => (k.thr t).pc).eraseDups
/-- The live threads of a warp that hold equal program counters form one PC group (R278). -/
def Block.formGroups (k : Block) (w : Nat) : Block :=
  (k.liveOf w).foldl (fun k t => k.updThr t fun th => { th with grp := k.lowAt w th.pc }) k

/-- Regroup intervals in which the warp issued and a PC group did not (R280). -/
def Block.countPassed (k : Block) (w : Nat) : Block :=
  k.updWarp w fun x =>
    if x.interval = [] then x
    else
      let old := fun (pc : DWord) => ((x.passed.find? fun e => e.1 = pc).map (·.2)).getD 0
      { x with passed := (k.pcsOf w).map (fun pc => (pc, if x.interval.contains pc then 0 else old pc + 1)), interval := [] }

/-- Active slots of a partition. -/
def activeSlots : Nat := 8
/-- REGROUP: the warps of a partition form their PC groups anew; a warp that yielded rejoins behind the others of its class; a
warp that parks, waits or stops gives up its active slot, and free slots go to the warps that have been ready longest. -/
def State.regroup (s : State) (part : Nat) : State :=
  let ws := s.partWarps part
  let s := ws.foldl (fun s x => s.updBlk x.1 fun k => (k.countPassed x.2).formGroups x.2) s
  let s := ws.foldl
    (fun s x =>
      if (s.warp x.1 x.2).yielded then
        { s.updWarp x.1 x.2 fun w => { w with yielded := false, lastIssue := s.issued + 1 } with issued := s.issued + 1 }
      else s) s
  let off := ws.filter fun x => match s.warpState x.1 x.2 with
    | .parked | .waiting | .stopped => true
    | _ => false
  let ready := ws.filter fun x => s.readyWarp x.1 x.2
  let s := ws.foldl
    (fun s x => s.updWarp x.1 x.2 fun w =>
      { w with readySince := if ready.contains x then some (w.readySince.getD s.issued) else none,
               active := w.active && !off.contains x }) s
  let have_ := ws.filter fun x => (s.warp x.1 x.2).active
  let more := (ready.filter fun x => !(s.warp x.1 x.2).active && !off.contains x).mergeSort fun x y =>
    decide (((s.warp x.1 x.2).readySince.getD 0) ≤ ((s.warp y.1 y.2).readySince.getD 0))
  (more.take (activeSlots - have_.length)).foldl
    (fun s x =>
      { s.updWarp x.1 x.2 fun w => { w with active := true, activeSince := s.issued + 1 } with issued := s.issued + 1 }) s
def execRegroup (part : Nat) (s : State) : Host.Outcome State Fault Refusal := finish (s.regroup part)

/-- The PC groups of a warp that R280 makes due: each holds a ready thread and has been passed over in 16 intervals; they issue in
ascending order of their lowest thread. -/
def State.dueGroups (s : State) (b w : Nat) : List DWord :=
  let k := s.blk b
  let x := k.warp w
  let late := fun pc : DWord => x.forced.contains pc || (!x.interval.contains pc && x.passed.any fun e => e.1 = pc && decide (16 ≤ e.2))
  (k.pcsOf w).filter fun pc => late pc && (k.liveOf w).any fun t => (k.thr t).pc = pc && s.readyThread b t
/-- PC_GROUP_FORCE: a PC group that is due is to issue at the warp's next issue. -/
def execPcGroupForce (b w : Nat) (pc : DWord) (s : State) : Host.Outcome State Fault Refusal :=
  if (s.dueGroups b w).contains pc && !((s.blk b).warp w).forced.contains pc then
    finish (s.updWarp b w fun x =>
      { x with forced := (x.forced ++ [pc]).mergeSort fun p q => decide ((s.blk b).lowAt w p ≤ (s.blk b).lowAt w q) })
  else finish s

/-- WARP_PROMOTION: a ready warp is promoted, until it issues; one that is not active displaces the active warp of its partition
that has been active longest without promotion (R282). -/
def execWarpPromotion (b w : Nat) (s : State) : Host.Outcome State Fault Refusal :=
  let x := s.warp b w
  if !s.readyWarp b w || (x.promoted.isSome && x.active) then finish s
  else
    let k := s.blk b
    let ws := s.partWarps (4 * k.core + k.partOf w)
    let act := ws.filter fun y => (s.warp y.1 y.2).active
    let old := (act.filter fun y => (s.warp y.1 y.2).promoted.isNone).mergeSort fun y z =>
      decide ((s.warp y.1 y.2).activeSince ≤ (s.warp z.1 z.2).activeSince)
    let full := !x.active && decide (activeSlots ≤ act.length)
    let s := match old with
      | y :: _ => if full then s.updWarp y.1 y.2 fun v => { v with active := false } else s
      | [] => s
    let n := s.issued + 1
    finish { s.updWarp b w fun v =>
      { v with promoted := some (v.promoted.getD n), active := !(full && old = []),
               activeSince := if x.active then v.activeSince else n } with issued := n }

/-! ### A block leaves its core (spec/19 R364; spec/23 R409) -/

/-- The dispatcher's add to the occupancy word of a core's region, in firmware's address space. -/
def State.occNotice (s : State) (core : Nat) : State :=
  let a := (s.region (regionOf core)).occ.toNat
  if a = 0 then s else s.writeHome a (leBytes 4 ((s.num a 4 + 2 ^ (4 * (core % 8))) % 2 ^ 32))
/-- A block that leaves its core for good, or to be placed anew, gives up its group-table entries and its stash lines, whose stores
the L2 receives. -/
def State.giveUp (s : State) (b : Nat) : State :=
  let k := s.blk b
  if k.status = .saved then s else (s.freeGroups b).dropLines k.core (s.smapLines b)
/-- A dead block's allocation is freed once every other member of its cluster has exited or reached a catch. -/
def State.sweepDead (s : State) : State :=
  (s.blocks.map (·.1)).foldl
    (fun s b =>
      let k := s.blk b
      let free := (s.cluster b).all fun x => x = b || (s.blk x).status = .dead || (s.blk x).handled || (s.blk x).liveThreads = []
      if k.status = .dead && !k.notice && free then
        ((s.giveUp b).updBlk b fun k => { k with notice := true, scratch := [] }).occNotice k.core
      else s) s

/-! ### The end of a block (spec/07 R166; spec/16 R306; spec/17 R334, R341) -/

/-- Has everything that a block started completed or been dropped? -/
def State.quiet (s : State) (b : Nat) : Bool :=
  (s.blk b).pend = [] && (s.blk b).landings.all (fun l => l.bytes = 0) && !(s.copies.any fun q => q.packet.isNone && q.blk = b) &&
    !(s.drains.any fun d => d.blk = b) && !(s.exports.any fun x => x.blk = b) && !(s.reds.any fun r => r.blk = b) &&
    !(s.cctls.any fun f => f.blk = b) && !(s.sflushes.any fun f => f.blk = b) && !(s.oplog.any fun e => e.blk = b) &&
    !(s.dueErrors.any fun e => e.1 = b)

/-- The exception record that a launch takes for its trace (R341; spec/23 R400): PAGE, at launch level. -/
def State.tracePage (s : State) (k : Block) : Rec × State :=
  let (a, s) := s.auxOf .free
  ({ code := cPAGE, count := 1, lid := k.lid, blk := BitVec.ofNat 32 k.q, thr := 0xFFFF, level := 2, aux := a }, s)
/-- A block's record cannot be written: PAGE is raised at launch level, and the run's header keeps VALID = 0. -/
def State.failTrace (s : State) (b : Nat) : State :=
  let k := s.blk b
  if k.trace.isNone then s
  else
    let (r, s) := s.tracePage k
    let s := s.updBlk b fun k => { k with trace := none }
    (s.updLaunch k.fn k.lid fun l =>
      { l with traceFault := some (l.traceFault.getD r), injected := l.injected ++ [r] }).addStop k.fn k.lid none

/-- The address of a block's record in its run's buffer. -/
def State.recordAt (s : State) (k : Block) : Option DWord :=
  (s.launchOf k.fn k.lid).bind fun l => l.trace.map fun t => t.buf + BitVec.ofNat 64 (256 * (k.q + 1))
/-- Does the write of a block's record wait for a verdict? -/
def State.recordWaits (s : State) (b : Nat) : Bool := s.records.any fun r => r.waiter = .trace b
/-- A block writes its trace record. -/
def State.writeRecord (s : State) (b : Nat) : State :=
  let k := s.blk b
  match k.trace, s.recordAt k with
  | some tr, some a =>
    if s.recordWaits b then s
    else
      match s.cpWrite k.fn a (tr.bytes k.lid k.q (!tr.failed)) with
      | .ok s => s.updBlk b fun k => { k with trace := none }
      | .error (.fault va c g) => (s.newRecord k.fn va k.lid (BitVec.ofNat 32 k.q) 0xFFFF c g .write (.trace b)).2
      | .error .bad => s.failTrace b
      | .error .stall => s
      | .error .hole => { s with hole := true }
  | _, _ => s.updBlk b fun k => { k with trace := none }

/-- BLOCK_END: once every thread has exited and everything it started has completed, the block commits, writes its record,
gives up its mappings and leaves its core. A dead block only writes its record. -/
def execBlockEnd (b : Nat) (s : State) : Host.Outcome State Fault Refusal :=
  let k := s.blk b
  if k.status = .dead then finish (if k.trace.isSome then s.writeRecord b else s)
  else if !(k.status = .running || k.status = .saved) || k.agent || k.liveThreads ≠ [] || !s.quiet b then finish s
  else
    let s := s.commit b false
    let s := if k.trace.isSome then s.writeRecord b else s
    if (s.blk b).trace.isSome then finish s
    else
      let s := s.dropLines k.core (s.smapLines b)
      let s := s.occNotice k.core
      let s := s.updLaunch k.fn k.lid fun l => { l with ended := l.ended ++ [k.q] }
      finish (s.dropBlock b).sweepDead

/-! ### Releasing and evicting a cluster (spec/16 R315, R317, R323) -/

/-- Members of a cluster that wait for its release in a region. -/
def State.waitingOf (s : State) (region fn : Nat) (lid : Word) (ci : Nat) : List Nat :=
  (s.blocks.filter fun e => match e.2 with
    | some k => (k.status = .held || k.status = .resuming) && regionOf k.core = region && k.fn = fn && k.lid = lid &&
        k.ci = ci && !k.agent
    | none => false).map (·.1)
/-- Are these all members of the cluster that have not ended, on distinct cores? -/
def State.wholeCluster (s : State) (fn : Nat) (lid : Word) (ci : Nat) (bs : List Nat) : Bool :=
  let cores := bs.map fun b => (s.blk b).core
  match s.launchOf fn lid, bs with
  | some l, b :: _ =>
    let n := (s.blk b).clusterSize
    cores.eraseDups.length = cores.length &&
      (List.range n).all fun r =>
        l.ended.contains (ci * n + r) || bs.any (fun x => (s.blk x).rank = r) ||
          s.blocks.any fun e => match e.2 with
            | some k => k.status = .dead && k.fn = fn && k.lid = lid && k.ci = ci && k.rank = r
            | none => false
  | _, _ => false
/-- CLUSTER_RELEASE: the members run, all in one step. -/
def execClusterRelease (region fn lid ci : Nat) (s : State) : Host.Outcome State Fault Refusal :=
  let l : Word := BitVec.ofNat 32 lid
  let bs := s.waitingOf region fn l ci
  let r := s.region region
  if r.holder = some fn && !r.preempt && s.wholeCluster fn l ci bs then
    finish (s.releaseCluster region l ci bs)
  else finish s

/-- CLUSTER_HOLD_TIMEOUT: members that are still held are removed, members that were to resume are saved again. -/
def execClusterHoldTimeout (region fn lid ci : Nat) (s : State) : Host.Outcome State Fault Refusal :=
  finish ((s.waitingOf region fn (BitVec.ofNat 32 lid) ci).foldl
    (fun s b => if (s.blk b).status = .held then s.unhold b else s.leaveCore b) s)

/-- AGE_ID and AGE_CT: writes of the age register under R317. -/
def execAgeId (region : Nat) (v : DWord) (s : State) : Host.Outcome State Fault Refusal :=
  finish (if region < 32 then s.updRegion region fun r => r.write 0 v else s)
def execAgeCt (region : Nat) (v : DWord) (s : State) : Host.Outcome State Fault Refusal :=
  finish (if region < 32 then s.updRegion region fun r => r.write 8 v else s)

/-! ### Baristas and role grants (spec/19 R365; spec/18 R349) -/

/-- The block of a core's barista warp as it starts. -/
def baristaBlock (core : Nat) (entry : DWord) (start : List Word) : Block :=
  { fn := fwFn, core := core, parts := [3], status := .running, agent := true, nwarps := 1,
    roles := [{ entry := entry, warps := 1, regq := 1 }],
    threads := (List.range 32).foldl (fun m t => m.set {} t { live := true, pc := entry, mode := 2 }) [],
    warps := [(0, { regs := 8 })], sregs := Map.setList 0 [] 0 (start.take 16) }
def State.barista (s : State) (core : Nat) : Option Nat :=
  (s.blocks.find? fun e => match e.2 with
    | some k => k.agent && k.core = core
    | none => false).map (·.1)
/-- BARISTA_START: management firmware starts a core's barista warp, in place of the one that was there; none on a core or a
partition 3 that is out of service (spec/01 R17). -/
def execBaristaStart (core : Nat) (entry : DWord) (start : List Word) (s : State) : Host.Outcome State Fault Refusal :=
  let k := baristaBlock core entry start
  if 256 ≤ core || (s.core core).outOfService || (s.core core).partsOut.contains 3 then finish s
  else
    match s.barista core with
    | some b => finish (s.updBlk b fun _ => k)
    | none => finish (s.addBlock k).2

/-- ROLESW_GRANT: the warp that has waited longest on a partition takes its role, once what it needs is free. -/
def execRoleswGrant (part : Nat) (s : State) : Host.Outcome State Fault Refusal :=
  match s.roleWaiters (part / 4) (part % 4) with
  | [] => finish s
  | (b, w, r) :: _ => finish (if s.roleFree b w r then s.updBlk b fun k => k.takeRole w r else s)

end Sys2Proof.Machine
end

