-- ==== Sys2Proof/Machine/Save.lean ====
section
/-! DEFINITION. The image of a block in its context's save area (spec/16 R322; spec/15 R291). -/
namespace Sys2Proof.Machine

/-! ### Registers (spec/15 R291) -/

def Tag.code : Tag → Nat
  | .u => 0 | .a => 1 | .g => 2
/-- Bytes of a register section's values for one register. -/
def Block.regBytes (k : Block) (w r : Nat) : Nat :=
  match k.tag w r with
  | .u => 4
  | .a => 8
  | .g => if k.isProtected then 64 else 128
/-- Bytes of the tag header of `n` registers. -/
def tagHeaderBytes (n : Nat) : Nat := (2 * n + 127) / 128 * 16
/-- The tag header of a warp's registers. -/
def Block.tagHeader (k : Block) (w : Nat) : List Byte :=
  let n := (k.warp w).regs
  (List.range (tagHeaderBytes n)).map fun j =>
    BitVec.ofNat 8 ((List.range 4).foldl (fun x i => x + (if 4 * j + i < n then (k.tag w (4 * j + i)).code else 0) * 4 ^ i) 0)

/-- The tag codes of `n` registers in a header. -/
def tagCodes (bs : List Byte) (n : Nat) : List Nat := (List.range n).map fun r => ((bs[r / 4]?).getD 0).toNat / 4 ^ (r % 4) % 4

/-- How often 2 divides a difference of two positions. -/
def twos (g : Nat) : Nat :=
  if g % 2 = 1 then 0 else if g % 4 = 2 then 1 else if g % 8 = 4 then 2 else if g % 16 = 8 then 3 else 4
/-- A stride with which `g` positions differ by `dv` modulo 2^32, found bit by bit. -/
def strideOf (g dv : Nat) : Nat :=
  (List.range 32).foldl
    (fun x i =>
      let m := 2 ^ min 32 (i + 1 + twos g)
      if g * x % m = dv % m then x else x + 2 ^ i) 0
/-- Base and stride of a register tagged A, from the values of its live positions. -/
def Block.affineOf (k : Block) (w r : Nat) : Nat × Nat :=
  match (k.liveOf w).map laneOf with
  | [] => (0, 0)
  | l :: ls =>
    let v := fun q => (k.vreg w r q).toNat
    let diffs := ls.mergeSort fun x y => decide (twos (x - l) ≤ twos (y - l))
    let stride := match diffs with
      | [] => 0
      | m :: _ => strideOf (m - l) ((v m + 2 ^ 32 - v l) % 2 ^ 32)
    ((v l + 2 ^ 32 * 32 - l * stride) % 2 ^ 32, stride)
/-- The values of one register. A position whose thread has exited holds a free value. -/
def State.regValues (s : State) (b w r : Nat) : List Byte × State :=
  let k := s.blk b
  match k.tag w r with
  | .u => (leBytes 4 (k.vreg w r (laneOf ((k.liveOf w).headD 0))).toNat, s)
  | .a =>
    let x := k.affineOf w r
    (leBytes 4 x.1 ++ leBytes 4 x.2, s)
  | .g =>
    (List.range (k.regBytes w r / 4)).foldl
      (fun (x : List Byte × State) q =>
        if (k.thr (32 * w + q)).live then (x.1 ++ leBytes 4 (k.vreg w r q).toNat, x.2)
        else
          let (f, s) := x.2.freeBytes 4
          (x.1 ++ f, s)) ([], s)
/-- Sets a register at every position of a warp. -/
def Block.fillReg (k : Block) (w r : Nat) (t : Tag) (f : Nat → Nat) : Block :=
  (List.range 32).foldl (fun k q => k.setVreg w r q (BitVec.ofNat 32 (f q))) (k.setTag w r t)
/-- Restores registers `r ..` of a warp: their tag codes and their bytes. Code 11 takes no bytes, and writes 0 with tag U. -/
def Block.loadRegs (k : Block) (w : Nat) : Nat → List Nat → List Byte → Block
  | _, [], _ => k
  | r, c :: cs, bs =>
    if c = 0 then (k.fillReg w r .u fun _ => numAt bs 0 4).loadRegs w (r + 1) cs (bs.drop 4)
    else if c = 1 then (k.fillReg w r .a fun q => numAt bs 0 4 + q * numAt bs 4 4).loadRegs w (r + 1) cs (bs.drop 8)
    else if c = 2 then
      (k.fillReg w r .g fun q => numAt bs (4 * q) 4).loadRegs w (r + 1) cs (bs.drop (if k.isProtected then 64 else 128))
    else (k.fillReg w r .u fun _ => 0).loadRegs w (r + 1) cs bs
where
  numAt (bs : List Byte) (off n : Nat) : Nat := numIn bs off n

/-! ### Sections (R322) -/

/-- A section of the image; accumulators by their key. -/
inductive Sec where
  | header | scratch | conv
  | acc (key : Nat)
  | warpHead (w : Nat) | threads (w : Nat) | exc (w : Nat) | scalars (w : Nat) | log (w : Nat) | regs (w : Nat)
  | tile (w t : Nat)
  deriving DecidableEq, Repr

/-- Roles of the warps of a run that have live threads. -/
def Block.runRoles (k : Block) (j : Nat) : List Nat :=
  (((List.range k.nwarps).filter fun w => w / 8 = j && k.liveOf w ≠ []).map fun w => (k.warp w).role).eraseDups
/-- Keys of the accumulators that a block holds on the partition of run j. -/
def Block.accKeys (k : Block) (p j : Nat) : List Nat :=
  (k.runRoles j).flatMap fun r => (List.range ((k.roles[r]?).getD {}).acc).map fun c => accKey p r c
/-- The sections of a block, in order. -/
def Block.sections (k : Block) : List Sec :=
  let accs := (List.range 4).flatMap fun p => (List.range k.parts.length).flatMap fun j =>
    if (k.parts[j]?).getD 0 = p then (k.accKeys p j).map Sec.acc else []
  [.header, .scratch, .conv] ++ accs ++ (List.range k.nwarps).flatMap fun w =>
    [.warpHead w, .threads w, .exc w, .scalars w, .log w, .regs w] ++ (List.range (k.warp w).tiles).map (Sec.tile w)

def State.warpLog (s : State) (b w : Nat) : List LogEntry := s.oplog.filter fun e => e.blk = b && e.warp = w && !e.held
/-- Bytes of a section. -/
def State.secSize (s : State) (b : Nat) : Sec → Nat
  | .header => 512
  | .scratch => (s.blk b).scratchSize
  | .conv => 4096
  | .acc _ => 33856
  | .warpHead _ => 64
  | .threads _ => 2048
  | .exc _ => 8192
  | .scalars _ => 320
  | .log w => 512 * (s.warpLog b w).length
  | .regs w =>
    let k := s.blk b
    tagHeaderBytes (k.warp w).regs + (List.range (k.warp w).regs).foldl (fun n r => n + k.regBytes w r) 0
  | .tile _ _ => 4672

/-- The cells, the two captured rows, EA, EB and CAPT of an accumulator (spec/06 R103; log 19). -/
def Acc.image (a : Acc) : List Byte :=
  let bit := fun (x : Bool) (n : Nat) => if x then 2 ^ n else 0
  ((List.range 4096).flatMap fun j =>
    leBytes 8 ((a.s.get 0 j).toNat + bit (a.ss.get false j) 56 + (a.sp.get 0 j).toNat * 2 ^ 57)) ++
  ((List.range 64).flatMap fun j => leBytes 8 ((a.ra.get 0 j).toNat + bit (a.raSat.get false j) 56)) ++
  ((List.range 64).flatMap fun j => leBytes 8 ((a.cb.get 0 j).toNat + bit (a.cbSat.get false j) 56)) ++
  [a.ea, a.eb, BitVec.ofNat 8 (bit a.capt 0)]
def Acc.restore (a : Acc) (bs : List Byte) : Acc :=
  let w := fun j => BitVec.ofNat 64 (numIn bs (8 * j) 8)
  let sat := fun (x : DWord) => bitAt x 56
  let val := fun (x : DWord) => (x.setWidth 56 : BitVec 56)
  let cells := (List.range 4096).map w
  let ra := (List.range 64).map fun j => w (4096 + j)
  let cb := (List.range 64).map fun j => w (4160 + j)
  { a with
    s := Map.setList 0 [] 0 (cells.map val), ss := Map.setList false [] 0 (cells.map sat)
    sp := Map.setList 0 [] 0 (cells.map fun x => BitVec.ofNat 3 (bits64 x 59 57))
    ra := Map.setList 0 [] 0 (ra.map val), raSat := Map.setList false [] 0 (ra.map sat)
    cb := Map.setList 0 [] 0 (cb.map val), cbSat := Map.setList false [] 0 (cb.map sat)
    ea := (bs[33792]?).getD 0, eb := (bs[33793]?).getD 0, capt := ((bs[33794]?).getD 0).getLsbD 0 }
/-- The exception state of one position; its padding is free. -/
def State.excImage (s : State) (th : Thread) : List Byte × State :=
  let (p, s) := s.freeBytes 48
  let entries := (List.range 8).flatMap fun j =>
    match th.tstack[j]? with
    | some e => leBytes 8 e.level ++ leBytes 8 e.target.toNat
    | none => List.replicate 16 0
  (th.held.bytes ++ p.take 8 ++ leBytes 8 th.ownCode.toNat ++ leBytes 8 th.ownPc.toNat ++ leBytes 8 th.tstack.length ++ entries ++
    p.drop 8, s)
/-- The bytes of a section. Where the spec names what a section holds and not where, its bytes are free values (log 19). -/
def State.secBytes (s : State) (b : Nat) (x : Sec) : List Byte × State :=
  let k := s.blk b
  match x with
  | .scratch => (k.scratch.getList 0 0 k.scratchSize, s)
  | .acc key =>
    let (p, s) := s.freeBytes 61
    ((k.accs.get {} key).image ++ p, s)
  | .exc w =>
    (List.range 32).foldl
      (fun (r : List Byte × State) q =>
        let (bs, s) := r.2.excImage (k.thr (32 * w + q))
        (r.1 ++ bs, s)) ([], s)
  | .scalars w =>
    (((List.range 64).flatMap fun r => leBytes 4 (k.sreg w r).toNat) ++
      (List.range 16).flatMap fun n => leBytes 4 (k.fd w n).toNat, s)
  | .regs w =>
    (List.range (k.warp w).regs).foldl
      (fun (r : List Byte × State) n =>
        let (bs, s) := r.2.regValues b w n
        (r.1 ++ bs, s)) (k.tagHeader w, s)
  | .tile w t =>
    let (p, s) := s.freeBytes 56
    (k.tileBytes w t 0 4096 ++ k.sideBytes w t 0 512 ++ leBytes 8 (k.tc w t).toNat ++ p, s)
  | x => s.freeBytes (s.secSize b x)

/-- Each section starts at a multiple of 64 bytes: sections with their offsets in the image, and the end. -/
def State.placed (s : State) (b : Nat) : List (Nat × Sec) × Nat :=
  (s.blk b).sections.foldl (fun (r : List (Nat × Sec) × Nat) x => (r.1 ++ [(r.2, x)], r.2 + (s.secSize b x + 63) / 64 * 64)) ([], 0)
/-- Physical address of an offset of a function's save area. -/
def State.saveArea (s : State) (fn off : Nat) : Nat := bits64 (s.fn fn).saveBase 51 12 * 4096 + off
/-- Writes the image of a block at an offset of its context's save area. -/
def State.writeImage (s : State) (b off : Nat) : State :=
  let k := s.blk b
  let l := s.placed b
  let s := l.1.foldl
    (fun s x =>
      let (bs, s) := s.secBytes b x.2
      s.writeHome (s.saveArea k.fn (off + x.1)) bs) s
  s.updBlk b fun k => { k with saveAt := some (off, l.2) }
/-- The end of what a context has in its save area. -/
def State.saveEnd (s : State) (fn : Nat) : Nat :=
  s.blocks.foldl (fun n e => match e.2 with
    | some k => if k.fn = fn then max n ((k.saveAt.map fun x => x.1 + x.2).getD 0) else n
    | none => n) 0
/-- The image of a saved block is written again where it lies: what the save area holds has changed. -/
def State.refreshImage (s : State) (b : Nat) : State :=
  match (s.blk b).saveAt with
  | some x => s.writeImage b x.1
  | none => s

/-- One section is restored; a section that the model does not read back keeps the saved state (log 19). -/
def Block.restoreSec (k : Block) (x : Sec) (bs : List Byte) : Block :=
  match x with
  | .scratch => { k with scratch := Map.setList 0 [] 0 bs }
  | .acc key => { k with accs := k.accs.upd {} key fun a => a.restore bs }
  | .scalars w =>
    let word := fun j => BitVec.ofNat 32 (numIn bs (4 * j) 4)
    let k := (List.range 64).foldl (fun k r => k.setSreg w r (word r)) k
    (List.range 16).foldl (fun k n => k.setFd w n (word (64 + n))) k
  | .regs w =>
    let n := (k.warp w).regs
    k.loadRegs w 0 (tagCodes bs n) (bs.drop (tagHeaderBytes n))
  | .tile w t =>
    ((k.setTile w t 0 (bs.take 4096)).setSide w t 0 ((bs.drop 4096).take 512)).setTc w t (BitVec.ofNat 64 (numIn bs 4608 8))
  | _ => k
/-- Bytes that the restore of a section reads: those of a register section are what its tag header makes them (R291). -/
def State.restoreSize (s : State) (b at_ : Nat) (x : Sec) : Nat :=
  match x with
  | .regs w =>
    let k := s.blk b
    let n := (k.warp w).regs
    let hdr := s.readPA at_ (tagHeaderBytes n)
    tagHeaderBytes n + (tagCodes hdr n).foldl
      (fun m c => m + (if c = 0 then 4 else if c = 1 then 8 else if c = 2 then (if k.isProtected then 64 else 128) else 0)) 0
  | x => s.secSize b x
/-- Positions of exited threads hold free values after a restore (R291; log 5). -/
def State.freePositions (s : State) (b : Nat) : State :=
  let k := s.blk b
  (List.range k.nwarps).foldl
    (fun s w => ((List.range 32).filter fun q => !(k.thr (32 * w + q)).live).foldl
      (fun s q => (List.range (k.warp w).regs).foldl
        (fun s r =>
          let (x, s) := s.freeWord
          s.updBlk b fun k => k.setVreg w r q x) s) s) s
/-- A block's state is restored from its image. -/
def State.restoreImage (s : State) (b : Nat) : State :=
  let k := s.blk b
  match k.saveAt with
  | none => s
  | some x =>
    let s := (s.placed b).1.foldl
      (fun s y =>
        let a := s.saveArea k.fn (x.1 + y.1)
        s.updBlk b fun k => k.restoreSec y.2 (s.readPA a (s.restoreSize b a y.2))) s
    s.freePositions b

end Sys2Proof.Machine
end

