-- ==== Sys2Proof/Machine/Steer.lean ====
section
/-! DEFINITION. What happens when a level receives an exception: stop, cancellation, merging, and the continuation at the catch
or the end of the launch (spec/23 R399..R407, R409, R411; spec/24 R420, R425; spec/17 R334; spec/18 R344, R346). -/
namespace Sys2Proof.Machine

/-! ### Members and throwers (R399, R403) -/

/-- Has the block not been released: held, saved while it was held, or killed and not yet running again? -/
def Block.unreleased (k : Block) : Bool := k.status = .held || k.fresh
/-- The members of a level: blocks with their threads. -/
def State.membersOf (s : State) (fn : Nat) (lid : Word) (level : Option Nat) : List (Nat × List Nat) :=
  s.blocks.filterMap fun e => match e.2 with
    | some k =>
      let ts := match level with
        | none => k.liveThreads
        | some r => k.liveThreads.filter fun t => (k.thr t).tstack.any fun x => x.region = r
      if k.fn = fn && k.lid = lid && !k.agent && !k.unreleased && k.status ≠ .dead && ts ≠ [] then some (e.1, ts) else none
    | none => none

/-- The record that one thrower brings: its own, or the one that it throws on (R404; spec/24 R425). -/
def Exc.toRec (e : Exc) (k : Block) (t : Nat) : Rec :=
  match e.carried with
  | some r => { r with climbed := true }
  | none =>
    { code := e.code, count := 1, lid := k.lid, blk := BitVec.ofNat 32 k.q, thr := BitVec.ofNat 16 t,
      peer := e.code = cPEERLOST, relaunched := decide (0 < k.relaunches), hw := e.code = cHWUE || e.code = cSDC,
      async := e.async, originPc := e.pc, aux := e.aux }
/-- A thrower of a stop: its block and thread, its record, and whether it throws on. -/
structure Thrower where
  b : Nat
  thr : Nat
  e : Exc
  r : Rec
  deriving DecidableEq, Repr
def State.throwers (s : State) (ms : List (Nat × List Nat)) : List Thrower :=
  ms.flatMap fun m => m.2.filterMap fun t =>
    (s.thr m.1 t).raised.map fun e => { b := m.1, thr := t, e := e, r := e.toRec (s.blk m.1) t }

/-- Do two records count as one (spec/24 R425)? -/
def Rec.same (a b : Rec) : Bool :=
  a.lid = b.lid && a.blk = b.blk && a.thr = b.thr && a.originPc = b.originPc && a.code = b.code
/-- The throwers that the rethrowers of one record, and every other record, contribute. -/
def countRecs (own carried : List Rec) : Nat :=
  let distinct := carried.foldl (fun (l : List Rec) r => if l.any r.same then l else l ++ [r]) []
  own.length + distinct.foldl (fun n r => n + r.count.toNat) 0
/-- The order of throwers: block index, then thread index. -/
def Rec.before (a b : Rec) : Bool :=
  decide (a.blk.toNat < b.blk.toNat) || (a.blk = b.blk && decide (a.thr.toNat ≤ b.thr.toNat))
/-- The merged record of a level (R403). -/
def mergeRecs (level : BitVec 2) (cancelled : Bool) (own carried : List Rec) : Rec :=
  let all := (own ++ carried).mergeSort Rec.before
  let r := all.headD {}
  { r with count := BitVec.ofNat 32 (min (countRecs own carried) (2 ^ 32 - 1)), level := level, cancelled := cancelled,
           peer := r.peer || own.any (·.peer) }

/-! ### Cancellation (R402) -/

/-- A byte whose value is undefined from now on takes a free value (spec/00 R8; log 5). -/
def State.voidByte (s : State) (b : Nat) (p : Place) : State :=
  let x := Config.freeByte s.tick
  let s := { s with tick := s.tick + 1 }
  match p with
  | .scratch q off => s.updBlk q fun k => { k with scratch := k.scratch.set 0 off x }
  | .mem pa d => if (s.blk b).tentative then s.store b d .engine pa [x] else s.writePA pa [x]
/-- The bytes of a destination that a cancelled transfer has not written, where they can be written. -/
def State.voidBytes (s : State) (b : Nat) (look : State → Nat → Access × State) (os : List Nat) : State :=
  os.foldl
    (fun s o => match look s o with
      | (.place p, s) => s.voidByte b p
      | (_, s) => s) s
/-- A copy of a thread stops. -/
def State.voidCopy (s : State) (q : Copy) : State :=
  let s := { s with copies := s.copies.filter fun x => x.id ≠ q.id }
  if inFabric q.dst && !q.dstSp then { s with links := s.links.map fun l => { l with unacked := l.unacked.filter fun e => e.1.xid ≠ q.id % 2 ^ 32 } }
  else s.voidBytes q.blk (fun s o => s.copySide q q.dstSp .write (q.dstAt o))
    (q.todo.flatMap fun r => (List.range (r.2 - r.1)).map (r.1 + ·))
/-- A copy-out of a thread stops. -/
def State.voidExport (s : State) (x : Export) : State :=
  (s.dropExport x).voidBytes x.blk
    (fun s o => s.engineByte (s.blk x.blk).core x.fn (x.dst + BitVec.ofNat 64 o) .write)
    ((List.range (x.bytes.length - x.done)).map (x.done + ·))
/-- A register of a CPLD that counts in a completion register holds an undefined value (spec/11 R227). -/
def State.voidLanding (s : State) (b : Nat) (l : Landing) : State :=
  let (x, s) := s.freeWord
  s.updBlk b fun k => k.putLanding l x

/-- Threads leave a faulted instruction; the other threads that it holds go on waiting. -/
def State.leaveLog (s : State) (b : Nat) (ts : List Nat) (p : Pending) (id : Nat) : State :=
  let rest := p.thrs.filter fun e => !ts.contains e.1
  if rest = [] then { s.dropPend b p.id with oplog := s.oplog.filter fun e => e.id ≠ id }
  else
    let out := fun (e : LogEntry) =>
      let ops := e.ops.filter fun o => !ts.contains o.thr
      if e.id ≠ id || ops = [] || (convReg e.instr).isSome || (match e.instr with
          | .cmpst .. | .expld .. => true
          | _ => false) then e
      else
        { e with ops := ops, waiting := e.waiting.filter (fun w => !ts.contains w.1),
                 failed := e.failed.filter (fun w => !ts.contains w.1) }
    { s.updPend b p.id (fun p => { p with thrs := rest }) with oplog := s.oplog.map out }

/-- The stop point of a thread that has not raised (R401): the oldest of its instructions that has not completed and does
not complete, the SVC that entered its handler, or where it stands. -/
def Block.stopPoint (k : Block) (t : Nat) : DWord :=
  let th := k.thr t
  if th.raised.isSome then th.pc
  else if th.mode = 1 then th.svcPc
  else
    let open_ := k.pend.filter fun p => p.thrs.any (fun e => e.1 = t) && (p.log.isSome || p.k.isSome || (match p.result with
      | .tile .. => true
      | _ => false))
    let pos := fun (p : Pending) => ((p.thrs.find? fun e => e.1 = t).map (·.2)).getD 0
    match open_.mergeSort fun p q => decide (pos q ≤ pos p) with
    | p :: _ => p.pc
    | [] => th.pc

/-- Does the stop of threads cancel a transfer or a wait? -/
def State.cancels (s : State) (b : Nat) (ts : List Nat) : Bool :=
  ts.any (fun t => s.inWait b t) || s.copies.any (fun q => q.packet.isNone && q.blk = b && ts.contains q.thr) ||
    s.exports.any fun x => x.blk = b && ts.contains x.thr

/-- What a stop cancels and completes for threads of a block. -/
def State.cancelThreads (s : State) (b : Nat) (ts : List Nat) : State :=
  let k := s.blk b
  let cs := s.copies.filter fun q => q.packet.isNone && q.blk = b && ts.contains q.thr
  let xs := s.exports.filter fun x => x.blk = b && ts.contains x.thr
  let named := (cs.map (·.aoff) ++ xs.map (·.aoff)).filterMap (s.objectAt b)
  let awaited := ts.filterMap fun t => match (k.thr t).wait with
    | some (.await p off _ _) => some (p, off)
    | _ => none
  let s := xs.foldl State.voidExport (cs.foldl State.voidCopy s)
  let s := (named ++ awaited).eraseDups.foldl (fun s o => s.updArrival o.1 o.2 Arrival.cancel) s
  let ws := (ts.map warpOf).eraseDups
  let s := (k.landings.filter fun l => ws.contains (warpOf l.thr)).foldl (fun s l => s.voidLanding b l) s
  let out := fun (l : List Nat) => l.filter fun t => !ts.contains t
  let s := s.updBlk b fun k =>
    let k := ws.foldl (fun k w => (List.range 8).foldl (fun k j => k.setSreg w (48 + j) 0) k) k
    { k with
      landings := k.landings.filter fun l => !ws.contains (warpOf l.thr)
      barArr := out k.barArr, clArr := out k.clArr
      gbarArr := (List.range 16).foldl (fun m g => m.set [] g (out (m.get [] g))) k.gbarArr }
  let s := s.convCancel b ts
  let mine := (s.blk b).pend.filter fun p => p.thrs.any fun e => ts.contains e.1
  let s := mine.foldl
    (fun s p => match p.log with
      | some id => s.leaveLog b ts p id
      | none => if p.ready then s.completePend b p else s) s
  let s := (redsFor (fun r => r.blk = b && r.thrs.any ts.contains) s.reds).foldl State.applyRed s
  s.updThrs b ts fun th => { th with wait := none, mode := if th.mode = 1 then 0 else th.mode }

/-! ### Death (R409; spec/18 R344) -/

/-- Everything in flight for a block is dropped. -/
def State.dropWork (s : State) (b : Nat) : State :=
  let s := (s.exports.filter fun x => x.blk = b).foldl State.dropExport s
  { s with
    copies := s.copies.filter fun q => !(q.packet.isNone && q.blk = b)
    drains := s.drains.filter fun d => d.blk ≠ b
    reds := s.reds.filter fun r => r.blk ≠ b
    cctls := s.cctls.filter fun f => f.blk ≠ b
    sflushes := s.sflushes.filter fun f => f.blk ≠ b
    oplog := s.oplog.filter fun e => e.blk ≠ b
    dueErrors := s.dueErrors.filter fun e => e.1 ≠ b }
/-- The content references that a block has not committed are undone (spec/12 R245). -/
def State.undoJournal (s : State) (b : Nat) : State :=
  let back := fun (s : State) (j : Journal) =>
    match j with
    | .took x => s.releaseQuiet x
    | .released x => s.updEntry x fun e => { e with ref := e.ref + 1, state := .live }
  ((s.blk b).journal.reverse.foldl back s).updBlk b fun k => { k with journal := [] }
/-- A cluster's barrier never releases again: every thread that waits there raises PEERLOST. -/
def State.loseBarrier (s : State) (b : Nat) : State :=
  ((s.cluster b).filter fun x => x ≠ b).foldl
    (fun s x =>
      let ts := (s.blk x).liveThreads.filter fun t => match ((s.blk x).thr t).wait with
        | some (.clbar _) => true
        | _ => false
      ts.foldl (fun s t => s.raiseAt x t (s.thr x t).pc cPEERLOST .free) s) s
/-- A block dies: its threads end without a catch, its tentative writes are dropped, its scratchpad is frozen. -/
def State.killDead (s : State) (b : Nat) : State :=
  let s := (s.dropWork b).undoJournal b
  let s := s.updBlk b fun k =>
    { k with status := .dead, buf := [], merges := [], tagBuf := [], pend := [], landings := [],
             threads := k.threads.map (fun e => (e.1, { e.2 with live := false, wait := none, raised := none, tstack := [] })),
             trace := k.trace.map fun r => { r with failed := true } }
  let k := s.blk b
  let s := s.updLaunch k.fn k.lid fun l => { l with ended := l.ended ++ [k.q] }
  (s.loseBarrier b).sweepDead

/-! ### The launch level (R406) -/

/-- The launch fails: its blocks end without a catch, held members and blocks not yet placed never run. -/
def State.failLaunch (s : State) (fn : Nat) (lid : Word) (r : Rec) (ms : List (Nat × List Nat)) : State :=
  let s := ms.foldl
    (fun s m =>
      let s := (s.cancelThreads m.1 m.2).commit m.1 false
      let s := s.updThrs m.1 m.2 fun th => { th with live := false, raised := none, tstack := [], asyncs := [] }
      s.updBlk m.1 fun k => { k with kregs := [], trace := k.trace.map fun x => { x with failed := true } }) s
  let gone := (s.blocksOf fn lid).filter fun b => (s.blk b).unreleased
  let s := gone.foldl State.dropBlock s
  match s.launchOf fn lid with
  | none => s
  | some l => (s.exhaust l).updLaunch fn lid fun x => { x with ending := .failed r, injected := [] }

/-- The catch point of a launch, when it has one. -/
def State.catchOf (s : State) (fn : Nat) (lid : Word) : Option DWord :=
  (s.launchOf fn lid).bind fun l =>
    let d := s.launchDesc l
    if d.hasCatch then some d.catchPc else none

/-! ### Receiving (R405) -/

/-- One member receives the record, leaves the level's region and every region inside it, and goes on at the catch. -/
def Thread.receive (th : Thread) (r : Rec) (level : Option Nat) (stop catchPc : DWord) : Thread :=
  { th with
    held := r, ownCode := (th.raised.map (·.code)).getD 0, ownPc := stop, raised := none, wait := none, pc := catchPc
    tstack := match level with
      | none => []
      | some x => ((th.tstack.dropWhile fun e => e.region ≠ x).drop 1) }
/-- The catch point that a thread has for a level. -/
def Thread.catchAt (th : Thread) (level : Option Nat) (launch : DWord) : DWord :=
  match level with
  | none => launch
  | some r => ((th.tstack.find? fun e => e.region = r).map (·.target)).getD launch
/-- The members of a block receive the record. -/
def State.steerBlock (s : State) (b : Nat) (ts : List Nat) (r : Rec) (level : Option Nat) (catchPc : DWord) : State :=
  let k := s.blk b
  let s := s.cancelThreads b ts
  let s := if level.isNone then s.commit b false else s
  let s := ts.foldl
    (fun s t => s.updThr b t fun th => th.receive r level (k.stopPoint t) (th.catchAt level catchPc)) s
  s.updBlk b fun k =>
    { k with handled := true,
             trace := if level.isNone then k.trace.map (fun x => { x with failed := true }) else k.trace }

/-- The members of a level that go on at a catch, which acquire once every one of them has released (R405); a saved one does when it
is back. -/
def State.steer (s : State) (ms : List (Nat × List Nat)) (r : Rec) (level : Option Nat) (catchPc : DWord) : State :=
  let s := ms.foldl (fun s m => s.steerBlock m.1 m.2 r level catchPc) s
  (ms.filter fun m => (s.blk m.1).status = .running).foldl (fun s m => s.acquire (s.blk m.1).core) s

/-- Is a stop of an outer level due for some of the members? -/
def State.outerDue (s : State) (fn : Nat) (lid : Word) (level : Option Nat) (ms : List (Nat × List Nat)) : Bool :=
  match level with
  | none => false
  | some r =>
    s.stops.any fun x => x.1 = fn && x.2.1 = lid && (match x.2.2 with
      | none => true
      | some q => ms.any fun m => m.2.any fun t =>
          ((s.thr m.1 t).tstack.dropWhile fun e => e.region ≠ r).drop 1 |>.any fun e => e.region = q)
/-- Have the members' engines and stores come to the point where their release can be made? -/
def State.settled (s : State) (ms : List (Nat × List Nat)) : Bool :=
  ms.all fun m =>
    let k := s.blk m.1
    k.pend.all (fun p => p.thrs.all (fun e => !m.2.contains e.1) || p.ready || p.log.isSome || p.k.isSome) &&
      (k.status ≠ .running || (!(s.pendReg.any fun x => x.1 = k.core) &&
        m.2.all fun t => !(s.cctls.any fun f => f.blk = m.1 && f.thrs.contains t) && !(s.sflushes.any fun f => f.blk = m.1)))
/-- Stops whose exceptions have been received are over. -/
def State.sweepStops (s : State) : State :=
  let due := fun (x : Nat × Word × Option Nat) =>
    (x.2.2.isNone && (s.launchOf x.1 x.2.1).any fun l => l.injected ≠ []) ||
      (s.membersOf x.1 x.2.1 none).any fun m => m.2.any fun t => match (s.thr m.1 t).raised with
        | some e => e.level = x.2.2
        | none => false
  { s with stops := s.stops.filter due, stopping := s.stopping.filter fun x => s.stops.contains x && due x }

/-- The number that LEVEL gives a level. -/
def State.levelNo (s : State) (level : Option Nat) (ms : List (Nat × List Nat)) : BitVec 2 :=
  match level with
  | none => 2
  | some r => BitVec.ofNat 2 (((ms.head?.bind fun m => (s.thr m.1 (m.2.headD 0)).tstack.find? fun e => e.region = r).map
      (·.level)).getD 0)

/-- A stop of a level, with its members. -/
def State.stopLevel (s : State) (fn : Nat) (lid : Word) (level : Option Nat) (ms : List (Nat × List Nat)) : State :=
  let th := s.throwers ms
  let extra := if level.isNone then ((s.launchOf fn lid).map (·.injected)).getD [] else []
  let own := extra ++ (th.filter fun x => x.e.carried.isNone).map (·.r)
  let again := (th.filter fun x => x.e.carried.isSome).map (·.r)
  let r := mergeRecs (s.levelNo level ms) (ms.any fun m => s.cancels m.1 m.2) own again
  match level with
  | some _ => s.steer ms r level 0
  | none =>
    let hurt := (th.filter fun x => x.e.carried.isNone && (x.e.code = cHWUE || x.e.code = cSDC)).map (·.b) ++
      (ms.filter fun m => extra.any fun r => r.hw && r.blk = BitVec.ofNat 32 (s.blk m.1).q).map (·.1)
    let ms := ms.filter fun m => !hurt.contains m.1
    let s := match s.catchOf fn lid with
      | none => s.failLaunch fn lid r ms
      | some pc =>
        if th.any fun x => x.e.carried.any fun c => c.level = 2 then s.failLaunch fn lid r ms
        else
          (s.steer ms r none pc).updLaunch fn lid fun l => { l with injected := [] }
    hurt.eraseDups.foldl State.killDead s

/-- TRY_STOP_STEER: the `n`-th level that is to receive an exception stops its members, which issue nothing from then on; once
their engines and stores have come to an end it cancels their other work and hands them the merged record. -/
def execTryStopSteer (n : Nat) (s : State) : Host.Outcome State Fault Refusal :=
  match s.stops[n]? with
  | none => finish s
  | some (fn, lid, level) =>
    let ms := s.membersOf fn lid level
    if s.outerDue fn lid level ms then finish s
    else if !s.settled ms || ms.any (fun m => s.convResting m.1 m.2) then
      let s := ms.foldl (fun s m => ((s.blk m.1).pend.filter fun p => p.thrs.any fun e => m.2.contains e.1).foldl (fun s p => s.voidResting m.1 p) s) s
      finish (if s.stopping.contains (fn, lid, level) then s else { s with stopping := s.stopping ++ [(fn, lid, level)] })
    else
      let s := { s with stopping := s.stopping.filter fun x => x ≠ (fn, lid, level) }
      finish ((ms.map (·.1)).foldl State.refreshImage ((s.stopLevel fn lid level ms).sweepStops).sweepDead)

end Sys2Proof.Machine
end

