-- ==== Sys2Proof/Machine/Recovery.lean ====
section
/-! DEFINITION. Consumed errors, relaunches, machine checks, the fatal dump, units out of service, and the release of a halted warp
(spec/23 R409, R413..R418; spec/01 R17; spec/22 R397). -/
namespace Sys2Proof.Machine

/-! ### Machine checks (R417) -/

/-- A machine-check record. -/
structure Check where
  die : Nat
  unit : Nat
  index : Nat
  sev : Nat
  kind : Nat
  pa : Nat := 0
  lid : Word := 0
  blk : Nat := 0
  thr : Nat := 0
  deriving DecidableEq, Repr

def Check.words (c : Check) : DWord × DWord × DWord × DWord :=
  (addr (c.die * 2 ^ 56 + c.unit % 256 * 2 ^ 48 + c.index % 65536 * 2 ^ 32 + c.sev * 16 + c.kind), addr c.pa,
   addr (c.lid.toNat * 2 ^ 32 + c.blk % 2 ^ 32), addr (c.thr % 65536 * 2 ^ 32 + 1))
/-- The data plane reports an error to the management core of its die. -/
def State.machineCheck (s : State) (c : Check) : State :=
  s.updDie c.die fun d => { d with machineChecks := d.machineChecks ++ [c.words] }
/-- The record of an error in a core, for a thread of a block. -/
def Block.check (k : Block) (t sev kind pa : Nat) : Check :=
  { die := dieOf k.core, unit := 1, index := k.core % 64, sev := sev, kind := kind, pa := pa, lid := k.lid, blk := k.q, thr := t }

/-! ### Consumption (R413, R414) -/

/-- Records that wait for threads of a block wait for nothing any more. -/
def Record.release (r : Record) (b : Nat) : Record :=
  let gone : Bool := match r.waiter with
    | .fetch x _ | .trap x _ | .stop x _ | .trace x => x = b
    | _ => false
  if gone then { r with waiter := .none } else r
def State.releaseRecords (s : State) (b : Nat) : State := { s with records := s.records.map fun r => r.release b }

/-- A restartable block is killed: it is to be placed again, in the state in which it was first placed. -/
def State.killAgain (s : State) (b : Nat) : State :=
  let k := s.blk b
  match s.launchOf k.fn k.lid with
  | none => s
  | some l =>
    let s := (((s.dropWork b).undoJournal b).releaseRecords b).giveUp b
    let s := if k.fresh then s else s.occNotice k.core
    let fresh := s.newBlock l k.core k.parts k.ci k.rank .saved
    s.updBlk b fun _ => { fresh with bslot := k.bslot, relaunches := k.relaunches + 1, avoid := some k.core }
/-- The members of a block's cluster that have not ended. -/
def State.members (s : State) (b : Nat) : List Nat := (s.cluster b).filter fun x => (s.blk x).status ≠ .dead
/-- Can the cluster of a block be killed and placed again whole? -/
def State.mayKill (s : State) (b : Nat) : Bool :=
  !(s.blk b).agent && (s.members b).all fun x => (s.blk x).tentative && decide ((s.blk x).relaunches < 2)

/-- HWUE or SDC at launch level: the thread raises it, in place of an exception that waits in it; for a thread that has exited the
launch takes it. -/
def State.raiseHw (s : State) (b t : Nat) (code : Word) (aux : Aux) : State :=
  let k := s.blk b
  let th := k.thr t
  let pc := if th.raised.isNone && s.sel.blk = b && s.sel.thrs.contains t then s.sel.pc else th.pc
  if k.agent || th.live then (s.updThr b t fun th => { th with raised := none }).raiseAt b t pc code aux
  else
    let (x, s) := s.auxOf aux
    let r := ({ code := code, aux := x, pc := pc } : Exc).toRec k t
    (s.updLaunch k.fn k.lid fun l => { l with injected := l.injected ++ [r] }).addStop k.fn k.lid none

/-- A consumption, or a silent error that counts as one: the block's cluster is killed, or the exception is raised. -/
def State.consume (s : State) (b t : Nat) (code : Word) (aux : Aux) (kind pa : Nat) : State :=
  let k := s.blk b
  let kill := s.mayKill b
  let s := s.machineCheck (k.check t (if kill then 2 else 3) kind pa)
  if kill then ((s.members b).foldl State.killAgain s).sweepStops else (s.raiseHw b t code aux).sweepStops

/-- ERROR_CONSUMPTION: poisoned data at a physical address has reached a thread. -/
def execErrorConsumption (b thr pa : Nat) (s : State) : Host.Outcome State Fault Refusal :=
  if s.dueErrors.contains (b, thr, pa) then
    let s := { s with dueErrors := s.dueErrors.erase (b, thr, pa) }
    finish (s.consume b thr cHWUE (.all (addr pa)) 1 pa)
  else finish s

/-- REPLAY_MISMATCH: when the vote finds the original wrong SDC is treated as a consumption, else a corrected machine check is
logged (R415). -/
def execReplayMismatch (b thr : Nat) (original : Bool) (s : State) : Host.Outcome State Fault Refusal :=
  let k := s.blk b
  if k.status ≠ .running then finish s
  else if original then finish (s.consume b thr cSDC .free 3 0)
  else finish (s.machineCheck (k.check thr 0 3 0))

/-! ### The fatal dump (R418) -/

/-- The words of every machine-check record, die by die. -/
def State.allChecks (s : State) : List (DWord × DWord × DWord × DWord) := (List.range 4).flatMap fun d => (s.die d).machineChecks
def checkBytes (c : DWord × DWord × DWord × DWord) : List Byte :=
  leBytes 8 c.1.toNat ++ leBytes 8 c.2.1.toNat ++ leBytes 8 c.2.2.1.toNat ++ leBytes 8 c.2.2.2.toNat
/-- Entries of the directory for sections with their types and lengths, from an offset on. -/
def dumpEntries : Nat → List (Nat × Nat) → List Byte
  | _, [] => []
  | off, (ty, n) :: rest =>
    leBytes 8 (n * 2 ^ 32 + 0xFFFFFF * 256 + ty) ++ leBytes 8 off ++ List.replicate 16 0 ++ dumpEntries (off + n) rest
/-- A directory entry as R204 lays it out. -/
def Dir.word (x : Dir) : Nat := x.owner % 4 * 128 + x.pres.toNat * 8 + x.state % 8
/-- A content entry as R237 of spec/12 lays it out. -/
def CEntry.bytes (e : CEntry) : List Byte :=
  let st := match e.state with
    | .live => 1 | .held => 2 | .reclaiming => 3
  leBytes 16 e.name.toNat ++
    leBytes 8 (st * 2 ^ 62 + (if e.node then 2 ^ 61 else 0) + (if e.pin then 2 ^ 60 else 0) + e.slot / 128 % 2 ^ 45) ++
    leBytes 8 e.ref.toNat
/-- Lines with a request in progress, or on their way from a die's L2 to their home. -/
def State.inTransit (s : State) : List Nat := (s.txns.map (·.line) ++ s.wbs.map (·.2.1)).eraseDups
/-- The sections of the dump with their types, read from the state. What an entry of the sections 2 to 5 holds beside what the spec
names, and the order of entries, are the model's (log 38). -/
def State.dumpSecs (s : State) : List (Nat × List Byte) :=
  let bound := s.fns.flatMap fun e => e.2.queues.map fun q => (e.1, q)
  let queues := bound.flatMap fun x => match s.cpRead x.1 x.2.2.qcb 64 with
    | .ok bs => bs ++ leBytes 8 x.2.2.rdidx.toNat
    | .error _ => []
  let pcs := s.blocks.flatMap fun e => match e.2 with
    | some k =>
      if k.status = .saved then []
      else k.liveThreads.flatMap fun t => leBytes 4 k.core ++ leBytes 4 k.lid.toNat ++ leBytes 8 (k.thr t).pc.toNat
    | none => []
  let dirs := s.inTransit.flatMap fun l => leBytes 8 (l * 128) ++ leBytes 8 (s.dirAt l).word
  let filters := s.filters.flatMap fun e => e.2.flatMap fun x => leBytes 8 (x.1 * 128) ++ leBytes 4 (e.1 / 65536) ++ leBytes 4 x.2
  [(1, s.allChecks.flatMap checkBytes), (2, queues), (3, pcs), (4, dirs), (5, filters), (6, s.content.flatMap CEntry.bytes)]
/-- The dump: header, a directory of six sections, and the sections; the cycle count is free. -/
def State.writeDump (s : State) (cause : Nat) : State :=
  let secs := s.dumpSecs
  let (m0, s) := s.freeWord
  let (m1, s) := s.freeWord
  let head := leBytes 4 0x564E4450 ++ leBytes 4 1 ++ leBytes 4 cause ++ leBytes 4 secs.length ++ leBytes 4 m0.toNat ++
    leBytes 4 m1.toNat ++ List.replicate 232 0
  s.writeHome (bits64 s.dumpBase 51 21 * 2 ^ 21)
    (head ++ dumpEntries (256 + 32 * secs.length) (secs.map fun x => (x.1, x.2.length)) ++ secs.flatMap (·.2))
/-- A fatal error: its record, the stop of every command processor, and the dump. -/
def State.fatal (s : State) (c : Check) : State :=
  let s := s.machineCheck c
  let before := ((List.range (c.die + 1)).flatMap fun d => (s.die d).machineChecks).length
  ({ s with cpStopped := true }).writeDump (32 * (before - 1))

/-- FATAL_DUMP: an error that containment cannot confine to one context. -/
def execFatalDump (die unit index kind : Nat) (s : State) : Host.Outcome State Fault Refusal :=
  finish (if die < 4 then s.fatal { die := die, unit := unit, index := index, sev := 4, kind := kind } else s)

/-! ### Units out of service (spec/01 R17; R409) -/

/-- Blocks of a core that a unit's loss concerns: all, or those with a warp on a partition. -/
def State.blocksAt (s : State) (core : Nat) (part : Option Nat) : List Nat :=
  (s.blocks.filter fun e => match e.2 with
    | some k => k.core = core && k.status ≠ .saved && k.status ≠ .dead && (match part with
        | none => true
        | some p => (List.range k.nwarps).any fun w => k.partOf w = p && k.liveOf w ≠ [])
    | none => false).map (·.1)
/-- What becomes of a block whose unit is lost: a running block dies, a held one is removed, one that was to resume is saved
again, a barista stops. -/
def State.loseUnit (s : State) (b : Nat) : State :=
  let k := s.blk b
  if k.agent then s.dropBlock b
  else
    match k.status with
    | .held => s.unhold b
    | .resuming => s.leaveCore b
    | _ => if k.liveThreads = [] then s else (s.releaseRecords b).killDead b
/-- A core, or a partition of it, takes no new work; what a lost core has stored is in its die's L2 (log 38). -/
def State.loseCore (s : State) (core : Nat) (part : Option Nat) : State :=
  let s := s.updCore core fun c => match part with
    | none => { c with outOfService := true }
    | some p => { c with partsOut := if c.partsOut.contains p then c.partsOut else c.partsOut ++ [p] }
  let s := ((s.blocksAt core part).foldl State.loseUnit s).sweepStops
  if part.isNone then s.emptyCore core else s
/-- UNIT_OUT_OF_SERVICE. -/
def execUnitOutOfService (u : UnitId) (s : State) : Host.Outcome State Fault Refusal :=
  finish (match u with
    | .core c => s.loseCore c none
    | .partition c p => s.loseCore c (some p)
    | .other d x i => { s with unitsOut := if s.unitsOut.contains (d, x, i) then s.unitsOut else s.unitsOut ++ [(d, x, i)] })

/-- HALT_RELEASE: management firmware releases a warp that HALT stopped. -/
def execHaltRelease (b w : Nat) (s : State) : Host.Outcome State Fault Refusal :=
  finish (s.updWarp b w fun x => if x.stopped = some .halted then { x with stopped := none } else x)

end Sys2Proof.Machine
end

