-- ==== Sys2Proof/Machine/Preempt.lean ====
section
/-! DEFINITION. Quanta, context switches, pre-emption, resumption, and the deadlock watchdog (spec/16 R320..R325; spec/11 R226, R229;
spec/13 R275; spec/18 R355; spec/21 R380; spec/22 R393; spec/23 R413). -/
namespace Sys2Proof.Machine

/-! ### A region passes from one context to another (R320; spec/21 R369, R380) -/

def regionCores (region : Nat) : List Nat := (List.range 8).map (8 * region + ·)
/-- Has a share of a launch a block that has not ended and that no core has taken: its ticket is not written or not exhausted, or its
cluster is claimed and not placed? -/
def State.unplaced (s : State) (l : Launch) (x : Share) : Bool :=
  let n := (s.launchDesc l).csize
  let taken := (s.blocksOf l.fn l.lid).map fun b => (s.blk b).q
  (List.range ((x.last - x.first) * n)).any fun j => !l.ended.contains (x.first * n + j) && !taken.contains (x.first * n + j)
/-- Has a context work for a region: a block that is saved, or one of a share of the region's die that is still to be placed? -/
def State.hasWork (s : State) (region fn : Nat) : Bool :=
  let f := s.fn fn
  let saved := s.blocks.any fun e => match e.2 with
    | some k => k.fn = fn && k.status = .saved && k.liveThreads ≠ []
    | none => false
  let open_ := fun (l : Launch) => l.fn = fn && l.ending = .running && l.shares.any fun x => x.die = region / 8 && s.unplaced l x
  f.en && !f.busy && f.regions.getLsbD region && (saved || s.launches.any open_)

/-- The incoming context: its counters go on from where they were frozen, and the cores load its comparators. -/
def State.switchIn (s : State) (region fn : Nat) : State :=
  let s := s.updRegion region fun r => { r with holder := some fn, preempt := false, next := none }
  let bps := (List.range 8).map fun j => (s.fn fn).bps.get {} j
  (regionCores region).foldl
    (fun s c => s.updCore c fun x => { x with offsets := x.offsets.upd 0 fn (· - x.cyc), bps := bps }) s
/-- The outgoing context: its counters are frozen at what they read. -/
def State.switchOut (s : State) (region : Nat) : State :=
  match (s.region region).holder with
  | none => s
  | some fn =>
    let s := (regionCores region).foldl (fun s c => s.updCore c fun x => { x with offsets := x.offsets.upd 0 fn (· + x.cyc) }) s
    s.updRegion region fun r => { r with holder := none, preempt := false, next := none }

/-- QUANTUM_EXPIRY: a region that no context holds goes to one that has work for it; a holder whose quantum has ended gives way to
another context that has. -/
def execQuantumExpiry (region fn : Nat) (s : State) : Host.Outcome State Fault Refusal :=
  let r := s.region region
  if 32 ≤ region || r.preempt || !s.hasWork region fn then finish s
  else
    match r.holder with
    | none => finish (s.switchIn region fn)
    | some h => finish (if h = fn then s else s.updRegion region fun r => { r with preempt := true, next := some fn })

/-! ### Draining and saving (R321, R322) -/

/-- Blocks of a region's holder on its cores, by handle. -/
def State.residents (s : State) (region : Nat) : List Nat :=
  (s.blocks.filter fun e => match e.2 with
    | some k => !k.agent && regionOf k.core = region && (k.status = .running || k.status = .held || k.status = .resuming)
    | none => false).map (·.1)
/-- Has everything of a block completed, or come to rest at a fault that waits for its verdict? -/
def State.parked (s : State) (b : Nat) : Bool :=
  let k := s.blk b
  k.status ≠ .running ||
    (k.pend.all (fun p => !p.ready && p.drain.isNone && (p.log.isSome || p.k.isSome)) && k.landings.all (fun l => l.bytes = 0) &&
      (s.copies.all fun q => q.packet.isSome || q.blk ≠ b || q.stopped || (q.fault.isSome && s.links.all fun l => l.unacked.all fun f =>
        f.1.xid ≠ q.id % 2 ^ 32)) &&
      (s.exports.all fun x => x.blk ≠ b || x.fault.isSome) &&
      !(s.drains.any fun d => d.blk = b) && !(s.reds.any fun r => r.blk = b) && !(s.cctls.any fun f => f.blk = b) &&
      !(s.sflushes.any fun f => f.blk = b) && !(s.dueErrors.any fun e => e.1 = b))
def State.drained (s : State) (region : Nat) : Bool :=
  (s.residents region).all s.parked && !(s.pendReg.any fun x => regionOf x.1 = region)

/-- A thread that waits on memory leaves its queue (spec/18 R355). -/
def Thread.leaveQueue (th : Thread) : Thread :=
  match th.wait with
  | some (.mem va pa op ty v ext _ pd next) => { th with wait := some (.mem va pa op ty v ext 0 pd next) }
  | _ => th
/-- A block leaves its core for the save area, a held one too; one that was to resume has its image there. -/
def State.saveBlock (s : State) (b : Nat) : State :=
  let s := (s.updBlk b fun k => { k with threads := k.threads.map fun e => (e.1, e.2.leaveQueue) }).leaveCore b
  if (s.blk b).saveAt.isSome then s.refreshImage b else s.writeImage b (s.saveEnd (s.blk b).fn)
/-- PREEMPT_REQUEST: issue stops in a region; once its cores have drained, the blocks are saved, the words that the cores own
and their dirty stash lines go back, and the region passes on. -/
def execPreemptRequest (region : Nat) (s : State) : Host.Outcome State Fault Refusal :=
  let r := s.region region
  if r.holder.isNone then finish s
  else if !r.preempt then finish (s.updRegion region fun r => { r with preempt := true })
  else if !s.drained region then finish s
  else
    let s := (s.residents region).foldl State.saveBlock s
    let s := ((regionCores region).foldl State.emptyCore s).switchOut region
    match r.next with
    | some g => finish (if s.hasWork region g then s.switchIn region g else s)
    | none => finish s

/-! ### Resumption (R323; spec/23 R413) -/

/-- What the warps of run j need. -/
def Block.runNeed (k : Block) (j : Nat) : Need :=
  let ws := (List.range k.nwarps).filter fun w => w / 8 = j && k.liveOf w ≠ []
  { slots := ws.length, regs := ws.foldl (fun n w => n + (k.warp w).regs) 0, tiles := ws.foldl (fun n w => n + (k.warp w).tiles) 0,
    accs := (k.runRoles j).foldl (fun n r => n + ((k.roles[r]?).getD {}).acc) 0 }
def Block.needs (k : Block) : List Need := (List.range k.parts.length).map k.runNeed
/-- The ways in which a saved block fits a core. -/
def State.waysBack (s : State) (b core : Nat) : List (List Nat) :=
  let k := s.blk b
  if s.roomFor core (k.scratchSize + k.stashSize) k.groups && !s.memberOn core k.fn k.lid k.ci then placings (s.openOn core) k.needs []
  else []
/-- Cores of a region that a saved block fits. -/
def State.coresFor (s : State) (b region : Nat) : List Nat := (regionCores region).filter fun c => s.waysBack b c ≠ []
/-- Does the region have enough cores for the block's cluster? -/
def State.regionFits (s : State) (b region : Nat) : Bool := decide ((s.members b).length ≤ (s.coresFor b region).length)
/-- May a killed block go to a core: not to the one it was killed on, and not to that core's region, while another takes it? -/
def State.mayReturn (s : State) (b core : Nat) : Bool :=
  match (s.blk b).avoid with
  | none => true
  | some c =>
    let rs := (s.fn (s.blk b).fn).regionList
    if regionOf core ≠ regionOf c then true
    else if rs.any fun r => r ≠ regionOf c && s.regionFits b r then false
    else core ≠ c || !(rs.any fun r => (s.coresFor b r).any fun x => x ≠ c)
/-- Are the members of the cluster that are back, or held, in this region? -/
def State.oneRegion (s : State) (b core : Nat) : Bool :=
  (s.members b).all fun x =>
    let k := s.blk x
    !(k.status = .resuming || k.status = .held) || regionOf k.core = regionOf core

/-- The block's accumulators follow their runs to new partitions. -/
def Block.moveAccs (k : Block) (parts : List Nat) : Map Acc :=
  k.accs.foldl
    (fun (m : Map Acc) e =>
      let p := e.1 / 8
      let j := (k.parts.findIdx? fun x => x = p).getD 0
      m.set {} ((parts[j]?).getD 0 * 8 + e.1 % 8) e.2) []
/-- A block stands on a core again; one that was held is held. -/
def State.putBack (s : State) (b core : Nat) (parts : List Nat) : State :=
  let s := s.restoreImage b
  let slot := s.freeSlot core
  let part := fun w : Nat => (parts[w / 8]?).getD 0
  let s := s.updBlk b fun k =>
    { k with status := if k.fresh then .held else .resuming, core := core, parts := parts, bslot := slot, accs := k.moveAccs parts,
             pend := k.pend.map fun p => { p with part := part p.warp } }
  let s := s.fillGroups b
  { s with
    copies := s.copies.map fun q => if q.packet.isNone && q.blk = b then { q with core := core } else q
    oplog := s.oplog.map fun e => if e.blk = b then { e with part := part e.warp } else e }
/-- BLOCK_RESUME: a saved block is restored on a core of a region that its context holds; its cluster is released when every
member is back (CLUSTER_RELEASE), a block of its own at once. -/
def execBlockResume (b core : Nat) (parts : List Nat) (s : State) : Host.Outcome State Fault Refusal :=
  let k := s.blk b
  let r := s.region (regionOf core)
  let may := k.status = .saved && !k.agent && k.liveThreads ≠ [] && r.holder = some k.fn && !r.preempt &&
    decide (core < 256) && (s.waysBack b core).contains parts && s.oneRegion b core && s.mayReturn b core
  if !may then finish s
  else
    let s := s.putBack b core parts
    finish (if k.clusterSize = 1 then s.releaseCluster (regionOf core) k.lid k.ci [b] else s)

/-! ### The deadlock watchdog (R324, R325) -/

/-- Has a context an access, copy, drain, content operation or landing in flight? A fault that awaits its verdict counts. -/
def State.inFlight (s : State) (fn : Nat) : Bool :=
  let mine := fun b => (s.blk b).fn = fn
  let blocks := s.blocks.any fun e => match e.2 with
    | some k => k.fn = fn && !k.agent && (k.landings.any (fun l => l.bytes ≠ 0) || k.pend.any (fun p => p.ready || p.drain.isSome || p.log.isSome) ||
        s.pendReg.any fun x => x.1 = k.core && k.status = .running)
    | none => false
  blocks || s.copies.any (fun q => q.fn = fn && !q.stopped) || s.exports.any (fun x => x.fn = fn) || s.drains.any (fun d => mine d.blk) ||
    s.reds.any (fun r => mine r.blk) || s.cctls.any (fun f => mine f.blk) || s.sflushes.any (fun f => mine f.blk) ||
    s.oplog.any (fun e => mine e.blk) || s.records.any fun r => r.fn = fn && r.waiter ≠ .none
/-- Holds a queue a packet that the command processor can process? -/
def State.queueBusy (s : State) (fn n : Nat) : Bool :=
  let q := s.queue fn n
  (q.running || q.binding) &&
    (q.fault.isSome || q.binding || match s.fill fn n with
      | .error _ => true
      | .ok f =>
        processable f q.pos && (match q.waits with
          | some _ => match execWaitPacketSatisfied fn n s with
            | .next t => t ≠ s
            | _ => true
          | none => match q.fetched.find? fun e => e.1 = q.pos with
            | some _ => q.held.isSome || !s.stalls fn q
            | none => true))
/-- Holds a carafe an entry of the function that its command processor can process? The entries go in order: none while the first
one waits for a run on its trace buffer. -/
def State.carafeBusy (s : State) (fn die : Nat) : Bool :=
  let l := (s.die die).carafe
  let stuck := match l with
    | e :: _ => (match s.beginLaunch e.ask e.held { sig := none, tag := 0, queue := none } with
      | (.busy, _) => true
      | _ => false)
    | [] => true
  l.any (fun e => e.fn = fn) && !stuck
/-- Does a block of the context await a placement where it would fit? -/
def State.awaitsPlace (s : State) (fn : Nat) : Bool :=
  let rs := (s.fn fn).regionList.filter fun r => (s.region r).holder = some fn
  let saved := s.blocks.any fun e => match e.2 with
    | some k => k.fn = fn && k.status = .saved && k.liveThreads ≠ [] && rs.any fun r => s.regionFits e.1 r
    | none => false
  saved || s.launches.any fun l =>
    let d := s.launchDesc l
    let gs := groupMasks (s.readPA (l.snap + 0x100) 64)
    let placed := (s.blocksOf l.fn l.lid).filter fun b => (s.blk b).status ≠ .dead
    l.fn = fn && l.ending = .running && decide (l.ended.length + placed.length < l.clusters.length * d.csize) &&
      rs.any fun r => decide (d.csize ≤ ((regionCores r).filter fun c => s.waysOn c d gs ≠ []).length)
/-- The condition under which the watchdog of a context fires. -/
def State.deadlocked (s : State) (fn : Nat) : Bool :=
  let ws := s.fnWarps fn
  ws ≠ [] && !(s.stops.any fun x => x.1 = fn) && ws.all (fun x => s.warpWaits x.1 x.2 && !s.warpExternal x.1 x.2) && !s.inFlight fn &&
    ((s.fn fn).queues.all fun q => !s.queueBusy fn q.1 && q.2.waits ≠ some true) &&
    ((List.range 4).all fun d => !s.carafeBusy fn d) && !s.awaitsPlace fn
/-- DEADLOCK_WATCHDOG: every waiting thread of the context raises DEADLOCK at launch level. -/
def execDeadlockWatchdog (fn : Nat) (s : State) : Host.Outcome State Fault Refusal :=
  if !s.deadlocked fn then finish s
  else
    finish ((s.fnWarps fn).foldl
      (fun s x => ((s.blk x.1).liveOf x.2).foldl
        (fun s t => s.raiseAt x.1 t (s.thr x.1 t).pc cDEADLOCK .free) s) s)

end Sys2Proof.Machine
end

