-- ==== Sys2Proof/Machine/Faults.lean ====
section
/-! DEFINITION. Fault records, verdicts, replay, bounced atomics, shoot-downs and function-level reset (spec/21 R374..R381, R444..R446;
spec/22 R392; spec/17 R341; spec/16 R309). -/
namespace Sys2Proof.Machine

/-! ### Replay (spec/21 R378, R444) -/

/-- Does the instruction write its result when it completes, and not at issue? -/
def longLat : Instr → Bool
  | .ld .. | .lds .. | .atom .. | .caswap .. | .expld .. => true
  | _ => false
/-- Is the instruction one whose faults concern it whole: CMPST and EXPLD by their element, and operations of a declared set? -/
def wholeFault (i : Instr) : Bool :=
  (convReg i).isSome || (match i with
    | .cmpst .. | .expld .. => true
    | _ => false)
def instrHdr (i : Instr) : Hdr := ((uses i).map (·.h)).getD { g := 7, neg := false, u := false, la := 0 }

def State.dropLog (s : State) (id : Nat) : State := { s with oplog := s.oplog.filter fun e => e.id ≠ id }
/-- What runs over the faulted operands of a memory instruction once more leaves: threads that are done leave the pending
instruction `p`, threads that fault again have new records. -/
def State.replayOps (s : State) (e : LogEntry) (p : Pending) : State :=
  let h := instrHdr e.instr
  let b := e.blk
  let all := p.thrs.map (·.1)
  let spread := fun (t : Nat) => if h.u then all else [t]
  let next := (e.ctx (s.blk b) all).next
  let (r, s) := s.runOps
    (fun s o =>
      let k := s.blk b
      if s.overtakes b o.thr (k.usedOf p.id o.thr) (k.ranges e.warp e.instr o) then (.stall, s) else s.memOp b e.instr next o) e.ops
  let vals := r.done.flatMap fun x => (spread x.1).map fun t => (t, x.2)
  let tag : Tag := if h.u then .u else .g
  let left := (r.page.map (·.1) ++ r.stall).flatMap spread
  let s := r.exc.foldl (fun s x => s.raiseAll b (spread x.1) e.pc x.2.1 x.2.2) s
  let (ws, s) := s.recordFaults b e.id (accKind e.instr) r.page
  let s := if left = [] then (s.dropPend b p.id).dropLog e.id
    else
      let stay := fun (x : LogEntry) =>
        { x with ops := e.ops.filter fun o => left.contains o.thr, waiting := ws, held := false }
      let s := { s with oplog := s.oplog.map fun (x : LogEntry) => if x.id = e.id then stay x else x }
      s.updPend b p.id fun p => { p with thrs := p.thrs.filter fun x => left.contains x.1 }
  if vals = [] then s
  else if longLat e.instr then
    let (id, s) := s.newId
    let q : Pending :=
      { p with id := id, thrs := p.thrs.filter (fun x => vals.any fun v => v.1 = x.1), result := .regs p.dst p.w vals tag,
               ready := true, log := none }
    s.updBlk b fun k => { k with pend := k.pend ++ [q] }
  else (s.updBlk b fun k => k.putDst e.warp p.w p.dst vals tag).advance b (vals.map (·.1)) next

/-- An entry that found the log full has room now: the warp goes on. -/
def State.unstopLog (s : State) (b w : Nat) : State :=
  s.updWarp b w fun x => if x.stopped = some .logFull then { x with stopped := none } else x
/-- One entry runs again. -/
def State.replay (s : State) (e : LogEntry) (p : Pending) : State :=
  let thrs := p.thrs.map (·.1)
  let c := e.ctx (s.blk e.blk) thrs
  match e.instr with
  | .cmpst h .. | .expld h .. => (s.dropLog e.id).elemsDone c e.instr h e.ops e.start (some p.id)
  | .cpld _ ty d _ cq _ =>
    if (s.blk e.blk).cqFits e.warp cq (ty.bytes * thrs.length) then (s.dropLog e.id).cpldRun c e.instr ty d cq e.ops (some p.id)
    else s
  | i =>
    if (convReg i).isSome then
      if s.convBlocked e.blk e.warp e.id then s else s.convPerform e.blk p.id thrs e
    else s.replayOps e p
/-- The threads of an operand-log entry whose record received fail raise, and leave the entry. -/
def State.failLog (s : State) (e : LogEntry) : State :=
  match (s.blk e.blk).pend.find? fun p => p.log = some e.id with
  | none => s.dropLog e.id
  | some p =>
    let all := p.thrs.map (·.1)
    let code := (e.failed.head?.map (·.2)).getD 0
    if wholeFault e.instr then
      let aux : Aux := if (convReg e.instr).isSome then .free else .low (BitVec.ofNat 32 e.start)
      (((s.dropPend e.blk p.id).dropLog e.id).raiseAll e.blk all e.pc code aux).refreshImage e.blk
    else
      let out := if (instrHdr e.instr).u then all.map fun t => (t, code) else e.failed
      (out.foldl (fun s x => s.raiseAt e.blk x.1 e.pc x.2 .free) (s.leaveLog e.blk (out.map (·.1)) p e.id)).refreshImage e.blk
/-- FAULT_REPLAY: an entry of the operand log all of whose records have a verdict: the threads whose record received fail
raise, and it is replayed for the others; one that found the log full
waits for room. -/
def execFaultReplay (id : Nat) (s : State) : Host.Outcome State Fault Refusal :=
  match s.oplog.find? fun e => e.id = id with
  | none => finish s
  | some e =>
    let k := s.blk e.blk
    let full := e.held && (k.warp e.warp).stopped = some .logFull && s.logFull e.blk e.warp
    if k.status ≠ .running || e.waiting ≠ [] || full then finish s
    else
      let s := if e.failed = [] then s else s.failLog e
      match s.oplog.find? (fun x => x.id = id), (s.blk e.blk).pend.find? fun p => p.log = some id with
      | some e, some p => finish ((if e.held then s.unstopLog e.blk e.warp else s).replay e p)
      | _, _ => finish (s.dropLog id)

/-! ### Verdicts (R377, R444, R445; spec/22 R392) -/

/-- The verdict on a record of faulted threads of an operand-log entry. -/
def State.verdictLog (s : State) (r : Record) (id : Nat) (retry : Bool) : State :=
  match s.oplog.find? fun e => e.id = id with
  | none => s
  | some e =>
    let ts := (e.waiting.filter fun w => w.2 = r.id).map (·.1)
    let e := { e with
      waiting := e.waiting.filter fun w => w.2 ≠ r.id
      failed := if retry then e.failed else e.failed ++ ts.map fun t => (t, failCode r.cause) }
    let s := { s with oplog := s.oplog.map fun x => if x.id = id then e else x }
    let failed := e.failed.map (·.1)
    if e.waiting = [] && (s.blk e.blk).pend.all fun p => p.log ≠ some id || p.thrs.all fun x => failed.contains x.1 then s.failLog e
    else s
/-- The verdict on a copy, or a content copy-out, that waits. -/
def State.verdictCopy (s : State) (r : Record) (id : Nat) (retry : Bool) : State :=
  match s.copies.find? fun q => q.id = id, s.exports.find? fun x => x.id = id with
  | some q, _ =>
    if q.fault ≠ some r.id then s
    else if retry then s.updCopy id fun q => { q with fault := none }
    else s.stopCopy q (failCode r.cause) q.off
  | none, some x =>
    if x.fault ≠ some r.id then s
    else if retry then { s with exports := s.exports.map fun e => if e.id = id then { e with fault := none } else e }
    else s.exportStop x (.exc (failCode r.cause) .free)
  | none, none => s
/-- The threads of a TRAP go on with its verdict. -/
def State.verdictTrap (s : State) (r : Record) (b : Nat) (ts : List Nat) (retry : Bool) : State :=
  ts.foldl
    (fun s t => match (s.thr b t).wait with
      | some (.trap id pd next) =>
        if id = r.id && (s.thr b t).raised.isNone then (s.updThr b t fun th => { th.setPred pd retry with wait := none }).advance b [t] next else s
      | _ => s) s
/-- A launch whose completion waits. -/
def State.verdictComplete (s : State) (r : Record) (fn : Nat) (lid : Word) (retry : Bool) : State :=
  match s.launchOf fn lid with
  | none => s
  | some l =>
    if l.fault ≠ some r.id then s
    else if retry then (s.updLaunch fn lid fun l => { l with fault := none }).syncQueues fn
    else
      match l.trace with
      | some t => match s.closeHeader l t with
        | .error _ => s.failHeader l
        | .ok _ => s.failRecord l
      | none => s.failRecord l
/-- What waits for a record goes on, or fails. -/
def State.resolve (s : State) (r : Record) (retry : Bool) : State :=
  let s := { s with records := s.records.filter fun x => x.id ≠ r.id }
  match r.waiter with
  | .log id _ => s.verdictLog r id retry
  | .fetch b ts =>
    if retry then s
    else ts.foldl (fun s t => s.raiseAt b t (s.thr b t).pc (failCode r.cause) .free) s
  | .copy id => s.verdictCopy r id retry
  | .trap b ts => s.verdictTrap r b ts retry
  | .stop b w => s.updWarp b w fun x => if x.stopped = some (.debug r.id) then { x with stopped := none } else x
  | .queue fn n =>
    if (s.queue fn n).fault ≠ some r.id then s
    else if retry then (s.updQueue fn n fun q => { q with fault := none }).syncQueues fn
    else s.accessError fn n r.w0
  | .carafe die =>
    match (s.die die).carafe with
    | e :: _ =>
      if e.fault ≠ some r.id then s
      else if retry then s.headCarafe die fun e => { e with fault := none }
      else s.refuseCarafe die e
    | [] => s
  | .complete fn lid => s.verdictComplete r fn lid retry
  | .post id =>
    match s.posts.find? fun p => p.id = id with
    | none => s
    | some p =>
      let s := { s with posts := s.posts.filter fun x => x.id ≠ id }
      if retry then s.post p.fn p.va p.bytes else s
  | .trace b => if retry then s else s.failTrace b
  | .none => s

/-- Is the frame of a function's fault queue in transit? -/
def State.fqTransit (s : State) (fn : Nat) : Bool :=
  match s.stage2 fn (bits64 (s.fn fn).fqBase 51 12 * 4096) with
  | .error .transit => true
  | _ => false
/-- A fault queue's base has been written: records that wait for it fail at once where it is not valid (R377). -/
def State.recheckRecords (s : State) (fn : Nat) : State :=
  if s.fqTransit fn || s.fqValid fn then s
  else (s.records.filter fun r => r.queue = fn && r.index.isNone).foldl
    (fun s r => if s.records.any fun x => x.id = r.id then s.resolve r false else s) s
/-- FAULT_RECORD_WRITE: the `i`-th record is written at PROD when its queue has room; a queue that is not valid fails the
fault at once. -/
def execFaultRecordWrite (i : Nat) (s : State) : Host.Outcome State Fault Refusal :=
  match s.records[i]? with
  | none => finish s
  | some r =>
    let f := s.fn r.queue
    let n := bits64 f.fqBase 3 0
    if r.index.isSome || s.fqTransit r.queue then finish s
    else if !s.fqValid r.queue then finish (s.resolve r false)
    else if f.fqProd - f.fqCons = BitVec.ofNat 32 (2 ^ n) then finish s
    else
      match s.stage2 r.queue (bits64 f.fqBase 51 12 * 4096 + f.fqProd.toNat % 2 ^ n * 32) with
      | .ok (pa, true, _) =>
        let s := s.writeHome pa
          (leBytes 8 r.w0.toNat ++ leBytes 8 r.w1.toNat ++ leBytes 8 r.w2.toNat ++ leBytes 8 r.w3.toNat)
        let s := s.updFn r.queue fun f => { f with fqProd := f.fqProd + 1 }
        let s := { s with records := s.records.modify i fun r => { r with index := some f.fqProd } }
        finish (s.irq r.queue 0)
      | .error .transit => finish s
      | _ => finish (s.resolve r false)

/-- A write of FQ_RESP with a verdict on the record of an index. -/
def State.verdict (s : State) (fn : Nat) (index : Word) (retry : Bool) : State :=
  if s.bootState ≠ 2 then s
  else
    let v : DWord := addr ((if retry then 1 else 2) * 2 ^ 32 + index.toNat)
    let s := s.updFn fn fun f => { f with fqResp := v }
    match s.records.find? fun r => r.queue = fn && r.index = some index with
    | some r => s.resolve r retry
    | none => s
def execVerdictRetry (fn : Nat) (index : Word) (s : State) : Host.Outcome State Fault Refusal := finish (s.verdict fn index true)
def execVerdictFail (fn : Nat) (index : Word) (s : State) : Host.Outcome State Fault Refusal := finish (s.verdict fn index false)

/-! ### Frames that move (R379) -/

/-- MOVED_BOUNCE: an atomic that a thread sent with a translation of a frame in transit comes back: the thread is to walk
again. -/
def execMovedBounce (b thr : Nat) (s : State) : Host.Outcome State Fault Refusal :=
  match (s.thr b thr).lastPage with
  | none => finish s
  | some x => match s.walk x.fn x.va with
    | .transit => finish (s.updThr b thr fun th => { th with lastPage := none })
    | _ => finish s

/-! ### Shoot-downs (R374, R375) -/

/-- Removes matching entries from every translation cache. -/
def State.dropXlat (s : State) (p : Xlat → Bool) : State :=
  let out := fun (l : List Xlat) => l.filter fun x => !p x
  let keep := fun (o : Option Xlat) => o.filter fun x => !p x
  { s with
    cores := s.cores.map fun e => (e.1, { e.2 with tlb := out e.2.tlb })
    regions := s.regions.map fun e => (e.1, { e.2 with tlb := out e.2.tlb })
    dies := s.dies.map fun e => (e.1, { e.2 with tlb := out e.2.tlb })
    blocks := s.blocks.map fun e => (e.1, e.2.map fun k =>
      { k with threads := k.threads.map fun t => (t.1, { t.2 with lastPage := keep t.2.lastPage }) }) }
/-- A write of SD_CTL that sets GO: ignored while one is in progress. Only the physical function sets FN. -/
def State.shootdown (s : State) (fn kind : Nat) (v : DWord) (p : State → Xlat → Bool) : State :=
  if s.bootState ≠ 2 || (s.fn fn).sdGo then s
  else
    let s := s.updFn fn fun f => { f with sdKind := kind, sdGo := true, sdFrame := bits64 f.sdAddr 51 21, sdFn := if fn = 0 then bits64 v 15 8 else f.sdFn }
    s.dropXlat (p s)
def execShootdownPage (fn : Nat) (v : DWord) (s : State) : Host.Outcome State Fault Refusal :=
  finish (s.shootdown fn 0 v fun s x => x.holds fn ((s.fn fn).sdAddr.toNat % 2 ^ 57) || x.holds fn (s.fn fn).sdAddr.toNat)
def execShootdownAll (fn : Nat) (v : DWord) (s : State) : Host.Outcome State Fault Refusal :=
  finish (s.shootdown fn 1 v fun _ x => x.fn = fn)
/-- SHOOTDOWN_FRAME: by the physical function alone. An entry does not tell its guest frame: every entry of the target
function goes (log 23). -/
def execShootdownFrame (fn : Nat) (v : DWord) (s : State) : Host.Outcome State Fault Refusal :=
  finish (if fn = 0 then s.shootdown fn 2 v fun _ x => x.fn = bits64 v 15 8 else s)

/-- The physical frame that a second-stage entry names, in transit or not. -/
def State.frameOf (s : State) (fn g : Nat) : Option Nat :=
  let f := s.fn fn
  let e := s.num (bits64 f.s2base 51 12 * 4096 + 8 * (g / 0x200000)) 8
  if fn = 0 then some (g / 0x200000) else if e % 2 = 0 then none else some (field e 51 21)
/-- Does an access land in a physical frame? -/
def Place.inFrame (p : Place) (frame : Option Nat) : Bool :=
  match p with
  | .mem pa _ => frame = some (pa / 0x200000)
  | .scratch .. => false
/-- SHOOTDOWN_COMPLETE: once accesses with captured translations have completed, and for a frame its dirty and owned bytes are
home and the atomics that its home has accepted are applied, SEQ advances and GO clears. -/
def execShootdownComplete (fn : Nat) (s : State) : Host.Outcome State Fault Refusal :=
  let f := s.fn fn
  let target := if f.sdKind = 2 then f.sdFn else fn
  let mine := fun b => (s.blk b).fn = target
  let frame := if f.sdKind = 2 then s.frameOf target (f.sdFrame * 0x200000) else none
  let busy := s.hostQ ≠ [] || s.reds.any (fun r => mine r.blk || r.place.inFrame frame) || s.drains.any (fun d => mine d.blk) ||
    s.pendReg.any fun x => (s.region (regionOf x.1)).holder = some target || frame = some (x.2 / 0x80000)
  if !f.sdGo || busy then finish s
  else
    let s := match frame with
      | some q => s.writeBackLines fun line => line / 16384 = q
      | none => s
    finish (s.updFn fn fun f => { f with sdSeq := f.sdSeq + 1, sdGo := false })

/-! ### The end of a function's work (R381, R446; R368) -/

/-- The record of a launch that a reset ends. -/
def resetRec (lid : Word) : Rec := { code := cFNRESET, lid := lid, level := 2 }
/-- Blocks of a launch end without a catch and without a commit. -/
def State.endBlock (s : State) (b : Nat) : State :=
  let k := s.blk b
  let s := if k.unreleased || k.status = .dead then s else s.cancelThreads b k.liveThreads
  let s := s.updBlk b fun k => { k with buf := [], merges := [], tagBuf := [] }
  let s := ((s.undoJournal b).dropWork b).releaseRecords b
  let s := s.dropLines k.core (s.smapLines b)
  let s := if k.unreleased || k.notice then s else s.occNotice k.core
  s.dropBlock b
/-- A launch ends with FNRESET; a completion record that a fault keeps from being written is left out, and one whose frame is in transit
is written later (R446; log 37). -/
def State.endLaunch (s : State) (l : Launch) : State :=
  let s := (s.blocksOf l.fn l.lid).foldl State.endBlock s
  let s := s.exhaust l
  let s := match l.sigAddr with
    | none => s
    | some a => match s.cpWrite l.fn a (recordBytes 2 l.tag (some (resetRec l.lid))) with
      | .ok s => s
      | .error .stall => s.post l.fn a (recordBytes 2 l.tag (some (resetRec l.lid)))
      | .error _ => s
  s.dropLaunch l
/-- Every launch of a function ends, its carafe entries, copies and waiting records go, and its regions are returned. Of its completion
records those stay that wait for a frame in transit. -/
def State.endFunction (s : State) (fn : Nat) : State :=
  let s := (s.launches.filter fun l => l.fn = fn).foldl State.endLaunch s
  let s := (s.copies.filter fun q => q.fn = fn).foldl (fun s q => s.dropFrames (q.id % 2 ^ 32)) s
  let s := { s with
    copies := s.copies.filter fun q => q.fn ≠ fn
    posts := s.posts.filter fun p => p.fn ≠ fn || !s.records.any fun r => r.waiter = .post p.id
    records := s.records.filter fun r => r.fn ≠ fn
    stops := s.stops.filter fun x => x.1 ≠ fn
    stopping := s.stopping.filter fun x => x.1 ≠ fn
    dies := s.dies.map fun e => (e.1, { e.2 with carafe := e.2.carafe.filter fun c => c.fn ≠ fn }) }
  ((List.range 32).filter fun r => (s.region r).holder = some fn).foldl State.switchOut s
/-- Have the work of a function's blocks and its pending stores come to the point where they can end? -/
def State.fnSettled (s : State) (fn : Nat) : Bool :=
  s.settled (s.blocks.filterMap fun e => match e.2 with
    | some k => if k.fn = fn && !k.agent then some (e.1, k.liveThreads) else none
    | none => none)

/-- Every queue of a function is disabled. -/
def State.disableQueues (s : State) (fn : Nat) : State :=
  let s := ((s.fn fn).queues.map (·.1)).foldl (fun s n => s.unbindQueue fn n) s
  s.updFn fn fun f => { f with queues := [], notify := [] }
/-- What is in progress for a function goes on: its launches end and their completion records are written; then the translation page is
zeroed (FLR), or EN clears. The debug
page and the receive registers keep their values, since R381 names neither (DESIGN CHOICE, log 37). -/
def State.endStep (s : State) (fn : Nat) : State :=
  let f := s.fn fn
  if f.ending = 0 || !s.fnSettled fn then s
  else
    let s := s.endFunction fn
    let close := fun s : State => s.updFn fn fun f => { f with ending := 0, busy := false, en := if 2 ≤ f.ending then false else f.en }
    if s.posts.any fun p => p.fn = fn then s
    else if f.ending % 2 = 0 then close s
    else
      ((close s).updFn fn fun f =>
        { f with s1root := 0, sdAddr := 0, sdSeq := 0, sdFn := 0, sdKind := 0, sdGo := false, fqBase := 0, fqCons := 0, fqProd := 0,
                 fqResp := 0, flrDone := true }).irq fn 2
/-- FLR: the quiesce point, and, as a later step, the end. -/
def execFlr (fn : Nat) (s : State) : Host.Outcome State Fault Refusal :=
  if 64 < fn then finish s
  else if (s.fn fn).ending % 2 = 1 then finish (s.endStep fn)
  else
    finish ((s.disableQueues fn).updFn fn fun f =>
      { f with busy := true, quiesced := true, flrDone := false, ending := f.ending + 1 })

end Sys2Proof.Machine
end

