-- ==== Sys2Proof/Machine/Registers.lean ====
section
/-! DEFINITION. The register space of the functions: windows, vaults, partitions, translation, debug and receive registers
(spec/00 R5, R6; spec/06 R122..R124; spec/12 R233, R234; spec/17 R327, R328; spec/21 R368, R374; spec/22 R394; spec/27 R432..R434,
R438, R440). -/
namespace Sys2Proof.Machine

/-- The bits of a register that a mask names take a written value; the others keep theirs. -/
def mergeBits (old v mask : DWord) : DWord := (old &&& ~~~mask) ||| (v &&& mask)
/-- Bits hi..lo. -/
def bitsMask (hi lo : Nat) : DWord := addr (2 ^ (hi + 1) - 2 ^ lo)
/-- A control register with a W1C bit 1: a 1 written there clears it. -/
def clearOnes (ctl v : DWord) : DWord := if bitAt v 1 then setBits64 ctl 1 1 0 else ctl
/-- Do registers answer (spec/27 R440)? -/
def State.regsUp (s : State) : Bool := s.bootState = 2
/-- Makes a range of memory read 0. -/
def State.zeroRange (s : State) (pa n : Nat) : State := if inDevice pa n then { s with mem := Map.clear s.mem pa n } else { s with hole := true }

/-! ### Roast windows (spec/06 R122..R124) -/

def State.updRoast (s : State) (n : Nat) (f : Roast → Roast) : State := { s with roasts := s.roasts.upd {} n f }
def Roast.bytes (w : Roast) : Nat := w.last + 1 - w.first
/-- Is a window valid (R123)? -/
def State.roastOk (s : State) (n : Nat) (w : Roast) : Bool :=
  let others := (List.range 32).filter fun j => j ≠ n && (s.roast j).en
  (Narrow.of w.desc).valid && decide (w.first ≤ w.last) &&
    (others.all fun j =>
      let x := s.roast j
      !rangesMeet w.first w.bytes x.first x.bytes && !(x.scaled && rangesMeet w.first w.bytes x.sbase x.scaleBytes)) &&
    (!w.scaled || ((w.sblk = 5 || w.sblk = 6) && decide (128 ≤ 6 * w.blockBytes)))
/-- ROAST_ENABLE: a write of ROAST_CTL with EN = 1. BASE is not written while the window is enabled. That an accepted enable of any
unit clears CFGERR is read from the field's meaning (DEDUCED, log 49). -/
def execRoastEnable (n : Nat) (v : DWord) (s : State) : Host.Outcome State Fault Refusal :=
  let w := s.roast n
  if !s.regsUp || 32 ≤ n then finish s
  else if w.en then finish (s.updRoast n fun w => { w with ctl := clearOnes w.ctl v })
  else
    let w := { w with ctl := mergeBits (clearOnes w.ctl v) v (bitsMask 51 16) }
    finish (s.updRoast n fun _ =>
      if s.roastOk n w then { w with ctl := setBits64 w.ctl 1 0 1 } else { w with ctl := setBits64 w.ctl 1 0 2 })
/-- ROAST_DISABLE: a write of EN = 0 starts the disable of an enabled window; of another it writes the fields. -/
def execRoastDisable (n : Nat) (v : DWord) (s : State) : Host.Outcome State Fault Refusal :=
  let w := s.roast n
  if !s.regsUp || 32 ≤ n then finish s
  else if w.en then finish (s.updRoast n fun w => { w with ctl := setBits64 (clearOnes w.ctl v) 2 2 1 })
  else finish (s.updRoast n fun w => { w with ctl := mergeBits (clearOnes w.ctl v) v (bitsMask 51 16) })
/-- ROAST_DISABLE_DONE: every line of the window is back with its scales, from the LLC too, and has no side tag; EN and BUSY clear
together. -/
def execRoastDisableDone (n : Nat) (s : State) : Host.Outcome State Fault Refusal :=
  let w := s.roast n
  if !bitAt w.ctl 2 then finish s
  else
    let inside := fun (line : Nat) => decide (w.first ≤ line * 128) && decide (line * 128 ≤ w.last)
    let s := s.writeBackLines inside
    let s := (s.sideTags.filter fun e => inside e.1).foldl (fun s e => s.tagBack e.1) s
    let s := { s with sideTags := s.sideTags.filter (fun e => !inside e.1), llc := s.llc.filter fun e => !inside e.1 }
    finish (s.updRoast n fun w => { w with ctl := setBits64 (setBits64 w.ctl 2 2 0) 0 0 0 })

/-! ### Watch windows (spec/17 R327, R328) -/

def Watch.bytes (w : Watch) : Nat := w.last + 1 - w.first
def Watch.mapAll (w : Watch) : Nat := 2 * w.mapBytes
def State.watchOk (s : State) (n : Nat) (w : Watch) : Bool :=
  let others := (List.range 32).filter fun j => j ≠ n && (s.watch j).en
  decide (w.first ≤ w.last) && others.all fun j =>
    let x := s.watch j
    !rangesMeet w.first w.bytes x.first x.bytes && !rangesMeet (w.mapAt 0) w.mapAll x.first x.bytes &&
      !rangesMeet (w.mapAt 0) w.mapAll (x.mapAt 0) x.mapAll
/-- WATCH_ENABLE: both maps are zeroed and GEN advances; one that is accepted clears CFGERR (log 49). -/
def execWatchEnable (n : Nat) (v : DWord) (s : State) : Host.Outcome State Fault Refusal :=
  let w := s.watch n
  if !s.regsUp || 32 ≤ n then finish s
  else if w.en then finish (s.updWatch n fun w => { w with ctl := clearOnes w.ctl v })
  else
    let w := { w with ctl := mergeBits (clearOnes w.ctl v) v (bitsMask 51 16) }
    if s.watchOk n w then
      let s := s.zeroRange (w.mapAt 0) w.mapAll
      finish (s.updWatch n fun _ => { w with ctl := setBits64 w.ctl 1 0 1, gen := w.gen + 1 })
    else finish (s.updWatch n fun _ => { w with ctl := setBits64 w.ctl 1 0 2 })
/-- WATCH_DISABLE: a write of EN = 0 clears EN, and GEN advances, whether the window was enabled or not. -/
def execWatchDisable (n : Nat) (v : DWord) (s : State) : Host.Outcome State Fault Refusal :=
  let w := s.watch n
  if !s.regsUp || 32 ≤ n then finish s
  else if w.en then finish (s.updWatch n fun w => { w with ctl := setBits64 (clearOnes w.ctl v) 0 0 0, gen := w.gen + 1 })
  else finish (s.updWatch n fun w => { w with ctl := mergeBits (clearOnes w.ctl v) v (bitsMask 51 16), gen := w.gen + 1 })

/-! ### Vaults (spec/12 R233, R234) -/

def State.updVault (s : State) (n : Nat) (f : Vault → Vault) : State := { s with vaults := s.vaults.upd {} n f }
def Vault.first (x : Vault) : Nat := bits64 x.ctl 51 21 * 0x200000
def Vault.bytes (x : Vault) : Nat := 4 * x.qf * 0x200000
/-- Is an enable accepted? Every frame of quarter d is near-homed on die d (spec/10 R191). -/
def State.vaultOk (s : State) (n : Nat) (x : Vault) : Bool :=
  let near := fun (frame d : Nat) =>
    let e := (s.byte (bits64 s.homeTab 51 16 * 65536 + frame)).toNat
    decide (128 ≤ e) && e % 4 = d
  decide (2 ≤ x.qf) && decide (1 ≤ x.ixq) && decide (x.ixq < x.qf) &&
    ((List.range 4).all fun d => (List.range x.qf).all fun j => near (x.first / 0x200000 + d * x.qf + j) d) &&
    ((List.range 256).all fun j => j = n || j = 0 || !bitAt (s.vault j).ctl 0 ||
      !rangesMeet x.first x.bytes (s.vault j).first (s.vault j).bytes) &&
    (List.range 32).all fun j =>
      let w := s.roast j
      !w.en || (!rangesMeet x.first x.bytes w.first w.bytes && !(w.scaled && rangesMeet x.first x.bytes w.sbase w.scaleBytes))
/-- Fields of VAULT_CTL that a write sets while the vault is disabled, and KEYGEN. -/
def vaultCtl (ctl v : DWord) (en : Bool) : DWord :=
  let c := clearOnes ctl v
  let c := if en then c else mergeBits c v (bitsMask 51 21 ||| bitsMask 15 8)
  if bitAt v 3 then setBits64 c 3 3 1 else c
/-- VAULT_ENABLE: an accepted enable sets BUSY and zeroes the index. While one is in progress, or a disable, a write changes the fields
alone (log 39); one that is accepted clears CFGERR (log 49). -/
def execVaultEnable (n : Nat) (v : DWord) (s : State) : Host.Outcome State Fault Refusal :=
  let x := s.vault n
  if !s.regsUp || n = 0 || 256 ≤ n then finish s
  else
    let c := vaultCtl x.ctl v (bitAt x.ctl 0)
    let y := { x with ctl := c }
    if bitAt x.ctl 0 || bitAt x.ctl 2 then finish (s.updVault n fun _ => y)
    else if !s.vaultOk n y then finish (s.updVault n fun _ => { y with ctl := setBits64 c 1 1 1 })
    else
      let s := (List.range 4).foldl
        (fun s d => s.zeroRange (y.first + d * y.qf * 0x200000) (y.ixq * 0x200000)) s
      finish ({ s with content := s.content.filter fun e => nameVid e.name ≠ n }.updVault n fun _ =>
        { y with ctl := setBits64 c 2 1 2 })
/-- VAULT_ENABLE_DONE: a key is generated where one is due, BUSY clears, and EN is set. -/
def execVaultEnableDone (n : Nat) (s : State) : Host.Outcome State Fault Refusal :=
  let x := s.vault n
  if !bitAt x.ctl 2 || bitAt x.ctl 0 then finish s
  else
    finish (s.updVault n fun x =>
      { x with keys := if bitAt x.ctl 3 || x.keys = 0 then x.keys + 1 else x.keys,
               ctl := setBits64 (setBits64 (setBits64 x.ctl 3 3 0) 2 2 0) 0 0 1 })
/-- Has a vault a content operation that was accepted and has not completed? -/
def State.vaultBusy (s : State) (n : Nat) : Bool := s.exports.any fun x => x.held.any fun h => nameVid h = n
/-- VAULT_DISABLE: BUSY is set; once every content operation that was accepted has completed, in this event again, EN and BUSY clear, and
every name of the vault is unknown. -/
def execVaultDisable (n : Nat) (v : DWord) (s : State) : Host.Outcome State Fault Refusal :=
  let x := s.vault n
  if !s.regsUp || n = 0 || 256 ≤ n then finish s
  else
    let c := vaultCtl x.ctl v (bitAt x.ctl 0)
    if !bitAt x.ctl 0 then finish (s.updVault n fun x => { x with ctl := c })
    else if !bitAt x.ctl 2 then finish (s.updVault n fun x => { x with ctl := setBits64 c 2 2 1 })
    else if s.vaultBusy n then finish (s.updVault n fun x => { x with ctl := c })
    else
      finish ({ s with content := s.content.filter fun e => nameVid e.name ≠ n }.updVault n fun x =>
        { x with ctl := setBits64 (setBits64 c 2 2 0) 0 0 0 })

/-! ### Partitions (spec/21 R368) -/

/-- Does a region of a mask belong to another enabled function? -/
def State.regionTaken (s : State) (n : Nat) (mask : Word) : Bool :=
  (List.range 65).any fun j => j ≠ n && (s.fn j).en && (s.fn j).regions &&& mask ≠ 0
/-- PART_ENABLE: refused when a region belongs to another enabled function; one that is accepted clears CFGERR (log 49). -/
def execPartEnable (n : Nat) (v : DWord) (s : State) : Host.Outcome State Fault Refusal :=
  let f := s.fn n
  let err := f.cfgErr && !bitAt v 1
  if !s.regsUp || 64 < n then finish s
  else if f.en then finish (s.updFn n fun f => { f with cfgErr := err })
  else
    let mask : Word := BitVec.ofNat 32 (bits64 v 63 32)
    if s.regionTaken n mask then finish (s.updFn n fun f => { f with regions := mask, cfgErr := true })
    else finish (s.updFn n fun f => { f with regions := mask, cfgErr := false, en := true })
/-- PART_DISABLE: every launch of the function ends; then EN clears. -/
def execPartDisable (n : Nat) (v : DWord) (s : State) : Host.Outcome State Fault Refusal :=
  let f := s.fn n
  let err := f.cfgErr && !bitAt v 1
  if !s.regsUp || 64 < n then finish s
  else if !f.en then finish (s.updFn n fun f => { f with regions := BitVec.ofNat 32 (bits64 v 63 32), cfgErr := err })
  else
    let s := s.updFn n fun f => { f with cfgErr := err, busy := true, ending := if f.ending < 2 then f.ending + 2 else f.ending }
    finish (s.endStep n)

/-! ### Plain registers -/

/-- Registers of a partition block at an offset of function n. -/
def State.writePart (s : State) (n off : Nat) (v : DWord) : Host.Outcome State Fault Refusal :=
  let set := fun (f : Fn → Fn) => finish (if (s.fn n).en then s else s.updFn n f)
  if off = 0 then (if bitAt v 0 then execPartEnable n v s else execPartDisable n v s)
  else if off = 8 then set fun f => { f with s2base := mergeBits f.s2base v (bitsMask 51 12) }
  else if off = 0x10 then set fun f => { f with s2frames := v.setWidth 32 }
  else if off = 0x18 then set fun f => { f with saveBase := mergeBits f.saveBase v (bitsMask 51 12) }
  else if off = 0x20 then finish (s.updFn n fun f => { f with flrDone := f.flrDone && !bitAt v 0 })
  else finish s
/-- SD_CTL: a write with GO starts a shoot-down, one without sets KIND and, by the physical function, FN. -/
def State.writeShoot (s : State) (fn : Nat) (v : DWord) : Host.Outcome State Fault Refusal :=
  let kind := bits64 v 2 1
  if (s.fn fn).sdGo then finish s
  else if bitAt v 0 then
    (if kind = 0 then execShootdownPage fn v s else if kind = 1 then execShootdownAll fn v s
      else if kind = 2 then execShootdownFrame fn v s else finish s)
  else finish (s.updFn fn fun f => { f with sdKind := kind, sdFn := if fn = 0 then bits64 v 15 8 else f.sdFn })
/-- The translation page. -/
def State.writeXlat (s : State) (fn off : Nat) (v : DWord) : Host.Outcome State Fault Refusal :=
  let go := (s.fn fn).sdGo
  if off = 0 then
    finish (if go then s else s.updFn fn fun f => { f with s1root := mergeBits f.s1root v (bitsMask 51 12 ||| 1) })
  else if off = 8 then finish (s.updFn fn fun f => { f with sdAddr := v })
  else if off = 0x10 then s.writeShoot fn v
  else if off = 0x18 then
    finish (if go then s
      else (s.updFn fn fun f => { f with fqBase := mergeBits f.fqBase v (bitsMask 51 12 ||| 15) }).recheckRecords fn)
  else if off = 0x20 then finish (s.updFn fn fun f => { f with fqCons := BitVec.ofNat 32 (bits64 v 63 32) })
  else if off = 0x28 then
    (if bits64 v 33 32 = 1 then execVerdictRetry fn (v.setWidth 32) s
      else if bits64 v 33 32 = 2 then execVerdictFail fn (v.setWidth 32) s else finish s)
  else finish s
/-- The debug page (spec/22 R394). -/
def State.writeDebug (s : State) (fn off : Nat) (v : DWord) : State :=
  if off = 0 then s.updFn fn fun f => { f with dbgCtl := mergeBits f.dbgCtl v (bitsMask 47 32 ||| 3) }
  else if off = 8 then s.updFn fn fun f => { f with profBase := mergeBits f.profBase v (bitsMask 51 12 ||| 15) }
  else if off = 0x10 then s.updFn fn fun f => { f with profCons := BitVec.ofNat 32 (bits64 v 63 32) }
  else if 0x20 ≤ off ∧ off < 0xA0 then
    s.updFn fn fun f => { f with bps := f.bps.upd {} ((off - 0x20) / 16) fun x =>
      if off % 16 = 0 then { x with pc := mergeBits x.pc v (bitsMask 63 2) }
      else { x with cond := mergeBits x.cond v (bitsMask 63 32 ||| bitsMask 15 8 ||| bitsMask 6 3 ||| 1) } }
  else s
/-- The fabric receive registers (spec/27 R438). -/
def State.writeRx (s : State) (fn off : Nat) (v : DWord) : State :=
  let en := bitAt (s.fn fn).rxCtl 0
  if off = 0 then s.updFn fn fun f => { f with rxCtl := mergeBits f.rxCtl v (if en then 1 else bitsMask 63 16 ||| 1) }
  else if off = 8 then (if en then s else s.updFn fn fun f => { f with rxSize := mergeBits f.rxSize v (bitsMask 34 0) })
  else if off = 0x10 then (if en then s else s.updFn fn fun f => { f with rxCtr := v })
  else s
def State.writeRoast (s : State) (n off : Nat) (v : DWord) : Host.Outcome State Fault Refusal :=
  let set := fun (f : Roast → Roast) => finish (if (s.roast n).en then s else s.updRoast n f)
  if off = 0 then (if bitAt v 0 then execRoastEnable n v s else execRoastDisable n v s)
  else if off = 8 then set fun w => { w with limit := mergeBits w.limit v (bitsMask 51 16) }
  else if off = 0x10 then set fun w => { w with fmt := mergeBits w.fmt v (bitsMask 63 48 ||| bitsMask 42 40 ||| bitsMask 32 0) }
  else set fun w => { w with scale := mergeBits w.scale v (bitsMask 51 6) }
def State.writeWatch (s : State) (n off : Nat) (v : DWord) : Host.Outcome State Fault Refusal :=
  let set := fun (f : Watch → Watch) => finish (if (s.watch n).en then s else s.updWatch n f)
  if off = 0 then (if bitAt v 0 then execWatchEnable n v s else execWatchDisable n v s)
  else if off = 8 then set fun w => { w with limit := mergeBits w.limit v (bitsMask 51 16) }
  else if off = 0x10 then set fun w => { w with map := mergeBits w.map v (bitsMask 63 56 ||| bitsMask 51 7) }
  else finish s
def State.writeVault (s : State) (n off : Nat) (v : DWord) : Host.Outcome State Fault Refusal :=
  if n = 0 then finish s
  else if off = 0 then (if bitAt v 0 then execVaultEnable n v s else execVaultDisable n v s)
  else if off = 8 then
    finish (if bitAt (s.vault n).ctl 0 then s else s.updVault n fun x =>
      { x with size := mergeBits x.size v (bitsMask 47 32 ||| bitsMask 15 0) })
  else if off = 0x10 then finish (s.updVault n fun x => { x with grant := v })
  else finish s
/-- Blocks of the physical function's space alone (spec/27 R432). -/
def State.writePf (s : State) (off : Nat) (v : DWord) : Host.Outcome State Fault Refusal :=
  if 0x2000 ≤ off ∧ off < 0x2000 + 65 * 0x40 then s.writePart ((off - 0x2000) / 0x40) (off % 0x40) v
  else if off = 0x3100 then finish { s with homeTab := mergeBits s.homeTab v (bitsMask 51 16) }
  else if off = 0x3108 then finish { s with dumpBase := mergeBits s.dumpBase v (bitsMask 51 21) }
  else if off = 0x3118 then
    finish (if 1000 ≤ bits64 v 11 0 ∧ bits64 v 11 0 ≤ 2800 then { s with powerCap := bits64 v 11 0 } else s)
  else if 0x4000 ≤ off ∧ off < 0x4400 then s.writeRoast ((off - 0x4000) / 32) (off % 32) v
  else if 0x5000 ≤ off ∧ off < 0x5400 then s.writeWatch ((off - 0x5000) / 32) (off % 32) v
  else if 0x6000 ≤ off ∧ off < 0x8000 then s.writeVault ((off - 0x6000) / 32) (off % 32) v
  else finish s
/-- A notify register. -/
def State.writeNotify (s : State) (fn off : Nat) (v : DWord) : Host.Outcome State Fault Refusal :=
  if off % 16 = 0 then execNotifyWrite fn (off / 16) (v.setWidth 32) s
  else if bitAt v 0 then execNotifyBind fn (off / 16) v s
  else execNotifyUnbind fn (off / 16) v s

/-- REGISTER_WRITE: a write of 8 bytes to an offset of a function's BAR0. A register that has a step of its own takes that step;
until the module is ready, and where no block lies, a write is ignored. -/
def execRegisterWrite (fn off : Nat) (v : DWord) (s : State) : Host.Outcome State Fault Refusal :=
  if !s.regsUp || 64 < fn || off % 8 ≠ 0 then finish s
  else if off < 0x1000 then s.writeNotify fn off v
  else if 0x1000 ≤ off ∧ off < 0x1030 then s.writeXlat fn (off - 0x1000) v
  else if 0x1100 ≤ off ∧ off < 0x11A0 then finish (s.writeDebug fn (off - 0x1100) v)
  else if 0x1200 ≤ off ∧ off < 0x1218 then finish (s.writeRx fn (off - 0x1200) v)
  else if fn = 0 then s.writePf off v
  else finish s

/-! ### What a read of a register returns -/

/-- Fields joined from their lowest bits. -/
def joinBits (l : List (Nat × Nat)) : DWord := addr (l.foldl (fun n e => n + e.1 * 2 ^ e.2) 0)
def Fn.readPart (f : Fn) (off : Nat) : DWord :=
  if off = 0 then joinBits [(f.regions.toNat, 32), (bit f.busy, 2), (bit f.cfgErr, 1), (bit f.en, 0)]
  else if off = 8 then f.s2base
  else if off = 0x10 then f.s2frames.setWidth 64
  else if off = 0x18 then f.saveBase
  else if off = 0x20 then joinBits [(f.dropped.toNat, 32), (bit f.quiesced, 1), (bit f.flrDone, 0)]
  else 0
def Fn.readXlat (f : Fn) (off : Nat) : DWord :=
  if off = 0 then f.s1root
  else if off = 8 then f.sdAddr
  else if off = 0x10 then joinBits [(f.sdSeq.toNat, 32), (f.sdFn, 8), (f.sdKind, 1), (bit f.sdGo, 0)]
  else if off = 0x18 then f.fqBase
  else if off = 0x20 then joinBits [(f.fqCons.toNat, 32), (f.fqProd.toNat, 0)]
  else f.fqResp
def Fn.readDebug (f : Fn) (off : Nat) : DWord :=
  let x := f.bps.get {} ((off - 0x20) / 16)
  if off = 0 then f.dbgCtl
  else if off = 8 then f.profBase
  else if off = 0x10 then joinBits [(f.profCons.toNat, 32), (f.profProd.toNat, 0)]
  else if off = 0x18 then f.profDropped.setWidth 64
  else if off % 16 = 0 then x.pc else x.cond
def Fn.readRx (f : Fn) (off : Nat) : DWord := if off = 0 then f.rxCtl else if off = 8 then f.rxSize else f.rxCtr
def Fn.readNotify (f : Fn) (off : Nat) : DWord :=
  let x := f.notify.get {} (off / 16)
  if off % 16 = 0 then x.fill.setWidth 64 else joinBits [(bits64 x.qcb 63 6, 6), (bit x.en, 0)]
def State.readVault (s : State) (n off : Nat) : DWord :=
  let x := s.vault n
  let mine := s.content.filter fun e => nameVid e.name = n && e.state ≠ .reclaiming
  if off = 0 then x.ctl
  else if off = 8 then x.size
  else if off = 0x10 then x.grant
  else joinBits [(mine.length, 32), ((mine.filter fun e => e.pin).length, 0)]
def State.readPf (s : State) (off : Nat) : DWord :=
  if 0x2000 ≤ off ∧ off < 0x2000 + 65 * 0x40 then (s.fn ((off - 0x2000) / 0x40)).readPart (off % 0x40)
  else if off = 0x3100 then s.homeTab
  else if off = 0x3108 then s.dumpBase
  else if off = 0x3110 then joinBits [(s.bootFail, 8), (s.bootState, 0)]
  else if off = 0x3118 then addr s.powerCap
  else if 0x4000 ≤ off ∧ off < 0x4400 then
    let w := s.roast ((off - 0x4000) / 32)
    if off % 32 = 0 then w.ctl else if off % 32 = 8 then w.limit else if off % 32 = 16 then w.fmt else w.scale
  else if 0x5000 ≤ off ∧ off < 0x5400 then
    let w := s.watch ((off - 0x5000) / 32)
    if off % 32 = 0 then w.ctl else if off % 32 = 8 then w.limit else if off % 32 = 16 then w.map else w.gen.setWidth 64
  else if 0x6020 ≤ off ∧ off < 0x8000 then s.readVault ((off - 0x6000) / 32) (off % 32)
  else 0
/-- What the host reads in 8 bytes at an offset of a function's BAR0: until the module is ready every register but BOOTSTAT reads
0, and so does an offset that no block covers. -/
def State.readRegister (s : State) (fn off : Nat) : DWord :=
  let f := s.fn fn
  if 64 < fn || off % 8 ≠ 0 || (!s.regsUp && !(fn = 0 && off = 0x3110)) then 0
  else if off < 0x1000 then f.readNotify off
  else if 0x1000 ≤ off ∧ off < 0x1030 then f.readXlat (off - 0x1000)
  else if 0x1100 ≤ off ∧ off < 0x11A0 then f.readDebug (off - 0x1100)
  else if 0x1200 ≤ off ∧ off < 0x1218 then f.readRx (off - 0x1200)
  else if fn = 0 then s.readPf off
  else 0

end Sys2Proof.Machine
end

