-- ==== Sys2Proof/Machine/Manage.lean ====
section
/-! DEFINITION. Comparators and samples, the row activation defence, power, reset and boot, and SPDM (spec/22 R393, R395; spec/21 R384;
spec/27 R435, R439..R443). -/
namespace Sys2Proof.Machine

/-! ### Comparators and samples (spec/22 R393, R395) -/

/-- COMPARATOR_LOAD: a core loads the comparators of the function that it serves. -/
def execComparatorLoad (core : Nat) (s : State) : Host.Outcome State Fault Refusal :=
  match (s.region (regionOf core)).holder with
  | none => finish s
  | some fn =>
    let bps := (List.range 8).map fun j => (s.fn fn).bps.get {} j
    finish (if core < 256 then s.updCore core fun c => { c with bps := bps } else s)

/-- Resident warps of a core, in a fixed order. -/
def State.coreWarps (s : State) (core : Nat) : List (Nat × Nat) :=
  s.blocks.flatMap fun e => match e.2 with
    | some k => if k.core = core && k.status = .running && !k.agent then
        ((List.range k.nwarps).filter fun w => k.liveOf w ≠ []).map fun w => (e.1, w)
      else []
    | none => []
/-- The lowest thread of a warp whose next instruction waits for a pending one. -/
def State.stalled (s : State) (b w : Nat) : Option Nat :=
  let k := s.blk b
  (k.liveOf w).find? fun t =>
    let i := s.peek b t
    s.issuable b t && !k.windowOk t (i.any drainClass)
/-- What a sample says of a waiting thread: 1 an operand and the pc that produces it, or 2 the lookahead limit. -/
def State.sampleOf (s : State) (b t : Nat) : Nat × DWord :=
  let k := s.blk b
  match s.peek b t with
  | none => (2, 0)
  | some i =>
    let regs := ((uses i).map (touches i)).getD []
    match k.pend.find? fun p => p.thrs.any (fun e => e.1 = t) && p.hazard.any fun r => regs.contains r && k.sameReg p (warpOf t) r with
    | some p => (1, p.pc)
    | none => (2, 0)
/-- SAMPLE_TIMER: a core writes one sample of a waiting bundle, round-robin over its warps. -/
def execSampleTimer (core : Nat) (s : State) : Host.Outcome State Fault Refusal :=
  match (s.region (regionOf core)).holder with
  | none => finish s
  | some fn =>
    let f := s.fn fn
    let ws := s.coreWarps core
    let from_ := (s.core core).sampleNext % max ws.length 1
    let order := (ws.zipIdx).drop from_ ++ (ws.zipIdx).take from_
    if !bitAt f.dbgCtl 1 || bits64 f.dbgCtl 47 32 = 0 then finish s
    else
      match order.find? fun x => (s.stalled x.1.1 x.1.2).isSome with
      | none => finish s
      | some ((b, w), j) =>
        let t := (s.stalled b w).getD 0
        let k := s.blk b
        let x := s.sampleOf b t
        let s := s.updCore core fun c => { c with sampleNext := j + 1 }
        finish (s.profile fn (k.lid.toNat * 2 ^ 32 + k.q) (t * 2 ^ 32 + x.1 * 256 + 1) (k.thr t).pc.toNat x.2.toNat)

/-! ### Row activations (spec/21 R384) -/

def rowKey (mc bank row : Nat) : Nat := (mc * 0x10000 + bank % 0x10000) * 0x1000000 + row % 0x1000000
/-- ROW_MITIGATION: a row's count goes on by a free number of activations (log 21); at the threshold the neighbours are
refreshed, the count clears, and the event is counted. -/
def execRowMitigation (mc bank row : Nat) (s : State) : Host.Outcome State Fault Refusal :=
  let key := rowKey mc bank row
  let (n, s) := s.freeNat
  let (fn, s) := s.freeNat
  let c := s.rows.get 0 key + 1 + n % 1024
  if 1024 ≤ c then finish ({ s with rows := s.rows.set 0 key 0 }.pmEvent (fn % 65) 0x21 1)
  else finish { s with rows := s.rows.set 0 key c }
/-- REFRESH_WINDOW: a controller clears its counters. -/
def execRefreshWindow (mc : Nat) (s : State) : Host.Outcome State Fault Refusal :=
  finish { s with rows := s.rows.filter fun e => e.1 / (0x10000 * 0x1000000) ≠ mc }

/-! ### Power and temperature (spec/27 R442, R443) -/

/-- Is a die's control complex without work: nothing in its carafe, and none of its queues processes packets? -/
def State.idleDie (s : State) (die : Nat) : Bool :=
  (s.die die).carafe = [] && s.fns.all fun e => e.2.queues.all fun q => queueDie e.1 q.1 ≠ die || !(q.2.running || q.2.binding)
/-- POWER_WINDOW: the controller sets the core clock, in steps of 50 MHz from 700 MHz on; an idle control complex may be
power-gated (log 21). -/
def execPowerWindow (mhz : Nat) (s : State) : Host.Outcome State Fault Refusal :=
  let s := if 700 ≤ mhz ∧ mhz ≤ 1800 ∧ mhz % 50 = 0 then { s with clockMHz := mhz } else s
  finish ((List.range 4).foldl
    (fun s d =>
      let (g, s) := s.freeBool
      if g && s.idleDie d then s.updDie d fun x => { x with gated := true } else s) s)
/-- THERMAL_THROTTLE: the clock goes down a step. -/
def execThermalThrottle (die : Nat) (s : State) : Host.Outcome State Fault Refusal :=
  finish (if die < 4 then { s with clockMHz := max 700 (s.clockMHz - 50) } else s)
/-- THERMAL_FATAL: a fatal error that the die's thermal sensor reports. -/
def execThermalFatal (die : Nat) (s : State) : Host.Outcome State Fault Refusal :=
  finish (if die < 4 then s.fatal { die := die, unit := 7, index := 0, sev := 4, kind := 6 } else s)

/-! ### Reset and boot (R439, R440) -/

/-- RESET: everything is as after reset, and boot runs to the step that fails, or until the module is ready. Its number and its routing table,
which the physical function writes once before anything else (R436), are taken as written then (log 25). What moves next and the numbers
that the model hands out go on. -/
def execReset (fail : Nat) (s : State) : Host.Outcome State Fault Refusal :=
  let f := fail % 7
  let log := if f = 0 ∨ f = 6 then [Config.imageMeasurement s.tick] else []
  finish { State.reset with
    bootFail := f, bootState := if f = 0 then 2 else 1, attestation := log, agenda := s.agenda, tick := s.tick + 1,
    nextId := s.nextId, issued := s.issued,
    moduleNo := if f = 0 then Config.moduleNumber s.tick % 16384 else 0,
    routes := if f = 0 then (Config.routes s.tick).map fun r => (r.1 % 8, r.2 % 16384) else [] }

/-! ### SPDM (R435) -/

/-- The security core answers from step 5 of boot on. -/
def State.answer (s : State) (code : Nat) (req extra : List Byte) : Host.Outcome State Fault Refusal :=
  if s.attestation = [] then finish s
  else finish { s with doe := s.doe ++ [extra ++ Config.spdmAnswer code req s.tick], tick := s.tick + 1 }
def execGetVersion (req : List Byte) (s : State) : Host.Outcome State Fault Refusal := s.answer 0 req []
def execGetCapabilities (req : List Byte) (s : State) : Host.Outcome State Fault Refusal := s.answer 1 req []
def execNegotiateAlgorithms (req : List Byte) (s : State) : Host.Outcome State Fault Refusal := s.answer 2 req []
def execGetDigests (req : List Byte) (s : State) : Host.Outcome State Fault Refusal := s.answer 3 req []
def execGetCertificate (req : List Byte) (s : State) : Host.Outcome State Fault Refusal := s.answer 4 req []
def execChallenge (req : List Byte) (s : State) : Host.Outcome State Fault Refusal := s.answer 5 req []
def execGetMeasurements (req : List Byte) (s : State) : Host.Outcome State Fault Refusal := s.answer 6 req []
def execKeyExchange (req : List Byte) (s : State) : Host.Outcome State Fault Refusal := s.answer 7 req []
/-- VENDOR_MEASUREMENT_LOG: the measurement log, with its signature. -/
def execVendorMeasurementLog (req : List Byte) (s : State) : Host.Outcome State Fault Refusal :=
  s.answer 8 req s.attestation.flatten

end Sys2Proof.Machine
end

