-- ==== Sys2Proof/Machine/Dispatch.lean ====
section
/-! DEFINITION. One arm for each instruction and event: a direct call of its meaning. -/
namespace Sys2Proof.Machine
open Sys2Proof

def exec (i : Instr) (s : State) : Host.Outcome State Fault Refusal :=
  match i with
  | .nop f => Sys2Proof.Machine.execNop f s
  | .iaddI32Base f => Sys2Proof.Machine.execIaddI32Base f s
  | .isubI32Base f => Sys2Proof.Machine.execIsubI32Base f s
  | .imulI32Base f => Sys2Proof.Machine.execImulI32Base f s
  | .imulhI32Base f => Sys2Proof.Machine.execImulhI32Base f s
  | .imulhN32Base f => Sys2Proof.Machine.execImulhN32Base f s
  | .iminI32Base f => Sys2Proof.Machine.execIminI32Base f s
  | .iminN32Base f => Sys2Proof.Machine.execIminN32Base f s
  | .imaxI32Base f => Sys2Proof.Machine.execImaxI32Base f s
  | .imaxN32Base f => Sys2Proof.Machine.execImaxN32Base f s
  | .iaddI64Base f => Sys2Proof.Machine.execIaddI64Base f s
  | .isubI64Base f => Sys2Proof.Machine.execIsubI64Base f s
  | .imulI64Base f => Sys2Proof.Machine.execImulI64Base f s
  | .andN32Base f => Sys2Proof.Machine.execAndN32Base f s
  | .orN32Base f => Sys2Proof.Machine.execOrN32Base f s
  | .xorN32Base f => Sys2Proof.Machine.execXorN32Base f s
  | .shlN32Base f => Sys2Proof.Machine.execShlN32Base f s
  | .shrN32Base f => Sys2Proof.Machine.execShrN32Base f s
  | .sarI32Base f => Sys2Proof.Machine.execSarI32Base f s
  | .shlN64Base f => Sys2Proof.Machine.execShlN64Base f s
  | .shrN64Base f => Sys2Proof.Machine.execShrN64Base f s
  | .sarI64Base f => Sys2Proof.Machine.execSarI64Base f s
  | .popcN32Base f => Sys2Proof.Machine.execPopcN32Base f s
  | .clzN32Base f => Sys2Proof.Machine.execClzN32Base f s
  | .ctzN32Base f => Sys2Proof.Machine.execCtzN32Base f s
  | .brevN32Base f => Sys2Proof.Machine.execBrevN32Base f s
  | .movBase f => Sys2Proof.Machine.execMovBase f s
  | .movlBase f => Sys2Proof.Machine.execMovlBase f s
  | .leaN32S2Base f => Sys2Proof.Machine.execLeaN32S2Base f s
  | .leaN32S3Base f => Sys2Proof.Machine.execLeaN32S3Base f s
  | .leaI32S2Base f => Sys2Proof.Machine.execLeaI32S2Base f s
  | .leaI32S3Base f => Sys2Proof.Machine.execLeaI32S3Base f s
  | .faddF32Base f => Sys2Proof.Machine.execFaddF32Base f s
  | .fmulF32Base f => Sys2Proof.Machine.execFmulF32Base f s
  | .fminF32Base f => Sys2Proof.Machine.execFminF32Base f s
  | .fmaxF32Base f => Sys2Proof.Machine.execFmaxF32Base f s
  | .faddF16Base f => Sys2Proof.Machine.execFaddF16Base f s
  | .fmulF16Base f => Sys2Proof.Machine.execFmulF16Base f s
  | .faddBf16Base f => Sys2Proof.Machine.execFaddBf16Base f s
  | .fmulBf16Base f => Sys2Proof.Machine.execFmulBf16Base f s
  | .hadd2F16Base f => Sys2Proof.Machine.execHadd2F16Base f s
  | .hmul2F16Base f => Sys2Proof.Machine.execHmul2F16Base f s
  | .hadd2Bf16Base f => Sys2Proof.Machine.execHadd2Bf16Base f s
  | .hmul2Bf16Base f => Sys2Proof.Machine.execHmul2Bf16Base f s
  | .frndF32Base f => Sys2Proof.Machine.execFrndF32Base f s
  | .cvtF32I32Base f => Sys2Proof.Machine.execCvtF32I32Base f s
  | .cvtF32N32Base f => Sys2Proof.Machine.execCvtF32N32Base f s
  | .cvtI32F32Base f => Sys2Proof.Machine.execCvtI32F32Base f s
  | .cvtN32F32Base f => Sys2Proof.Machine.execCvtN32F32Base f s
  | .cvtF32F16Base f => Sys2Proof.Machine.execCvtF32F16Base f s
  | .cvtF16F32Base f => Sys2Proof.Machine.execCvtF16F32Base f s
  | .cvtF32Bf16Base f => Sys2Proof.Machine.execCvtF32Bf16Base f s
  | .cvtBf16F32Base f => Sys2Proof.Machine.execCvtBf16F32Base f s
  | .cvtF64F32Base f => Sys2Proof.Machine.execCvtF64F32Base f s
  | .cvtF32F64Base f => Sys2Proof.Machine.execCvtF32F64Base f s
  | .cvtI32I16Base f => Sys2Proof.Machine.execCvtI32I16Base f s
  | .cvtI32I8Base f => Sys2Proof.Machine.execCvtI32I8Base f s
  | .cvtN32N16Base f => Sys2Proof.Machine.execCvtN32N16Base f s
  | .cvtN32N8Base f => Sys2Proof.Machine.execCvtN32N8Base f s
  | .andN64Base f => Sys2Proof.Machine.execAndN64Base f s
  | .orN64Base f => Sys2Proof.Machine.execOrN64Base f s
  | .xorN64Base f => Sys2Proof.Machine.execXorN64Base f s
  | .iminI64Base f => Sys2Proof.Machine.execIminI64Base f s
  | .imaxI64Base f => Sys2Proof.Machine.execImaxI64Base f s
  | .iadd h ty d a b => Sys2Proof.Machine.execIadd h ty d a b s
  | .isub h ty d a b => Sys2Proof.Machine.execIsub h ty d a b s
  | .imul h ty d a b => Sys2Proof.Machine.execImul h ty d a b s
  | .imulh h ty d a b => Sys2Proof.Machine.execImulh h ty d a b s
  | .imad h wide ty d a b c => Sys2Proof.Machine.execImad h wide ty d a b c s
  | .imin h ty d a b => Sys2Proof.Machine.execImin h ty d a b s
  | .imax h ty d a b => Sys2Proof.Machine.execImax h ty d a b s
  | .idot4 h sa sb d a b c => Sys2Proof.Machine.execIdot4 h sa sb d a b c s
  | .lea h ty sh d a b => Sys2Proof.Machine.execLea h ty sh d a b s
  | .and h w64 d a b => Sys2Proof.Machine.execAnd h w64 d a b s
  | .or h w64 d a b => Sys2Proof.Machine.execOr h w64 d a b s
  | .xor h w64 d a b => Sys2Proof.Machine.execXor h w64 d a b s
  | .lop3 h f d a b c => Sys2Proof.Machine.execLop3 h f d a b c s
  | .icmp h op ty pd a b => Sys2Proof.Machine.execIcmp h op ty pd a b s
  | .sel h w64 d a b pc => Sys2Proof.Machine.execSel h w64 d a b pc s
  | .pset h op pd pa pb => Sys2Proof.Machine.execPset h op pd pa pb s
  | .shl h w64 d a b => Sys2Proof.Machine.execShl h w64 d a b s
  | .shr h w64 d a b => Sys2Proof.Machine.execShr h w64 d a b s
  | .sar h w64 d a b => Sys2Proof.Machine.execSar h w64 d a b s
  | .shf h var d a b c => Sys2Proof.Machine.execShf h var d a b c s
  | .bfe h ty d a b => Sys2Proof.Machine.execBfe h ty d a b s
  | .bfi h w64 d a b c => Sys2Proof.Machine.execBfi h w64 d a b c s
  | .popc h w64 d b => Sys2Proof.Machine.execPopc h w64 d b s
  | .clz h w64 d b => Sys2Proof.Machine.execClz h w64 d b s
  | .ctz h w64 d b => Sys2Proof.Machine.execCtz h w64 d b s
  | .brev h w64 d b => Sys2Proof.Machine.execBrev h w64 d b s
  | .mov h d b => Sys2Proof.Machine.execMov h d b s
  | .movl h d b => Sys2Proof.Machine.execMovl h d b s
  | .movs h m => Sys2Proof.Machine.execMovs h m s
  | .rdsr h num d => Sys2Proof.Machine.execRdsr h num d s
  | .fadd h ty rm d a b => Sys2Proof.Machine.execFadd h ty rm d a b s
  | .fmul h ty rm d a b => Sys2Proof.Machine.execFmul h ty rm d a b s
  | .ffma h ty rm d a b c => Sys2Proof.Machine.execFfma h ty rm d a b c s
  | .fmin h ty d a b => Sys2Proof.Machine.execFmin h ty d a b s
  | .fmax h ty d a b => Sys2Proof.Machine.execFmax h ty d a b s
  | .fcmp h op ty pd a b => Sys2Proof.Machine.execFcmp h op ty pd a b s
  | .frnd h x ty rm d b => Sys2Proof.Machine.execFrnd h x ty rm d b s
  | .frcp h rm d b => Sys2Proof.Machine.execFrcp h rm d b s
  | .frsq h d b => Sys2Proof.Machine.execFrsq h d b s
  | .fsqrt h rm d b => Sys2Proof.Machine.execFsqrt h rm d b s
  | .fexp2 h d b => Sys2Proof.Machine.execFexp2 h d b s
  | .flog2 h d b => Sys2Proof.Machine.execFlog2 h d b s
  | .fsin h d b => Sys2Proof.Machine.execFsin h d b s
  | .fcos h d b => Sys2Proof.Machine.execFcos h d b s
  | .ftanh h d b => Sys2Proof.Machine.execFtanh h d b s
  | .hadd2 h ty rm d a b => Sys2Proof.Machine.execHadd2 h ty rm d a b s
  | .hmul2 h ty rm d a b => Sys2Proof.Machine.execHmul2 h ty rm d a b s
  | .hfma2 h ty rm d a b c => Sys2Proof.Machine.execHfma2 h ty rm d a b c s
  | .hdot2 h ts rm d a b c => Sys2Proof.Machine.execHdot2 h ts rm d a b c s
  | .dadd h rm d a b => Sys2Proof.Machine.execDadd h rm d a b s
  | .dmul h rm d a b => Sys2Proof.Machine.execDmul h rm d a b s
  | .dfma h rm d a b c => Sys2Proof.Machine.execDfma h rm d a b c s
  | .cvt h sat td ts rm d b => Sys2Proof.Machine.execCvt h sat td ts rm d b s
  | .pack h td ts rm k d a c => Sys2Proof.Machine.execPack h td ts rm k d a c s
  | .unpack h td ts rm k d b => Sys2Proof.Machine.execUnpack h td ts rm k d b s
  | .shfl h op seg d a b m => Sys2Proof.Machine.execShfl h op seg d a b m s
  | .ballot h d pa m => Sys2Proof.Machine.execBallot h d pa m s
  | .vote h op pd pa m => Sys2Proof.Machine.execVote h op pd pa m s
  | .matchLanes h w64 d a m => Sys2Proof.Machine.execMatchLanes h w64 d a m s
  | .redux h op ty rm d a m => Sys2Proof.Machine.execRedux h op ty rm d a m s
  | .prmt h d a b c => Sys2Proof.Machine.execPrmt h d a b c s
  | .bra h off => Sys2Proof.Machine.execBra h off s
  | .brx h a off => Sys2Proof.Machine.execBrx h a off s
  | .call h a off => Sys2Proof.Machine.execCall h a off s
  | .ret h => Sys2Proof.Machine.execRet h s
  | .exit h => Sys2Proof.Machine.execExit h s
  | .yield h => Sys2Proof.Machine.execYield h s
  | .nopExt h => Sys2Proof.Machine.execNopExt h s
  | .ld h ord ty d a off => Sys2Proof.Machine.execLd h ord ty d a off s
  | .st h ord ty a b off => Sys2Proof.Machine.execSt h ord ty a b off s
  | .lds h ord ty d a off => Sys2Proof.Machine.execLds h ord ty d a off s
  | .sts h ord ty a b off => Sys2Proof.Machine.execSts h ord ty a b off s
  | .cmpst h ty d a b pc off => Sys2Proof.Machine.execCmpst h ty d a b pc off s
  | .expld h ty d a pc off => Sys2Proof.Machine.execExpld h ty d a pc off s
  | .pref h lvl a off => Sys2Proof.Machine.execPref h lvl a off s
  | .cctlWb h a b off => Sys2Proof.Machine.execCctlWb h a b off s
  | .cctlInv h a b off => Sys2Proof.Machine.execCctlInv h a b off s
  | .atom h op ord w d a b c off => Sys2Proof.Machine.execAtom h op ord w d a b c off s
  | .red h op ord w a b off => Sys2Proof.Machine.execRed h op ord w a b off s
  | .fence h => Sys2Proof.Machine.execFence h s
  | .xfence h x y => Sys2Proof.Machine.execXfence h x y s
  | .bar h => Sys2Proof.Machine.execBar h s
  | .smap h n a b c => Sys2Proof.Machine.execSmap h n a b c s
  | .sflush h => Sys2Proof.Machine.execSflush h s
  | .cpq h a off => Sys2Proof.Machine.execCpq h a off s
  | .cpld h ty d a cq off => Sys2Proof.Machine.execCpld h ty d a cq off s
  | .cqwait h cq => Sys2Proof.Machine.execCqwait h cq s
  | .aarm h a b c off => Sys2Proof.Machine.execAarm h a b c off s
  | .aarrive h a off => Sys2Proof.Machine.execAarrive h a off s
  | .await h a b off => Sys2Proof.Machine.execAwait h a b off s
  | .caint h node src vid d => Sys2Proof.Machine.execCaint h node src vid d s
  | .caget h d a b off => Sys2Proof.Machine.execCaget h d a b off s
  | .carel h b => Sys2Proof.Machine.execCarel h b s
  | .caswap h d a b c off => Sys2Proof.Machine.execCaswap h d a b c off s
  | .caexp h a b c off => Sys2Proof.Machine.execCaexp h a b c off s
  | .tld h t a b k off => Sys2Proof.Machine.execTld h t a b k off s
  | .tst h t a b k off => Sys2Proof.Machine.execTst h t a b k off s
  | .tzero h t => Sys2Proof.Machine.execTzero h t s
  | .tmov h d a => Sys2Proof.Machine.execTmov h d a s
  | .txpose h d a => Sys2Proof.Machine.execTxpose h d a s
  | .tcvt h rm d a => Sys2Proof.Machine.execTcvt h rm d a s
  | .movtc h tc b => Sys2Proof.Machine.execMovtc h tc b s
  | .rdtc h d tc => Sys2Proof.Machine.execRdtc h d tc s
  | .cvinit h k kind => Sys2Proof.Machine.execCvinit h k kind s
  | .mma h c a b k => Sys2Proof.Machine.execMma h c a b k s
  | .mdrain h m c a b k => Sys2Proof.Machine.execMdrain h m c a b k s
  | .mclr h c k => Sys2Proof.Machine.execMclr h c k s
  | .gbar h g => Sys2Proof.Machine.execGbar h g s
  | .clbar h => Sys2Proof.Machine.execClbar h s
  | .rolesw h r => Sys2Proof.Machine.execRolesw h r s
  | .roleswTry h pd r => Sys2Proof.Machine.execRoleswTry h pd r s
  | .wait h op ty pd a b => Sys2Proof.Machine.execWait h op ty pd a b s
  | .waitExt h op ty pd a b => Sys2Proof.Machine.execWaitExt h op ty pd a b s
  | .wake h d a b => Sys2Proof.Machine.execWake h d a b s
  | .launch h a b c => Sys2Proof.Machine.execLaunch h a b c s
  | .launchTry h pd a b c => Sys2Proof.Machine.execLaunchTry h pd a b c s
  | .relaunch h a b c => Sys2Proof.Machine.execRelaunch h a b c s
  | .place h pd a b c => Sys2Proof.Machine.execPlace h pd a b c s
  | .evict h pd b => Sys2Proof.Machine.execEvict h pd b s
  | .tryW h off => Sys2Proof.Machine.execTryW h off s
  | .tryB h off => Sys2Proof.Machine.execTryB h off s
  | .endtry h => Sys2Proof.Machine.execEndtry h s
  | .throw h b c => Sys2Proof.Machine.execThrow h b c s
  | .rethrow h => Sys2Proof.Machine.execRethrow h s
  | .rdexc h sel d => Sys2Proof.Machine.execRdexc h sel d s
  | .clrexc h => Sys2Proof.Machine.execClrexc h s
  | .trap h pd n => Sys2Proof.Machine.execTrap h pd n s
  | .svc h n => Sys2Proof.Machine.execSvc h n s
  | .brk h n => Sys2Proof.Machine.execBrk h n s
  | .wrsr h num b => Sys2Proof.Machine.execWrsr h num b s
  | .eret h => Sys2Proof.Machine.execEret h s
  | .halt h => Sys2Proof.Machine.execHalt h s
  | .pmcfg h n b => Sys2Proof.Machine.execPmcfg h n b s
  | .pmrd h st n d => Sys2Proof.Machine.execPmrd h st n d s
  | .dbgmark h n => Sys2Proof.Machine.execDbgmark h n s
  | .longLatencyComplete b k => Sys2Proof.Machine.execLongLatencyComplete b k s
  | .regroup part => Sys2Proof.Machine.execRegroup part s
  | .pcGroupForce b w pc => Sys2Proof.Machine.execPcGroupForce b w pc s
  | .warpPromotion b w => Sys2Proof.Machine.execWarpPromotion b w s
  | .ownershipRegister core word => Sys2Proof.Machine.execOwnershipRegister core word s
  | .ownershipRecall die line => Sys2Proof.Machine.execOwnershipRecall die line s
  | .rds die line => Sys2Proof.Machine.execRds die line s
  | .rdx die line => Sys2Proof.Machine.execRdx die line s
  | .upg die line => Sys2Proof.Machine.execUpg die line s
  | .wbm die line => Sys2Proof.Machine.execWbm die line s
  | .putc die line => Sys2Proof.Machine.execPutc die line s
  | .snps die line => Sys2Proof.Machine.execSnps die line s
  | .snpx die line => Sys2Proof.Machine.execSnpx die line s
  | .snpi die line => Sys2Proof.Machine.execSnpi die line s
  | .decafWriteback die line => Sys2Proof.Machine.execDecafWriteback die line s
  | .hostWrite pa bytes => Sys2Proof.Machine.execHostWrite pa bytes s
  | .copyLanding id n => Sys2Proof.Machine.execCopyLanding id n s
  | .asyncExceptionRaise b thr => Sys2Proof.Machine.execAsyncExceptionRaise b thr s
  | .cpldLanding b k => Sys2Proof.Machine.execCpldLanding b k s
  | .drainWriteAccept id => Sys2Proof.Machine.execDrainWriteAccept id s
  | .contentLanding id n => Sys2Proof.Machine.execContentLanding id n s
  | .hostPathFence b thr => Sys2Proof.Machine.execHostPathFence b thr s
  | .reclaim e => Sys2Proof.Machine.execReclaim e s
  | .data f => Sys2Proof.Machine.execData f s
  | .ack f => Sys2Proof.Machine.execAck f s
  | .nakIntegrity f => Sys2Proof.Machine.execNakIntegrity f s
  | .nakRefused f => Sys2Proof.Machine.execNakRefused f s
  | .credit f => Sys2Proof.Machine.execCredit f s
  | .rxnote f => Sys2Proof.Machine.execRxnote f s
  | .frameRetransmitTimeout port dmod seq => Sys2Proof.Machine.execFrameRetransmitTimeout port dmod seq s
  | .notifyWrite fn n v => Sys2Proof.Machine.execNotifyWrite fn n v s
  | .notifyBind fn n v => Sys2Proof.Machine.execNotifyBind fn n v s
  | .notifyUnbind fn n v => Sys2Proof.Machine.execNotifyUnbind fn n v s
  | .notifyWake die => Sys2Proof.Machine.execNotifyWake die s
  | .packetFetch fn n => Sys2Proof.Machine.execPacketFetch fn n s
  | .launchPacket fn n => Sys2Proof.Machine.execLaunchPacket fn n s
  | .launchInd fn n => Sys2Proof.Machine.execLaunchInd fn n s
  | .relaunchPacket fn n => Sys2Proof.Machine.execRelaunchPacket fn n s
  | .waitPacket fn n => Sys2Proof.Machine.execWaitPacket fn n s
  | .waitPacketSatisfied fn n => Sys2Proof.Machine.execWaitPacketSatisfied fn n s
  | .signal fn n => Sys2Proof.Machine.execSignal fn n s
  | .loop fn n => Sys2Proof.Machine.execLoop fn n s
  | .cond fn n => Sys2Proof.Machine.execCond fn n s
  | .jump fn n => Sys2Proof.Machine.execJump fn n s
  | .fetchFence fn n => Sys2Proof.Machine.execFetchFence fn n s
  | .copy fn n => Sys2Proof.Machine.execCopy fn n s
  | .copyPacketComplete id => Sys2Proof.Machine.execCopyPacketComplete id s
  | .carafeEntry die => Sys2Proof.Machine.execCarafeEntry die s
  | .ticketWrite die => Sys2Proof.Machine.execTicketWrite die s
  | .launchComplete fn lid => Sys2Proof.Machine.execLaunchComplete fn lid s
  | .blockEnd b => Sys2Proof.Machine.execBlockEnd b s
  | .clusterRelease region fn lid ci => Sys2Proof.Machine.execClusterRelease region fn lid ci s
  | .clusterHoldTimeout region fn lid ci => Sys2Proof.Machine.execClusterHoldTimeout region fn lid ci s
  | .ageId region v => Sys2Proof.Machine.execAgeId region v s
  | .ageCt region v => Sys2Proof.Machine.execAgeCt region v s
  | .baristaStart core entry start => Sys2Proof.Machine.execBaristaStart core entry start s
  | .roleswGrant part => Sys2Proof.Machine.execRoleswGrant part s
  | .quantumExpiry region fn => Sys2Proof.Machine.execQuantumExpiry region fn s
  | .preemptRequest region => Sys2Proof.Machine.execPreemptRequest region s
  | .blockResume b core parts => Sys2Proof.Machine.execBlockResume b core parts s
  | .deadlockWatchdog fn => Sys2Proof.Machine.execDeadlockWatchdog fn s
  | .tryStopSteer k => Sys2Proof.Machine.execTryStopSteer k s
  | .errorConsumption b thr pa => Sys2Proof.Machine.execErrorConsumption b thr pa s
  | .replayMismatch b thr original => Sys2Proof.Machine.execReplayMismatch b thr original s
  | .fatalDump die unit index kind => Sys2Proof.Machine.execFatalDump die unit index kind s
  | .unitOutOfService u => Sys2Proof.Machine.execUnitOutOfService u s
  | .haltRelease b w => Sys2Proof.Machine.execHaltRelease b w s
  | .roastEnable n v => Sys2Proof.Machine.execRoastEnable n v s
  | .roastDisable n v => Sys2Proof.Machine.execRoastDisable n v s
  | .roastDisableDone n => Sys2Proof.Machine.execRoastDisableDone n s
  | .vaultEnable n v => Sys2Proof.Machine.execVaultEnable n v s
  | .vaultEnableDone n => Sys2Proof.Machine.execVaultEnableDone n s
  | .vaultDisable n v => Sys2Proof.Machine.execVaultDisable n v s
  | .watchEnable n v => Sys2Proof.Machine.execWatchEnable n v s
  | .watchDisable n v => Sys2Proof.Machine.execWatchDisable n v s
  | .partEnable n v => Sys2Proof.Machine.execPartEnable n v s
  | .partDisable n v => Sys2Proof.Machine.execPartDisable n v s
  | .shootdownPage fn v => Sys2Proof.Machine.execShootdownPage fn v s
  | .shootdownAll fn v => Sys2Proof.Machine.execShootdownAll fn v s
  | .shootdownFrame fn v => Sys2Proof.Machine.execShootdownFrame fn v s
  | .shootdownComplete fn => Sys2Proof.Machine.execShootdownComplete fn s
  | .faultRecordWrite j => Sys2Proof.Machine.execFaultRecordWrite j s
  | .verdictRetry fn index => Sys2Proof.Machine.execVerdictRetry fn index s
  | .verdictFail fn index => Sys2Proof.Machine.execVerdictFail fn index s
  | .faultReplay id => Sys2Proof.Machine.execFaultReplay id s
  | .movedBounce b thr => Sys2Proof.Machine.execMovedBounce b thr s
  | .flr fn => Sys2Proof.Machine.execFlr fn s
  | .comparatorLoad core => Sys2Proof.Machine.execComparatorLoad core s
  | .sampleTimer core => Sys2Proof.Machine.execSampleTimer core s
  | .rowMitigation mc bank row => Sys2Proof.Machine.execRowMitigation mc bank row s
  | .refreshWindow mc => Sys2Proof.Machine.execRefreshWindow mc s
  | .powerWindow mhz => Sys2Proof.Machine.execPowerWindow mhz s
  | .thermalThrottle die => Sys2Proof.Machine.execThermalThrottle die s
  | .thermalFatal die => Sys2Proof.Machine.execThermalFatal die s
  | .reset fail => Sys2Proof.Machine.execReset fail s
  | .getVersion req => Sys2Proof.Machine.execGetVersion req s
  | .getCapabilities req => Sys2Proof.Machine.execGetCapabilities req s
  | .negotiateAlgorithms req => Sys2Proof.Machine.execNegotiateAlgorithms req s
  | .getDigests req => Sys2Proof.Machine.execGetDigests req s
  | .getCertificate req => Sys2Proof.Machine.execGetCertificate req s
  | .challenge req => Sys2Proof.Machine.execChallenge req s
  | .getMeasurements req => Sys2Proof.Machine.execGetMeasurements req s
  | .keyExchange req => Sys2Proof.Machine.execKeyExchange req s
  | .vendorMeasurementLog req => Sys2Proof.Machine.execVendorMeasurementLog req s
  | .registerWrite fn off v => Sys2Proof.Machine.execRegisterWrite fn off v s
  | .undefinedTypePacket fn n => Sys2Proof.Machine.execUndefinedTypePacket fn n s
  | .redApply id => Sys2Proof.Machine.execRedApply id s
  | .cctlComplete id => Sys2Proof.Machine.execCctlComplete id s
  | .sflushComplete id => Sys2Proof.Machine.execSflushComplete id s

end Sys2Proof.Machine
end

