-- ==== Sys2Proof/Machine/Schedule.lean ====
section
/-! DEFINITION. The issue of a bundle, and what happens next where the spec leaves it open (spec/15 R278..R282; spec/03 R41;
spec/22 R393, R396; log 1, log 7). -/
namespace Sys2Proof.Machine

/-! ### Comparators (spec/22 R393) -/

/-- The guard of an instruction word, whether or not it decodes. -/
def wordGuard (th : Thread) (w0 : Nat) : Bool :=
  th.pred (w0 / 0x400 % 8) != (decide (2 ≤ w0 % 4) && decide (w0 / 0x2000 % 2 = 1))
/-- The comparison that CMP names; none for 0 and 7. -/
def bpCompare : Nat → Option CmpOp
  | 1 => some .eq | 2 => some .ne | 3 => some .lt | 4 => some .le | 5 => some .gt | 6 => some .ge
  | _ => none
/-- The thread that a hit of a comparator names for a bundle, when it hits. -/
def Bp.hit (x : Bp) (k : Block) (pc : DWord) (thrs : List Nat) (w0 : Nat) : Option Nat :=
  let cmp := bits64 x.cond 6 4
  let reg := bits64 x.cond 15 8
  let wp := warpOf (thrs.headD 0)
  let val := bits64 x.cond 63 32
  let guarded := thrs.filter fun t => wordGuard (k.thr t) w0
  if !bitAt x.cond 0 || x.pc.toNat / 4 ≠ pc.toNat / 4 then none
  else if cmp = 0 then thrs.head?
  else
    match bpCompare cmp with
    | none => none
    | some op =>
      let holds := fun t => compareTy op .i32 (k.vreg wp reg (laneOf t)).toNat val
      if (k.warp wp).regs ≤ reg then none
      else if bitAt x.cond 3 then (if guarded.all holds then guarded.head? else none)
      else guarded.find? holds
/-- The lowest comparator of a core that hits a bundle, with the thread that it names; those that have already stopped the warp at this pc do
not test it again. -/
def State.bpHit (s : State) (b : Nat) (thrs : List Nat) (pc : DWord) (w0 : Nat) : Option (Nat × Nat) :=
  let k := s.blk b
  if k.agent || !bitAt (s.fn k.fn).dbgCtl 0 || !s.fqValid k.fn then none
  else
    let skip := (k.warp (warpOf (thrs.headD 0))).bpSkip
    ((s.core k.core).bps.zipIdx.filterMap fun e =>
      if skip.contains (pc, e.2) then none else (e.1.hit k pc thrs w0).map fun t => (e.2, t)).head?
/-- A hit stops the warp before the instruction, with its record. -/
def State.bpStop (s : State) (b wp : Nat) (pc : DWord) (j t : Nat) : State :=
  let (id, s) := s.debugRecord b pc 10 t j (.stop b wp)
  s.updWarp b wp fun w => { w with stopped := some (.debug id), bpSkip := w.bpSkip ++ [(pc, j)] }

/-! ### Issue (spec/15 R278, R279) -/

/-- The threads at a thread's pc that may issue what stands there now. -/
def State.issuers (s : State) (b t : Nat) (i : Option Instr) : List Nat :=
  (s.bundleOf b t).filter fun x =>
    !s.fetchWaits b x && s.canIssue b x i && !(i.any fun i => (s.blk b).gathering x i)

/-- The bundle issues: it is the selection of the meanings, it is counted, and its warp has issued. -/
def State.select (s : State) (b : Nat) (thrs : List Nat) (pc : DWord) (ws : List Nat) : State :=
  let k := s.blk b
  let w0 := ws.headD 0
  let s := { s with
    sel := { blk := b, pc := pc, thrs := thrs, w0 := BitVec.ofNat 32 w0, words := ws.length }, issued := s.issued + 1 }
  let s := s.updWarp b (warpOf (thrs.headD 0)) fun w =>
    { w with lastIssue := s.issued, promoted := none, interval := w.interval ++ [pc], forced := w.forced.filter (· ≠ pc),
             readySince := some s.issued, bpSkip := w.bpSkip.filter fun e => e.1 ≠ pc }
  (s.pmEvent k.fn 2 1).pmEvent k.fn 3 (thrs.filter fun t => wordGuard (k.thr t) w0).length

/-- The instruction that words hold for a block's warp. -/
def State.decodeAt (s : State) (b t : Nat) (ws : List Nat) : Except Nat Instr := decode ((s.blk b).warp (warpOf t)).regs ws

/-- Issues the bundle of a thread: fetch, comparators, decode, and the instruction's meaning. A fetch that faults writes a record, for whose
verdict its threads wait (spec/03 R41; spec/21 R377); what does not decode raises ILL in each thread (spec/03 R63). -/
def issueBundle (s : State) (b t : Nat) : Host.Outcome State Fault Refusal :=
  let pc := (s.thr b t).pc
  let wp := warpOf t
  let k := s.blk b
  if (k.warp wp).stopped.isSome then finish s
  else
    match s.fetch b t with
    | (.words ws, s) =>
      let r := s.decodeAt b t ws
      let thrs := s.issuers b t r.toOption
      if thrs = [] then finish s
      else
        match s.bpHit b thrs pc (ws.headD 0) with
        | some (j, x) => finish (s.bpStop b wp pc j x)
        | none =>
          let s := s.select b thrs pc ws
          match r with
          | .ok i => exec i s
          | .error e => finish (s.raiseAll b thrs pc cILL (.all (BitVec.ofNat 64 (ws.headD 0 + e * 2 ^ 32))))
    | (.exc c, s) => finish (s.raiseAll b (s.issuers b t none) pc c .free)
    | (.page va c g, s) =>
      let thrs := s.issuers b t none
      if thrs = [] then finish s
      else finish (s.newRecord k.fn va k.lid (BitVec.ofNat 32 k.q) (thrs.headD 0) c g .fetch (.fetch b thrs)).2
    | (.stall, s) => finish s

/-! ### Choosing a bundle (spec/15 R280, R282) -/

/-- Is one warp before another in the order of R282? -/
def Warp.before (x y : Warp) : Bool :=
  match x.promoted, y.promoted with
  | some m, some n => decide (m ≤ n)
  | some _, none => true
  | none, some _ => false
  | none, none => decide (x.prio < y.prio) || (x.prio = y.prio && decide (x.lastIssue ≤ y.lastIssue))
/-- The active warp of a partition that issues next. One that has yielded falls behind its class at the next regroup. -/
def State.nextWarp (s : State) (part : Nat) : Option (Nat × Nat) :=
  let ws := (s.partWarps part).filter fun x => (s.warp x.1 x.2).active && s.readyWarp x.1 x.2
  (ws.mergeSort fun x y => (s.warp x.1 x.2).before (s.warp y.1 y.2)).head?
/-- The ready thread whose PC group the warp issues: the first group that is due under R280, else one of the ready ones, which R280 leaves
open. -/
def State.nextThread (s : State) (b w : Nat) (n : Nat) : Option Nat :=
  let k := s.blk b
  let ready := (k.liveOf w).filter fun t => s.readyThread b t
  match s.dueGroups b w with
  | pc :: _ => ready.find? fun t => (k.thr t).pc = pc
  | [] => ready[n % ready.length]?
/-- A partition issues one bundle. -/
def issueNext (s : State) (part n : Nat) : Host.Outcome State Fault Refusal :=
  match s.nextWarp part with
  | none => finish s
  | some (b, w) =>
    match s.nextThread b w n with
    | none => finish s
    | some t => issueBundle s b t

/-! ### What happens next (log 1) -/

/-- Is a term of `Instr` a step of the device, and no instruction of a thread? -/
def isEvent (i : Instr) : Bool := encode i = []
/-- One turn. -/
def runTurn (s : State) : Turn → Host.Outcome State Fault Refusal
  | .event i => if isEvent i then exec i s else finish s
  | .issue b t => issueBundle s b t
  | .prefetch b t a => finish (s.prefetchTurn b t a)
  | .fill b va => finish (s.fillTurn b va)
  | .evict line => finish (s.evictTurn line)

/-- A step that nothing has fixed: a module that has not booted boots; else a partition issues, a cache or a fetch buffer fills or a line
leaves the LLC, or an event of the device or of what is outside it comes, in any order. What the state does not offer changes nothing. -/
def openStep (s : State) : Host.Outcome State Fault Refusal :=
  let (c, s) := s.freeNat
  let (x, s) := s.freeNat
  let (y, s) := s.freeNat
  if s.bootState = 0 then execReset x s
  else if c % 6 = 0 then issueNext s (x % 1024) y
  else if c % 6 = 1 then
    let (a, s) := s.freeNat
    runTurn s (.prefetch x y (addr a))
  else if c % 6 = 2 then runTurn s (.fill x y)
  else if c % 6 = 3 then runTurn s (.evict x)
  else
    match Config.freeEvent s.tick with
    | some i => runTurn { s with tick := s.tick + 1 } (.event i)
    | none => finish s

/-! ### What the end of a step decides -/

/-- What holds at once when a step ends: registers that a completion count has made good or something else has written (spec/11 R227),
waits whose end has come (spec/15 R298; spec/18 R352), what queues report (spec/16 R325), and caches that hold more than they can. -/
def State.notice (s : State) : State :=
  let s := (s.blocks.map (·.1)).foldl State.noticeLandings s
  (s.endWaits.noticeQueues).trimL2.trimLlc
/-- The outcome of a step with what its end decides. -/
def withNotice : Host.Outcome State Fault Refusal → Host.Outcome State Fault Refusal
  | .next s => finish s.notice
  | x => x

end Sys2Proof.Machine
end

