-- ==== Sys2Proof/Machine/Step.lean ====
section
/-! DEFINITION. One step of the machine, and the placing of a word where the next step fetches it. -/
namespace Sys2Proof.Machine
open Sys2Proof

/-- One step: an error that a thread has consumed, what the agenda fixes, or what is left open (log 1), and what the end of a step
decides. -/
def step (s : State) : Host.Outcome State Fault Refusal :=
  withNotice (match s.dueErrors, s.agenda with
    | (b, t, pa) :: _, _ => execErrorConsumption b t pa s
    | [], turn :: rest => runTurn { s with agenda := rest } turn
    | [], [] => openStep s)

/-- Where `withFetchWord` puts the instruction. -/
def probePc : Nat := 0x10000

/-- The translation of the page of `probePc`. -/
def probePage : Xlat :=
  { fn := 1, va := probePc, bits := 16, pa := probePc, w := true, x := true, decaf := false, ext := false }
/-- The thread that runs the instruction, with its page in the last-page register. -/
def probeThread : Thread := { live := true, pc := addr probePc, lastPage := some probePage }
/-- The block that `withFetchWord` runs: one thread of function 1 (log 2). -/
def probeBlock : Block :=
  { fn := 1, status := .running, nwarps := 1, threads := [(0, probeThread)], warps := [(0, { regs := 256, active := true })] }

/-- The state with an instruction where the next step fetches it: a block with one running thread, the instruction's bytes
at its pc (20 bytes, those above `nbits` zero), and its issue next. -/
def State.withFetchWord (s : State) (nbits w : Nat) : State :=
  let s := s.writePA probePc (leBytes 20 (w % 2 ^ nbits))
  { s with blocks := s.blocks.set none s.nextId (some probeBlock), nextId := s.nextId + 1, dueErrors := [],
           agenda := [.issue s.nextId 0] }

end Sys2Proof.Machine
end

