-- ==== Sys2Proof/WellFormed.lean ====
section
/-! DEFINITION. Which terms of `Instr` are instructions or events that can be written down: every operand in the range of its
field class, literals that agree, markings kept (spec/03 R42..R57). -/
namespace Sys2Proof

/-- A source in a `w`-register vector-or-scalar field (spec/03 R47, R50; spec/13 R255). -/
def Src.wf (w : Nat) : Src → Bool
  | .v n => decide (n ≠ 255) && vecOk w n
  | .s n => decide (n ≠ 255) && decide (n ≠ 63) && scaOk w n
  | .zero => true
  | .lit _ => true

def Src.isVec : Src → Bool
  | .v _ => true
  | _ => false
def Src.isSca : Src → Bool
  | .s _ => true
  | _ => false
def Src.isZero : Src → Bool
  | .zero => true
  | _ => false

/-- A destination in a `w`-register field; a scalar destination needs U = 1 (spec/03 R57). -/
def Dst.wf (w : Nat) (u : Bool) : Dst → Bool
  | .v n => decide (n ≠ 255) && vecOk w n
  | .s n => u && decide (n ≠ 255) && decide (n ≠ 63) && scaOk w n
  | .none => true

def Dst.isVec : Dst → Bool
  | .v _ => true
  | _ => false
def Dst.isSca : Dst → Bool
  | .s _ => true
  | _ => false

/-- A source field holds a value of its class; `lit` says that the form carries a literal. A zero in a vector-only field
is vector 255, which reads the literal when there is one (spec/03 R51). -/
def FSpec.wf (lit : Bool) : FSpec → Bool
  | .no | .absent | .blank => true
  | .vs w x => x.wf w
  | .v w x => x.wf w && !x.isSca && !(lit && x.isZero)
  | .sc w x | .scK w x => x.wf w && !x.isVec
  | .pred n => decide (n < 8)
  | .aux _ count n => decide (n < count)
  | .cq n => decide (n < 8)

def DSpec.wf (u : Bool) : DSpec → Bool
  | .no => true
  | .vs w d => d.wf w u
  | .v w d => d.wf w u && !d.isSca
  | .sc w d => d.wf w u && !d.isVec
  | .pred n => decide (n < 8)
  | .aux _ count n => decide (n < count)

/-- A literal operand equals the one literal of the form. -/
def FSpec.litAgrees (lit : Option DWord) (s : FSpec) : Bool :=
  match s.litOf with
  | none => true
  | some _ => s.litOf = lit

/-- Guard, lookahead and uniform marking (spec/03 R56, R57, R58). -/
def Uses.hdrOk (f : Uses) : Bool :=
  decide (f.h.g < 8) && !(f.h.g = 7 && f.h.neg) && decide (f.h.la < 16) && (f.ll || f.h.la = 0) &&
    (match f.mark with
      | .p => true
      | .q => f.h.u
      | .f => !f.h.u)

/-- A form of the field table is encodable. `absent` in CALL's field A rules out a literal. -/
def Uses.wf (f : Uses) : Bool :=
  f.hdrOk && f.ok && f.d.wf f.h.u && f.a.wf f.lit.isSome && f.b.wf f.lit.isSome && f.c.wf f.lit.isSome &&
    f.a.litAgrees f.lit && f.b.litAgrees f.lit && f.c.litAgrees f.lit

/-- A base field of a `w`-register operand: a 6-bit index (spec/03 R43). -/
def BSrc.wf (w : Nat) : BSrc → Bool
  | .v n => decide (n < 64) && baseIdxOk false w n
  | .s n => decide (n < 64) && baseIdxOk true w n
  | .lit _ => true

/-- The fields of a base form against its extended equivalent (spec/03 R42..R44; spec/04 R69). An unused field is 0. -/
def BaseF.wf (f : BaseF) (u : Uses) : Bool :=
  decide (f.g < 8) && (u.mark ≠ .f || !f.u) &&
    (if u.d = .no then decide (f.d = 0) else decide (f.d < 64) && baseIdxOk f.u u.d.regs f.d) &&
    (if u.a = .no then decide (f.a = 0) else decide (f.a < 64) && baseIdxOk f.u u.a.regs f.a) &&
    (if u.b = .no then decide (f.b = .v 0) else f.b.wf u.b.regs)

/-- An instruction of the encodings, well formed. An event's arguments carry their own widths and need no check: an event
that the state does not offer has no effect (log 23). -/
def wellFormed (i : Instr) : Bool :=
  match baseOf i with
  | some (_, f) =>
    match uses (expand i) with
    | some u => f.wf u
    | none => false
  | none =>
    match uses i with
    | some u => u.wf
    | none => true

end Sys2Proof
end

