-- ==== Sys2Proof/Safety.lean ====
section
/-! DEFINITION. What a safe step is, and the terms in which statements speak of the issue of an instruction, of its result
and of what it leaves alone. -/
namespace Sys2Proof

/-- The step answers a next state: the machine neither stops at the model's own fault nor is refused. -/
def SafeStep (s : Machine.State) : Prop := ∃ t, Machine.step s = .next t

/-- A vector or scalar register that a destination of `w` registers names. -/
def Dst.namesV (w : Nat) (d : Dst) (r : Nat) : Prop := ∃ n, d = .v n ∧ n ≤ r ∧ r < n + w
def Dst.namesS (w : Nat) (d : Dst) (r : Nat) : Prop := ∃ n, d = .s n ∧ n ≤ r ∧ r < n + w

namespace Machine

/-! ### The issuing bundle -/

/-- A block is named by a handle. -/
def State.hasBlk (s : State) (b : Nat) : Prop := (s.blocks.get none b).isSome
/-- The block of the issuing bundle. -/
def State.bk (s : State) : Block := s.blk s.sel.blk
/-- The warp of the issuing bundle. -/
def State.wp (s : State) : Nat := warpOf (s.sel.thrs.headD 0)
/-- Executing: the threads of the bundle whose guard holds (spec/15 R292). -/
def State.executing (s : State) (h : Hdr) : List Nat := s.sel.thrs.filter fun t => (s.bk.thr t).guard h
/-- The thread whose operands give a thread's result: its own, or the Leader's under U = 1 (spec/03 R57; spec/15 R292). -/
def State.actor (s : State) (h : Hdr) (t : Nat) : Nat := if h.u then s.sel.thrs.headD 0 else t

/-- The threads that perform an operation: the Leader alone under U = 1, else Executing (spec/03 R57; spec/13 R251). -/
def State.acting (s : State) (h : Hdr) : List Nat := if h.u then [s.sel.thrs.headD 0] else s.executing h

/-- An instruction passes the checks of issue: it is well formed, its bundle is one of a warp of a block, some thread executes,
none of them touches a register that is pending for it (spec/03 R60), and its operands are uniform when it is marked so
(spec/15 R292). `f` is its row of the field table. -/
structure State.Passes (s : State) (i : Instr) (f : Uses) : Prop where
  wf : wellFormed i = true
  row : uses (expand i) = some f
  noHole : s.hole = false
  hasBlk : s.hasBlk s.sel.blk
  distinct : s.sel.thrs.Nodup
  oneWarp : ∀ t ∈ s.sel.thrs, warpOf t = s.wp
  runs : s.executing f.h ≠ []
  noHazard : ∀ t ∈ s.executing f.h,
    s.bk.hazardous t s.wp (touches (expand i) f ++ s.bk.tcNames s.wp (expand i)) = false
  uniform : f.h.u = true → s.bk.uniform f s.wp s.sel.thrs = true

/-! ### What an instruction leaves alone -/

/-- Nothing but blocks differs. -/
def State.OnlyBlocks (s t : State) : Prop := t = { s with blocks := t.blocks }

/-- Of the blocks, only that of the bundle differs. -/
def State.OnlyBundle (s t : State) : Prop := s.OnlyBlocks t ∧ ∀ b, b ≠ s.sel.blk → t.blocks.get none b = s.blocks.get none b

/-- The parts of a block that no instruction on registers writes: all but its threads, its warps, its registers and their tags,
and the window positions of what is pending. -/
def Block.SameRest (k j : Block) : Prop :=
  j = { k with threads := j.threads, warps := j.warps, vregs := j.vregs, vtags := j.vtags, sregs := j.sregs, pend := j.pend }

/-- The bundle has issued an instruction on registers that wrote `w` registers of `d` in Executing: nothing else of the machine
differs. The bundle's threads stand at the next instruction, and %fs has taken flags. -/
structure State.Wrote (s t : State) (h : Hdr) (w : Nat) (d : Dst) (g : Nat → Nat × Flags) : Prop where
  /-- A vector destination holds each executing thread's result. -/
  vec : ∀ n, d = .v n → ∀ x ∈ s.executing h, ∀ j < w,
    t.bk.vreg s.wp (n + j) (laneOf x) = BitVec.ofNat 32 ((g (s.actor h x)).1 / 2 ^ (32 * j))
  /-- A scalar destination holds the first executing thread's result. -/
  sca : ∀ n, d = .s n → ∀ j < w,
    t.bk.sreg s.wp (n + j) = BitVec.ofNat 32 ((g (s.actor h ((s.executing h).headD 0))).1 / 2 ^ (32 * j))
  /-- The flags that the executing threads' results raise. -/
  flags : (t.bk.warp s.wp).fs =
    ((s.executing h).map (s.actor h)).foldl (fun fl x => fl ||| (g x).2) (s.bk.warp s.wp).fs
  pcs : ∀ x ∈ s.sel.thrs, (t.bk.thr x).pc = s.sel.next
  frameVec : ∀ wp r q, r < 256 → q < 32 → ¬ (wp = s.wp ∧ d.namesV w r ∧ ∃ x ∈ s.executing h, laneOf x = q) →
    t.bk.vreg wp r q = s.bk.vreg wp r q
  frameTag : ∀ wp r, r < 256 → ¬ (wp = s.wp ∧ d.namesV w r) → t.bk.tag wp r = s.bk.tag wp r
  frameSca : ∀ wp r, r < 64 → ¬ (wp = s.wp ∧ d.namesS w r) → t.bk.sreg wp r = s.bk.sreg wp r
  frameThr : ∀ x, t.bk.thr x = { s.bk.thr x with pc := (t.bk.thr x).pc }
  framePc : ∀ x, x ∉ s.sel.thrs → (t.bk.thr x).pc = (s.bk.thr x).pc
  frameWarp : ∀ wp, t.bk.warp wp = { s.bk.warp wp with fs := (t.bk.warp wp).fs }
  frameFs : ∀ wp, wp ≠ s.wp → (t.bk.warp wp).fs = (s.bk.warp wp).fs
  frameBlk : s.bk.SameRest t.bk
  frame : s.OnlyBundle t

/-- An instruction on registers completes: wherever it passes the checks of issue, it answers the state in which its destination
of `w` registers holds the results `g`, a number and flags for each thread, and nothing else has changed. -/
def Computes (s : State) (i : Instr) (w : Nat) (d : Dst) (g : Nat → Nat × Flags) : Prop :=
  ∀ f, s.Passes i f → ∃ t, exec i s = .next t ∧ s.Wrote t f.h w d g

/-- The bundle has issued an instruction that writes predicate `p` in Executing: nothing else of the machine differs but the
bundle's addresses and %fs. -/
structure State.Decided (s t : State) (h : Hdr) (p : Nat) (g : Nat → Bool × Flags) : Prop where
  value : p < 7 → ∀ x ∈ s.executing h, (t.bk.thr x).pred p = (g (s.actor h x)).1
  flags : (t.bk.warp s.wp).fs =
    ((s.executing h).map (s.actor h)).foldl (fun fl x => fl ||| (g x).2) (s.bk.warp s.wp).fs
  pcs : ∀ x ∈ s.sel.thrs, (t.bk.thr x).pc = s.sel.next
  framePred : ∀ x q, ¬ (x ∈ s.executing h ∧ q = p) → (t.bk.thr x).pred q = (s.bk.thr x).pred q
  frameThr : ∀ x, t.bk.thr x = { s.bk.thr x with pc := (t.bk.thr x).pc, preds := (t.bk.thr x).preds }
  framePc : ∀ x, x ∉ s.sel.thrs → (t.bk.thr x).pc = (s.bk.thr x).pc
  frameWarp : ∀ wp, t.bk.warp wp = { s.bk.warp wp with fs := (t.bk.warp wp).fs }
  frameFs : ∀ wp, wp ≠ s.wp → (t.bk.warp wp).fs = (s.bk.warp wp).fs
  frameRegs : t.bk.vregs = s.bk.vregs ∧ t.bk.sregs = s.bk.sregs ∧ t.bk.vtags = s.bk.vtags
  frameBlk : s.bk.SameRest t.bk
  frame : s.OnlyBundle t

/-- An instruction that writes a predicate completes. -/
def Decides (s : State) (i : Instr) (p : Nat) (g : Nat → Bool × Flags) : Prop :=
  ∀ f, s.Passes i f → ∃ t, exec i s = .next t ∧ s.Decided t f.h p g

/-! ### Long-latency instructions (spec/03 R58..R60) -/

/-- What is pending, with one more window position used by each of the threads that have gone on. -/
def countPositions (ts : List Nat) (l : List Pending) : List Pending :=
  l.map fun p => { p with thrs := p.thrs.map fun e => if ts.contains e.1 then (e.1, e.2 + 1) else e }

/-- An instruction became pending for Executing: its result, for `w` registers of `d`, is known and not yet written. -/
structure PendingOf (s : State) (h : Hdr) (w : Nat) (d : Dst) (vals : Nat → Nat) (fl : Flags) (p : Pending) : Prop where
  pc : p.pc = s.sel.pc
  la : p.la = h.la
  thrs : p.thrs = (s.executing h).map fun x => (x, 0)
  dst : p.dst = d ∧ p.w = w
  result : ∃ tag, p.result =
    .regs d w ((s.executing h).map fun x => (x, BitVec.ofNat 128 (vals (s.actor h x)))) tag
  flags : p.flags = fl
  ready : p.ready = true

/-- The bundle has issued a long-latency instruction with results `g`: it is pending, its threads have gone on, and nothing else of
a block has changed. -/
structure State.PendedIn (s t : State) (h : Hdr) (w : Nat) (d : Dst) (g : Nat → Nat × Flags) : Prop where
  entry : ∃ p, t.bk.pend = countPositions s.sel.thrs s.bk.pend ++ [p] ∧
    PendingOf s h w d (fun x => (g x).1) (((s.executing h).map (s.actor h)).foldl (fun fl x => fl ||| (g x).2) 0) p
  pcs : ∀ x, t.bk.thr x = if x ∈ s.sel.thrs then { s.bk.thr x with pc := s.sel.next } else s.bk.thr x
  frameBlk : t.bk = { s.bk with threads := t.bk.threads, pend := t.bk.pend }
  others : ∀ b, b ≠ s.sel.blk → t.blocks.get none b = s.blocks.get none b
/-- It worked on registers: nothing else of the machine has changed. -/
structure State.Pended (s t : State) (h : Hdr) (w : Nat) (d : Dst) (g : Nat → Nat × Flags) : Prop extends s.PendedIn t h w d g where
  frame : t = { s with blocks := t.blocks, nextId := s.nextId + 1 }

/-- A long-latency instruction on registers completes its issue. -/
def Pends (s : State) (i : Instr) (w : Nat) (d : Dst) (g : Nat → Nat × Flags) : Prop :=
  ∀ f, s.Passes i f → ∃ t, exec i s = .next t ∧ s.Pended t f.h w d g

/-! ### Instructions that move threads, or touch memory -/

/-- The bundle has issued an instruction whose executing threads went to their targets and the others to the next address;
nothing else of a block differs. -/
structure State.WentOn (s t : State) (h : Hdr) (target : Nat → DWord) : Prop where
  thr : ∀ x, t.bk.thr x =
    { s.bk.thr x with
      pc := if x ∈ s.executing h then target x else if x ∈ s.sel.thrs then s.sel.next else (s.bk.thr x).pc }
  pend : t.bk.pend = countPositions s.sel.thrs s.bk.pend
  frameBlk : t.bk = { s.bk with threads := t.bk.threads, pend := t.bk.pend }
  others : ∀ b, b ≠ s.sel.blk → t.blocks.get none b = s.blocks.get none b
/-- Nothing else of the machine differs either. -/
structure State.Moved (s t : State) (h : Hdr) (target : Nat → DWord) : Prop extends s.WentOn t h target where
  frame : s.OnlyBlocks t

/-- An access of `n` bytes of thread `x` reaches device memory at `pa` through the page that its last-page register holds:
canonical, outside the aperture and the fabric window, aligned, permitted, and no decaf page (spec/13 R248, R250; spec/21
R373). -/
structure State.Reaches (s : State) (x : Nat) (ea : DWord) (n align : Nat) (kind : AccKind) (pa : Nat) : Prop where
  space : canonical ea = true ∧ inFabric ea = false ∧ inAperture ea = false
  aligned : ea.toNat % align = 0
  page : ∃ pg, (s.bk.thr x).lastPage = some pg ∧ pg.holds s.bk.fn ea.toNat = true ∧ pg.permits kind = true ∧
    pg.decaf = false ∧ pa = pg.addr ea.toNat
  device : pa + n ≤ memEnd
  own : s.bk.fn ≠ fwFn
  tracked : ∀ l, pa / 128 ≤ l → l ≤ (pa + n - 1) / 128 → s.misCached s.bk.core false l = false
  whole : ∀ l x, pa / 128 ≤ l → l ≤ (pa + n - 1) / 128 → s.l1At s.bk.core l = some x → x.data.length = 128

/-- The block holds no write back, notes no reads and maps no stash; no memory is poisoned, no reduction is outstanding and no
window is watched or has a format; the L1 need not make room, and nothing that a thread issued before is still to access memory. -/
structure State.PlainMem (s : State) : Prop where
  uncontained : s.bk.contained = false
  noBuf : s.bk.buf = [] ∧ s.bk.merges = []
  untraced : s.bk.trace = none
  unmapped : s.bk.smaps = []
  unpoisoned : s.poisoned = []
  noRed : s.reds = []
  unwatched : s.watches = []
  unroasted : s.roasts = [] ∧ s.sideTags = []
  room : s.l1Count s.bk.core + 128 < l1Cap
  noneAhead : ∀ p ∈ s.bk.pend, p.k = none ∧ p.log = none

/-- Thread `x` alone performs the instruction's operation, with plain memory. -/
structure State.Solo (s : State) (i : Instr) (f : Uses) (x : Nat) : Prop extends s.Passes i f, s.PlainMem where
  sole : s.acting f.h = [x]

/-! ### What a block sees of memory (spec/10 R192, R197, R201, R202)

A plain store reaches the copy of its line in its core's L1 first, and memory once its words are registered; a plain load may read
a clean copy of the core's. What the threads of a block see of a byte is therefore a store of their core that the L2 has not received,
else memory, and a plain load reads that or the core's copy. -/

/-- What the threads of block `b` see of a byte of a page that is not decaf. -/
def State.seen (s : State) (b pa : Nat) : Byte := s.loadByte b false .lsu pa
/-- What they see of `n` bytes. -/
def State.view (s : State) (b pa n : Nat) : List Byte := (List.range n).map fun j => s.seen b (pa + j)
/-- A plain load may read a byte as the block sees it, or as the valid copy in its core's L1 has it. -/
def State.MayRead (s : State) (b pa : Nat) (x : Byte) : Prop :=
  x = s.seen b pa ∨ ∃ l, s.l1At (s.blk b).core (pa / 128) = some l ∧ l.valid.getLsbD (pa % 128) = true ∧
    x = (l.data[pa % 128]?).getD 0
/-- `bs` is what a plain load of `n` bytes at `pa` may read. -/
def State.Reads (s : State) (b pa n : Nat) (bs : List Byte) : Prop :=
  bs.length = n ∧ ∀ j < n, s.MayRead b (pa + j) (bs.getD j 0)

/-- Of memory, nothing has changed but that stores which the block saw have reached it. -/
def State.SameView (s t : State) (b : Nat) : Prop :=
  ∀ a, t.seen b a = s.seen b a ∧ (t.byte a = s.byte a ∨ t.byte a = s.seen b a)
/-- Of memory, nothing differs but that bytes of some lines hold a store of a core that its die's L2 had not received. -/
def State.Published (s t : State) (lines : List Nat) : Prop :=
  ∀ a, t.byte a = s.byte a ∨ (a / 128 ∈ lines ∧ ∃ c, s.ownByte c a = some (t.byte a))
/-- The block sees `bs` from `pa` on and every other byte as it did; memory differs at no byte but where it holds what the block
sees. -/
def State.Puts (s t : State) (b pa : Nat) (bs : List Byte) : Prop :=
  (∀ j < bs.length, t.seen b (pa + j) = bs.getD j 0) ∧
    (∀ a, ¬ (pa ≤ a ∧ a < pa + bs.length) → t.seen b a = s.seen b a) ∧
    ∀ a, t.byte a = s.byte a ∨ t.byte a = t.seen b a

/-- Outside the bundle's block, nothing differs but memory, its core's L1, the LLC, who owns words and what awaits registration,
and the counters of free values and numbers. -/
structure State.CachesOnly (s t : State) : Prop where
  rest : t = { s with blocks := t.blocks, mem := t.mem, cores := t.cores, llc := t.llc, owners := t.owners,
                      pendReg := t.pendReg, tick := t.tick, nextId := t.nextId }
  core : ∀ c, t.core c = { s.core c with l1 := (t.core c).l1 }
  cores : ∀ c, c ≠ s.bk.core → t.core c = s.core c
  blocks : ∀ b, b ≠ s.sel.blk → t.blocks.get none b = s.blocks.get none b

/-- Every line in the L1 and stash of a core is one of device memory, of a page that is not decaf, with its 128 bytes. -/
def State.PlainL1 (s : State) (core : Nat) : Prop :=
  ∀ l x, s.l1At core l = some x → l * 128 + 128 ≤ memEnd ∧ x.decaf = false ∧ x.data.length = 128

/-- A core has acquired: what its L1 and stash still hold are words that it owns and stores that the L2 has not received. -/
def State.Acquired (s : State) (core : Nat) : Prop :=
  ∀ l x, s.l1At core l = some x → ∀ j < 128, x.valid.getLsbD j = true →
    x.dirty.getLsbD j = true ∨ s.owner (dieOf core) (l * 32 + j / 4) = some core

/-- The bytes from `pa` on hold `bs`, and every other byte of memory is as it was. -/
def State.Stored (s t : State) (pa : Nat) (bs : List Byte) : Prop :=
  (∀ j < bs.length, t.byte (pa + j) = bs.getD j 0) ∧ ∀ a, ¬ (pa ≤ a ∧ a < pa + bs.length) → t.byte a = s.byte a

/-- The scratchpad of the bundle's block holds `bs` from `off` on, and every other byte of it is as it was. -/
def State.Scratched (s t : State) (off : Nat) (bs : List Byte) : Prop :=
  (∀ j < bs.length, t.bk.scratch.get 0 (off + j) = bs.getD j 0) ∧
    ∀ a, ¬ (off ≤ a ∧ a < off + bs.length) → t.bk.scratch.get 0 a = s.bk.scratch.get 0 a

/-- Registers of every kind are as they were. -/
def Block.SameRegs (k j : Block) : Prop :=
  j.vregs = k.vregs ∧ j.vtags = k.vtags ∧ j.sregs = k.sregs ∧ j.fds = k.fds ∧ j.tcs = k.tcs ∧ j.tiles = k.tiles ∧
    j.sides = k.sides ∧ j.accs = k.accs ∧ j.kregs = k.kregs

/-- The bundle's threads stand at the next instruction and nothing else of any thread differs; no register of any kind, no
warp and no other block differs. -/
structure State.Passed (s t : State) : Prop where
  thr : ∀ x, t.bk.thr x = if x ∈ s.sel.thrs then { s.bk.thr x with pc := s.sel.next } else s.bk.thr x
  regs : s.bk.SameRegs t.bk
  warps : t.bk.warps = s.bk.warps
  blocks : ∀ b, b ≠ s.sel.blk → t.blocks.get none b = s.blocks.get none b

/-- A scratchpad address selects `n` bytes of the executing block, aligned (spec/13 R247, R250). -/
def State.InScratch (s : State) (a : Word) (n align : Nat) : Prop :=
  a.toNat < 0x10000000 ∧ a.toNat + n ≤ s.bk.scratchSize ∧ a.toNat % align = 0

/-- The instruction is pending for Executing with these values. -/
def State.PendsWith (s t : State) (h : Hdr) (w : Nat) (d : Dst) (g : Nat → Nat) : Prop :=
  ∃ p, t.bk.pend = countPositions s.sel.thrs s.bk.pend ++ [p] ∧ PendingOf s h w d g 0 p

/-! ### Exceptions (spec/23 R400, R401; spec/22 R390) -/

/-- A thread that can raise an exception: live, of a launch, with none raised before. -/
def State.CanRaise (s : State) (x : Nat) : Prop :=
  s.bk.agent = false ∧ (s.bk.thr x).live = true ∧ (s.bk.thr x).raised = none

/-- Thread `x` has raised an exception of this code at the instruction: it stands at its stop point, in mode 0 if it was in the
service handler, and its level, the innermost open region or the launch, is to receive it. -/
structure State.Raised (s t : State) (x : Nat) (code : Word) : Prop where
  held : ∃ e, (t.bk.thr x).raised = some e ∧ e.code = code ∧ e.async = false ∧ e.carried = none ∧
    e.pc = (t.bk.thr x).pc ∧
    e.level = (if launchCode code then none else (s.bk.thr x).tstack.head?.map (·.region)) ∧
    (s.bk.fn, s.bk.lid, e.level) ∈ t.stops
  stop : (t.bk.thr x).pc = if (s.bk.thr x).mode = 1 then (s.bk.thr x).svcPc else s.sel.pc
  mode : (t.bk.thr x).mode = if (s.bk.thr x).mode = 1 then 0 else (s.bk.thr x).mode

/-- An instruction traps in threads `xs`: it answers a state in which each has raised the exception, and neither memory nor any
register of the block differs. -/
def Traps (s : State) (i : Instr) (xs : List Nat) (code : Word) : Prop :=
  ∃ t, exec i s = .next t ∧ (∀ x ∈ xs, s.CanRaise x → s.Raised t x code) ∧ t.mem = s.mem ∧ s.bk.SameRegs t.bk

/-! ### Gatherings (spec/07 R155, R156) -/

/-- The bundle is the whole member set of the mask in `m`: every member has arrived, each holds the mask, and no other thread
that has arrived names one of them. -/
structure State.Gathers (s : State) (i : Instr) (f : Uses) (m : Src) : Prop extends s.Passes i f where
  same : ∀ x ∈ s.sel.thrs, s.bk.members s.wp (s.bk.word x m) = s.sel.thrs ∧
    ∀ y ∈ s.sel.thrs, s.bk.word x m = s.bk.word y m
  here : ∀ x ∈ s.sel.thrs, s.bk.arrived s.sel.pc x = true
  others : ∀ x ∈ s.bk.liveOf s.wp, x ∉ s.sel.thrs → s.bk.arrived s.sel.pc x = true →
    ∀ y ∈ s.bk.members s.wp (s.bk.word x m), y ∉ s.sel.thrs

/-! ### Convergence-issued instructions (spec/08 R168..R173) -/

/-- The bundle may sign the operation of kN: its threads are in the declared set and have not signed, each holds the same operand
values, and an operation already signed is this one. -/
structure State.Signs (s : State) (i : Instr) (f : Uses) (n : Nat) (val : QWord) : Prop where
  wf : wellFormed i = true
  row : uses i = some f
  conv : convReg i = some n
  noHole : s.hole = false
  hasBlk : s.hasBlk s.sel.blk
  distinct : s.sel.thrs.Nodup
  some : s.sel.thrs ≠ []
  small : ∀ x ∈ s.sel.thrs, x < 1024
  declared : (s.bk.kreg n).kind ≠ 0
  inSet : ∀ x ∈ s.sel.thrs, (s.bk.kreg n).set.getLsbD x = true
  unsigned : ∀ x ∈ s.sel.thrs, (s.bk.kreg n).signed.getLsbD x = false
  same : ∀ x ∈ s.sel.thrs, s.bk.convVal x i = val
  agree : (s.bk.kreg n).signed = 0 ∨ ((s.bk.kreg n).opPc = s.sel.pc ∧ (s.bk.kreg n).opVal = val)
  named : s.bk.convNamed (s.bk.kreg n).anchor i = true
  noHazard : ∀ x ∈ s.sel.thrs, (s.bk.thr x).guard f.h = true →
    s.bk.hazardous x (s.bk.kreg n).anchor
      (touches i f ++ s.bk.tcNames (s.bk.kreg n).anchor i) = false

/-- The bundle is the whole set of kN, signs with some guard true, and nothing holds the operation back: it issues. -/
structure State.Converges (s : State) (i : Instr) (f : Uses) (n : Nat) (val : QWord) : Prop extends s.Signs i f n val,
    s.PlainMem where
  whole : ∀ x, (s.bk.kreg n).set.getLsbD x = true ↔ x ∈ s.sel.thrs
  fresh : (s.bk.kreg n).signed = 0
  live : ∃ x ∈ s.sel.thrs, (s.bk.thr x).guard f.h = true
  alive : s.bk.liveThreads.filter (fun x => (s.bk.kreg n).set.getLsbD x) = s.sel.thrs
  ids : ∀ p ∈ s.bk.pend, p.id < s.nextId
  noLog : s.oplog = []

/-! ### Engines and command processors -/

/-- The engine of a core reaches `n` bytes of a function at `va`, inside an aligned 8-byte unit, at `pa`: through the one page that
the core's cache holds (spec/21 R373). -/
structure State.EngineReaches (s : State) (core fn : Nat) (va : DWord) (n : Nat) (kind : AccKind) (pa : Nat) : Prop where
  space : deviceSpace va = true
  unit : va.toNat % 8 + n ≤ 8
  page : ∃ pg, (s.core core).tlb = [pg] ∧ pg.holds fn va.toNat = true ∧ 16 ≤ pg.bits ∧ pg.permits kind = true ∧
    pg.decaf = false ∧ pa = pg.addr va.toNat
  device : pa + n ≤ memEnd

/-- Nothing watches memory or gives it a format, none of it is poisoned, and a block holds no write back and notes no reads. -/
structure State.PlainFor (s : State) (b : Nat) : Prop where
  uncontained : (s.blk b).contained = false
  noBuf : (s.blk b).buf = [] ∧ (s.blk b).merges = []
  untraced : (s.blk b).trace = none
  unpoisoned : s.poisoned = []
  unwatched : s.watches = []
  unroasted : s.roasts = [] ∧ s.sideTags = []

/-- Bytes of a block's scratchpad, without wrapping at the end of its 256 MiB window. -/
def State.scratchHolds (s : State) (b : Nat) (va : DWord) (n : Nat) : Prop :=
  va.toNat + n ≤ 0x10000000 ∧ va.toNat + n ≤ (s.blk b).scratchSize

/-- The command processors reach `n` bytes of a function at `va` at `pa`, in one page (spec/21 R445). -/
def State.CpReaches (s : State) (fn : Nat) (va : DWord) (n : Nat) (kind : AccKind) (pa : Nat) : Prop :=
  s.cpPieces fn kind (n / 65536 + 2) va n = .ok [(pa, n)]

/-! ### Queues (spec/16 R301..R309) -/

/-- The state after writes of bytes at physical addresses, in order. -/
def State.writes (s : State) (ws : List (Nat × List Byte)) : State := ws.foldl (fun s w => s.writeHome w.1 w.2) s

/-- A queue runs, alone in its function, which has no thread and no launch: its control block's words at `pa` say what the queue
does, and its fill position is `f`. The writes `ws` leave the control block alone, and after them, and one of its own words, it is still
reached at `pa`. -/
structure State.QueueRuns (s : State) (fn n pa : Nat) (f : Word) (ws : List (Nat × List Byte)) : Prop where
  noHole : s.hole = false
  unpoisoned : s.poisoned = []
  unwatched : s.watches = []
  unroasted : s.roasts = []
  running : (s.queue fn n).running = true ∧ (s.queue fn n).binding = false ∧ (s.queue fn n).closing = false
  free : (s.queue fn n).fault = none ∧ (s.queue fn n).err = 0 ∧ (s.queue fn n).held = none ∧ (s.queue fn n).inflight = []
  served : s.cpRuns (queueDie fn n) = true
  only : (s.fn fn).queues = [(n, s.queue fn n)]
  alone : s.fnWarps fn = [] ∧ s.launches = []
  fill : s.fill fn n = .ok f ∧
    ¬ (2 ^ (s.queue fn n).log2n < (f - (s.queue fn n).rdidx).toNat ∧ (f - (s.queue fn n).rdidx).toNat ≤ 2 ^ 31)
  apart : ∀ w ∈ ws, w.1 + w.2.length ≤ pa ∨ pa + 16 ≤ w.1
  agree : s.num pa 8 = (s.queue fn n).rdidx.toNat ∧ s.num (pa + 8) 8 = (s.queue fn n).word
  reach : (s.writes ws).CpReaches fn (s.qcb fn n + 0x10) 16 .write pa
  reachAgain : ∀ bs, bs.length = 16 → (s.writes (ws ++ [(pa, bs)])).CpReaches fn (s.qcb fn n + 0x10) 16 .write pa

/-- The packet at P is fetched whole and processable; `w` says whether it has begun to wait. -/
structure State.AtPacket (s : State) (fn n pa : Nat) (ws : List (Nat × List Byte)) (bs : List Byte) (type : Nat) (w : Option Bool) :
    Prop where
  runs : ∃ f, s.QueueRuns fn n pa f ws ∧ processable f (s.queue fn n).pos = true
  here : (s.queue fn n).fetched.find? (fun e => e.1 = (s.queue fn n).pos) = some ((s.queue fn n).pos, bs)
  whole : bs.length = 64
  type : pktType bs = type
  waits : (s.queue fn n).waits = w

/-- The completion record that a packet asks for, as a write at `pb`. -/
def recordWrite (bs : List Byte) (pb : Nat) : List (Nat × List Byte) :=
  if (pktSig bs).isSome then [(pb, recordBytes 1 (pktTag bs) none)] else []
/-- A completion record that a packet asks for is reached at `pb`. -/
def State.recordReached (s : State) (fn : Nat) (bs : List Byte) (pb : Nat) : Prop :=
  ∀ a, pktSig bs = some a → s.CpReaches fn a 64 .write pb

/-- Memory holds the writes `ws`, and the queue's control block says what the queue now does. -/
def State.WroteQueue (s t : State) (fn n pa : Nat) (ws : List (Nat × List Byte)) : Prop :=
  ∀ a, t.byte a = if pa ≤ a ∧ a < pa + 16
    then (leBytes 8 (t.queue fn n).rdidx.toNat ++ leBytes 8 (t.queue fn n).word).getD (a - pa) 0 else (s.writes ws).byte a

/-- The queue has gone on to a position, with no other function and no block changed. RDIDX has moved up by no more than to the lowest
position that the command processor knows that it may still read (spec/16 R302; log 48). -/
structure State.MovedTo (s t : State) (fn n pa : Nat) (ws : List (Nat × List Byte)) (next : Word) : Prop where
  pos : (t.queue fn n).pos = next
  rdidx : ∃ k ≤ (({ t.queue fn n with rdidx := (s.queue fn n).rdidx } : Queue).lowest - (s.queue fn n).rdidx).toNat,
    (t.queue fn n).rdidx = (s.queue fn n).rdidx + BitVec.ofNat 32 k
  state : (t.queue fn n).running = true ∧ (t.queue fn n).waits = none ∧ (t.queue fn n).fault = none ∧
    (t.queue fn n).state = if t.late fn n then 2 else 1
  wrote : s.WroteQueue t fn n pa ws
  fns : ∀ g, g ≠ fn → t.fn g = s.fn g
  blocks : t.blocks = s.blocks

/-- The queue has stopped with an error at position P, with its interrupt; of memory only its control block differs (spec/16
R309). -/
structure State.QueueFailed (s t : State) (fn n pa err : Nat) : Prop where
  queue : (t.queue fn n).running = false ∧ (t.queue fn n).state = 4 ∧ (t.queue fn n).err = err ∧
    (t.queue fn n).errPos = (s.queue fn n).pos
  irqs : t.irqs = s.irqs ++ [(fn, 1)]
  wrote : s.WroteQueue t fn n pa []
  blocks : t.blocks = s.blocks

end Machine
end Sys2Proof
end

