-- ==== Sys2Proof/Certificates/Slice0/Obligations.lean ====
section
/-! DEFINITION. The statements: what the numbered rules of the spec say that an instruction or the machine does. -/
open Sys2Proof Sys2Proof.Machine

/-! ### Integer, logic and move instructions (spec/07 R133..R145) -/

/-- IADD, ISUB and IMUL compute modulo 2^w, and the extended forms extend the result of a narrow type (R134); IMULH gives the
upper half of the product and IMAD adds the third source (R135). -/
def Obligations.IntegerAddMulResults : Prop := ∀ s : State,
  (∀ f, Computes s (.iaddI32Base f) 1 f.dst fun x => ((s.bk.word x f.srcA + s.bk.word x f.srcB).toNat, 0)) ∧
  (∀ f, Computes s (.isubI32Base f) 1 f.dst fun x => ((s.bk.word x f.srcA - s.bk.word x f.srcB).toNat, 0)) ∧
  (∀ f, Computes s (.imulI32Base f) 1 f.dst fun x => ((s.bk.word x f.srcA * s.bk.word x f.srcB).toNat, 0)) ∧
  (∀ f, Computes s (.iaddI64Base f) 2 f.dst fun x => ((s.bk.pair x f.srcA + s.bk.pair x f.srcB).toNat, 0)) ∧
  (∀ f, Computes s (.isubI64Base f) 2 f.dst fun x => ((s.bk.pair x f.srcA - s.bk.pair x f.srcB).toNat, 0)) ∧
  (∀ f, Computes s (.imulI64Base f) 2 f.dst fun x => ((s.bk.pair x f.srcA * s.bk.pair x f.srcB).toNat, 0)) ∧
  (∀ f, Computes s (.imulhI32Base f) 1 f.dst fun x =>
    (((s.bk.word x f.srcA).toInt * (s.bk.word x f.srcB).toInt / 2 ^ 32 % 2 ^ 32).toNat, 0)) ∧
  (∀ f, Computes s (.imulhN32Base f) 1 f.dst fun x =>
    ((s.bk.word x f.srcA).toNat * (s.bk.word x f.srcB).toNat / 2 ^ 32, 0)) ∧
  (∀ h ty d a b, Computes s (.iadd h ty d a b) ty.regs d fun x =>
    (ty.write (ty.read (s.bk.num x ty.regs a) + ty.read (s.bk.num x ty.regs b)), 0)) ∧
  (∀ h ty d a b, Computes s (.isub h ty d a b) ty.regs d fun x =>
    (ty.write (ty.read (s.bk.num x ty.regs a) - ty.read (s.bk.num x ty.regs b)), 0)) ∧
  (∀ h ty d a b, Computes s (.imul h ty d a b) ty.regs d fun x =>
    (ty.write (ty.read (s.bk.num x ty.regs a) * ty.read (s.bk.num x ty.regs b)), 0)) ∧
  (∀ h ty d a b, Computes s (.imulh h ty d a b) ty.regs d fun x =>
    (ty.write (ty.read (s.bk.num x ty.regs a) * ty.read (s.bk.num x ty.regs b) / 2 ^ ty.bits), 0)) ∧
  (∀ h ty d a b c, Computes s (.imad h false ty d a b c) ty.regs d fun x =>
    (ty.write (ty.read (s.bk.num x ty.regs a) * ty.read (s.bk.num x ty.regs b) + ty.read (s.bk.num x ty.regs c)), 0)) ∧
  (∀ h ty d a b c, Computes s (.imad h true ty d a b c) 2 d fun x =>
    (((ty.read (s.bk.num x ty.regs a) * ty.read (s.bk.num x ty.regs b) + (s.bk.num x 2 c : Int)) % 2 ^ 64).toNat, 0))

/-- IMIN and IMAX compare by the signedness of the type (R134); LEA adds the extended and shifted index (R137); IDOT4 adds four
byte products (R136); ICMP's like are in `PredicateResults`. -/
def Obligations.IntegerMinMaxAddressResults : Prop := ∀ s : State,
  (∀ f, Computes s (.iminI32Base f) 1 f.dst fun x =>
    ((if (s.bk.word x f.srcA).slt (s.bk.word x f.srcB) then s.bk.word x f.srcA else s.bk.word x f.srcB).toNat, 0)) ∧
  (∀ f, Computes s (.imaxI32Base f) 1 f.dst fun x =>
    ((if (s.bk.word x f.srcA).slt (s.bk.word x f.srcB) then s.bk.word x f.srcB else s.bk.word x f.srcA).toNat, 0)) ∧
  (∀ f, Computes s (.iminN32Base f) 1 f.dst fun x => (min (s.bk.word x f.srcA).toNat (s.bk.word x f.srcB).toNat, 0)) ∧
  (∀ f, Computes s (.imaxN32Base f) 1 f.dst fun x => (max (s.bk.word x f.srcA).toNat (s.bk.word x f.srcB).toNat, 0)) ∧
  (∀ f, Computes s (.iminI64Base f) 2 f.dst fun x =>
    ((if (s.bk.pair x f.srcA).slt (s.bk.pair x f.srcB) then s.bk.pair x f.srcA else s.bk.pair x f.srcB).toNat, 0)) ∧
  (∀ f, Computes s (.imaxI64Base f) 2 f.dst fun x =>
    ((if (s.bk.pair x f.srcA).slt (s.bk.pair x f.srcB) then s.bk.pair x f.srcB else s.bk.pair x f.srcA).toNat, 0)) ∧
  (∀ h ty d a b, Computes s (.imin h ty d a b) ty.regs d fun x =>
    (ty.write (min (ty.read (s.bk.num x ty.regs a)) (ty.read (s.bk.num x ty.regs b))), 0)) ∧
  (∀ h ty d a b, Computes s (.imax h ty d a b) ty.regs d fun x =>
    (ty.write (max (ty.read (s.bk.num x ty.regs a)) (ty.read (s.bk.num x ty.regs b))), 0)) ∧
  (∀ f, Computes s (.leaN32S2Base f) 2 f.dst fun x =>
    ((s.bk.pair x f.srcA + ((s.bk.word x f.srcB).setWidth 64 <<< 2)).toNat, 0)) ∧
  (∀ f, Computes s (.leaN32S3Base f) 2 f.dst fun x =>
    ((s.bk.pair x f.srcA + ((s.bk.word x f.srcB).setWidth 64 <<< 3)).toNat, 0)) ∧
  (∀ f, Computes s (.leaI32S2Base f) 2 f.dst fun x =>
    ((s.bk.pair x f.srcA + ((s.bk.word x f.srcB).signExtend 64 <<< 2)).toNat, 0)) ∧
  (∀ f, Computes s (.leaI32S3Base f) 2 f.dst fun x =>
    ((s.bk.pair x f.srcA + ((s.bk.word x f.srcB).signExtend 64 <<< 3)).toNat, 0)) ∧
  (∀ h ty sh d a b, Computes s (.lea h ty sh d a b) 2 d fun x =>
    ((((s.bk.num x 2 a : Int) + ty.read (s.bk.num x ty.regs b) * 2 ^ sh) % 2 ^ 64).toNat, 0)) ∧
  (∀ h sa sb d a b c, Computes s (.idot4 h sa sb d a b c) 1 d fun x =>
    let p := fun j => byteOf sa (s.bk.num x 1 a) j * byteOf sb (s.bk.num x 1 b) j
    ((((s.bk.word x c).toInt + p 0 + p 1 + p 2 + p 3) % 2 ^ 32).toNat, 0))

/-- AND, OR and XOR (R139); LOP3 reads its table by the bits of its sources (R140); the shift count is not reduced (R141); SHF
reduces it modulo 64 (R142). -/
def Obligations.LogicAndShiftResults : Prop := ∀ s : State,
  (∀ f, Computes s (.andN32Base f) 1 f.dst fun x => ((s.bk.word x f.srcA &&& s.bk.word x f.srcB).toNat, 0)) ∧
  (∀ f, Computes s (.orN32Base f) 1 f.dst fun x => ((s.bk.word x f.srcA ||| s.bk.word x f.srcB).toNat, 0)) ∧
  (∀ f, Computes s (.xorN32Base f) 1 f.dst fun x => ((s.bk.word x f.srcA ^^^ s.bk.word x f.srcB).toNat, 0)) ∧
  (∀ f, Computes s (.andN64Base f) 2 f.dst fun x => ((s.bk.pair x f.srcA &&& s.bk.pair x f.srcB).toNat, 0)) ∧
  (∀ f, Computes s (.orN64Base f) 2 f.dst fun x => ((s.bk.pair x f.srcA ||| s.bk.pair x f.srcB).toNat, 0)) ∧
  (∀ f, Computes s (.xorN64Base f) 2 f.dst fun x => ((s.bk.pair x f.srcA ^^^ s.bk.pair x f.srcB).toNat, 0)) ∧
  (∀ f, Computes s (.shlN32Base f) 1 f.dst fun x => ((s.bk.word x f.srcA <<< (s.bk.word x f.srcB).toNat).toNat, 0)) ∧
  (∀ f, Computes s (.shrN32Base f) 1 f.dst fun x => ((s.bk.word x f.srcA >>> (s.bk.word x f.srcB).toNat).toNat, 0)) ∧
  (∀ f, Computes s (.sarI32Base f) 1 f.dst fun x => (((s.bk.word x f.srcA).sshiftRight (s.bk.word x f.srcB).toNat).toNat, 0)) ∧
  (∀ f, Computes s (.shlN64Base f) 2 f.dst fun x => ((s.bk.pair x f.srcA <<< (s.bk.word x f.srcB).toNat).toNat, 0)) ∧
  (∀ f, Computes s (.shrN64Base f) 2 f.dst fun x => ((s.bk.pair x f.srcA >>> (s.bk.word x f.srcB).toNat).toNat, 0)) ∧
  (∀ f, Computes s (.sarI64Base f) 2 f.dst fun x => (((s.bk.pair x f.srcA).sshiftRight (s.bk.word x f.srcB).toNat).toNat, 0)) ∧
  (∀ h w d a b, Computes s (.and h w d a b) (nTy w).regs d fun x =>
    (s.bk.num x (nTy w).regs a &&& s.bk.num x (nTy w).regs b, 0)) ∧
  (∀ h w d a b, Computes s (.or h w d a b) (nTy w).regs d fun x =>
    (s.bk.num x (nTy w).regs a ||| s.bk.num x (nTy w).regs b, 0)) ∧
  (∀ h w d a b, Computes s (.xor h w d a b) (nTy w).regs d fun x =>
    (s.bk.num x (nTy w).regs a ^^^ s.bk.num x (nTy w).regs b, 0)) ∧
  (∀ h d a b, Computes s (.shl h false d a b) 1 d fun x => ((s.bk.word x a <<< (s.bk.word x b).toNat).toNat, 0)) ∧
  (∀ h d a b, Computes s (.shl h true d a b) 2 d fun x => ((s.bk.pair x a <<< (s.bk.word x b).toNat).toNat, 0)) ∧
  (∀ h d a b, Computes s (.shr h false d a b) 1 d fun x => ((s.bk.word x a >>> (s.bk.word x b).toNat).toNat, 0)) ∧
  (∀ h d a b, Computes s (.shr h true d a b) 2 d fun x => ((s.bk.pair x a >>> (s.bk.word x b).toNat).toNat, 0)) ∧
  (∀ h d a b, Computes s (.sar h false d a b) 1 d fun x => (((s.bk.word x a).sshiftRight (s.bk.word x b).toNat).toNat, 0)) ∧
  (∀ h d a b, Computes s (.sar h true d a b) 2 d fun x => (((s.bk.pair x a).sshiftRight (s.bk.word x b).toNat).toNat, 0)) ∧
  (∀ h tb d a b c, Computes s (.lop3 h tb d a b c) 1 d fun x =>
    ((BitVec.ofBoolListLE ((List.range 32).map fun q =>
      tb.getLsbD (((s.bk.word x c).getLsbD q).toNat * 4 + ((s.bk.word x b).getLsbD q).toNat * 2 +
        ((s.bk.word x a).getLsbD q).toNat))).toNat, 0)) ∧
  (∀ h d a b c, Computes s (.shf h .l d a b c) 1 d fun x =>
    ((((s.bk.word x a ++ s.bk.word x b : DWord) <<< ((s.bk.word x c).toNat % 64)) >>> 32).toNat, 0)) ∧
  (∀ h d a b c, Computes s (.shf h .r d a b c) 1 d fun x =>
    (((s.bk.word x a ++ s.bk.word x b : DWord) >>> ((s.bk.word x c).toNat % 64)).toNat % 2 ^ 32, 0)) ∧
  (∀ h d a b c, Computes s (.shf h .rl d a b c) 1 d fun x =>
    (((s.bk.word x a ++ s.bk.word x b : DWord).rotateLeft ((s.bk.word x c).toNat % 64) >>> 32).toNat, 0)) ∧
  (∀ h d a b c, Computes s (.shf h .rr d a b c) 1 d fun x =>
    (((s.bk.word x a ++ s.bk.word x b : DWord).rotateRight ((s.bk.word x c).toNat % 64)).toNat % 2 ^ 32, 0))

/-- BFE and BFI take position and length from source B (R143); POPC, CLZ, CTZ and BREV (R144); PRMT (R161); SEL chooses by its
predicate (R138); the moves and the special registers other than %cyc (R145). -/
def Obligations.BitFieldAndMoveResults : Prop := ∀ s : State,
  (∀ f, Computes s (.popcN32Base f) 1 f.dst fun x => (popc 32 (s.bk.num x 1 f.srcB), 0)) ∧
  (∀ f, Computes s (.clzN32Base f) 1 f.dst fun x => (((s.bk.word x f.srcB).clz).toNat, 0)) ∧
  (∀ f, Computes s (.ctzN32Base f) 1 f.dst fun x => (((s.bk.word x f.srcB).reverse.clz).toNat, 0)) ∧
  (∀ f, Computes s (.brevN32Base f) 1 f.dst fun x => ((s.bk.word x f.srcB).reverse.toNat, 0)) ∧
  (∀ f, Computes s (.movBase f) 1 f.dst fun x => ((s.bk.word x f.srcB).toNat, 0)) ∧
  (∀ f, Computes s (.movlBase f) 2 f.dst fun x => ((s.bk.pair x f.srcB).toNat, 0)) ∧
  (∀ h w d b, Computes s (.popc h w d b) 1 d fun x => (popc (nTy w).bits (s.bk.num x (nTy w).regs b), 0)) ∧
  (∀ h w d b, Computes s (.clz h w d b) 1 d fun x => (clz (nTy w).bits (s.bk.num x (nTy w).regs b), 0)) ∧
  (∀ h w d b, Computes s (.ctz h w d b) 1 d fun x => (ctz (nTy w).bits (s.bk.num x (nTy w).regs b), 0)) ∧
  (∀ h w d b, Computes s (.brev h w d b) (nTy w).regs d fun x => (brev (nTy w).bits (s.bk.num x (nTy w).regs b), 0)) ∧
  (∀ h d b, Computes s (.mov h d b) 1 d fun x => ((s.bk.word x b).toNat, 0)) ∧
  (∀ h d b, Computes s (.movl h d b) 2 d fun x => ((s.bk.pair x b).toNat, 0)) ∧
  (∀ h w d a b p, Computes s (.sel h w d a b p) (nTy w).regs d fun x =>
    (if (s.bk.thr x).pred p then s.bk.num x (nTy w).regs a else s.bk.num x (nTy w).regs b, 0)) ∧
  (∀ h ty d a b, Computes s (.bfe h ty d a b) ty.regs d fun x =>
    (bfe ty (s.bk.num x ty.regs a) (s.bk.num x 1 b), 0)) ∧
  (∀ h w d a b c, Computes s (.bfi h w d a b c) (nTy w).regs d fun x =>
    (bfi (nTy w).bits (s.bk.num x (nTy w).regs a) (s.bk.num x 1 b) (s.bk.num x (nTy w).regs c), 0)) ∧
  (∀ h d a b c, Computes s (.prmt h d a b c) 1 d fun x => (prmt (s.bk.num x 1 a) (s.bk.num x 1 b) (s.bk.num x 1 c), 0)) ∧
  (∀ h n d, n ≠ 0xC → Computes s (.rdsr h n d) (srRegs n) d fun x => (s.bk.special x n, 0)) ∧
  (∀ h n d, Computes s (.rdexc h n d) (excRegs n) d fun x => ((s.bk.thr x).excItem n, 0)) ∧
  (∀ h d n, Computes s (.movs h (.fromFd d n)) 1 d fun _ => ((s.bk.fd s.wp n).toNat, 0))

/-! ### Floating-point instructions (spec/07 R146..R154) -/

/-- FADD, FMUL, FFMA, FMIN, FMAX, FRND and the packed halves deliver the one rounded result of spec/05 with its flags. -/
def Obligations.FloatResults : Prop := ∀ s : State,
  (∀ f, Computes s (.faddF32Base f) 1 f.dst fun x => f32.add .rne (s.bk.fval x .f32 f.srcA) (s.bk.fval x .f32 f.srcB)) ∧
  (∀ f, Computes s (.fmulF32Base f) 1 f.dst fun x => f32.mul .rne (s.bk.fval x .f32 f.srcA) (s.bk.fval x .f32 f.srcB)) ∧
  (∀ f, Computes s (.fminF32Base f) 1 f.dst fun x => f32.minmax false (s.bk.num x 1 f.srcA) (s.bk.num x 1 f.srcB)) ∧
  (∀ f, Computes s (.fmaxF32Base f) 1 f.dst fun x => f32.minmax true (s.bk.num x 1 f.srcA) (s.bk.num x 1 f.srcB)) ∧
  (∀ f, Computes s (.faddF16Base f) 1 f.dst fun x => f16.add .rne (s.bk.fval x .f16 f.srcA) (s.bk.fval x .f16 f.srcB)) ∧
  (∀ f, Computes s (.fmulF16Base f) 1 f.dst fun x => f16.mul .rne (s.bk.fval x .f16 f.srcA) (s.bk.fval x .f16 f.srcB)) ∧
  (∀ f, Computes s (.faddBf16Base f) 1 f.dst fun x => bf16.add .rne (s.bk.fval x .bf16 f.srcA) (s.bk.fval x .bf16 f.srcB)) ∧
  (∀ f, Computes s (.fmulBf16Base f) 1 f.dst fun x => bf16.mul .rne (s.bk.fval x .bf16 f.srcA) (s.bk.fval x .bf16 f.srcB)) ∧
  (∀ f, Computes s (.frndF32Base f) 1 f.dst fun x => frnd f32 false .rne (s.bk.fval x .f32 f.srcB)) ∧
  (∀ h ty rm d a b, Computes s (.fadd h ty rm d a b) ty.regs d fun x =>
    (Ieee.ofTy ty).add rm (s.bk.fval x ty a) (s.bk.fval x ty b)) ∧
  (∀ h ty rm d a b, Computes s (.fmul h ty rm d a b) ty.regs d fun x =>
    (Ieee.ofTy ty).mul rm (s.bk.fval x ty a) (s.bk.fval x ty b)) ∧
  (∀ h ty rm d a b c, Computes s (.ffma h ty rm d a b c) ty.regs d fun x =>
    (Ieee.ofTy ty).fma rm (s.bk.fval x ty a) (s.bk.fval x ty b) (s.bk.fval x ty c)) ∧
  (∀ h ty d a b, Computes s (.fmin h ty d a b) ty.regs d fun x =>
    (Ieee.ofTy ty).minmax false (s.bk.num x ty.regs a % 2 ^ ty.bits) (s.bk.num x ty.regs b % 2 ^ ty.bits)) ∧
  (∀ h ty d a b, Computes s (.fmax h ty d a b) ty.regs d fun x =>
    (Ieee.ofTy ty).minmax true (s.bk.num x ty.regs a % 2 ^ ty.bits) (s.bk.num x ty.regs b % 2 ^ ty.bits)) ∧
  (∀ h x' ty rm d b, Computes s (.frnd h x' ty rm d b) ty.regs d fun x => frnd (Ieee.ofTy ty) x' rm (s.bk.fval x ty b))

/-- The packed instructions work on each half alone, and HDOT2 rounds one exact sum of products (R151). -/
def Obligations.PackedHalfResults : Prop := ∀ s : State,
  let halves := fun (ty : Ty) (g : FVal → FVal → Res) (x : Nat) (a b : Src) =>
    two (g (half ty (s.bk.num x 1 a) 0) (half ty (s.bk.num x 1 b) 0)) (g (half ty (s.bk.num x 1 a) 1) (half ty (s.bk.num x 1 b) 1))
  (∀ f, Computes s (.hadd2F16Base f) 1 f.dst fun x => halves .f16 (f16.add .rne) x f.srcA f.srcB) ∧
  (∀ f, Computes s (.hmul2F16Base f) 1 f.dst fun x => halves .f16 (f16.mul .rne) x f.srcA f.srcB) ∧
  (∀ f, Computes s (.hadd2Bf16Base f) 1 f.dst fun x => halves .bf16 (bf16.add .rne) x f.srcA f.srcB) ∧
  (∀ f, Computes s (.hmul2Bf16Base f) 1 f.dst fun x => halves .bf16 (bf16.mul .rne) x f.srcA f.srcB) ∧
  (∀ h ty rm d a b, Computes s (.hadd2 h ty rm d a b) 1 d fun x => halves ty ((Ieee.ofTy ty).add rm) x a b) ∧
  (∀ h ty rm d a b, Computes s (.hmul2 h ty rm d a b) 1 d fun x => halves ty ((Ieee.ofTy ty).mul rm) x a b) ∧
  (∀ h ty rm d a b c, Computes s (.hfma2 h ty rm d a b c) 1 d fun x =>
    let g := fun j => (Ieee.ofTy ty).fma rm (half ty (s.bk.num x 1 a) j) (half ty (s.bk.num x 1 b) j) (half ty (s.bk.num x 1 c) j)
    two (g 0) (g 1)) ∧
  (∀ h ts rm d a b c, Computes s (.hdot2 h ts rm d a b c) 1 d fun x =>
    f32.dot rm [(half ts (s.bk.num x 1 a) 0, half ts (s.bk.num x 1 b) 0), (half ts (s.bk.num x 1 a) 1, half ts (s.bk.num x 1 b) 1)]
      (f32.decode (s.bk.num x 1 c)))

/-- A converting instruction of these types finds a valid descriptor, and a container that it names (spec/05 R87; R153). -/
def DescReady (s : State) (td ts : CTy) (room : Narrow → Prop) : Prop :=
  td.isNarrow || ts.isNarrow → (convDesc s.bk s.wp td ts).valid ∧ room (convDesc s.bk s.wp td ts)

/-- CVT, PACK and UNPACK deliver the converted value (R152, R153, R154). -/
def Obligations.ConversionResults : Prop := ∀ s : State,
  let cv := fun (td ts : Ty) (rm : Rm) (x : Nat) (b : Src) =>
    convert false (.std td) (.std ts) (convDesc s.bk s.wp (.std td) (.std ts)) rm (s.bk.num x ts.regs b)
  (∀ f, Computes s (.cvtF32I32Base f) 1 f.dst fun x => cv .f32 .i32 .rne x f.srcB) ∧
  (∀ f, Computes s (.cvtF32N32Base f) 1 f.dst fun x => cv .f32 .n32 .rne x f.srcB) ∧
  (∀ f, Computes s (.cvtI32F32Base f) 1 f.dst fun x => cv .i32 .f32 .rz x f.srcB) ∧
  (∀ f, Computes s (.cvtN32F32Base f) 1 f.dst fun x => cv .n32 .f32 .rz x f.srcB) ∧
  (∀ f, Computes s (.cvtF32F16Base f) 1 f.dst fun x => cv .f32 .f16 .rne x f.srcB) ∧
  (∀ f, Computes s (.cvtF16F32Base f) 1 f.dst fun x => cv .f16 .f32 .rne x f.srcB) ∧
  (∀ f, Computes s (.cvtF32Bf16Base f) 1 f.dst fun x => cv .f32 .bf16 .rne x f.srcB) ∧
  (∀ f, Computes s (.cvtBf16F32Base f) 1 f.dst fun x => cv .bf16 .f32 .rne x f.srcB) ∧
  (∀ f, Computes s (.cvtF64F32Base f) 2 f.dst fun x => cv .f64 .f32 .rne x f.srcB) ∧
  (∀ f, Computes s (.cvtF32F64Base f) 1 f.dst fun x => cv .f32 .f64 .rne x f.srcB) ∧
  (∀ f, Computes s (.cvtI32I16Base f) 1 f.dst fun x => cv .i32 .i16 .rne x f.srcB) ∧
  (∀ f, Computes s (.cvtI32I8Base f) 1 f.dst fun x => cv .i32 .i8 .rne x f.srcB) ∧
  (∀ f, Computes s (.cvtN32N16Base f) 1 f.dst fun x => cv .n32 .n16 .rne x f.srcB) ∧
  (∀ f, Computes s (.cvtN32N8Base f) 1 f.dst fun x => cv .n32 .n8 .rne x f.srcB) ∧
  (∀ h sat td ts rm d b, DescReady s td ts (fun _ => True) → Computes s (.cvt h sat td ts rm d b) td.regs d fun x =>
    convert sat td ts (convDesc s.bk s.wp td ts) rm (s.bk.num x ts.regs b)) ∧
  (∀ h td ts rm n d a c, DescReady s td ts (fun v => n < 32 / contWidth v td) → Computes s (.pack h td ts rm n d a c) 1 d fun x =>
    let v := convDesc s.bk s.wp td ts
    let r := convert false td ts v rm (s.bk.num x 1 a)
    (insertAt (contWidth v td) n (s.bk.num x 1 c) r.1, r.2)) ∧
  (∀ h td ts rm n d b, DescReady s td ts (fun v => n < 32 / contWidth v ts) → Computes s (.unpack h td ts rm n d b) 1 d fun x =>
    let v := convDesc s.bk s.wp td ts
    convert false td ts v rm (s.bk.num x 1 b / 2 ^ (contWidth v ts * n) % 2 ^ contWidth v ts))

/-- ICMP, PSET and FCMP write their predicate in Executing and nothing else; a write to p7 is discarded (spec/02 R28; R138,
R148). -/
def Obligations.PredicateResults : Prop := ∀ s : State,
  (∀ h op ty pd a b, Decides s (.icmp h op ty pd a b) pd fun x =>
    (op.holds (ty.read (s.bk.num x ty.regs a)) (ty.read (s.bk.num x ty.regs b)), 0)) ∧
  (∀ h op pd pa pb, Decides s (.pset h op pd pa pb) pd fun x =>
    (match op with
      | .and => (s.bk.thr x).pred pa && (s.bk.thr x).pred pb
      | .or => (s.bk.thr x).pred pa || (s.bk.thr x).pred pb
      | .xor => (s.bk.thr x).pred pa ^^ (s.bk.thr x).pred pb
      | .andn => (s.bk.thr x).pred pa && !(s.bk.thr x).pred pb
      | .orn => (s.bk.thr x).pred pa || !(s.bk.thr x).pred pb, 0)) ∧
  (∀ h op ty pd a b, Decides s (.fcmp h op ty pd a b) pd fun x =>
    (fcmp op (s.bk.fval x ty a) (s.bk.fval x ty b),
      if (s.bk.fval x ty a).isSnan || (s.bk.fval x ty b).isSnan then fNV else 0))

/-! ### Control transfer (spec/07 R162..R167) -/

/-- BRA, BRX, NOP and YIELD complete and send their threads on; a misaligned target raises ALIGN.

NOP goes on; BRA and BRX go to their target, which is the instruction's own address or the pair A, plus the offset; YIELD
goes on and marks its warp (R164, R167).

A target that is not a multiple of 4 raises ALIGN in each thread that has it (R164). -/
def Obligations.BranchRules : Prop :=
  -- branch results
  (∀ s : State,
  (∀ fb f, s.Passes (.nop fb) f → ∃ t, exec (.nop fb) s = .next t ∧ s.Moved t f.h fun _ => s.sel.next) ∧
  (∀ h f, s.Passes (.nopExt h) f → ∃ t, exec (.nopExt h) s = .next t ∧ s.Moved t h fun _ => s.sel.next) ∧
  (∀ h off f, s.Passes (.bra h off) f → (addOff s.sel.pc off).toNat % 4 = 0 →
    ∃ t, exec (.bra h off) s = .next t ∧ s.Moved t h fun _ => s.sel.pc + off.signExtend 64) ∧
  (∀ h a off f, s.Passes (.brx h a off) f → (∀ x ∈ s.executing h, (addOff (s.bk.pair x a) off).toNat % 4 = 0) →
    ∃ t, exec (.brx h a off) s = .next t ∧ s.Moved t h fun x => s.bk.pair x a + off.signExtend 64) ∧
  (∀ h f, s.Passes (.yield h) f → ∃ t, exec (.yield h) s = .next t ∧
    (∀ x, t.bk.thr x = if x ∈ s.sel.thrs then { s.bk.thr x with pc := s.sel.next } else s.bk.thr x) ∧
    (∀ wp, t.bk.warp wp = if wp = s.wp then { s.bk.warp wp with yielded := true } else s.bk.warp wp) ∧
    t.bk = { s.bk with threads := t.bk.threads, warps := t.bk.warps, pend := t.bk.pend } ∧ s.OnlyBundle t)) ∧
  -- branch alignment
  (∀ s : State,
  (∀ h off f, s.Passes (.bra h off) f → (addOff s.sel.pc off).toNat % 4 ≠ 0 →
    Traps s (.bra h off) (s.executing h) cALIGN) ∧
  (∀ h a off f, s.Passes (.brx h a off) f →
    Traps s (.brx h a off) ((s.executing h).filter fun x => (addOff (s.bk.pair x a) off).toNat % 4 ≠ 0) cALIGN))

/-- CALL and RET complete: they move the stack pointer and the pc; the stack has its limits.

CALL pushes the address after it, 8 bytes below %sp, and goes to its target; RET pops the address it goes to (R165), a plain
load. The stack page is in the thread's last-page register.

A CALL for which the stack has no room, or whose stack has size 0, and a RET at the stack base raise STACK (spec/15 R294;
R165). -/
def Obligations.CallRules : Prop :=
  -- call return results
  (∀ s : State,
  (∀ h a off f x pa, s.Solo (.call h a off) f x →
    (match a with
      | none => s.sel.pc + off.signExtend 64
      | some a => s.bk.pair x a + off.signExtend 64).toNat % 4 = 0 →
    (s.bk.warp s.wp).stackLimit ≠ 0 →
    (s.stackBase s.sel.blk x - (s.bk.warp s.wp).stackLimit.setWidth 64).toNat + 8 ≤ (s.bk.thr x).sp.toNat →
    s.Reaches x ((s.bk.thr x).sp - 8) 8 8 .write pa →
    ∃ t, exec (.call h a off) s = .next t ∧ s.Puts t s.sel.blk pa (leBytes 8 s.sel.next.toNat) ∧ s.CachesOnly t ∧
      s.bk.SameRegs t.bk ∧
      t.bk.thr x = { s.bk.thr x with
        sp := (s.bk.thr x).sp - 8
        pc := match a with
          | none => s.sel.pc + off.signExtend 64
          | some a => s.bk.pair x a + off.signExtend 64 } ∧
      ∀ y, y ≠ x → t.bk.thr y = if y ∈ s.sel.thrs then { s.bk.thr y with pc := s.sel.next } else s.bk.thr y) ∧
  (∀ h f x pa, s.Solo (.ret h) f x → (s.bk.thr x).sp ≠ s.stackBase s.sel.blk x →
    s.Reaches x (s.bk.thr x).sp 8 8 .read pa → (∀ bs, s.Reads s.sel.blk pa 8 bs → leNat bs % 4 = 0) →
    ∃ t bs, exec (.ret h) s = .next t ∧ s.Reads s.sel.blk pa 8 bs ∧ t.mem = s.mem ∧ s.CachesOnly t ∧ s.bk.SameRegs t.bk ∧
      t.bk.thr x = { s.bk.thr x with sp := (s.bk.thr x).sp + 8, pc := BitVec.ofNat 64 (leNat bs) } ∧
      ∀ y, y ≠ x → t.bk.thr y = if y ∈ s.sel.thrs then { s.bk.thr y with pc := s.sel.next } else s.bk.thr y)) ∧
  -- stack limits
  (∀ s : State,
  (∀ h a off f x, s.Solo (.call h a off) f x →
    (match a with
      | none => s.sel.pc + off.signExtend 64
      | some a => s.bk.pair x a + off.signExtend 64).toNat % 4 = 0 →
    ((s.bk.warp s.wp).stackLimit = 0 ∨
      (s.bk.thr x).sp.toNat < (s.stackBase s.sel.blk x - (s.bk.warp s.wp).stackLimit.setWidth 64).toNat + 8) →
    Traps s (.call h a off) [x] cSTACK) ∧
  (∀ h f x, s.Solo (.ret h) f x → (s.bk.thr x).sp = s.stackBase s.sel.blk x → Traps s (.ret h) [x] cSTACK))

/-! ### Memory (spec/13 R247..R267) -/

/-- LD is long-latency: it becomes pending with the bytes at its address, lowest byte first, extended by its type (R252). A plain LD
changes no memory and reads each byte as its block sees it or as the core's copy has it (spec/10 R197); a marked one reads what the
block sees, and an acquire invalidates what the core does not own (spec/10 R202). LDS and an LD through the aperture read the
scratchpad. The page is in the thread's last-page register. -/
def Obligations.LoadResults : Prop := ∀ s : State,
  (∀ h ty d a off f x pa, s.Solo (.ld h .plain ty d a off) f x →
    s.Reaches x (s.bk.pair x a + off.signExtend 64) ty.bytes ty.bytes .read pa →
    ∃ t bs, exec (.ld h .plain ty d a off) s = .next t ∧ s.Reads s.sel.blk pa ty.bytes bs ∧
      s.PendedIn t h ty.regs d (fun _ => ((extend ty bs).toNat, 0)) ∧ s.CachesOnly t ∧ s.SameView t s.sel.blk ∧
      t.mem = s.mem) ∧
  (∀ h ord ty d a off f x pa, ord ≠ .plain → s.Solo (.ld h ord ty d a off) f x →
    s.Reaches x (s.bk.pair x a + off.signExtend 64) ty.bytes ty.bytes .read pa →
    ∃ t, exec (.ld h ord ty d a off) s = .next t ∧
      s.PendedIn t h ty.regs d (fun _ => ((extend ty (s.view s.sel.blk pa ty.bytes)).toNat, 0)) ∧ s.CachesOnly t ∧
      s.SameView t s.sel.blk ∧ t.Acquired s.bk.core) ∧
  (∀ h ord ty d a off f x, s.Solo (.lds h ord ty d a off) f x → s.InScratch (s.bk.word x a + off) ty.bytes ty.bytes →
    ∃ t, exec (.lds h ord ty d a off) s = .next t ∧
      s.PendedIn t h ty.regs d
        (fun _ => ((extend ty (s.bk.scratch.getList 0 (s.bk.word x a + off).toNat ty.bytes)).toNat, 0)) ∧
      s.CachesOnly t ∧ t.mem = s.mem ∧ (ord ≠ .plain → t.Acquired s.bk.core)) ∧
  (∀ h ord ty d a off f x, s.Solo (.ld h ord ty d a off) f x → s.bk.fn ≠ fwFn →
    (s.bk.pair x a + off.signExtend 64) >>> 32 = 0x00FFFFFF →
    s.InScratch ((s.bk.pair x a + off.signExtend 64).setWidth 32) ty.bytes ty.bytes →
    ∃ t, exec (.ld h ord ty d a off) s = .next t ∧
      s.PendedIn t h ty.regs d (fun _ =>
        ((extend ty (s.bk.scratch.getList 0 ((s.bk.pair x a + off.signExtend 64).setWidth 32 : Word).toNat ty.bytes)).toNat,
          0)) ∧
      s.CachesOnly t ∧ t.mem = s.mem)

/-- ST writes the low bytes of its source, lowest byte first, at its address (R252): the block sees them there at once and every
other byte as before. A marked ST writes them to memory at once; a plain one leaves memory as it was but for stores that the block
sees (spec/10 R201). STS, and an ST through the aperture, write the scratchpad and no memory. -/
def Obligations.StoreResults : Prop := ∀ s : State,
  (∀ h ord ty a b off f x pa, s.Solo (.st h ord ty a b off) f x →
    s.Reaches x (s.bk.pair x a + off.signExtend 64) ty.bytes ty.bytes .write pa →
    ∃ t, exec (.st h ord ty a b off) s = .next t ∧ s.Puts t s.sel.blk pa (leBytes ty.bytes (s.bk.num x ty.regs b)) ∧
      (ord ≠ .plain → s.Stored t pa (leBytes ty.bytes (s.bk.num x ty.regs b))) ∧ s.Passed t ∧ s.CachesOnly t ∧
      t.bk.scratch = s.bk.scratch) ∧
  (∀ h ord ty a b off f x, s.Solo (.sts h ord ty a b off) f x → s.InScratch (s.bk.word x a + off) ty.bytes ty.bytes →
    ∃ t, exec (.sts h ord ty a b off) s = .next t ∧
      s.Scratched t (s.bk.word x a + off).toNat (leBytes ty.bytes (s.bk.num x ty.regs b)) ∧ s.Passed t ∧ s.OnlyBlocks t) ∧
  (∀ h ord ty a b off f x, s.Solo (.st h ord ty a b off) f x → s.bk.fn ≠ fwFn →
    (s.bk.pair x a + off.signExtend 64) >>> 32 = 0x00FFFFFF →
    s.InScratch ((s.bk.pair x a + off.signExtend 64).setWidth 32) ty.bytes ty.bytes →
    ∃ t, exec (.st h ord ty a b off) s = .next t ∧
      s.Scratched t ((s.bk.pair x a + off.signExtend 64).setWidth 32 : Word).toNat
        (leBytes ty.bytes (s.bk.num x ty.regs b)) ∧ s.Passed t ∧ s.OnlyBlocks t)

/-- A load or store at an address that is not a multiple of its size raises ALIGN; one at an address that is not canonical, or in
the fabric window, raises PERM, whatever its alignment (R248, R250). -/
def Obligations.AccessChecks : Prop := ∀ s : State,
  (∀ h ord ty d a off f x, s.Solo (.ld h ord ty d a off) f x → s.bk.fn ≠ fwFn →
    let ea := s.bk.pair x a + off.signExtend 64
    ((canonical ea = false ∨ inFabric ea = true) → Traps s (.ld h ord ty d a off) (s.executing h) cPERM) ∧
    (canonical ea = true → inFabric ea = false → inAperture ea = false → ea.toNat % ty.bytes ≠ 0 →
      Traps s (.ld h ord ty d a off) (s.executing h) cALIGN)) ∧
  (∀ h ord ty a b off f x, s.Solo (.st h ord ty a b off) f x → s.bk.fn ≠ fwFn →
    let ea := s.bk.pair x a + off.signExtend 64
    ((canonical ea = false ∨ inFabric ea = true) → Traps s (.st h ord ty a b off) (s.executing h) cPERM) ∧
    (canonical ea = true → inFabric ea = false → inAperture ea = false → ea.toNat % ty.bytes ≠ 0 →
      Traps s (.st h ord ty a b off) (s.executing h) cALIGN)) ∧
  (∀ h ord ty d a off f x, s.Solo (.lds h ord ty d a off) f x →
    let ea := s.bk.word x a + off
    (ea.toNat < 0x10000000 → s.bk.scratchSize < ea.toNat + ty.bytes →
      Traps s (.lds h ord ty d a off) (s.executing h) cPERM) ∧
    (ea.toNat < 0x10000000 → ea.toNat + ty.bytes ≤ s.bk.scratchSize → ea.toNat % ty.bytes ≠ 0 →
      Traps s (.lds h ord ty d a off) (s.executing h) cALIGN)) ∧
  (∀ h ord ty a b off f x, s.Solo (.sts h ord ty a b off) f x →
    let ea := s.bk.word x a + off
    (ea.toNat < 0x10000000 → s.bk.scratchSize < ea.toNat + ty.bytes →
      Traps s (.sts h ord ty a b off) (s.executing h) cPERM) ∧
    (ea.toNat < 0x10000000 → ea.toNat + ty.bytes ≤ s.bk.scratchSize → ea.toNat % ty.bytes ≠ 0 →
      Traps s (.sts h ord ty a b off) (s.executing h) cALIGN))

/-- The value that ATOM and RED of an operation leave, from the old value and the operands (R256). -/
def atomLeaves (op : AtomOp) (w : Wd) (old b c : Nat) : Nat :=
  match op with
  | .add => (old + b) % 2 ^ (8 * w.bytes)
  | .mins => if (BitVec.ofNat (8 * w.bytes) b).slt (BitVec.ofNat (8 * w.bytes) old) then b else old
  | .maxs => if (BitVec.ofNat (8 * w.bytes) old).slt (BitVec.ofNat (8 * w.bytes) b) then b else old
  | .minu => if b < old then b else old
  | .maxu => if old < b then b else old
  | .and => old &&& b
  | .or => old ||| b
  | .xor => old ^^^ b
  | .exch => b
  | .cas => if old = b then c else old
  | .fadd => (f32.add .rne (f32.decode old) (f32.decode b)).1

/-- ATOM becomes pending with the old value and leaves the new one in memory (R256, R257), or in the scratchpad through the aperture;
RED is accepted, to be applied once, and returns nothing (R257). -/
def Obligations.AtomicResults : Prop := ∀ s : State,
  (∀ h op ord w d a b c off f x pa, s.Solo (.atom h op ord w d a b c off) f x →
    s.Reaches x (s.bk.pair x a + off.signExtend 64) w.bytes w.bytes .atomic pa →
    let old := leNat (s.view s.sel.blk pa w.bytes)
    ∃ t, exec (.atom h op ord w d a b c off) s = .next t ∧
      s.Stored t pa (leBytes w.bytes (atomLeaves op w old (s.bk.num x w.regs b) (s.bk.num x w.regs c))) ∧
      s.Puts t s.sel.blk pa (leBytes w.bytes (atomLeaves op w old (s.bk.num x w.regs b) (s.bk.num x w.regs c))) ∧
      s.PendedIn t h w.regs d (fun _ => (old, 0)) ∧ s.CachesOnly t) ∧
  (∀ h op ord w d a b c off f x, s.Solo (.atom h op ord w d a b c off) f x →
    let ea := s.bk.pair x a + off.signExtend 64
    ea >>> 32 = 0x00FFFFFF → s.InScratch (ea.setWidth 32) w.bytes w.bytes →
    let old := leNat (s.bk.scratch.getList 0 (ea.setWidth 32 : Word).toNat w.bytes)
    ∃ t, exec (.atom h op ord w d a b c off) s = .next t ∧ t.mem = s.mem ∧
      s.Scratched t (ea.setWidth 32 : Word).toNat
        (leBytes w.bytes (atomLeaves op w old (s.bk.num x w.regs b) (s.bk.num x w.regs c))) ∧
      s.PendsWith t h w.regs d (fun _ => old) ∧ s.Passed t) ∧
  (∀ h op ord w a b off f x pa, s.Solo (.red h op ord w a b off) f x →
    s.Reaches x (s.bk.pair x a + off.signExtend 64) w.bytes w.bytes .atomic pa →
    ∃ t r, exec (.red h op ord w a b off) s = .next t ∧ s.Passed t ∧
      t = { s with blocks := t.blocks, reds := [r], nextId := s.nextId + 1 } ∧ r.place = .mem pa false ∧ r.op = op ∧ r.w = w ∧
      r.b.toNat = s.bk.num x w.regs b ∧ r.blk = s.sel.blk ∧ r.thr = x ∧ r.thrs = s.executing h) ∧
  (∀ r, s.reds = [r] → s.hole = false → s.PlainFor r.blk → ∀ pa, r.place = .mem pa false → pa + r.w.bytes ≤ memEnd →
    s.misCached (s.blk r.blk).core false (pa / 128) = false → pa % 128 + r.w.bytes ≤ 128 →
    (∀ l, s.l1At (s.blk r.blk).core (pa / 128) = some l → l.data.length = 128) →
    ∃ t, exec (.redApply r.id) s = .next t ∧ t.reds = [] ∧ t.blocks = s.blocks ∧
      s.Stored t pa (leBytes r.w.bytes
        (atomLeaves r.op r.w (leNat (s.view r.blk pa r.w.bytes)) (r.b.toNat % 2 ^ (8 * r.w.bytes)) 0)))

/-- CMPST stores the selected threads' values one after another in ascending thread order and gives their number to every
executing thread; EXPLD reads as many elements and gives them to the selected threads in that order, and one that selects none
completes at once (R253, R254). The warp's live threads are the bundle, and the elements lie in one page, which each selected
thread's last-page register holds. -/
def Obligations.ElementResults : Prop := ∀ s : State,
  (∀ h ty d a b pc off f pa, s.Gathers (.cmpst h ty d a b pc off) f .zero → s.PlainMem →
    let sel := (s.executing h).filter fun x => (s.bk.thr x).pred pc
    let base := s.bk.pair (s.sel.thrs.headD 0) a + off.signExtend 64
    base.toNat % ty.bytes = 0 →
    (∀ j < sel.length, s.Reaches (sel.getD j 0) (base + BitVec.ofNat 64 (j * ty.bytes)) ty.bytes ty.bytes .write
      (pa + j * ty.bytes)) →
    ∃ t, exec (.cmpst h ty d a b pc off) s = .next t ∧ s.CachesOnly t ∧
      s.Puts t s.sel.blk pa (sel.flatMap fun x => leBytes ty.bytes (s.bk.num x ty.regs b)) ∧
      (∀ n, d = .v n → ∀ x ∈ s.executing h, t.bk.vreg s.wp n (laneOf x) = BitVec.ofNat 32 sel.length) ∧
      (∀ wp r q, r < 256 → q < 32 → ¬ (wp = s.wp ∧ d = .v r ∧ ∃ x ∈ s.executing h, laneOf x = q) →
        t.bk.vreg wp r q = s.bk.vreg wp r q) ∧
      ∀ x, t.bk.thr x = if x ∈ s.sel.thrs then { s.bk.thr x with pc := s.sel.next } else s.bk.thr x) ∧
  (∀ h ty d a pc off f pa, s.Gathers (.expld h ty d a pc off) f .zero → s.PlainMem →
    let sel := (s.executing h).filter fun x => (s.bk.thr x).pred pc
    let base := s.bk.pair (s.sel.thrs.headD 0) a + off.signExtend 64
    base.toNat % ty.bytes = 0 →
    (sel = [] → ∃ t, exec (.expld h ty d a pc off) s = .next t ∧ s.Moved t h fun _ => s.sel.next) ∧
    (sel ≠ [] → (∀ j < sel.length, s.Reaches (sel.getD j 0) (base + BitVec.ofNat 64 (j * ty.bytes)) ty.bytes ty.bytes .read
      (pa + j * ty.bytes)) →
    ∃ t rs, exec (.expld h ty d a pc off) s = .next t ∧ t.mem = s.mem ∧ s.CachesOnly t ∧ s.Passed t ∧
      rs.length = sel.length ∧ (∀ j < sel.length, s.Reads s.sel.blk (pa + j * ty.bytes) ty.bytes (rs.getD j [])) ∧
      ∃ p, t.bk.pend = countPositions s.sel.thrs s.bk.pend ++ [p] ∧ p.thrs = (s.executing h).map (fun x => (x, 0)) ∧
        p.ready = true ∧ ∃ tag, p.result = .regs d ty.regs ((sel.zip rs).map fun e => (e.1, extend ty e.2)) tag))

/-! ### Lane instructions (spec/07 R155..R160) -/

/-- SHFL, BALLOT, VOTE, MATCH and REDUX complete with their results over the gathered threads.

SHFL gives each thread the value of A at the position that its operation names in its segment of 2^seg positions: PICK by
number, ROT by rotation, FLIP by exclusive or, SLIDE by a signed distance; a position outside the segment or not executing gives
0 (R158).

BALLOT gives the mask of the executing positions whose predicate is true; VOTE decides whether all, any, or all alike; MATCH
gives each thread the mask of the positions that hold its value; REDUX combines the executing threads' values (R159, R160). -/
def Obligations.LaneRules : Prop :=
  -- shuffle results
  (∀ (s : State) h seg d a b m f,
  let at_ := fun q : Nat => if s.wp * 32 + q ∈ s.executing h then s.bk.num (s.wp * 32 + q) 1 a else 0
  let o := fun x : Nat => laneOf x % 2 ^ seg
  let base := fun x : Nat => laneOf x - o x
  let n := fun x : Nat => (s.bk.word x b).toNat % 2 ^ seg
  (s.Gathers (.shfl h .pick seg d a b m) f m → ∃ t, exec (.shfl h .pick seg d a b m) s = .next t ∧
    s.Wrote t h 1 d fun x => (at_ (base x + n x), 0)) ∧
  (s.Gathers (.shfl h .rot seg d a b m) f m → ∃ t, exec (.shfl h .rot seg d a b m) s = .next t ∧
    s.Wrote t h 1 d fun x => (at_ (base x + (o x + n x) % 2 ^ seg), 0)) ∧
  (s.Gathers (.shfl h .flip seg d a b m) f m → ∃ t, exec (.shfl h .flip seg d a b m) s = .next t ∧
    s.Wrote t h 1 d fun x => (at_ (base x + (o x ^^^ n x)), 0)) ∧
  (s.Gathers (.shfl h .slide seg d a b m) f m → ∃ t, exec (.shfl h .slide seg d a b m) s = .next t ∧
    s.Wrote t h 1 d fun x =>
      let to_ := (o x : Int) + (s.bk.word x b).toInt
      (if 0 ≤ to_ ∧ to_ < 2 ^ seg then at_ (base x + to_.toNat) else 0, 0))) ∧
  -- vote match reduce results
  (∀ s : State,
  (∀ h d pa m f, s.Gathers (.ballot h d pa m) f m → ∃ t, exec (.ballot h d pa m) s = .next t ∧
    s.Wrote t h 1 d fun _ => (((s.executing h).filter fun x => (s.bk.thr x).pred pa).foldl (fun z x => z + 2 ^ laneOf x) 0, 0)) ∧
  (∀ h op pd pa m f, s.Gathers (.vote h op pd pa m) f m → ∃ t, exec (.vote h op pd pa m) s = .next t ∧
    s.Decided t h pd fun _ =>
      (match op with
        | .all => decide (∀ x ∈ s.executing h, (s.bk.thr x).pred pa = true)
        | .any => decide (∃ x ∈ s.executing h, (s.bk.thr x).pred pa = true)
        | .uni => decide (∀ x ∈ s.executing h, ∀ y ∈ s.executing h, (s.bk.thr x).pred pa = (s.bk.thr y).pred pa), 0)) ∧
  (∀ h w d a m f, s.Gathers (.matchLanes h w d a m) f m → ∃ t, exec (.matchLanes h w d a m) s = .next t ∧
    s.Wrote t h 1 d fun x =>
      (((s.executing h).filter fun y => s.bk.num y (nTy w).regs a = s.bk.num x (nTy w).regs a).foldl
        (fun z y => z + 2 ^ laneOf y) 0, 0)) ∧
  (∀ h ty rm d a m f, ty ≠ .f32 → s.Gathers (.redux h .add ty rm d a m) f m →
    ∃ t, exec (.redux h .add ty rm d a m) s = .next t ∧
      s.Wrote t h ty.regs d fun _ => (ty.write (((s.executing h).map fun x => ty.read (s.bk.num x ty.regs a)).sum), 0)) ∧
  (∀ h op ty rm d a m f, ty ≠ .f32 → s.Gathers (.redux h op ty rm d a m) f m →
    ∃ t, exec (.redux h op ty rm d a m) s = .next t ∧
      s.Wrote t h ty.regs d fun _ => (reduxInt op ty ((s.executing h).map fun x => s.bk.num x ty.regs a), 0)) ∧
  (∀ h op rm d a m f, s.Gathers (.redux h op .f32 rm d a m) f m →
    ∃ t, exec (.redux h op .f32 rm d a m) s = .next t ∧
      s.Wrote t h 1 d fun _ => reduxF32 op rm fun q =>
        if s.wp * 32 + q ∈ s.executing h then some (s.bk.num (s.wp * 32 + q) 1 a) else none))

/-- A lane instruction of a bundle none of whose member sets has all arrived has no effect at all; when the first thread's has, and a
participant holds another mask or is not named by it, all participants raise CVSET: its members and whatever arrived threads name one
of them (R155, R156). Said of BALLOT. -/
def Obligations.GatheringRules : Prop := ∀ (s : State) h d pa m f, s.Passes (.ballot h d pa m) f →
  ((∀ x ∈ s.sel.thrs, ∃ y ∈ s.bk.members s.wp (s.bk.word x m), s.bk.arrived s.sel.pc y = false) →
    exec (.ballot h d pa m) s = .next s) ∧
  (let x := s.sel.thrs.headD 0
   let set := s.bk.members s.wp (s.bk.word x m)
   let near := (s.bk.liveOf s.wp).filter fun y =>
     decide (y = x) || (s.bk.arrived s.sel.pc y && (s.bk.members s.wp (s.bk.word y m)).any set.contains)
   (∀ y ∈ set, s.bk.arrived s.sel.pc y = true) → (∃ y ∈ near, s.bk.word y m ≠ s.bk.word x m ∨ y ∉ set) →
    Traps s (.ballot h d pa m) near cCVSET)

/-! ### The content store (spec/12 R236..R243; spec/13 R268..R273) -/

/-! ### Tile and matrix instructions (spec/08) -/

/-- TZERO, TMOV, TXPOSE, TCVT, MOVTC, RDTC and CVINIT complete with their results.

TZERO, TMOV, TXPOSE and TCVT write their destination tile of the warp in one operation, with its side store, and the tile
control register where the rule says so; other tiles stay (R179..R181).

MOVTC writes a tile control register, reserved bits as 0; RDTC reads one; CVINIT declares the live threads of a warp or of a
mask as the set of a convergence register, with the lowest one's warp as its anchor and no signature (R169, R182). -/
def Obligations.TileRules : Prop :=
  -- tile results
  (∀ s : State,
  (∀ h d f, s.Gathers (.tzero h d) f .zero → d < (s.bk.warp s.wp).tiles →
    ∃ t, exec (.tzero h d) s = .next t ∧ t.bk.tileBytes s.wp d 0 4096 = List.replicate 4096 0 ∧
      t.bk.sideBytes s.wp d 0 512 = List.replicate 512 0 ∧ t.bk.tcs = s.bk.tcs ∧
      (∀ wp n, n < 16 → ¬ (wp = s.wp ∧ n = d) → t.bk.tileBytes wp n 0 4096 = s.bk.tileBytes wp n 0 4096) ∧
      (∀ x ∈ s.sel.thrs, (t.bk.thr x).pc = s.sel.next) ∧ t.mem = s.mem ∧ t.bk.vregs = s.bk.vregs) ∧
  (∀ h d a f, s.Gathers (.tmov h d a) f .zero → d < (s.bk.warp s.wp).tiles → a < (s.bk.warp s.wp).tiles →
    ∃ t, exec (.tmov h d a) s = .next t ∧ t.bk.tileBytes s.wp d 0 4096 = s.bk.tileBytes s.wp a 0 4096 ∧
      t.bk.sideBytes s.wp d 0 512 = s.bk.sideBytes s.wp a 0 512 ∧ t.bk.tcs = s.bk.tcs ∧
      (∀ wp n, n < 16 → ¬ (wp = s.wp ∧ n = d) → t.bk.tileBytes wp n 0 4096 = s.bk.tileBytes wp n 0 4096) ∧
      (∀ x ∈ s.sel.thrs, (t.bk.thr x).pc = s.sel.next) ∧ t.mem = s.mem ∧ t.bk.vregs = s.bk.vregs) ∧
  (∀ h d a f, s.Gathers (.txpose h d a) f .zero → d < (s.bk.warp s.wp).tiles → a < (s.bk.warp s.wp).tiles →
    txposeOk a s.bk s.wp = true →
    let g := s.bk.tcf s.wp a
    ∃ t, exec (.txpose h d a) s = .next t ∧ t.bk.tc s.wp d = withShape (s.bk.tc s.wp a) g.cols g.rows ∧
      (∀ r < g.cols, t.bk.tileRow s.wp d r =
        fillRow (packRow g.cw ((s.bk.codes s.wp a g).map fun row => row.getD r 0))) ∧
      (∀ x ∈ s.sel.thrs, (t.bk.thr x).pc = s.sel.next) ∧ t.mem = s.mem ∧ t.bk.vregs = s.bk.vregs) ∧
  (∀ h rm d a f, s.Gathers (.tcvt h rm d a) f .zero → d < (s.bk.warp s.wp).tiles → a < (s.bk.warp s.wp).tiles →
    tcvtOk d a s.bk s.wp = true →
    let g := s.bk.tcf s.wp a
    ∃ t, exec (.tcvt h rm d a) s = .next t ∧ t.bk.tc s.wp d = withShape (s.bk.tc s.wp d) g.rows g.cols ∧
      (∀ r < g.rows, t.bk.tileRow s.wp d r = fillRow ((s.bk.tcvt s.wp d a rm).1.getD r [])) ∧
      (t.bk.warp s.wp).fs = (s.bk.warp s.wp).fs ||| (s.bk.tcvt s.wp d a rm).2 ∧
      (∀ x ∈ s.sel.thrs, (t.bk.thr x).pc = s.sel.next) ∧ t.mem = s.mem ∧ t.bk.vregs = s.bk.vregs)) ∧
  -- tile control results
  (∀ s : State,
  (∀ h n b f, s.Passes (.movtc h n b) f → n < (s.bk.warp s.wp).tiles → ∃ t, exec (.movtc h n b) s = .next t ∧
    t.bk.tc s.wp n = s.bk.pair (s.sel.thrs.headD 0) b &&& 0x000001FFFF7FFF7F ∧
    (∀ wp m, m < 16 → ¬ (wp = s.wp ∧ m = n) → t.bk.tc wp m = s.bk.tc wp m) ∧
    (∀ x, t.bk.thr x = if x ∈ s.sel.thrs then { s.bk.thr x with pc := s.sel.next } else s.bk.thr x) ∧
    t.bk = { s.bk with threads := t.bk.threads, tcs := t.bk.tcs, pend := t.bk.pend } ∧ s.OnlyBundle t) ∧
  (∀ h d n f, s.Passes (.rdtc h d n) f → n < (s.bk.warp s.wp).tiles → ∃ t, exec (.rdtc h d n) s = .next t ∧
    s.Wrote t h 2 d fun _ => ((s.bk.tc s.wp n).toNat, 0)) ∧
  (∀ h n kind f ts, s.Passes (.cvinit h n kind) f → s.bk.declared s.wp (s.sel.thrs.headD 0) kind = some ts → ts ≠ [] →
    s.bk.onePart ts = true → (s.bk.kreg n).signed = 0 → ∃ t, exec (.cvinit h n kind) s = .next t ∧
    (t.bk.kreg n).kind ≠ 0 ∧ (∀ x < 1024, (t.bk.kreg n).set.getLsbD x = true ↔ x ∈ ts) ∧
    (t.bk.kreg n).anchor = warpOf (ts.headD 0) ∧ (t.bk.kreg n).signed = 0 ∧
    (∀ m, m ≠ n → t.bk.kreg m = s.bk.kreg m) ∧ (∀ x ∈ s.sel.thrs, (t.bk.thr x).pc = s.sel.next) ∧
    t.mem = s.mem ∧ t.bk.vregs = s.bk.vregs) ∧
  (∀ h n b f, s.Passes (.movtc h n b) f → (s.bk.warp s.wp).tiles ≤ n →
    Traps s (.movtc h n b) s.sel.thrs cILL))

/-- MMA and MCLR complete: operations of a declared set are signed and act on the accumulator.

TLD, TST, MMA, MDRAIN and MCLR sign their register: while a thread of the set has not signed, SIGNED has gained the bundle and
the operation has not run; neither memory nor any accumulator differs (R170, R171).

When the last thread of the set signs, the operation runs on the anchor warp: MCLR clears the accumulator, MMA accumulates
into it, and the register keeps its set with no signature (R170, R183, R186). -/
def Obligations.MatrixRules : Prop :=
  -- signing rules
  (∀ (s : State) i f n val, s.Signs i f n val →
  (∃ y < 1024, (s.bk.kreg n).set.getLsbD y = true ∧ (s.bk.kreg n).signed.getLsbD y = false ∧ y ∉ s.sel.thrs) →
  ∃ t, exec i s = .next t ∧
    (∀ x < 1024, (t.bk.kreg n).signed.getLsbD x = ((s.bk.kreg n).signed.getLsbD x || decide (x ∈ s.sel.thrs))) ∧
    (t.bk.kreg n).set = (s.bk.kreg n).set ∧ (t.bk.kreg n).opPc = s.sel.pc ∧ (t.bk.kreg n).opVal = val ∧
    (∀ x ∈ s.sel.thrs, (t.bk.thr x).pc = s.sel.next) ∧ t.mem = s.mem ∧ t.bk.accs = s.bk.accs ∧ t.bk.tiles = s.bk.tiles ∧
    t.bk.vregs = s.bk.vregs) ∧
  -- matrix results
  (∀ s : State,
  (∀ h c n f val, s.Converges (.mclr h c n) f n val →
    let wp := (s.bk.kreg n).anchor
    let key := accKey (s.bk.partOf wp) (s.bk.warp wp).role c
    ∃ t, exec (.mclr h c n) s = .next t ∧ t.bk.accs.get {} key = {} ∧
      (∀ q, q ≠ key → t.bk.accs.get {} q = s.bk.accs.get {} q) ∧ (t.bk.kreg n).signed = 0 ∧
      (t.bk.kreg n).set = (s.bk.kreg n).set ∧ (∀ x ∈ s.sel.thrs, (t.bk.thr x).pc = s.sel.next) ∧ t.mem = s.mem) ∧
  (∀ h c a b n f val, s.Converges (.mma h c a b n) f n val →
    let wp := (s.bk.kreg n).anchor
    let key := accKey (s.bk.partOf wp) (s.bk.warp wp).role c
    s.bk.tcValid wp a = true → s.bk.tcValid wp b = true → (s.bk.tcf wp a).cols = (s.bk.tcf wp b).cols →
    ∃ t, exec (.mma h c a b n) s = .next t ∧ t.bk.accs.get {} key = (s.bk.mma wp a b (s.bk.accs.get {} key)).1 ∧
      (∀ q, q ≠ key → t.bk.accs.get {} q = s.bk.accs.get {} q) ∧ (t.bk.kreg n).signed = 0 ∧
      (∀ x ∈ s.sel.thrs, (t.bk.thr x).pc = s.sel.next) ∧ t.bk.tiles = s.bk.tiles ∧ t.mem = s.mem) ∧
  (∀ h c a b n f val, s.Converges (.mma h c a b n) f n val →
    let wp := (s.bk.kreg n).anchor
    (s.bk.tcf wp a).cols ≠ (s.bk.tcf wp b).cols → (∀ x ∈ s.sel.thrs, (s.bk.thr x).live = true) →
    ∃ t, exec (.mma h c a b n) s = .next t ∧ t.bk.accs = s.bk.accs ∧
      ∀ x ∈ s.sel.thrs, s.CanRaise x → ∃ e, (t.bk.thr x).raised = some e ∧ e.code = cILL))

/-! ### Groups, roles, waits and launches (spec/18) -/

/-- BAR, GBAR and CLBAR complete: they wait, and release with their last participant.

BAR: every thread of the bundle arrives, whatever its guard. While a live thread of the block has not arrived, an executing
thread waits and the others go on; when the bundle is the last to arrive, BAR completes: all go on, the barrier starts anew, and the
core self-invalidates (R261).

GBAR: every thread of the bundle arrives at the group's barrier; while another live thread of the group has not, an executing
thread waits; when the bundle completes it, GBAR completes: all go on, and the core self-invalidates. A group that does not hold the warp
raises CVSET (R343).

CLBAR in a cluster of one block, which holds nothing back: it waits while a live thread of the block has not arrived, else it
completes: all go on, and the core self-invalidates (R344). -/
def Obligations.BarrierRules : Prop :=
  -- barrier results
  (∀ (s : State) h f, s.Passes (.bar h) f → s.bk.barArr = [] →
  ((∃ y ∈ s.bk.liveThreads, y ∉ s.sel.thrs) → ∃ t, exec (.bar h) s = .next t ∧ t.bk.barArr = s.sel.thrs ∧
    (∀ x ∈ s.executing h, t.bk.thr x = { s.bk.thr x with wait := some (.bar s.sel.next) }) ∧
    (∀ x ∈ s.sel.thrs, x ∉ s.executing h → t.bk.thr x = { s.bk.thr x with pc := s.sel.next }) ∧
    (∀ x, x ∉ s.sel.thrs → t.bk.thr x = s.bk.thr x) ∧ s.OnlyBlocks t ∧ s.bk.SameRegs t.bk) ∧
  ((∀ y, y ∈ s.bk.liveThreads ↔ y ∈ s.sel.thrs) → (∀ x ∈ s.sel.thrs, (s.bk.thr x).raised = none ∧ (s.bk.thr x).wait = none) →
    ∃ t, exec (.bar h) s = .next t ∧ t.bk.barArr = [] ∧ t.bk.barGen = s.bk.barGen + 1 ∧
      (∀ x ∈ s.sel.thrs, t.bk.thr x = { s.bk.thr x with pc := s.sel.next }) ∧ t.Acquired s.bk.core ∧ s.CachesOnly t ∧
      t.mem = s.mem ∧ s.bk.SameRegs t.bk)) ∧
  -- group barrier results
  (∀ (s : State) h g f, s.Passes (.gbar h g) f →
  (((s.bk.groups[g]?).getD 0).getLsbD s.wp = false → Traps s (.gbar h g) s.sel.thrs cCVSET) ∧
  (((s.bk.groups[g]?).getD 0).getLsbD s.wp = true → s.bk.gbarArr.get [] g = [] →
    ((∃ y ∈ s.bk.groupThreads g, y ∉ s.sel.thrs) → ∃ t, exec (.gbar h g) s = .next t ∧
      t.bk.gbarArr.get [] g = s.sel.thrs ∧
      (∀ x ∈ s.executing h, t.bk.thr x = { s.bk.thr x with wait := some (.gbar g s.sel.next) }) ∧
      (∀ x ∈ s.sel.thrs, x ∉ s.executing h → t.bk.thr x = { s.bk.thr x with pc := s.sel.next }) ∧
      s.OnlyBlocks t ∧ s.bk.SameRegs t.bk) ∧
    ((∀ y ∈ s.bk.groupThreads g, y ∈ s.sel.thrs) →
      (∀ x ∈ s.sel.thrs, (s.bk.thr x).raised = none ∧ (s.bk.thr x).wait = none) →
      ∃ t, exec (.gbar h g) s = .next t ∧ t.bk.gbarArr.get [] g = [] ∧
        (∀ x ∈ s.sel.thrs, t.bk.thr x = { s.bk.thr x with pc := s.sel.next }) ∧ t.Acquired s.bk.core ∧ s.CachesOnly t ∧
        t.mem = s.mem ∧ s.bk.SameRegs t.bk))) ∧
  -- cluster barrier results
  (∀ (s : State) h f, s.Passes (.clbar h) f → s.bk.clArr = [] →
  s.bk.contained = false → s.bk.status ≠ .dead → s.cluster s.sel.blk = [s.sel.blk] →
  ((∃ y ∈ s.bk.liveThreads, y ∉ s.sel.thrs) → ∃ t, exec (.clbar h) s = .next t ∧ t.bk.clArr = s.sel.thrs ∧
    (∀ x ∈ s.executing h, t.bk.thr x = { s.bk.thr x with wait := some (.clbar s.sel.next) }) ∧ s.OnlyBlocks t ∧
    s.bk.SameRegs t.bk) ∧
  ((∀ y ∈ s.bk.liveThreads, y ∈ s.sel.thrs) →
    (∀ x ∈ s.sel.thrs, (s.bk.thr x).raised = none ∧ (s.bk.thr x).wait = none) →
    ∃ t, exec (.clbar h) s = .next t ∧ t.bk.clArr = [] ∧
      (∀ x ∈ s.sel.thrs, t.bk.thr x = { s.bk.thr x with pc := s.sel.next }) ∧ t.Acquired s.bk.core ∧ s.CachesOnly t ∧
      t.mem = s.mem ∧ s.bk.SameRegs t.bk))

/-- WAIT and WAIT.EXT complete: they end or wait on their word; WAKE wakes the waiters it names.

WAIT and WAIT.EXT read the word at their address as an acquire: they complete with a true predicate when the comparison with it
holds, and else wait in the queue of that word with their value (R350, R351).

WAKE completes with the number of threads that it wakes: those of its word's queue in arrival order, as many as its count, or all
for a count of 0. Each leaves its wait at once and goes on after its WAIT; no other thread's wait changes (R353; spec/15 R298). The
cores of the waiters hold no store that the L2 has not received. -/
def Obligations.WaitRules : Prop :=
  -- wait results
  (∀ s : State,
  (∀ h op ty pd a b f x pa, s.Solo (.wait h op ty pd a b) f x →
    s.Reaches x (s.bk.pair x a) ty.bytes ty.bytes .read pa →
    let holds := op.holds (ty.read (leNat (s.view s.sel.blk pa ty.bytes))) (ty.read (s.bk.num x ty.regs b))
    (holds = true →
      ∃ t, exec (.wait h op ty pd a b) s = .next t ∧ (t.bk.thr x).pred pd = true ∧ (t.bk.thr x).pc = s.sel.next ∧
        (t.bk.thr x).wait = none ∧ t.Acquired s.bk.core ∧ s.SameView t s.sel.blk ∧ s.CachesOnly t ∧ s.bk.SameRegs t.bk) ∧
    (holds = false →
      ∃ t ext seq, exec (.wait h op ty pd a b) s = .next t ∧ (t.bk.thr x).wait =
          some (.mem (s.bk.pair x a) pa op ty (BitVec.ofNat 64 (s.bk.num x ty.regs b)) ext seq pd s.sel.next) ∧
        (t.bk.thr x).preds = (s.bk.thr x).preds ∧ s.SameView t s.sel.blk ∧ s.CachesOnly t ∧ s.bk.SameRegs t.bk)) ∧
  (∀ h op ty pd a b f x pa, s.Solo (.waitExt h op ty pd a b) f x →
    s.Reaches x (s.bk.pair x a) ty.bytes ty.bytes .read pa →
    let holds := op.holds (ty.read (leNat (s.view s.sel.blk pa ty.bytes))) (ty.read (s.bk.num x ty.regs b))
    (holds = true →
      ∃ t, exec (.waitExt h op ty pd a b) s = .next t ∧ (t.bk.thr x).pred pd = true ∧ (t.bk.thr x).pc = s.sel.next ∧
        (t.bk.thr x).wait = none ∧ t.Acquired s.bk.core ∧ s.SameView t s.sel.blk ∧ s.CachesOnly t ∧ s.bk.SameRegs t.bk) ∧
    (holds = false →
      ∃ t seq, exec (.waitExt h op ty pd a b) s = .next t ∧ (t.bk.thr x).wait =
          some (.mem (s.bk.pair x a) pa op ty (BitVec.ofNat 64 (s.bk.num x ty.regs b)) true seq pd s.sel.next) ∧
        (t.bk.thr x).preds = (s.bk.thr x).preds ∧ s.SameView t s.sel.blk ∧ s.CachesOnly t ∧ s.bk.SameRegs t.bk))) ∧
  -- wake results
  (∀ (s : State) h d a b f x pa, s.Solo (.wake h d a b) f x →
  s.Reaches x (s.bk.pair x a) 4 4 .read pa → (s.waiters (pa / 4 * 4)).Nodup → s.blocks.wf none = true →
  s.bk.threads.wf {} = true →
  let n := s.bk.num x 1 b
  let q := if n = 0 then s.waiters (pa / 4 * 4) else (s.waiters (pa / 4 * 4)).take n
  (∀ e ∈ q, ((s.thr e.1 e.2).queued (pa / 4 * 4)).isSome = true ∧ ¬ (e.1 = s.sel.blk ∧ e.2 ∈ s.sel.thrs)) →
  (∀ e ∈ q, ∀ l z, s.l1At (s.blk e.1).core l = some z → z.dirty = 0) →
  (∀ e ∈ q, ∀ va p op ty v ext seq pd nx, (s.thr e.1 e.2).wait = some (.mem va p op ty v ext seq pd nx) → p + ty.bytes ≤ memEnd) →
  ∃ t, exec (.wake h d a b) s = .next t ∧ t.mem = s.mem ∧
    (∀ e ∈ q, ∀ va p op ty v ext seq pd nx, (s.thr e.1 e.2).wait = some (.mem va p op ty v ext seq pd nx) →
      (t.thr e.1 e.2).wait = none ∧ (t.thr e.1 e.2).pc = nx) ∧
    (∀ e, e ∉ q → (t.thr e.1 e.2).wait = (s.thr e.1 e.2).wait) ∧
    (∀ m, d = .v m → ∀ y ∈ s.executing h, t.bk.vreg s.wp m (laneOf y) = BitVec.ofNat 32 q.length) ∧
    (∀ m, d = .s m → t.bk.sreg s.wp m = BitVec.ofNat 32 q.length) ∧ ∀ y ∈ s.sel.thrs, (t.bk.thr y).pc = s.sel.next)

/-- LAUNCH, LAUNCH.TRY and RELAUNCH put an entry in the carafe; PLACE and EVICT place blocks: all complete.

LAUNCH and RELAUNCH put an entry into the carafe of the core's die when their operands pass the checks and the carafe has
room; LAUNCH.TRY also answers true, and false when it is full, where LAUNCH raises CAFULL (R356, R357).

PLACE in a barista's warp, on a core that holds nothing else, places the block of the launch, cluster and rank that it names,
running when its cluster has one block and held else, and answers true; EVICT removes the held members of its cluster and
answers whether there were any. Elsewhere both raise PRIV (R359..R361). -/
def Obligations.KernelLaunchRules : Prop :=
  -- kernel launch results
  (∀ s : State,
  (∀ h a b c f x, s.Solo (.launch h a b c) f x →
    launchCheck false (s.bk.pair x a) (s.bk.pair x b) (s.bk.pair x c) = none →
    ((s.die (dieOf s.bk.core)).carafe.length < 4096 → ∃ t, exec (.launch h a b c) s = .next t ∧
      (t.die (dieOf s.bk.core)).carafe = (s.die (dieOf s.bk.core)).carafe ++
        [{ kind := 0, fn := s.bk.fn, desc := s.bk.pair x a, grid := s.bk.pair x b, completion := s.bk.pair x c }] ∧
      t.mem = s.mem ∧ s.Passed t) ∧
    (4096 ≤ (s.die (dieOf s.bk.core)).carafe.length → Traps s (.launch h a b c) (s.executing h) cCAFULL)) ∧
  (∀ h pd a b c f x, s.Solo (.launchTry h pd a b c) f x →
    launchCheck false (s.bk.pair x a) (s.bk.pair x b) (s.bk.pair x c) = none →
    ((s.die (dieOf s.bk.core)).carafe.length < 4096 → ∃ t, exec (.launchTry h pd a b c) s = .next t ∧
      (t.die (dieOf s.bk.core)).carafe = (s.die (dieOf s.bk.core)).carafe ++
        [{ kind := 0, fn := s.bk.fn, desc := s.bk.pair x a, grid := s.bk.pair x b, completion := s.bk.pair x c }] ∧
      (∀ y ∈ s.executing h, (t.bk.thr y).pred pd = true ∧ (t.bk.thr y).pc = s.sel.next) ∧ t.mem = s.mem) ∧
    (4096 ≤ (s.die (dieOf s.bk.core)).carafe.length → ∃ t, exec (.launchTry h pd a b c) s = .next t ∧
      (∀ y ∈ s.executing h, (pd < 7 → (t.bk.thr y).pred pd = false) ∧ (t.bk.thr y).pc = s.sel.next) ∧
      t.dies = s.dies ∧ t.mem = s.mem)) ∧
  (∀ h a b c f x, s.Solo (.relaunch h a b c) f x →
    launchCheck true (s.bk.pair x a) (s.bk.pair x b) (s.bk.pair x c) = none →
    (s.die (dieOf s.bk.core)).carafe.length < 4096 → ∃ t, exec (.relaunch h a b c) s = .next t ∧
      (t.die (dieOf s.bk.core)).carafe = (s.die (dieOf s.bk.core)).carafe ++
        [{ kind := 1, fn := s.bk.fn, desc := s.bk.pair x a, grid := s.bk.pair x b, completion := s.bk.pair x c }] ∧
      t.mem = s.mem ∧ s.Passed t)) ∧
  -- placement results
  (∀ s : State,
  (∀ h pd a b c f fn l pg, s.Passes (.place h pd a b c) f → s.bk.agent = true → s.PlainMem →
    let x := s.sel.thrs.headD 0
    let ea := s.bk.pair x a
    let w := s.bk.pair x c
    let i := s.bk.num x 1 b
    let d := (Desc.of (s.readPA (pg.addr ea.toNat) 256)).withGrid l.grid
    let e := s.launchDesc l
    s.holderOf s.bk.core = some fn → s.launchOf fn (w.setWidth 32) = some l →
    canonical ea = true → inFabric ea = false → inAperture ea = false → s.bk.fn = fwFn →
    (s.bk.thr x).lastPage = some pg → pg.holds fwFn ea.toNat = true → pg.decaf = false →
    placeReg (pg.addr ea.toNat) = none → pg.addr ea.toNat + 256 ≤ memEnd →
    bits64 w 63 35 = 0 → d.ok = true → d.fitsEmpty = true → i < d.clusters → bits64 w 34 32 < d.csize →
    s.blocks = [(s.sel.blk, some s.bk)] → s.bk.status = .running → (∀ q, (s.bk.thr q).wait = none) →
    s.banned (regionOf s.bk.core) (w.setWidth 32) i = false →
    e.fitsEmpty = true → e.scratch + 65536 * e.stash ≤ 524288 → s.nextId ≠ s.sel.blk →
    (s.core s.bk.core).outOfService = false → (s.core s.bk.core).partsOut = [] → (s.core s.bk.core).l1 = [] →
    ∃ t k, exec (.place h pd a b c) s = .next t ∧ t.blocks.get none s.nextId = some k ∧ k.fn = l.fn ∧ k.lid = l.lid ∧
      k.ci = i ∧ k.rank = bits64 w 34 32 ∧ k.core = s.bk.core ∧ k.desc = l.snap ∧
      k.status = (if e.csize = 1 then .running else .held) ∧
      (∀ y ∈ s.sel.thrs, (t.bk.thr y).pred pd = true ∧ (t.bk.thr y).pc = s.sel.next) ∧ t.mem = s.mem) ∧
  (∀ h pd b f fn, s.Passes (.evict h pd b) f → s.bk.agent = true →
    let v := s.bk.pair (s.sel.thrs.headD 0) b
    let r := regionOf s.bk.core
    let bs := s.heldOf r fn (v.setWidth 32) (v >>> 32).toNat
    (s.region r).holder = some fn → (∀ x ∈ bs, x ≠ s.sel.blk) →
    ∃ t, exec (.evict h pd b) s = .next t ∧
      (∀ x ∈ bs, t.blocks.get none x = none ∨ (t.blk x).status = .saved) ∧
      (∀ y ∈ s.sel.thrs, (pd < 7 → (t.bk.thr y).pred pd = decide (bs ≠ [])) ∧ (t.bk.thr y).pc = s.sel.next) ∧
      t.mem = s.mem) ∧
  (∀ h pd a b c, s.hole = false → s.bk.agent = false → Traps s (.place h pd a b c) s.sel.thrs cPRIV) ∧
  (∀ h pd b, s.hole = false → s.bk.agent = false → Traps s (.evict h pd b) s.sel.thrs cPRIV))

/-! ### Exceptions and system instructions (spec/22, spec/24) -/

/-- TRY, ENDTRY, THROW, RETHROW and CLREXC complete: regions open and close, exceptions are raised.

TRY.W and TRY.B open one region for the live threads of the warp, or of the block, once all have arrived with true guards and
have room: one entry of TSTACK with the level, the catch point and the region; ENDTRY closes the innermost of each executing
thread (R420..R423).

CLREXC clears the held record and the thread's own code and address in Executing (R427).

THROW raises its code with its AUX in each executing thread, and PERM for a code below 0x10000 (R424); RETHROW raises the held
record's code again, carrying the record marked as climbed, where there is one (R425). -/
def Obligations.TryRules : Prop :=
  -- try region results
  (∀ s : State,
  (∀ h off ts, s.hole = false → s.hasBlk s.sel.blk → ts ≠ [] → ts.Nodup → ts = s.bk.liveOf s.wp →
    (∀ x ∈ ts, s.bk.arrived s.sel.pc x = true ∧ (s.bk.thr x).guard h = true ∧ (s.bk.thr x).tstack.length < 8) →
    (s.sel.pc + off.signExtend 64).toNat % 4 = 0 →
    ∃ t r, exec (.tryW h off) s = .next t ∧ t.mem = s.mem ∧ s.bk.SameRegs t.bk ∧
      (∀ x ∈ ts, t.bk.thr x = { s.bk.thr x with
        pc := s.sel.next
        tstack := { level := 0, target := s.sel.pc + off.signExtend 64, region := r } :: (s.bk.thr x).tstack }) ∧
      ∀ x, x ∉ ts → t.bk.thr x = s.bk.thr x) ∧
  (∀ h off ts, s.hole = false → s.hasBlk s.sel.blk → ts ≠ [] → ts.Nodup → ts = s.bk.liveThreads →
    (∀ x ∈ ts, s.bk.arrived s.sel.pc x = true ∧ (s.bk.thr x).guard h = true ∧ (s.bk.thr x).tstack = []) →
    (s.sel.pc + off.signExtend 64).toNat % 4 = 0 →
    ∃ t r, exec (.tryB h off) s = .next t ∧ t.mem = s.mem ∧ s.bk.SameRegs t.bk ∧
      (∀ x ∈ ts, t.bk.thr x = { s.bk.thr x with
        pc := s.sel.next, tstack := [{ level := 1, target := s.sel.pc + off.signExtend 64, region := r }] }) ∧
      ∀ x, x ∉ ts → t.bk.thr x = s.bk.thr x) ∧
  (∀ h f, s.Passes (.endtry h) f → ∃ t, exec (.endtry h) s = .next t ∧ t.mem = s.mem ∧ s.bk.SameRegs t.bk ∧
    ∀ x, t.bk.thr x =
      if x ∈ s.executing h then { s.bk.thr x with pc := s.sel.next, tstack := (s.bk.thr x).tstack.tail }
      else if x ∈ s.sel.thrs then { s.bk.thr x with pc := s.sel.next } else s.bk.thr x)) ∧
  -- clear exception
  (∀ (s : State) h f, s.Passes (.clrexc h) f →
  ∃ t, exec (.clrexc h) s = .next t ∧ t.mem = s.mem ∧ s.bk.SameRegs t.bk ∧
    ∀ x, t.bk.thr x =
      if x ∈ s.executing h then { s.bk.thr x with pc := s.sel.next, held := {}, ownCode := 0, ownPc := 0 }
      else if x ∈ s.sel.thrs then { s.bk.thr x with pc := s.sel.next } else s.bk.thr x) ∧
  -- throw results
  (∀ s : State,
  (∀ h b c f, s.Passes (.throw h b c) f → ∃ t, exec (.throw h b c) s = .next t ∧ t.mem = s.mem ∧ s.bk.SameRegs t.bk ∧
    ∀ x ∈ s.executing h, s.CanRaise x →
      (0x10000 ≤ (s.bk.word x b).toNat → s.Raised t x (s.bk.word x b) ∧
        ((t.bk.thr x).raised.map (·.aux)) = some (s.bk.pair x c)) ∧
      ((s.bk.word x b).toNat < 0x10000 → s.Raised t x cPERM)) ∧
  (∀ h f, s.Passes (.rethrow h) f → ∃ t, exec (.rethrow h) s = .next t ∧ t.mem = s.mem ∧ s.bk.SameRegs t.bk ∧
    ∀ x ∈ s.executing h,
      ((s.bk.thr x).held.code = 0 → (t.bk.thr x).pc = s.sel.next ∧ (t.bk.thr x).raised = (s.bk.thr x).raised) ∧
      ((s.bk.thr x).held.code ≠ 0 → s.CanRaise x → ∃ e, (t.bk.thr x).raised = some e ∧
        e.code = (s.bk.thr x).held.code ∧ e.aux = (s.bk.thr x).held.aux ∧
        e.carried = some { (s.bk.thr x).held with climbed := true })))

/-- SVC, ERET, TRAP, BRK and HALT complete as they change the mode or stop; privileged forms raise PRIV.

SVC enters the service handler: %epc holds the address after it, %ecause its number, %mode is 1, and the thread goes to the
service vector; ERET in mode 1 returns to mode 0 at %epc (spec/22 R389).

SVC outside mode 0, ERET outside mode 1 and HALT in mode 0 raise PRIV in the bundle; HALT in mode 1 or 2 stops its warp behind
itself (spec/22 R388, R389).

TRAP leaves a record of cause 8 with its number and waits for the verdict, or writes false where the function has no fault
queue; BRK leaves one of cause 9 and stops its warp, or only goes on where stops are not enabled or there is no fault queue (spec/22
R391, R392). -/
def Obligations.PrivilegeRulesOfIssue : Prop :=
  -- service call and return
  (∀ s : State,
  (∀ h n f, s.Passes (.svc h n) f → (∀ x ∈ s.executing h, (s.bk.thr x).mode = 0) →
    ∃ t, exec (.svc h n) s = .next t ∧ t.mem = s.mem ∧ s.bk.SameRegs t.bk ∧
      ∀ x ∈ s.executing h, t.bk.thr x = { s.bk.thr x with
        epc := s.sel.pc + 12, ecause := n.setWidth 32, mode := 1, svcPc := s.sel.pc, pc := Config.serviceVector }) ∧
  (∀ h f, s.Passes (.eret h) f → (∀ x ∈ s.executing h, (s.bk.thr x).mode = 1 ∧ (s.bk.thr x).epc.toNat % 4 = 0) →
    ∃ t, exec (.eret h) s = .next t ∧ t.mem = s.mem ∧ s.bk.SameRegs t.bk ∧
      ∀ x ∈ s.executing h, t.bk.thr x = { s.bk.thr x with mode := 0, pc := (s.bk.thr x).epc })) ∧
  -- privilege rules
  (∀ s : State,
  (∀ h n, s.hole = false → (∃ x ∈ s.executing h, (s.bk.thr x).mode ≠ 0) → Traps s (.svc h n) s.sel.thrs cPRIV) ∧
  (∀ h, s.hole = false → (∃ x ∈ s.executing h, (s.bk.thr x).mode ≠ 1) → Traps s (.eret h) s.sel.thrs cPRIV) ∧
  (∀ h, s.hole = false → (∃ x ∈ s.executing h, (s.bk.thr x).mode = 0) → Traps s (.halt h) s.sel.thrs cPRIV) ∧
  (∀ h f, s.Passes (.halt h) f → (∀ x ∈ s.executing h, (s.bk.thr x).mode = 1 ∨ (s.bk.thr x).mode = 2) →
    ∃ t, exec (.halt h) s = .next t ∧ (t.bk.warp s.wp).stopped = some .halted ∧ t.mem = s.mem ∧ s.bk.SameRegs t.bk ∧
      ∀ x, t.bk.thr x = if x ∈ s.sel.thrs then { s.bk.thr x with pc := s.sel.next } else s.bk.thr x)) ∧
  -- trap and break
  (∀ s : State,
  (∀ h pd n f, s.Passes (.trap h pd n) f → (∀ x ∈ s.executing h, (s.bk.thr x).mode = 0 ∨ (s.bk.thr x).mode = 1) →
    (s.fqValid s.bk.fn = true → ∃ t r, exec (.trap h pd n) s = .next t ∧ t.records = s.records ++ [r] ∧ r.fn = s.bk.fn ∧
      r.kind = .debug ∧ r.cause = 8 ∧ r.w0 = s.sel.pc ∧ r.w3 = addr n.toNat ∧ t.mem = s.mem ∧ s.bk.SameRegs t.bk ∧
      ∀ x ∈ s.executing h, t.bk.thr x = { s.bk.thr x with wait := some (.trap r.id pd s.sel.next) }) ∧
    (s.fqValid s.bk.fn = false → ∃ t, exec (.trap h pd n) s = .next t ∧ t.records = s.records ∧ t.mem = s.mem ∧
      s.bk.SameRegs t.bk ∧
      ∀ x ∈ s.executing h, (t.bk.thr x).pc = s.sel.next ∧ (pd < 7 → (t.bk.thr x).pred pd = false) ∧
        ∀ q, q ≠ pd → (t.bk.thr x).pred q = (s.bk.thr x).pred q)) ∧
  (∀ h n f, s.Passes (.brk h n) f →
    (bitAt (s.fn s.bk.fn).dbgCtl 0 = true → s.fqValid s.bk.fn = true →
      ∃ t r, exec (.brk h n) s = .next t ∧ t.records = s.records ++ [r] ∧ r.kind = .debug ∧ r.cause = 9 ∧
        r.w0 = s.sel.pc ∧ r.w3 = addr n.toNat ∧ (t.bk.warp s.wp).stopped = some (.debug r.id) ∧
        (∀ x ∈ s.sel.thrs, (t.bk.thr x).pc = s.sel.next) ∧ t.mem = s.mem ∧ s.bk.SameRegs t.bk) ∧
    (bitAt (s.fn s.bk.fn).dbgCtl 0 = false ∨ s.fqValid s.bk.fn = false → ∃ t, exec (.brk h n) s = .next t ∧ s.Moved t h fun _ => s.sel.next)))

/-- MOVS, RDSR and WRSR complete: narrow-format entries, %cyc, and the special registers WRSR writes.

MOVS writes a narrow-format entry whole, and RDSR of %cyc reads the core's counter as its context sees it, to which a free
number of cycles has been added (R145; spec/01 R16; log 18).

WRSR: a one in %fs clears that flag, %wstat takes UCHK and clears UMIS where a one is written, %sp is written in each thread,
and %epc in mode 1 or 2, PRIV in mode 0 (spec/22 R386..R388). -/
def Obligations.SpecialRegisterRules : Prop :=
  -- special moves
  (∀ s : State,
  (∀ h n b f, s.Passes (.movs h (.toFd n b)) f → ∃ t, exec (.movs h (.toFd n b)) s = .next t ∧
    (∀ wp m, m < 16 → t.bk.fd wp m =
      if wp = s.wp ∧ m = n then s.bk.word (s.sel.thrs.headD 0) b else s.bk.fd wp m) ∧
    (∀ x, t.bk.thr x = if x ∈ s.sel.thrs then { s.bk.thr x with pc := s.sel.next } else s.bk.thr x) ∧
    t.bk = { s.bk with threads := t.bk.threads, fds := t.bk.fds, pend := t.bk.pend } ∧ s.OnlyBundle t) ∧
  (∀ h d f, s.Passes (.rdsr h 0xC d) f → ∃ t n, exec (.rdsr h 0xC d) s = .next t ∧ n < 2 ^ 32 ∧
    (t.core s.bk.core).cyc = (s.core s.bk.core).cyc + BitVec.ofNat 64 n ∧
    (let v := ((t.core s.bk.core).cyc + (s.core s.bk.core).offsets.get 0 s.bk.fn).setWidth 128
     (∀ m, d = .v m → ∀ x ∈ s.executing h, ∀ j < 2, t.bk.vreg s.wp (m + j) (laneOf x) = wordAt v j) ∧
     ∀ m, d = .s m → ∀ j < 2, t.bk.sreg s.wp (m + j) = wordAt v j) ∧
    (∀ x, t.bk.thr x = if x ∈ s.sel.thrs then { s.bk.thr x with pc := s.sel.next } else s.bk.thr x) ∧ t.mem = s.mem)) ∧
  -- special register writes
  (∀ (s : State) h b,
  let first := s.actor h ((s.executing h).headD 0)
  (∀ f, s.Passes (.wrsr h 0xE b) f → ∃ t, exec (.wrsr h 0xE b) s = .next t ∧
    (∀ n < 7, (t.bk.warp s.wp).fs.getLsbD n = ((s.bk.warp s.wp).fs.getLsbD n && !(s.bk.word first b).getLsbD n)) ∧
    (∀ x ∈ s.sel.thrs, (t.bk.thr x).pc = s.sel.next) ∧ t.mem = s.mem ∧ s.bk.SameRegs t.bk) ∧
  (∀ f, s.Passes (.wrsr h 0xF b) f → ∃ t, exec (.wrsr h 0xF b) s = .next t ∧
    (t.bk.warp s.wp).uchk = (s.bk.word first b).getLsbD 1 ∧
    (t.bk.warp s.wp).umis = ((s.bk.warp s.wp).umis && !(s.bk.word first b).getLsbD 0) ∧
    (t.bk.warp s.wp).fs = (s.bk.warp s.wp).fs ∧
    (∀ x ∈ s.sel.thrs, (t.bk.thr x).pc = s.sel.next) ∧ t.mem = s.mem ∧ s.bk.SameRegs t.bk) ∧
  (∀ f, s.Passes (.wrsr h 0x10 b) f → ∃ t, exec (.wrsr h 0x10 b) s = .next t ∧
    (∀ x ∈ s.executing h, t.bk.thr x = { s.bk.thr x with pc := s.sel.next, sp := s.bk.pair (s.actor h x) b }) ∧
    t.mem = s.mem ∧ s.bk.SameRegs t.bk) ∧
  (∀ f, s.Passes (.wrsr h 0x13 b) f → ∃ t, exec (.wrsr h 0x13 b) s = .next t ∧ t.mem = s.mem ∧ s.bk.SameRegs t.bk ∧
    ∀ x ∈ s.executing h,
      ((s.bk.thr x).mode ≠ 0 → t.bk.thr x = { s.bk.thr x with pc := s.sel.next, epc := s.bk.pair (s.actor h x) b }) ∧
      ((s.bk.thr x).mode = 0 → s.CanRaise x → s.Raised t x cPRIV)))

/-! ### Engines (spec/11, spec/08 R185, spec/12 R240, R243) -/

/-- How a copy lands, how it faults, and how its exception is raised.

A landing of a copy from the scratchpad moves the bytes of a row that lie in one aligned 8-byte unit of the destination, all read
before any is written, and no other byte: within the scratchpad, or to memory at its page (spec/11 R219).

PERM of a copy is reported to its thread, with the code and the record's address, and the copy stops; a fault leaves a record of
kind copy and holds the copy until the verdict (spec/11 R220).

An exception that an engine has reported is raised where the thread stands, oldest first (spec/11 R220; spec/23 R400). -/
def Obligations.CopyEngineRules : Prop :=
  -- copy landings
  (∀ (s : State) q at_,
  s.copies = [q] → q.fault = none → q.stopped = false → q.packet = none → q.aoff = 0xFFFFFFFF → q.rxNote = false →
  s.hole = false → s.hasBlk q.blk → (s.blk q.blk).status = .running → s.PlainFor q.blk → q.srcSp = true →
  let o := q.unitAt at_
  q.runAt o ≠ 0 →
  let n := min (q.runAt o) (8 - (q.dstAt o).toNat % 8)
  let left := if (q.take o n).todo = [] then [] else [q.take o n]
  s.scratchHolds q.blk (q.srcAt o) n → inFabric q.dst = false →
  (q.dstSp = true → s.scratchHolds q.blk (q.dstAt o) n →
    ∃ t, exec (.copyLanding q.id at_) s = .next t ∧ t.mem = s.mem ∧
      (∀ a, (t.blk q.blk).scratch.get 0 a =
        if (q.dstAt o).toNat ≤ a ∧ a < (q.dstAt o).toNat + n
        then (s.blk q.blk).scratch.get 0 ((q.srcAt o).toNat + (a - (q.dstAt o).toNat)) else (s.blk q.blk).scratch.get 0 a) ∧
      t.copies = left) ∧
  (∀ pa, q.dstSp = false → inFabric (q.dstAt o) = false → s.EngineReaches q.core q.fn (q.dstAt o) n .write pa →
    ∃ t, exec (.copyLanding q.id at_) s = .next t ∧
      s.Stored t pa ((s.blk q.blk).scratch.getList 0 (q.srcAt o).toNat n) ∧ t.blocks = s.blocks ∧ t.copies = left)) ∧
  -- copy stops
  (∀ (s : State) q, s.copies = [q] → q.fault = none → q.stopped = false → q.packet = none →
  q.rxNote = false → q.srcSp = false → q.dstSp = true → s.hole = false → (s.blk q.blk).status = .running → q.runAt 0 ≠ 0 →
  (deviceSpace (q.srcAt 0) = false → ((s.blk q.blk).thr q.thr).live = true → s.hasBlk q.blk →
    ∃ t e, exec (.copyLanding q.id 0) s = .next t ∧ t.copies = [{ q with stopped := true, todo := [] }] ∧ e.code = cPERM ∧
      e.async = true ∧ e.pc = q.pc ∧ e.aux = q.recAddr.setWidth 64 ∧
      (t.thr q.blk q.thr).asyncs = (s.thr q.blk q.thr).asyncs ++ [e] ∧ t.mem = s.mem) ∧
  (∀ c g, deviceSpace (q.srcAt 0) = true → (s.core q.core).tlb = [] → (s.region (regionOf q.core)).tlb = [] →
    (s.die (dieOf q.core)).tlb = [] → s.walkFor q.fn (q.srcAt 0).toNat .read = .fault c g →
    ∃ t r, exec (.copyLanding q.id 0) s = .next t ∧ t.records = s.records ++ [r] ∧ r.kind = .copy ∧ r.cause = c ∧
      r.w0 = q.srcAt 0 ∧ t.copies = [{ q with fault := some r.id, off := 0 }] ∧ t.mem = s.mem)) ∧
  -- async exceptions
  (∀ (s : State) b x e rest, s.hole = false → (s.thr b x).asyncs = e :: rest →
  (s.blk b).status = .running → (s.blk b).agent = false → (s.thr b x).raised = none → (s.thr b x).live = true →
  (s.thr b x).mode ≠ 1 → e.async = true → e.carried = none →
  ∃ t r, exec (.asyncExceptionRaise b x) s = .next t ∧ (t.thr b x).asyncs = rest ∧ (t.thr b x).raised = some r ∧
    r.code = e.code ∧ r.aux = e.aux ∧ r.pc = e.pc ∧ (t.thr b x).pc = (s.thr b x).pc ∧
    r.level = (if launchCode e.code then none else (s.thr b x).tstack.head?.map (·.region)) ∧ t.mem = s.mem)

/-- CPQ, CPLD and CQWAIT complete, and how a CPLD lands.

CPQ hands the record at its address to the core's engine, which holds at most 64, and tells the arrival object that it names of
the COPY path; a record that breaks a rule raises ILL (R263; spec/11 R217, R218, R222). CPLD gives its completion register the bytes
that are to land, one landing for each register; CQWAIT goes on when the register reads 0, else waits (spec/11 R226; R264).

A byte of a CPLD that lands counts its completion register down by one; with the last byte of a register its value reaches the
register of its thread, or a value that nothing fixes where something else has written the register since (spec/11 R226, R227). -/
def Obligations.CopyRequestRules : Prop :=
  -- copy requests
  (∀ s : State,
  (∀ h a off f x, s.Solo (.cpq h a off) f x → s.InScratch (s.bk.word x a + off) 48 16 → s.copiesOf s.bk.core < 64 →
    let r := CopyRec.of (s.bk.scratch.getList 0 (s.bk.word x a + off).toNat 48)
    (r.valid = true → r.fabric = false → r.bytes ≠ 0 → (r.aoff = 0xFFFFFFFF ∨ s.InScratch r.aoff 16 16) →
      ∃ t q, exec (.cpq h a off) s = .next t ∧ t = { s with blocks := t.blocks, copies := s.copies ++ [q], nextId := t.nextId } ∧
        q.src = r.src ∧ q.dst = r.dst ∧ q.bytes = r.bytes ∧ q.todo = [(0, r.bytes)] ∧ q.aoff = r.aoff ∧ q.blk = s.sel.blk ∧
        q.thr = x ∧ q.pc = s.sel.pc ∧ q.recAddr = s.bk.word x a + off ∧ s.Passed t ∧
        (if r.aoff = 0xFFFFFFFF then t.bk.scratch = s.bk.scratch
         else s.Scratched t r.aoff.toNat
           (let o := s.arrival s.sel.blk r.aoff.toNat
            { o with paths := o.paths ||| 1 }.bytes))) ∧
    (r.valid = false → Traps s (.cpq h a off) (s.executing h) cILL)) ∧
  (∀ h ty d a cq off f x pa, s.Solo (.cpld h ty d a cq off) f x →
    s.Reaches x (s.bk.pair x a + off.signExtend 64) ty.bytes ty.bytes .read pa →
    (s.bk.sreg s.wp (48 + cq)).toNat + ty.bytes < 2 ^ 31 →
    ∃ t ls bs, exec (.cpld h ty d a cq off) s = .next t ∧ s.Reads s.sel.blk pa ty.bytes bs ∧
      t.bk.sreg s.wp (48 + cq) = s.bk.sreg s.wp (48 + cq) + BitVec.ofNat 32 ty.bytes ∧
      t.bk.landings = s.bk.landings ++ ls ∧ ls.length = ty.regs ∧
      (∀ j < ty.regs, ∃ l, ls[j]? = some l ∧ l.thr = x ∧ l.cq = cq ∧ l.bytes = min 4 ty.bytes ∧
        l.val = wordAt (extend ty bs) j ∧
        l.dst = match d with
          | .v n => .v (n + j)
          | .s n => .s (n + j)
          | .none => .none) ∧
      t.mem = s.mem ∧ s.CachesOnly t ∧ t.bk.vregs = s.bk.vregs ∧
      ∀ y, t.bk.thr y = if y ∈ s.sel.thrs then { s.bk.thr y with pc := s.sel.next } else s.bk.thr y) ∧
  (∀ h cq f, s.Passes (.cqwait h cq) f → s.bk.sreg s.wp (48 + cq) = 0 →
    ∃ t, exec (.cqwait h cq) s = .next t ∧ s.Moved t h fun _ => s.sel.next) ∧
  (∀ h cq f, s.Passes (.cqwait h cq) f → s.bk.sreg s.wp (48 + cq) ≠ 0 → ∃ t, exec (.cqwait h cq) s = .next t ∧
    (∀ x ∈ s.executing h, t.bk.thr x = { s.bk.thr x with wait := some (.cqwait cq s.sel.next) }) ∧ s.OnlyBlocks t ∧
    s.bk.SameRegs t.bk)) ∧
  -- completion landings
  (∀ (s : State) b l n, s.hole = false → s.hasBlk b → (s.blk b).landings = [l] →
  l.dst = .v n → l.cq < 8 → n < 256 →
  let wp := warpOf l.thr
  (1 < l.bytes → ∃ t, exec (.cpldLanding b 0) s = .next t ∧ (t.blk b).landings = [{ l with bytes := l.bytes - 1 }] ∧
    (t.blk b).sreg wp (48 + l.cq) = (s.blk b).sreg wp (48 + l.cq) - 1 ∧ (t.blk b).vregs = (s.blk b).vregs ∧ t.mem = s.mem) ∧
  (l.bytes = 1 → ∃ t x, exec (.cpldLanding b 0) s = .next t ∧ (t.blk b).landings = [{ l with bytes := 0, seen := x }] ∧
    (l.spoiled = false → x = l.val) ∧ (t.blk b).sreg wp (48 + l.cq) = (s.blk b).sreg wp (48 + l.cq) - 1 ∧
    (t.blk b).vreg wp n (laneOf l.thr) = x ∧ t.mem = s.mem))

/-- TLD, TST and MDRAIN complete, and the writes of a drain.

A TLD whose set converges reads its rows, a stride apart, into the tile as plain loads, each row filled with zeros, and a TST
writes them as plain stores, the odd nibble of a row as 0; the rows lie in plain pages that the lead thread's last-page register
holds, and no window has a format (R176..R178).

An MDRAIN whose set converges hands the engine a drain of its block that writes the rows that it names, a stride apart, in the
scratchpad or in memory; it writes neither itself (R184, R185). Said of the destination types that are no narrow format.

The port accepts a drain's next write, whose bytes then stand in the scratchpad or in memory; with the last one the drain is over
and its MDRAIN pending no longer waits (spec/08 R185). -/
def Obligations.TileMemoryRules : Prop :=
  -- tile memory results
  (∀ s : State,
  (∀ h tl a b n off f val (pa : Nat → Nat), s.Converges (.tld h tl a b n off) f n val →
    let wp := (s.bk.kreg n).anchor
    let lead := s.sel.thrs.headD 0
    let g := s.bk.tcf wp tl
    let nb := (g.cols * g.cw + 7) / 8
    let row := fun r : Nat => (val.setWidth 64 : DWord) + off.signExtend 64 +
      BitVec.ofNat 64 r * ((val >>> 64).setWidth 32 : Word).signExtend 64
    s.bk.tcValid wp tl = true →
    (∀ r < g.rows, s.Reaches lead (row r) nb (if g.cw = 16 then 2 else 1) .read (pa r) ∧ pa r % 65536 + nb ≤ 65536 ∧
      (row r).toNat % 65536 = pa r % 65536) →
    ∃ t, ∃ rs : Nat → List Byte, exec (.tld h tl a b n off) s = .next t ∧ t.mem = s.mem ∧ (t.bk.kreg n).signed = 0 ∧
      (∀ r < g.rows, s.Reads s.sel.blk (pa r) nb (rs r) ∧ t.bk.tileRow wp tl r = fillRow (rs r)) ∧
      (∀ r < 64, g.rows ≤ r → t.bk.tileRow wp tl r = List.replicate 64 0) ∧
      (∀ x ∈ s.sel.thrs, (t.bk.thr x).pc = s.sel.next) ∧ ∃ p ∈ t.bk.pend, p.pc = s.sel.pc ∧ p.ready = true) ∧
  (∀ h tl a b n off f val (pa : Nat → Nat), s.Converges (.tst h tl a b n off) f n val →
    let wp := (s.bk.kreg n).anchor
    let lead := s.sel.thrs.headD 0
    let g := s.bk.tcf wp tl
    let nb := (g.cols * g.cw + 7) / 8
    let row := fun r : Nat => (val.setWidth 64 : DWord) + off.signExtend 64 +
      BitVec.ofNat 64 r * ((val >>> 64).setWidth 32 : Word).signExtend 64
    s.bk.tcValid wp tl = true →
    (∀ r < g.rows, s.Reaches lead (row r) nb (if g.cw = 16 then 2 else 1) .write (pa r) ∧ pa r % 65536 + nb ≤ 65536 ∧
      (row r).toNat % 65536 = pa r % 65536) →
    (∀ r < g.rows, ∀ q < g.rows, r ≠ q → pa r + nb ≤ pa q ∨ pa q + nb ≤ pa r) →
    ∃ t, exec (.tst h tl a b n off) s = .next t ∧
      (∀ r < g.rows, ∀ j < nb, t.seen s.sel.blk (pa r + j) =
        (if g.cw = 4 ∧ g.cols % 2 = 1 ∧ j + 1 = nb then (s.bk.tileRow wp tl r).getD j 0 &&& 0x0F
         else (s.bk.tileRow wp tl r).getD j 0)) ∧
      (∀ q, (∀ r < g.rows, ¬ (pa r ≤ q ∧ q < pa r + nb)) → t.seen s.sel.blk q = s.seen s.sel.blk q) ∧
      (∀ q, t.byte q = s.byte q ∨ t.byte q = t.seen s.sel.blk q) ∧
      (t.bk.kreg n).signed = 0 ∧ t.bk.tiles = s.bk.tiles ∧ ∀ x ∈ s.sel.thrs, (t.bk.thr x).pc = s.sel.next)) ∧
  -- drain results
  (∀ (s : State) h m c a b n f val,
  s.Converges (.mdrain h m c a b n) f n val → (∀ q, m.td ≠ .fd q) → m.add = false →
  let hi := (val >>> 96).toNat
  let rows := hi % 64 + 1
  let cols := hi / 256 % 64 + 1
  let nb := cols * (match m.td with
    | .f16 | .bf16 => 2
    | .x64 => 8
    | _ => 4)
  let align := nb / cols
  let at_ := fun r : Nat => (val.setWidth 32 : Word) + BitVec.ofNat 32 r * ((val >>> 64).setWidth 32 : Word)
  let row := fun r : Nat => (val.setWidth 64 : DWord) +
    BitVec.ofNat 64 r * ((val >>> 64).setWidth 32 : Word).signExtend 64
  hi / 2 ^ 15 % 2 = 0 →
  (m.sp = true → (∀ r < rows, s.InScratch (at_ r) nb align) →
    ∃ t d, exec (.mdrain h m c a b n) s = .next t ∧ t.drains = s.drains ++ [d] ∧ d.blk = s.sel.blk ∧ d.credit = none ∧
      d.writes.map (·.1) = (List.range rows).map (fun r => Place.scratch s.sel.blk (at_ r).toNat) ∧
      (∀ w ∈ d.writes, w.2.1.length = nb ∧ w.2.2 = List.replicate nb 0xFF) ∧ t.mem = s.mem ∧
      t.bk.scratch = s.bk.scratch ∧ t.bk.accs = s.bk.accs ∧ ∀ x ∈ s.sel.thrs, (t.bk.thr x).pc = s.sel.next) ∧
  (∀ pa : Nat → Nat, m.sp = false →
    (∀ r < rows, s.Reaches (s.sel.thrs.headD 0) (row r) nb align .drain (pa r) ∧ pa r % 65536 + nb ≤ 65536 ∧
      (row r).toNat % 65536 = pa r % 65536) →
    ∃ t d, exec (.mdrain h m c a b n) s = .next t ∧ t.drains = s.drains ++ [d] ∧ d.blk = s.sel.blk ∧ d.credit = none ∧
      d.writes.map (·.1) = (List.range rows).map (fun r => Place.mem (pa r) false) ∧
      (∀ w ∈ d.writes, w.2.1.length = nb ∧ w.2.2 = List.replicate nb 0xFF) ∧ t.mem = s.mem ∧
      t.bk.scratch = s.bk.scratch ∧ t.bk.accs = s.bk.accs ∧ ∀ x ∈ s.sel.thrs, (t.bk.thr x).pc = s.sel.next)) ∧
  -- drain writes
  (∀ (s : State) d bs mask rest, s.drains = [d] → d.add = none → d.credit = none →
  d.side = [] → s.hole = false → s.hasBlk d.blk → mask.all (· = 0xFF) = true →
  let left := if rest = [] then [] else [{ d with writes := rest }]
  (∀ off, d.writes = (.scratch d.blk off, bs, mask) :: rest →
    ∃ t, exec (.drainWriteAccept d.id) s = .next t ∧ t.mem = s.mem ∧ t.drains = left ∧
      (∀ j < bs.length, (t.blk d.blk).scratch.get 0 (off + j) = bs.getD j 0) ∧
      (∀ a, ¬ (off ≤ a ∧ a < off + bs.length) → (t.blk d.blk).scratch.get 0 a = (s.blk d.blk).scratch.get 0 a) ∧
      (rest = [] → ∀ p ∈ (t.blk d.blk).pend, p.drain = some d.id → p.ready = true)) ∧
  (∀ pa, d.writes = (.mem pa false, bs, mask) :: rest → s.PlainFor d.blk → pa + bs.length ≤ memEnd →
    ∃ t, exec (.drainWriteAccept d.id) s = .next t ∧ s.Stored t pa bs ∧ t.drains = left ∧
      (rest = [] → ∀ p ∈ (t.blk d.blk).pend, p.drain = some d.id → p.ready = true)))

/-- CAINT, CAGET, CAREL, CASWAP and CAEXP complete; exports land and entries are reclaimed.

CAINT of a line that its vault already holds returns that entry's name and adds a reference; of a line whose hash no name of the
vault has, with room in the probed buckets, it makes a live entry with one reference, whose name carries the vault, the keyed hash of
kind and bytes, and index 0, and stores the line (R236, R238; R269). A node's children each gain a reference.

CAGET copies the line of a readable name to the scratchpad and returns its kind (R241; R270); CAREL of the null name does
nothing, of a name with references takes one away, the last one making the entry reclaimable, or held while a block could still be
killed that has released it, and of a name with none raises REFUNDER (R239, R245; R271).

CASWAP is the 128-bit compare and swap, an acquire and a release (R242; R272). CAEXP hands the engine the bytes of the tree below
a readable name, up to its limit, and holds a reference on each entry read; of a leaf these are the leaf's own bytes (R243; R273).

A landing of a CAEXP writes the next bytes of its leaves up to the end of the aligned 8-byte unit, at its page; with the last
byte its references are released (spec/12 R243; spec/13 R273).

RECLAIM frees an entry that is being reclaimed; a node's children are each released once (spec/12 R240). -/
def Obligations.ContentRules : Prop :=
  -- intern results
  (∀ (s : State) h node src vid d f x bs,
  s.Solo (.caint h node src vid d) f x →
  (match src with
    | .scratch a => s.InScratch (s.bk.word x a) 128 16 ∧ bs = s.bk.scratch.getList 0 (s.bk.word x a).toNat 128
    | .tile n row => n < (s.bk.warp s.wp).tiles ∧ s.bk.num x 1 row ≤ 31 ∧
        bs = s.bk.tileBytes s.wp n (128 * s.bk.num x 1 row) 128) →
  let v := s.bk.num x 1 vid % 256
  let hash := (keyedBlake3 (Config.vaultKey v (s.vault v).keys) ((if node then 1 else 0) :: bs)).toNat
  let kids := if node then childNames bs else []
  s.usable s.bk.fn v = true →
  (∀ e, s.content.find? (fun y => decide (nameVid y.name = v) && decide (nameHash y.name = hash) && y.alive &&
      decide (y.node = node) && decide (y.data = bs)) = some e →
    ∃ t, exec (.caint h node src vid d) s = .next t ∧ s.PendsWith t h 4 d (fun _ => e.name.toNat) ∧
      t.content = (s.content.map fun y => if y.name = e.name then { y.addRef with state := .live } else y) ∧
      t.mem = s.mem ∧ s.Passed t) ∧
  (∀ p slot, (∀ y ∈ s.content, ¬ (nameVid y.name = v ∧ nameHash y.name = hash)) →
    (∀ y ∈ kids, nameVid y = v ∧ (s.readable s.bk.fn y).isSome = true) →
    s.freePlace v (nameOf v hash 0) = some (p, slot) → slot + 128 ≤ memEnd →
    let e : CEntry := { name := nameOf v hash 0, state := .live, node := node, pin := false, line := p, slot := slot, ref := 1,
                        data := bs }
    ∃ t, exec (.caint h node src vid d) s = .next t ∧
      s.PendsWith t h 4 d (fun _ => v * 2 ^ 120 + hash * 2 ^ 8) ∧
      t.content = kids.foldl (fun l y => l.map fun z => if z.name = y then z.addRef else z) (s.content ++ [e]) ∧
      s.Stored t slot bs ∧ s.Passed t)) ∧
  -- content results
  (∀ s : State,
  (∀ h d a b off f x e, s.Solo (.caget h d a b off) f x → s.InScratch (s.bk.word x a + off) 128 16 →
    s.readable s.bk.fn (s.bk.src x 4 b) = some e →
    ∃ t, exec (.caget h d a b off) s = .next t ∧ s.Scratched t (s.bk.word x a + off).toNat e.data ∧
      s.PendsWith t h 1 d (fun _ => if e.node then 1 else 0) ∧ t.mem = s.mem ∧ s.Passed t) ∧
  (∀ h d a b off f x, s.Solo (.caget h d a b off) f x → s.InScratch (s.bk.word x a + off) 128 16 →
    s.readable s.bk.fn (s.bk.src x 4 b) = none → Traps s (.caget h d a b off) (s.executing h) cDANGLING) ∧
  (∀ h b f x, s.Solo (.carel h b) f x → s.bk.src x 4 b = 0 →
    ∃ t, exec (.carel h b) s = .next t ∧ t.content = s.content ∧ t.mem = s.mem ∧ s.Passed t) ∧
  (∀ h b f x e, s.Solo (.carel h b) f x → s.bk.src x 4 b ≠ 0 → s.usable s.bk.fn (nameVid (s.bk.src x 4 b)) = true →
    s.entry (s.bk.src x 4 b) = some e →
    (e.state ≠ .reclaiming → e.ref ≠ 0 →
      ∃ t, exec (.carel h b) s = .next t ∧ t.mem = s.mem ∧ s.Passed t ∧
        t.entry (s.bk.src x 4 b) = some (if e.pin then e else
          { e with ref := e.ref - 1,
                   state := if e.ref = 1 then (if s.journalled (s.bk.src x 4 b) then .held else .reclaiming) else e.state })) ∧
    (e.state = .reclaiming ∨ e.ref = 0 → Traps s (.carel h b) (s.executing h) cREFUNDER))) ∧
  -- swap and export results
  (∀ s : State,
  (∀ h d a b c off f x pa, s.Solo (.caswap h d a b c off) f x →
    s.Reaches x (s.bk.pair x a + off.signExtend 64) 16 16 .atomic pa →
    let old := leNat (s.view s.sel.blk pa 16)
    let new := leBytes 16 (if old = s.bk.num x 4 b then s.bk.num x 4 c else old)
    ∃ t, exec (.caswap h d a b c off) s = .next t ∧ s.Stored t pa new ∧ s.Puts t s.sel.blk pa new ∧
      s.PendedIn t h 4 d (fun _ => (old, 0)) ∧ s.CachesOnly t ∧ t.Acquired s.bk.core) ∧
  (∀ h a b c off f x names bytes, s.Solo (.caexp h a b c off) f x → (∀ y ∈ s.sel.thrs, s.bk.num y 2 c % 2 ^ 32 < 2 ^ 28) →
    s.bk.num x 2 c / 2 ^ 32 = 0xFFFFFFFF → (s.readable s.bk.fn (s.bk.src x 4 b)).isSome = true →
    s.export s.bk.fn (s.bk.num x 2 c % 2 ^ 32) (s.content.length + 1) (s.bk.src x 4 b) ([], []) = some (names, bytes) →
    bytes ≠ [] →
    ∃ t q, exec (.caexp h a b c off) s = .next t ∧ t.exports = s.exports ++ [q] ∧ q.bytes = bytes ∧ q.held = names ∧
      q.dst = s.bk.pair x a + off.signExtend 64 ∧ q.thr = x ∧
      t.content = names.foldl (fun l y => l.map fun z => if z.name = y then z.addRef else z) s.content ∧ t.mem = s.mem ∧
      s.Passed t) ∧
  (∀ fn limit n name e, s.readable fn name = some e → e.node = false → limit ≠ 0 →
    s.export fn limit (n + 1) name ([], []) = some ([name], e.data.take limit))) ∧
  -- content landings
  (∀ (s : State) x pa, s.exports = [x] → x.fault = none → x.aoff = 0xFFFFFFFF →
  s.hole = false → (s.blk x.blk).status = .running → s.PlainFor x.blk → x.done < x.bytes.length →
  let va := x.dst + BitVec.ofNat 64 x.done
  let m := min (x.bytes.length - x.done) (8 - va.toNat % 8)
  s.EngineReaches (s.blk x.blk).core x.fn va m .write pa →
  ∃ t, exec (.contentLanding x.id x.done) s = .next t ∧ s.Stored t pa ((x.bytes.drop x.done).take m) ∧
    (if x.bytes.length ≤ x.done + m then
      t.exports = [] ∧ t.content = (x.held.foldl (fun (z : State) y => z.releaseQuiet y) s).content
     else t.exports = [{ x with done := x.done + m }] ∧ t.content = s.content)) ∧
  -- reclaim rule
  (∀ (s : State) j e, s.hole = false → s.content[j]? = some e → e.state = .reclaiming →
  ∃ t, exec (.reclaim j) s = .next t ∧
    t.content = ((if e.node then childNames e.data else []).foldl (fun (z : State) y => z.releaseQuiet y)
      { s with content := s.content.filter fun x => x.name ≠ e.name }).content ∧
    t.mem = s.mem ∧ t.blocks = s.blocks)

/-- AARM, AARRIVE and AWAIT complete, and the fence of the host path.

AARM adds to PEND and names paths, or raises ARMOVF where PEND would pass 2^28 - 1; AARRIVE counts one arrival, and the last
one advances the generation; AWAIT goes on when the generation has passed its value, as an acquire, else waits (spec/11 R221..R223;
R265).

An AWAIT on an object that the HOST path feeds ends with every accepted write of that path in memory (spec/11 R224). -/
def Obligations.ArrivalRules : Prop :=
  -- arrival results
  (∀ s : State,
  (∀ h a b c off f x, s.Solo (.aarm h a b c off) f x → s.InScratch (s.bk.word x a + off) 16 16 →
    let o := s.arrival s.sel.blk (s.bk.word x a + off).toNat
    (o.pend + s.bk.num x 1 b < 2 ^ 28 → ∃ t, exec (.aarm h a b c off) s = .next t ∧
      s.Scratched t (s.bk.word x a + off).toNat
        { o with pend := o.pend + s.bk.num x 1 b, paths := o.paths ||| s.bk.num x 1 c % 16 }.bytes ∧
      s.Passed t ∧ t.mem = s.mem) ∧
    (2 ^ 28 ≤ o.pend + s.bk.num x 1 b → Traps s (.aarm h a b c off) (s.executing h) cARMOVF)) ∧
  (∀ h a off f x, s.Solo (.aarrive h a off) f x → s.InScratch (s.bk.word x a + off) 16 16 →
    let o := s.arrival s.sel.blk (s.bk.word x a + off).toNat
    ∃ t, exec (.aarrive h a off) s = .next t ∧ s.Passed t ∧ t.mem = s.mem ∧
      (1 < o.arrive ∨ (o.arrive = 1 ∧ o.pend ≠ 0) →
        s.Scratched t (s.bk.word x a + off).toNat { o with arrive := o.arrive - 1 }.bytes) ∧
      (o.arrive = 1 → o.pend = 0 →
        s.Scratched t (s.bk.word x a + off).toNat
          { o with gen := (o.gen + 1) % 2 ^ 32, arrive := o.expect, hi := o.hi / 2 * 2 }.bytes) ∧
      (o.arrive = 0 →
        s.Scratched t (s.bk.word x a + off).toNat { o with hi := o.hi / 4 * 4 + 2 + o.hi % 2 }.bytes)) ∧
  (∀ h a b off f x, s.Solo (.await h a b off) f x → s.InScratch (s.bk.word x a + off) 16 16 →
    let o := s.arrival s.sel.blk (s.bk.word x a + off).toNat
    let d := (o.gen + 2 ^ 32 - s.bk.num x 1 b) % 2 ^ 32
    (o.paths < 8 → 1 ≤ d → d ≤ 2 ^ 31 →
      ∃ t, exec (.await h a b off) s = .next t ∧ t.mem = s.mem ∧ s.Passed t ∧ s.CachesOnly t ∧ t.Acquired s.bk.core) ∧
    (d = 0 ∨ 2 ^ 31 < d → ∃ t, exec (.await h a b off) s = .next t ∧ t.mem = s.mem ∧ s.bk.SameRegs t.bk ∧
      t.bk.thr x = { s.bk.thr x with
        wait := some (.await s.sel.blk (s.bk.word x a + off).toNat (s.bk.word x b) s.sel.next) }))) ∧
  -- host fence
  (∀ (s : State) b x p off v next pa bs, s.hole = false → s.hasBlk b → s.poisoned = [] →
  s.watches = [] → s.roasts = [] → s.links = [] → (s.thr b x).wait = some (.await p off v next) → (s.thr b x).raised = none →
  (s.arrival p off).passed v = true → 8 ≤ (s.arrival p off).paths → s.hostQ = [(pa, bs)] → pa + bs.length ≤ memEnd →
  ∃ t, exec (.hostPathFence b x) s = .next t ∧ s.Stored t pa bs ∧ t.hostQ = [] ∧ (t.thr b x).wait = none ∧
    (t.thr b x).pc = next)

/-! ### The fabric (spec/11 R230..R232; spec/27 R436..R438) -/

/-- Writes of the host, and the frames that a module receives.

A write of the host reaches memory whole, and sets the dirty bit of its tile in the live map of each enabled window that holds
it, for a write inside one tile (spec/11 R216; spec/17 R329). No window has a format.

A good DATA frame that its receiver takes joins the writes of the HOST path, and its number is remembered; a damaged one is
answered with NAK reason 1, one that the receiver refuses with reason 2, and neither writes anything (R231; R437, R438).

RXNOTE adds the bytes of the copy to the receive counter of its slot, 64 bits, and is acknowledged (spec/11 R232; R438). -/
def Obligations.ReceiveRules : Prop :=
  -- host writes
  (∀ (s : State) pa bs, s.hole = false → s.poisoned = [] → s.roasts = [] → pa + bs.length ≤ memEnd →
  bs ≠ [] →
  (s.watches = [] → s.links = [] → ∃ t, exec (.hostWrite pa bs) s = .next t ∧ s.Stored t pa bs ∧ t.blocks = s.blocks) ∧
  (∀ n < 32, (s.watch n).en = true → (s.watch n).first ≤ pa → pa ≤ (s.watch n).last → pa % 65536 + bs.length ≤ 65536 →
    s.links = [] →
    let i := (pa - (s.watch n).first) / 65536
    ∃ t, exec (.hostWrite pa bs) s = .next t ∧ (t.byte ((s.watch n).live + i / 8)).getLsbD (i % 8) = true)) ∧
  -- data frames
  (∀ (s : State) f, s.hole = false → f.ver = 1 → f.dmod = s.moduleNo →
  f.payload.length ≤ 4096 → f.payload ≠ [] →
  (f.good = false → ∃ t r, exec (.data f) s = .next t ∧ t.sent = s.sent ++ [(kNak, r)] ∧ r.arg = 1 ∧ r.seq = f.seq ∧
    r.dmod = f.smod ∧ t.mem = s.mem ∧ t.hostQ = s.hostQ) ∧
  (f.good = true → s.known f = false → (s.fn f.dvfn).receives f = false →
    ∃ t r, exec (.data f) s = .next t ∧ t.sent = s.sent ++ [(kNak, r)] ∧ r.arg = 2 ∧ r.seq = f.seq ∧ t.mem = s.mem ∧
      t.hostQ = s.hostQ) ∧
  (∀ pa, f.good = true → s.known f = false → (s.fn f.dvfn).receives f = true →
    s.cpPieces f.dvfn .write 3 (addr (bits64 (s.fn f.dvfn).rxCtl 63 16 * 65536 + bits64 f.arg 34 0)) f.payload.length =
      .ok [(pa, f.payload.length)] →
    ∃ t, exec (.data f) s = .next t ∧ t.hostQ = s.hostQ ++ [(pa, f.payload)] ∧ t.known f = true ∧ t.mem = s.mem)) ∧
  -- receive notes
  (∀ (s : State) f pa, s.hole = false → f.ver = 1 → f.dmod = s.moduleNo →
  f.payload.length ≤ 4096 → f.good = true → s.known f = false → f.dvfn ≤ 64 → f.rxslot < bits64 (s.fn f.dvfn).rxCtr 11 0 →
  s.poisoned = [] → s.watches = [] → s.roasts = [] → s.hostQ = [] → pa + 8 ≤ memEnd →
  s.cpPieces f.dvfn .write 2 (addr (bits64 (s.fn f.dvfn).rxCtr 63 12 * 4096 + 8 * f.rxslot)) 8 = .ok [(pa, 8)] →
  ∃ t, exec (.rxnote f) s = .next t ∧ s.Stored t pa (leBytes 8 ((s.num pa 8 + f.arg.toNat) % 2 ^ 64)) ∧
    (t.link f.port f.smod).seen = (s.link f.port f.smod).seen ++ [BitVec.ofNat 32 f.seq] ∧
    ∃ a, (kAck, a) ∈ t.sent ∧ a.port = f.port ∧ a.dmod = f.smod)

/-- ACK, NAK and CREDIT act on the sender; a frame that times out is sent again.

ACK ends the wait of every frame numbered below it; NAK of integrity sends the frame again; NAK of refusal ends the copy, which
reports PERM; CREDIT grants buffers (R437).

A frame whose time runs out is sent again, at most eight times on a port; then on the next port with a route; when every route
has failed the copy reports PEERLOST and stops (R437). -/
def Obligations.FabricSenderRules : Prop :=
  -- fabric answers
  (∀ (s : State) f, s.hole = false → f.ver = 1 → f.dmod = s.moduleNo →
  f.payload.length ≤ 4096 → f.good = true →
  (s.copies = [] → ∃ t, exec (.ack f) s = .next t ∧ t.mem = s.mem ∧
    ∀ e, e ∈ (t.link f.port f.smod).unacked ↔ e ∈ (s.link f.port f.smod).unacked ∧
      ((f.seq + 2 ^ 32 - e.1.seq) % 2 ^ 32 = 0 ∨ 2 ^ 31 < (f.seq + 2 ^ 32 - e.1.seq) % 2 ^ 32)) ∧
  (∀ e, (s.link f.port f.smod).unacked = [e] → e.1.seq = f.seq → ∃ t, exec (.nakIntegrity f) s = .next t ∧
    t.sent = s.sent ++ [(frameKind e.1, e.1)] ∧ t.links = s.links ∧ t.mem = s.mem) ∧
  (∀ q, s.copies = [q] → inFabric q.dst = true → q.stopped = false → q.id % 2 ^ 32 = f.xid → q.packet = none →
    s.hasBlk q.blk → (s.thr q.blk q.thr).live = true → ∃ t e, exec (.nakRefused f) s = .next t ∧
      t.copies = [{ q with stopped := true, todo := [], fault := none }] ∧
      (t.thr q.blk q.thr).asyncs = (s.thr q.blk q.thr).asyncs ++ [e] ∧ e.code = cPERM ∧ e.pc = q.pc ∧ t.mem = s.mem) ∧
  (∃ t, exec (.credit f) s = .next t ∧
    (t.link f.port f.smod).credits = (s.link f.port f.smod).credits + f.arg.toNat % 65536 ∧ t.mem = s.mem)) ∧
  -- frame retransmission
  (∀ (s : State) port peer f tries, s.hole = false →
  (s.link port peer).unacked = [(f, tries)] →
  (tries % 9 < 8 → ∃ t, exec (.frameRetransmitTimeout port peer f.seq) s = .next t ∧
    t.sent = s.sent ++ [(frameKind f, f)] ∧ (t.link port peer).unacked = [(f, tries + 1)] ∧ t.mem = s.mem) ∧
  (∀ p, tries = 8 → s.portsTo peer = [port, p] → port < p →
    ∃ t g, exec (.frameRetransmitTimeout port peer f.seq) s = .next t ∧ t.sent = s.sent ++ [(frameKind f, g)] ∧ g.port = p ∧
      g.payload = f.payload ∧ g.xid = f.xid ∧ (t.link p peer).unacked = (s.link p peer).unacked ++ [(g, 9)] ∧
      (t.link port peer).unacked = [] ∧ t.mem = s.mem) ∧
  (∀ q, tries % 9 = 8 → (s.portsTo peer).length ≤ tries / 9 + 1 → s.copies = [q] → inFabric q.dst = true →
    q.stopped = false → q.id % 2 ^ 32 = f.xid → q.packet = none → s.hasBlk q.blk → (s.thr q.blk q.thr).live = true →
    ∃ t e, exec (.frameRetransmitTimeout port peer f.seq) s = .next t ∧
      t.copies = [{ q with stopped := true, todo := [], fault := none }] ∧
      (t.thr q.blk q.thr).asyncs = (s.thr q.blk q.thr).asyncs ++ [e] ∧ e.code = cPEERLOST ∧ e.pc = q.pc ∧ t.mem = s.mem))

/-! ### Ownership, directory and caches (spec/10) -/

/-- The home agent answers requests and takes the answers of snoops.

Requests at the home agent, for a line that is not busy: a read of an uncached line gives E and makes the die its owner, of a
shared line S with one more holder; a write of an uncached line gives M; a line that another die owns is snooped first (R205..R207).
A line that the die holds as a decaf copy makes no request (R208).

An upgrade of a die that holds its line alone makes it the owner in M; one of several holders snoops the others (R205, R207).

Answers to snoops: an owner in M answers SnpS by keeping O beside the requester's S, and SnpX or SnpI by giving the line up; the
words that its cores own of the line have reached its L2 then, and the request completes (R203, R206, R207). -/
def Obligations.HomeRules : Prop :=
  -- home requests
  (∀ (s : State) d line, s.hole = false → d < 4 → line < 0x40000000 →
  (∀ c, s.decaf d line = some c → exec (.rds d line) s = .next s ∧ exec (.rdx d line) s = .next s) ∧
  (s.lineBusy line = false → s.decaf d line = none → (s.filterAt d line).length < 16 → s.l2At d line = .i →
  (∀ j < 32, s.owner d (line * 32 + j) = none) → (∀ y ∈ s.wbs, y.2.1 ≠ line) →
  ((s.dirAt line).state = 0 → ∃ t, exec (.rds d line) s = .next t ∧
    t.dirAt line = { owner := d, pres := 1#4 <<< d, state := 2 } ∧ t.l2At d line = .e ∧ t.mem = s.mem ∧ t.blocks = s.blocks) ∧
  ((s.dirAt line).state = 1 → ∃ t, exec (.rds d line) s = .next t ∧
    t.dirAt line = { s.dirAt line with pres := (s.dirAt line).pres ||| (1#4 <<< d) } ∧ t.l2At d line = .s ∧ t.mem = s.mem) ∧
  ((s.dirAt line).state = 0 → ∃ t, exec (.rdx d line) s = .next t ∧
    t.dirAt line = { owner := d, pres := 1#4 <<< d, state := 2 } ∧ t.l2At d line = .m ∧ t.mem = s.mem) ∧
  (∀ o, s.dirAt line = { owner := o, pres := 1#4 <<< o, state := 2 } → o ≠ d →
    (∃ t x, exec (.rds d line) s = .next t ∧ t.txns = s.txns ++ [x] ∧ x.line = line ∧ x.die = d ∧ x.snoops = [(o, 0)] ∧
      t.dir = s.dir ∧ t.l2 = s.l2 ∧ t.mem = s.mem) ∧
    (∃ t x, exec (.rdx d line) s = .next t ∧ t.txns = s.txns ++ [x] ∧ x.line = line ∧ x.die = d ∧ x.snoops = [(o, 1)] ∧
      t.dir = s.dir ∧ t.l2 = s.l2 ∧ t.mem = s.mem)))) ∧
  -- home upgrades
  (∀ (s : State) d line, s.hole = false → d < 4 → line < 0x40000000 →
  s.lineBusy line = false → s.decaf d line = none → s.l2At d line = .s → (s.dirAt line).state = 1 →
  ((s.dirAt line).pres = 1#4 <<< d → (s.filterAt d line).length < 16 → (∀ y ∈ s.wbs, y.2.1 ≠ line) →
    ∃ t, exec (.upg d line) s = .next t ∧
      t.dirAt line = { owner := d, pres := 1#4 <<< d, state := 2 } ∧ t.l2At d line = .m ∧ t.mem = s.mem) ∧
  (∀ o < 4, o ≠ d → (s.dirAt line).pres = (1#4 <<< d ||| 1#4 <<< o) → ∃ t x, exec (.upg d line) s = .next t ∧
    t.txns = s.txns ++ [x] ∧ x.snoops = [(o, 2)] ∧ t.dir = s.dir ∧ t.mem = s.mem)) ∧
  -- snoop answers
  (∀ (s : State) d o line q new, s.hole = false → d < 4 → o < 4 → o ≠ d →
  line < 0x40000000 → (s.filterAt d line).length < 16 → s.l2At o line = .m → s.wbs = [] →
  (s.txns = [{ line := line, die := d, req := .rds, snoops := [(o, 0)], newDir := new }] →
    ∃ t, exec (.snps o line) s = .next t ∧ t.txns = [] ∧ t.l2At o line = .o ∧ t.l2At d line = .s ∧
      t.dirAt line = { owner := o, pres := 1#4 <<< o ||| 1#4 <<< d, state := 3 } ∧ s.Published t [line] ∧
      ∀ j < 32, t.owner o (line * 32 + j) = none) ∧
  (s.txns = [{ line := line, die := d, req := q, snoops := [(o, 1)], newDir := new }] → q ≠ .rds →
    ∃ t, exec (.snpx o line) s = .next t ∧ t.txns = [] ∧ t.l2At o line = .i ∧ t.l2At d line = .m ∧ t.dirAt line = new ∧
      s.Published t [line] ∧ ∀ j < 32, t.owner o (line * 32 + j) = none) ∧
  (s.txns = [{ line := line, die := d, req := q, snoops := [(o, 2)], newDir := new }] → q ≠ .rds →
    ∃ t, exec (.snpi o line) s = .next t ∧ t.txns = [] ∧ t.l2At o line = .i ∧ t.l2At d line = .m ∧ t.dirAt line = new ∧
      s.Published t [line] ∧ ∀ j < 32, t.owner o (line * 32 + j) = none))

/-- Ownership of words, evictions, and the writeback of decaf lines.

A word of a store is registered to its core once the die's L2 holds its line in M or E, which then is M; once no word of its
aligned 8 bytes awaits registration, memory holds the core's stores to them. A recall of the line takes the words of the die's cores
back, with their stores (R202, R203, R205).

WbM of an owner in M and PutC of one in E leave the line uncached; WbM of an owner in O and PutC of a sharer leave it to the
others. While the home agent serves a request for the line, nothing is sent (R205..R207).

A decaf copy that is written back leaves its dirty bytes in memory and no others, and the die's copy is gone (R210). -/
def Obligations.OwnershipRules : Prop :=
  -- word ownership
  (∀ s : State, s.hole = false →
  (∀ core word, (core, word) ∈ s.pendReg → word / 32 < 0x40000000 →
    (s.l2At (dieOf core) (word / 32) = .m ∨ s.l2At (dieOf core) (word / 32) = .e) →
    (∀ x, s.l1At core (word / 32) = some x → x.decaf = false) →
    ∃ t, exec (.ownershipRegister core word) s = .next t ∧
      t.owner (dieOf core) word = (if (s.l1At core (word / 32)).isSome then some core else none) ∧
      (core, word) ∉ t.pendReg ∧ t.l2At (dieOf core) (word / 32) = .m ∧ s.Published t [word / 32] ∧ t.blocks = s.blocks ∧
      ((∀ w, w / 2 = word / 2 → (core, w) ∈ s.pendReg → w = word) →
        ∀ a v, a / 8 = word / 2 → s.ownByte core a = some v → t.byte a = v)) ∧
  (∀ die line, line < 0x40000000 → ∃ t, exec (.ownershipRecall die line) s = .next t ∧ s.Published t [line] ∧
    t.blocks = s.blocks ∧ (∀ j < 32, t.owner die (line * 32 + j) = none) ∧
    ∀ k, ¬ (∃ j < 32, k = ownKey die (line * 32 + j)) → t.owners.get none k = s.owners.get none k)) ∧
  -- cache evictions
  (∀ (s : State) d line, s.hole = false → d < 4 → line < 0x40000000 →
  (s.lineBusy line = true → exec (.wbm d line) s = .next s ∧ exec (.putc d line) s = .next s) ∧
  (s.lineBusy line = false → s.watches = [] → s.roasts = [] →
  (s.l2At d line = .m → (s.dirAt line).state = 2 → (s.dirAt line).owner = d → ∃ t, exec (.wbm d line) s = .next t ∧
    t.dirAt line = {} ∧ t.l2At d line = .i ∧ s.Published t [line] ∧ t.blocks = s.blocks) ∧
  (s.l2At d line = .e → (s.dirAt line).state = 2 → (s.dirAt line).owner = d → ∃ t, exec (.putc d line) s = .next t ∧
    t.dirAt line = {} ∧ t.l2At d line = .i ∧ s.Published t [line] ∧ t.blocks = s.blocks) ∧
  (∀ o < 4, o ≠ d →
    (s.l2At d line = .s → s.dirAt line = { owner := 0, pres := (1#4 <<< d ||| 1#4 <<< o), state := 1 } →
      ∃ t, exec (.putc d line) s = .next t ∧ t.dirAt line = { owner := 0, pres := 1#4 <<< o, state := 1 } ∧
        t.l2At d line = .i ∧ s.Published t [line]) ∧
    (s.l2At d line = .o → s.dirAt line = { owner := d, pres := (1#4 <<< d ||| 1#4 <<< o), state := 3 } →
      ∃ t, exec (.wbm d line) s = .next t ∧ t.dirAt line = { owner := 0, pres := 1#4 <<< o, state := 1 } ∧
        t.l2At d line = .i ∧ s.Published t [line])))) ∧
  -- decaf writeback
  (∀ (s : State) die line c, s.hole = false → line < 0x40000000 →
  s.watches = [] → s.roasts = [] → s.decaf die line = some c → ∃ t, exec (.decafWriteback die line) s = .next t ∧
    t.decaf die line = none ∧ t.blocks = s.blocks ∧
    ∀ a, t.byte a = if a / 128 = line ∧ c.dirty.getLsbD (a % 128) = true then c.data.getD (a % 128) 0 else s.byte a)

/-- PREF, the fences, CCTL, SFLUSH and SMAP complete; so does a writeback.

PREF has no effect but to go on (R258). FENCE and a cross-path fence to the LSU path self-invalidate, and where nothing is held
back no fence has another effect (R260; spec/11 R215; spec/10 R202). A CCTL goes on and leaves the lines of its range to be written
back, or written back and invalidated; one of an empty range only goes on, and a range outside the canonical device space raises PERM
(R259). SFLUSH leaves the lines of the block's mappings to be written back (R267).

A CCTL completes once no store of the core to its lines awaits registration: the core's words of the lines are recalled, the die
has no dirty byte of them, and an invalidating one drops the die's decaf copies and the core's clean ones; SFLUSH recalls the words
of the block's mappings, with their stores (spec/13 R259, R267).

SMAP with a size of 0 removes the mapping of its slot; else, aligned, inside the stash and clear of the others, it sets it, and
otherwise it raises ALIGN or PERM (R266). What the block sees of memory is as it was: the core's stores to the lines that change
place have reached memory (spec/11 R228). The core's L1 holds plain lines. -/
def Obligations.CacheRules : Prop :=
  -- cache control results
  (∀ s : State,
  (∀ h lvl a off f, s.Passes (.pref h lvl a off) f →
    ∃ t, exec (.pref h lvl a off) s = .next t ∧ s.Moved t h fun _ => s.sel.next) ∧
  (∀ h f, s.Passes (.fence h) f → s.bk.contained = false →
    ∃ t, exec (.fence h) s = .next t ∧ s.WentOn t h (fun _ => s.sel.next) ∧ s.CachesOnly t ∧ t.mem = s.mem ∧
      t.Acquired s.bk.core) ∧
  (∀ h x y f, s.Passes (.xfence h x y) f → s.bk.contained = false →
    ∃ t, exec (.xfence h x y) s = .next t ∧ s.WentOn t h (fun _ => s.sel.next) ∧ s.CachesOnly t ∧ t.mem = s.mem ∧
      (if y = 0 then t.Acquired s.bk.core else t.cores = s.cores)) ∧
  (∀ h a b off f x, s.Solo (.cctlWb h a b off) f x →
    let ea := s.bk.pair x a + off.signExtend 64
    let n := s.bk.num x 1 b
    (canonical ea = true → inFabric ea = false → ea.toNat + n ≤ 2 ^ 56 →
      (n = 0 → ∃ t, exec (.cctlWb h a b off) s = .next t ∧ s.Moved t h fun _ => s.sel.next) ∧
      (n ≠ 0 → ∃ t q, exec (.cctlWb h a b off) s = .next t ∧ t.cctls = s.cctls ++ [q] ∧ q.inv = false ∧ q.blk = s.sel.blk ∧
        q.thrs = s.executing h ∧ q.lines = s.rangeLines s.bk.fn ea.toNat n ∧ t.mem = s.mem ∧ s.Passed t)) ∧
    (¬ (canonical ea = true ∧ inFabric ea = false ∧ ea.toNat + n ≤ 2 ^ 56) →
      Traps s (.cctlWb h a b off) (s.executing h) cPERM)) ∧
  (∀ h a b off f x, s.Solo (.cctlInv h a b off) f x →
    let ea := s.bk.pair x a + off.signExtend 64
    let n := s.bk.num x 1 b
    (canonical ea = true → inFabric ea = false → ea.toNat + n ≤ 2 ^ 56 →
      (n = 0 → ∃ t, exec (.cctlInv h a b off) s = .next t ∧ s.Moved t h fun _ => s.sel.next) ∧
      (n ≠ 0 → ∃ t q, exec (.cctlInv h a b off) s = .next t ∧ t.cctls = s.cctls ++ [q] ∧ q.inv = true ∧ q.blk = s.sel.blk ∧
        q.thrs = s.executing h ∧ q.lines = s.rangeLines s.bk.fn ea.toNat n ∧ t.mem = s.mem ∧ s.Passed t)) ∧
    (¬ (canonical ea = true ∧ inFabric ea = false ∧ ea.toNat + n ≤ 2 ^ 56) →
      Traps s (.cctlInv h a b off) (s.executing h) cPERM)) ∧
  (∀ h f, s.Passes (.sflush h) f →
    ∃ t q, exec (.sflush h) s = .next t ∧ t.sflushes = s.sflushes ++ [q] ∧ q.lines = s.smapLines s.sel.blk ∧
      q.thrs = s.executing h ∧ t.mem = s.mem ∧ s.Passed t)) ∧
  -- cache control completion
  (∀ s : State, s.hole = false → s.pendReg = [] → s.roasts = [] →
  (∀ f, s.cctls = [f] → s.watches = [] → (∀ l ∈ f.lines, l < 0x40000000) →
    ∃ t, exec (.cctlComplete f.id) s = .next t ∧ t.cctls = [] ∧ t.blocks = s.blocks ∧
      (∀ e ∈ t.owners, ¬ (e.2 = some f.core ∧ e.1 % 0x800000000 / 32 ∈ f.lines)) ∧
      (∀ a, a / 128 ∉ f.lines → t.byte a = s.byte a) ∧
      (∀ l ∈ f.lines,
        (f.inv = true → t.decaf f.die l = none ∧
          ∀ x, t.l1At f.core l = some x → ∀ j < 128, x.valid.getLsbD j = true → x.dirty.getLsbD j = true) ∧
        (f.inv = false → ∀ c, t.decaf f.die l = some c → c.dirty = 0))) ∧
  (∀ f, s.sflushes = [f] → (∀ l ∈ f.lines, l < 0x40000000) →
    ∃ t, exec (.sflushComplete f.id) s = .next t ∧ t.sflushes = [] ∧ s.Published t f.lines ∧
      (∀ e ∈ t.owners, ¬ (e.2 = some f.core ∧ e.1 % 0x800000000 / 32 ∈ f.lines)) ∧
      ∀ l ∈ f.lines, ∀ x, t.l1At f.core l = some x → x.dirty = 0)) ∧
  -- stash mapping
  (∀ (s : State) h n a b c f, s.Passes (.smap h n a b c) f → s.PlainL1 s.bk.core →
  let x := s.sel.thrs.headD 0
  let g := s.bk.pair x a
  let size := s.bk.num x 1 b
  let off := s.bk.num x 1 c
  let fits := off + size ≤ s.bk.stashSize ∧ canonical g = true ∧ inFabric g = false ∧ inAperture g = false ∧
    ∀ m < 16, m ≠ n → ∀ e, s.bk.smap m = some e →
      (e.base + e.size ≤ g.toNat ∨ g.toNat + size ≤ e.base) ∧ (e.off + e.size ≤ off ∨ off + size ≤ e.off)
  (size = 0 → ∃ t, exec (.smap h n a b c) s = .next t ∧ t.bk.smap n = none ∧
    (∀ m, m ≠ n → t.bk.smap m = s.bk.smap m) ∧ s.SameView t s.sel.blk ∧ s.Passed t) ∧
  (size ≠ 0 → g.toNat % 128 = 0 ∧ size % 128 = 0 ∧ off % 128 = 0 → fits →
    ∃ t, exec (.smap h n a b c) s = .next t ∧ t.bk.smap n = some { base := g.toNat, size := size, off := off } ∧
      (∀ m, m ≠ n → t.bk.smap m = s.bk.smap m) ∧ s.SameView t s.sel.blk ∧ s.Passed t) ∧
  (size ≠ 0 → ¬ (g.toNat % 128 = 0 ∧ size % 128 = 0 ∧ off % 128 = 0) → s.bk.smap n = none →
    Traps s (.smap h n a b c) (s.executing h) cALIGN) ∧
  (size ≠ 0 → g.toNat % 128 = 0 ∧ size % 128 = 0 ∧ off % 128 = 0 → ¬ fits → s.bk.smap n = none →
    Traps s (.smap h n a b c) (s.executing h) cPERM))

/-! ### Completion, scheduling, and the life of a block (spec/03 R59; spec/15; spec/16; spec/18; spec/19) -/

/-- Long-latency arithmetic becomes pending and writes its result and flags when it completes.

The special functions and the FP64 group are long-latency: they become pending with their results, and write no register
before they complete (spec/03 R58, R59; R150).

A pending instruction whose result is known completes: each of its threads' registers receives its value, %fs its flags, and it
is pending no more; one whose result is not known stays (spec/03 R59). -/
def Obligations.LongLatencyRules : Prop :=
  -- long latency arithmetic
  (∀ s : State,
  (∀ h rm d b, Pends s (.frcp h rm d b) 1 d fun x => frcpVal rm (f32.decode (s.bk.num x 1 b))) ∧
  (∀ h d b, Pends s (.frsq h d b) 1 d fun x => frsqVal (s.bk.num x 1 b)) ∧
  (∀ h rm d b, Pends s (.fsqrt h rm d b) 1 d fun x => fsqrtVal rm (f32.decode (s.bk.num x 1 b))) ∧
  (∀ h d b, Pends s (.fexp2 h d b) 1 d fun x => fexp2Val (s.bk.num x 1 b)) ∧
  (∀ h d b, Pends s (.flog2 h d b) 1 d fun x => flog2Val (s.bk.num x 1 b)) ∧
  (∀ h d b, Pends s (.fsin h d b) 1 d fun x => fsincosVal 5 (s.bk.num x 1 b)) ∧
  (∀ h d b, Pends s (.fcos h d b) 1 d fun x => fsincosVal 6 (s.bk.num x 1 b)) ∧
  (∀ h d b, Pends s (.ftanh h d b) 1 d fun x => ftanhVal (s.bk.num x 1 b)) ∧
  (∀ h rm d a b, Pends s (.dadd h rm d a b) 2 d fun x => f64.add rm (s.bk.fval x .f64 a) (s.bk.fval x .f64 b)) ∧
  (∀ h rm d a b, Pends s (.dmul h rm d a b) 2 d fun x => f64.mul rm (s.bk.fval x .f64 a) (s.bk.fval x .f64 b)) ∧
  (∀ h rm d a b c, Pends s (.dfma h rm d a b c) 2 d fun x =>
    f64.fma rm (s.bk.fval x .f64 a) (s.bk.fval x .f64 b) (s.bk.fval x .f64 c))) ∧
  -- long latency completion
  (∀ (s : State) b p n w vals tag, s.hole = false → s.hasBlk b →
  (s.blk b).pend = [p] → p.result = .regs (.v n) w vals tag → n + w ≤ 256 → p.warps = [] →
  (vals.map fun e => laneOf e.1).Nodup →
  (p.ready = true → ∃ t, exec (.longLatencyComplete b 0) s = .next t ∧ (t.blk b).pend = [] ∧
    (∀ e ∈ vals, ∀ j < w, (t.blk b).vreg p.warp (n + j) (laneOf e.1) = wordAt e.2 j) ∧
    (∀ wp r q, r < 256 → q < 32 → ¬ (wp = p.warp ∧ n ≤ r ∧ r < n + w ∧ ∃ e ∈ vals, laneOf e.1 = q) →
      (t.blk b).vreg wp r q = (s.blk b).vreg wp r q) ∧
    ((t.blk b).warp p.warp).fs = ((s.blk b).warp p.warp).fs ||| p.flags ∧ t.mem = s.mem ∧
    (t.blk b).threads = (s.blk b).threads) ∧
  (p.ready = false → exec (.longLatencyComplete b 0) s = .next s))

/-- EXIT completes and ends its threads; a block whose threads have ended leaves its core.

EXIT retires its executing threads, which close their try regions and are live no more; the others go on (R166). No
thread is in a convergence set here.

A block whose threads have all exited, with nothing of it left in flight, leaves its core, and its launch counts it (spec/07
R166; spec/16 R306). It holds nothing back here, maps no stash, writes no trace and no occupancy word. -/
def Obligations.EndRules : Prop :=
  -- exit retires
  (∀ (s : State) h f, s.Passes (.exit h) f →
  (∀ n < 8, (s.bk.kreg n).kind = 0) → ∃ t, exec (.exit h) s = .next t ∧
    (∀ x ∈ s.executing h, (t.bk.thr x).live = false ∧ (t.bk.thr x).tstack = []) ∧
    (∀ x, x ∉ s.executing h → (t.bk.thr x).live = (s.bk.thr x).live) ∧
    (∀ x ∈ s.sel.thrs, x ∉ s.executing h → (s.bk.thr x).wait = none → (t.bk.thr x).pc = s.sel.next) ∧
    t.mem = s.mem ∧ s.bk.SameRegs t.bk) ∧
  -- block ends
  (∀ (s : State) b l, s.hole = false → s.hasBlk b → (s.blk b).status = .running →
  (s.blk b).agent = false → (s.blk b).liveThreads = [] → s.quiet b = true → s.PlainFor b → (s.blk b).smaps = [] →
  (∀ r, (s.region r).occ = 0) → (∀ c, (s.blk c).status = .dead → (s.blk c).notice = true) →
  s.launchOf (s.blk b).fn (s.blk b).lid = some l →
  ∃ t, exec (.blockEnd b) s = .next t ∧ t.blocks.get none b = none ∧
    t.launchOf l.fn l.lid = some { l with ended := l.ended ++ [(s.blk b).q] } ∧ t.mem = s.mem)

/-- Regroups, forced groups, promotions, ages, cluster release and the barista.

REGROUP forms the PC groups anew, so that the live threads of a warp share one where their program counters are equal, brings back
every warp of the partition that had yielded and starts a new interval; it leaves no more than eight warps active, and changes no
thread's state, register or memory otherwise (spec/15 R278, R280, R281).

A PC group that holds a ready thread and was passed over in 16 intervals is due, and the warp's next issue takes a group that is
due, when there is one; a ready warp that is promoted becomes active where the partition has room (spec/15 R280, R282).

AGE_ID takes a cluster while no age is counted, and keeps it else; AGE_CT counts from its value to the next, up to 4, and ignores
any other write (spec/16 R317).

The members of a cluster that is whole run, all in one step, and the age register that registers it is cleared; when its hold times
out, held members are removed and members that were to resume are saved again (spec/16 R315, R317, R323).

BARISTA_START puts the barista's warp on its core: 32 live threads of mode 2 at the entry, with the start values in scalar
registers 0 to 15, in place of one that is there; it starts none on a core or a partition 3 that is out of service (spec/19 R365;
spec/01 R17). -/
def Obligations.SchedulingRules : Prop :=
  -- regroup rule
  (∀ (s : State) part, s.hole = false → ∃ t, exec (.regroup part) s = .next t ∧
  (∀ x ∈ s.partWarps part, (t.warp x.1 x.2).yielded = false ∧ (t.warp x.1 x.2).interval = [] ∧
    ∀ y ∈ (s.blk x.1).liveOf x.2, ∀ z ∈ (s.blk x.1).liveOf x.2,
      ((t.thr x.1 y).grp = (t.thr x.1 z).grp ↔ (s.thr x.1 y).pc = (s.thr x.1 z).pc)) ∧
  ((s.partWarps part).Nodup → ((s.partWarps part).filter fun x => (s.warp x.1 x.2).active).length ≤ 8 →
    ((s.partWarps part).filter fun x => (t.warp x.1 x.2).active).length ≤ 8) ∧
  (∀ b x, t.thr b x = { s.thr b x with grp := (t.thr b x).grp }) ∧ t.mem = s.mem ∧
  ∀ b, (t.blk b).vregs = (s.blk b).vregs ∧ (t.blk b).sregs = (s.blk b).sregs) ∧
  -- forward progress
  (∀ (s : State) b w, s.hole = false → s.hasBlk b →
  (∀ pc n x, (pc, n) ∈ ((s.blk b).warp w).passed → 16 ≤ n → pc ∉ ((s.blk b).warp w).interval → x ∈ (s.blk b).liveOf w →
    ((s.blk b).thr x).pc = pc → s.readyThread b x = true → pc ∈ s.dueGroups b w) ∧
  (∀ pc ∈ s.dueGroups b w, pc ∉ ((s.blk b).warp w).forced → ∃ t, exec (.pcGroupForce b w pc) s = .next t ∧
      pc ∈ ((t.blk b).warp w).forced ∧ (∀ b x, t.thr b x = s.thr b x) ∧ t.mem = s.mem) ∧
  (∀ pc rest n, s.dueGroups b w = pc :: rest → ∃ x, s.nextThread b w n = some x ∧ ((s.blk b).thr x).pc = pc) ∧
  (s.readyWarp b w = true → (s.warp b w).promoted = none →
    ((s.warp b w).active = true ∨
      ((s.partWarps (4 * (s.blk b).core + (s.blk b).partOf w)).filter fun y => (s.warp y.1 y.2).active).length < 8) →
    ∃ t, exec (.warpPromotion b w) s = .next t ∧ (t.warp b w).promoted.isSome ∧ (t.warp b w).active = true ∧
      (∀ b x, t.thr b x = s.thr b x) ∧ t.mem = s.mem)) ∧
  -- age registers
  (∀ (s : State) r v, s.hole = false → r < 32 →
  (∃ t, exec (.ageId r v) s = .next t ∧
    t.region r = (if (s.region r).age = 0 then { s.region r with ageId := v } else s.region r) ∧
    (∀ q, q ≠ r → t.region q = s.region q) ∧ t.mem = s.mem) ∧
  (∃ t, exec (.ageCt r v) s = .next t ∧
    t.region r = (if (s.region r).age < 4 ∧ v.toNat % 8 = (s.region r).age + 1
      then { s.region r with age := (s.region r).age + 1 } else s.region r) ∧
    (∀ q, q ≠ r → t.region q = s.region q) ∧ t.mem = s.mem)) ∧
  -- cluster rules
  (∀ (s : State) region fn lid ci, s.hole = false →
  let bs := s.waitingOf region fn (BitVec.ofNat 32 lid) ci
  ((s.region region).holder = some fn → (s.region region).preempt = false →
    s.wholeCluster fn (BitVec.ofNat 32 lid) ci bs = true → ∃ t, exec (.clusterRelease region fn lid ci) s = .next t ∧
      (∀ b ∈ bs, s.hasBlk b → (t.blk b).status = .running) ∧ t.mem = s.mem ∧
      t.region region = (if (s.region region).ageId = BitVec.ofNat 32 ci ++ BitVec.ofNat 32 lid
        then { s.region region with ageId := 0, age := 0 } else s.region region)) ∧
  (∃ t, exec (.clusterHoldTimeout region fn lid ci) s = .next t ∧ t.mem = s.mem ∧
    ∀ b ∈ bs, t.blocks.get none b = none ∨ (t.blk b).status = .saved)) ∧
  -- barista starts
  (∀ (s : State) core entry start, s.hole = false → core < 256 →
  ((s.core core).outOfService = false → 3 ∉ (s.core core).partsOut → start.length = 16 → ∃ t b,
    exec (.baristaStart core entry start) s = .next t ∧ t.mem = s.mem ∧
    (s.barista core = none → b = s.nextId) ∧ (∀ c, s.barista core = some c → s.hasBlk c → b = c) ∧
    (s.barista core = none ∨ (∃ c, s.barista core = some c ∧ s.hasBlk c) →
      let k := t.blk b
      k.agent = true ∧ k.core = core ∧ k.status = .running ∧ k.nwarps = 1 ∧
        (∀ x < 32, (k.thr x).live = true ∧ (k.thr x).pc = entry ∧ (k.thr x).mode = 2) ∧
        (∀ n < 16, k.sreg 0 n = start.getD n 0) ∧ k.vregs = [])) ∧
  ((s.core core).outOfService = true ∨ 3 ∈ (s.core core).partsOut → exec (.baristaStart core entry start) s = .next s))

/-- ROLESW and ROLESW.TRY complete: a warp changes its role at once, waits for it, or gives up.

A warp whose live threads have all arrived at a ROLESW and that needs nothing more for the role takes it: every thread goes to
the role's entry, and the warp has the role's allotments and priority; the TRY form also sets its predicate. With no room, the
TRY form writes false and goes on (R347..R349).

The warp that has waited longest on a partition takes its role once what it needs is free (spec/18 R349). -/
def Obligations.RoleRules : Prop :=
  -- role change results
  (∀ (s : State) h r pd ts role,
  s.hole = false → s.hasBlk s.sel.blk → ts ≠ [] → ts = s.bk.liveOf s.wp → ts.Nodup → s.bk.roles[r]? = some role →
  (∀ x ∈ ts, s.bk.arrived s.sel.pc x = true ∧ (s.bk.thr x).guard h = true) → s.bk.signedWarp ts = false →
  (s.bk.roleGrowth s.wp r = { slots := 0, regs := 0, tiles := 0, accs := 0 } → r < 4 →
    (∃ t, exec (.rolesw h r) s = .next t ∧
      (∀ x ∈ ts, (t.bk.thr x).pc = role.entry ∧ (t.bk.thr x).wait = none ∧ (t.bk.thr x).preds = (s.bk.thr x).preds ∧
        (t.bk.thr x).tstack = (s.bk.thr x).tstack.filter fun e => e.level ≠ 0) ∧
      (t.bk.warp s.wp).role = r ∧ (t.bk.warp s.wp).regs = 8 * role.regq ∧ (t.bk.warp s.wp).tiles = role.tiles ∧
      (t.bk.warp s.wp).acc = role.acc ∧ (t.bk.warp s.wp).prio = role.prio ∧
      (∀ n q, n < 256 → q < 32 → t.bk.vreg s.wp n q =
        if n < min (s.bk.warp s.wp).regs (8 * role.regq) then s.bk.vreg s.wp n q else 0) ∧ t.mem = s.mem) ∧
    (∃ t, exec (.roleswTry h pd r) s = .next t ∧ (t.bk.warp s.wp).role = r ∧
      ∀ x ∈ ts, (t.bk.thr x).pc = role.entry ∧ (t.bk.thr x).pred pd = true)) ∧
  (s.roleFree s.sel.blk s.wp r = false →
    (∃ t, exec (.roleswTry h pd r) s = .next t ∧ (t.bk.warp s.wp).role = (s.bk.warp s.wp).role ∧
      ∀ x ∈ ts, (t.bk.thr x).pc = s.sel.next ∧ (pd < 7 → (t.bk.thr x).pred pd = false)) ∧
    (∃ t, exec (.rolesw h r) s = .next t ∧ (t.bk.warp s.wp).role = (s.bk.warp s.wp).role ∧
      ∀ x ∈ ts, ∃ seq, (t.bk.thr x).wait = some (.rolesw r seq)))) ∧
  -- role grants
  (∀ (s : State) part b w r rest role, s.hole = false →
  s.roleWaiters (part / 4) (part % 4) = (b, w, r) :: rest → s.roleFree b w r = true → (s.blk b).roles[r]? = some role →
  ∃ t, exec (.roleswGrant part) s = .next t ∧ ((t.blk b).warp w).role = r ∧ ((t.blk b).warp w).regs = 8 * role.regq ∧
    (∀ x ∈ (s.blk b).liveOf w, ((t.blk b).thr x).pc = role.entry ∧ ((t.blk b).thr x).wait = none) ∧ t.mem = s.mem)

/-! ### Notify registers, queues, packets and launches (spec/16; spec/27 R434; spec/21 R382, R445) -/

/-- The notify registers latch, bind, unbind and wake.

NOTIFY_WRITE latches the fill position, pending where the command processor is gated; a fill position that the ring cannot hold
stops a host queue with error 0x07 (spec/27 R434; spec/21 R382; spec/16 R302, R309).

NOTIFY_BIND of a register that is not bound binds it, reads the control block and starts the queue at its RDIDX; NOTIFY_UNBIND
disables a queue that does not wait, and NOTIFY_WAKE takes what is pending on its die (spec/27 R434; spec/21 R381, R382). -/
def Obligations.NotifyRules : Prop :=
  -- notify writes
  (∀ (s : State) fn n v, s.bootState = 2 → (s.fn fn).busy = false → s.hole = false →
  ((s.queue fn n).hostq = false → ∃ t, exec (.notifyWrite fn n v) s = .next t ∧
    t.notifyReg fn n = { s.notifyReg fn n with fill := v, pending := (s.die (queueDie fn n)).gated } ∧
    t.mem = s.mem ∧ t.blocks = s.blocks ∧ t.queue fn n = s.queue fn n) ∧
  (∀ pa f, (s.queue fn n).hostq = true → s.QueueRuns fn n pa f [] → (s.queue fn n).waits = none → (s.queue fn n).fetched = [] →
    (s.queue fn n).state = 1 → ∃ t, exec (.notifyWrite fn n v) s = .next t ∧
      (t.notifyReg fn n).fill = v ∧ (t.notifyReg fn n).pending = false ∧
      let d := (v - (s.queue fn n).rdidx).toNat
      (2 ^ (s.queue fn n).log2n < d ∧ d ≤ 2 ^ 31 → s.QueueFailed t fn n pa 7) ∧
      (¬ (2 ^ (s.queue fn n).log2n < d ∧ d ≤ 2 ^ 31) → t.queue fn n = s.queue fn n ∧ t.mem = s.mem))) ∧
  -- notify binds
  (∀ (s : State) fn n (v : DWord), s.bootState = 2 → (s.fn fn).busy = false →
  s.hole = false → s.poisoned = [] → s.watches = [] → s.roasts = [] →
  let q := addr (bits64 v 63 6 * 64)
  (∀ pa bs, (s.notifyReg fn n).en = false → (s.fn fn).queues = [] → s.fnWarps fn = [] → s.launches = [] →
    s.cpRuns (queueDie fn n) = true → s.cpRead fn q 64 = .ok bs → qcbOk bs = true →
    s.CpReaches fn (q + 0x10) 16 .write pa →
    ∃ t, exec (.notifyBind fn n v) s = .next t ∧ (t.notifyReg fn n).en = true ∧ (t.notifyReg fn n).qcb = q ∧
      (t.queue fn n).running = true ∧ (t.queue fn n).state = 1 ∧ (t.queue fn n).pos = BitVec.ofNat 32 (pkt bs 0x10 4) ∧
      (t.queue fn n).base = addr (pkt bs 0 8) ∧ (t.queue fn n).log2n = pkt bs 8 8 % 32 ∧
      s.WroteQueue t fn n pa []) ∧
  ((s.notifyReg fn n).en = true → exec (.notifyBind fn n v) s = .next s) ∧
  (∀ pa f, s.QueueRuns fn n pa f [] → (s.queue fn n).waits = none → ∃ t, exec (.notifyUnbind fn n v) s = .next t ∧
    (t.notifyReg fn n).en = false ∧ (t.queue fn n).running = false ∧ (t.queue fn n).state = 0 ∧ t.blocks = s.blocks) ∧
  (∀ die, ∃ t, exec (.notifyWake die) s = .next t ∧ (t.die die).gated = false ∧ t.mem = s.mem ∧ t.blocks = s.blocks ∧
    ∀ g m, (t.notifyReg g m).fill = (s.notifyReg g m).fill ∧
      (t.notifyReg g m).pending = (if queueDie g m = die then false else (s.notifyReg g m).pending)))

/-- Packets are fetched; JUMP, FETCH_FENCE, COND, SIGNAL and LOOP complete at once.

PACKET_FETCH reads the next 8 bytes of the ring at the first position from P on that is not fetched whole; of memory only the queue's
STATE may change (spec/16 R301, R307).

Packets that complete at once: JUMP moves P by its count; FETCH_FENCE discards what is fetched; COND skips its count when its
compare holds; SIGNAL writes its word and then its record; LOOP goes back until its counter has run out, and stops its queue with 0x05
where its target lies before RDIDX (spec/16 R304, R305). -/
def Obligations.SimplePacketRules : Prop :=
  -- packet fetch
  (∀ (s : State) fn n pa f p k pb, s.QueueRuns fn n pa f [] → (s.queue fn n).waits = none →
  (s.queue fn n).nextUnit f = some (p, k) →
  s.CpReaches fn ((s.queue fn n).base + BitVec.ofNat 64 (p.toNat % 2 ^ (s.queue fn n).log2n * 64 + k)) 8 .read pb →
  ∃ t, exec (.packetFetch fn n) s = .next t ∧ s.WroteQueue t fn n pa [] ∧ t.blocks = s.blocks ∧
    (t.queue fn n).fetched = if k = 0 then (s.queue fn n).fetched ++ [(p, s.readPA pb 8)]
      else (s.queue fn n).fetched.map fun e => if e.1 = p then (p, e.2 ++ s.readPA pb 8) else e) ∧
  -- simple packets
  (∀ (s : State) fn n pa bs pb,
  s.recordReached fn bs pb →
  let q := s.queue fn n
  let ws := recordWrite bs pb
  (s.AtPacket fn n pa ws bs 8 none → pktOk bs (inField 0x10 4) = true → 1 ≤ pkt bs 0x10 4 → pkt bs 0x10 4 ≤ 2 ^ 31 →
    ∃ t, exec (.jump fn n) s = .next t ∧ s.MovedTo t fn n pa ws (q.pos + BitVec.ofNat 32 (pkt bs 0x10 4))) ∧
  (s.AtPacket fn n pa ws bs 9 none → pktOk bs (fun _ => false) = true →
    ∃ t, exec (.fetchFence fn n) s = .next t ∧ s.MovedTo t fn n pa ws (q.pos + 1) ∧ (t.queue fn n).fetched = []) ∧
  (∀ pc, s.AtPacket fn n pa ws bs 7 none → condOk bs = true → s.CpReaches fn (addr (pkt bs 0x10 8)) (pktBytes bs) .read pc →
    ∃ t, exec (.cond fn n) s = .next t ∧ s.MovedTo t fn n pa ws
      (q.pos + 1 + BitVec.ofNat 32 (if pktCompare bs (s.num pc (pktBytes bs)) then pkt bs 0x2C 4 else 0))) ∧
  (∀ pc, signalOk bs = true → s.CpReaches fn (addr (pkt bs 0x10 8)) (pktBytes bs) .read pc →
    s.CpReaches fn (addr (pkt bs 0x10 8)) (pktBytes bs) .write pc →
    let w := (pc, leBytes (pktBytes bs) (signalValue bs (s.num pc (pktBytes bs))))
    s.AtPacket fn n pa (w :: ws) bs 5 none → ∃ t, exec (.signal fn n) s = .next t ∧ s.MovedTo t fn n pa (w :: ws) (q.pos + 1)) ∧
  (∀ (b : Word), s.AtPacket fn n pa ws bs 6 none → pktOk bs (inField 0x10 8) = true → 1 ≤ pkt bs 0x10 4 →
    b = BitVec.ofNat 32 (pkt bs 0x14 4) → 1 ≤ b.toNat → b.toNat ≤ 1024 → b.toNat ≤ (q.pos - q.rdidx).toNat → q.loops = [] →
    ∃ t, exec (.loop fn n) s = .next t ∧
      (pkt bs 0x10 4 = 1 → s.MovedTo t fn n pa ws (q.pos + 1) ∧ (t.queue fn n).loops = []) ∧
      (1 < pkt bs 0x10 4 → s.MovedTo t fn n pa ws (q.pos - b) ∧
        (t.queue fn n).loops = [(q.pos, BitVec.ofNat 32 (pkt bs 0x10 4 - 2), b)])) ∧
  (∀ (b c : Word), s.AtPacket fn n pa ws bs 6 none → pktOk bs (inField 0x10 8) = true → 1 ≤ pkt bs 0x10 4 →
    b = BitVec.ofNat 32 (pkt bs 0x14 4) → 1 ≤ b.toNat → b.toNat ≤ 1024 → b.toNat ≤ (q.pos - q.rdidx).toNat →
    q.loops = [(q.pos, c, b)] → ∃ t, exec (.loop fn n) s = .next t ∧
      (c = 0 → s.MovedTo t fn n pa ws (q.pos + 1) ∧ (t.queue fn n).loops = []) ∧
      (c ≠ 0 → s.MovedTo t fn n pa ws (q.pos - b) ∧ (t.queue fn n).loops = [(q.pos, c - 1, b)])) ∧
  (∀ (b : Word), s.AtPacket fn n pa [] bs 6 none → pktOk bs (inField 0x10 8) = true → 1 ≤ pkt bs 0x10 4 → pktSig bs = none →
    b = BitVec.ofNat 32 (pkt bs 0x14 4) → 1 ≤ b.toNat → b.toNat ≤ 1024 → (q.pos - q.rdidx).toNat < b.toNat →
    ∃ t, exec (.loop fn n) s = .next t ∧ s.QueueFailed t fn n pa 5))

/-- WAIT and COPY packets, and packets of undefined types.

WAIT waits, with STATE 2, or 3 when what it waits for is external; it completes when its masked compare holds, and goes on
waiting while it does not (spec/16 R304, R305, R325).

A packet of an undefined type stops its queue with error 0x01, with an interrupt; one that asks for a record is answered with
STATUS 3 (spec/16 R303, R309).

COPY starts a copy and P moves on; the packet completes, with its record, once its bytes have landed (spec/16 R304, R306). -/
def Obligations.WaitingPacketRules : Prop :=
  -- wait packets
  (∀ (s : State) fn n pa bs, waitOk bs = true →
  (s.AtPacket fn n pa [] bs 4 none → ∃ t, exec (.waitPacket fn n) s = .next t ∧
    (t.queue fn n).waits = some (decide (pkt bs 0x28 4 / 16 % 2 = 1)) ∧
    (t.queue fn n).state = (if pkt bs 0x28 4 / 16 % 2 = 1 then 3 else 2) ∧ (t.queue fn n).pos = (s.queue fn n).pos ∧
    s.WroteQueue t fn n pa [] ∧ t.blocks = s.blocks) ∧
  (∀ w pb pc, s.recordReached fn bs pb → s.AtPacket fn n pa (recordWrite bs pb) bs 4 (some w) →
    s.CpReaches fn (addr (pkt bs 0x10 8)) (pktBytes bs) .read pc →
    (pktCompare bs (s.num pc (pktBytes bs)) = true → ∃ t, exec (.waitPacketSatisfied fn n) s = .next t ∧
      s.MovedTo t fn n pa (recordWrite bs pb) ((s.queue fn n).pos + 1)) ∧
    (pktCompare bs (s.num pc (pktBytes bs)) = false → (s.queue fn n).state = (if w then 3 else 2) →
      ∃ t, exec (.waitPacketSatisfied fn n) s = .next t ∧ t.queue fn n = s.queue fn n ∧ t.mem = s.mem ∧ t.blocks = s.blocks))) ∧
  -- undefined packets
  (∀ (s : State) fn n pa bs type, (type = 0 ∨ 0xB ≤ type) →
  s.AtPacket fn n pa [] bs type none →
  (pktSig bs = none → ∃ t, exec (.undefinedTypePacket fn n) s = .next t ∧ s.QueueFailed t fn n pa 1) ∧
  (∀ a pb, pktSig bs = some a → a.toNat % 64 = 0 → (pb + 64 ≤ pa ∨ pa + 16 ≤ pb) →
    (∀ w, w.length = 16 → (s.writes [(pa, w)]).CpReaches fn a 64 .write pb) →
    ∃ t, exec (.undefinedTypePacket fn n) s = .next t ∧ (t.queue fn n).state = 4 ∧ (t.queue fn n).err = 1 ∧
      ∀ j < 64, t.byte (pb + j) = (recordBytes 3 (pktTag bs) none).getD j 0)) ∧
  -- copy packets
  (∀ (s : State) fn n,
  (∀ pa bs, s.AtPacket fn n pa [] bs 10 none → pktOk bs (inField 0x10 24) = true → pkt bs 0x20 8 ≤ 2 ^ 40 →
    ∃ t q, exec (.copy fn n) s = .next t ∧ s.MovedTo t fn n pa [] ((s.queue fn n).pos + 1) ∧ t.copies = s.copies ++ [q] ∧
      q.packet = some (n, (s.queue fn n).pos) ∧ q.fn = fn ∧ q.src = addr (pkt bs 0x10 8) ∧ q.dst = addr (pkt bs 0x18 8) ∧
      q.bytes = pkt bs 0x20 8 ∧ (t.queue fn n).inflight = [((s.queue fn n).pos, .copy q.id (pktSig bs) (pktTag bs))]) ∧
  (∀ q pos sig tag, s.hole = false → s.watches = [] → s.roasts = [] → s.copies = [q] → q.fn = fn → q.packet = some (n, pos) →
    q.landed = true → q.fault = none → (s.queue fn n).inflight = [(pos, .copy q.id sig tag)] →
    (sig = none → ∃ t, exec (.copyPacketComplete q.id) s = .next t ∧ t.copies = [] ∧ (t.queue fn n).inflight = [] ∧
      t.mem = s.mem) ∧
    (∀ a pb, sig = some a → s.CpReaches fn a 64 .write pb → ∃ t, exec (.copyPacketComplete q.id) s = .next t ∧ t.copies = [] ∧
      (t.queue fn n).inflight = [] ∧ s.Stored t pb (recordBytes 1 tag none))))

/-- A launch that is checked starts: its snapshot is written, it has the next launch id, and its clusters are shared over the dies of
its context; it is the packet at its position that has started (spec/16 R311, R312, R447). -/
def Obligations.LaunchPackets : Prop := ∀ (s : State) fn n pa bs c, c.snap.length = 512 → 1 ≤ c.d.csize →
  let ok := fun (t : State) (l : Launch) => l.fn = fn ∧ l.lid = (s.fn fn).lidNext ∧ l.snap = snapBase ∧
    l.grid = c.d.grid ∧ l.shares = sharesOf (s.fn fn).dieList l.clusters ∧ l.sigAddr = pktSig bs ∧ l.tag = pktTag bs ∧
    l.queue = some (n, (s.queue fn n).pos) ∧ l.ending = .running ∧ l.ended = [] ∧ t.launches = [l] ∧
    (t.fn fn).nextLid = l.lid ∧ (t.queue fn n).inflight = [((s.queue fn n).pos, .launch l.lid)]
  let desc := addr (pkt bs 0x10 8)
  let snap := (snapBase, c.snap)
  (s.AtPacket fn n pa [snap] bs 1 none → pktOk bs (inField 0x10 8) = true → pkt bs 0x10 8 % 256 = 0 →
    s.check { fn := fn, desc := desc } = .ok c → c.d.traced = false →
    ∃ t l, exec (.launchPacket fn n) s = .next t ∧ s.MovedTo t fn n pa [snap] ((s.queue fn n).pos + 1) ∧ ok t l ∧
      l.clusters = List.range c.d.clusters ∧ l.trace = none) ∧
  (s.AtPacket fn n pa [snap] bs 2 none → pktOk bs (inField 0x10 16) = true → pkt bs 0x10 8 % 256 = 0 → pkt bs 0x18 8 % 4 = 0 →
    s.check { fn := fn, desc := desc, gridAt := some (addr (pkt bs 0x18 8)) } = .ok c → c.d.traced = false →
    ∃ t l, exec (.launchInd fn n) s = .next t ∧ s.MovedTo t fn n pa [snap] ((s.queue fn n).pos + 1) ∧ ok t l ∧
      l.clusters = List.range c.d.clusters ∧ l.trace = none) ∧
  (s.AtPacket fn n pa [] bs 1 none → pktOk bs (inField 0x10 8) = true → pkt bs 0x10 8 % 256 = 0 → pktSig bs = none →
    s.check { fn := fn, desc := desc } = .error .descriptor →
    ∃ t, exec (.launchPacket fn n) s = .next t ∧ s.QueueFailed t fn n pa 3 ∧ t.launches = []) ∧
  (∀ buf pb recs, buf = addr (pkt bs 0x18 8) → pktOk bs (inField 0x10 16) = true → pkt bs 0x10 8 % 256 = 0 →
    pkt bs 0x18 8 % 256 = 0 → s.check { fn := fn, desc := desc, traceAt := some buf } = .ok c →
    s.CpReaches fn buf 256 .read pb → s.CpReaches fn buf 256 .write pb → s.traceBusy fn buf = false →
    let full := s.fullRun fn c (s.readPA pb 256)
    let run : TraceRun := { buf := buf, winMask := 0, gens := s.gens, phash := c.phash }
    let head := (pb, headerBytes ((Desc.of c.snap).withGrid c.d.grid) (s.fn fn).lidNext run)
    (full = false → s.readRecords fn buf (c.d.gx * c.d.gy * c.d.gz) = .ok recs) →
    s.AtPacket fn n pa [head, snap] bs 3 none →
    ∃ t l, exec (.relaunchPacket fn n) s = .next t ∧ s.MovedTo t fn n pa [head, snap] ((s.queue fn n).pos + 1) ∧ ok t l ∧
      l.trace = some run ∧ l.clusters = (List.range c.d.clusters).filter fun i => full ||
        (List.range c.d.csize).any fun r => s.selects (recs.getD (i * c.d.csize + r) []))

/-- Carafe entries, tickets and the completion of a launch.

The head of a carafe starts its launch, or, refused, is answered with STATUS 3; either way it leaves the carafe (spec/16 R319;
spec/18 R357).

A share's ticket goes into slot FILL mod 255 of its die's board when that slot's launch-id word reads 0, and FILL advances; while it
does not, nothing is written (spec/16 R312, R313).

A launch whose blocks have ended completes: its record says whether it failed, with the failure, and the launch is gone (spec/16
R306, R308). -/
def Obligations.LaunchRules : Prop :=
  -- carafe entries
  (∀ (s : State) die e rest, s.hole = false → s.watches = [] → s.roasts = [] →
  (s.die die).carafe = e :: rest → e.fault = none → e.held = none → s.cpRuns die = true →
  (∀ c, s.check e.ask = .ok c → c.d.traced = false → e.kind = 0 → s.launches = [] → c.snap.length = 512 →
    ∃ t l, exec (.carafeEntry die) s = .next t ∧ (t.die die).carafe = rest ∧ s.Stored t snapBase c.snap ∧ t.launches = [l] ∧
      l.fn = e.fn ∧ l.lid = (s.fn e.fn).lidNext ∧ l.grid = c.d.grid ∧ l.clusters = List.range c.d.clusters ∧
      l.sigAddr = (if e.completion = 0 then none else some e.completion) ∧ t.blocks = s.blocks) ∧
  (∀ c pb recs, s.check e.ask = .ok c → e.kind = 1 → s.launches = [] → c.snap.length = 512 → s.traceBusy e.fn e.grid = false →
    s.CpReaches e.fn e.grid 256 .read pb → s.CpReaches e.fn e.grid 256 .write pb →
    let full := s.fullRun e.fn c (s.readPA pb 256)
    (full = false → s.readRecords e.fn e.grid (c.d.gx * c.d.gy * c.d.gz) = .ok recs) →
    ∃ t l, exec (.carafeEntry die) s = .next t ∧ (t.die die).carafe = rest ∧ t.launches = [l] ∧ l.fn = e.fn ∧
      l.lid = (s.fn e.fn).lidNext ∧ l.grid = c.d.grid ∧
      l.clusters = (List.range c.d.clusters).filter (fun i => full ||
        (List.range c.d.csize).any fun r => s.selects (recs.getD (i * c.d.csize + r) [])) ∧
      l.trace = some { buf := e.grid, winMask := 0, gens := s.gens, phash := c.phash } ∧ t.blocks = s.blocks) ∧
  (s.check e.ask = .error .descriptor →
    (e.completion = 0 → ∃ t, exec (.carafeEntry die) s = .next t ∧ (t.die die).carafe = rest ∧ t.mem = s.mem ∧
      t.launches = s.launches) ∧
    (∀ pa, e.completion ≠ 0 → s.CpReaches e.fn e.completion 64 .write pa → ∃ t, exec (.carafeEntry die) s = .next t ∧
      (t.die die).carafe = rest ∧ s.Stored t pa (recordBytes 3 0 none) ∧ t.launches = s.launches))) ∧
  -- ticket writes
  (∀ (s : State) l sh, s.hole = false → s.watches = [] → s.roasts = [] →
  s.launches = [l] → l.ending = .running → l.shares = [sh] → sh.slot = none → sh.die < 4 → s.cpStopped = false →
  (∀ u ∈ s.unitsOut, ¬ (u.1 = sh.die ∧ u.2.1 = 6)) →
  let board := boardAt sh.die
  let fill := s.num board 4
  let a := board + 64 + 64 * (fill % 255)
  (s.num (a + 8) 4 = 0 → ∃ t, exec (.ticketWrite sh.die) s = .next t ∧
    t.num a 4 = sh.first % 2 ^ 32 ∧ t.num (a + 4) 4 = sh.last % 2 ^ 32 ∧ t.num (a + 8) 8 = l.lid.toNat ∧
    t.num (a + 16) 8 = l.snap % 2 ^ 64 ∧ t.num board 4 = (fill + 1) % 2 ^ 32 ∧
    (∀ x, ¬ (a ≤ x ∧ x < a + 24) → ¬ (board ≤ x ∧ x < board + 4) → t.byte x = s.byte x) ∧
    t.launches = [{ l with shares := [{ sh with slot := some (fill % 255) }] }] ∧ t.blocks = s.blocks) ∧
  (s.num (a + 8) 4 ≠ 0 → exec (.ticketWrite sh.die) s = .next s)) ∧
  -- launch completion
  (∀ (s : State) l, s.hole = false → s.watches = [] → s.roasts = [] →
  s.launches = [l] → s.launchOver l = true → l.fault = none → l.trace = none → l.queue = none → s.cpStopped = false →
  (l.sigAddr = none → ∃ t, exec (.launchComplete l.fn l.lid.toNat) s = .next t ∧ t.launches = [] ∧ t.mem = s.mem) ∧
  (∀ a pa, l.sigAddr = some a → s.CpReaches l.fn a 64 .write pa →
    ∃ t, exec (.launchComplete l.fn l.lid.toNat) s = .next t ∧ t.launches = [] ∧
      s.Stored t pa (recordBytes (if l.failure.isSome then 2 else 1) l.tag l.failure)))

/-! ### Context switches, exceptions received, and recovery (spec/16 R320..R325; spec/23; spec/22 R397; spec/01 R17) -/

/-- A region changes hands, blocks are saved, and stand again where they stood.

A region that no context holds goes to one that has work for it, whose counters go on and whose comparators the cores load; one
that another context holds is to be pre-empted for it (spec/16 R320; spec/21 R369, R380; spec/22 R393).

A pre-emption stops issue in its region; while the cores have work in flight it waits; then a running block is saved, with its
threads where they stand, the cores of the region give up what they hold of memory and the words that they own, and the region is given
up (spec/16 R321, R322).

A saved block that fits a core of a region of its context stands there again, each thread where it stood; a block of its own runs,
one of a cluster waits for the others, held if it never ran (spec/16 R322, R323). -/
def Obligations.ContextSwitchRules : Prop :=
  -- quantum expiry
  (∀ (s : State) region fn, s.hole = false → region < 32 →
  (s.region region).preempt = false → s.hasWork region fn = true →
  ((s.region region).holder = none → ∃ t, exec (.quantumExpiry region fn) s = .next t ∧
    t.region region = { s.region region with holder := some fn, preempt := false, next := none } ∧
    (∀ j < 8, (t.core (8 * region + j)).bps = (List.range 8).map (fun i => (s.fn fn).bps.get {} i) ∧
      (t.core (8 * region + j)).offsets.get 0 fn =
        (s.core (8 * region + j)).offsets.get 0 fn - (s.core (8 * region + j)).cyc) ∧
    t.mem = s.mem ∧ t.blocks = s.blocks) ∧
  (∀ g, (s.region region).holder = some g → g ≠ fn → ∃ t, exec (.quantumExpiry region fn) s = .next t ∧
    t.region region = { s.region region with preempt := true, next := some fn } ∧ t.mem = s.mem ∧ t.blocks = s.blocks) ∧
  ((s.region region).holder = some fn → exec (.quantumExpiry region fn) s = .next s)) ∧
  -- preemption
  (∀ (s : State) region g, s.hole = false → (s.region region).holder = some g →
  ((s.region region).preempt = false → ∃ t, exec (.preemptRequest region) s = .next t ∧
    t.region region = { s.region region with preempt := true } ∧ t.mem = s.mem ∧ t.blocks = s.blocks) ∧
  ((s.region region).preempt = true → s.drained region = false → exec (.preemptRequest region) s = .next s) ∧
  (∀ b, (s.region region).preempt = true → s.drained region = true → (s.region region).next = none →
    s.residents region = [b] → (s.blk b).status = .running → (s.saveBlock b).hole = false →
    (∀ c l x, s.l1At c l = some x → l < 0x40000000) →
    ∃ t, exec (.preemptRequest region) s = .next t ∧ (t.region region).holder = none ∧ (t.region region).preempt = false ∧
      (t.blk b).status = .saved ∧ (t.blk b).saveAt.isSome ∧ (s.blk b).SameRegs (t.blk b) ∧
      (∀ x, (t.thr b x).pc = (s.thr b x).pc ∧ (t.thr b x).live = (s.thr b x).live) ∧
      (∀ c l, regionOf c = region → t.l1At c l = none) ∧ ∀ w c, (w, some c) ∈ t.owners → regionOf c ≠ region)) ∧
  -- block resumption
  (∀ (s : State) b core parts, s.hole = false → s.hasBlk b →
  let k := s.blk b
  k.status = .saved → k.agent = false → k.liveThreads ≠ [] → (s.region (regionOf core)).holder = some k.fn →
  (s.region (regionOf core)).preempt = false → core < 256 → parts ∈ s.waysBack b core → s.oneRegion b core = true →
  s.mayReturn b core = true →
  ∃ t, exec (.blockResume b core parts) s = .next t ∧ (t.blk b).core = core ∧ (t.blk b).parts = parts ∧ t.mem = s.mem ∧
    (∀ x, (t.thr b x).pc = (s.thr b x).pc ∧ (t.thr b x).live = (s.thr b x).live) ∧
    (t.blk b).status = if k.clusterSize = 1 then .running else if k.fresh then .held else .resuming)

/-- Nothing is in flight, and one block is placed: what the steering of its one thrower needs to be alone. -/
structure Sys2Proof.Claims.Lone (s : State) (b x : Nat) (e : Exc) : Prop where
  noHole : s.hole = false
  only : ∃ k, s.blocks = [(b, some k)]
  plain : (s.blk b).status = .running ∧ (s.blk b).pend = [] ∧ (s.blk b).landings = [] ∧ (s.blk b).kregs = [] ∧
    (s.blk b).saveAt = none ∧ (s.blk b).contained = false
  still : s.copies = [] ∧ s.exports = [] ∧ s.reds = [] ∧ s.pendReg = [] ∧ s.cctls = [] ∧ s.sflushes = [] ∧ s.drains = []
  noOcc : ∀ r, (s.region r).occ = 0
  raised : (s.thr b x).raised = some e ∧ e.carried = none ∧ (s.thr b x).wait = none
  others : ∀ y, y ≠ x → (s.thr b y).raised = none
  soft : e.code ≠ cHWUE ∧ e.code ≠ cSDC

/-- A level receives an exception: its members stop and go on at the catch; DEADLOCK.

A level that is to receive an exception stops its members until what they have in flight has ended. Then a thrower of a region
goes on at the region's catch point, out of the region, with its record; at launch level it goes on at the launch's catch point, or,
where there is none, its launch fails with the record and the thread ends (spec/23 R401..R406; spec/24 R420).

When every thread of a context waits and nothing can end a wait, each raises DEADLOCK, at launch level; else nothing happens
(spec/16 R324). -/
def Obligations.ReceivedExceptionRules : Prop :=
  -- stop and steer
  (∀ (s : State) fn lid,
  (∀ n level, s.hole = false → s.stops[n]? = some (fn, lid, level) → s.outerDue fn lid level (s.membersOf fn lid level) = false → s.oplog = [] →
    s.settled (s.membersOf fn lid level) = false → (fn, lid, level) ∉ s.stopping →
    exec (.tryStopSteer n) s = .next { s with stopping := s.stopping ++ [(fn, lid, level)] }) ∧
  (∀ b x e ent rest, Claims.Lone s b x e → s.stops = [(fn, lid, some ent.region)] → s.launches = [] →
    s.membersOf fn lid (some ent.region) = [(b, [x])] → (s.thr b x).tstack = ent :: rest →
    (∀ y ∈ rest, y.region ≠ ent.region) → ∃ t, exec (.tryStopSteer 0) s = .next t ∧ t.stops = [] ∧ t.mem = s.mem ∧
      let th := t.thr b x
      th.pc = ent.target ∧ th.tstack = rest ∧ th.raised = none ∧ th.held.code = e.code ∧ th.held.count = 1 ∧
        th.held.originPc = e.pc ∧ th.held.aux = e.aux ∧ th.held.level = BitVec.ofNat 2 ent.level ∧ th.ownCode = e.code ∧
        th.ownPc = (s.thr b x).pc ∧ th.live = (s.thr b x).live ∧ th.mode ≠ 1 ∧ (t.blk b).vregs = (s.blk b).vregs) ∧
  (∀ b x e l, Claims.Lone s b x e → s.stops = [(fn, lid, none)] → s.launches = [l] → l.fn = fn → l.lid = lid → l.injected = [] →
    l.shares = [] → s.membersOf fn lid none = [(b, [x])] →
    ((s.launchDesc l).hasCatch = true → ∃ t, exec (.tryStopSteer 0) s = .next t ∧ t.stops = [] ∧
      t.launches = [{ l with injected := [] }] ∧ t.mem = s.mem ∧
      let th := t.thr b x
      th.pc = (s.launchDesc l).catchPc ∧ th.tstack = [] ∧ th.raised = none ∧ th.held.code = e.code ∧ th.held.level = 2 ∧
        th.ownCode = e.code) ∧
    ((s.launchDesc l).hasCatch = false → ∃ t r, exec (.tryStopSteer 0) s = .next t ∧ t.stops = [] ∧
      t.launches = [{ l with ending := .failed r, injected := [] }] ∧ r.code = e.code ∧ r.count = 1 ∧ r.level = 2 ∧
      (t.thr b x).live = false ∧ t.mem = s.mem))) ∧
  -- deadlock rule
  (∀ (s : State) fn, s.hole = false →
  (s.deadlocked fn = true → ∃ t, exec (.deadlockWatchdog fn) s = .next t ∧ t.mem = s.mem ∧
    ∀ b w x, (b, w) ∈ s.fnWarps fn → x ∈ (s.blk b).liveOf w → (s.blk b).agent = false → (s.thr b x).live = true →
      (s.thr b x).raised = none → ∃ e, (t.thr b x).raised = some e ∧ e.code = cDEADLOCK ∧ e.level = none) ∧
  (s.deadlocked fn = false → exec (.deadlockWatchdog fn) s = .next s))

/-- Consumed errors, killed blocks, fatal errors, lost units and the release of a halt.

An error that a thread has consumed raises HWUE with the address at launch level, with a machine check; when its block's cluster is
still tentative and was not placed again twice, it is killed instead and is to be placed again. A mismatch of a replay is SDC, or, of
the copy, logged alone (spec/23 R413..R417).

A block that may be killed is saved in its initial state, to be placed again, not on the core that it leaves (spec/23 R413). It is not released until
it is placed anew.

A fatal error, and a fatal temperature, stop every command processor and write the dump: its magic number and version first, and its
sections after the directory (spec/23 R418; spec/27 R443).

A core, a partition or another unit out of service takes no new work; a running block on it dies, and its launch counts it (spec/01
R17; spec/23 R409).

The release of a warp that HALT stopped lets it go on, and does nothing to another (spec/22 R397). -/
def Obligations.ErrorRules : Prop :=
  -- errors consumed
  (∀ (s : State) b x pa, s.hole = false → s.hasBlk b → (s.blk b).status = .running →
  (s.blk b).agent = false → (s.thr b x).live = true →
  let die := dieOf (s.blk b).core
  ((b, x, pa) ∉ s.dueErrors → exec (.errorConsumption b x pa) s = .next s) ∧
  ((b, x, pa) ∈ s.dueErrors → s.mayKill b = false → ∃ t e c, exec (.errorConsumption b x pa) s = .next t ∧
    t.dueErrors = s.dueErrors.erase (b, x, pa) ∧ (t.thr b x).raised = some e ∧ e.code = cHWUE ∧ e.aux = addr pa ∧ e.level = none ∧
    (t.die die).machineChecks = (s.die die).machineChecks ++ [c] ∧ t.mem = s.mem) ∧
  (s.mayKill b = false → ∃ t e c, exec (.replayMismatch b x true) s = .next t ∧ (t.thr b x).raised = some e ∧ e.code = cSDC ∧
    e.level = none ∧ (t.die die).machineChecks = (s.die die).machineChecks ++ [c] ∧ t.mem = s.mem) ∧
  (∃ t c, exec (.replayMismatch b x false) s = .next t ∧ t.blocks = s.blocks ∧ t.mem = s.mem ∧
    (t.die die).machineChecks = (s.die die).machineChecks ++ [c])) ∧
  -- killed blocks
  (∀ (s : State) b x pa l, s.hole = false → s.hasBlk b → s.members b = [b] →
  s.mayKill b = true → (b, x, pa) ∈ s.dueErrors → s.launchOf (s.blk b).fn (s.blk b).lid = some l →
  (s.blk b).smaps = [] → (∀ r, (s.region r).occ = 0) →
  ∃ t, exec (.errorConsumption b x pa) s = .next t ∧ (t.blk b).status = .saved ∧ (t.blk b).fresh = true ∧
    (t.blk b).relaunches = (s.blk b).relaunches + 1 ∧ (t.blk b).avoid = some (s.blk b).core ∧ (t.blk b).buf = [] ∧
    (t.blk b).q = (s.blk b).ci * (s.launchDesc l).csize + (s.blk b).rank) ∧
  -- fatal errors
  (∀ (s : State) i (c : Check), s.hole = false → s.watches = [] → s.roasts = [] → c.die < 4 →
  (i = Instr.fatalDump c.die c.unit c.index c.kind ∧ c = { die := c.die, unit := c.unit, index := c.index, sev := 4, kind := c.kind }) ∨
    (i = Instr.thermalFatal c.die ∧ c = { die := c.die, unit := 7, index := 0, sev := 4, kind := 6 }) →
  let base := bits64 s.dumpBase 51 21 * 2 ^ 21
  let secs := (s.machineCheck c).dumpSecs
  base + 448 + (secs.flatMap (·.2)).length ≤ memEnd →
  ∃ t, exec i s = .next t ∧ t.cpStopped = true ∧
    (t.die c.die).machineChecks = (s.die c.die).machineChecks ++ [c.words] ∧ t.num base 4 = 0x564E4450 ∧ t.num (base + 4) 4 = 1 ∧
    (∀ j < (secs.flatMap (·.2)).length, t.byte (base + 448 + j) = (secs.flatMap (·.2)).getD j 0) ∧
    (∀ a, a < base → t.byte a = s.byte a) ∧ t.blocks = s.blocks) ∧
  -- units out of service
  (∀ (s : State), s.hole = false → s.stops = [] → (∀ r, (s.region r).occ = 0) →
  (∀ c l x, s.l1At c l = some x → l < 0x40000000) →
  (∀ c p, s.blocksAt c (some p) = [] → ∃ t, exec (.unitOutOfService (.partition c p)) s = .next t ∧ p ∈ (t.core c).partsOut ∧
    t.mem = s.mem ∧ t.blocks = s.blocks) ∧
  (∀ d u i, ∃ t, exec (.unitOutOfService (.other d u i)) s = .next t ∧ (d, u, i) ∈ t.unitsOut ∧ t.mem = s.mem ∧
    t.blocks = s.blocks) ∧
  (∀ c b l, s.blocksAt c none = [b] → (s.blk b).status = .running → (s.blk b).agent = false → (s.blk b).liveThreads ≠ [] →
    s.cluster b = [b] → s.launches = [l] → l.fn = (s.blk b).fn → l.lid = (s.blk b).lid →
    ∃ t, exec (.unitOutOfService (.core c)) s = .next t ∧ (t.core c).outOfService = true ∧ (t.blk b).status = .dead ∧
      (∀ x, (t.thr b x).live = false) ∧ t.launches = [{ l with ended := l.ended ++ [(s.blk b).q] }])) ∧
  -- halt release
  (∀ (s : State) b w, s.hole = false → ∃ t, exec (.haltRelease b w) s = .next t ∧
  t.warp b w = { s.warp b w with stopped := if (s.warp b w).stopped = some .halted then none else (s.warp b w).stopped } ∧
  (∀ c v, ¬ (c = b ∧ v = w) → t.warp c v = s.warp c v) ∧ (∀ c x, t.thr c x = s.thr c x) ∧ t.mem = s.mem)

/-! ### Faults and verdicts, shoot-downs, functions (spec/21) -/

/-- Fault records, verdicts, replays and bounced atomics.

A record is written at PROD of its queue when the queue has room, PROD advances, and the function's fault interrupt is sent; while
the queue is full it waits; where the queue is not valid the fault fails at once (spec/21 R377; spec/27 R431).

The verdict retry lets what waited go on: a fetch is made again, a copy goes on, the threads of a TRAP go on with true; fail raises
the fault's exception, stops a copy and reports it to its thread with the offset that faulted, and lets the threads of a TRAP go on with
false (spec/21 R377; spec/11 R220; spec/22 R392).

A load whose faults all have the verdict retry is made again with the operands it captured, and is pending with what it reads; a
thread whose record failed raises the exception and is pending no more (spec/21 R378, R444).

A bounced atomic makes its thread translate again when its page is in transit, and changes nothing else (spec/21 R379). -/
def Obligations.FaultRules : Prop :=
  -- fault records
  (∀ (s : State) i r, s.hole = false → s.watches = [] → s.roasts = [] →
  s.records[i]? = some r → r.index = none →
  let f := s.fn r.queue
  let n := bits64 f.fqBase 3 0
  (∀ pa x, s.fqValid r.queue = true → f.fqProd - f.fqCons ≠ BitVec.ofNat 32 (2 ^ n) →
    s.stage2 r.queue (bits64 f.fqBase 51 12 * 4096 + f.fqProd.toNat % 2 ^ n * 32) = .ok (pa, true, x) → pa + 32 ≤ memEnd →
    ∃ t, exec (.faultRecordWrite i) s = .next t ∧
      s.Stored t pa (leBytes 8 r.w0.toNat ++ leBytes 8 r.w1.toNat ++ leBytes 8 r.w2.toNat ++ leBytes 8 r.w3.toNat) ∧
      (t.fn r.queue).fqProd = f.fqProd + 1 ∧ t.records[i]? = some { r with index := some f.fqProd } ∧
      t.irqs = s.irqs ++ [(r.queue, 0)] ∧ t.blocks = s.blocks) ∧
  (s.fqValid r.queue = true → f.fqProd - f.fqCons = BitVec.ofNat 32 (2 ^ n) → exec (.faultRecordWrite i) s = .next s) ∧
  (∀ b x, n = 0 → s.records = [r] → r.waiter = .fetch b [x] → (s.blk b).agent = false → (s.thr b x).live = true →
    (s.thr b x).raised = none → r.queue = 0 → ∃ t e, exec (.faultRecordWrite i) s = .next t ∧ t.records = [] ∧
      (t.thr b x).raised = some e ∧ e.code = failCode r.cause ∧ t.mem = s.mem)) ∧
  -- verdict rules
  (∀ (s : State) fn ix r, s.hole = false → s.bootState = 2 → s.records = [r] →
  r.queue = fn → r.index = some ix →
  (∀ b x, r.waiter = .fetch b [x] → (s.blk b).agent = false → (s.thr b x).live = true → (s.thr b x).raised = none →
    (∃ t, exec (.verdictRetry fn ix) s = .next t ∧ t.records = [] ∧ t.blocks = s.blocks ∧ t.mem = s.mem) ∧
    (∃ t e, exec (.verdictFail fn ix) s = .next t ∧ t.records = [] ∧ (t.thr b x).raised = some e ∧
      e.code = failCode r.cause ∧ t.mem = s.mem)) ∧
  (∀ q, r.waiter = .copy q.id → s.copies = [q] → q.fault = some r.id →
    (∃ t, exec (.verdictRetry fn ix) s = .next t ∧ t.records = [] ∧ t.copies = [{ q with fault := none }] ∧ t.blocks = s.blocks ∧
      t.mem = s.mem) ∧
    (q.packet = none → (s.thr q.blk q.thr).live = true → s.hasBlk q.blk →
      ∃ t e, exec (.verdictFail fn ix) s = .next t ∧ t.records = [] ∧
        t.copies = [{ q with stopped := true, todo := [], fault := none }] ∧
        (t.thr q.blk q.thr).asyncs = (s.thr q.blk q.thr).asyncs ++ [e] ∧ e.code = failCode r.cause ∧ e.pc = q.pc ∧
        e.aux = BitVec.ofNat 64 (q.off % 2 ^ 28 * 2 ^ 32 + q.recAddr.toNat) ∧ t.mem = s.mem)) ∧
  (∀ b x pd next, r.waiter = .trap b [x] → s.hasBlk b → (s.thr b x).wait = some (.trap r.id pd next) →
    (s.thr b x).raised = none → ∀ retry : Bool, ∃ t,
      exec (if retry then .verdictRetry fn ix else .verdictFail fn ix) s = .next t ∧ t.records = [] ∧
      (t.thr b x).wait = none ∧ (t.thr b x).pc = next ∧ (pd < 7 → (t.thr b x).pred pd = retry) ∧
      (∀ q, q ≠ pd → (t.thr b x).pred q = (s.thr b x).pred q) ∧ t.mem = s.mem)) ∧
  -- fault replays
  (∀ (s : State) e p h ord ty d a off x pos o, s.oplog = [e] → e.blk = s.sel.blk →
  s.hasBlk e.blk → s.hole = false → s.bk.status = .running → s.bk.saveAt = none → e.waiting = [] → e.held = false →
  e.instr = .ld h ord ty d a off → h.u = false → e.ops = [o] → o.thr = x → s.bk.pend = [p] → p.log = some e.id →
  p.thrs = [(x, pos)] →
  (∀ pa, e.failed = [] → s.PlainFor s.sel.blk → s.bk.smaps = [] → s.reds = [] → s.l1Count s.bk.core + 128 < l1Cap →
    s.Reaches x o.ea ty.bytes ty.bytes .read pa →
    ∃ t q bs, exec (.faultReplay e.id) s = .next t ∧ t.oplog = [] ∧ t.bk.pend = [q] ∧ q.log = none ∧
      q.ready = true ∧ q.thrs = p.thrs ∧ s.bk.SameRegs t.bk ∧ s.SameView t s.sel.blk ∧
      (∃ tag, q.result = .regs p.dst p.w [(x, extend ty bs)] tag) ∧
      (ord = .plain → s.Reads s.sel.blk pa ty.bytes bs ∧ t.mem = s.mem) ∧
      (ord ≠ .plain → bs = s.view s.sel.blk pa ty.bytes)) ∧
  (∀ code, e.failed = [(x, code)] → s.bk.agent = false → (s.bk.thr x).live = true → (s.bk.thr x).raised = none →
    ∃ t r, exec (.faultReplay e.id) s = .next t ∧ t.oplog = [] ∧ t.bk.pend = [] ∧ (t.bk.thr x).raised = some r ∧ r.code = code ∧
      t.mem = s.mem ∧ s.bk.SameRegs t.bk)) ∧
  -- bounced atomics
  (∀ (s : State) b x pg, s.hole = false → (s.thr b x).lastPage = some pg →
  (s.walk pg.fn pg.va = .transit → ∃ t, exec (.movedBounce b x) s = .next t ∧
    t.thr b x = { s.thr b x with lastPage := none } ∧ (∀ y, y ≠ x → t.thr b y = s.thr b y) ∧ t.mem = s.mem) ∧
  (s.walk pg.fn pg.va ≠ .transit → exec (.movedBounce b x) s = .next s))

/-- Shoot-downs, resets and partitions of functions.

A shoot-down removes the translations of its page, or all of its function, from every cache and last-page register, and leaves the
others; GO stays set until accesses with captured translations have completed, and then SEQ advances. Only the physical function's
shoot-down of a frame does anything (spec/21 R374, R375).

A reset of a function passes its quiesce point, with its queues unbound; once nothing of it is left its translation registers are
zero, FLRDONE is set, no region is its own, and its interrupt is sent (spec/21 R381, R446).

A partition is enabled with its regions when no other enabled function has one of them, else CFGERR is set; a disabled one gives
its regions up once its launches have ended (spec/21 R368). -/
def Obligations.FunctionRules : Prop :=
  -- shoot downs
  (∀ (s : State) fn v, s.hole = false →
  (s.bootState = 2 → (s.fn fn).sdGo = false →
    (∃ t, exec (.shootdownPage fn v) s = .next t ∧ (t.fn fn).sdGo = true ∧ t.mem = s.mem ∧
      (∀ b x pg, (t.thr b x).lastPage = some pg → pg.holds fn (s.fn fn).sdAddr.toNat = false) ∧
      (∀ c, ∀ pg ∈ (t.core c).tlb, pg.holds fn (s.fn fn).sdAddr.toNat = false) ∧
      (∀ b x pg, (s.thr b x).lastPage = some pg → pg.fn ≠ fn → t.thr b x = s.thr b x)) ∧
    (∃ t, exec (.shootdownAll fn v) s = .next t ∧ (t.fn fn).sdGo = true ∧ t.mem = s.mem ∧
      (∀ b x pg, (t.thr b x).lastPage = some pg → pg.fn ≠ fn) ∧
      (∀ c, ∀ pg ∈ (t.core c).tlb, pg.fn ≠ fn) ∧ (∀ r, ∀ pg ∈ (t.region r).tlb, pg.fn ≠ fn) ∧
      (∀ d, ∀ pg ∈ (t.die d).tlb, pg.fn ≠ fn) ∧
      (∀ b x pg, (s.thr b x).lastPage = some pg → pg.fn ≠ fn → t.thr b x = s.thr b x)) ∧
    (fn = 0 → ∃ t, exec (.shootdownFrame fn v) s = .next t ∧ (t.fn 0).sdGo = true ∧ (t.fn 0).sdFn = bits64 v 15 8 ∧
      t.mem = s.mem ∧ ∀ b x pg, (t.thr b x).lastPage = some pg → pg.fn ≠ bits64 v 15 8)) ∧
  (fn ≠ 0 → exec (.shootdownFrame fn v) s = .next s) ∧
  ((s.fn fn).sdGo = true → s.hostQ = [] → s.reds = [] → s.drains = [] → s.pendReg = [] → (s.fn fn).sdKind ≠ 2 →
    ∃ t, exec (.shootdownComplete fn) s = .next t ∧ (t.fn fn).sdGo = false ∧ (t.fn fn).sdSeq = (s.fn fn).sdSeq + 1 ∧
      t.mem = s.mem ∧ t.blocks = s.blocks) ∧
  (∀ d, (s.fn fn).sdGo = true → d ∈ s.drains → (s.blk d.blk).fn = fn → (s.fn fn).sdKind ≠ 2 →
    exec (.shootdownComplete fn) s = .next s)) ∧
  -- function resets
  (∀ (s : State) fn, s.hole = false → fn ≤ 64 → (s.fn fn).queues = [] →
  ((s.fn fn).ending = 0 → ∃ t, exec (.flr fn) s = .next t ∧ (t.fn fn).busy = true ∧ (t.fn fn).quiesced = true ∧
    (t.fn fn).flrDone = false ∧ (t.fn fn).notify = [] ∧ t.mem = s.mem ∧ t.blocks = s.blocks) ∧
  ((s.fn fn).ending = 1 → s.fnSettled fn = true → s.launches = [] → s.copies = [] → s.posts = [] → ∃ t, exec (.flr fn) s = .next t ∧
    (t.fn fn).busy = false ∧ (t.fn fn).flrDone = true ∧ (t.fn fn).s1root = 0 ∧ (t.fn fn).fqBase = 0 ∧ (t.fn fn).fqProd = 0 ∧
    (t.fn fn).sdSeq = 0 ∧ t.irqs = s.irqs ++ [(fn, 2)] ∧ (∀ r, r < 32 → (t.region r).holder ≠ some fn) ∧ t.mem = s.mem)) ∧
  -- partitions
  (∀ (s : State) n (v : DWord), s.hole = false → s.bootState = 2 → n ≤ 64 →
  ((s.fn n).en = false → ∃ t, exec (.partEnable n v) s = .next t ∧ (t.fn n).regions = BitVec.ofNat 32 (bits64 v 63 32) ∧
    (t.fn n).en = !(s.regionTaken n (BitVec.ofNat 32 (bits64 v 63 32))) ∧
    (s.regionTaken n (BitVec.ofNat 32 (bits64 v 63 32)) = true → (t.fn n).cfgErr = true) ∧ t.mem = s.mem ∧
    (∀ m, m ≠ n → t.fn m = s.fn m)) ∧
  ((s.fn n).en = true → ∃ t, exec (.partEnable n v) s = .next t ∧ (t.fn n).en = true ∧ (t.fn n).regions = (s.fn n).regions ∧
    t.mem = s.mem) ∧
  ((s.fn n).en = false → ∃ t, exec (.partDisable n v) s = .next t ∧ (t.fn n).en = false ∧
    (t.fn n).regions = BitVec.ofNat 32 (bits64 v 63 32) ∧ t.mem = s.mem) ∧
  ((s.fn n).en = true → (s.fn n).ending = 0 → s.fnSettled n = true → s.launches = [] → s.copies = [] → s.posts = [] →
    ∃ t, exec (.partDisable n v) s = .next t ∧ (t.fn n).en = false ∧ (t.fn n).busy = false ∧
      (∀ r, r < 32 → (t.region r).holder ≠ some n) ∧ t.mem = s.mem))

/-! ### Windows, vaults, debug, power, boot and the security core (spec/06, spec/12, spec/17, spec/22, spec/27) -/

/-- A roast window is enabled when it is valid, else CFGERR is set; EN and BUSY clear together once a disable is done (spec/06 R123,
R124). A watch window is enabled with both maps zero; each enable and every write of EN = 0 advances GEN (spec/17 R327, R328). While a
window is enabled, a write of EN = 1 changes no field but CFGERR. That an accepted enable clears CFGERR is log 49's reading. -/
def Obligations.WindowRegisters : Prop := ∀ (s : State) n (v : DWord), s.hole = false → s.bootState = 2 → n < 32 →
  ((s.roast n).en = false → ∃ t, exec (.roastEnable n v) s = .next t ∧ bits64 (t.roast n).ctl 51 16 = bits64 v 51 16 ∧
    (t.roast n).en = s.roastOk n (t.roast n) ∧ bitAt (t.roast n).ctl 1 = !(t.roast n).en ∧
    (∀ m, m ≠ n → t.roast m = s.roast m) ∧ t.mem = s.mem) ∧
  ((s.roast n).en = true → ∃ t, exec (.roastEnable n v) s = .next t ∧
    t.roast n = { s.roast n with ctl := clearOnes (s.roast n).ctl v } ∧ (∀ m, m ≠ n → t.roast m = s.roast m) ∧ t.mem = s.mem) ∧
  ((s.roast n).en = true → ∃ t, exec (.roastDisable n v) s = .next t ∧ (t.roast n).en = true ∧
    bitAt (t.roast n).ctl 2 = true ∧ t.mem = s.mem) ∧
  (bitAt (s.roast n).ctl 2 = true → s.pendReg = [] → s.owners = [] → s.l2 = [] → s.decafs = [] → s.sideTags = [] →
    s.txns = [] → (∀ c, (s.core c).l1 = []) →
    ∃ t, exec (.roastDisableDone n) s = .next t ∧ (t.roast n).en = false ∧ bitAt (t.roast n).ctl 2 = false ∧ t.mem = s.mem ∧
      (∀ l, (s.roast n).first ≤ l * 128 → l * 128 ≤ (s.roast n).last → t.llc.get 0 l = 0) ∧
      ∀ m, m ≠ n → t.roast m = s.roast m) ∧
  ((s.watch n).en = false →
    (∀ w, w = { s.watch n with ctl := mergeBits (clearOnes (s.watch n).ctl v) v (bitsMask 51 16) } →
      (s.watchOk n w = true → w.mapAt 0 + w.mapAll ≤ memEnd → ∃ t, exec (.watchEnable n v) s = .next t ∧
        (t.watch n).en = true ∧ (t.watch n).gen = (s.watch n).gen + 1 ∧
        (∀ a, t.byte a = if w.mapAt 0 ≤ a ∧ a < w.mapAt 0 + w.mapAll then memDefault else s.byte a) ∧
        ∀ m, m ≠ n → t.watch m = s.watch m) ∧
      (s.watchOk n w = false → ∃ t, exec (.watchEnable n v) s = .next t ∧ (t.watch n).en = false ∧
        bitAt (t.watch n).ctl 1 = true ∧ (t.watch n).gen = (s.watch n).gen ∧ t.mem = s.mem))) ∧
  ((s.watch n).en = true → ∃ t, exec (.watchEnable n v) s = .next t ∧
    t.watch n = { s.watch n with ctl := clearOnes (s.watch n).ctl v } ∧ (∀ m, m ≠ n → t.watch m = s.watch m) ∧ t.mem = s.mem) ∧
  (∃ t, exec (.watchDisable n v) s = .next t ∧ (t.watch n).en = false ∧
    (t.watch n).gen = (s.watch n).gen + 1 ∧ t.mem = s.mem ∧ ∀ m, m ≠ n → t.watch m = s.watch m)

/-- Vault registers, and what a write of a register does.

An accepted enable of a vault sets BUSY and empties its index; when it is done the vault is enabled with a key. A disable sets BUSY;
once every content operation that was accepted has completed, EN and BUSY clear and every name of the vault is unknown (spec/12 R233,
R234).

A write of a register takes effect as the register's rule says; until the module is ready, at an offset that is no multiple of 8, and
at one that no block covers, it is ignored (spec/27 R432, R440). Reserved bits of S1ROOT read 0, and the fields of a window that is enabled
keep their values. -/
def Obligations.RegisterRules : Prop :=
  -- vault registers
  (∀ (s : State) n (v : DWord), s.hole = false → s.bootState = 2 → 0 < n → n < 256 →
  (∀ x, x = { s.vault n with ctl := vaultCtl (s.vault n).ctl v false } → bitAt (s.vault n).ctl 0 = false →
    bitAt (s.vault n).ctl 2 = false →
    (s.vaultOk n x = true → x.first + x.bytes ≤ memEnd → ∃ t, exec (.vaultEnable n v) s = .next t ∧
      bitAt (t.vault n).ctl 2 = true ∧ bitAt (t.vault n).ctl 0 = false ∧ (∀ e ∈ t.content, nameVid e.name ≠ n) ∧
      t.blocks = s.blocks) ∧
    (s.vaultOk n x = false → ∃ t, exec (.vaultEnable n v) s = .next t ∧ bitAt (t.vault n).ctl 1 = true ∧
      bitAt (t.vault n).ctl 0 = false ∧ t.content = s.content ∧ t.mem = s.mem)) ∧
  (bitAt (s.vault n).ctl 2 = true → bitAt (s.vault n).ctl 0 = false → ∃ t, exec (.vaultEnableDone n) s = .next t ∧
    bitAt (t.vault n).ctl 0 = true ∧ bitAt (t.vault n).ctl 2 = false ∧ 0 < (t.vault n).keys ∧ t.mem = s.mem ∧
    ∀ m, m ≠ n → t.vault m = s.vault m) ∧
  (bitAt (s.vault n).ctl 0 = true →
    (bitAt (s.vault n).ctl 2 = false → ∃ t, exec (.vaultDisable n v) s = .next t ∧ bitAt (t.vault n).ctl 2 = true ∧
      bitAt (t.vault n).ctl 0 = true ∧ t.content = s.content ∧ t.mem = s.mem) ∧
    (bitAt (s.vault n).ctl 2 = true → s.vaultBusy n = true → ∃ t, exec (.vaultDisable n v) s = .next t ∧
      bitAt (t.vault n).ctl 2 = true ∧ bitAt (t.vault n).ctl 0 = true ∧ t.content = s.content ∧ t.mem = s.mem) ∧
    (bitAt (s.vault n).ctl 2 = true → s.vaultBusy n = false → ∃ t, exec (.vaultDisable n v) s = .next t ∧
      bitAt (t.vault n).ctl 2 = false ∧ bitAt (t.vault n).ctl 0 = false ∧
      (∀ e, e ∈ t.content ↔ e ∈ s.content ∧ nameVid e.name ≠ n) ∧ t.mem = s.mem))) ∧
  -- register writes
  (∀ (s : State) fn off (v : DWord), s.hole = false →
  (s.bootState ≠ 2 ∨ off % 8 ≠ 0 ∨ 64 < fn ∨ 0x8000 ≤ off → exec (.registerWrite fn off v) s = .next s) ∧
  (s.bootState = 2 → fn ≤ 64 →
    (∀ n < 32, exec (.registerWrite 0 (0x4000 + 32 * n) v) s =
      exec (if bitAt v 0 then .roastEnable n v else .roastDisable n v) s) ∧
    (∀ n < 32, exec (.registerWrite 0 (0x5000 + 32 * n) v) s =
      exec (if bitAt v 0 then .watchEnable n v else .watchDisable n v) s) ∧
    (∀ n, 0 < n → n < 256 → exec (.registerWrite 0 (0x6000 + 32 * n) v) s =
      exec (if bitAt v 0 then .vaultEnable n v else .vaultDisable n v) s) ∧
    (∀ n ≤ 64, exec (.registerWrite 0 (0x2000 + 0x40 * n) v) s =
      exec (if bitAt v 0 then .partEnable n v else .partDisable n v) s) ∧
    (∀ n < 256, exec (.registerWrite fn (16 * n) v) s = exec (.notifyWrite fn n (v.setWidth 32)) s) ∧
    (∀ n < 256, exec (.registerWrite fn (16 * n + 8) v) s =
      exec (if bitAt v 0 then .notifyBind fn n v else .notifyUnbind fn n v) s) ∧
    ((s.fn fn).sdGo = false → (s.fn fn).s1root = (s.fn fn).s1root &&& (bitsMask 51 12 ||| 1) →
      ∃ t, exec (.registerWrite fn 0x1000 v) s = .next t ∧ t.readRegister fn 0x1000 = v &&& (bitsMask 51 12 ||| 1) ∧
        t.mem = s.mem ∧ t.blocks = s.blocks) ∧
    (∃ t, exec (.registerWrite 0 0x3118 v) s = .next t ∧ t.mem = s.mem ∧
      t.powerCap = if 1000 ≤ bits64 v 11 0 ∧ bits64 v 11 0 ≤ 2800 then bits64 v 11 0 else s.powerCap) ∧
    (∀ n < 32, (s.roast n).en = true → exec (.registerWrite 0 (0x4008 + 32 * n) v) s = .next s)))

/-- PMCFG, PMRD and DBGMARK complete; comparators and samples.

PMCFG sets a counter of the block's function: its event, its enable, and 0 where bit 17 is set; PMRD reads the status, or the
count of a counter that is not counting; DBGMARK goes on, and leaves a profile record when the ring has room (spec/22 R395,
R396).

A core takes the comparators of the context that its region serves; a sample that is due is written to the context's profile ring,
and none is where samples are off (spec/22 R393, R395). -/
def Obligations.ProfilingRules : Prop :=
  -- profiling results
  (∀ s : State,
  (∀ h n b f, s.Passes (.pmcfg h n b) f → ∃ t, exec (.pmcfg h n b) s = .next t ∧
    (let w := s.bk.word (s.sel.thrs.headD 0) b
     let p := (s.fn s.bk.fn).pmcs.get {} n
     let q := (t.fn s.bk.fn).pmcs.get {} n
     q.event = w.setWidth 16 ∧ q.en = w.getLsbD 16 ∧ q.count = (if w.getLsbD 17 then 0 else p.count) ∧
       q.unavail = decide ((w.setWidth 16 : BitVec 16).toNat ∉ [0x1, 0x2, 0x3, 0x10, 0x11, 0x20, 0x21, 0x30, 0x31, 0x40])) ∧
    (∀ m, m ≠ n → (t.fn s.bk.fn).pmcs.get {} m = (s.fn s.bk.fn).pmcs.get {} m) ∧ t.mem = s.mem ∧ s.Passed t) ∧
  (∀ h n d f, s.Passes (.pmrd h true n d) f → ∃ t, exec (.pmrd h true n d) s = .next t ∧
    s.Wrote t h 1 d fun _ =>
      let p := (s.fn s.bk.fn).pmcs.get {} n
      ((if p.en then 1 else 0) + (if p.unavail then 2 else 0) + p.event.toNat * 2 ^ 16, 0)) ∧
  (∀ h n d f, s.Passes (.pmrd h false n d) f → ((s.fn s.bk.fn).pmcs.get {} n).en = false →
    ∃ t, exec (.pmrd h false n d) s = .next t ∧
      s.Wrote t h 2 d fun _ => (((s.fn s.bk.fn).pmcs.get {} n).count.toNat, 0)) ∧
  (∀ h n f, s.Passes (.dbgmark h n) f → bits64 (s.fn s.bk.fn).profBase 3 0 = 0 →
    ∃ t, exec (.dbgmark h n) s = .next t ∧ s.Moved t h fun _ => s.sel.next) ∧
  (∀ h n f pa x, s.Passes (.dbgmark h n) f → s.poisoned = [] → s.watches = [] → s.roasts = [] →
    let k := bits64 (s.fn s.bk.fn).profBase 3 0
    let p := (s.fn s.bk.fn).profProd
    k ≠ 0 → p - (s.fn s.bk.fn).profCons ≠ BitVec.ofNat 32 (2 ^ k) →
    s.stage2 s.bk.fn (bits64 (s.fn s.bk.fn).profBase 51 12 * 4096 + p.toNat % 2 ^ k * 32) = .ok (pa, true, x) →
    pa + 32 ≤ memEnd →
    ∃ t, exec (.dbgmark h n) s = .next t ∧ (t.fn s.bk.fn).profProd = p + 1 ∧
      s.Stored t pa (leBytes 8 (s.bk.lid.toNat * 2 ^ 32 + s.bk.q) ++
        leBytes 8 ((s.executing h).headD 0 * 2 ^ 32 + 2) ++ leBytes 8 s.sel.pc.toNat ++ leBytes 8 n.toNat) ∧
      s.Passed t)) ∧
  -- comparators and samples
  (∀ (s : State) core fn, s.hole = false → core < 256 →
  (s.region (regionOf core)).holder = some fn →
  (∃ t, exec (.comparatorLoad core) s = .next t ∧
    (t.core core).bps = (List.range 8).map (fun j => (s.fn fn).bps.get {} j) ∧ (∀ c, c ≠ core → t.core c = s.core c) ∧
    t.mem = s.mem ∧ t.blocks = s.blocks) ∧
  (bitAt (s.fn fn).dbgCtl 1 = false ∨ bits64 (s.fn fn).dbgCtl 47 32 = 0 → exec (.sampleTimer core) s = .next s) ∧
  (∀ b w x pa p, bitAt (s.fn fn).dbgCtl 1 = true → bits64 (s.fn fn).dbgCtl 47 32 ≠ 0 → s.coreWarps core = [(b, w)] →
    s.stalled b w = some x → s.watches = [] → s.roasts = [] →
    let f := s.fn fn
    let n := bits64 f.profBase 3 0
    n ≠ 0 → f.profProd - f.profCons ≠ BitVec.ofNat 32 (2 ^ n) → pa + 32 ≤ memEnd →
    s.stage2 fn (bits64 f.profBase 51 12 * 4096 + f.profProd.toNat % 2 ^ n * 32) = .ok (pa, true, p) →
    ∃ t, exec (.sampleTimer core) s = .next t ∧ (t.fn fn).profProd = f.profProd + 1 ∧ t.blocks = s.blocks ∧
      s.Stored t pa (leBytes 8 ((s.blk b).lid.toNat * 2 ^ 32 + (s.blk b).q) ++
        leBytes 8 (x * 2 ^ 32 + (s.sampleOf b x).1 * 256 + 1) ++ leBytes 8 ((s.blk b).thr x).pc.toNat ++
        leBytes 8 (s.sampleOf b x).2.toNat)))

/-- Row activations, power, reset and boot, and the security core.

A row's count never reaches the threshold: there its neighbours are refreshed and it clears; a refresh window clears the counts of
its controller alone (spec/21 R384). By how much a count grows is left open (log 21).

A power window sets a clock of 700 to 1800 MHz in steps of 50, and gates the command processors of idle dies alone; throttling
takes a step off the clock, down to 700 (spec/27 R442, R443; spec/21 R382). Which idle die is gated is left open (log 21).

A reset ends everything: no block, launch or function register is left; the module is ready when boot has no failing step, and
BOOTSTAT names the step else. That memory then reads as after reset is the model's choice (log 3; spec/27 R439, R440).

The security core answers each SPDM request with one object, in order, from the step of boot on at which it has measured the image;
the measurement log goes with the log's own answer. What an answer holds is left open (log 20; spec/27 R435). -/
def Obligations.PlatformRules : Prop :=
  -- row activations
  (∀ (s : State) mc, s.hole = false →
  (∀ bank row, ∃ t, exec (.rowMitigation mc bank row) s = .next t ∧ t.mem = s.mem ∧ t.blocks = s.blocks ∧
    let key := rowKey mc bank row
    (t.rows.get 0 key = 0 ∨ (s.rows.get 0 key < t.rows.get 0 key ∧ t.rows.get 0 key < 1024)) ∧
    ∀ j, j ≠ key → t.rows.get 0 j = s.rows.get 0 j) ∧
  (∃ t, exec (.refreshWindow mc) s = .next t ∧ t.mem = s.mem ∧ t.blocks = s.blocks ∧
    ∀ m bank row, t.rows.get 0 (rowKey m bank row) = if m = mc then 0 else s.rows.get 0 (rowKey m bank row))) ∧
  -- power and heat
  (∀ (s : State), s.hole = false →
  (∀ mhz, ∃ t, exec (.powerWindow mhz) s = .next t ∧ t.mem = s.mem ∧ t.blocks = s.blocks ∧
    t.clockMHz = (if 700 ≤ mhz ∧ mhz ≤ 1800 ∧ mhz % 50 = 0 then mhz else s.clockMHz) ∧
    ∀ d, (t.die d).gated = true → (s.die d).gated = true ∨ s.idleDie d = true) ∧
  (∀ d, d < 4 → ∃ t, exec (.thermalThrottle d) s = .next t ∧ t.mem = s.mem ∧ t.blocks = s.blocks ∧
    t.dies = s.dies ∧ t.clockMHz = max 700 (s.clockMHz - 50))) ∧
  -- module reset
  (∀ (s : State) fail, ∃ t, exec (.reset fail) s = .next t ∧
  t.blocks = [] ∧ t.launches = [] ∧ t.fns = [] ∧ t.roasts = [] ∧ t.watches = [] ∧ t.vaults = [] ∧ t.content = [] ∧
  t.copies = [] ∧ t.records = [] ∧ t.cpStopped = false ∧ t.powerCap = 2800 ∧ t.mem = [] ∧ t.bootFail = fail % 7 ∧
  t.bootState = (if fail % 7 = 0 then 2 else 1) ∧ (t.attestation ≠ [] ↔ fail % 7 = 0 ∨ fail % 7 = 6)) ∧
  -- security core
  (∀ (s : State) req, s.hole = false →
  (s.attestation ≠ [] → ∀ i code, (i, code) ∈ [(Instr.getVersion req, 0), (.getCapabilities req, 1), (.negotiateAlgorithms req, 2),
      (.getDigests req, 3), (.getCertificate req, 4), (.challenge req, 5), (.getMeasurements req, 6), (.keyExchange req, 7)] →
    exec i s = .next { s with doe := s.doe ++ [Config.spdmAnswer code req s.tick], tick := s.tick + 1 }) ∧
  (s.attestation ≠ [] → ∃ t x, exec (.vendorMeasurementLog req) s = .next t ∧ t.doe = s.doe ++ [s.attestation.flatten ++ x] ∧
    t.mem = s.mem ∧ t.blocks = s.blocks) ∧
  (s.attestation = [] → ∀ i, i ∈ [Instr.getVersion req, .challenge req, .getMeasurements req, .vendorMeasurementLog req] →
    exec i s = .next s))

/-! ### Decoding, issue, and the machine as a whole (spec/03; spec/15 R278, R292; spec/27 R440) -/

/-- Words written out from the encodings of spec/03 and spec/04 decode to the instructions that they stand for. -/
def Obligations.DecodedWords : Prop :=
  let h : Hdr := { g := 7, neg := false, u := false, la := 0 }
  decode 256 [0b00010010000000010101110010110000] = .ok (.popcN32Base { g := 7, u := false, d := 10, a := 0, b := .v 9 }) ∧
  decode 256 [0b00000010110000101001110010000010, 0b00000000001000000000110100001100, 0b00000000000000100000000010100000] =
    .ok (.ffma h .f32 .rz (.v 10) (.v 11) (.v 12) (.v 13)) ∧
  decode 256 [0b00000000100000100101110100001010, 0b00000000000100001111111100000000, 0] = .ok (.ballot h (.v 9) 2 .zero) ∧
  decode 256 [0b00000000000000000001110101000010, 0, 0b11111111111111111111111111101000] = .ok (.bra h 0xFFFFFFE8) ∧
  -- LD.acq.n32 v5, [v2:v3 + 16], LA = 3: group 0x30, selector 00, ORD 01, TY 0x7
  decode 256 [0b00000000100000010101110110000010, 0b00000001011100110000000000000000, 16] =
    .ok (.ld { h with la := 3 } .acq .n32 (.v 5) (.v 2) 16)

/-- Unassigned opcodes, a reserved bit of W1, the guard value that names no instruction, and a lookahead count on an instruction that is
not long-latency are no instruction (R42, R46, R56, R58, R63); whatever does decode is well formed. -/
def Obligations.ReservedEncodings : Prop := ∀ allot w0 w1 w2 : Nat, ∀ rest : List Nat,
  (w0 % 4 = 0 → 0x40 ≤ w0 / 8 % 128 → decode allot (w0 :: w1 :: w2 :: rest) = .error 1) ∧
  (w0 % 4 = 2 → w0 / 8 % 128 ∉ [0x00, 0x01, 0x02, 0x03, 0x04, 0x05, 0x06, 0x10, 0x11, 0x12, 0x13, 0x14, 0x20, 0x21, 0x28, 0x30,
      0x31, 0x32, 0x33, 0x34, 0x35, 0x40, 0x41, 0x48, 0x50, 0x51, 0x58, 0x59, 0x60, 0x68, 0x69] →
    decode allot (w0 :: w1 :: w2 :: rest) = .error 1) ∧
  (w0 % 4 = 2 → w0 / 8 % 128 = 0 → w1 / 2 ^ 20 % 256 = 0 → w1 / 2 ^ 31 % 2 = 1 → decode allot (w0 :: w1 :: w2 :: rest) = .error 3) ∧
  (w0 % 4 = 2 → w0 / 8 % 128 = 0 → w1 / 2 ^ 20 % 256 ∉ List.range 7 → decode allot (w0 :: w1 :: w2 :: rest) = .error 2) ∧
  (w0 % 4 = 2 → w0 / 1024 % 16 = 15 → ∃ e, decode allot (w0 :: w1 :: w2 :: rest) = .error e) ∧
  (w0 % 4 = 2 → w0 / 8 % 128 = 0x10 → w1 / 2 ^ 16 % 16 ≠ 0 → ∃ e, decode allot (w0 :: w1 :: w2 :: rest) = .error e) ∧
  (∀ i, w0 < 2 ^ 32 → w1 < 2 ^ 32 → w2 < 2 ^ 32 → (∀ w ∈ rest, w < 2 ^ 32) →
    decode allot (w0 :: w1 :: w2 :: rest) = .ok i → wellFormed i = true)

/-- Every well-formed instruction, with every operand at every value that its encoding admits, is what its own words decode to, for a
warp that has every vector register. -/
def Obligations.EncodeDecode : Prop := ∀ i rest, wellFormed i = true → encode i ≠ [] → decode 256 (encode i ++ rest) = .ok i

/-- A step of issue runs the instruction that the bytes at the pc decode to.

A turn of issue, when no error is to be consumed first, fetches the words at the thread's pc, and runs the instruction that they decode to on the bundle of the threads that
may issue there; what does not decode raises ILL in each of them, with its first word and reason (spec/03 R41, R63..R65). What the end
of a step decides follows in either case.

A fetch through the thread's own page reads as many words as the first one's length field says; each is one that the device offers
there, and where no fetch of the launch has met another value and the page is not decaf, what memory holds. It changes no memory and
no thread (spec/03 R39, R41). -/
def Obligations.IssueSteps : Prop :=
  -- step runs decoded
  (∀ (s : State) b x ws s1 rest, s.dueErrors = [] → s.agenda = .issue b x :: rest →
  ((s.blk b).warp (warpOf x)).stopped = none →
  ({ s with agenda := rest } : State).fetch b x = (.words ws, s1) →
  (∀ i, s1.decodeAt b x ws = .ok i → s1.issuers b x (some i) ≠ [] →
    s1.bpHit b (s1.issuers b x (some i)) (s.thr b x).pc (ws.headD 0) = none →
    step s = withNotice (exec i (s1.select b (s1.issuers b x (some i)) (s.thr b x).pc ws))) ∧
  (∀ e y, s1.decodeAt b x ws = .error e → s1.hole = false → y ∈ s1.issuers b x none →
    (s1.blk b).agent = false → (s1.thr b y).live = true → (s1.thr b y).raised = none → (s1.thr b y).mode ≠ 1 →
    s1.bpHit b (s1.issuers b x none) (s.thr b x).pc (ws.headD 0) = none →
    ∃ t r, step s = withNotice (.next t) ∧ (t.thr b y).raised = some r ∧ r.code = cILL ∧ r.pc = (s.thr b x).pc ∧
      r.aux = BitVec.ofNat 64 (ws.headD 0 + e * 2 ^ 32) ∧ t.mem = s1.mem)) ∧
  -- fetch reads memory
  (∀ (s : State) b x pg, s.hole = false →
  let pc := (s.thr b x).pc
  let pa := fun j => pg.addr pc.toNat + 4 * j
  (s.thr b x).lastPage = some pg → pg.holds (s.blk b).fn pc.toNat = true → pg.permits .fetch = true → canonical pc = true →
  inFabric pc = false → inAperture pc = false → 16 ≤ pg.bits → pc.toNat % 2 ^ pg.bits + 20 ≤ 2 ^ pg.bits →
  pg.addr pc.toNat + 20 ≤ memEnd → canonical (pc + 16) = true → inFabric (pc + 16) = false → inAperture (pc + 16) = false →
  pc.toNat + 20 ≤ 2 ^ 64 → ((s.blk b).warp (warpOf x)).buffered pc.toNat = none →
  ∃ ws t, s.fetch b x = (.words ws, t) ∧ ws.length = lengthOf (ws.headD 0) ∧
    (∀ j < ws.length, ∃ v ∈ s.codeWords (s.blk b) pg.decaf (pa j), ws.getD j 0 = v.toNat ∧
      (pg.decaf = false → (∀ l ∈ s.launches, (s.blk b).ofLaunch l = true → l.code = []) → ws.getD j 0 = s.num (pa j) 4)) ∧
    t.mem = s.mem ∧ t.hole = false ∧ (∀ c y, t.thr c y = s.thr c y) ∧ ∀ c, (t.blk c).vregs = (s.blk c).vregs)

/-- The rules of issue for an instruction that has one header: with every guard false it only sends its threads on; a thread that
touches what is pending for it raises LAHEAD; one marked uniform whose operands differ sets UMIS, and raises UNIFORM in the whole
bundle where UCHK is set (spec/03 R56, R60; spec/15 R292). -/
def Obligations.IssueRules : Prop := ∀ (s : State) i f h ty d a b off ord, s.hole = false → s.hasBlk s.sel.blk →
  s.sel.thrs.Nodup → (∀ x ∈ s.sel.thrs, warpOf x = s.wp) → uses i = some f → f.h = h →
  (i = .iadd h ty d a b ∨ i = .imul h ty d a b ∨ i = .fadd h ty .rne d a b ∨ i = .ld h ord ty d a off ∨ i = .st h ord ty a b off ∨
    i = .lds h ord ty d a off ∨ i = .sts h ord ty a b off) →
  let bad := fun x => s.bk.hazardous x s.wp (touches i f ++ s.bk.tcNames s.wp i)
  (s.executing h = [] → ∃ t, exec i s = .next t ∧ s.Passed t ∧ t.mem = s.mem) ∧
  (h.u = false → (∀ x ∈ s.executing h, bad x = true) → ∃ t, exec i s = .next t ∧ t.mem = s.mem ∧ s.bk.SameRegs t.bk ∧
    ∀ x ∈ s.executing h, s.CanRaise x → s.Raised t x cLAHEAD) ∧
  (h.u = true → s.executing h ≠ [] → (∀ x ∈ s.executing h, bad x = false) → s.bk.uniform f s.wp s.sel.thrs = false →
    (s.bk.warp s.wp).uchk = true → ∃ t, exec i s = .next t ∧ (t.bk.warp s.wp).umis = true ∧ t.mem = s.mem ∧
      s.bk.SameRegs t.bk ∧ ∀ x ∈ s.sel.thrs, s.CanRaise x → s.Raised t x cUNIFORM)

/-- A step keeps the canonical form of memory: addresses rise, and no cell holds what an unlisted address reads as. -/
def Obligations.StepKeepsMemory : Prop := ∀ s t : State, Map.wf memDefault s.mem = true → step s = .next t →
  Map.wf memDefault t.mem = true

/-- After reset memory is in its form, no block, launch, queue or fault is there, and every register that the host can read reads 0:
BOOTSTAT says that the module boots (spec/27 R440). That memory lists nothing is log 3's choice. -/
def Obligations.ResetState : Prop :=
  Map.wf memDefault State.reset.mem = true ∧ State.reset.mem = [] ∧ State.reset.blocks = [] ∧ State.reset.launches = [] ∧
  State.reset.records = [] ∧ State.reset.copies = [] ∧ State.reset.hole = false ∧ State.reset.bootState = 0 ∧
  ∀ fn off, State.reset.readRegister fn off = 0
end

