-- ==== Sys2Proof/Laws/Map.lean ====
section
/-! SUPPORT. Laws of sparse tables: a read after a write, and that every operation keeps the canonical form. -/
namespace Sys2Proof.Machine

variable {β : Type}

@[simp] theorem Map.get_nil (d : β) (k : Nat) : Map.get d ([] : Map β) k = d := rfl

theorem Map.get_cons (d : β) (j : Nat) (x : β) (m : Map β) (k : Nat) :
    Map.get d ((j, x) :: m) k = if j = k then x else Map.get d m k := rfl

theorem Map.get_erase_self (d : β) (m : Map β) (k : Nat) : (m.erase k).get d k = d := by
  induction m with
  | nil => rfl
  | cons e m ih =>
    obtain ⟨j, x⟩ := e
    by_cases h : j = k
    · simpa [Map.erase, h] using ih
    · simpa [Map.erase, h, Map.get_cons] using ih

theorem Map.get_erase_ne (d : β) (m : Map β) {k j : Nat} (h : j ≠ k) : (m.erase k).get d j = m.get d j := by
  induction m with
  | nil => rfl
  | cons e m ih =>
    obtain ⟨i, x⟩ := e
    by_cases hi : i = k
    · subst hi
      simpa [Map.erase, Map.get_cons, Ne.symm h] using ih
    · have e : Map.erase ((i, x) :: m) k = (i, x) :: Map.erase m k := by simp [Map.erase, hi]
      rw [e, Map.get_cons, Map.get_cons, ih]

theorem Map.get_insert_self (d v : β) (m : Map β) (k : Nat) (h : ∀ e ∈ m, e.1 ≠ k) : (m.insert k v).get d k = v := by
  induction m with
  | nil => simp [Map.insert, Map.get_cons]
  | cons e m ih =>
    obtain ⟨j, x⟩ := e
    have hj : j ≠ k := h (j, x) (by simp)
    unfold Map.insert
    split
    · simp [Map.get_cons]
    · simpa [Map.get_cons, hj] using ih fun e he => h e (by simp [he])

theorem Map.get_insert_ne (d v : β) (m : Map β) {k j : Nat} (h : j ≠ k) : (m.insert k v).get d j = m.get d j := by
  induction m with
  | nil => simp [Map.insert, Map.get_cons, Ne.symm h]
  | cons e m ih =>
    obtain ⟨i, x⟩ := e
    unfold Map.insert
    split
    · simp [Map.get_cons, Ne.symm h]
    · simp [Map.get_cons, ih]

variable [DecidableEq β]

/-- A read after a write at the same key. -/
@[simp] theorem Map.get_set_self (d v : β) (m : Map β) (k : Nat) : (m.set d k v).get d k = v := by
  unfold Map.set
  split
  · next h => rw [Map.get_erase_self, h]
  · exact Map.get_insert_self d v _ k fun e he => by simpa using (List.mem_filter.mp he).2

/-- A write leaves every other key alone. -/
theorem Map.get_set_ne (d v : β) (m : Map β) {k j : Nat} (h : j ≠ k) : (m.set d k v).get d j = m.get d j := by
  unfold Map.set
  split
  · exact Map.get_erase_ne d m h
  · rw [Map.get_insert_ne d v _ h, Map.get_erase_ne d m h]

theorem Map.get_set (d v : β) (m : Map β) (k j : Nat) : (m.set d k v).get d j = if j = k then v else m.get d j := by
  by_cases h : j = k
  · subst h; simp
  · simp [h, Map.get_set_ne]

@[simp] theorem Map.get_upd_self (d : β) (m : Map β) (k : Nat) (f : β → β) : (m.upd d k f).get d k = f (m.get d k) := by
  simp [Map.upd]

theorem Map.get_upd_ne (d : β) (m : Map β) {k j : Nat} (f : β → β) (h : j ≠ k) : (m.upd d k f).get d j = m.get d j :=
  Map.get_set_ne d _ m h

theorem Map.get_upd (d : β) (m : Map β) (k j : Nat) (f : β → β) :
    (m.upd d k f).get d j = if j = k then f (m.get d k) else m.get d j := Map.get_set d _ m k j

/-- A write of consecutive values, read back. -/
theorem Map.get_setList (d : β) (m : Map β) (k : Nat) (vs : List β) (j : Nat) :
    (m.setList d k vs).get d j = if k ≤ j then (vs[j - k]?).getD (m.get d j) else m.get d j := by
  induction vs generalizing m k with
  | nil => simp [Map.setList]
  | cons v vs ih =>
    rw [Map.setList, ih, Map.get_set]
    by_cases h : j = k
    · subst h; simp
    · by_cases hk : k ≤ j
      · have h1 : k + 1 ≤ j := by omega
        obtain ⟨n, rfl⟩ : ∃ n, j = k + 1 + n := ⟨j - (k + 1), by omega⟩
        have e : k + 1 + n - k = n + 1 := by omega
        simp [h, hk, e]
      · have h1 : ¬ k + 1 ≤ j := by omega
        simp [h, hk, h1]

omit [DecidableEq β] in
theorem Map.getList_length (d : β) (m : Map β) (k n : Nat) : (m.getList d k n).length = n := by
  induction n generalizing k with
  | zero => rfl
  | succ n ih => simp [Map.getList, ih]

omit [DecidableEq β] in
/-- A read of consecutive values depends on those keys alone. -/
theorem Map.getList_congr (d : β) (m m' : Map β) (k n : Nat) (h : ∀ j, k ≤ j → j < k + n → m.get d j = m'.get d j) :
    m.getList d k n = m'.getList d k n := by
  induction n generalizing k with
  | zero => rfl
  | succ n ih =>
    simp only [Map.getList]
    rw [h k (by omega) (by omega), ih (k + 1) fun j h1 h2 => h j (by omega) (by omega)]

/-- A write of consecutive values reads back as it was written. -/
theorem Map.getList_setList (d : β) (m : Map β) (k : Nat) (vs : List β) : (m.setList d k vs).getList d k vs.length = vs := by
  suffices H : ∀ (ws : List β) (n : Nat), (∀ j, j < ws.length → (m.setList d k vs).get d (n + j) = ws[j]?.getD d) →
      (m.setList d k vs).getList d n ws.length = ws by
    refine H vs k fun j hj => ?_
    simp [Map.get_setList, hj]
  intro ws
  induction ws with
  | nil => intro n _; rfl
  | cons w ws ih =>
    intro n h
    have h0 := h 0 (by simp)
    have h1 := ih (n + 1) fun j hj => by
      have := h (j + 1) (by simpa using hj)
      simpa [Nat.add_assoc, Nat.add_comm 1 j] using this
    simp only [List.length_cons, Map.getList]
    rw [h1]
    simpa using h0

/-! ### The canonical form -/

theorem Map.wfFrom_mono (d : β) (m : Map β) {lo : Option Nat} {l : Nat} (h : Map.wfFrom d (some l) m)
    (hl : ∀ a, lo = some a → a ≤ l) : Map.wfFrom d lo m := by
  cases m with
  | nil => rfl
  | cons e m =>
    obtain ⟨k, v⟩ := e
    cases lo with
    | none => simp_all [Map.wfFrom]
    | some a =>
      have := hl a rfl
      simp_all [Map.wfFrom]
      omega

theorem Map.wfFrom_erase (d : β) (m : Map β) (lo : Option Nat) (k : Nat) (h : Map.wfFrom d lo m) :
    Map.wfFrom d lo (m.erase k) := by
  induction m generalizing lo with
  | nil => rfl
  | cons e m ih =>
    obtain ⟨j, x⟩ := e
    simp only [Map.wfFrom, Bool.and_eq_true] at h
    obtain ⟨⟨h1, h2⟩, h3⟩ := h
    by_cases hj : j = k
    · have : Map.erase ((j, x) :: m) k = Map.erase m k := by simp [Map.erase, hj]
      rw [this]
      refine Map.wfFrom_mono d _ (ih (some j) h3) fun a ha => ?_
      subst ha
      simp at h1
      omega
    · have : Map.erase ((j, x) :: m) k = (j, x) :: Map.erase m k := by simp [Map.erase, hj]
      rw [this]
      simp only [Map.wfFrom, Bool.and_eq_true]
      exact ⟨⟨h1, h2⟩, ih (some j) h3⟩

theorem Map.wfFrom_insert (d v : β) (m : Map β) (lo : Option Nat) (k : Nat) (h : Map.wfFrom d lo m) (hv : v ≠ d)
    (hlo : ∀ a, lo = some a → a < k) (hk : ∀ e ∈ m, e.1 ≠ k) : Map.wfFrom d lo (m.insert k v) := by
  induction m generalizing lo with
  | nil =>
    cases lo with
    | none => simp [Map.insert, Map.wfFrom, hv]
    | some a => simp [Map.insert, Map.wfFrom, hv, hlo a rfl]
  | cons e m ih =>
    obtain ⟨j, x⟩ := e
    have hjk : j ≠ k := hk (j, x) (by simp)
    simp only [Map.wfFrom, Bool.and_eq_true] at h
    obtain ⟨⟨h1, h2⟩, h3⟩ := h
    unfold Map.insert
    split
    · next hlt =>
      cases lo with
      | none => simp_all [Map.wfFrom]
      | some a => simp_all [Map.wfFrom]
    · next hlt =>
      simp only [Map.wfFrom, Bool.and_eq_true]
      refine ⟨⟨h1, h2⟩, ih (some j) h3 (fun a ha => ?_) fun e he => hk e (by simp [he])⟩
      simp at ha
      omega

/-- A write keeps the canonical form. -/
theorem Map.wf_set (d v : β) (m : Map β) (k : Nat) (h : m.wf d) : (m.set d k v).wf d := by
  unfold Map.set
  split
  · exact Map.wfFrom_erase d m none k h
  · next hv =>
    exact Map.wfFrom_insert d v _ none k (Map.wfFrom_erase d m none k h) hv (by simp)
      fun e he => by simpa using (List.mem_filter.mp he).2

theorem Map.wf_upd (d : β) (m : Map β) (k : Nat) (f : β → β) (h : m.wf d) : (m.upd d k f).wf d := Map.wf_set d _ m k h

theorem Map.wf_setList (d : β) (m : Map β) (k : Nat) (vs : List β) (h : m.wf d) : (m.setList d k vs).wf d := by
  induction vs generalizing m k with
  | nil => exact h
  | cons v vs ih => exact ih _ _ (Map.wf_set d v m k h)

theorem Map.wfFrom_filter (d : β) (m : Map β) (lo : Option Nat) (p : Nat × β → Bool) (h : Map.wfFrom d lo m) :
    Map.wfFrom d lo (m.filter p) := by
  induction m generalizing lo with
  | nil => rfl
  | cons e m ih =>
    obtain ⟨j, x⟩ := e
    simp only [Map.wfFrom, Bool.and_eq_true] at h
    obtain ⟨⟨h1, h2⟩, h3⟩ := h
    by_cases hp : p (j, x)
    · rw [List.filter_cons_of_pos hp]
      simp only [Map.wfFrom, Bool.and_eq_true]
      exact ⟨⟨h1, h2⟩, ih (some j) h3⟩
    · rw [List.filter_cons_of_neg (by simpa using hp)]
      refine Map.wfFrom_mono d _ (ih (some j) h3) fun a ha => ?_
      subst ha
      simp at h1
      omega

theorem Map.wf_clear (d : β) (m : Map β) (k n : Nat) (h : m.wf d) : (m.clear k n).wf d := Map.wfFrom_filter d m none _ h

theorem Map.get_lt (d : β) (m : Map β) (l k : Nat) (h : Map.wfFrom d (some l) m) (hk : k ≤ l) : m.get d k = d := by
  induction m generalizing l with
  | nil => rfl
  | cons e m ih =>
    obtain ⟨j, x⟩ := e
    simp only [Map.wfFrom, Bool.and_eq_true, decide_eq_true_eq] at h
    obtain ⟨⟨h1, h2⟩, h3⟩ := h
    have : j ≠ k := by omega
    simp [Map.get_cons, this, ih j h3 (by omega)]

theorem Map.ext_from (d : β) (m n : Map β) (lo : Option Nat) (hm : Map.wfFrom d lo m) (hn : Map.wfFrom d lo n)
    (h : ∀ k, m.get d k = n.get d k) : m = n := by
  induction m generalizing n lo with
  | nil =>
    cases n with
    | nil => rfl
    | cons e n =>
      obtain ⟨j, x⟩ := e
      have := h j
      simp [Map.get_cons] at this
      simp [Map.wfFrom, ← this] at hn
  | cons e m ih =>
    obtain ⟨j, x⟩ := e
    simp only [Map.wfFrom, Bool.and_eq_true, decide_eq_true_eq] at hm
    obtain ⟨⟨h1, h2⟩, h3⟩ := hm
    cases n with
    | nil =>
      have := h j
      simp [Map.get_cons] at this
      exact absurd this h2
    | cons e' n =>
      obtain ⟨i, y⟩ := e'
      simp only [Map.wfFrom, Bool.and_eq_true, decide_eq_true_eq] at hn
      obtain ⟨⟨g1, g2⟩, g3⟩ := hn
      have hij : i = j := by
        rcases Nat.lt_trichotomy i j with hlt | heq | hgt
        · have := h i
          rw [Map.get_cons, Map.get_cons, if_neg (by omega), Map.get_lt d m j i h3 (by omega), if_pos rfl] at this
          exact absurd this.symm g2
        · exact heq
        · have := h j
          rw [Map.get_cons, Map.get_cons, if_pos rfl, if_neg (by omega), Map.get_lt d n i j g3 (by omega)] at this
          exact absurd this h2
      subst hij
      have hx := h i
      simp [Map.get_cons] at hx
      subst hx
      have hmn : m = n := ih n (some i) h3 g3 fun k => by
        by_cases hk : k = i
        · subst hk
          rw [Map.get_lt d m k k h3 (le_refl k), Map.get_lt d n k k g3 (le_refl k)]
        · have := h k
          simpa [Map.get_cons, Ne.symm hk] using this
      rw [hmn]

/-- Tables in canonical form with equal contents are equal data. -/
theorem Map.ext (d : β) (m n : Map β) (hm : m.wf d) (hn : n.wf d) (h : ∀ k, m.get d k = n.get d k) : m = n :=
  Map.ext_from d m n none hm hn h

end Sys2Proof.Machine
end

