-- ==== Sys2Proof/Laws/State.lean ====
section
/-! SUPPORT. Reading a field of the state after an update of one part of it. -/
namespace Sys2Proof.Machine

/-! ### updFn -/

@[simp] theorem State.updFn_mem (s : State) (n : Nat) (f : Fn → Fn) : (s.updFn n f).mem = s.mem := rfl
@[simp] theorem State.updFn_poisoned (s : State) (n : Nat) (f : Fn → Fn) : (s.updFn n f).poisoned = s.poisoned := rfl
@[simp] theorem State.updFn_dueErrors (s : State) (n : Nat) (f : Fn → Fn) : (s.updFn n f).dueErrors = s.dueErrors := rfl
@[simp] theorem State.updFn_blocks (s : State) (n : Nat) (f : Fn → Fn) : (s.updFn n f).blocks = s.blocks := rfl
@[simp] theorem State.updFn_cores (s : State) (n : Nat) (f : Fn → Fn) : (s.updFn n f).cores = s.cores := rfl
@[simp] theorem State.updFn_regions (s : State) (n : Nat) (f : Fn → Fn) : (s.updFn n f).regions = s.regions := rfl
@[simp] theorem State.updFn_dies (s : State) (n : Nat) (f : Fn → Fn) : (s.updFn n f).dies = s.dies := rfl
@[simp] theorem State.updFn_roasts (s : State) (n : Nat) (f : Fn → Fn) : (s.updFn n f).roasts = s.roasts := rfl
@[simp] theorem State.updFn_watches (s : State) (n : Nat) (f : Fn → Fn) : (s.updFn n f).watches = s.watches := rfl
@[simp] theorem State.updFn_vaults (s : State) (n : Nat) (f : Fn → Fn) : (s.updFn n f).vaults = s.vaults := rfl
@[simp] theorem State.updFn_content (s : State) (n : Nat) (f : Fn → Fn) : (s.updFn n f).content = s.content := rfl
@[simp] theorem State.updFn_sideTags (s : State) (n : Nat) (f : Fn → Fn) : (s.updFn n f).sideTags = s.sideTags := rfl
@[simp] theorem State.updFn_homeTab (s : State) (n : Nat) (f : Fn → Fn) : (s.updFn n f).homeTab = s.homeTab := rfl
@[simp] theorem State.updFn_dumpBase (s : State) (n : Nat) (f : Fn → Fn) : (s.updFn n f).dumpBase = s.dumpBase := rfl
@[simp] theorem State.updFn_bootFail (s : State) (n : Nat) (f : Fn → Fn) : (s.updFn n f).bootFail = s.bootFail := rfl
@[simp] theorem State.updFn_bootState (s : State) (n : Nat) (f : Fn → Fn) : (s.updFn n f).bootState = s.bootState := rfl
@[simp] theorem State.updFn_powerCap (s : State) (n : Nat) (f : Fn → Fn) : (s.updFn n f).powerCap = s.powerCap := rfl
@[simp] theorem State.updFn_clockMHz (s : State) (n : Nat) (f : Fn → Fn) : (s.updFn n f).clockMHz = s.clockMHz := rfl
@[simp] theorem State.updFn_moduleNo (s : State) (n : Nat) (f : Fn → Fn) : (s.updFn n f).moduleNo = s.moduleNo := rfl
@[simp] theorem State.updFn_routes (s : State) (n : Nat) (f : Fn → Fn) : (s.updFn n f).routes = s.routes := rfl
@[simp] theorem State.updFn_attestation (s : State) (n : Nat) (f : Fn → Fn) : (s.updFn n f).attestation = s.attestation := rfl
@[simp] theorem State.updFn_doe (s : State) (n : Nat) (f : Fn → Fn) : (s.updFn n f).doe = s.doe := rfl
@[simp] theorem State.updFn_irqs (s : State) (n : Nat) (f : Fn → Fn) : (s.updFn n f).irqs = s.irqs := rfl
@[simp] theorem State.updFn_sent (s : State) (n : Nat) (f : Fn → Fn) : (s.updFn n f).sent = s.sent := rfl
@[simp] theorem State.updFn_links (s : State) (n : Nat) (f : Fn → Fn) : (s.updFn n f).links = s.links := rfl
@[simp] theorem State.updFn_launches (s : State) (n : Nat) (f : Fn → Fn) : (s.updFn n f).launches = s.launches := rfl
@[simp] theorem State.updFn_copies (s : State) (n : Nat) (f : Fn → Fn) : (s.updFn n f).copies = s.copies := rfl
@[simp] theorem State.updFn_drains (s : State) (n : Nat) (f : Fn → Fn) : (s.updFn n f).drains = s.drains := rfl
@[simp] theorem State.updFn_exports (s : State) (n : Nat) (f : Fn → Fn) : (s.updFn n f).exports = s.exports := rfl
@[simp] theorem State.updFn_reds (s : State) (n : Nat) (f : Fn → Fn) : (s.updFn n f).reds = s.reds := rfl
@[simp] theorem State.updFn_cctls (s : State) (n : Nat) (f : Fn → Fn) : (s.updFn n f).cctls = s.cctls := rfl
@[simp] theorem State.updFn_sflushes (s : State) (n : Nat) (f : Fn → Fn) : (s.updFn n f).sflushes = s.sflushes := rfl
@[simp] theorem State.updFn_hostQ (s : State) (n : Nat) (f : Fn → Fn) : (s.updFn n f).hostQ = s.hostQ := rfl
@[simp] theorem State.updFn_oplog (s : State) (n : Nat) (f : Fn → Fn) : (s.updFn n f).oplog = s.oplog := rfl
@[simp] theorem State.updFn_records (s : State) (n : Nat) (f : Fn → Fn) : (s.updFn n f).records = s.records := rfl
@[simp] theorem State.updFn_dir (s : State) (n : Nat) (f : Fn → Fn) : (s.updFn n f).dir = s.dir := rfl
@[simp] theorem State.updFn_llc (s : State) (n : Nat) (f : Fn → Fn) : (s.updFn n f).llc = s.llc := rfl
@[simp] theorem State.updFn_l2 (s : State) (n : Nat) (f : Fn → Fn) : (s.updFn n f).l2 = s.l2 := rfl
@[simp] theorem State.updFn_l2Home (s : State) (n : Nat) (f : Fn → Fn) : (s.updFn n f).l2Home = s.l2Home := rfl
@[simp] theorem State.updFn_wbs (s : State) (n : Nat) (f : Fn → Fn) : (s.updFn n f).wbs = s.wbs := rfl
@[simp] theorem State.updFn_filters (s : State) (n : Nat) (f : Fn → Fn) : (s.updFn n f).filters = s.filters := rfl
@[simp] theorem State.updFn_owners (s : State) (n : Nat) (f : Fn → Fn) : (s.updFn n f).owners = s.owners := rfl
@[simp] theorem State.updFn_pendReg (s : State) (n : Nat) (f : Fn → Fn) : (s.updFn n f).pendReg = s.pendReg := rfl
@[simp] theorem State.updFn_txns (s : State) (n : Nat) (f : Fn → Fn) : (s.updFn n f).txns = s.txns := rfl
@[simp] theorem State.updFn_decafs (s : State) (n : Nat) (f : Fn → Fn) : (s.updFn n f).decafs = s.decafs := rfl
@[simp] theorem State.updFn_rows (s : State) (n : Nat) (f : Fn → Fn) : (s.updFn n f).rows = s.rows := rfl
@[simp] theorem State.updFn_cpStopped (s : State) (n : Nat) (f : Fn → Fn) : (s.updFn n f).cpStopped = s.cpStopped := rfl
@[simp] theorem State.updFn_unitsOut (s : State) (n : Nat) (f : Fn → Fn) : (s.updFn n f).unitsOut = s.unitsOut := rfl
@[simp] theorem State.updFn_posts (s : State) (n : Nat) (f : Fn → Fn) : (s.updFn n f).posts = s.posts := rfl
@[simp] theorem State.updFn_agentReports (s : State) (n : Nat) (f : Fn → Fn) : (s.updFn n f).agentReports = s.agentReports := rfl
@[simp] theorem State.updFn_stops (s : State) (n : Nat) (f : Fn → Fn) : (s.updFn n f).stops = s.stops := rfl
@[simp] theorem State.updFn_stopping (s : State) (n : Nat) (f : Fn → Fn) : (s.updFn n f).stopping = s.stopping := rfl
@[simp] theorem State.updFn_agenda (s : State) (n : Nat) (f : Fn → Fn) : (s.updFn n f).agenda = s.agenda := rfl
@[simp] theorem State.updFn_sel (s : State) (n : Nat) (f : Fn → Fn) : (s.updFn n f).sel = s.sel := rfl
@[simp] theorem State.updFn_tick (s : State) (n : Nat) (f : Fn → Fn) : (s.updFn n f).tick = s.tick := rfl
@[simp] theorem State.updFn_hole (s : State) (n : Nat) (f : Fn → Fn) : (s.updFn n f).hole = s.hole := rfl
@[simp] theorem State.updFn_nextId (s : State) (n : Nat) (f : Fn → Fn) : (s.updFn n f).nextId = s.nextId := rfl
@[simp] theorem State.updFn_issued (s : State) (n : Nat) (f : Fn → Fn) : (s.updFn n f).issued = s.issued := rfl

/-! ### updCore -/

@[simp] theorem State.updCore_mem (s : State) (n : Nat) (f : CoreSt → CoreSt) : (s.updCore n f).mem = s.mem := rfl
@[simp] theorem State.updCore_poisoned (s : State) (n : Nat) (f : CoreSt → CoreSt) : (s.updCore n f).poisoned = s.poisoned := rfl
@[simp] theorem State.updCore_dueErrors (s : State) (n : Nat) (f : CoreSt → CoreSt) : (s.updCore n f).dueErrors = s.dueErrors := rfl
@[simp] theorem State.updCore_blocks (s : State) (n : Nat) (f : CoreSt → CoreSt) : (s.updCore n f).blocks = s.blocks := rfl
@[simp] theorem State.updCore_regions (s : State) (n : Nat) (f : CoreSt → CoreSt) : (s.updCore n f).regions = s.regions := rfl
@[simp] theorem State.updCore_dies (s : State) (n : Nat) (f : CoreSt → CoreSt) : (s.updCore n f).dies = s.dies := rfl
@[simp] theorem State.updCore_fns (s : State) (n : Nat) (f : CoreSt → CoreSt) : (s.updCore n f).fns = s.fns := rfl
@[simp] theorem State.updCore_roasts (s : State) (n : Nat) (f : CoreSt → CoreSt) : (s.updCore n f).roasts = s.roasts := rfl
@[simp] theorem State.updCore_watches (s : State) (n : Nat) (f : CoreSt → CoreSt) : (s.updCore n f).watches = s.watches := rfl
@[simp] theorem State.updCore_vaults (s : State) (n : Nat) (f : CoreSt → CoreSt) : (s.updCore n f).vaults = s.vaults := rfl
@[simp] theorem State.updCore_content (s : State) (n : Nat) (f : CoreSt → CoreSt) : (s.updCore n f).content = s.content := rfl
@[simp] theorem State.updCore_sideTags (s : State) (n : Nat) (f : CoreSt → CoreSt) : (s.updCore n f).sideTags = s.sideTags := rfl
@[simp] theorem State.updCore_homeTab (s : State) (n : Nat) (f : CoreSt → CoreSt) : (s.updCore n f).homeTab = s.homeTab := rfl
@[simp] theorem State.updCore_dumpBase (s : State) (n : Nat) (f : CoreSt → CoreSt) : (s.updCore n f).dumpBase = s.dumpBase := rfl
@[simp] theorem State.updCore_bootFail (s : State) (n : Nat) (f : CoreSt → CoreSt) : (s.updCore n f).bootFail = s.bootFail := rfl
@[simp] theorem State.updCore_bootState (s : State) (n : Nat) (f : CoreSt → CoreSt) : (s.updCore n f).bootState = s.bootState := rfl
@[simp] theorem State.updCore_powerCap (s : State) (n : Nat) (f : CoreSt → CoreSt) : (s.updCore n f).powerCap = s.powerCap := rfl
@[simp] theorem State.updCore_clockMHz (s : State) (n : Nat) (f : CoreSt → CoreSt) : (s.updCore n f).clockMHz = s.clockMHz := rfl
@[simp] theorem State.updCore_moduleNo (s : State) (n : Nat) (f : CoreSt → CoreSt) : (s.updCore n f).moduleNo = s.moduleNo := rfl
@[simp] theorem State.updCore_routes (s : State) (n : Nat) (f : CoreSt → CoreSt) : (s.updCore n f).routes = s.routes := rfl
@[simp] theorem State.updCore_attestation (s : State) (n : Nat) (f : CoreSt → CoreSt) : (s.updCore n f).attestation = s.attestation := rfl
@[simp] theorem State.updCore_doe (s : State) (n : Nat) (f : CoreSt → CoreSt) : (s.updCore n f).doe = s.doe := rfl
@[simp] theorem State.updCore_irqs (s : State) (n : Nat) (f : CoreSt → CoreSt) : (s.updCore n f).irqs = s.irqs := rfl
@[simp] theorem State.updCore_sent (s : State) (n : Nat) (f : CoreSt → CoreSt) : (s.updCore n f).sent = s.sent := rfl
@[simp] theorem State.updCore_links (s : State) (n : Nat) (f : CoreSt → CoreSt) : (s.updCore n f).links = s.links := rfl
@[simp] theorem State.updCore_launches (s : State) (n : Nat) (f : CoreSt → CoreSt) : (s.updCore n f).launches = s.launches := rfl
@[simp] theorem State.updCore_copies (s : State) (n : Nat) (f : CoreSt → CoreSt) : (s.updCore n f).copies = s.copies := rfl
@[simp] theorem State.updCore_drains (s : State) (n : Nat) (f : CoreSt → CoreSt) : (s.updCore n f).drains = s.drains := rfl
@[simp] theorem State.updCore_exports (s : State) (n : Nat) (f : CoreSt → CoreSt) : (s.updCore n f).exports = s.exports := rfl
@[simp] theorem State.updCore_reds (s : State) (n : Nat) (f : CoreSt → CoreSt) : (s.updCore n f).reds = s.reds := rfl
@[simp] theorem State.updCore_cctls (s : State) (n : Nat) (f : CoreSt → CoreSt) : (s.updCore n f).cctls = s.cctls := rfl
@[simp] theorem State.updCore_sflushes (s : State) (n : Nat) (f : CoreSt → CoreSt) : (s.updCore n f).sflushes = s.sflushes := rfl
@[simp] theorem State.updCore_hostQ (s : State) (n : Nat) (f : CoreSt → CoreSt) : (s.updCore n f).hostQ = s.hostQ := rfl
@[simp] theorem State.updCore_oplog (s : State) (n : Nat) (f : CoreSt → CoreSt) : (s.updCore n f).oplog = s.oplog := rfl
@[simp] theorem State.updCore_records (s : State) (n : Nat) (f : CoreSt → CoreSt) : (s.updCore n f).records = s.records := rfl
@[simp] theorem State.updCore_dir (s : State) (n : Nat) (f : CoreSt → CoreSt) : (s.updCore n f).dir = s.dir := rfl
@[simp] theorem State.updCore_llc (s : State) (n : Nat) (f : CoreSt → CoreSt) : (s.updCore n f).llc = s.llc := rfl
@[simp] theorem State.updCore_l2 (s : State) (n : Nat) (f : CoreSt → CoreSt) : (s.updCore n f).l2 = s.l2 := rfl
@[simp] theorem State.updCore_l2Home (s : State) (n : Nat) (f : CoreSt → CoreSt) : (s.updCore n f).l2Home = s.l2Home := rfl
@[simp] theorem State.updCore_wbs (s : State) (n : Nat) (f : CoreSt → CoreSt) : (s.updCore n f).wbs = s.wbs := rfl
@[simp] theorem State.updCore_filters (s : State) (n : Nat) (f : CoreSt → CoreSt) : (s.updCore n f).filters = s.filters := rfl
@[simp] theorem State.updCore_owners (s : State) (n : Nat) (f : CoreSt → CoreSt) : (s.updCore n f).owners = s.owners := rfl
@[simp] theorem State.updCore_pendReg (s : State) (n : Nat) (f : CoreSt → CoreSt) : (s.updCore n f).pendReg = s.pendReg := rfl
@[simp] theorem State.updCore_txns (s : State) (n : Nat) (f : CoreSt → CoreSt) : (s.updCore n f).txns = s.txns := rfl
@[simp] theorem State.updCore_decafs (s : State) (n : Nat) (f : CoreSt → CoreSt) : (s.updCore n f).decafs = s.decafs := rfl
@[simp] theorem State.updCore_rows (s : State) (n : Nat) (f : CoreSt → CoreSt) : (s.updCore n f).rows = s.rows := rfl
@[simp] theorem State.updCore_cpStopped (s : State) (n : Nat) (f : CoreSt → CoreSt) : (s.updCore n f).cpStopped = s.cpStopped := rfl
@[simp] theorem State.updCore_unitsOut (s : State) (n : Nat) (f : CoreSt → CoreSt) : (s.updCore n f).unitsOut = s.unitsOut := rfl
@[simp] theorem State.updCore_posts (s : State) (n : Nat) (f : CoreSt → CoreSt) : (s.updCore n f).posts = s.posts := rfl
@[simp] theorem State.updCore_agentReports (s : State) (n : Nat) (f : CoreSt → CoreSt) : (s.updCore n f).agentReports = s.agentReports := rfl
@[simp] theorem State.updCore_stops (s : State) (n : Nat) (f : CoreSt → CoreSt) : (s.updCore n f).stops = s.stops := rfl
@[simp] theorem State.updCore_stopping (s : State) (n : Nat) (f : CoreSt → CoreSt) : (s.updCore n f).stopping = s.stopping := rfl
@[simp] theorem State.updCore_agenda (s : State) (n : Nat) (f : CoreSt → CoreSt) : (s.updCore n f).agenda = s.agenda := rfl
@[simp] theorem State.updCore_sel (s : State) (n : Nat) (f : CoreSt → CoreSt) : (s.updCore n f).sel = s.sel := rfl
@[simp] theorem State.updCore_tick (s : State) (n : Nat) (f : CoreSt → CoreSt) : (s.updCore n f).tick = s.tick := rfl
@[simp] theorem State.updCore_hole (s : State) (n : Nat) (f : CoreSt → CoreSt) : (s.updCore n f).hole = s.hole := rfl
@[simp] theorem State.updCore_nextId (s : State) (n : Nat) (f : CoreSt → CoreSt) : (s.updCore n f).nextId = s.nextId := rfl
@[simp] theorem State.updCore_issued (s : State) (n : Nat) (f : CoreSt → CoreSt) : (s.updCore n f).issued = s.issued := rfl

/-! ### updRegion -/

@[simp] theorem State.updRegion_mem (s : State) (n : Nat) (f : Region → Region) : (s.updRegion n f).mem = s.mem := rfl
@[simp] theorem State.updRegion_poisoned (s : State) (n : Nat) (f : Region → Region) : (s.updRegion n f).poisoned = s.poisoned := rfl
@[simp] theorem State.updRegion_dueErrors (s : State) (n : Nat) (f : Region → Region) : (s.updRegion n f).dueErrors = s.dueErrors := rfl
@[simp] theorem State.updRegion_blocks (s : State) (n : Nat) (f : Region → Region) : (s.updRegion n f).blocks = s.blocks := rfl
@[simp] theorem State.updRegion_cores (s : State) (n : Nat) (f : Region → Region) : (s.updRegion n f).cores = s.cores := rfl
@[simp] theorem State.updRegion_dies (s : State) (n : Nat) (f : Region → Region) : (s.updRegion n f).dies = s.dies := rfl
@[simp] theorem State.updRegion_fns (s : State) (n : Nat) (f : Region → Region) : (s.updRegion n f).fns = s.fns := rfl
@[simp] theorem State.updRegion_roasts (s : State) (n : Nat) (f : Region → Region) : (s.updRegion n f).roasts = s.roasts := rfl
@[simp] theorem State.updRegion_watches (s : State) (n : Nat) (f : Region → Region) : (s.updRegion n f).watches = s.watches := rfl
@[simp] theorem State.updRegion_vaults (s : State) (n : Nat) (f : Region → Region) : (s.updRegion n f).vaults = s.vaults := rfl
@[simp] theorem State.updRegion_content (s : State) (n : Nat) (f : Region → Region) : (s.updRegion n f).content = s.content := rfl
@[simp] theorem State.updRegion_sideTags (s : State) (n : Nat) (f : Region → Region) : (s.updRegion n f).sideTags = s.sideTags := rfl
@[simp] theorem State.updRegion_homeTab (s : State) (n : Nat) (f : Region → Region) : (s.updRegion n f).homeTab = s.homeTab := rfl
@[simp] theorem State.updRegion_dumpBase (s : State) (n : Nat) (f : Region → Region) : (s.updRegion n f).dumpBase = s.dumpBase := rfl
@[simp] theorem State.updRegion_bootFail (s : State) (n : Nat) (f : Region → Region) : (s.updRegion n f).bootFail = s.bootFail := rfl
@[simp] theorem State.updRegion_bootState (s : State) (n : Nat) (f : Region → Region) : (s.updRegion n f).bootState = s.bootState := rfl
@[simp] theorem State.updRegion_powerCap (s : State) (n : Nat) (f : Region → Region) : (s.updRegion n f).powerCap = s.powerCap := rfl
@[simp] theorem State.updRegion_clockMHz (s : State) (n : Nat) (f : Region → Region) : (s.updRegion n f).clockMHz = s.clockMHz := rfl
@[simp] theorem State.updRegion_moduleNo (s : State) (n : Nat) (f : Region → Region) : (s.updRegion n f).moduleNo = s.moduleNo := rfl
@[simp] theorem State.updRegion_routes (s : State) (n : Nat) (f : Region → Region) : (s.updRegion n f).routes = s.routes := rfl
@[simp] theorem State.updRegion_attestation (s : State) (n : Nat) (f : Region → Region) : (s.updRegion n f).attestation = s.attestation := rfl
@[simp] theorem State.updRegion_doe (s : State) (n : Nat) (f : Region → Region) : (s.updRegion n f).doe = s.doe := rfl
@[simp] theorem State.updRegion_irqs (s : State) (n : Nat) (f : Region → Region) : (s.updRegion n f).irqs = s.irqs := rfl
@[simp] theorem State.updRegion_sent (s : State) (n : Nat) (f : Region → Region) : (s.updRegion n f).sent = s.sent := rfl
@[simp] theorem State.updRegion_links (s : State) (n : Nat) (f : Region → Region) : (s.updRegion n f).links = s.links := rfl
@[simp] theorem State.updRegion_launches (s : State) (n : Nat) (f : Region → Region) : (s.updRegion n f).launches = s.launches := rfl
@[simp] theorem State.updRegion_copies (s : State) (n : Nat) (f : Region → Region) : (s.updRegion n f).copies = s.copies := rfl
@[simp] theorem State.updRegion_drains (s : State) (n : Nat) (f : Region → Region) : (s.updRegion n f).drains = s.drains := rfl
@[simp] theorem State.updRegion_exports (s : State) (n : Nat) (f : Region → Region) : (s.updRegion n f).exports = s.exports := rfl
@[simp] theorem State.updRegion_reds (s : State) (n : Nat) (f : Region → Region) : (s.updRegion n f).reds = s.reds := rfl
@[simp] theorem State.updRegion_cctls (s : State) (n : Nat) (f : Region → Region) : (s.updRegion n f).cctls = s.cctls := rfl
@[simp] theorem State.updRegion_sflushes (s : State) (n : Nat) (f : Region → Region) : (s.updRegion n f).sflushes = s.sflushes := rfl
@[simp] theorem State.updRegion_hostQ (s : State) (n : Nat) (f : Region → Region) : (s.updRegion n f).hostQ = s.hostQ := rfl
@[simp] theorem State.updRegion_oplog (s : State) (n : Nat) (f : Region → Region) : (s.updRegion n f).oplog = s.oplog := rfl
@[simp] theorem State.updRegion_records (s : State) (n : Nat) (f : Region → Region) : (s.updRegion n f).records = s.records := rfl
@[simp] theorem State.updRegion_dir (s : State) (n : Nat) (f : Region → Region) : (s.updRegion n f).dir = s.dir := rfl
@[simp] theorem State.updRegion_llc (s : State) (n : Nat) (f : Region → Region) : (s.updRegion n f).llc = s.llc := rfl
@[simp] theorem State.updRegion_l2 (s : State) (n : Nat) (f : Region → Region) : (s.updRegion n f).l2 = s.l2 := rfl
@[simp] theorem State.updRegion_l2Home (s : State) (n : Nat) (f : Region → Region) : (s.updRegion n f).l2Home = s.l2Home := rfl
@[simp] theorem State.updRegion_wbs (s : State) (n : Nat) (f : Region → Region) : (s.updRegion n f).wbs = s.wbs := rfl
@[simp] theorem State.updRegion_filters (s : State) (n : Nat) (f : Region → Region) : (s.updRegion n f).filters = s.filters := rfl
@[simp] theorem State.updRegion_owners (s : State) (n : Nat) (f : Region → Region) : (s.updRegion n f).owners = s.owners := rfl
@[simp] theorem State.updRegion_pendReg (s : State) (n : Nat) (f : Region → Region) : (s.updRegion n f).pendReg = s.pendReg := rfl
@[simp] theorem State.updRegion_txns (s : State) (n : Nat) (f : Region → Region) : (s.updRegion n f).txns = s.txns := rfl
@[simp] theorem State.updRegion_decafs (s : State) (n : Nat) (f : Region → Region) : (s.updRegion n f).decafs = s.decafs := rfl
@[simp] theorem State.updRegion_rows (s : State) (n : Nat) (f : Region → Region) : (s.updRegion n f).rows = s.rows := rfl
@[simp] theorem State.updRegion_cpStopped (s : State) (n : Nat) (f : Region → Region) : (s.updRegion n f).cpStopped = s.cpStopped := rfl
@[simp] theorem State.updRegion_unitsOut (s : State) (n : Nat) (f : Region → Region) : (s.updRegion n f).unitsOut = s.unitsOut := rfl
@[simp] theorem State.updRegion_posts (s : State) (n : Nat) (f : Region → Region) : (s.updRegion n f).posts = s.posts := rfl
@[simp] theorem State.updRegion_agentReports (s : State) (n : Nat) (f : Region → Region) : (s.updRegion n f).agentReports = s.agentReports := rfl
@[simp] theorem State.updRegion_stops (s : State) (n : Nat) (f : Region → Region) : (s.updRegion n f).stops = s.stops := rfl
@[simp] theorem State.updRegion_stopping (s : State) (n : Nat) (f : Region → Region) : (s.updRegion n f).stopping = s.stopping := rfl
@[simp] theorem State.updRegion_agenda (s : State) (n : Nat) (f : Region → Region) : (s.updRegion n f).agenda = s.agenda := rfl
@[simp] theorem State.updRegion_sel (s : State) (n : Nat) (f : Region → Region) : (s.updRegion n f).sel = s.sel := rfl
@[simp] theorem State.updRegion_tick (s : State) (n : Nat) (f : Region → Region) : (s.updRegion n f).tick = s.tick := rfl
@[simp] theorem State.updRegion_hole (s : State) (n : Nat) (f : Region → Region) : (s.updRegion n f).hole = s.hole := rfl
@[simp] theorem State.updRegion_nextId (s : State) (n : Nat) (f : Region → Region) : (s.updRegion n f).nextId = s.nextId := rfl
@[simp] theorem State.updRegion_issued (s : State) (n : Nat) (f : Region → Region) : (s.updRegion n f).issued = s.issued := rfl

/-! ### updDie -/

@[simp] theorem State.updDie_mem (s : State) (n : Nat) (f : Die → Die) : (s.updDie n f).mem = s.mem := rfl
@[simp] theorem State.updDie_poisoned (s : State) (n : Nat) (f : Die → Die) : (s.updDie n f).poisoned = s.poisoned := rfl
@[simp] theorem State.updDie_dueErrors (s : State) (n : Nat) (f : Die → Die) : (s.updDie n f).dueErrors = s.dueErrors := rfl
@[simp] theorem State.updDie_blocks (s : State) (n : Nat) (f : Die → Die) : (s.updDie n f).blocks = s.blocks := rfl
@[simp] theorem State.updDie_cores (s : State) (n : Nat) (f : Die → Die) : (s.updDie n f).cores = s.cores := rfl
@[simp] theorem State.updDie_regions (s : State) (n : Nat) (f : Die → Die) : (s.updDie n f).regions = s.regions := rfl
@[simp] theorem State.updDie_fns (s : State) (n : Nat) (f : Die → Die) : (s.updDie n f).fns = s.fns := rfl
@[simp] theorem State.updDie_roasts (s : State) (n : Nat) (f : Die → Die) : (s.updDie n f).roasts = s.roasts := rfl
@[simp] theorem State.updDie_watches (s : State) (n : Nat) (f : Die → Die) : (s.updDie n f).watches = s.watches := rfl
@[simp] theorem State.updDie_vaults (s : State) (n : Nat) (f : Die → Die) : (s.updDie n f).vaults = s.vaults := rfl
@[simp] theorem State.updDie_content (s : State) (n : Nat) (f : Die → Die) : (s.updDie n f).content = s.content := rfl
@[simp] theorem State.updDie_sideTags (s : State) (n : Nat) (f : Die → Die) : (s.updDie n f).sideTags = s.sideTags := rfl
@[simp] theorem State.updDie_homeTab (s : State) (n : Nat) (f : Die → Die) : (s.updDie n f).homeTab = s.homeTab := rfl
@[simp] theorem State.updDie_dumpBase (s : State) (n : Nat) (f : Die → Die) : (s.updDie n f).dumpBase = s.dumpBase := rfl
@[simp] theorem State.updDie_bootFail (s : State) (n : Nat) (f : Die → Die) : (s.updDie n f).bootFail = s.bootFail := rfl
@[simp] theorem State.updDie_bootState (s : State) (n : Nat) (f : Die → Die) : (s.updDie n f).bootState = s.bootState := rfl
@[simp] theorem State.updDie_powerCap (s : State) (n : Nat) (f : Die → Die) : (s.updDie n f).powerCap = s.powerCap := rfl
@[simp] theorem State.updDie_clockMHz (s : State) (n : Nat) (f : Die → Die) : (s.updDie n f).clockMHz = s.clockMHz := rfl
@[simp] theorem State.updDie_moduleNo (s : State) (n : Nat) (f : Die → Die) : (s.updDie n f).moduleNo = s.moduleNo := rfl
@[simp] theorem State.updDie_routes (s : State) (n : Nat) (f : Die → Die) : (s.updDie n f).routes = s.routes := rfl
@[simp] theorem State.updDie_attestation (s : State) (n : Nat) (f : Die → Die) : (s.updDie n f).attestation = s.attestation := rfl
@[simp] theorem State.updDie_doe (s : State) (n : Nat) (f : Die → Die) : (s.updDie n f).doe = s.doe := rfl
@[simp] theorem State.updDie_irqs (s : State) (n : Nat) (f : Die → Die) : (s.updDie n f).irqs = s.irqs := rfl
@[simp] theorem State.updDie_sent (s : State) (n : Nat) (f : Die → Die) : (s.updDie n f).sent = s.sent := rfl
@[simp] theorem State.updDie_links (s : State) (n : Nat) (f : Die → Die) : (s.updDie n f).links = s.links := rfl
@[simp] theorem State.updDie_launches (s : State) (n : Nat) (f : Die → Die) : (s.updDie n f).launches = s.launches := rfl
@[simp] theorem State.updDie_copies (s : State) (n : Nat) (f : Die → Die) : (s.updDie n f).copies = s.copies := rfl
@[simp] theorem State.updDie_drains (s : State) (n : Nat) (f : Die → Die) : (s.updDie n f).drains = s.drains := rfl
@[simp] theorem State.updDie_exports (s : State) (n : Nat) (f : Die → Die) : (s.updDie n f).exports = s.exports := rfl
@[simp] theorem State.updDie_reds (s : State) (n : Nat) (f : Die → Die) : (s.updDie n f).reds = s.reds := rfl
@[simp] theorem State.updDie_cctls (s : State) (n : Nat) (f : Die → Die) : (s.updDie n f).cctls = s.cctls := rfl
@[simp] theorem State.updDie_sflushes (s : State) (n : Nat) (f : Die → Die) : (s.updDie n f).sflushes = s.sflushes := rfl
@[simp] theorem State.updDie_hostQ (s : State) (n : Nat) (f : Die → Die) : (s.updDie n f).hostQ = s.hostQ := rfl
@[simp] theorem State.updDie_oplog (s : State) (n : Nat) (f : Die → Die) : (s.updDie n f).oplog = s.oplog := rfl
@[simp] theorem State.updDie_records (s : State) (n : Nat) (f : Die → Die) : (s.updDie n f).records = s.records := rfl
@[simp] theorem State.updDie_dir (s : State) (n : Nat) (f : Die → Die) : (s.updDie n f).dir = s.dir := rfl
@[simp] theorem State.updDie_llc (s : State) (n : Nat) (f : Die → Die) : (s.updDie n f).llc = s.llc := rfl
@[simp] theorem State.updDie_l2 (s : State) (n : Nat) (f : Die → Die) : (s.updDie n f).l2 = s.l2 := rfl
@[simp] theorem State.updDie_l2Home (s : State) (n : Nat) (f : Die → Die) : (s.updDie n f).l2Home = s.l2Home := rfl
@[simp] theorem State.updDie_wbs (s : State) (n : Nat) (f : Die → Die) : (s.updDie n f).wbs = s.wbs := rfl
@[simp] theorem State.updDie_filters (s : State) (n : Nat) (f : Die → Die) : (s.updDie n f).filters = s.filters := rfl
@[simp] theorem State.updDie_owners (s : State) (n : Nat) (f : Die → Die) : (s.updDie n f).owners = s.owners := rfl
@[simp] theorem State.updDie_pendReg (s : State) (n : Nat) (f : Die → Die) : (s.updDie n f).pendReg = s.pendReg := rfl
@[simp] theorem State.updDie_txns (s : State) (n : Nat) (f : Die → Die) : (s.updDie n f).txns = s.txns := rfl
@[simp] theorem State.updDie_decafs (s : State) (n : Nat) (f : Die → Die) : (s.updDie n f).decafs = s.decafs := rfl
@[simp] theorem State.updDie_rows (s : State) (n : Nat) (f : Die → Die) : (s.updDie n f).rows = s.rows := rfl
@[simp] theorem State.updDie_cpStopped (s : State) (n : Nat) (f : Die → Die) : (s.updDie n f).cpStopped = s.cpStopped := rfl
@[simp] theorem State.updDie_unitsOut (s : State) (n : Nat) (f : Die → Die) : (s.updDie n f).unitsOut = s.unitsOut := rfl
@[simp] theorem State.updDie_posts (s : State) (n : Nat) (f : Die → Die) : (s.updDie n f).posts = s.posts := rfl
@[simp] theorem State.updDie_agentReports (s : State) (n : Nat) (f : Die → Die) : (s.updDie n f).agentReports = s.agentReports := rfl
@[simp] theorem State.updDie_stops (s : State) (n : Nat) (f : Die → Die) : (s.updDie n f).stops = s.stops := rfl
@[simp] theorem State.updDie_stopping (s : State) (n : Nat) (f : Die → Die) : (s.updDie n f).stopping = s.stopping := rfl
@[simp] theorem State.updDie_agenda (s : State) (n : Nat) (f : Die → Die) : (s.updDie n f).agenda = s.agenda := rfl
@[simp] theorem State.updDie_sel (s : State) (n : Nat) (f : Die → Die) : (s.updDie n f).sel = s.sel := rfl
@[simp] theorem State.updDie_tick (s : State) (n : Nat) (f : Die → Die) : (s.updDie n f).tick = s.tick := rfl
@[simp] theorem State.updDie_hole (s : State) (n : Nat) (f : Die → Die) : (s.updDie n f).hole = s.hole := rfl
@[simp] theorem State.updDie_nextId (s : State) (n : Nat) (f : Die → Die) : (s.updDie n f).nextId = s.nextId := rfl
@[simp] theorem State.updDie_issued (s : State) (n : Nat) (f : Die → Die) : (s.updDie n f).issued = s.issued := rfl

/-! ### updBlk -/

@[simp] theorem State.updBlk_mem (s : State) (b : Nat) (f : Block → Block) : (s.updBlk b f).mem = s.mem := by
  unfold State.updBlk; split <;> rfl
@[simp] theorem State.updBlk_poisoned (s : State) (b : Nat) (f : Block → Block) : (s.updBlk b f).poisoned = s.poisoned := by
  unfold State.updBlk; split <;> rfl
@[simp] theorem State.updBlk_dueErrors (s : State) (b : Nat) (f : Block → Block) : (s.updBlk b f).dueErrors = s.dueErrors := by
  unfold State.updBlk; split <;> rfl
@[simp] theorem State.updBlk_cores (s : State) (b : Nat) (f : Block → Block) : (s.updBlk b f).cores = s.cores := by
  unfold State.updBlk; split <;> rfl
@[simp] theorem State.updBlk_regions (s : State) (b : Nat) (f : Block → Block) : (s.updBlk b f).regions = s.regions := by
  unfold State.updBlk; split <;> rfl
@[simp] theorem State.updBlk_dies (s : State) (b : Nat) (f : Block → Block) : (s.updBlk b f).dies = s.dies := by
  unfold State.updBlk; split <;> rfl
@[simp] theorem State.updBlk_fns (s : State) (b : Nat) (f : Block → Block) : (s.updBlk b f).fns = s.fns := by
  unfold State.updBlk; split <;> rfl
@[simp] theorem State.updBlk_roasts (s : State) (b : Nat) (f : Block → Block) : (s.updBlk b f).roasts = s.roasts := by
  unfold State.updBlk; split <;> rfl
@[simp] theorem State.updBlk_watches (s : State) (b : Nat) (f : Block → Block) : (s.updBlk b f).watches = s.watches := by
  unfold State.updBlk; split <;> rfl
@[simp] theorem State.updBlk_vaults (s : State) (b : Nat) (f : Block → Block) : (s.updBlk b f).vaults = s.vaults := by
  unfold State.updBlk; split <;> rfl
@[simp] theorem State.updBlk_content (s : State) (b : Nat) (f : Block → Block) : (s.updBlk b f).content = s.content := by
  unfold State.updBlk; split <;> rfl
@[simp] theorem State.updBlk_sideTags (s : State) (b : Nat) (f : Block → Block) : (s.updBlk b f).sideTags = s.sideTags := by
  unfold State.updBlk; split <;> rfl
@[simp] theorem State.updBlk_homeTab (s : State) (b : Nat) (f : Block → Block) : (s.updBlk b f).homeTab = s.homeTab := by
  unfold State.updBlk; split <;> rfl
@[simp] theorem State.updBlk_dumpBase (s : State) (b : Nat) (f : Block → Block) : (s.updBlk b f).dumpBase = s.dumpBase := by
  unfold State.updBlk; split <;> rfl
@[simp] theorem State.updBlk_bootFail (s : State) (b : Nat) (f : Block → Block) : (s.updBlk b f).bootFail = s.bootFail := by
  unfold State.updBlk; split <;> rfl
@[simp] theorem State.updBlk_bootState (s : State) (b : Nat) (f : Block → Block) : (s.updBlk b f).bootState = s.bootState := by
  unfold State.updBlk; split <;> rfl
@[simp] theorem State.updBlk_powerCap (s : State) (b : Nat) (f : Block → Block) : (s.updBlk b f).powerCap = s.powerCap := by
  unfold State.updBlk; split <;> rfl
@[simp] theorem State.updBlk_clockMHz (s : State) (b : Nat) (f : Block → Block) : (s.updBlk b f).clockMHz = s.clockMHz := by
  unfold State.updBlk; split <;> rfl
@[simp] theorem State.updBlk_moduleNo (s : State) (b : Nat) (f : Block → Block) : (s.updBlk b f).moduleNo = s.moduleNo := by
  unfold State.updBlk; split <;> rfl
@[simp] theorem State.updBlk_routes (s : State) (b : Nat) (f : Block → Block) : (s.updBlk b f).routes = s.routes := by
  unfold State.updBlk; split <;> rfl
@[simp] theorem State.updBlk_attestation (s : State) (b : Nat) (f : Block → Block) : (s.updBlk b f).attestation = s.attestation := by
  unfold State.updBlk; split <;> rfl
@[simp] theorem State.updBlk_doe (s : State) (b : Nat) (f : Block → Block) : (s.updBlk b f).doe = s.doe := by
  unfold State.updBlk; split <;> rfl
@[simp] theorem State.updBlk_irqs (s : State) (b : Nat) (f : Block → Block) : (s.updBlk b f).irqs = s.irqs := by
  unfold State.updBlk; split <;> rfl
@[simp] theorem State.updBlk_sent (s : State) (b : Nat) (f : Block → Block) : (s.updBlk b f).sent = s.sent := by
  unfold State.updBlk; split <;> rfl
@[simp] theorem State.updBlk_links (s : State) (b : Nat) (f : Block → Block) : (s.updBlk b f).links = s.links := by
  unfold State.updBlk; split <;> rfl
@[simp] theorem State.updBlk_launches (s : State) (b : Nat) (f : Block → Block) : (s.updBlk b f).launches = s.launches := by
  unfold State.updBlk; split <;> rfl
@[simp] theorem State.updBlk_copies (s : State) (b : Nat) (f : Block → Block) : (s.updBlk b f).copies = s.copies := by
  unfold State.updBlk; split <;> rfl
@[simp] theorem State.updBlk_drains (s : State) (b : Nat) (f : Block → Block) : (s.updBlk b f).drains = s.drains := by
  unfold State.updBlk; split <;> rfl
@[simp] theorem State.updBlk_exports (s : State) (b : Nat) (f : Block → Block) : (s.updBlk b f).exports = s.exports := by
  unfold State.updBlk; split <;> rfl
@[simp] theorem State.updBlk_reds (s : State) (b : Nat) (f : Block → Block) : (s.updBlk b f).reds = s.reds := by
  unfold State.updBlk; split <;> rfl
@[simp] theorem State.updBlk_cctls (s : State) (b : Nat) (f : Block → Block) : (s.updBlk b f).cctls = s.cctls := by
  unfold State.updBlk; split <;> rfl
@[simp] theorem State.updBlk_sflushes (s : State) (b : Nat) (f : Block → Block) : (s.updBlk b f).sflushes = s.sflushes := by
  unfold State.updBlk; split <;> rfl
@[simp] theorem State.updBlk_hostQ (s : State) (b : Nat) (f : Block → Block) : (s.updBlk b f).hostQ = s.hostQ := by
  unfold State.updBlk; split <;> rfl
@[simp] theorem State.updBlk_oplog (s : State) (b : Nat) (f : Block → Block) : (s.updBlk b f).oplog = s.oplog := by
  unfold State.updBlk; split <;> rfl
@[simp] theorem State.updBlk_records (s : State) (b : Nat) (f : Block → Block) : (s.updBlk b f).records = s.records := by
  unfold State.updBlk; split <;> rfl
@[simp] theorem State.updBlk_dir (s : State) (b : Nat) (f : Block → Block) : (s.updBlk b f).dir = s.dir := by
  unfold State.updBlk; split <;> rfl
@[simp] theorem State.updBlk_llc (s : State) (b : Nat) (f : Block → Block) : (s.updBlk b f).llc = s.llc := by
  unfold State.updBlk; split <;> rfl
@[simp] theorem State.updBlk_l2 (s : State) (b : Nat) (f : Block → Block) : (s.updBlk b f).l2 = s.l2 := by
  unfold State.updBlk; split <;> rfl
@[simp] theorem State.updBlk_l2Home (s : State) (b : Nat) (f : Block → Block) : (s.updBlk b f).l2Home = s.l2Home := by
  unfold State.updBlk; split <;> rfl
@[simp] theorem State.updBlk_wbs (s : State) (b : Nat) (f : Block → Block) : (s.updBlk b f).wbs = s.wbs := by
  unfold State.updBlk; split <;> rfl
@[simp] theorem State.updBlk_filters (s : State) (b : Nat) (f : Block → Block) : (s.updBlk b f).filters = s.filters := by
  unfold State.updBlk; split <;> rfl
@[simp] theorem State.updBlk_owners (s : State) (b : Nat) (f : Block → Block) : (s.updBlk b f).owners = s.owners := by
  unfold State.updBlk; split <;> rfl
@[simp] theorem State.updBlk_pendReg (s : State) (b : Nat) (f : Block → Block) : (s.updBlk b f).pendReg = s.pendReg := by
  unfold State.updBlk; split <;> rfl
@[simp] theorem State.updBlk_txns (s : State) (b : Nat) (f : Block → Block) : (s.updBlk b f).txns = s.txns := by
  unfold State.updBlk; split <;> rfl
@[simp] theorem State.updBlk_decafs (s : State) (b : Nat) (f : Block → Block) : (s.updBlk b f).decafs = s.decafs := by
  unfold State.updBlk; split <;> rfl
@[simp] theorem State.updBlk_rows (s : State) (b : Nat) (f : Block → Block) : (s.updBlk b f).rows = s.rows := by
  unfold State.updBlk; split <;> rfl
@[simp] theorem State.updBlk_cpStopped (s : State) (b : Nat) (f : Block → Block) : (s.updBlk b f).cpStopped = s.cpStopped := by
  unfold State.updBlk; split <;> rfl
@[simp] theorem State.updBlk_unitsOut (s : State) (b : Nat) (f : Block → Block) : (s.updBlk b f).unitsOut = s.unitsOut := by
  unfold State.updBlk; split <;> rfl
@[simp] theorem State.updBlk_posts (s : State) (b : Nat) (f : Block → Block) : (s.updBlk b f).posts = s.posts := by
  unfold State.updBlk; split <;> rfl
@[simp] theorem State.updBlk_agentReports (s : State) (b : Nat) (f : Block → Block) : (s.updBlk b f).agentReports = s.agentReports := by
  unfold State.updBlk; split <;> rfl
@[simp] theorem State.updBlk_stops (s : State) (b : Nat) (f : Block → Block) : (s.updBlk b f).stops = s.stops := by
  unfold State.updBlk; split <;> rfl
@[simp] theorem State.updBlk_stopping (s : State) (b : Nat) (f : Block → Block) : (s.updBlk b f).stopping = s.stopping := by
  unfold State.updBlk; split <;> rfl
@[simp] theorem State.updBlk_agenda (s : State) (b : Nat) (f : Block → Block) : (s.updBlk b f).agenda = s.agenda := by
  unfold State.updBlk; split <;> rfl
@[simp] theorem State.updBlk_sel (s : State) (b : Nat) (f : Block → Block) : (s.updBlk b f).sel = s.sel := by
  unfold State.updBlk; split <;> rfl
@[simp] theorem State.updBlk_tick (s : State) (b : Nat) (f : Block → Block) : (s.updBlk b f).tick = s.tick := by
  unfold State.updBlk; split <;> rfl
@[simp] theorem State.updBlk_hole (s : State) (b : Nat) (f : Block → Block) : (s.updBlk b f).hole = s.hole := by
  unfold State.updBlk; split <;> rfl
@[simp] theorem State.updBlk_nextId (s : State) (b : Nat) (f : Block → Block) : (s.updBlk b f).nextId = s.nextId := by
  unfold State.updBlk; split <;> rfl
@[simp] theorem State.updBlk_issued (s : State) (b : Nat) (f : Block → Block) : (s.updBlk b f).issued = s.issued := by
  unfold State.updBlk; split <;> rfl

/-! ### What an update reads back as -/

@[simp] theorem State.fn_updFn_self (s : State) (n : Nat) (f : Fn → Fn) : (s.updFn n f).fn n = f (s.fn n) := by
  simp [State.fn, State.updFn]
theorem State.fn_updFn_ne (s : State) {n m : Nat} (f : Fn → Fn) (h : m ≠ n) : (s.updFn n f).fn m = s.fn m := by
  simp [State.fn, State.updFn, Map.get_upd_ne, h]
@[simp] theorem State.core_updCore_self (s : State) (n : Nat) (f : CoreSt → CoreSt) : (s.updCore n f).core n = f (s.core n) := by
  simp [State.core, State.updCore]
theorem State.core_updCore_ne (s : State) {n m : Nat} (f : CoreSt → CoreSt) (h : m ≠ n) :
    (s.updCore n f).core m = s.core m := by
  simp [State.core, State.updCore, Map.get_upd_ne, h]
@[simp] theorem State.region_updRegion_self (s : State) (n : Nat) (f : Region → Region) :
    (s.updRegion n f).region n = f (s.region n) := by
  simp [State.region, State.updRegion]
theorem State.region_updRegion_ne (s : State) {n m : Nat} (f : Region → Region) (h : m ≠ n) :
    (s.updRegion n f).region m = s.region m := by
  simp [State.region, State.updRegion, Map.get_upd_ne, h]
@[simp] theorem State.die_updDie_self (s : State) (n : Nat) (f : Die → Die) : (s.updDie n f).die n = f (s.die n) := by
  simp [State.die, State.updDie]
theorem State.die_updDie_ne (s : State) {n m : Nat} (f : Die → Die) (h : m ≠ n) : (s.updDie n f).die m = s.die m := by
  simp [State.die, State.updDie, Map.get_upd_ne, h]

/-- An update of a block changes the block of its handle, when there is one, and no other. -/
theorem State.blocks_updBlk (s : State) (b : Nat) (f : Block → Block) (j : Nat) :
    (s.updBlk b f).blocks.get none j = if j = b then (s.blocks.get none b).map f else s.blocks.get none j := by
  unfold State.updBlk
  split
  · next h => by_cases hj : j = b <;> simp [hj, h]
  · next k h => by_cases hj : j = b <;> simp [hj, h, Map.get_set]
theorem State.hasBlk_updBlk (s : State) (b : Nat) (f : Block → Block) (j : Nat) : (s.updBlk b f).hasBlk j ↔ s.hasBlk j := by
  unfold State.hasBlk
  rw [State.blocks_updBlk]
  split
  · next h => simp [h]
  · rfl
theorem State.blk_updBlk_self (s : State) (b : Nat) (f : Block → Block) (h : s.hasBlk b) :
    (s.updBlk b f).blk b = f (s.blk b) := by
  obtain ⟨k, hk⟩ := Option.isSome_iff_exists.mp h
  simp [State.blk, State.blocks_updBlk, hk]
theorem State.blk_updBlk_ne (s : State) {b j : Nat} (f : Block → Block) (h : j ≠ b) : (s.updBlk b f).blk j = s.blk j := by
  simp [State.blk, State.blocks_updBlk, h]

/-! ### Threads, warps and registers of a block -/

theorem Block.thr_updThr (k : Block) (t j : Nat) (f : Thread → Thread) :
    (k.updThr t f).thr j = if j = t then f (k.thr t) else k.thr j := Map.get_upd _ _ _ _ _
theorem Block.warp_updWarp (k : Block) (w j : Nat) (f : Warp → Warp) :
    (k.updWarp w f).warp j = if j = w then f (k.warp w) else k.warp j := Map.get_upd _ _ _ _ _

theorem vkey_inj {w r l w' r' l' : Nat} (hr : r < 256) (hr' : r' < 256) (hl : l < 32) (hl' : l' < 32)
    (h : vkey w r l = vkey w' r' l') : w = w' ∧ r = r' ∧ l = l' := by
  unfold vkey at h
  omega

theorem Block.vreg_setVreg (k : Block) (w r l : Nat) (x : Word) (w' r' l' : Nat) :
    (k.setVreg w r l x).vreg w' r' l' = if vkey w' r' l' = vkey w r l then x else k.vreg w' r' l' :=
  Map.get_set _ _ _ _ _
theorem Block.sreg_setSreg (k : Block) (w r : Nat) (x : Word) (w' r' : Nat) :
    (k.setSreg w r x).sreg w' r' = if w' * 64 + r' = w * 64 + r then x else k.sreg w' r' := Map.get_set _ _ _ _ _

/-! ### Predicates (spec/02 R28) -/

@[simp] theorem Thread.pred_seven (t : Thread) : t.pred 7 = true := rfl
@[simp] theorem Thread.setPred_seven (t : Thread) (v : Bool) : t.setPred 7 v = t := rfl

end Sys2Proof.Machine
end

