-- ==== Sys2Proof/Laws/Alu.lean ====
section
/-! SUPPORT. What the issue of an instruction on registers does, said once (`alu_spec`). -/
namespace Sys2Proof

/-- The destination names registers that a warp has. -/
def Dst.fits (w : Nat) : Dst → Prop
  | .v n => n + w ≤ 256
  | .s n => n + w ≤ 64
  | .none => True

end Sys2Proof

namespace Sys2Proof.Machine

/-! ### Advancing threads -/

theorem foldl_upd_get {β : Type} [DecidableEq β] (d : β) (f : β → β) (ts : List Nat) (m : Map β) (x : Nat)
    (hf : ∀ y, f (f y) = f y) :
    (ts.foldl (fun m t => m.upd d t f) m).get d x = if x ∈ ts then f (m.get d x) else m.get d x := by
  induction ts generalizing m with
  | nil => simp
  | cons t ts ih =>
    rw [List.foldl_cons, ih, Map.get_upd]
    by_cases hx : x = t
    · subst hx
      by_cases hm : x ∈ ts <;> simp [hm, hf]
    · by_cases hm : x ∈ ts <;> simp [hm, hx]

/-- The threads given stand at the new address; the others are as they were. -/
theorem Block.thr_advance (k : Block) (ts : List Nat) (pc : DWord) (x : Nat) :
    (k.advance ts pc).thr x = if x ∈ ts then { k.thr x with pc := pc } else k.thr x := by
  unfold Block.advance Block.thr
  exact foldl_upd_get _ _ ts k.threads x fun _ => rfl

@[simp] theorem Block.advance_vregs (k : Block) (ts : List Nat) (pc : DWord) : (k.advance ts pc).vregs = k.vregs := rfl
@[simp] theorem Block.advance_sregs (k : Block) (ts : List Nat) (pc : DWord) : (k.advance ts pc).sregs = k.sregs := rfl
@[simp] theorem Block.advance_vtags (k : Block) (ts : List Nat) (pc : DWord) : (k.advance ts pc).vtags = k.vtags := rfl
@[simp] theorem Block.advance_warps (k : Block) (ts : List Nat) (pc : DWord) : (k.advance ts pc).warps = k.warps := rfl
@[simp] theorem Block.advance_fds (k : Block) (ts : List Nat) (pc : DWord) : (k.advance ts pc).fds = k.fds := rfl
@[simp] theorem Block.advance_vreg (k : Block) (ts : List Nat) (pc : DWord) (w r l : Nat) :
    (k.advance ts pc).vreg w r l = k.vreg w r l := rfl
@[simp] theorem Block.advance_sreg (k : Block) (ts : List Nat) (pc : DWord) (w r : Nat) :
    (k.advance ts pc).sreg w r = k.sreg w r := rfl
@[simp] theorem Block.advance_tag (k : Block) (ts : List Nat) (pc : DWord) (w r : Nat) :
    (k.advance ts pc).tag w r = k.tag w r := rfl
@[simp] theorem Block.advance_warp (k : Block) (ts : List Nat) (pc : DWord) (w : Nat) :
    (k.advance ts pc).warp w = k.warp w := rfl
@[simp] theorem Block.advance_fd (k : Block) (ts : List Nat) (pc : DWord) (w n : Nat) :
    (k.advance ts pc).fd w n = k.fd w n := rfl
@[simp] theorem Block.advance_src (k : Block) (ts : List Nat) (pc : DWord) (t w : Nat) (x : Src) :
    (k.advance ts pc).src t w x = k.src t w x := by cases x <;> rfl
@[simp] theorem Block.advance_num (k : Block) (ts : List Nat) (pc : DWord) (t w : Nat) (x : Src) :
    (k.advance ts pc).num t w x = k.num t w x := by simp [Block.num]
@[simp] theorem Block.advance_word (k : Block) (ts : List Nat) (pc : DWord) (t : Nat) (x : Src) :
    (k.advance ts pc).word t x = k.word t x := by simp [Block.word]
@[simp] theorem Block.advance_pair (k : Block) (ts : List Nat) (pc : DWord) (t : Nat) (x : Src) :
    (k.advance ts pc).pair t x = k.pair t x := by simp [Block.pair]
@[simp] theorem Block.advance_pred (k : Block) (ts : List Nat) (pc : DWord) (t p : Nat) :
    ((k.advance ts pc).thr t).pred p = (k.thr t).pred p := by
  rw [Block.thr_advance]; split <;> rfl
theorem Block.sameRest_advance (k : Block) (ts : List Nat) (pc : DWord) : k.SameRest (k.advance ts pc) := rfl

/-! ### Writing a destination -/

theorem wordAt_ofNat (x j : Nat) (hj : j < 4) : wordAt (BitVec.ofNat 128 x) j = BitVec.ofNat 32 (x / 2 ^ (32 * j)) := by
  apply BitVec.eq_of_toNat_eq
  simp only [wordAt, BitVec.toNat_setWidth, BitVec.toNat_ushiftRight, BitVec.toNat_ofNat, Nat.shiftRight_eq_div_pow]
  have : (2 : Nat) ^ 128 = 2 ^ (32 * j) * 2 ^ (128 - 32 * j) := by rw [← Nat.pow_add]; congr 1; omega
  rw [this, Nat.mod_mul_right_div_self, Nat.mod_mod_of_dvd]
  exact Nat.pow_dvd_pow 2 (by omega)

/-- What a run of writes of vector registers leaves in a register. -/
theorem Block.vreg_putVec (k : Block) (wp n l w : Nat) (x : QWord) (wp' r l' : Nat) (hn : n + w ≤ 256) (hl : l < 32)
    (hr : r < 256) (hl' : l' < 32) :
    (k.putVec wp n l w x).vreg wp' r l' =
      if wp' = wp ∧ l' = l ∧ n ≤ r ∧ r < n + w then wordAt x (r - n) else k.vreg wp' r l' := by
  unfold Block.putVec
  induction w with
  | zero => simp [show ¬ (n ≤ r ∧ r < n) by omega]
  | succ w ih =>
    rw [List.range_succ, List.foldl_append, List.foldl_cons, List.foldl_nil, Block.vreg_setVreg, ih (by omega)]
    by_cases hk : vkey wp' r l' = vkey wp (n + w) l
    · obtain ⟨rfl, rfl, rfl⟩ := vkey_inj hr (by omega) hl' hl hk
      simp
    · rw [if_neg hk]
      by_cases hc : wp' = wp ∧ l' = l ∧ n ≤ r ∧ r < n + w
      · rw [if_pos hc, if_pos ⟨hc.1, hc.2.1, hc.2.2.1, by omega⟩]
      · rw [if_neg hc, if_neg]
        rintro ⟨rfl, rfl, h1, h2⟩
        have : r = n + w := by
          by_contra hne
          exact hc ⟨rfl, rfl, h1, by omega⟩
        exact hk (by rw [this])

theorem Block.sreg_putSca (k : Block) (wp n w : Nat) (x : QWord) (wp' r : Nat) (hn : n + w ≤ 64) (hr : r < 64) :
    (k.putSca wp n w x).sreg wp' r = if wp' = wp ∧ n ≤ r ∧ r < n + w then wordAt x (r - n) else k.sreg wp' r := by
  unfold Block.putSca
  induction w with
  | zero => simp [show ¬ (n ≤ r ∧ r < n) by omega]
  | succ w ih =>
    rw [List.range_succ, List.foldl_append, List.foldl_cons, List.foldl_nil, Block.sreg_setSreg, ih (by omega)]
    by_cases hk : wp' * 64 + r = wp * 64 + (n + w)
    · have h1 : wp' = wp := by omega
      have h2 : r = n + w := by omega
      simp [h1, h2]
    · rw [if_neg hk]
      by_cases hc : wp' = wp ∧ n ≤ r ∧ r < n + w
      · rw [if_pos hc, if_pos ⟨hc.1, hc.2.1, by omega⟩]
      · rw [if_neg hc, if_neg]
        rintro ⟨rfl, h1, h2⟩
        have : r = n + w := by
          by_contra hne
          exact hc ⟨rfl, h1, by omega⟩
        exact hk (by rw [this])

/-- A run of writes for threads whose values depend on their lane alone. -/
theorem Block.vreg_putVecs (vals : List (Nat × QWord)) (F : Nat → QWord) (hF : ∀ e ∈ vals, e.2 = F (laneOf e.1)) (k : Block)
    (wp n w wp' r l' : Nat) (hn : n + w ≤ 256) (hr : r < 256) (hl' : l' < 32) :
    (vals.foldl (fun k e => k.putVec wp n (laneOf e.1) w e.2) k).vreg wp' r l' =
      if wp' = wp ∧ (n ≤ r ∧ r < n + w) ∧ ∃ e ∈ vals, laneOf e.1 = l' then wordAt (F l') (r - n) else k.vreg wp' r l' := by
  induction vals generalizing k with
  | nil => simp
  | cons e vals ih =>
    rw [List.foldl_cons, ih (fun x hx => hF x (by simp [hx])),
      Block.vreg_putVec _ _ _ _ _ _ _ _ _ hn (by unfold laneOf; omega) hr hl']
    have he := hF e (by simp)
    by_cases hw : wp' = wp
    · by_cases hr' : n ≤ r ∧ r < n + w
      · by_cases hx : ∃ x ∈ vals, laneOf x.1 = l'
        · simp [hw, hr', hx]
        · by_cases hl : laneOf e.1 = l'
          · simp [hw, hr', hl, he]
          · simp [hw, hr', hx, hl, Ne.symm hl]
      · simp [hr']
    · simp [hw]

theorem Block.putVec_eq (k : Block) (wp n l w : Nat) (x : QWord) : ∃ v, k.putVec wp n l w x = { k with vregs := v } := by
  unfold Block.putVec
  induction w with
  | zero => exact ⟨k.vregs, rfl⟩
  | succ w ih =>
    obtain ⟨v, hv⟩ := ih
    rw [List.range_succ, List.foldl_append, List.foldl_cons, List.foldl_nil, hv]
    exact ⟨_, rfl⟩
theorem Block.putSca_eq (k : Block) (wp n w : Nat) (x : QWord) : ∃ v, k.putSca wp n w x = { k with sregs := v } := by
  unfold Block.putSca
  induction w with
  | zero => exact ⟨k.sregs, rfl⟩
  | succ w ih =>
    obtain ⟨v, hv⟩ := ih
    rw [List.range_succ, List.foldl_append, List.foldl_cons, List.foldl_nil, hv]
    exact ⟨_, rfl⟩
theorem Block.putTags_eq (k : Block) (wp n w : Nat) (x : Tag) : ∃ v, k.putTags wp n w x = { k with vtags := v } := by
  unfold Block.putTags
  induction w with
  | zero => exact ⟨k.vtags, rfl⟩
  | succ w ih =>
    obtain ⟨v, hv⟩ := ih
    rw [List.range_succ, List.foldl_append, List.foldl_cons, List.foldl_nil, hv]
    exact ⟨_, rfl⟩
theorem Block.putVecs_eq (vals : List (Nat × QWord)) (k : Block) (wp n w : Nat) :
    ∃ v, vals.foldl (fun k e => k.putVec wp n (laneOf e.1) w e.2) k = { k with vregs := v } := by
  induction vals generalizing k with
  | nil => exact ⟨k.vregs, rfl⟩
  | cons e vals ih =>
    obtain ⟨u, hu⟩ := Block.putVec_eq k wp n (laneOf e.1) w e.2
    obtain ⟨v, hv⟩ := ih (k.putVec wp n (laneOf e.1) w e.2)
    rw [List.foldl_cons, hv, hu]
    exact ⟨_, rfl⟩

theorem Block.tag_putTags (k : Block) (wp n w : Nat) (x : Tag) (wp' r : Nat) (hn : n + w ≤ 256) (hr : r < 256) :
    (k.putTags wp n w x).tag wp' r = if wp' = wp ∧ n ≤ r ∧ r < n + w then x else k.tag wp' r := by
  unfold Block.putTags
  induction w with
  | zero => simp [show ¬ (n ≤ r ∧ r < n) by omega]
  | succ w ih =>
    rw [List.range_succ, List.foldl_append, List.foldl_cons, List.foldl_nil]
    have h : ∀ (k : Block) (a c : Nat), (k.setTag wp a x).tag wp' c = if wp' * 256 + c = wp * 256 + a then x else k.tag wp' c :=
      fun k a c => Map.get_set _ _ _ _ _
    rw [h, ih (by omega)]
    by_cases hk : wp' * 256 + r = wp * 256 + (n + w)
    · have h1 : wp' = wp := by omega
      have h2 : r = n + w := by omega
      simp [h1, h2]
    · rw [if_neg hk]
      by_cases hc : wp' = wp ∧ n ≤ r ∧ r < n + w
      · rw [if_pos hc, if_pos ⟨hc.1, hc.2.1, by omega⟩]
      · rw [if_neg hc, if_neg]
        rintro ⟨rfl, h1, h2⟩
        have : r = n + w := by
          by_contra hne
          exact hc ⟨rfl, h1, by omega⟩
        exact hk (by rw [this])

/-- Writing a destination changes registers alone, and their tags. -/
theorem Block.putDst_eq (k : Block) (wp w : Nat) (d : Dst) (vals : List (Nat × QWord)) (tag : Tag) :
    ∃ v g r, k.putDst wp w d vals tag = { k with vregs := v, vtags := g, sregs := r } := by
  cases d with
  | none => exact ⟨_, _, _, rfl⟩
  | s n =>
    cases vals with
    | nil => exact ⟨_, _, _, rfl⟩
    | cons e vals =>
      obtain ⟨r, hr⟩ := Block.putSca_eq k wp n w e.2
      exact ⟨k.vregs, k.vtags, r, hr⟩
  | v n =>
    unfold Block.putDst
    dsimp only
    obtain ⟨v, hv⟩ := Block.putVecs_eq vals k wp n w
    rw [hv]
    split
    · exact ⟨v, _, _, rfl⟩
    · obtain ⟨g, hg⟩ := Block.putTags_eq { k with vregs := v } wp n w
        (if (k.liveOf wp).all fun t => vals.any fun e => e.1 = t then tag else .g)
      exact ⟨v, g, _, hg⟩

/-- The vector registers after a destination has been written: those that it names hold the values of the lanes written. -/
theorem Block.vreg_putDst (k : Block) (wp w : Nat) (d : Dst) (vals : List (Nat × QWord)) (tag : Tag) (F : Nat → QWord)
    (hF : ∀ e ∈ vals, e.2 = F (laneOf e.1)) (hd : d.fits w) (wp' r l : Nat) (hr : r < 256) (hl : l < 32) :
    (k.putDst wp w d vals tag).vreg wp' r l =
      match d with
      | .v n => if wp' = wp ∧ (n ≤ r ∧ r < n + w) ∧ ∃ e ∈ vals, laneOf e.1 = l then wordAt (F l) (r - n) else k.vreg wp' r l
      | _ => k.vreg wp' r l := by
  cases d with
  | none => rfl
  | s n =>
    cases vals with
    | nil => rfl
    | cons e vals =>
      obtain ⟨v, hv⟩ := Block.putSca_eq k wp n w e.2
      show (k.putSca wp n w e.2).vreg wp' r l = _
      rw [hv]
      rfl
  | v n =>
    dsimp only
    rw [← Block.vreg_putVecs vals F hF k wp n w wp' r l hd hr hl]
    unfold Block.putDst
    dsimp only
    split
    · rfl
    · obtain ⟨g, hg⟩ := Block.putTags_eq (vals.foldl (fun k e => k.putVec wp n (laneOf e.1) w e.2) k) wp n w
        (if (k.liveOf wp).all fun t => vals.any fun e => e.1 = t then tag else .g)
      rw [hg]
      rfl

/-- The scalar registers after a destination has been written. -/
theorem Block.sreg_putDst (k : Block) (wp w : Nat) (d : Dst) (vals : List (Nat × QWord)) (tag : Tag) (hd : d.fits w)
    (wp' r : Nat) (hr : r < 64) :
    (k.putDst wp w d vals tag).sreg wp' r =
      match d, vals with
      | .s n, e :: _ => if wp' = wp ∧ n ≤ r ∧ r < n + w then wordAt e.2 (r - n) else k.sreg wp' r
      | _, _ => k.sreg wp' r := by
  cases d with
  | none => rfl
  | s n =>
    cases vals with
    | nil => rfl
    | cons e vals => exact Block.sreg_putSca k wp n w e.2 wp' r hd hr
  | v n =>
    unfold Block.putDst
    dsimp only
    obtain ⟨v, hv⟩ := Block.putVecs_eq vals k wp n w
    rw [hv]
    split
    · rfl
    · obtain ⟨g, hg⟩ := Block.putTags_eq { k with vregs := v } wp n w
        (if (k.liveOf wp).all fun t => vals.any fun e => e.1 = t then tag else .g)
      rw [hg]
      rfl

/-- The tags of registers that a destination does not name stay. -/
theorem Block.tag_putDst (k : Block) (wp w : Nat) (d : Dst) (vals : List (Nat × QWord)) (tag : Tag) (hd : d.fits w)
    (wp' r : Nat) (hr : r < 256) (hn : ¬ (wp' = wp ∧ d.namesV w r)) : (k.putDst wp w d vals tag).tag wp' r = k.tag wp' r := by
  cases d with
  | none => rfl
  | s n =>
    cases vals with
    | nil => rfl
    | cons e vals =>
      obtain ⟨v, hv⟩ := Block.putSca_eq k wp n w e.2
      show (k.putSca wp n w e.2).tag wp' r = _
      rw [hv]
      rfl
  | v n =>
    unfold Block.putDst
    dsimp only
    obtain ⟨v, hv⟩ := Block.putVecs_eq vals k wp n w
    rw [hv]
    split
    · rfl
    · rw [Block.tag_putTags _ _ _ _ _ _ _ hd hr, if_neg]
      · rfl
      · rintro ⟨h1, h2, h3⟩
        exact hn ⟨h1, n, rfl, h2, h3⟩

/-! ### The start of an instruction -/

/-- An instruction that passes its checks starts with Executing; the rest of its bundle goes on. -/
theorem State.enter_spec (s : State) (i : Instr) (f : Uses) (h : s.Passes i f) :
    s.enter (expand i) f =
      (some { s.ctxOf f.h.u with exe := s.executing f.h },
        s.advance s.sel.blk (s.sel.thrs.filter fun t => !(s.executing f.h).contains t) s.sel.next) := by
  have hb : ((s.executing f.h).filter fun t =>
      s.bk.hazardous t s.wp (touches (expand i) f ++ s.bk.tcNames s.wp (expand i))) = [] := by
    rw [List.filter_eq_nil_iff]
    intro t ht
    simp [h.noHazard t ht]
  unfold State.enter
  dsimp only
  have e1 : (s.ctxOf f.h.u).bundle.filter (fun t => ((s.blk (s.ctxOf f.h.u).b).thr t).guard f.h) = s.executing f.h := rfl
  rw [e1]
  have e2 : ((s.executing f.h).filter fun t => (s.blk (s.ctxOf f.h.u).b).hazardous t (s.ctxOf f.h.u).wp
      (touches (expand i) f ++ (s.blk (s.ctxOf f.h.u).b).tcNames (s.ctxOf f.h.u).wp (expand i))) = [] := hb
  rw [e2]
  by_cases hu : f.h.u = true
  · have hun : (s.blk (s.ctxOf f.h.u).b).uniform f (s.ctxOf f.h.u).wp (s.ctxOf f.h.u).bundle = true := h.uniform hu
    rw [hun]
    simp [hu]
    rfl
  · simp [hu, State.raiseAll]
    rfl

/-- What an instruction runs on when it passes its checks. -/
theorem issue_spec (s : State) (i : Instr) (f : Uses) (body : Ctx → State → State) (h : s.Passes i f) :
    issue i s body =
      finish (body { s.ctxOf f.h.u with exe := s.executing f.h }
        (s.advance s.sel.blk (s.sel.thrs.filter fun t => !(s.executing f.h).contains t) s.sel.next)) := by
  unfold issue
  rw [h.row]
  dsimp only
  rw [State.enter_spec s i f h]
  simp [h.runs]

/-! ### Frames -/

theorem State.onlyBlocks_updBlk (s : State) (b : Nat) (f : Block → Block) : s.OnlyBlocks (s.updBlk b f) := by
  unfold State.OnlyBlocks State.updBlk
  split <;> rfl
theorem State.OnlyBlocks.trans {s t u : State} (h : s.OnlyBlocks t) (g : t.OnlyBlocks u) : s.OnlyBlocks u := by
  unfold State.OnlyBlocks at *
  rw [g, h]
theorem State.OnlyBlocks.sel {s t : State} (h : s.OnlyBlocks t) : t.sel = s.sel := by rw [h]
theorem State.OnlyBlocks.hole {s t : State} (h : s.OnlyBlocks t) : t.hole = s.hole := by rw [h]
theorem State.onlyBundle_updBlk (s : State) (f : Block → Block) : s.OnlyBundle (s.updBlk s.sel.blk f) :=
  ⟨s.onlyBlocks_updBlk _ f, fun b hb => by rw [State.blocks_updBlk, if_neg hb]⟩
theorem State.OnlyBundle.trans {s t u : State} (h : s.OnlyBundle t) (g : t.OnlyBundle u) : s.OnlyBundle u :=
  ⟨h.1.trans g.1, fun b hb => by rw [g.2 b (by rw [h.1.sel]; exact hb), h.2 b hb]⟩
theorem State.OnlyBundle.refl (s : State) : s.OnlyBundle s := ⟨rfl, fun _ _ => rfl⟩

/-- Setting flags changes %fs of one warp, and nothing else. -/
theorem State.orFlags_spec (s : State) (wp : Nat) (fl : Flags) (h : s.hasBlk s.sel.blk) :
    s.OnlyBundle (s.orFlags s.sel.blk wp fl) ∧ (s.orFlags s.sel.blk wp fl).hasBlk s.sel.blk ∧
      ∃ m, (s.orFlags s.sel.blk wp fl).blk s.sel.blk = { s.blk s.sel.blk with warps := m } ∧
        ∀ w, Map.get {} m w = if w = wp then { s.bk.warp wp with fs := (s.bk.warp wp).fs ||| fl } else s.bk.warp w := by
  unfold State.orFlags
  split
  · next hf =>
    refine ⟨State.OnlyBundle.refl s, h, (s.blk s.sel.blk).warps, rfl, fun w => ?_⟩
    subst hf
    split
    · next hw =>
      subst hw
      simp [State.bk, Block.warp]
    · rfl
  · refine ⟨State.onlyBundle_updBlk s _, (State.hasBlk_updBlk _ _ _ _).mpr h, _, State.blk_updBlk_self _ _ _ h, fun w => ?_⟩
    exact Map.get_upd _ _ _ _ _

theorem foldl_or_init {α : Type} (q : α → Flags) (l : List α) (a : Flags) :
    l.foldl (fun fl x => fl ||| q x) a = a ||| l.foldl (fun fl x => fl ||| q x) 0 := by
  induction l generalizing a with
  | nil => simp
  | cons x l ih => rw [List.foldl_cons, List.foldl_cons, ih, ih (0 ||| q x)]; simp [BitVec.or_assoc]
theorem foldl_or_const {α β : Type} (q : α → Flags) (x : α) (l : List β) (a : Flags) (h : l ≠ []) :
    (l.map fun _ => x).foldl (fun fl x => fl ||| q x) a = a ||| q x := by
  induction l generalizing a with
  | nil => exact absurd rfl h
  | cons y l ih =>
    rw [List.map_cons, List.foldl_cons]
    by_cases hl : l = []
    · subst hl; rfl
    · rw [ih _ hl, BitVec.or_assoc, BitVec.or_self]

/-- The flags that Executing raises are those of the acting threads. -/
theorem State.acting_flags (s : State) (h : Hdr) (q : Nat → Flags) (a : Flags) (hs : s.executing h ≠ []) :
    ((s.executing h).map (s.actor h)).foldl (fun fl x => fl ||| q x) a =
      a ||| (({ s.ctxOf h.u with exe := s.executing h } : Ctx).acting).foldl (fun fl x => fl ||| q x) 0 := by
  by_cases hu : h.u = true
  · have e : s.actor h = fun _ => s.sel.thrs.headD 0 := by funext t; simp [State.actor, hu]
    rw [e, foldl_or_const q _ _ a hs]
    simp [Ctx.acting, State.ctxOf, hu]
  · have e : s.actor h = id := by funext t; simp [State.actor, hu]
    rw [e, List.map_id, foldl_or_init]
    simp [Ctx.acting, State.ctxOf, hu]

/-- The values of Executing. -/
theorem State.values_mem (s : State) (h : Hdr) (q : Nat → QWord) (e : Nat × QWord) :
    e ∈ ({ s.ctxOf h.u with exe := s.executing h } : Ctx).values q ↔ e.1 ∈ s.executing h ∧ e.2 = q (s.actor h e.1) := by
  obtain ⟨x, v⟩ := e
  by_cases hu : h.u = true
  · simp [Ctx.values, State.ctxOf, State.actor, hu]
    exact fun _ => eq_comm
  · simp [Ctx.values, State.ctxOf, State.actor, hu]
    exact fun _ => eq_comm

/-- The first value is that of the first executing thread. -/
theorem State.values_head (s : State) (h : Hdr) (q : Nat → QWord) (hs : s.executing h ≠ []) :
    ∃ l, ({ s.ctxOf h.u with exe := s.executing h } : Ctx).values q =
      ((s.executing h).headD 0, q (s.actor h ((s.executing h).headD 0))) :: l := by
  obtain ⟨x, l, hx⟩ := List.exists_cons_of_ne_nil hs
  by_cases hu : h.u = true
  · simp [Ctx.values, State.ctxOf, State.actor, hu, hx]
  · simp [Ctx.values, State.ctxOf, State.actor, hu, hx]

/-- What an operation on registers does (spec/03 R56, R57; spec/15 R292): wherever it passes the checks of issue it completes,
its destination holds the results, and nothing else has changed. -/
theorem alu_spec (s : State) (i : Instr) (f : Uses) (w : Nat) (d : Dst) (tag : Block → Nat → Tag) (g : Block → Nat → Res)
    (g' : Nat → Res) (h : s.Passes i f) (hd : d.fits w)
    (hw : w ≤ 4) (hg : ∀ ts pc t, g (s.bk.advance ts pc) t = g' t) :
    ∃ t, alu i s w d tag g = .next t ∧ s.Wrote t f.h w d g' := by
  unfold alu
  rw [issue_spec s i f _ h]
  dsimp only
  set non := s.sel.thrs.filter fun t => !(s.executing f.h).contains t with hnon
  set s1 := s.advance s.sel.blk non s.sel.next with hs1
  set c : Ctx := { s.ctxOf f.h.u with exe := s.executing f.h } with hc
  have hsel1 : s1.sel = s.sel := by rw [hs1]; simp [State.advance]
  have hb1 : s1.hasBlk s.sel.blk := (State.hasBlk_updBlk _ _ _ _).mpr h.hasBlk
  have hk1 : s1.blk s.sel.blk = s.bk.advance non s.sel.next := State.blk_updBlk_self _ _ _ h.hasBlk
  have ho1 : s.OnlyBundle s1 := State.onlyBundle_updBlk s _
  have hcb : c.b = s.sel.blk := rfl
  have hcu : c.u = f.h.u := rfl
  have hcl : c.lead = s.sel.thrs.headD 0 := rfl
  have hcw : c.wp = s.wp := rfl
  have hce : c.exe = s.executing f.h := rfl
  rw [hcb, hk1]
  simp only [hg]
  set q : Nat → QWord := fun t => BitVec.ofNat 128 (g' t).1 with hq
  set F : Nat → QWord := fun l => q (s.actor f.h (s.wp * 32 + l)) with hF
  have hlane : ∀ x ∈ s.executing f.h, s.wp * 32 + laneOf x = x := by
    intro x hx
    have := h.oneWarp x (List.mem_of_mem_filter hx)
    unfold warpOf at this
    unfold laneOf
    omega
  have hvF : ∀ e ∈ c.values q, e.2 = F (laneOf e.1) := by
    intro e he
    obtain ⟨h1, h2⟩ := (State.values_mem s f.h q e).mp he
    rw [hF]
    dsimp only
    rw [hlane e.1 h1, h2]
  set fl := c.acting.foldl (fun fl t => fl ||| (g' t).2) 0 with hfl
  set tg : Tag := if c.u then .u else tag (s.bk.advance non s.sel.next) c.wp with htg
  -- the destination
  set s2 := s1.put c w d q (tag (s.bk.advance non s.sel.next) c.wp) with hs2
  have hb2 : s2.hasBlk s.sel.blk := (State.hasBlk_updBlk _ _ _ _).mpr hb1
  have hk2 : s2.blk s.sel.blk = (s.bk.advance non s.sel.next).putDst c.wp w d (c.values q) tg := by
    have := State.blk_updBlk_self s1 s.sel.blk (fun k => k.putDst c.wp w d (c.values q) tg) hb1
    rw [hk1] at this
    exact this
  have ho2 : s.OnlyBundle s2 := by
    refine ho1.trans ?_
    have := State.onlyBundle_updBlk s1 fun k => k.putDst c.wp w d (c.values q) tg
    rw [hsel1] at this
    exact this
  have hsel2 : s2.sel = s.sel := ho2.1.sel
  -- the flags
  obtain ⟨ho3, hb3, m, hk3, hm⟩ := State.orFlags_spec s2 c.wp fl (by rw [hsel2]; exact hb2)
  set s3 := s2.orFlags s2.sel.blk c.wp fl with hs3
  have ho3 : s.OnlyBundle s3 := ho2.trans ho3
  rw [hsel2] at hb3 hk3
  obtain ⟨v, gg, r, hput⟩ := Block.putDst_eq (s.bk.advance non s.sel.next) c.wp w d (c.values q) tg
  -- the pcs
  set s4 := s3.advance s.sel.blk (s.executing f.h) s.sel.next with hs4
  have hk4 : s4.blk s.sel.blk = (s3.blk s.sel.blk).advance (s.executing f.h) s.sel.next := State.blk_updBlk_self _ _ _ hb3
  have ho4 : s.OnlyBundle s4 := by
    refine ho3.trans ?_
    have := State.onlyBundle_updBlk s3 fun k => k.advance (s.executing f.h) s.sel.next
    rw [ho3.1.sel] at this
    exact this
  have hgoal : finish ((s2.orFlags s.sel.blk c.wp fl).advance s.sel.blk c.exe c.next) = .next s4 := by
    have : (s2.orFlags s.sel.blk c.wp fl).advance s.sel.blk c.exe c.next = s4 := by rw [hs4, hs3, hsel2]; rfl
    rw [this]
    unfold finish
    rw [ho4.1.hole, h.noHole]
    rfl
  refine ⟨s4, hgoal, ?_⟩
  have hbk4 : s4.bk = s4.blk s.sel.blk := by unfold State.bk; rw [ho4.1.sel]
  have hw2 : ∀ w', s2.bk.warp w' = s.bk.warp w' := by
    intro w'
    have : s2.bk = (s.bk.advance non s.sel.next).putDst c.wp w d (c.values q) tg := by
      unfold State.bk; rw [hsel2]; exact hk2
    rw [this, hput]
    rfl
  have hvr : ∀ wp' r' l, s4.bk.vreg wp' r' l = ((s.bk.advance non s.sel.next).putDst c.wp w d (c.values q) tg).vreg wp' r' l := by
    intro wp' r' l
    rw [hbk4, hk4, hk3, hk2]
    rfl
  have hsr : ∀ wp' r', s4.bk.sreg wp' r' = ((s.bk.advance non s.sel.next).putDst c.wp w d (c.values q) tg).sreg wp' r' := by
    intro wp' r'
    rw [hbk4, hk4, hk3, hk2]
    rfl
  have hwr : ∀ w', s4.bk.warp w' = Map.get {} m w' := by
    intro w'
    rw [hbk4, hk4, hk3]
    rfl
  have hth : ∀ x, s4.bk.thr x = if x ∈ s.sel.thrs then { s.bk.thr x with pc := s.sel.next } else s.bk.thr x := by
    intro x
    rw [hbk4, hk4, Block.thr_advance, hk3, hk2]
    have e : ({ (s.bk.advance non s.sel.next).putDst c.wp w d (c.values q) tg with warps := m } : Block).thr x =
        (s.bk.advance non s.sel.next).thr x := by rw [hput]; rfl
    rw [e, Block.thr_advance]
    by_cases hx : x ∈ s.executing f.h
    · have hx' : x ∈ s.sel.thrs := List.mem_of_mem_filter hx
      have hn : x ∉ non := by simp [hnon, hx]
      simp [hx, hx', hn]
    · by_cases hx' : x ∈ s.sel.thrs
      · have hn : x ∈ non := by simp [hnon, hx, hx']
        simp [hx, hx', hn]
      · have hn : x ∉ non := by simp [hnon, hx']
        simp [hx, hx', hn]
  have hlane32 : ∀ x, laneOf x < 32 := fun x => by unfold laneOf; omega
  constructor
  · rintro n rfl x hx j hj
    rw [hvr, Block.vreg_putDst _ _ _ _ _ _ F hvF hd _ _ _ (by have : n + w ≤ 256 := hd; omega) (hlane32 x)]
    dsimp only
    have hex : ∃ e ∈ c.values q, laneOf e.1 = laneOf x := by
      refine ⟨(x, q (s.actor f.h x)), (State.values_mem s f.h q _).mpr ⟨hx, rfl⟩, rfl⟩
    rw [if_pos ⟨hcw.symm, ⟨by omega, by omega⟩, hex⟩, hF]
    dsimp only
    rw [hlane x hx, Nat.add_sub_cancel_left, hq]
    exact wordAt_ofNat _ _ (by omega)
  · rintro n rfl j hj
    obtain ⟨l, hl⟩ := State.values_head s f.h q h.runs
    have hl : c.values q = _ := hl
    rw [hsr, Block.sreg_putDst _ _ _ _ _ _ hd _ _ (by have : n + w ≤ 64 := hd; omega), hl]
    dsimp only
    rw [if_pos ⟨hcw.symm, by omega, by omega⟩, Nat.add_sub_cancel_left, hq]
    exact wordAt_ofNat _ _ (by omega)
  · rw [State.acting_flags s f.h (fun x => (g' x).2) _ h.runs, hwr, hm, if_pos hcw.symm]
    show (s2.bk.warp c.wp).fs ||| fl = _
    rw [hw2, hcw]
  · intro x hx
    rw [hth x, if_pos hx]
  · intro wp' r' l hr hl hn
    rw [hvr, Block.vreg_putDst _ _ _ _ _ _ F hvF hd _ _ _ hr hl]
    cases d with
    | none => rfl
    | s n => rfl
    | v n =>
      dsimp only
      rw [if_neg]
      · rfl
      · rintro ⟨h1, h2, e, he, h3⟩
        exact hn ⟨h1, ⟨n, rfl, h2.1, h2.2⟩, e.1, ((State.values_mem s f.h q e).mp he).1, h3⟩
  · intro wp' r' hr hn
    have : s4.bk.tag wp' r' = ((s.bk.advance non s.sel.next).putDst c.wp w d (c.values q) tg).tag wp' r' := by
      rw [hbk4, hk4, hk3, hk2]
      rfl
    rw [this, hcw, Block.tag_putDst _ _ _ _ _ _ hd _ _ hr hn]
    rfl
  · intro wp' r' hr hn
    obtain ⟨l, hl⟩ := State.values_head s f.h q h.runs
    have hl : c.values q = _ := hl
    rw [hsr, Block.sreg_putDst _ _ _ _ _ _ hd _ _ hr, hl]
    cases d with
    | none => rfl
    | v n => rfl
    | s n =>
      dsimp only
      rw [if_neg]
      · rfl
      · rintro ⟨h1, h2, h3⟩
        exact hn ⟨h1, n, rfl, h2, h3⟩
  · intro x
    rw [hth x]
    split <;> rfl
  · intro x hx
    rw [hth x, if_neg hx]
  · intro w'
    rw [hwr, hm]
    split
    · next hw' => subst hw'; rw [hw2]
    · rw [hw2]
  · intro w' hw'
    rw [hwr, hm, if_neg (fun e => hw' (e.trans hcw)), hw2]
  · unfold Block.SameRest
    rw [hbk4, hk4, hk3, hk2, hput]
    rfl
  · exact ho4

/-! ### Destinations of well-formed instructions -/

theorem fits_of_dstWf {w : Nat} {u : Bool} {d : Dst} (h : d.wf w u = true) (hw : w = 1 ∨ w = 2 ∨ w = 4) : d.fits w := by
  cases d with
  | none => trivial
  | v n =>
    have h : (decide (n ≠ 255) && vecOk w n) = true := h
    simp only [vecOk, Bool.and_eq_true, Bool.or_eq_true, decide_eq_true_eq] at h
    show n + w ≤ 256
    omega
  | s n =>
    simp only [Dst.wf, scaOk, Bool.and_eq_true, Bool.or_eq_true, decide_eq_true_eq] at h
    show n + w ≤ 64
    obtain ⟨⟨⟨-, h1⟩, h2⟩, h3⟩ := h
    rcases hw with rfl | rfl | rfl <;> simp at h3 <;> omega

/-- The destination of an extended instruction names registers that a warp has. -/
theorem State.Passes.fits {s : State} {i : Instr} {f : Uses} {w : Nat} {d : Dst} (h : s.Passes i f) (hb : baseOf i = none)
    (hi : expand i = i) (hd : f.d = .vs w d) (hw : w = 1 ∨ w = 2 ∨ w = 4) : d.fits w := by
  have hwf := h.wf
  have hrow := h.row
  rw [hi] at hrow
  unfold wellFormed at hwf
  rw [hb] at hwf
  dsimp only at hwf
  rw [hrow] at hwf
  dsimp only at hwf
  unfold Uses.wf at hwf
  simp only [Bool.and_eq_true] at hwf
  have : f.d.wf f.h.u = true := by tauto
  rw [hd] at this
  exact fits_of_dstWf this hw

/-- The destination of a base form names registers that a warp has. -/
theorem State.Passes.fits_base {s : State} {i : Instr} {f : Uses} {w op : Nat} {b : BaseF} (h : s.Passes i f)
    (hb : baseOf i = some (op, b)) (hd : f.d = .vs w b.dst) (hw : w = 1 ∨ w = 2 ∨ w = 4) : b.dst.fits w := by
  have hwf := h.wf
  unfold wellFormed at hwf
  rw [hb] at hwf
  dsimp only at hwf
  rw [h.row] at hwf
  dsimp only at hwf
  unfold BaseF.wf at hwf
  simp only [Bool.and_eq_true, hd] at hwf
  have h2 : decide (b.d < 64) = true ∧ baseIdxOk b.u (DSpec.vs w b.dst).regs b.d = true := by
    have := hwf.1.1.2
    simpa using this
  obtain ⟨h1, h2⟩ := h2
  have h1 : b.d < 64 := by simpa using h1
  unfold BaseF.dst
  unfold baseIdxOk at h2
  simp only [Bool.and_eq_true, Bool.or_eq_true, decide_eq_true_eq, DSpec.regs, Bool.not_eq_true'] at h2
  split
  · next hu =>
    split
    · trivial
    · show b.d + w ≤ 64
      rcases hw with rfl | rfl | rfl <;> simp [hu] at h2 <;> omega
  · show b.d + w ≤ 256
    rcases hw with rfl | rfl | rfl <;> omega

/-- An instruction whose meaning is an operation on registers computes. -/
theorem computes_of_alu {s : State} {i : Instr} {w : Nat} {d : Dst} {tag : Block → Nat → Tag} {g : Block → Nat → Res}
    {g' : Nat → Res} (he : exec i s = alu i s w d tag g) (hd : ∀ f, s.Passes i f → d.fits w) (hw : w ≤ 4)
    (hg : ∀ ts pc t, g (s.bk.advance ts pc) t = g' t) : Computes s i w d g' := fun f h => by
  rw [he]
  exact alu_spec s i f w d tag g g' h (hd f h) hw hg

end Sys2Proof.Machine
end

