-- ==== Sys2Proof/Laws/Values.lean ====
section
/-! SUPPORT. The operand values and the integer types of the model in terms of bit vectors. -/
namespace Sys2Proof

open Sys2Proof.Machine

theorem Ty.read_i32 (x : Word) : Ty.i32.read x.toNat = x.toInt := by
  have hx := x.isLt
  show (if (true && decide (2 ^ 31 ≤ x.toNat % 2 ^ 32)) = true then ((x.toNat % 2 ^ 32 : Nat) : Int) - 2 ^ 32 else
    ((x.toNat % 2 ^ 32 : Nat) : Int)) = _
  simp only [Bool.true_and, decide_eq_true_eq, Nat.mod_eq_of_lt hx, BitVec.toInt]
  split <;> split <;> omega
theorem Ty.read_n32 (x : Word) : Ty.n32.read x.toNat = x.toNat := by
  have hx := x.isLt
  show ((x.toNat % 2 ^ 32 : Nat) : Int) = _
  rw [Nat.mod_eq_of_lt hx]
theorem Ty.read_i64 (x : DWord) : Ty.i64.read x.toNat = x.toInt := by
  have hx := x.isLt
  show (if (true && decide (2 ^ 63 ≤ x.toNat % 2 ^ 64)) = true then ((x.toNat % 2 ^ 64 : Nat) : Int) - 2 ^ 64 else
    ((x.toNat % 2 ^ 64 : Nat) : Int)) = _
  simp only [Bool.true_and, decide_eq_true_eq, Nat.mod_eq_of_lt hx, BitVec.toInt]
  split <;> split <;> omega
theorem Ty.read_n64 (x : DWord) : Ty.n64.read x.toNat = x.toNat := by
  have hx := x.isLt
  show ((x.toNat % 2 ^ 64 : Nat) : Int) = _
  rw [Nat.mod_eq_of_lt hx]

theorem modPow_eq (z : Int) (n : Nat) : modPow z n = (BitVec.ofInt n z).toNat := by
  simp [modPow, BitVec.toNat_ofInt]
theorem modPow_lt (z : Int) (n : Nat) : modPow z n < 2 ^ n := by
  rw [modPow_eq]; exact (BitVec.ofInt n z).isLt

theorem Ty.write_i32 (z : Int) : Ty.i32.write z = (BitVec.ofInt 32 z).toNat := by
  have e : Ty.i32.read (modPow z Ty.i32.bits) = (BitVec.ofInt 32 z).toInt := by
    rw [modPow_eq]; exact Ty.read_i32 _
  unfold Ty.write
  rw [e]
  show modPow _ 32 = _
  rw [modPow_eq, BitVec.ofInt_toInt]
theorem Ty.write_n32 (z : Int) : Ty.n32.write z = (BitVec.ofInt 32 z).toNat := by
  have e : Ty.n32.read (modPow z Ty.n32.bits) = ((BitVec.ofInt 32 z).toNat : Int) := by
    rw [modPow_eq]; exact Ty.read_n32 _
  unfold Ty.write
  rw [e]
  show modPow _ 32 = _
  rw [modPow_eq, BitVec.toNat_ofInt, BitVec.toNat_ofInt]
  omega
theorem Ty.write_i64 (z : Int) : Ty.i64.write z = (BitVec.ofInt 64 z).toNat := by
  have e : Ty.i64.read (modPow z Ty.i64.bits) = (BitVec.ofInt 64 z).toInt := by
    rw [modPow_eq]; exact Ty.read_i64 _
  unfold Ty.write
  rw [e]
  show modPow _ 64 = _
  rw [modPow_eq, BitVec.ofInt_toInt]
theorem Ty.write_n64 (z : Int) : Ty.n64.write z = (BitVec.ofInt 64 z).toNat := by
  have e : Ty.n64.read (modPow z Ty.n64.bits) = ((BitVec.ofInt 64 z).toNat : Int) := by
    rw [modPow_eq]; exact Ty.read_n64 _
  unfold Ty.write
  rw [e]
  show modPow _ 64 = _
  rw [modPow_eq, BitVec.toNat_ofInt, BitVec.toNat_ofInt]
  omega

end Sys2Proof

namespace Sys2Proof.Machine

/-- A source of one register as a number. -/
theorem Block.num_one (k : Block) (t : Nat) (x : Src) : k.num t 1 x = (k.word t x).toNat := by
  unfold Block.num Block.word
  have h : (k.src t 1 x).toNat < 2 ^ 32 := by
    cases x with
    | v n => simp only [Block.src, gatherWords, joinWords, if_true, BitVec.toNat_append]; simp; exact BitVec.isLt _
    | s n => simp only [Block.src, gatherWords, joinWords, if_true, BitVec.toNat_append]; simp; exact BitVec.isLt _
    | zero => simp [Block.src]
    | lit y => simp only [Block.src, if_true, BitVec.toNat_setWidth]; omega
  rw [BitVec.toNat_setWidth, Nat.mod_eq_of_lt h]

/-- A source of two registers as a number. -/
theorem Block.num_two (k : Block) (t : Nat) (x : Src) : k.num t 2 x = (k.pair t x).toNat := by
  unfold Block.num Block.pair
  have h : (k.src t 2 x).toNat < 2 ^ 64 := by
    have lo : ∀ a b : Word, (joinWords a b 0 0).toNat < 2 ^ 64 := by
      intro a b
      simp only [joinWords, BitVec.toNat_append]
      simp
      exact (b ++ a).isLt
    cases x with
    | v n => exact lo _ _
    | s n => exact lo _ _
    | zero => simp [Block.src]
    | lit y => simp only [Block.src]; have := y.isLt; simp; omega
  rw [BitVec.toNat_setWidth, Nat.mod_eq_of_lt h]

end Sys2Proof.Machine
end

