-- ==== Sys2Proof/Laws/Issue.lean ====
section
/-! SUPPORT. What the issue of an instruction that writes a predicate, and of a long-latency instruction on registers, does. -/
namespace Sys2Proof.Machine

/-! ### Predicates -/

theorem Thread.pred_setPred (t : Thread) (p q : Nat) (v : Bool) (hp : p < 7) :
    (t.setPred p v).pred q = if q = p then v else t.pred q := by
  unfold Thread.setPred Thread.pred
  rw [if_pos hp]
  by_cases hq : q = 7
  · subst hq
    simp [show (7 : Nat) ≠ p by omega]
  · by_cases hqp : q = p
    · subst hqp
      cases v <;> simp [hq, hp]
    · cases v
      · simp only [hq, hqp, if_false, Bool.false_eq_true]
        rw [BitVec.getLsbD_and, BitVec.getLsbD_not, BitVec.getLsbD_shiftLeft]
        by_cases h7 : q < 7
        · simp [h7]
          omega
        · simp [BitVec.getLsbD_of_ge _ _ (by omega : 7 ≤ q)]
      · simp [hq, hqp]
        omega

theorem Thread.setPred_eq (t : Thread) (p : Nat) (v : Bool) : t.setPred p v = { t with preds := (t.setPred p v).preds } := by
  unfold Thread.setPred
  split <;> rfl

theorem Thread.setPred_ge (t : Thread) (p : Nat) (v : Bool) (hp : ¬ p < 7) : t.setPred p v = t := by
  unfold Thread.setPred
  rw [if_neg hp]

theorem Thread.setPred_setPred (t : Thread) (p : Nat) (v : Bool) : (t.setPred p v).setPred p v = t.setPred p v := by
  unfold Thread.setPred
  split
  · have e : ∀ (a b : BitVec 7), a ||| b ||| b = a ||| b := fun a b => by rw [BitVec.or_assoc, BitVec.or_self]
    have e' : ∀ (a b : BitVec 7), a &&& b &&& b = a &&& b := fun a b => by rw [BitVec.and_assoc, BitVec.and_self]
    cases v <;> simp [e, e']
  · rfl

/-- Changes of several threads, each by its own number. -/
theorem foldl_updBy_get {β : Type} [DecidableEq β] (d : β) (f : Nat → β → β) (ts : List Nat) (m : Map β) (x : Nat)
    (hf : ∀ n y, f n (f n y) = f n y) :
    (ts.foldl (fun m t => m.upd d t (f t)) m).get d x = if x ∈ ts then f x (m.get d x) else m.get d x := by
  induction ts generalizing m with
  | nil => simp
  | cons t ts ih =>
    rw [List.foldl_cons, ih, Map.get_upd]
    by_cases hx : x = t
    · subst hx
      by_cases hm : x ∈ ts <;> simp [hm, hf]
    · by_cases hm : x ∈ ts <;> simp [hm, hx]

/-- The states of the bundle's threads when all of it has gone on: those that did not execute first, then Executing. -/
theorem State.mem_bundle (s : State) (h : Hdr) (x : Nat) :
    x ∈ s.sel.thrs ↔ x ∈ s.executing h ∨ x ∈ s.sel.thrs.filter fun t => !(s.executing h).contains t := by
  constructor
  · intro hx
    by_cases hm : x ∈ s.executing h
    · exact Or.inl hm
    · exact Or.inr (by simp [hx, hm])
  · rintro (hx | hx)
    · exact List.mem_of_mem_filter hx
    · exact List.mem_of_mem_filter hx

/-- What an operation that writes a predicate does (spec/02 R28; spec/03 R56; spec/07 R138, R148). -/
theorem aluPred_spec (s : State) (i : Instr) (f : Uses) (p : Nat) (g : Block → Nat → Bool × Flags) (g' : Nat → Bool × Flags)
    (h : s.Passes i f) (hg : ∀ ts pc t, g (s.bk.advance ts pc) t = g' t) :
    ∃ t, aluPred i s p g = .next t ∧ s.Decided t f.h p g' := by
  unfold aluPred
  rw [issue_spec s i f _ h]
  dsimp only
  set non := s.sel.thrs.filter fun t => !(s.executing f.h).contains t with hnon
  set s1 := s.advance s.sel.blk non s.sel.next with hs1
  set c : Ctx := { s.ctxOf f.h.u with exe := s.executing f.h } with hc
  have hsel1 : s1.sel = s.sel := by rw [hs1]; simp [State.advance]
  have hb1 : s1.hasBlk s.sel.blk := (State.hasBlk_updBlk _ _ _ _).mpr h.hasBlk
  have hk1 : s1.blk s.sel.blk = s.bk.advance non s.sel.next := State.blk_updBlk_self _ _ _ h.hasBlk
  have ho1 : s.OnlyBundle s1 := State.onlyBundle_updBlk s _
  have hcb : c.b = s.sel.blk := rfl
  have hcw : c.wp = s.wp := rfl
  rw [hcb, hk1]
  simp only [hg]
  set fl := c.acting.foldl (fun fl t => fl ||| (g' t).2) 0 with hfl
  set F : Nat → Thread → Thread := fun t th => th.setPred p (g' (s.actor f.h t)).1 with hF
  set s2 := s1.putPred c p (fun t => (g' t).1) with hs2
  have hb2 : s2.hasBlk s.sel.blk := (State.hasBlk_updBlk _ _ _ _).mpr hb1
  have hk2 : s2.blk s.sel.blk =
      { s.bk.advance non s.sel.next with
        threads := (s.executing f.h).foldl (fun (m : Map Thread) t => m.upd {} t (F t)) (s.bk.advance non s.sel.next).threads } := by
    have := State.blk_updBlk_self s1 s.sel.blk (fun k =>
      { k with threads := (s.executing f.h).foldl (fun (m : Map Thread) t => m.upd {} t (F t)) k.threads }) hb1
    rw [hk1] at this
    exact this
  have ho2 : s.OnlyBundle s2 := by
    refine ho1.trans ?_
    have := State.onlyBundle_updBlk s1 fun k =>
      { k with threads := (s.executing f.h).foldl (fun (m : Map Thread) t => m.upd {} t (F t)) k.threads }
    rw [hsel1] at this
    exact this
  have hsel2 : s2.sel = s.sel := ho2.1.sel
  obtain ⟨ho3, hb3, m, hk3, hm⟩ := State.orFlags_spec s2 c.wp fl (by rw [hsel2]; exact hb2)
  set s3 := s2.orFlags s2.sel.blk c.wp fl with hs3
  have ho3 : s.OnlyBundle s3 := ho2.trans ho3
  rw [hsel2] at hb3 hk3
  set s4 := s3.advance s.sel.blk (s.executing f.h) s.sel.next with hs4
  have hk4 : s4.blk s.sel.blk = (s3.blk s.sel.blk).advance (s.executing f.h) s.sel.next := State.blk_updBlk_self _ _ _ hb3
  have ho4 : s.OnlyBundle s4 := by
    refine ho3.trans ?_
    have := State.onlyBundle_updBlk s3 fun k => k.advance (s.executing f.h) s.sel.next
    rw [ho3.1.sel] at this
    exact this
  have hgoal : finish ((s2.orFlags s.sel.blk c.wp fl).advance s.sel.blk c.exe c.next) = .next s4 := by
    have : (s2.orFlags s.sel.blk c.wp fl).advance s.sel.blk c.exe c.next = s4 := by rw [hs4, hs3, hsel2]; rfl
    rw [this]
    unfold finish
    rw [ho4.1.hole, h.noHole]
    rfl
  refine ⟨s4, hgoal, ?_⟩
  have hbk4 : s4.bk = s4.blk s.sel.blk := by unfold State.bk; rw [ho4.1.sel]
  have hw2 : ∀ w', s2.bk.warp w' = s.bk.warp w' := by
    intro w'
    unfold State.bk
    rw [hsel2, hk2]
    rfl
  have hwr : ∀ w', s4.bk.warp w' = Map.get {} m w' := by
    intro w'
    rw [hbk4, hk4, hk3]
    rfl
  have hth : ∀ x, s4.bk.thr x =
      if x ∈ s.executing f.h then { F x (s.bk.thr x) with pc := s.sel.next }
      else if x ∈ s.sel.thrs then { s.bk.thr x with pc := s.sel.next } else s.bk.thr x := by
    intro x
    rw [hbk4, hk4, Block.thr_advance, hk3, hk2]
    have e : ({ { s.bk.advance non s.sel.next with
        threads := (s.executing f.h).foldl (fun (m : Map Thread) t => m.upd {} t (F t)) (s.bk.advance non s.sel.next).threads } with
          warps := m } : Block).thr x =
        if x ∈ s.executing f.h then F x ((s.bk.advance non s.sel.next).thr x) else (s.bk.advance non s.sel.next).thr x :=
      foldl_updBy_get _ F _ _ x fun n y => Thread.setPred_setPred _ _ _
    rw [e, Block.thr_advance]
    by_cases hx : x ∈ s.executing f.h
    · have hn : x ∉ non := by simp [hnon, hx]
      simp [hx, hn]
    · by_cases hx' : x ∈ s.sel.thrs
      · have hn : x ∈ non := by simp [hnon, hx, hx']
        simp [hx, hx', hn]
      · have hn : x ∉ non := by simp [hnon, hx']
        simp [hx, hx', hn]
  have hFeq : ∀ n y, F n y = { y with preds := (F n y).preds } := fun n y => Thread.setPred_eq _ _ _
  constructor
  · intro hp x hx
    rw [hth, if_pos hx]
    show (F x (s.bk.thr x)).pred p = _
    rw [hF]
    simp [Thread.pred_setPred _ _ _ _ hp]
  · rw [State.acting_flags s f.h (fun x => (g' x).2) _ h.runs, hwr, hm, if_pos hcw.symm]
    show (s2.bk.warp c.wp).fs ||| fl = _
    rw [hw2, hcw]
  · intro x hx
    rw [hth]
    by_cases he : x ∈ s.executing f.h
    · rw [if_pos he]
    · rw [if_neg he, if_pos hx]
  · intro x q hn
    rw [hth]
    split
    · next hx =>
      show (F x (s.bk.thr x)).pred q = _
      by_cases hp : p < 7
      · rw [hF]
        simp only [Thread.pred_setPred _ _ _ _ hp]
        rw [if_neg fun e => hn ⟨hx, e⟩]
      · rw [hF]
        simp only [Thread.setPred_ge _ _ _ hp]
    · split <;> rfl
  · intro x
    rw [hth]
    split
    · rw [hFeq x (s.bk.thr x)]
    · split <;> rfl
  · intro x hx
    have he : x ∉ s.executing f.h := fun e => hx (List.mem_of_mem_filter e)
    rw [hth, if_neg he, if_neg hx]
  · intro w'
    rw [hwr, hm]
    split
    · next hw' => subst hw'; rw [hw2]
    · rw [hw2]
  · intro w' hw'
    rw [hwr, hm, if_neg (fun e => hw' (e.trans hcw)), hw2]
  · rw [hbk4, hk4, hk3, hk2]
    exact ⟨rfl, rfl, rfl⟩
  · unfold Block.SameRest
    rw [hbk4, hk4, hk3, hk2]
    rfl
  · exact ho4

/-! ### Long-latency instructions on registers -/

theorem countPositions_twice (a b : List Nat) (l : List Pending) (hd : ∀ x, ¬ (x ∈ a ∧ x ∈ b)) (c : List Nat)
    (hc : ∀ x, x ∈ c ↔ x ∈ a ∨ x ∈ b) : countPositions b (countPositions a l) = countPositions c l := by
  unfold countPositions
  rw [List.map_map]
  refine List.map_congr_left fun p _ => ?_
  simp only [Function.comp]
  congr 1
  rw [List.map_map]
  refine List.map_congr_left fun e _ => ?_
  have h1 := hd e.1
  have h2 := hc e.1
  by_cases ha : e.1 ∈ a <;> by_cases hb : e.1 ∈ b <;> simp_all [Function.comp]

/-- What a long-latency operation on registers does at issue (spec/03 R58, R59; spec/07 R150). -/
theorem aluLong_spec (s : State) (i : Instr) (f : Uses) (w : Nat) (d : Dst) (tag : Block → Nat → Tag) (g : Block → Nat → Res)
    (g' : Nat → Res) (h : s.Passes i f) (hg : ∀ ts pc t, g (s.bk.advance ts pc) t = g' t) :
    ∃ t, aluLong i s f.h w d tag g = .next t ∧ s.Pended t f.h w d g' := by
  unfold aluLong
  rw [issue_spec s i f _ h]
  dsimp only
  set non := s.sel.thrs.filter fun t => !(s.executing f.h).contains t with hnon
  set s1 := s.advance s.sel.blk non s.sel.next with hs1
  set c : Ctx := { s.ctxOf f.h.u with exe := s.executing f.h } with hc
  have hsel1 : s1.sel = s.sel := by rw [hs1]; simp [State.advance]
  have hb1 : s1.hasBlk s.sel.blk := (State.hasBlk_updBlk _ _ _ _).mpr h.hasBlk
  have hk1 : s1.blk s.sel.blk = s.bk.advance non s.sel.next := State.blk_updBlk_self _ _ _ h.hasBlk
  have ho1 : s.OnlyBundle s1 := State.onlyBundle_updBlk s _
  have hcb : c.b = s.sel.blk := rfl
  have hce : c.exe = s.executing f.h := rfl
  rw [hcb, hk1]
  simp only [hg]
  set s2 := s1.advance s.sel.blk c.exe c.next with hs2
  have hb2 : s2.hasBlk s.sel.blk := (State.hasBlk_updBlk _ _ _ _).mpr hb1
  have hk2 : s2.blk s.sel.blk = (s.bk.advance non s.sel.next).advance (s.executing f.h) s.sel.next := by
    have := State.blk_updBlk_self s1 s.sel.blk (fun k => k.advance c.exe c.next) hb1
    rw [hk1] at this
    exact this
  have ho2 : s.OnlyBundle s2 := by
    refine ho1.trans ?_
    have := State.onlyBundle_updBlk s1 fun k => k.advance c.exe c.next
    rw [hsel1] at this
    exact this
  have hne : c.exe ≠ [] := h.runs
  unfold State.pend
  rw [if_neg hne]
  dsimp only [State.newId]
  have hid : s2.nextId = s.nextId := by rw [ho2.1]
  set p : Pending :=
    { id := s2.nextId, pc := c.pc, la := f.h.la, thrs := c.exe.map fun t => (t, 0), dst := d, w := w, warp := c.wp,
      part := (State.blk { s2 with nextId := s2.nextId + 1 } c.b).partOf c.wp,
      result := .regs d w (c.values fun t => BitVec.ofNat 128 (g' t).1)
        (if c.u = true then .u else tag (s.bk.advance non s.sel.next) c.wp),
      flags := c.acting.foldl (fun fl t => fl ||| (g' t).2) 0, ready := true } with hp
  set s3 : State := { s2 with nextId := s2.nextId + 1 } with hs3
  have hb3 : s3.hasBlk s.sel.blk := hb2
  have hk3 : s3.blk s.sel.blk = (s.bk.advance non s.sel.next).advance (s.executing f.h) s.sel.next := hk2
  set s4 := s3.updBlk s.sel.blk fun k => { k with pend := k.pend ++ [p] } with hs4
  have hk4 : s4.blk s.sel.blk = { s3.blk s.sel.blk with pend := (s3.blk s.sel.blk).pend ++ [p] } :=
    State.blk_updBlk_self _ _ _ hb3
  have ho4 : s3.OnlyBlocks s4 := State.onlyBlocks_updBlk _ _ _
  have hs4eq : s4 = { s with blocks := s4.blocks, nextId := s.nextId + 1 } := by
    have e3 : s3 = { s with blocks := s3.blocks, nextId := s.nextId + 1 } := by rw [hs3, hid]; rw [ho2.1]
    rw [ho4, e3]
  have hgoal : finish s4 = .next s4 := by
    unfold finish
    rw [hs4eq, h.noHole]
    rfl
  refine ⟨s4, hgoal, ?_⟩
  have hsel4 : s4.sel = s.sel := by rw [hs4eq]
  have hbk4 : s4.bk = s4.blk s.sel.blk := by unfold State.bk; rw [hsel4]
  have hth : ∀ x, s4.bk.thr x = if x ∈ s.sel.thrs then { s.bk.thr x with pc := s.sel.next } else s.bk.thr x := by
    intro x
    rw [hbk4, hk4]
    show (s3.blk s.sel.blk).thr x = _
    rw [hk3, Block.thr_advance, Block.thr_advance]
    by_cases hx : x ∈ s.executing f.h
    · have hx' : x ∈ s.sel.thrs := List.mem_of_mem_filter hx
      have hn : x ∉ non := by simp [hnon, hx]
      simp [hx, hx', hn]
    · by_cases hx' : x ∈ s.sel.thrs
      · have hn : x ∈ non := by simp [hnon, hx, hx']
        simp [hx, hx', hn]
      · have hn : x ∉ non := by simp [hnon, hx']
        simp [hx, hx', hn]
  have hpend : (s3.blk s.sel.blk).pend = countPositions s.sel.thrs s.bk.pend := by
    rw [hk3]
    show countPositions (s.executing f.h) (countPositions non s.bk.pend) = _
    refine countPositions_twice _ _ _ (fun x hx => ?_) _ fun x => ?_
    · have := hx.1
      simp [hnon, hx.2] at this
    · rw [State.mem_bundle s f.h x, or_comm]
  have hvals : (c.values fun t => BitVec.ofNat 128 (g' t).1) =
      (s.executing f.h).map fun x => (x, BitVec.ofNat 128 (g' (s.actor f.h x)).1) := by
    by_cases hu : f.h.u = true
    · simp [Ctx.values, hc, State.ctxOf, State.actor, hu]
    · simp [Ctx.values, hc, State.ctxOf, State.actor, hu]
  refine ⟨⟨?_, hth, ?_, fun b hb => ?_⟩, hs4eq⟩
  · refine ⟨p, ?_, ?_⟩
    · rw [hbk4, hk4]
      show (s3.blk s.sel.blk).pend ++ [p] = _
      rw [hpend]
    · refine ⟨rfl, rfl, rfl, ⟨rfl, rfl⟩, ⟨_, by rw [hp]; dsimp only; rw [hvals]⟩, ?_, rfl⟩
      rw [State.acting_flags s f.h (fun x => (g' x).2) 0 h.runs]
      show c.acting.foldl (fun fl t => fl ||| (g' t).2) 0 = 0 ||| c.acting.foldl (fun fl t => fl ||| (g' t).2) 0
      simp
  · rw [hbk4, hk4, hk3]
    rfl
  · rw [hs4, State.blocks_updBlk, if_neg hb]
    exact ho2.2 b hb

end Sys2Proof.Machine
end

