-- ==== Sys2Proof/Laws/Memory.lean ====
section
/-! SUPPORT. Device memory: a read after a write, and that every operation that writes memory keeps its canonical form. -/
namespace Sys2Proof.Machine

/-! ### What each operation leaves of the rest -/

@[simp] theorem State.unpoison_mem (s : State) (pa n : Nat) : (s.unpoison pa n).mem = s.mem := by
  unfold State.unpoison; split <;> rfl
theorem State.writePA_mem (s : State) (pa : Nat) (bs : List Byte) :
    (s.writePA pa bs).mem = if inDevice pa bs.length then Map.setList memDefault s.mem pa bs else s.mem := by
  unfold State.writePA; split <;> simp
@[simp] theorem State.setDecaf_mem (s : State) (die line : Nat) (x : Option Decaf) : (s.setDecaf die line x).mem = s.mem := rfl
@[simp] theorem State.fillDecaf_mem (s : State) (die line : Nat) : (s.fillDecaf die line).mem = s.mem := by
  unfold State.fillDecaf; split <;> rfl
@[simp] theorem State.putDecaf_mem (s : State) (die pa : Nat) (x : Byte) (d : Bool) : (s.putDecaf die pa x d).mem = s.mem := by
  unfold State.putDecaf; split <;> rfl
@[simp] theorem State.setTag_mem (s : State) (key : Nat) (v : Byte) : (s.setTag key v).mem = s.mem := rfl

/-! ### A read after a write -/

/-- A byte after a write inside device memory: the written byte where the write covers it, else the byte before. -/
theorem State.byte_writePA (s : State) (pa : Nat) (bs : List Byte) (h : inDevice pa bs.length) (a : Nat) :
    (s.writePA pa bs).byte a = if pa ≤ a then (bs[a - pa]?).getD (s.byte a) else s.byte a := by
  simp only [State.byte, State.writePA_mem, h, if_true, Map.get_setList]

/-- A write leaves every byte outside its range alone. -/
theorem State.byte_writePA_out (s : State) (pa : Nat) (bs : List Byte) (a : Nat) (h : a < pa ∨ pa + bs.length ≤ a) :
    (s.writePA pa bs).byte a = s.byte a := by
  by_cases hd : inDevice pa bs.length
  · rw [State.byte_writePA s pa bs hd]
    rcases h with h | h
    · simp [Nat.not_le.mpr h]
    · simp [List.getElem?_eq_none (show bs.length ≤ a - pa by omega)]
  · simp [State.byte, State.writePA_mem, hd]

/-- Bytes read back as they were written. -/
theorem State.readPA_writePA (s : State) (pa : Nat) (bs : List Byte) (h : inDevice pa bs.length) :
    (s.writePA pa bs).readPA pa bs.length = bs := by
  simp only [State.readPA, State.writePA_mem, h, if_true, Map.getList_setList]

/-! ### The canonical form -/

theorem reset_memWf : memWf State.reset.mem := by decide

/-- A fold of steps that each keep the form keeps it. -/
theorem foldl_memWf {α : Type} (f : State → α → State) (hf : ∀ s a, memWf s.mem → memWf (f s a).mem) (l : List α) (s : State)
    (h : memWf s.mem) : memWf (l.foldl f s).mem := by
  induction l generalizing s with
  | nil => exact h
  | cons a l ih => exact ih _ (hf s a h)

theorem State.writePA_memWf (s : State) (pa : Nat) (bs : List Byte) (h : memWf s.mem) : memWf (s.writePA pa bs).mem := by
  rw [State.writePA_mem]
  split
  · exact Map.wf_setList _ _ _ _ h
  · exact h

theorem State.putNum_memWf (s : State) (pa n v : Nat) (h : memWf s.mem) : memWf (s.putNum pa n v).mem :=
  s.writePA_memWf pa _ h

theorem State.markByte_memWf (s : State) (pa : Nat) (h : memWf s.mem) : memWf (s.markByte pa).mem := by
  refine foldl_memWf _ (fun s n hs => ?_) _ s h
  dsimp only
  split
  · exact Map.wf_set _ _ _ _ hs
  · exact hs

theorem State.mark_memWf (s : State) (pa n : Nat) (h : memWf s.mem) : memWf (s.mark pa n).mem := by
  unfold State.mark
  split
  · exact h
  · exact foldl_memWf _ (fun s _ hs => s.markByte_memWf _ hs) _ s h

theorem State.tagBack_memWf (s : State) (line : Nat) (h : memWf s.mem) : memWf (s.tagBack line).mem := by
  unfold State.tagBack
  split
  · exact s.writePA_memWf _ _ h
  · exact h

theorem State.llcEvict_memWf (s : State) (line : Nat) (h : memWf s.mem) : memWf (s.llcEvict line).mem := by
  unfold State.llcEvict
  dsimp only
  split
  · exact h
  · split
    · exact s.tagBack_memWf _ h
    · exact h

theorem State.llcRoom_memWf (s : State) (line : Nat) (h : memWf s.mem) : memWf (s.llcRoom line).mem := by
  unfold State.llcRoom
  dsimp only
  generalize (if s.llc.length < llcCap then [] else s.llc.filter fun e => s.home (e.1 * 128) = s.home (line * 128)) = l
  split
  · exact h
  · exact State.llcEvict_memWf _ _ h

@[simp] theorem State.fillTag_mem (s : State) (n line : Nat) : (s.fillTag n line).mem = s.mem := by
  unfold State.fillTag; split <;> rfl

theorem State.llcFill_memWf (s : State) (line : Nat) (h : memWf s.mem) : memWf (s.llcFill line).mem := by
  unfold State.llcFill
  dsimp only
  split
  · exact h
  · split
    · rw [State.fillTag_mem]
      split <;> exact s.llcRoom_memWf _ h
    · exact s.llcRoom_memWf _ h

theorem State.touch_memWf (s : State) (pa n : Nat) (h : memWf s.mem) : memWf (s.touch pa n).mem := by
  unfold State.touch
  split
  · exact h
  · split
    · exact h
    · exact foldl_memWf _ (fun s _ hs => s.llcFill_memWf _ hs) _ s h

@[simp] theorem State.disown_mem (s : State) (pa n : Nat) : (s.disown pa n).mem = s.mem := by
  unfold State.disown; split <;> rfl

theorem State.writeHome_memWf (s : State) (pa : Nat) (bs : List Byte) (h : memWf s.mem) : memWf (s.writeHome pa bs).mem := by
  unfold State.writeHome
  split
  · exact h
  · refine State.mark_memWf _ _ _
      (foldl_memWf (fun (s : State) (j : Nat) => s.llcDirty (pa / 128 + j)) (fun s j hs => hs) _ _ (State.writePA_memWf _ _ _ ?_))
    rw [State.disown_mem]
    exact s.touch_memWf _ _ h

theorem State.cleanDecaf_memWf (s : State) (die line : Nat) (h : memWf s.mem) : memWf (s.cleanDecaf die line).mem := by
  unfold State.cleanDecaf
  split
  · exact h
  · split
    · exact h
    · dsimp only
      rw [State.setDecaf_mem]
      refine foldl_memWf _ (fun s j hs => ?_) _ s h
      split
      · exact s.writeHome_memWf _ _ hs
      · exact hs

/-! Stores: a core's copy, the die's L2, the home. -/

@[simp] theorem State.setL1_mem (s : State) (core line : Nat) (x : Option L1Line) : (s.setL1 core line x).mem = s.mem := rfl

theorem State.dieWrite_memWf (s : State) (decaf : Bool) (die pa : Nat) (x : Byte) (h : memWf s.mem) :
    memWf (s.dieWrite decaf die pa x).mem := by
  unfold State.dieWrite
  split
  · simpa using h
  · exact s.writePA_memWf _ _ h

theorem State.publishMask_memWf (s : State) (core line : Nat) (m : BitVec 128) (h : memWf s.mem) :
    memWf (s.publishMask core line m).mem := by
  unfold State.publishMask
  split
  · exact h
  · split
    · exact h
    · have e : ∀ (s : State) (p : Nat × Nat → Bool), memWf s.mem →
          memWf ({ s with pendReg := s.pendReg.filter p } : State).mem := fun _ _ hs => hs
      dsimp only
      rw [State.setL1_mem]
      split <;>
        exact foldl_memWf _ (fun s j hs => by split <;> [exact s.dieWrite_memWf _ _ _ _ hs; exact hs]) _ s h

theorem State.publishUnit_memWf (s : State) (core pa : Nat) (h : memWf s.mem) : memWf (s.publishUnit core pa).mem :=
  s.publishMask_memWf _ _ _ h

@[simp] theorem State.dropMask_mem (s : State) (core line : Nat) (m : BitVec 128) : (s.dropMask core line m).mem = s.mem := by
  unfold State.dropMask; split <;> rfl

theorem State.settleOwn_memWf (s : State) (core pa n : Nat) (h : memWf s.mem) : memWf (s.settleOwn core pa n).mem := by
  unfold State.settleOwn
  dsimp only
  rw [State.disown_mem]
  exact foldl_memWf _ (fun s l hs => by rw [State.dropMask_mem]; exact s.publishMask_memWf _ _ _ hs) _ s h

theorem State.atSlice_memWf (s : State) (core : Nat) (decaf : Bool) (pa n : Nat) (h : memWf s.mem) :
    memWf (s.atSlice core decaf pa n).mem := by
  unfold State.atSlice
  dsimp only
  split
  · exact foldl_memWf _ (fun s l hs => s.cleanDecaf_memWf _ _ hs) _ _ (s.settleOwn_memWf _ _ _ h)
  · exact s.settleOwn_memWf _ _ _ h

theorem State.l1Room_memWf (s : State) (core : Nat) (h : memWf s.mem) : memWf (s.l1Room core).mem := by
  unfold State.l1Room
  split
  · exact h
  · dsimp only
    split
    · exact h
    · exact State.publishMask_memWf _ _ _ _ h

theorem State.putL1_memWf (s : State) (core : Nat) (decaf : Bool) (pa : Nat) (x : Byte) (h : memWf s.mem) :
    memWf (s.putL1 core decaf pa x).mem := by
  unfold State.putL1
  dsimp only
  rw [State.setL1_mem]
  split
  · exact h
  · exact s.l1Room_memWf _ h

theorem State.dieStore_memWf (s : State) (decaf : Bool) (die pa : Nat) (bs : List Byte) (h : memWf s.mem) :
    memWf (s.dieStore decaf die pa bs).mem := by
  unfold State.dieStore
  split
  · refine foldl_memWf _ (fun s j hs => s.dieWrite_memWf _ _ _ _ hs) _ _ ?_
    rw [State.disown_mem]
    exact s.touch_memWf _ _ h
  · exact s.writeHome_memWf _ _ h

theorem State.sliceStore_memWf (s : State) (decaf : Bool) (die pa : Nat) (bs : List Byte) (h : memWf s.mem) :
    memWf (s.sliceStore decaf die pa bs).mem := by
  unfold State.sliceStore
  dsimp only
  split
  · exact foldl_memWf _ (fun s j hs => by simpa using hs) _ _ (s.writeHome_memWf _ _ h)
  · exact s.writeHome_memWf _ _ h

theorem State.storeThrough_memWf (s : State) (b : Nat) (decaf : Bool) (way : Way) (pa : Nat) (bs : List Byte) (h : memWf s.mem) :
    memWf (s.storeThrough b decaf way pa bs).mem := by
  unfold State.storeThrough
  dsimp only
  split
  · exact h
  · cases way
    · refine foldl_memWf _ (fun s u hs => ?_) _ _
        (foldl_memWf _ (fun s j hs => s.putL1_memWf _ _ _ _ hs) _ _ (s.touch_memWf _ _ h))
      split
      · exact hs
      · exact s.publishUnit_memWf _ _ hs
    · exact State.sliceStore_memWf _ _ _ _ _ (s.atSlice_memWf _ _ _ _ h)
    · exact s.dieStore_memWf _ _ _ _ h

theorem State.mergeThrough_memWf (s : State) (b : Nat) (decaf : Bool) (pa n : Nat) (m : Merge) (h : memWf s.mem) :
    memWf (s.mergeThrough b decaf pa n m).2.mem := by
  unfold State.mergeThrough
  cases m
  · dsimp only
    refine State.sliceStore_memWf _ _ _ _ _ ?_
    split
    · exact foldl_memWf _ (fun s l hs => s.cleanDecaf_memWf _ _ hs) _ _ (s.touch_memWf _ _ h)
    · exact s.touch_memWf _ _ h
  · dsimp only
    refine State.dieStore_memWf _ _ _ _ _ ?_
    split
    · rw [State.fillDecaf_mem]
      exact s.touch_memWf _ _ h
    · exact s.touch_memWf _ _ h

theorem State.commit_memWf (s : State) (b : Nat) (forced : Bool) (h : memWf s.mem) : memWf (s.commit b forced).mem := by
  unfold State.commit
  dsimp only
  split
  · exact h
  · rw [State.updBlk_mem]
    refine foldl_memWf _ (fun s e hs => by simpa using hs) _ _ (foldl_memWf _ (fun s e hs => ?_) _ _
      (foldl_memWf _ (fun s m hs => State.mergeThrough_memWf _ _ _ _ _ _ (s.settleOwn_memWf _ _ _ hs)) _ _
        (by rw [State.updBlk_mem]; exact h)))
    split
    · exact hs
    · exact State.dieStore_memWf _ _ _ _ _ (s.settleOwn_memWf _ _ _ hs)

theorem State.store_memWf (s : State) (b : Nat) (decaf : Bool) (way : Way) (pa : Nat) (bs : List Byte) (h : memWf s.mem) :
    memWf (s.store b decaf way pa bs).mem := by
  unfold State.store
  dsimp only
  split
  · split
    · rw [State.updBlk_mem]
      exact s.touch_memWf _ _ h
    · exact State.storeThrough_memWf _ _ _ _ _ _ (s.commit_memWf _ _ h)
  · exact s.storeThrough_memWf _ _ _ _ _ h

theorem State.zeroRange_memWf (s : State) (pa n : Nat) (h : memWf s.mem) : memWf (s.zeroRange pa n).mem := by
  unfold State.zeroRange
  split
  · exact Map.wf_clear _ _ _ _ h
  · exact h

theorem State.zeroOld_memWf (s : State) (n : Nat) (h : memWf s.mem) : memWf (s.zeroOld n).mem := Map.wf_clear _ _ _ _ h

end Sys2Proof.Machine
end

