-- ==== Sys2Proof/Tests/Slice0.lean ====
section
/-! SUPPORT. Tests of the encodings: words written out from the tables of spec/03 and spec/04, ill-formed terms refused, and
single steps on small states. -/
namespace Sys2Proof.Tests
open Sys2Proof
-- One theorem after another: the checks of several at once need too much memory.
set_option Elab.async false

/-! ### Words of the spec's encodings, in both directions -/

/-- Each word list decodes to its instruction, is what the encoder gives it, and the instruction is well formed. -/
abbrev Reads (l : List (Instr × List Nat)) : Prop :=
  ∀ p ∈ l, (decode 256 p.2).toOption = some p.1 ∧ encode p.1 = p.2 ∧ wellFormed p.1 = true

abbrev h7 : Hdr := ⟨7, false, false, 0⟩
abbrev uni : Hdr := ⟨7, false, true, 0⟩
abbrev np1 : Hdr := ⟨1, true, false, 0⟩
abbrev la3 : Hdr := ⟨7, false, false, 3⟩
abbrev p1la2 : Hdr := ⟨1, false, false, 2⟩

/-- The words that spec/04 works out: LD.acq at its end. -/
theorem test_decode_worked_example :
    (decode 256 [0x00810582, 0x01320000, 8]).toOption = some (.ld p1la2 .acq .i32 (.v 4) (.v 2) 8) := by decide +kernel

/-- spec/03 R45, R46, R53 and spec/04 R71: every instruction of these groups, its words field by field. -/
theorem test_decode_integer : Reads [
  (.iadd h7 .i32 (.v 2) (.v 3) (.v 4), [
    0b00_00000011_00000010_0_111_0000000_0_10, 0b0_0_0_0_00000000_0000_00000000_00000100,
    0b0000_0000_0000_000_00000_0000_0011_0000]),
  (.isub uni .n8 (.s 2) (.s 3) (.v 254), [
    0b01_00000011_00000010_0_111_0000000_1_10, 0b0_0_0_1_00000001_0000_00000000_11111110,
    0b0000_0000_0000_000_00000_0000_0101_0000]),
  (.imul np1 .i64 (.v 252) .zero (.lit 0x100000002), [
    0b00_00111111_11111100_1_001_0000000_0_11, 0b0_0_0_1_00000010_0000_00000000_11111111,
    0b0000_0000_0000_000_00000_0000_0100_0000, 0x2, 0x1]),
  (.imulh h7 .n64 (.v 2) (.v 4) (.v 6), [
    0b00_00000100_00000010_0_111_0000000_0_10, 0b0_0_0_0_00000011_0000_00000000_00000110,
    0b0000_0000_0000_000_00000_0000_1000_0000]),
  (.imad h7 true .n32 (.v 2) (.v 5) (.v 7) (.v 8), [
    0b00_00000101_00000010_0_111_0000000_0_10, 0b0_0_0_0_00000100_0000_00001000_00000111,
    0b0000_0000_0000_000_00000_0000_0111_0001]),
  (.imin h7 .i16 .none (.v 5) (.v 7), [
    0b00_00000101_11111111_0_111_0000000_0_10, 0b0_0_0_0_00000101_0000_00000000_00000111,
    0b0000_0000_0000_000_00000_0000_0010_0000]),
  (.imax h7 .n16 (.v 9) (.v 5) (.v 7), [
    0b00_00000101_00001001_0_111_0000000_0_10, 0b0_0_0_0_00000110_0000_00000000_00000111,
    0b0000_0000_0000_000_00000_0000_0110_0000]),
  (.idot4 h7 true false (.v 9) (.v 5) (.v 7) (.v 11), [
    0b00_00000101_00001001_0_111_0000001_0_10, 0b0_0_0_0_00000000_0000_00001011_00000111,
    0b0000_0000_0000_000_00000_0001_0011_0000]),
  (.lea h7 .n32 31 (.v 8) (.v 6) (.v 7), [
    0b00_00000110_00001000_0_111_0000001_0_10, 0b0_0_0_0_00000001_0000_00000000_00000111,
    0b0000_0000_0000_000_11111_0000_0111_0000])] := by decide +kernel

/-- spec/03 R45, R46, R53 and spec/04 R71: every instruction of these groups, its words field by field. -/
theorem test_decode_logic : Reads [
  (.and h7 false (.v 9) (.v 5) (.v 7), [
    0b00_00000101_00001001_0_111_0000010_0_10, 0b0_0_0_0_00000000_0000_00000000_00000111,
    0b0000_0000_0000_000_00000_0000_0111_0000]),
  (.or h7 true (.v 8) (.v 4) (.v 6), [
    0b00_00000100_00001000_0_111_0000010_0_10, 0b0_0_0_0_00000001_0000_00000000_00000110,
    0b0000_0000_0000_000_00000_0000_1000_0000]),
  (.xor h7 false (.v 9) (.v 5) (.s 7), [
    0b00_00000101_00001001_0_111_0000010_0_10, 0b0_0_1_0_00000010_0000_00000000_00000111,
    0b0000_0000_0000_000_00000_0000_0111_0000]),
  (.lop3 h7 0xE8 (.v 9) (.v 5) (.v 7) (.s 62), [
    0b00_00000101_00001001_0_111_0000010_0_10, 0b0_1_0_0_00000011_0000_00111110_00000111,
    0xe8]),
  (.icmp h7 .ge .i8 3 (.v 5) (.v 7), [
    0b10_00000101_00000011_0_111_0000011_0_10, 0b0_0_0_0_00000000_0000_00000000_00000111,
    0b0000_0000_0110_000_00000_0000_0001_0000]),
  (.sel h7 true (.v 8) (.v 4) (.v 6) 5, [
    0b00_00000100_00001000_0_111_0000011_0_10, 0b0_0_0_0_00000001_0000_00000101_00000110,
    0b0000_0000_0000_000_00000_0000_1000_0000]),
  (.pset h7 .orn 3 4 5, [
    0b10_00000100_00000011_0_111_0000011_0_10, 0b0_0_0_0_00000010_0000_00000000_00000101,
    0b0000_0000_1011_000_00000_0000_0000_0000]),
  (.shl h7 true (.v 8) (.v 4) (.v 7), [
    0b00_00000100_00001000_0_111_0000100_0_10, 0b0_0_0_0_00000000_0000_00000000_00000111,
    0b0000_0000_0000_000_00000_0000_1000_0000]),
  (.shr h7 false (.v 8) (.v 3) (.v 7), [
    0b00_00000011_00001000_0_111_0000100_0_10, 0b0_0_0_0_00000001_0000_00000000_00000111,
    0b0000_0000_0000_000_00000_0000_0111_0000]),
  (.sar h7 true (.v 8) (.v 4) (.v 7), [
    0b00_00000100_00001000_0_111_0000100_0_10, 0b0_0_0_0_00000010_0000_00000000_00000111,
    0b0000_0000_0000_000_00000_0000_0100_0000]),
  (.shf h7 .rl (.v 8) (.v 3) (.v 7) (.v 1), [
    0b00_00000011_00001000_0_111_0000100_0_10, 0b0_0_0_0_00000011_0000_00000001_00000111,
    0b0000_0000_0000_000_00000_0000_0000_0010]),
  (.bfe h7 .i64 (.v 8) (.v 4) (.v 7), [
    0b00_00000100_00001000_0_111_0000101_0_10, 0b0_0_0_0_00000000_0000_00000000_00000111,
    0b0000_0000_0000_000_00000_0000_0100_0000]),
  (.bfi h7 false (.v 8) (.v 3) (.v 7) (.v 1), [
    0b00_00000011_00001000_0_111_0000101_0_10, 0b0_0_0_0_00000001_0000_00000001_00000111,
    0b0000_0000_0000_000_00000_0000_0111_0000]),
  (.popc h7 true (.v 7) (.v 4), [
    0b00_00000000_00000111_0_111_0000101_0_10, 0b0_0_0_0_00000010_0000_00000000_00000100,
    0b0000_0000_0000_000_00000_0000_1000_0000]),
  (.clz h7 false (.v 7) (.v 5), [
    0b00_00000000_00000111_0_111_0000101_0_10, 0b0_0_0_0_00000011_0000_00000000_00000101,
    0b0000_0000_0000_000_00000_0000_0111_0000]),
  (.ctz h7 false (.v 7) (.v 5), [
    0b00_00000000_00000111_0_111_0000101_0_10, 0b0_0_0_0_00000100_0000_00000000_00000101,
    0b0000_0000_0000_000_00000_0000_0111_0000]),
  (.brev h7 true (.v 6) (.v 4), [
    0b00_00000000_00000110_0_111_0000101_0_10, 0b0_0_0_0_00000101_0000_00000000_00000100,
    0b0000_0000_0000_000_00000_0000_1000_0000])] := by decide +kernel

/-- spec/03 R45, R46, R53 and spec/04 R71: every instruction of these groups, its words field by field. -/
theorem test_decode_moves : Reads [
  (.mov h7 (.v 7) (.s 5), [
    0b00_00000000_00000111_0_111_0000110_0_10, 0b0_0_1_0_00000000_0000_00000000_00000101,
    0b0000_0000_0000_000_00000_0000_0000_0000]),
  (.movl h7 (.v 6) (.lit 0xFEDCBA9876543210), [
    0b00_00000000_00000110_0_111_0000110_0_11, 0b0_0_0_0_00000001_0000_00000000_11111111,
    0, 0x76543210, 0xfedcba98]),
  (.movs uni (.fromFd (.s 7) 15), [
    0b01_00111111_00000111_0_111_0000110_1_10, 0b0_0_0_0_00000010_0000_00000000_00000000,
    0b0000_0000_0000_000_00000_0000_0000_0000]),
  (.movs uni (.toFd 2 (.s 5)), [
    0b11_00000000_00110010_0_111_0000110_1_10, 0b0_0_1_0_00000010_0000_00000000_00000101,
    0b0000_0000_0000_000_00000_0000_0000_0001]),
  (.rdsr h7 0x13 (.v 6), [
    0b00_00000000_00000110_0_111_0000110_0_10, 0b0_0_0_0_00000011_0000_00000000_00000000,
    0x13])] := by decide +kernel

/-- spec/03 R45, R46, R53 and spec/04 R72: every instruction of these groups, its words field by field. -/
theorem test_decode_float : Reads [
  (.fadd h7 .f16 .rd (.v 9) (.v 5) (.v 7), [
    0b00_00000101_00001001_0_111_0010000_0_10, 0b0_0_0_0_00000000_0000_00000000_00000111,
    0b0000_0000_0000_010_00000_0000_1011_0000]),
  (.fmul h7 .bf16 .ru (.v 9) (.v 5) (.v 7), [
    0b00_00000101_00001001_0_111_0010000_0_10, 0b0_0_0_0_00000001_0000_00000000_00000111,
    0b0000_0000_0000_011_00000_0000_1100_0000]),
  (.ffma h7 .f32 .rna (.v 9) (.v 5) (.v 7) (.v 3), [
    0b00_00000101_00001001_0_111_0010000_0_10, 0b0_0_0_0_00000010_0000_00000011_00000111,
    0b0000_0000_0000_100_00000_0000_1010_0000]),
  (.fmin h7 .f64 (.v 8) (.v 4) (.v 6), [
    0b00_00000100_00001000_0_111_0010000_0_10, 0b0_0_0_0_00000011_0000_00000000_00000110,
    0b0000_0000_0000_000_00000_0000_1001_0000]),
  (.fmax h7 .f32 (.v 8) (.v 4) (.v 6), [
    0b00_00000100_00001000_0_111_0010000_0_10, 0b0_0_0_0_00000100_0000_00000000_00000110,
    0b0000_0000_0000_000_00000_0000_1010_0000]),
  (.fcmp h7 .ord .f64 6 (.v 4) (.v 2), [
    0b10_00000100_00000110_0_111_0010001_0_10, 0b0_0_0_0_00000000_0000_00000000_00000010,
    0b0000_0000_1000_000_00000_0000_1001_0000]),
  (.frnd h7 true .f16 .rz (.v 4) (.v 2), [
    0b00_00000000_00000100_0_111_0010001_0_10, 0b0_0_0_0_00000001_0000_00000000_00000010,
    0b0000_0000_0000_001_00000_0000_1011_0001])] := by decide +kernel

/-- spec/03 R45, R46, R53 and spec/04 R72: every instruction of these groups, its words field by field. -/
theorem test_decode_special : Reads [
  (.frcp la3 .rz (.v 4) (.v 2), [
    0b00_00000000_00000100_0_111_0010010_0_10, 0b0_0_0_0_00000000_0011_00000000_00000010,
    0b0000_0000_0000_001_00000_0000_1010_0000]),
  (.frsq h7 (.v 4) (.v 2), [
    0b00_00000000_00000100_0_111_0010010_0_10, 0b0_0_0_0_00000001_0000_00000000_00000010,
    0b0000_0000_0000_000_00000_0000_1010_0000]),
  (.fsqrt h7 .ru (.v 4) (.v 2), [
    0b00_00000000_00000100_0_111_0010010_0_10, 0b0_0_0_0_00000010_0000_00000000_00000010,
    0b0000_0000_0000_011_00000_0000_1010_0000]),
  (.fexp2 h7 (.v 4) (.v 2), [
    0b00_00000000_00000100_0_111_0010010_0_10, 0b0_0_0_0_00000011_0000_00000000_00000010,
    0b0000_0000_0000_000_00000_0000_1010_0000]),
  (.flog2 h7 (.v 4) (.v 2), [
    0b00_00000000_00000100_0_111_0010010_0_10, 0b0_0_0_0_00000100_0000_00000000_00000010,
    0b0000_0000_0000_000_00000_0000_1010_0000]),
  (.fsin h7 (.v 4) (.v 2), [
    0b00_00000000_00000100_0_111_0010010_0_10, 0b0_0_0_0_00000101_0000_00000000_00000010,
    0b0000_0000_0000_000_00000_0000_1010_0000]),
  (.fcos h7 (.v 4) (.v 2), [
    0b00_00000000_00000100_0_111_0010010_0_10, 0b0_0_0_0_00000110_0000_00000000_00000010,
    0b0000_0000_0000_000_00000_0000_1010_0000]),
  (.ftanh h7 (.v 4) (.v 2), [
    0b00_00000000_00000100_0_111_0010010_0_10, 0b0_0_0_0_00000111_0000_00000000_00000010,
    0b0000_0000_0000_000_00000_0000_1010_0000])] := by decide +kernel

/-- spec/03 R45, R46, R53 and spec/04 R72: every instruction of these groups, its words field by field. -/
theorem test_decode_packed : Reads [
  (.hadd2 h7 .f16 .rne (.v 4) (.v 2) (.v 1), [
    0b00_00000010_00000100_0_111_0010011_0_10, 0b0_0_0_0_00000000_0000_00000000_00000001,
    0b0000_0000_0000_000_00000_0000_1011_0000]),
  (.hmul2 h7 .bf16 .rz (.v 4) (.v 2) (.v 1), [
    0b00_00000010_00000100_0_111_0010011_0_10, 0b0_0_0_0_00000001_0000_00000000_00000001,
    0b0000_0000_0000_001_00000_0000_1100_0000]),
  (.hfma2 h7 .f16 .rd (.v 4) (.v 2) (.v 1) (.v 3), [
    0b00_00000010_00000100_0_111_0010011_0_10, 0b0_0_0_0_00000010_0000_00000011_00000001,
    0b0000_0000_0000_010_00000_0000_1011_0000]),
  (.hdot2 h7 .bf16 .rne (.v 4) (.v 2) (.v 1) (.v 3), [
    0b00_00000010_00000100_0_111_0010011_0_10, 0b0_0_0_0_00000011_0000_00000011_00000001,
    0b0000_0000_0000_000_00000_1100_1010_0000]),
  (.dadd la3 .rne (.v 4) (.v 2) (.v 6), [
    0b00_00000010_00000100_0_111_0010100_0_10, 0b0_0_0_0_00000000_0011_00000000_00000110,
    0b0000_0000_0000_000_00000_0000_1001_0000]),
  (.dmul h7 .rz (.v 4) (.v 2) (.v 6), [
    0b00_00000010_00000100_0_111_0010100_0_10, 0b0_0_0_0_00000001_0000_00000000_00000110,
    0b0000_0000_0000_001_00000_0000_1001_0000]),
  (.dfma h7 .rna (.v 4) (.v 2) (.v 6) (.v 8), [
    0b00_00000010_00000100_0_111_0010100_0_10, 0b0_0_0_0_00000010_0000_00001000_00000110,
    0b0000_0000_0000_100_00000_0000_1001_0000])] := by decide +kernel

/-- spec/03 R45, R46, R53 and spec/04 R72: every instruction of these groups, its words field by field. -/
theorem test_decode_convert : Reads [
  (.cvt h7 true (.std .i8) (.std .i64) .rne (.v 3) (.v 6), [
    0b00_00000000_00000011_0_111_0100000_0_10, 0b0_0_0_0_00000000_0000_00000000_00000110,
    0b0000_0000_0000_000_00000_0100_0001_0001]),
  (.pack h7 (.fd 5) (.std .f32) .rz 3 (.v 3) (.v 4) (.v 6), [
    0b00_00000100_00000011_0_111_0100000_0_10, 0b0_0_0_0_00000001_0000_00000110_00000000,
    0b0000_0101_0000_001_00011_1010_1101_0000]),
  (.unpack h7 (.std .f32) (.std .n8) .rne 3 (.v 3) (.v 6), [
    0b00_00000000_00000011_0_111_0100000_0_10, 0b0_0_0_0_00000010_0000_00000000_00000110,
    0b0000_0000_0000_000_00011_0101_1010_0000])] := by decide +kernel

/-- spec/03 R45, R46, R53 and spec/04 R72: every instruction of these groups, its words field by field. -/
theorem test_decode_lane : Reads [
  (.shfl h7 .slide 5 (.v 3) (.v 6) (.s 2) .zero, [
    0b00_00000110_00000011_0_111_0100001_0_10, 0b0_1_1_0_00000000_0000_00111111_00000010,
    0b0000_0000_1010_000_00101_0000_0000_0000]),
  (.ballot h7 (.v 9) 2 .zero, [
    0b00_00000010_00001001_0_111_0100001_0_10, 0b0_1_0_0_00000001_0000_00111111_00000000,
    0b0000_0000_0000_000_00000_0000_0000_0000]),
  (.vote h7 .uni 4 2 (.v 1), [
    0b10_00000010_00000100_0_111_0100001_0_10, 0b0_0_0_0_00000010_0000_00000001_00000000,
    0b0000_0000_1001_000_00000_0000_0000_0000]),
  (.matchLanes h7 true (.v 4) (.v 2) (.v 1), [
    0b00_00000010_00000100_0_111_0100001_0_10, 0b0_0_0_0_00000011_0000_00000001_00000000,
    0b0000_0000_0000_000_00000_0000_1000_0000]),
  (.redux h7 .xor .n64 .rne (.v 4) (.v 2) (.v 1), [
    0b00_00000010_00000100_0_111_0100001_0_10, 0b0_0_0_0_00000100_0000_00000001_00000000,
    0b0000_0000_1100_000_00000_0000_1000_0000]),
  (.prmt h7 (.v 4) (.v 2) (.v 3) (.v 1), [
    0b00_00000010_00000100_0_111_0100001_0_10, 0b0_0_0_0_00000101_0000_00000001_00000011,
    0b0000_0000_0000_000_00000_0000_0000_0000])] := by decide +kernel

/-- spec/03 R45, R46, R53 and spec/04 R72: every instruction of these groups, its words field by field. -/
theorem test_decode_control : Reads [
  (.bra h7 0xFFFFFFE8, [
    0b00_00000000_00000000_0_111_0101000_0_10, 0b0_0_0_0_00000000_0000_00000000_00000000,
    0xffffffe8]),
  (.brx h7 (.v 4) 16, [
    0b00_00000100_00000000_0_111_0101000_0_10, 0b0_0_0_0_00000001_0000_00000000_00000000,
    0x10]),
  (.call h7 none 0x40, [
    0b00_11111111_00000000_0_111_0101000_0_10, 0b0_0_0_0_00000010_0000_00000000_00000000,
    0x40]),
  (.call h7 (some (.s 4)) 0x40, [
    0b00_00000100_00000000_0_111_0101000_0_10, 0b0_0_0_1_00000010_0000_00000000_00000000,
    0x40]),
  (.ret np1, [
    0b00_00000000_00000000_1_001_0101000_0_10, 0b0_0_0_0_00000011_0000_00000000_00000000,
    0]),
  (.exit np1, [
    0b00_00000000_00000000_1_001_0101000_0_10, 0b0_0_0_0_00000100_0000_00000000_00000000,
    0]),
  (.yield np1, [
    0b00_00000000_00000000_1_001_0101000_0_10, 0b0_0_0_0_00000101_0000_00000000_00000000,
    0]),
  (.nopExt np1, [
    0b00_00000000_00000000_1_001_0101000_0_10, 0b0_0_0_0_00000110_0000_00000000_00000000,
    0])] := by decide +kernel

/-- spec/03 R45, R46, R53 and spec/04 R73: every instruction of these groups, its words field by field. -/
theorem test_decode_memory : Reads [
  (.ld p1la2 .acq .i32 (.v 4) (.v 2) 8, [
    0b00_00000010_00000100_0_001_0110000_0_10, 0b0_0_0_0_00010011_0010_00000000_00000000,
    0x8]),
  (.st h7 .rel .f64 (.v 2) (.v 4) 0xFFFFFFFF, [
    0b00_00000010_00000000_0_111_0110000_0_10, 0b0_0_0_0_01101001_0000_00000000_00000100,
    0xffffffff]),
  (.lds h7 .plain .n8 (.v 3) (.v 1) 4, [
    0b00_00000001_00000011_0_111_0110000_0_10, 0b0_0_0_0_10000101_0000_00000000_00000000,
    0x4]),
  (.sts h7 .plain .bf16 (.v 3) (.v 1) 4, [
    0b00_00000011_00000000_0_111_0110000_0_10, 0b0_0_0_0_11001100_0000_00000000_00000001,
    0x4]),
  (.cmpst h7 .i32 (.v 3) (.s 4) (.v 1) 6 4, [
    0b00_00000100_00000011_0_111_0110001_0_10, 0b0_0_0_1_00000011_0000_00000110_00000001,
    0x4]),
  (.expld h7 .i64 (.v 2) (.s 4) 6 4, [
    0b00_00000100_00000010_0_111_0110001_0_10, 0b0_0_0_1_01000100_0000_00000110_00000000,
    0x4]),
  (.pref h7 2 (.v 4) 64, [
    0b00_00000100_00000000_0_111_0110001_0_10, 0b0_0_0_0_10000010_0000_00000000_00000000,
    0x40]),
  (.cctlWb h7 (.v 4) (.v 1) 64, [
    0b00_00000100_00000000_0_111_0110001_0_10, 0b0_0_0_0_11000001_0000_00000000_00000001,
    0x40]),
  (.cctlInv h7 (.v 4) (.v 1) 64, [
    0b00_00000100_00000000_0_111_0110001_0_10, 0b0_0_0_0_11000010_0000_00000000_00000001,
    0x40]),
  (.atom h7 .cas .acqrel .w128 (.v 8) (.v 2) (.v 4) (.v 12) 16, [
    0b00_00000010_00001000_0_111_0110010_0_10, 0b0_0_0_0_10011110_0000_00001100_00000100,
    0x10]),
  (.red h7 .maxu .rel .w64 (.v 2) (.v 4) 16, [
    0b00_00000010_00000000_0_111_0110011_0_10, 0b0_0_0_0_01001001_0000_00000000_00000100,
    0x10]),
  (.fence h7, [
    0b00_00000000_00000000_0_111_0110100_0_10, 0b0_0_0_0_00000000_0000_00000000_00000000,
    0]),
  (.xfence h7 3 1, [
    0b00_00000000_00000000_0_111_0110100_0_10, 0b0_0_0_0_00000001_0000_00000000_00000000,
    0x13]),
  (.bar h7, [
    0b00_00000000_00000000_0_111_0110100_0_10, 0b0_0_0_0_00000010_0000_00000000_00000000,
    0]),
  (.smap uni 15 (.s 2) (.s 5) (.s 7), [
    0b00_00000010_00000000_0_111_0110101_1_10, 0b0_1_1_1_00000000_0000_00000111_00000101,
    0xf]),
  (.sflush uni, [
    0b00_00000000_00000000_0_111_0110101_1_10, 0b0_0_0_0_00000001_0000_00000000_00000000,
    0])] := by decide +kernel

/-- spec/03 R45, R46, R53 and spec/04 R73: every instruction of these groups, its words field by field. -/
theorem test_decode_copies : Reads [
  (.cpq h7 (.v 3) 16, [
    0b00_00000011_00000000_0_111_1000000_0_10, 0b0_0_0_0_00000000_0000_00000000_00000000,
    0x10]),
  (.cpld h7 .i64 (.v 2) (.v 4) 7 16, [
    0b00_00000100_00000010_0_111_1000000_0_10, 0b0_1_0_0_01000100_0000_00110111_00000000,
    0x10]),
  (.cqwait uni 5, [
    0b00_00110101_00000000_0_111_1000000_1_10, 0b0_0_0_1_10000000_0000_00000000_00000000,
    0]),
  (.aarm h7 (.v 3) (.v 4) (.v 5) 16, [
    0b00_00000011_00000000_0_111_1000001_0_10, 0b0_0_0_0_00000000_0000_00000101_00000100,
    0x10]),
  (.aarrive h7 (.v 3) 16, [
    0b00_00000011_00000000_0_111_1000001_0_10, 0b0_0_0_0_00000001_0000_00000000_00000000,
    0x10]),
  (.await h7 (.v 3) (.v 4) 16, [
    0b00_00000011_00000000_0_111_1000001_0_10, 0b0_0_0_0_00000010_0000_00000000_00000100,
    0x10])] := by decide +kernel

/-- spec/03 R45, R46, R53 and spec/04 R73: every instruction of these groups, its words field by field. -/
theorem test_decode_content : Reads [
  (.caint la3 true (.scratch (.v 3)) (.v 4) (.v 8), [
    0b00_00000011_00001000_0_111_1001000_0_10, 0b0_0_0_0_00000000_0011_00000000_00000100,
    0b0000_0000_0000_000_00000_0000_0000_0010]),
  (.caint h7 false (.tile 9 (.v 5)) (.v 4) (.v 8), [
    0b00_00001001_00001000_0_111_1001000_0_10, 0b0_0_0_0_00000000_0000_00000101_00000100,
    0b0000_0000_0000_000_00000_0000_0000_0001]),
  (.caget h7 (.v 3) (.v 5) (.v 4) 16, [
    0b00_00000101_00000011_0_111_1001000_0_10, 0b0_0_0_0_00000001_0000_00000000_00000100,
    0x10]),
  (.carel h7 (.v 4), [
    0b00_00000000_00000000_0_111_1001000_0_10, 0b0_0_0_0_00000010_0000_00000000_00000100,
    0]),
  (.caswap h7 (.v 8) (.v 2) (.v 4) (.v 12) 16, [
    0b00_00000010_00001000_0_111_1001000_0_10, 0b0_0_0_0_00000011_0000_00001100_00000100,
    0x10]),
  (.caexp h7 (.v 2) (.v 4) (.v 6) 16, [
    0b00_00000010_00000000_0_111_1001000_0_10, 0b0_0_0_0_00000100_0000_00000110_00000100,
    0x10])] := by decide +kernel

/-- spec/03 R45, R46, R53 and spec/04 R74: every instruction of these groups, its words field by field. -/
theorem test_decode_tile : Reads [
  (.tld h7 15 (.s 2) (.s 5) 7 16, [
    0b11_00000010_00001111_0_111_1010000_0_10, 0b0_0_1_1_00000000_0000_00101111_00000101,
    0x10]),
  (.tst h7 15 (.s 2) (.s 5) 7 16, [
    0b11_00000010_00001111_0_111_1010000_0_10, 0b0_0_1_1_00000001_0000_00101111_00000101,
    0x10]),
  (.tzero h7 15, [
    0b11_00000000_00001111_0_111_1010000_0_10, 0b0_0_0_0_00000010_0000_00000000_00000000,
    0]),
  (.tmov h7 15 1, [
    0b11_00000001_00001111_0_111_1010000_0_10, 0b0_0_0_0_00000011_0000_00000000_00000000,
    0]),
  (.txpose h7 15 1, [
    0b11_00000001_00001111_0_111_1010000_0_10, 0b0_0_0_0_00000100_0000_00000000_00000000,
    0]),
  (.tcvt h7 .ru 15 1, [
    0b11_00000001_00001111_0_111_1010000_0_10, 0b0_0_0_0_00000101_0000_00000000_00000000,
    0b0000_0000_0000_011_00000_0000_0000_0000]),
  (.movtc uni 9 (.s 6), [
    0b11_00000000_00011001_0_111_1010001_1_10, 0b0_0_1_0_00000000_0000_00000000_00000110,
    0]),
  (.rdtc uni (.s 6) 9, [
    0b01_00011001_00000110_0_111_1010001_1_10, 0b0_0_0_0_00000001_0000_00000000_00000000,
    0]),
  (.cvinit uni 1 .warp, [
    0b11_00000000_00101001_0_111_1010001_1_10, 0b0_0_0_0_00000010_0000_00000000_00000000,
    0x40000000]),
  (.cvinit uni 1 (.group 15), [
    0b11_00000000_00101001_0_111_1010001_1_10, 0b0_0_0_0_00000010_0000_00000000_00000000,
    0xf]),
  (.cvinit uni 1 (.mask (.s 6)), [
    0b11_00000000_00101001_0_111_1010001_1_10, 0b0_0_1_0_00000010_0000_00000000_00000110,
    0x80000000]),
  (.mma h7 1 2 3 4, [
    0b11_00000010_00100001_0_111_1010001_0_10, 0b0_0_0_0_00000011_0000_00101100_00000011,
    0b0000_0000_0000_000_00000_0000_0000_0000]),
  (.mdrain h7 ⟨.fd 6, .rz, true, false, false, true, 9⟩ 1 (.s 5) (.s 6) 4, [
    0b11_00000101_00100001_0_111_1010001_0_10, 0b0_0_1_1_00000100_0000_00101100_00000110,
    0b0000_0110_0000_001_01001_0000_1101_1001]),
  (.mclr h7 1 4, [
    0b11_00000000_00100001_0_111_1010001_0_10, 0b0_0_0_0_00000101_0000_00101100_00000000,
    0])] := by decide +kernel

/-- spec/03 R45, R46, R53 and spec/04 R75: every instruction of these groups, its words field by field. -/
theorem test_decode_groups : Reads [
  (.gbar h7 15, [
    0b00_00000000_00000000_0_111_1011000_0_10, 0b0_0_0_0_00000000_0000_00000000_00000000,
    0xf]),
  (.clbar h7, [
    0b00_00000000_00000000_0_111_1011000_0_10, 0b0_0_0_0_00000001_0000_00000000_00000000,
    0]),
  (.rolesw h7 3, [
    0b00_00000000_00000000_0_111_1011000_0_10, 0b0_0_0_0_00000010_0000_00000000_00000000,
    0x3]),
  (.roleswTry h7 5 3, [
    0b10_00000000_00000101_0_111_1011000_0_10, 0b0_0_0_0_00000011_0000_00000000_00000000,
    0x3]),
  (.wait h7 .lt .n64 5 (.v 2) (.v 4), [
    0b10_00000010_00000101_0_111_1011000_0_10, 0b0_0_0_0_00000100_0000_00000000_00000100,
    0b0000_0000_0011_000_00000_0000_1000_0000]),
  (.waitExt h7 .eq .i32 5 (.v 2) (.v 3), [
    0b10_00000010_00000101_0_111_1011000_0_10, 0b0_0_0_0_00000101_0000_00000000_00000011,
    0b0000_0000_0001_000_00000_0000_0011_0000]),
  (.wake h7 (.v 5) (.v 2) (.v 3), [
    0b00_00000010_00000101_0_111_1011000_0_10, 0b0_0_0_0_00000110_0000_00000000_00000011,
    0]),
  (.launch h7 (.v 2) (.v 4) (.v 6), [
    0b00_00000010_00000000_0_111_1011001_0_10, 0b0_0_0_0_00000000_0000_00000110_00000100,
    0]),
  (.launchTry h7 5 (.v 2) (.v 4) (.v 6), [
    0b10_00000010_00000101_0_111_1011001_0_10, 0b0_0_0_0_00000001_0000_00000110_00000100,
    0]),
  (.relaunch h7 (.v 2) (.v 4) (.v 6), [
    0b00_00000010_00000000_0_111_1011001_0_10, 0b0_0_0_0_00000010_0000_00000110_00000100,
    0]),
  (.place uni 5 (.s 2) (.s 5) (.s 6), [
    0b10_00000010_00000101_0_111_1011001_1_10, 0b0_1_1_1_00000011_0000_00000110_00000101,
    0]),
  (.evict uni 5 (.s 6), [
    0b10_00000000_00000101_0_111_1011001_1_10, 0b0_0_1_0_00000100_0000_00000000_00000110,
    0])] := by decide +kernel

/-- spec/03 R45, R46, R53 and spec/04 R75: every instruction of these groups, its words field by field. -/
theorem test_decode_exceptions : Reads [
  (.tryW h7 0x100, [
    0b00_00000000_00000000_0_111_1100000_0_10, 0b0_0_0_0_00000000_0000_00000000_00000000,
    0x100]),
  (.tryB h7 0x100, [
    0b00_00000000_00000000_0_111_1100000_0_10, 0b0_0_0_0_00000001_0000_00000000_00000000,
    0x100]),
  (.endtry h7, [
    0b00_00000000_00000000_0_111_1100000_0_10, 0b0_0_0_0_00000010_0000_00000000_00000000,
    0]),
  (.throw h7 (.v 3) (.v 4), [
    0b00_00000000_00000000_0_111_1100000_0_10, 0b0_0_0_0_00000011_0000_00000100_00000011,
    0]),
  (.rethrow h7, [
    0b00_00000000_00000000_0_111_1100000_0_10, 0b0_0_0_0_00000100_0000_00000000_00000000,
    0]),
  (.rdexc h7 9 (.v 4), [
    0b00_00000000_00000100_0_111_1100000_0_10, 0b0_0_0_0_00000101_0000_00000000_00000000,
    0x9]),
  (.clrexc h7, [
    0b00_00000000_00000000_0_111_1100000_0_10, 0b0_0_0_0_00000110_0000_00000000_00000000,
    0])] := by decide +kernel

/-- spec/03 R45, R46, R53 and spec/04 R75: every instruction of these groups, its words field by field. -/
theorem test_decode_system : Reads [
  (.trap h7 3 0xFFFF, [
    0b10_00000000_00000011_0_111_1101000_0_10, 0b0_0_0_0_00000000_0000_00000000_00000000,
    0xffff]),
  (.svc h7 5, [
    0b00_00000000_00000000_0_111_1101000_0_10, 0b0_0_0_0_00000001_0000_00000000_00000000,
    0x5]),
  (.brk h7 5, [
    0b00_00000000_00000000_0_111_1101000_0_10, 0b0_0_0_0_00000010_0000_00000000_00000000,
    0x5]),
  (.wrsr h7 0x10 (.v 4), [
    0b00_00000000_00000000_0_111_1101000_0_10, 0b0_0_0_0_00000011_0000_00000000_00000100,
    0x10]),
  (.eret h7, [
    0b00_00000000_00000000_0_111_1101000_0_10, 0b0_0_0_0_00000100_0000_00000000_00000000,
    0]),
  (.halt h7, [
    0b00_00000000_00000000_0_111_1101000_0_10, 0b0_0_0_0_00000101_0000_00000000_00000000,
    0]),
  (.pmcfg uni 7 (.s 5), [
    0b00_00000000_00000000_0_111_1101001_1_10, 0b0_0_1_0_00000000_0000_00000000_00000101,
    0x7]),
  (.pmrd h7 true 7 (.v 5), [
    0b00_00000000_00000101_0_111_1101001_0_10, 0b0_0_0_0_00000001_0000_00000000_00000000,
    0xf]),
  (.pmrd h7 false 7 (.v 4), [
    0b00_00000000_00000100_0_111_1101001_0_10, 0b0_0_0_0_00000001_0000_00000000_00000000,
    0x7]),
  (.dbgmark h7 0xBEEF, [
    0b00_00000000_00000000_0_111_1101001_0_10, 0b0_0_0_0_00000010_0000_00000000_00000000,
    0xbeef])] := by decide +kernel
/-- spec/03 R42..R44 and spec/04 R68: the base opcodes 0x00..0x3F in order, with D = 2, A = 0 and B = 4, guard 7 (NOP, with
every field 0 beside the guard, apart). -/
theorem test_decode_base :
    (List.range 63).map (fun n => (decode 256 [0b0_000100_000000_000010_111_0000001_0_00 + 8 * n]).toOption) =
      (let f : BaseF := ⟨7, false, 2, 0, .v 4⟩
      [.iaddI32Base f, .isubI32Base f, .imulI32Base f, .imulhI32Base f, .imulhN32Base f, .iminI32Base f, .iminN32Base f,
       .imaxI32Base f, .imaxN32Base f, .iaddI64Base f, .isubI64Base f, .imulI64Base f, .andN32Base f, .orN32Base f,
       .xorN32Base f, .shlN32Base f, .shrN32Base f, .sarI32Base f, .shlN64Base f, .shrN64Base f, .sarI64Base f,
       .popcN32Base f, .clzN32Base f, .ctzN32Base f, .brevN32Base f, .movBase f, .movlBase f, .leaN32S2Base f,
       .leaN32S3Base f, .leaI32S2Base f, .leaI32S3Base f, .faddF32Base f, .fmulF32Base f, .fminF32Base f, .fmaxF32Base f,
       .faddF16Base f, .fmulF16Base f, .faddBf16Base f, .fmulBf16Base f, .hadd2F16Base f, .hmul2F16Base f,
       .hadd2Bf16Base f, .hmul2Bf16Base f, .frndF32Base f, .cvtF32I32Base f, .cvtF32N32Base f, .cvtI32F32Base f,
       .cvtN32F32Base f, .cvtF32F16Base f, .cvtF16F32Base f, .cvtF32Bf16Base f, .cvtBf16F32Base f, .cvtF64F32Base f,
       .cvtF32F64Base f, .cvtI32I16Base f, .cvtI32I8Base f, .cvtN32N16Base f, .cvtN32N8Base f, .andN64Base f, .orN64Base f,
       .xorN64Base f, .iminI64Base f, .imaxI64Base f].map some) := by decide +kernel

/-- The fields of the base word (spec/03 R42..R44): scalar B, uniform D and A, the literal in B, and NOP. -/
theorem test_decode_base_fields : Reads [
  (.isubI32Base ⟨3, false, 61, 33, .s 17⟩, [0b1_010001_100001_111101_011_0000010_0_00]),
  (.iaddI64Base ⟨7, true, 60, 58, .v 2⟩, [0b0_000010_111010_111100_111_0001010_1_00]),
  (.movlBase ⟨7, true, 20, 0, .lit 0x00000001_FFFFFFF0⟩, [0b0_111111_000000_010100_111_0011011_1_01, 0xFFFFFFF0, 1]),
  (.nop ⟨0, false, 0, 0, .v 0⟩, [0b0_000000_000000_000000_000_0000000_0_00])] := by decide +kernel

/-- The reason of a refusal by the decoder. -/
def refusedFor (ws : List Nat) : Option Nat :=
  match decode 256 ws with
  | .ok _ => none
  | .error n => some n

/-- Words that are no instruction, with the reason of R63: the variations of spec/04's end (ORD = 10 on LD, group 0x36), a base
opcode of 0x40, an unlisted XOP, an odd pair, and a negated guard 7. -/
theorem test_decode_refusals :
    refusedFor [0x00810582, 0x02320000, 8] = some 0x0B ∧ refusedFor [0x008105B2, 0x01320000, 8] = some 0x01 ∧
    refusedFor [0b0_000100_000000_000010_111_1000000_0_00] = some 0x01 ∧
    refusedFor [0b00_00000011_00000010_0_111_0000000_0_10, 0b0_0_0_0_00000111_0000_00000000_00000100, 0x30] = some 0x02 ∧
    refusedFor [0b0_000011_000000_000010_111_0001010_0_00] = some 0x06 ∧
    refusedFor [0b00_00000011_00000010_1_111_0000000_0_10, 0b0_0_0_0_00000000_0000_00000000_00000100, 0x30] ≠ none := by
  decide +kernel

/-! ### Ill-formed terms, one for each check of `wellFormed` -/

/-- Guard, negation, lookahead and uniform marking (spec/03 R56..R58). -/
theorem test_ill_formed_header :
    [Instr.iadd ⟨8, false, false, 0⟩ .i32 (.v 2) (.v 3) (.v 4), .iadd ⟨7, true, false, 0⟩ .i32 (.v 2) (.v 3) (.v 4),
      .frsq ⟨7, false, false, 16⟩ (.v 2) (.v 3), .iadd ⟨7, false, false, 1⟩ .i32 (.v 2) (.v 3) (.v 4), .sflush h7,
      .bar uni].all (fun i => !wellFormed i) = true := by decide +kernel

/-- Register indices and classes of extended forms (spec/03 R47..R51). -/
theorem test_ill_formed_registers :
    [Instr.iadd h7 .i32 (.v 256) (.v 3) (.v 4), .iadd h7 .i32 (.v 255) (.v 3) (.v 4), .iadd h7 .i32 (.v 2) (.v 255) (.v 4),
      .iadd h7 .i32 (.v 2) (.s 63) (.v 4), .iadd h7 .i32 (.v 2) (.s 64) (.v 4), .iadd uni .i32 (.s 63) (.v 3) (.v 4),
      .iadd h7 .i32 (.s 2) (.v 3) (.v 4), .iadd h7 .i64 (.v 3) (.v 4) (.v 6), .iadd h7 .i64 (.v 2) (.v 254) (.v 6),
      .iadd h7 .i64 (.v 2) (.s 62) (.v 6), .caget h7 (.v 2) (.v 4) (.v 6) 0, .matchLanes h7 false (.v 2) (.s 4) (.v 6),
      .matchLanes h7 false (.s 2) (.v 4) (.v 6), .expld h7 .i32 (.v 2) (.v 4) 0 0, .smap uni 0 (.v 2) (.s 4) (.s 5),
      .rdtc uni (.v 2) 0].all (fun i => !wellFormed i) = true := by decide +kernel

/-- Predicates, auxiliary and completion registers, literals that disagree or have no field (spec/03 R47, R49, R51). -/
theorem test_ill_formed_operands :
    [Instr.sel h7 false (.v 2) (.v 3) (.v 4) 8, .icmp h7 .eq .i32 8 (.v 3) (.v 4), .tzero h7 16, .mclr h7 2 0, .mclr h7 0 8,
      .cqwait uni 8, .iadd h7 .i32 (.v 2) (.lit 1) (.lit 2), .matchLanes h7 false (.v 2) .zero (.lit 1),
      .mdrain h7 ⟨.f32, .rne, false, false, false, false, 0⟩ 0 (.v 4) (.s 6) 0].all (fun i => !wellFormed i) = true := by
  decide +kernel

/-- Types, operations and immediates that an instruction does not accept (spec/03 R53, R54; spec/04 R70). -/
theorem test_ill_formed_modifiers :
    [Instr.iadd h7 .f32 (.v 2) (.v 3) (.v 4), .imulh h7 .i8 (.v 2) (.v 3) (.v 4), .imad h7 true .i64 (.v 2) (.v 4) (.v 6) (.v 8),
      .lea h7 .i32 32 (.v 2) (.v 4) (.v 6), .cvt h7 true (.std .f32) (.std .i32) .rne (.v 2) (.v 3),
      .cvt h7 false (.std .f64) (.std .f32) .rz (.v 2) (.v 3), .cvt h7 false (.fd 16) (.std .f32) .rne (.v 2) (.v 3),
      .pack h7 (.std .i8) (.std .f32) .rne 4 (.v 2) (.v 3) (.v 4), .shfl h7 .rot 6 (.v 2) (.v 3) (.v 4) .zero,
      .redux h7 .and .i32 .rne (.v 2) (.v 3) .zero, .ld h7 .rel .i32 (.v 4) (.v 2) 0, .st h7 .acq .i32 (.v 4) (.v 2) 0,
      .pref h7 3 (.v 4) 0, .atom h7 .add .plain .w128 (.v 4) (.v 8) (.v 12) .zero 0,
      .atom h7 .add .plain .w32 (.v 4) (.v 8) (.v 12) (.v 1) 0, .red h7 .exch .plain .w32 (.v 4) (.v 2) 0, .xfence h7 1 1,
      .smap uni 16 (.s 2) (.s 4) (.s 5), .gbar h7 16, .rolesw h7 4, .rdsr h7 0x14 (.v 2), .wrsr h7 0 (.v 2), .rdexc h7 11 (.v 2),
      .throw h7 (.lit 0xFFFF) (.v 2), .pmcfg uni 8 (.s 2), .cvinit uni 0 (.group 16)].all (fun i => !wellFormed i) = true := by
  decide +kernel

/-- Base words: guard, marking, indices, pairs and unused fields (spec/03 R42..R44; spec/04 R69). -/
theorem test_ill_formed_base :
    [Instr.iaddI32Base ⟨8, false, 2, 3, .v 4⟩, .nop ⟨7, true, 0, 0, .v 0⟩, .nop ⟨7, false, 1, 0, .v 0⟩,
      .iaddI32Base ⟨7, false, 64, 3, .v 4⟩, .iaddI32Base ⟨7, false, 2, 64, .v 4⟩, .iaddI32Base ⟨7, false, 2, 3, .v 64⟩,
      .iaddI32Base ⟨7, false, 2, 3, .s 64⟩, .iaddI64Base ⟨7, false, 3, 2, .v 4⟩, .iaddI64Base ⟨7, true, 2, 62, .v 4⟩,
      .movBase ⟨7, false, 2, 3, .v 4⟩].all (fun i => !wellFormed i) = true := by decide +kernel

/-- An event needs no check. -/
theorem test_well_formed_event : wellFormed (.regroup 0) = true := by decide +kernel

end Sys2Proof.Tests
end

