-- ==== Sys2Proof/Tests/Small.lean ====
section
/-! SUPPORT. The small state of the witnesses, and checkers that decide the hypotheses of the statements on it. -/
namespace Sys2Proof.Tests
open Sys2Proof Sys2Proof.Machine
-- One theorem after another: the checks of several at once need too much memory.
set_option Elab.async false

/-! ### A small state: two threads of one warp of one block -/

/-- A page of 64 KiB of function 1 at 0x10000, at physical 0x40000. -/
abbrev page : Xlat := ⟨1, 0x10000, 16, 0x40000, true, true, false, false⟩
abbrev thr0 : Thread := { live := true, pc := 0x10000, lastPage := some page }
abbrev blk0 : Block :=
  { fn := 1, lid := 5, status := .running, parts := [0], nwarps := 1, roles := [{}], groups := [1],
    threads := [(0, thr0), (1, thr0)], warps := [(0, { regs := 256, tiles := 16, acc := 2, stackLimit := 0x1000 })],
    scratchSize := 0x1000, stashSize := 0x1000 }
/-- Block 7 issues at 0x10000 for threads `ts`. -/
abbrev small (k : Block) (ts : List Nat) : State :=
  { State.reset with blocks := [(7, some k)], sel := { blk := 7, pc := 0x10000, thrs := ts, words := 3 }, bootState := 2 }
abbrev s2 : State := small blk0 [0, 1]
abbrev s1 : State := small { blk0 with threads := [(0, thr0)] } [0]

abbrev hd : Hdr := ⟨7, false, false, 0⟩
abbrev hu : Hdr := ⟨7, false, true, 0⟩
abbrev hl : Hdr := ⟨7, false, false, 15⟩
/-- A guard that holds in no thread of a state whose predicates are all false. -/
abbrev hg : Hdr := ⟨0, false, false, 0⟩

/-- What holds of no block and of each block that is named holds of every handle. -/
theorem blk_all {s : State} {P : Block → Prop} [DecidablePred P] (h0 : P {})
    (h : s.blocks.all (fun e => decide (P (e.2.getD {}))) = true) (c : Nat) : P (s.blk c) := by
  unfold State.blk
  revert h
  generalize s.blocks = m
  induction m with
  | nil => exact fun _ => h0
  | cons e m ih =>
    intro h
    simp only [List.all_cons, Bool.and_eq_true, decide_eq_true_eq] at h
    unfold Map.get
    split
    · exact h.1
    · exact ih h.2

/-! ### Issue -/

def passesB (s : State) (i : Instr) : Bool :=
  match uses (expand i) with
  | none => false
  | some f =>
    wellFormed i && !s.hole && (s.blocks.get none s.sel.blk).isSome && decide s.sel.thrs.Nodup &&
      s.sel.thrs.all (fun t => decide (warpOf t = s.wp)) && decide (s.executing f.h ≠ []) &&
      (s.executing f.h).all (fun t =>
        !s.bk.hazardous t s.wp (touches (expand i) f ++ s.bk.tcNames s.wp (expand i))) &&
      (!f.h.u || s.bk.uniform f s.wp s.sel.thrs)

theorem passes_of {s : State} {i : Instr} (h : passesB s i = true) : ∃ f, uses (expand i) = some f ∧ s.Passes i f := by
  unfold passesB at h
  split at h
  · cases h
  · rename_i f hf
    simp only [Bool.and_eq_true, Bool.not_eq_true', decide_eq_true_eq, List.all_eq_true, Bool.or_eq_true] at h
    obtain ⟨⟨⟨⟨⟨⟨⟨hwf, hh⟩, hb⟩, hd⟩, hw⟩, hr⟩, hz⟩, hu⟩ := h
    exact ⟨f, hf, hwf, hf, hh, hb, hd, hw, hr, hz, fun e => hu.resolve_left (by simp [e])⟩

/-- Every instruction of a list passes the checks of issue. -/
def Ready (s : State) (l : List Instr) : Prop := ∀ i ∈ l, ∃ f, s.Passes i f

theorem ready_of {s : State} {l : List Instr} (h : l.all (passesB s) = true) : Ready s l := fun i hi =>
  let ⟨f, _, hf⟩ := passes_of (List.all_eq_true.1 h i hi)
  ⟨f, hf⟩

theorem passes_with {s : State} {i : Instr} {P : Prop} (h : passesB s i = true) (p : P) : ∃ f, s.Passes i f ∧ P :=
  let ⟨f, _, hf⟩ := passes_of h
  ⟨f, hf, p⟩

/-! ### One thread with plain memory -/

def plainB (s : State) : Bool :=
  !s.bk.contained && decide (s.bk.buf = [] ∧ s.bk.merges = []) && decide (s.bk.trace = none) && decide (s.bk.smaps = []) &&
    decide (s.poisoned = []) && decide (s.reds = []) && decide (s.watches = []) && decide (s.roasts = [] ∧ s.sideTags = []) &&
    decide (s.l1Count s.bk.core + 128 < l1Cap) && s.bk.pend.all (fun p => decide (p.k = none ∧ p.log = none))

theorem plain_of {s : State} (h : plainB s = true) : s.PlainMem := by
  simp only [plainB, Bool.and_eq_true, Bool.not_eq_true', decide_eq_true_eq, List.all_eq_true] at h
  obtain ⟨⟨⟨⟨⟨⟨⟨⟨⟨a, b⟩, c⟩, d⟩, e⟩, f⟩, g⟩, i⟩, j⟩, k⟩ := h
  exact ⟨a, b, c, d, e, f, g, i, j, k⟩

/-- Where the core has no copy, a plain load reads what the block sees. -/
theorem reads_eq {s : State} {b pa n : Nat} {bs : List Byte}
    (h : ∀ j < n, s.l1At (s.blk b).core ((pa + j) / 128) = none) (hr : s.Reads b pa n bs) : bs = s.view b pa n := by
  refine List.ext_getElem (by simp [hr.1, State.view]) fun j h1 h2 => ?_
  have hj : j < n := hr.1 ▸ h1
  rcases hr.2 j hj with hm | ⟨l, hl, _⟩
  · simpa [State.view, List.getD_eq_getElem?_getD, h1] using hm
  · rw [h j hj] at hl; cases hl

def plainForB (s : State) (b : Nat) : Bool :=
  !(s.blk b).contained && decide ((s.blk b).buf = [] ∧ (s.blk b).merges = []) && decide ((s.blk b).trace = none) &&
    decide (s.poisoned = []) && decide (s.watches = []) && decide (s.roasts = [] ∧ s.sideTags = [])
theorem plain_for_of {s : State} {b : Nat} (h : plainForB s b = true) : s.PlainFor b := by
  simp only [plainForB, Bool.and_eq_true, Bool.not_eq_true', decide_eq_true_eq] at h
  obtain ⟨⟨⟨⟨⟨a, b⟩, c⟩, d⟩, e⟩, f⟩ := h
  exact ⟨a, b, c, d, e, f⟩

def soloB (s : State) (i : Instr) (x : Nat) : Bool :=
  passesB s i && plainB s && (match uses (expand i) with
    | none => false
    | some f => decide (s.acting f.h = [x]))

theorem solo_with {s : State} {i : Instr} {x : Nat} {P : Prop} (h : soloB s i x = true) (p : P) : ∃ f, s.Solo i f x ∧ P := by
  simp only [soloB, Bool.and_eq_true] at h
  obtain ⟨⟨hp, hm⟩, hs⟩ := h
  obtain ⟨f, hf, hp⟩ := passes_of hp
  rw [hf] at hs
  exact ⟨f, { toPasses := hp, toPlainMem := plain_of hm, sole := of_decide_eq_true hs }, p⟩

def reachesB (s : State) (x : Nat) (ea : DWord) (n align : Nat) (kind : AccKind) (pa : Nat) : Bool :=
  canonical ea && !inFabric ea && !inAperture ea && decide (ea.toNat % align = 0) &&
    (match (s.bk.thr x).lastPage with
      | none => false
      | some pg => pg.holds s.bk.fn ea.toNat && pg.permits kind && !pg.decaf && decide (pa = pg.addr ea.toNat)) &&
    decide (pa + n ≤ memEnd) && decide (s.bk.fn ≠ fwFn) &&
    (List.range ((pa + n - 1) / 128 + 1 - pa / 128)).all fun j => !s.misCached s.bk.core false (pa / 128 + j) &&
      (s.l1At s.bk.core (pa / 128 + j)).all fun x => decide (x.data.length = 128)

theorem reaches_of {s : State} {x : Nat} {ea : DWord} {n align : Nat} {kind : AccKind} {pa : Nat}
    (h : reachesB s x ea n align kind pa = true) : s.Reaches x ea n align kind pa := by
  unfold reachesB at h
  simp only [Bool.and_eq_true, Bool.not_eq_true', decide_eq_true_eq, List.all_eq_true, List.mem_range] at h
  obtain ⟨⟨⟨⟨⟨⟨⟨c, f⟩, a⟩, al⟩, pg⟩, dv⟩, own⟩, ln⟩ := h
  have hl : ∀ l, pa / 128 ≤ l → l ≤ (pa + n - 1) / 128 → s.misCached s.bk.core false l = false ∧
      (s.l1At s.bk.core l).all (fun x => decide (x.data.length = 128)) = true := fun l h1 h2 => by
    have h := ln (l - pa / 128) (by omega)
    rwa [Nat.add_sub_cancel' h1] at h
  split at pg
  · cases pg
  · rename_i p hp
    simp only [Bool.and_eq_true, Bool.not_eq_true', decide_eq_true_eq] at pg
    obtain ⟨⟨⟨a1, a2⟩, a3⟩, a4⟩ := pg
    exact ⟨⟨c, f, a⟩, al, ⟨p, hp, a1, a2, a3, a4⟩, dv, own, fun l h1 h2 => (hl l h1 h2).1,
      fun l x h1 h2 hx => by simpa [hx] using (hl l h1 h2).2⟩

/-! ### Gatherings -/

def gathersB (s : State) (i : Instr) (m : Src) : Bool :=
  passesB s i &&
    s.sel.thrs.all (fun x => decide (s.bk.members s.wp (s.bk.word x m) = s.sel.thrs) &&
      s.sel.thrs.all (fun y => decide (s.bk.word x m = s.bk.word y m))) &&
    s.sel.thrs.all (s.bk.arrived s.sel.pc) &&
    (s.bk.liveOf s.wp).all (fun x => s.sel.thrs.contains x || !s.bk.arrived s.sel.pc x ||
      (s.bk.members s.wp (s.bk.word x m)).all fun y => !s.sel.thrs.contains y)

theorem gathers_with {s : State} {i : Instr} {m : Src} {P : Prop} (h : gathersB s i m = true) (p : P) :
    ∃ f, s.Gathers i f m ∧ P := by
  simp only [gathersB, Bool.and_eq_true, List.all_eq_true, decide_eq_true_eq, Bool.or_eq_true, Bool.not_eq_true',
    List.contains_eq_mem, decide_eq_false_iff_not] at h
  obtain ⟨⟨⟨hp, hs⟩, ha⟩, ho⟩ := h
  obtain ⟨f, _, hp⟩ := passes_of hp
  refine ⟨f, { toPasses := hp, same := hs, here := ha, others := fun x hx hn hr y hy => ?_ }, p⟩
  rcases ho x hx with (h | h) | h
  · exact absurd h hn
  · rw [hr] at h; cases h
  · exact h y hy

/-- Every instruction of a list gathers the bundle. -/
def Gathering (s : State) (l : List (Instr × Src)) : Prop := ∀ e ∈ l, ∃ f, s.Gathers e.1 f e.2

theorem gathering_of {s : State} {l : List (Instr × Src)} (h : l.all (fun e => gathersB s e.1 e.2) = true) :
    Gathering s l := fun e he =>
  let ⟨f, hf, _⟩ := gathers_with (List.all_eq_true.1 h e he) trivial
  ⟨f, hf⟩

/-! ### Convergence-issued instructions -/

def signsB (s : State) (i : Instr) (n : Nat) (val : QWord) : Bool :=
  match uses i with
  | none => false
  | some f =>
    let k := s.bk.kreg n
    wellFormed i && decide (convReg i = some n) && !s.hole && (s.blocks.get none s.sel.blk).isSome && decide s.sel.thrs.Nodup &&
      decide (s.sel.thrs ≠ []) && s.sel.thrs.all (fun x => decide (x < 1024) && k.set.getLsbD x && !k.signed.getLsbD x &&
        decide (s.bk.convVal x i = val) && (!(s.bk.thr x).guard f.h ||
          !s.bk.hazardous x k.anchor (touches i f ++ s.bk.tcNames k.anchor i))) &&
      decide (k.kind ≠ 0) && (decide (k.signed = 0) || decide (k.opPc = s.sel.pc ∧ k.opVal = val)) && s.bk.convNamed k.anchor i

theorem signs_of {s : State} {i : Instr} {n : Nat} {val : QWord} (h : signsB s i n val = true) :
    ∃ f, uses i = some f ∧ s.Signs i f n val := by
  unfold signsB at h
  split at h
  · cases h
  · rename_i f hf
    simp only [Bool.and_eq_true, Bool.not_eq_true', decide_eq_true_eq, List.all_eq_true, Bool.or_eq_true] at h
    obtain ⟨⟨⟨⟨⟨⟨⟨⟨⟨a, b⟩, c⟩, d⟩, e⟩, g⟩, j⟩, k⟩, l⟩, m⟩ := h
    exact ⟨f, hf, a, hf, b, c, d, e, g, fun x hx => (j x hx).1.1.1.1, k, fun x hx => (j x hx).1.1.1.2,
      fun x hx => (j x hx).1.1.2, fun x hx => (j x hx).1.2, l, m,
      fun x hx hg => (j x hx).2.resolve_left (by simp [hg])⟩

/-- A register of 1024 bits with its two lowest bits set. -/
theorem two_bits (x : Nat) : (3#1024).getLsbD x = true ↔ x ∈ [0, 1] := by
  rw [BitVec.getLsbD_ofNat]
  simp only [List.mem_cons, List.not_mem_nil, or_false, Bool.and_eq_true, decide_eq_true_eq]
  constructor
  · rintro ⟨_, h⟩
    rcases x with _ | _ | x
    · exact .inl rfl
    · exact .inr rfl
    · rw [Nat.testBit_eq_decide_div_mod_eq, Nat.div_eq_of_lt] at h
      · simp at h
      · exact Nat.lt_of_lt_of_le (by decide : 3 < 2 ^ 2) (Nat.pow_le_pow_right (by decide) (by omega))
  · rintro (rfl | rfl) <;> decide

/-- The register's set and the issuing threads are threads 0 and 1. -/
def convergesB (s : State) (i : Instr) (n : Nat) (val : QWord) : Bool :=
  signsB s i n val && decide ((s.bk.kreg n).set = 3#1024 ∧ s.sel.thrs = [0, 1]) && plainB s && decide ((s.bk.kreg n).signed = 0) &&
    (match uses i with
      | none => false
      | some f => s.sel.thrs.any fun x => (s.bk.thr x).guard f.h) &&
    decide (s.bk.liveThreads.filter (fun x => (s.bk.kreg n).set.getLsbD x) = s.sel.thrs) &&
    s.bk.pend.all (fun p => decide (p.id < s.nextId)) && decide (s.oplog = [])

theorem converges_with {s : State} {i : Instr} {n : Nat} {val : QWord} {P : Prop}
    (h : convergesB s i n val = true) (p : P) :
    ∃ f, s.Converges i f n val ∧ P := by
  simp only [convergesB, Bool.and_eq_true, decide_eq_true_eq, List.all_eq_true] at h
  obtain ⟨⟨⟨⟨⟨⟨⟨a, w⟩, b⟩, c⟩, d⟩, e⟩, g⟩, j⟩ := h
  obtain ⟨f, hf, a⟩ := signs_of a
  rw [hf] at d
  exact ⟨f, { toSigns := a, toPlainMem := plain_of b, whole := fun x => by rw [w.1, w.2]; exact two_bits x, fresh := c, live := by simpa using d, alive := e,
              ids := g, noLog := j }, p⟩

/-! ### Exceptions -/

/-- Threads that can raise. -/
theorem can_raise_of {s : State} {x : Nat}
    (h : (!s.bk.agent && (s.bk.thr x).live && decide ((s.bk.thr x).raised = none)) = true) : s.CanRaise x := by
  simp only [Bool.and_eq_true, Bool.not_eq_true', decide_eq_true_eq] at h
  exact ⟨h.1.1, h.1.2, h.2⟩

/-! ### Answers -/

def okB {ε α : Type} [DecidableEq α] (e : Except ε α) (y : α) : Bool := match e with
  | .ok x => decide (x = y)
  | .error _ => false
theorem ok_of {ε α : Type} [DecidableEq α] {e : Except ε α} {y : α} (h : okB e y = true) : e = .ok y := by
  unfold okB at h
  split at h
  · rw [of_decide_eq_true h]
  · cases h
def errorB {ε α : Type} [DecidableEq ε] (e : Except ε α) (y : ε) : Bool := match e with
  | .ok _ => false
  | .error x => decide (x = y)
theorem error_of {ε α : Type} [DecidableEq ε] {e : Except ε α} {y : ε} (h : errorB e y = true) : e = .error y := by
  unfold errorB at h
  split at h
  · cases h
  · rw [of_decide_eq_true h]

end Sys2Proof.Tests
end

