-- ==== Sys2Proof/Tests/WitnessDevice.lean ====
section
/-! SUPPORT. States that meet the hypotheses of the statements: the host path and the fabric, ownership and the directory, scheduling,
windows and vaults, power, boot and the security core. -/
namespace Sys2Proof.Tests
open Sys2Proof Sys2Proof.Machine
-- One theorem after another: the checks of several at once need too much memory.
set_option Elab.async false

/-! ### The host path and the fabric -/

/-- Memory whose first 1 GiB function 0 translates to itself: three levels of its table, the last a leaf. -/
abbrev mapped : List Host.Cell :=
  Map.setList 0 (Map.setList 0 (Map.setList 0 [] 0x1000 (leBytes 8 0x2001)) 0x2000 (leBytes 8 0x3001)) 0x3000 (leBytes 8 0x1B)
/-- Function 0, its table's root, and a receive window of 64 KiB at 0x10000 with 2 counters at 0x5000. -/
abbrev fn0 : Fn := { s1root := 0x1001, rxCtl := 0x10001, rxSize := 0x10000, rxCtr := 0x5002 }
abbrev sFab : State := { State.reset with mem := mapped, fns := [(0, fn0)], bootState := 2 }
/-- A frame with a byte for the last place of the window, and its variants. -/
abbrev frame0 : Frame :=
  { port := 3, ver := 1, seq := 0xFFFFFFFF, smod := 9, dmod := 0, svfn := 1, dvfn := 0, arg := 0xFFFF, xid := 4, rxslot := 1, rxnote := true,
    last := true, payload := [0xAB], good := true }
/-- A watch window of two tiles at 0x10000, whose maps lie at 0x100000. -/
abbrev watch0 : Watch := { ctl := 0x10001, limit := 0x20000, map := 0x100000 }

/-- `HostWrites`: the last byte of device memory; the last window, and the last tile of it. -/
theorem witness_host_writes :
    (State.reset.hole = false ∧ State.reset.poisoned = [] ∧ 0x1FFFFFFFFF + [(7 : Byte)].length = memEnd ∧ State.reset.watches = [] ∧
      State.reset.roasts = [] ∧ State.reset.links = []) ∧
    (let s := { State.reset with watches := [(31, watch0)] };
      (s.watch 31).en = true ∧ (s.watch 31).first ≤ 0x2FFFF ∧ 0x2FFFF = (s.watch 31).last ∧ 0x2FFFF % 65536 + [(7 : Byte)].length ≤ 65536) :=
  ⟨⟨rfl, rfl, by decide, rfl, rfl, rfl⟩, by decide +kernel⟩

/-- `DataFrames`, `ReceiveNotes`: good, damaged and refused, and a note for the last counter. -/
theorem witness_frames :
    sFab.hole = false ∧ frame0.ver = 1 ∧ frame0.dmod = sFab.moduleNo ∧ frame0.payload.length ≤ 4096 ∧ frame0.payload ≠ [] ∧
      frame0.good = true ∧ sFab.known frame0 = false ∧ (sFab.fn frame0.dvfn).receives frame0 = true ∧
      (sFab.fn 0).receives { frame0 with arg := 0x10000 } = false ∧ (sFab.fn 0).receives { frame0 with rxslot := 2 } = false ∧
      sFab.cpPieces 0 .write 3 (addr (bits64 (sFab.fn 0).rxCtl 63 16 * 65536 + bits64 frame0.arg 34 0)) 1 = .ok [(0x1FFFF, 1)] ∧
      frame0.rxslot < bits64 (sFab.fn frame0.dvfn).rxCtr 11 0 ∧ frame0.dvfn ≤ 64 ∧ sFab.poisoned = [] ∧ sFab.watches = [] ∧
      sFab.roasts = [] ∧ sFab.hostQ = [] ∧ 0x5008 + 8 ≤ memEnd ∧
      sFab.cpPieces 0 .write 2 (addr (bits64 (sFab.fn 0).rxCtr 63 12 * 4096 + 8 * frame0.rxslot)) 8 = .ok [(0x5008, 8)] :=
  ⟨rfl, rfl, rfl, by decide, by decide, rfl, by decide +kernel, by decide +kernel, by decide +kernel, by decide +kernel,
    ok_of (by decide +kernel), by decide +kernel, by decide, rfl, rfl, rfl, rfl, by decide, ok_of (by decide +kernel)⟩

/-- A copy to another module that thread 0 of block 7 started. -/
abbrev fabCopy : Copy :=
  { id := 4, core := 0, blk := 7, thr := 0, pc := 0x10000, recAddr := 0, fn := 1, src := 0x10000, dst := 0xFF000000_00000000,
    rows := 1, rowBytes := 1, bytes := 1, sstride := 0, dstride := 0, aoff := 0xFFFFFFFF, srcSp := false, dstSp := false, rxNote := false,
    rxSlot := 0, todo := [] }
/-- The frame `frame0` waits for its ACK after `n` tries. -/
abbrev sSent (n : Nat) : State :=
  { s1 with links := [{ port := 3, peer := 9, unacked := [(frame0, n)] }], copies := [fabCopy], routes := [(3, 9), (5, 9)] }
/-- `FabricAnswers`, `FrameRetransmission`: with a frame that waits and without, tries left and none, on the first of two ports and on
the last. -/
theorem witness_fabric :
    (∀ n, (sSent n).hole = false ∧ ((sSent n).link frame0.port frame0.smod).unacked = [(frame0, n)] ∧ (sSent n).copies = [fabCopy] ∧
      (sSent n).portsTo 9 = [3, 5] ∧ (sSent n).hasBlk 7 ∧ ((sSent n).thr 7 0).live = true) ∧
    (7 % 9 < 8 ∧ 16 % 9 < 8 ∧ 3 < 5 ∧ 17 % 9 = 8 ∧ [3, 5].length ≤ 17 / 9 + 1) ∧
    inFabric fabCopy.dst = true ∧ fabCopy.stopped = false ∧ fabCopy.id % 2 ^ 32 = frame0.xid ∧ fabCopy.packet = none ∧ sFab.copies = [] ∧
    (frame0.ver = 1 ∧ frame0.dmod = (sSent 0).moduleNo ∧ frame0.payload.length ≤ 4096 ∧ frame0.good = true) :=
  ⟨fun _ => ⟨rfl, rfl, rfl, (by decide : (sSent 0).portsTo 9 = [3, 5]), rfl, rfl⟩, by decide, by decide +kernel, rfl, by decide, rfl, rfl, rfl, rfl, by decide, rfl⟩

/-! ### Ownership and the directory -/

/-- A state of the directory for the last line of memory: its entry, and the state of each die that holds it. -/
abbrev sDir (x : Dir) (ls : List (Nat × L2)) : State :=
  { State.reset with dir := [(0x3FFFFFFF, x)], l2 := ls.map fun e => (l2Key e.1 0x3FFFFFFF, e.2) }
/-- `WordOwnership`: the last word of memory, of the last core, whose die holds the line in M, and in E. -/
theorem witness_word_ownership : ∀ x, x = L2.m ∨ x = L2.e →
    let l : L1Line := { data := List.replicate 128 5, valid := 0xFF#128 <<< 120, dirty := 0xF#128 <<< 124 }
    let s := { sDir {} [(3, x)] with
      pendReg := [(255, 0x7FFFFFFFF)], owners := [(0x7FFFFFFFE, some 255), (0x7FFFFFFFF, some 0)]
      cores := [(255, { l1 := [(0x3FFFFFFF, some l)] })] }
    s.hole = false ∧ (255, 0x7FFFFFFFF) ∈ s.pendReg ∧ 0x7FFFFFFFF / 32 < 0x40000000 ∧
      s.l2At (dieOf 255) (0x7FFFFFFFF / 32) = x ∧ s.l1At 255 (0x7FFFFFFFF / 32) = some l ∧ l.decaf = false ∧
      s.ownByte 255 0x1FFFFFFFFF = some 5 ∧ 0x1FFFFFFFFF / 8 = 0x7FFFFFFFF / 2 ∧
      ∀ w, (255, w) ∈ s.pendReg → w = 0x7FFFFFFFF := by
  rintro x (rfl | rfl)
  all_goals
    exact ⟨rfl, by decide, by decide, by decide +kernel, by decide +kernel, rfl, by decide +kernel, by decide, fun w h => by
      simpa using h⟩
/-- `HomeRequests`: of die 3, for a line that no die holds, that die 0 shares, and that die 0 owns. -/
theorem witness_home_requests :
    (∀ x, x = ({} : Dir) ∨ x = { owner := 0, pres := 1, state := 1 } ∨ x = { owner := 0, pres := 1, state := 2 } →
      let s := sDir x []
      s.hole = false ∧ s.lineBusy 0x3FFFFFFF = false ∧ s.decaf 3 0x3FFFFFFF = none ∧ s.filterAt 3 0x3FFFFFFF = [] ∧
        s.l2At 3 0x3FFFFFFF = .i ∧ s.owners = [] ∧ s.wbs = [] ∧ s.dirAt 0x3FFFFFFF = x) ∧ ({ owner := 0, pres := 1, state := 2 } : Dir) = { owner := 0, pres := 1#4 <<< 0, state := 2 } := by
  refine ⟨?_, rfl⟩
  rintro x (rfl | rfl | rfl)
  all_goals exact ⟨rfl, rfl, rfl, rfl, rfl, rfl, rfl, rfl⟩
/-- `HomeUpgrades`: die 3 holds the line alone, and with die 0. -/
theorem witness_home_upgrades : ∀ o < 4, o ≠ 3 → ∀ x, x = ({ pres := 1#4 <<< 3, state := 1 } : Dir) ∨
      x = { pres := (1#4 <<< 3 ||| 1#4 <<< o), state := 1 } →
    let s := { sDir x [(3, .s)] with filters := [(filterKey 3 0x3FFFFFFF, [(0x3FFFFFFF, 1)])] }
    s.hole = false ∧ s.lineBusy 0x3FFFFFFF = false ∧ s.decaf 3 0x3FFFFFFF = none ∧ s.l2At 3 0x3FFFFFFF = .s ∧ s.wbs = [] ∧
      s.dirAt 0x3FFFFFFF = x ∧ s.filterAt 3 0x3FFFFFFF = [(0x3FFFFFFF, 1)] :=
  fun _ _ _ _ _ => ⟨rfl, rfl, rfl, rfl, rfl, rfl, if_pos rfl⟩
/-- `SnoopAnswers`: die 0 owns the line in M; die 3 has asked for it. -/
theorem witness_snoops : ∀ r k, (r, k) = (Req.rds, 0) ∨ (r, k) = (Req.rdx, 1) ∨ (r, k) = (Req.upg, 2) →
    let s := { sDir { owner := 0, pres := 1, state := 2 } [(0, .m)] with
      txns := [{ line := 0x3FFFFFFF, die := 3, req := r, snoops := [(0, k)], newDir := {} }] }
    s.hole = false ∧ s.filterAt 3 0x3FFFFFFF = [] ∧ s.l2At 0 0x3FFFFFFF = .m ∧ s.wbs = [] ∧ s.lineBusy 0x3FFFFFFF = true :=
  fun _ _ _ => ⟨rfl, rfl, rfl, rfl, rfl⟩
/-- `CacheEvictions`: an owner in M and in E, and a sharer and an owner in O beside each other die; `witness_snoops` has a line that is
busy. -/
theorem witness_evictions :
    (∀ x, x = L2.m ∨ x = L2.e → let s := sDir { owner := 3, pres := 8, state := 2 } [(3, x)];
      s.hole = false ∧ s.lineBusy 0x3FFFFFFF = false ∧ s.watches = [] ∧ s.roasts = [] ∧ s.l2At 3 0x3FFFFFFF = x ∧
        (s.dirAt 0x3FFFFFFF).state = 2 ∧ (s.dirAt 0x3FFFFFFF).owner = 3) ∧
    (∀ o < 4, o ≠ 3 → let s := sDir { owner := 0, pres := (1#4 <<< 3 ||| 1#4 <<< o), state := 1 } [(3, .s)];
      s.l2At 3 0x3FFFFFFF = .s ∧ s.dirAt 0x3FFFFFFF = { owner := 0, pres := (1#4 <<< 3 ||| 1#4 <<< o), state := 1 }) ∧
    (∀ o < 4, o ≠ 3 → let s := sDir { owner := 3, pres := (1#4 <<< 3 ||| 1#4 <<< o), state := 3 } [(3, .o)];
      s.l2At 3 0x3FFFFFFF = .o ∧ s.dirAt 0x3FFFFFFF = { owner := 3, pres := (1#4 <<< 3 ||| 1#4 <<< o), state := 3 }) := by
  refine ⟨?_, fun _ _ _ => ⟨rfl, rfl⟩, fun _ _ _ => ⟨rfl, rfl⟩⟩
  rintro x (rfl | rfl)
  all_goals exact ⟨rfl, rfl, rfl, rfl, by decide +kernel, rfl, rfl⟩
/-- A decaf copy of the last line, dirty in its last byte. -/
abbrev decaf0 : Decaf := { data := List.replicate 128 3, dirty := 1#128 <<< 127 }
/-- `DecafWriteback`, and `HomeRequests` for a line that the die holds as a decaf copy. -/
theorem witness_decaf :
    let s := ({ State.reset with bootState := 2 } : State).setDecaf 3 0x3FFFFFFF (some decaf0)
    s.hole = false ∧ s.watches = [] ∧ s.roasts = [] ∧ s.decaf 3 0x3FFFFFFF = some decaf0 :=
  ⟨rfl, rfl, rfl, by decide +kernel⟩

/-! ### Scheduling -/

/-- `RegroupRule`, `HaltRelease` hold of every state that has met no hole. `ForwardProgress`: a group that was passed over 16 times, and
an active warp that is ready. -/
theorem witness_forward_progress :
    let r : State := { small { blk0 with warps := [(0, { passed := [(0x10000, 16)], active := true })] } [0, 1] with
      regions := [(0, { holder := some 1 })] }
    r.hole = false ∧ r.hasBlk 7 ∧ (0x10000, 16) ∈ ((r.blk 7).warp 0).passed ∧ 1 ∈ (r.blk 7).liveOf 0 ∧
      ((r.blk 7).thr 1).pc = 0x10000 ∧ r.readyThread 7 1 = true ∧ ((r.blk 7).warp 0).forced = [] ∧
      ((r.blk 7).warp 0).interval = [] ∧ r.dueGroups 7 0 = [0x10000] ∧ r.readyWarp 7 0 = true ∧
      (r.warp 7 0).promoted = none ∧ (r.warp 7 0).active = true :=
  ⟨rfl, rfl, by decide +kernel, by decide +kernel, rfl, by decide +kernel, rfl, rfl, by decide +kernel, by decide +kernel, rfl, rfl⟩

/-- Two members of a cluster, held on different cores of region 31. -/
abbrev member (rank core : Nat) (st : Status) : Block := { blk0 with ci := 2, rank := rank, core := core, status := st, clusterSize := 2 }
abbrev sCluster (st : Status) : State :=
  { State.reset with blocks := [(7, some (member 0 248 st)), (8, some (member 1 255 st))], regions := [(31, { holder := some 1 })]
                     launches := [{ fn := 1, lid := 5, snap := 0, grid := (6, 1, 1), clusters := [2], shares := [] }] }
/-- `ClusterRules`: of held members and of members that resume; `AgeRegisters` of the last region. -/
theorem witness_cluster : ∀ st, st = Status.held ∨ st = .resuming →
    (sCluster st).hole = false ∧ ((sCluster st).region 31).holder = some 1 ∧ ((sCluster st).region 31).preempt = false ∧
      (sCluster st).waitingOf 31 1 5 2 = [7, 8] ∧ (sCluster st).wholeCluster 1 5 2 [7, 8] = true := by
  rintro st (rfl | rfl)
  all_goals exact ⟨rfl, rfl, rfl, by decide +kernel, by decide +kernel⟩
theorem witness_ages :
    (State.reset.region 31).age = 0 ∧ (({ State.reset with regions := [(31, { age := 4 })] } : State).region 31).age = 4 ∧
      (({ State.reset with regions := [(31, { age := 3 })] } : State).region 31).age + 1 = (0xFFFFFFFC : DWord).toNat % 8 := by
  decide +kernel
/-- `BaristaStarts`: on the last core, in service, or out of it, or without its partition 3. -/
theorem witness_barista :
    (State.reset.hole = false ∧ State.reset.barista 255 = none ∧ (List.range 16).length = 16 ∧
      (State.reset.core 255).outOfService = false ∧ 3 ∉ (State.reset.core 255).partsOut) ∧
    (({ State.reset with cores := [(255, { outOfService := true })] } : State).core 255).outOfService = true ∧
    3 ∈ (({ State.reset with cores := [(255, { partsOut := [3] })] } : State).core 255).partsOut := by
  decide +kernel

/-! ### Windows and vaults -/

/-- A roast window of e4m3 values over one tile. -/
abbrev roast0 : Roast := { ctl := 0x10001, limit := 0x10000, fmt := 0x1 }
abbrev sReady : State := { State.reset with bootState := 2 }
/-- `WindowRegisters`, roasts: window 31 not enabled, enabled, and about to be disabled. -/
theorem witness_roasts :
    (sReady.hole = false ∧ sReady.bootState = 2 ∧ (sReady.roast 31).en = false ∧ (sReady.watch 31).en = false) ∧
    (({ sReady with roasts := [(31, roast0)] } : State).roast 31).en = true ∧
    (let s := { sReady with roasts := [(31, { roast0 with ctl := 0x10005 })] };
      bitAt (s.roast 31).ctl 2 = true ∧ s.pendReg = [] ∧ s.owners = [] ∧ s.l2 = [] ∧ s.decafs = [] ∧ s.sideTags = [] ∧
        s.txns = [] ∧ s.cores = []) := by
  decide +kernel
/-- `WindowRegisters`, watches: an enable that is accepted, one that meets another window, and a disable. -/
theorem witness_watches :
    (let s := { sReady with watches := [(31, { watch0 with ctl := 0 })] };
    let w := { s.watch 31 with ctl := mergeBits (clearOnes (s.watch 31).ctl 0x10001) 0x10001 (bitsMask 51 16) };
      s.watchOk 31 w = true ∧ w.mapAt 0 + w.mapAll ≤ memEnd) ∧
    (let s := { sReady with watches := [(0, watch0), (31, { watch0 with ctl := 0 })] };
    let w := { s.watch 31 with ctl := mergeBits (clearOnes (s.watch 31).ctl 0x10001) 0x10001 (bitsMask 51 16) };
      s.watchOk 31 w = false ∧ (s.watch 0).en = true ∧ (s.watch 31).en = false) := by
  decide +kernel

/-- A vault of 2 frames a quarter at 0x200000, whose frames the home table puts near their dies, and one that overlaps it. -/
abbrev vaultCtl0 : DWord := 0x200101
abbrev sVaults : State :=
  { sReady with mem := Map.setList 0 [] 1 [0x80, 0x80, 0x81, 0x81, 0x82, 0x82, 0x83, 0x83], vaults := [(255, { size := 0x1_00000002 })] }
/-- `VaultRegisters`: an enable that is accepted, one of a vault with no frames, one that is done, and a disable. -/
theorem witness_vaults :
    (let x := { sVaults.vault 255 with ctl := vaultCtl (sVaults.vault 255).ctl vaultCtl0 false };
      sVaults.bootState = 2 ∧ bitAt (sVaults.vault 255).ctl 0 = false ∧ bitAt (sVaults.vault 255).ctl 2 = false ∧
      sVaults.vaultOk 255 x = true ∧ x.first + x.bytes ≤ memEnd) ∧
    (let x := { sVaults.vault 1 with ctl := vaultCtl (sVaults.vault 1).ctl vaultCtl0 false };
      bitAt (sVaults.vault 1).ctl 0 = false ∧ bitAt (sVaults.vault 1).ctl 2 = false ∧ sVaults.vaultOk 1 x = false) ∧
    (let s := { sVaults with vaults := [(255, { size := 0x1_00000002, ctl := 0x200104 }), (1, { ctl := 0x200101 })] };
      bitAt (s.vault 255).ctl 2 = true ∧ bitAt (s.vault 255).ctl 0 = false ∧ bitAt (s.vault 1).ctl 2 = false ∧
      bitAt (s.vault 1).ctl 0 = true) ∧
    (let s := { sVaults with vaults := [(255, { size := 0x1_00000002, ctl := 0x200105 })] };
      bitAt (s.vault 255).ctl 2 = true ∧ bitAt (s.vault 255).ctl 0 = true ∧ s.vaultBusy 255 = false ∧
      ({ s with exports := [{ id := 6, blk := 7, thr := 0, pc := 0, fn := 1, dst := 0, bytes := [9], aoff := 0xFFFFFFFF
                              held := [nameOf 255 0 0] }] } : State).vaultBusy 255 = true) := by
  decide +kernel

/-- `RegisterWrites`: not ready, an odd offset, a function past the last, the first offset of no block; S1ROOT of the last function, and
an enabled window. -/
theorem witness_register_writes :
    State.reset.hole = false ∧ State.reset.bootState ≠ 2 ∧ sReady.bootState = 2 ∧ 1 % 8 ≠ 0 ∧ 64 < 65 ∧ 0x8000 ≤ 0x8000 ∧ (sReady.fn 64).sdGo = false ∧
      (sReady.fn 64).s1root = (sReady.fn 64).s1root &&& (bitsMask 51 12 ||| 1) ∧
      (({ sReady with roasts := [(31, roast0)] } : State).roast 31).en = true := by
  decide +kernel

/-! ### Debug, power, boot and the security core -/

/-- Region 31 serves function 1, whose samples are on; a thread of core 255 waits for v9, which its LD at 0x10000 makes. -/
abbrev sSample : State :=
  { small { blk0 with core := 255, scratchSize := 0
                      threads := [(0, { thr0 with pc := 0x1000C })]
                      pend := [{ id := 1, pc := 0x10000, la := 0, thrs := [(0, 0)], dst := .v 9, w := 1, warp := 0 }] } [0] with
    mem := Map.setList 0 [] 0x100000 (leBytes 8 0xD), regions := [(31, { holder := some 1 })]
    fns := [(1, { s2base := 0x100000, s2frames := 1, profBase := 0x2001, dbgCtl := 0x100000002 })] }
/-- `ComparatorsAndSamples`: samples off, and a sample that is due. -/
theorem witness_samples :
    (sSample.hole = false ∧ (sSample.region (regionOf 255)).holder = some 1 ∧ bitAt (sSample.fn 1).dbgCtl 1 = true ∧
      bits64 (sSample.fn 1).dbgCtl 47 32 ≠ 0 ∧ sSample.coreWarps 255 = [(7, 0)] ∧ sSample.stalled 7 0 = some 0 ∧ sSample.watches = [] ∧
      sSample.roasts = [] ∧
      let f := sSample.fn 1
      let n := bits64 f.profBase 3 0
      n ≠ 0 ∧ f.profProd - f.profCons ≠ BitVec.ofNat 32 (2 ^ n) ∧ 0x2000 + 32 ≤ memEnd ∧
        sSample.stage2 1 (bits64 f.profBase 51 12 * 4096 + f.profProd.toNat % 2 ^ n * 32) = .ok (0x2000, true, true)) ∧
    bitAt (({ sSample with fns := [] } : State).fn 1).dbgCtl 1 = false :=
  ⟨⟨rfl, by decide +kernel, by decide +kernel, by decide +kernel, by decide +kernel, by decide +kernel, rfl, rfl, by decide +kernel,
    by decide +kernel, by decide +kernel, ok_of (by decide +kernel)⟩, by decide +kernel⟩

/-- `RowActivations`, `PowerAndHeat`, `ModuleReset` ask for no more than that no hole was met. `SecurityCore`: with a measured image, and
with none. -/
theorem witness_security :
    State.reset.hole = false ∧ State.reset.attestation = [] ∧ ({ State.reset with attestation := [[1]] } : State).attestation ≠ [] :=
  ⟨rfl, rfl, by decide⟩

/-! ### Decoding and the machine as a whole -/

/-- `ReservedEncodings`: a word for each clause. -/
theorem witness_reserved :
    (0x200 % 4 = 0 ∧ 0x40 ≤ 0x200 / 8 % 128) ∧ (0x3FA % 4 = 2 ∧ 0x3FA / 8 % 128 = 0x7F) ∧
      (2 % 4 = 2 ∧ 2 / 8 % 128 = 0 ∧ 0x80000000 / 2 ^ 20 % 256 = 0 ∧ 0x80000000 / 2 ^ 31 % 2 = 1) ∧ 0x700000 / 2 ^ 20 % 256 ∉ List.range 7 ∧
      (0x3C02 % 4 = 2 ∧ 0x3C02 / 1024 % 16 = 15) ∧ (0x82 % 4 = 2 ∧ 0x82 / 8 % 128 = 0x10 ∧ 0x10000 / 2 ^ 16 % 16 ≠ 0) := by
  decide
/-- `EncodeDecode`: an instruction of each format. -/
theorem witness_encode : ∀ i ∈ [Instr.popcN32Base { g := 7, u := false, d := 10, a := 0, b := .v 9 }, .ffma hd .f32 .rz (.v 10) (.v 11) (.v 12) (.v 13),
      .bra hd 0xFFFFFFE8], wellFormed i = true ∧ encode i ≠ [] := by
  decide +kernel

/-- Thread 0 of block 7 stands at 0x10000, where memory holds a YIELD's words, or a word that is no instruction. -/
abbrev sStep (ws : List Nat) : State :=
  { small blk0 [] with mem := Map.setList 0 [] 0x40000 (ws.flatMap fun w => leBytes 4 w), agenda := [.issue 7 0], sel := {} }
/-- `FetchReadsMemory`. -/
theorem witness_fetch :
    let s := sStep []
    let pc := (s.thr 7 0).pc
    s.hole = false ∧ (s.thr 7 0).lastPage = some page ∧ page.holds (s.blk 7).fn pc.toNat = true ∧ page.permits .fetch = true ∧
      canonical pc = true ∧ inFabric pc = false ∧ inAperture pc = false ∧ 16 ≤ page.bits ∧ pc.toNat % 2 ^ page.bits + 20 ≤ 2 ^ page.bits ∧
      page.addr pc.toNat + 20 ≤ memEnd ∧ canonical (pc + 16) = true ∧ inFabric (pc + 16) = false ∧ inAperture (pc + 16) = false ∧
      pc.toNat + 20 ≤ 2 ^ 64 ∧ ((s.blk 7).warp (warpOf 0)).buffered pc.toNat = none ∧ page.decaf = false ∧ s.launches = [] := by
  decide +kernel

/-- `StepRunsDecoded`: a BRA, which decodes, and a word of an unassigned opcode, which does not. -/
theorem witness_step :
    (let s := sStep [0x1D42, 0, 0xFFFFFFE8]
    ∃ ws s1, s.dueErrors = [] ∧ s.agenda = .issue 7 0 :: [] ∧ ((s.blk 7).warp (warpOf 0)).stopped = none ∧
      ({ s with agenda := [] } : State).fetch 7 0 = (.words ws, s1) ∧ s1.decodeAt 7 0 ws = .ok (.bra hd 0xFFFFFFE8) ∧
      s1.issuers 7 0 (some (.bra hd 0xFFFFFFE8)) ≠ [] ∧
      s1.bpHit 7 (s1.issuers 7 0 (some (.bra hd 0xFFFFFFE8))) (s.thr 7 0).pc (ws.headD 0) = none) ∧
    (let s := sStep [0x200]
    ∃ ws s1, ({ s with agenda := [] } : State).fetch 7 0 = (.words ws, s1) ∧ s1.decodeAt 7 0 ws = .error 1 ∧ s1.hole = false ∧
      1 ∈ s1.issuers 7 0 none ∧ (s1.blk 7).agent = false ∧ (s1.thr 7 1).live = true ∧ (s1.thr 7 1).raised = none ∧ (s1.thr 7 1).mode ≠ 1 ∧
      s1.bpHit 7 (s1.issuers 7 0 none) (s.thr 7 0).pc (ws.headD 0) = none) := by
  refine ⟨⟨[0x1D42, 0, 0xFFFFFFE8], (({ sStep [0x1D42, 0, 0xFFFFFFE8] with agenda := [] } : State).fetch 7 0).2, rfl, rfl, rfl,
      Prod.ext (by decide +kernel) rfl, ok_of (by decide +kernel), by decide +kernel, by decide +kernel⟩,
    [0x200], (({ sStep [0x200] with agenda := [] } : State).fetch 7 0).2, Prod.ext (by decide +kernel) rfl, ?_⟩
  exact ⟨error_of (by decide +kernel), by decide +kernel, by decide +kernel, by decide +kernel, by decide +kernel, by decide +kernel,
    by decide +kernel, by decide +kernel⟩

end Sys2Proof.Tests
end

