-- ==== Sys2Proof/Tests/WitnessFault.lean ====
section
/-! SUPPORT. States that meet the hypotheses of the statements: exceptions received, errors, faults and verdicts, functions, and
context switches. -/
namespace Sys2Proof.Tests
open Sys2Proof Sys2Proof.Machine
-- One theorem after another: the checks of several at once need too much memory.
set_option Elab.async false

/-! ### Exceptions received -/

abbrev exc0 : Exc := { code := 0x10000, aux := 9, pc := 0x10000 }
abbrev ent0 : TryEntry := ⟨1, 0x10080, 3⟩
/-- Thread 0 alone has raised `exc0` for a level. -/
abbrev sThrown (st : List TryEntry) (l : Option Nat) (ls : List Launch) (m : List Host.Cell) : State :=
  { State.reset with
    blocks := [(7, some { blk0 with threads := [(0, { thr0 with tstack := st, raised := some { exc0 with level := l } })] })]
    stops := [(1, 5, l)], launches := ls, mem := m }
/-- The bytes of a descriptor's first word and its catch point: a catch at 0x10400. -/
abbrev catchDesc : List Host.Cell := Map.setList 0 (Map.setList 0 [] 0x50000 (leBytes 8 0x10)) 0x50048 (leBytes 8 0x10400)
abbrev launchL : Launch := { fn := 1, lid := 5, snap := 0x50000, grid := (1, 1, 1), clusters := [0], shares := [] }

theorem lone_of (st : List TryEntry) (l : Option Nat) (ls : List Launch) (m : List Host.Cell) :
    Claims.Lone (sThrown st l ls m) 7 0 { exc0 with level := l } where
  noHole := rfl
  only := ⟨_, rfl⟩
  plain := ⟨rfl, rfl, rfl, rfl, rfl, rfl⟩
  still := ⟨rfl, rfl, rfl, rfl, rfl, rfl, rfl⟩
  noOcc := fun _ => rfl
  raised := ⟨rfl, rfl, rfl⟩
  others := fun y h => by
    rcases y with _ | y
    · exact absurd rfl h
    · rfl
  soft := ⟨(by decide : (0x10000 : Word) ≠ cHWUE), (by decide : (0x10000 : Word) ≠ cSDC)⟩

/-- `StopAndSteer`: a member with an instruction in flight; a region inside another; a launch with a catch point and one without. -/
theorem witness_steer :
    (let s := { s1 with
      stops := [(1, 5, none)]
      blocks := [(7, some { blk0 with threads := [(0, { thr0 with raised := some exc0 })]
                                      pend := [{ id := 1, pc := 0x10000, la := 0, thrs := [(0, 0)], warp := 0 }] })] };
      s.hole = false ∧ s.stops[0]? = some (1, 5, none) ∧ s.outerDue 1 5 none (s.membersOf 1 5 none) = false ∧
        s.oplog = [] ∧ s.settled (s.membersOf 1 5 none) = false ∧ (1, (5 : Word), (none : Option Nat)) ∉ s.stopping) ∧
    (let s := sThrown [ent0, ⟨1, 0, 2⟩] (some 3) [] []
    Claims.Lone s 7 0 { exc0 with level := some 3 } ∧ s.stops = [(1, 5, some ent0.region)] ∧ s.launches = [] ∧
      s.membersOf 1 5 (some ent0.region) = [(7, [0])] ∧ (s.thr 7 0).tstack = ent0 :: [⟨1, 0, 2⟩] ∧
      ∀ y ∈ [(⟨1, 0, 2⟩ : TryEntry)], y.region ≠ ent0.region) ∧
    (∀ m, m = catchDesc ∨ m = [] → let s := sThrown [] none [launchL] m;
      Claims.Lone s 7 0 { exc0 with level := none } ∧ s.stops = [(1, 5, none)] ∧ s.launches = [launchL] ∧
        launchL.fn = 1 ∧ launchL.lid = 5 ∧ launchL.injected = [] ∧ launchL.shares = [] ∧ s.membersOf 1 5 none = [(7, [0])]) ∧
    ((sThrown [] none [launchL] catchDesc).launchDesc launchL).hasCatch = true ∧
    ((sThrown [] none [launchL] []).launchDesc launchL).hasCatch = false := by
  refine ⟨by decide +kernel, ⟨lone_of _ _ _ _, rfl, rfl, by decide +kernel, rfl, by decide⟩, ?_, by decide +kernel, by decide +kernel⟩
  rintro m (rfl | rfl)
  all_goals exact ⟨lone_of _ _ _ _, rfl, rfl, rfl, rfl, rfl, rfl, by decide +kernel⟩

/-- Every thread of block 7 waits at a barrier, in a region that its context holds. -/
abbrev sDead : State :=
  { State.reset with
    regions := [(0, { holder := some 1 })]
    blocks := [(7, some { blk0 with threads := [(0, { thr0 with wait := some (.bar 12) }), (1, { thr0 with wait := some (.clbar 12) })] })] }
/-- `DeadlockRule`: a context whose threads all wait, and one that has none. -/
theorem witness_deadlock :
    sDead.hole = false ∧ sDead.deadlocked 1 = true ∧ sDead.fnWarps 1 = [(7, 0)] ∧ 1 ∈ (sDead.blk 7).liveOf 0 ∧
      (sDead.thr 7 1).raised = none ∧ sDead.deadlocked 2 = false := by
  decide +kernel

/-! ### Errors -/

/-- A thread of block 7 has consumed an error of the last line of memory; a contained block may still be killed. -/
abbrev sDue (c : Bool) : State :=
  { s1 with blocks := [(7, some { blk0 with threads := [(0, thr0)], contained := c, restartable := c, relaunches := 1, clusterSize := 1 })]
            dueErrors := [(7, 0, 0x1FFFFFFF80)] }
/-- `ErrorsConsumed`, `KilledBlocks`. -/
theorem witness_errors :
    (∀ c, (sDue c).hole = false ∧ (sDue c).hasBlk 7 ∧ ((sDue c).blk 7).status = .running ∧ ((sDue c).blk 7).agent = false ∧
      ((sDue c).thr 7 0).live = true ∧ ((sDue c).thr 7 0).raised = none ∧ ((sDue c).thr 7 0).mode ≠ 1 ∧ (sDue c).launches = [] ∧
      (7, 0, 0x1FFFFFFF80) ∈ (sDue c).dueErrors ∧ (7, 0, 0) ∉ (sDue c).dueErrors) ∧
    (sDue false).mayKill 7 = false ∧
    (let s := { sDue true with launches := [launchL] };
      s.members 7 = [7] ∧ s.mayKill 7 = true ∧ s.launchOf (s.blk 7).fn (s.blk 7).lid = some launchL ∧ (s.blk 7).smaps = [] ∧
        ∀ r, (s.region r).occ = 0) :=
  ⟨fun _ => ⟨rfl, rfl, rfl, rfl, rfl, rfl, (by decide : (0 : Word) ≠ 1), rfl, List.mem_singleton.2 rfl,
    (by decide : (7, 0, 0) ∉ [(7, 0, 0x1FFFFFFF80)])⟩, by decide +kernel, by decide +kernel, by decide +kernel, by decide +kernel, rfl, fun _ => rfl⟩

/-- `FatalErrors`: the dump ends with the last byte of memory that it may use, of die 3. -/
theorem witness_fatal :
    let s := { State.reset with dumpBase := 0x1FFFE00000 }
    s.hole = false ∧ s.watches = [] ∧ s.roasts = [] ∧
      (∀ c : Check, c = { die := 3, unit := 5, index := 0, sev := 4, kind := 4 } ∨ c = { die := 3, unit := 7, index := 0, sev := 4, kind := 6 } →
        c.die < 4 ∧ bits64 s.dumpBase 51 21 * 2 ^ 21 + 448 + ((s.machineCheck c).dumpSecs.flatMap (·.2)).length ≤ memEnd) := by
  refine ⟨rfl, rfl, rfl, ?_⟩
  rintro c (rfl | rfl)
  all_goals decide +kernel

/-- `UnitsOutOfService`: a partition that no block uses, another unit, and a core with a block. -/
theorem witness_units :
    (State.reset.hole = false ∧ State.reset.stops = [] ∧ (∀ r, (State.reset.region r).occ = 0) ∧
      (∀ c l x, State.reset.l1At c l = some x → l < 0x40000000) ∧ State.reset.blocksAt 255 (some 3) = []) ∧
    (let s := { s1 with launches := [launchL] };
      s.hole = false ∧ s.stops = [] ∧ (∀ r, (s.region r).occ = 0) ∧ (∀ c l x, s.l1At c l = some x → l < 0x40000000) ∧
        s.blocksAt 0 none = [7] ∧ (s.blk 7).status = .running ∧
        (s.blk 7).agent = false ∧ (s.blk 7).liveThreads ≠ [] ∧ s.cluster 7 = [7] ∧ s.launches = [launchL] ∧ launchL.fn = (s.blk 7).fn ∧
        launchL.lid = (s.blk 7).lid) :=
  ⟨⟨rfl, rfl, fun _ => rfl, (fun _ _ _ h => by cases h), rfl⟩, rfl, rfl, fun _ => rfl, (fun _ _ _ h => by cases h), by decide +kernel, rfl, rfl, by decide +kernel, by decide +kernel, rfl, rfl, rfl⟩

/-! ### Faults and verdicts -/

/-- A fault queue of 16 records at 0x1000 of the physical function, and a record that waits for a place in it. -/
abbrev rec0 (w : Waiter) (ix : Option Word) : Record :=
  { id := 2, fn := 1, queue := 0, w0 := 1, w1 := 2, w2 := 3, w3 := 4, cause := 1, kind := .fetch, waiter := w, index := ix }
abbrev sRec (fq prod cons : Word) (r : Record) : State :=
  { s1 with fns := [(0, { fqBase := (fq.setWidth 64 : DWord), fqProd := prod, fqCons := cons })], records := [r], bootState := 2 }
/-- `FaultRecords`: the last free place, a full queue, and no queue. -/
theorem witness_fault_records :
    (let s := sRec 0x1004 0xFFFFFFFF 0xFFFFFFF0 (rec0 .none none)
    let f := s.fn 0
    let n := bits64 f.fqBase 3 0
    s.hole = false ∧ s.watches = [] ∧ s.roasts = [] ∧ s.records[0]? = some (rec0 .none none) ∧ (rec0 .none none).index = none ∧ s.fqValid 0 = true ∧
      f.fqProd - f.fqCons ≠ BitVec.ofNat 32 (2 ^ n) ∧
      s.stage2 0 (bits64 f.fqBase 51 12 * 4096 + f.fqProd.toNat % 2 ^ n * 32) = .ok (0x11E0, true, true) ∧ 0x11E0 + 32 ≤ memEnd) ∧
    (let s := sRec 0x1004 0xF 0xFFFFFFFF (rec0 .none none)
    let f := s.fn 0
    s.fqValid 0 = true ∧ f.fqProd - f.fqCons = BitVec.ofNat 32 (2 ^ bits64 f.fqBase 3 0)) ∧
    (let s := sRec 0 0 0 (rec0 (.fetch 7 [0]) none)
    bits64 (s.fn 0).fqBase 3 0 = 0 ∧ s.records = [rec0 (.fetch 7 [0]) none] ∧ (s.blk 7).agent = false ∧ (s.thr 7 0).live = true ∧
      (s.thr 7 0).raised = none) :=
  ⟨⟨rfl, rfl, rfl, rfl, rfl, by decide +kernel, by decide +kernel, ok_of (by decide +kernel), by decide⟩,
    ⟨by decide +kernel, by decide +kernel⟩, by decide +kernel, rfl, rfl, rfl, rfl⟩

abbrev copyF : Copy :=
  { id := 4, core := 0, blk := 7, thr := 0, pc := 0x10000, recAddr := 0, fn := 1, src := 0x10000, dst := 0,
    rows := 1, rowBytes := 1, bytes := 1, sstride := 0, dstride := 0, aoff := 0xFFFFFFFF, srcSp := false, dstSp := true, rxNote := false,
    rxSlot := 0, todo := [(0, 1)], fault := some 2 }
/-- `VerdictRules`: a fetch, a copy and a TRAP, with the record at the last index. -/
theorem witness_verdicts :
    (∀ w, let s := sRec 0x1004 0 0 (rec0 w (some 0xFFFFFFFF));
      s.hole = false ∧ s.bootState = 2 ∧ s.records = [rec0 w (some 0xFFFFFFFF)] ∧ (s.blk 7).agent = false ∧ (s.thr 7 0).live = true ∧
        (s.thr 7 0).raised = none ∧ s.hasBlk 7) ∧
    (let s := { sRec 0x1004 0 0 (rec0 (.copy 4) (some 0xFFFFFFFF)) with copies := [copyF] };
      s.copies = [copyF] ∧ copyF.fault = some (rec0 (.copy 4) none).id ∧ copyF.packet = none ∧ inFabric copyF.dst = false ∧
        (s.thr copyF.blk copyF.thr).live = true) ∧
    (∀ pd ≤ 7, let s := { sRec 0x1004 0 0 (rec0 (.trap 7 [0]) (some 0xFFFFFFFF)) with
        blocks := [(7, some { blk0 with threads := [(0, { thr0 with wait := some (.trap 2 pd 0x1000C) })] })] };
      (s.thr 7 0).wait = some (.trap (rec0 (.trap 7 [0]) none).id pd 0x1000C) ∧ (s.thr 7 0).raised = none) :=
  ⟨fun _ => ⟨rfl, rfl, rfl, rfl, rfl, rfl, rfl⟩, ⟨rfl, rfl, rfl, by decide +kernel, rfl⟩, fun _ _ => ⟨rfl, rfl⟩⟩

/-- A load of the last double word of the page that faulted, with the verdicts of its records. -/
abbrev entL (failed : List (Nat × Word)) : LogEntry :=
  { id := 3, blk := 7, warp := 0, part := 0, pc := 0x10000, instr := .ld hl .plain .i64 (.v 8) (.v 0) 0, w0 := 0,
    ops := [{ thr := 0, ea := 0x1FFF8 }], failed := failed }
abbrev pendL : Pending :=
  { id := 1, pc := 0x10000, la := 15, thrs := [(0, 2)], dst := .v 8, w := 2, warp := 0, log := some 3 }
abbrev sLog (failed : List (Nat × Word)) : State :=
  { small { blk0 with threads := [(0, thr0)], pend := [pendL] } [0] with oplog := [entL failed] }
/-- `FaultReplays`: all retried, and one that failed. -/
theorem witness_replays :
    (∀ failed, (sLog failed).oplog = [entL failed] ∧ (entL failed).blk = (sLog failed).sel.blk ∧ (sLog failed).hasBlk 7 ∧
      (sLog failed).hole = false ∧ (sLog failed).PlainFor (sLog failed).sel.blk ∧ (sLog failed).bk.smaps = [] ∧
      (sLog failed).reds = [] ∧ (sLog failed).l1Count (sLog failed).bk.core + 128 < l1Cap ∧ (sLog failed).bk.status = .running ∧ (sLog failed).bk.saveAt = none ∧
      (entL failed).waiting = [] ∧ (entL failed).held = false ∧ hl.u = false ∧ (entL failed).ops = [{ thr := 0, ea := 0x1FFF8 }] ∧
      (sLog failed).bk.pend = [pendL] ∧ pendL.log = some 3 ∧ pendL.thrs = [(0, 2)] ∧ (sLog failed).bk.agent = false ∧
      ((sLog failed).bk.thr 0).live = true ∧ ((sLog failed).bk.thr 0).raised = none) ∧
    (entL []).failed = [] ∧ (sLog []).Reaches 0 0x1FFF8 8 8 .read 0x4FFF8 ∧ (entL [(0, cPAGE)]).failed = [(0, cPAGE)] :=
  ⟨fun _ => ⟨rfl, rfl, rfl, rfl, ⟨rfl, ⟨rfl, rfl⟩, rfl, rfl, rfl, rfl, rfl⟩, rfl, rfl, (by decide : 0 + 128 < l1Cap), rfl, rfl, rfl, rfl, rfl, rfl, rfl, rfl, rfl, rfl, rfl, rfl⟩, rfl,
    reaches_of (by decide +kernel), rfl⟩

/-- `BouncedAtomics`: a page whose table lies in a frame in transit, and one whose function has no translation. -/
theorem witness_bounced :
    (let s := { s1 with fns := [(1, { s1root := 0x1001, s2base := 0x100000, s2frames := 1 })], mem := Map.setList 0 [] 0x100000 (leBytes 8 0x1D) };
      s.hole = false ∧ (s.thr 7 0).lastPage = some page ∧ s.walk page.fn page.va = .transit) ∧
    ((s1.thr 7 0).lastPage = some page ∧ s1.walk page.fn page.va ≠ .transit) := by
  decide +kernel

/-! ### Functions -/

/-- Pages of functions 1 and 2 in the caches; a shoot-down of function 1 in progress, with a drain of its block and without. -/
abbrev sShoot (go : Bool) : State :=
  { s1 with
    bootState := 2, fns := [(1, { sdGo := go, sdAddr := 0x10000 })]
    blocks := [(7, some { blk0 with threads := [(0, thr0), (1, { thr0 with lastPage := some { page with fn := 2 } })] })]
    cores := [(0, { tlb := [page, { page with fn := 2 }] })], regions := [(0, { tlb := [page] })], dies := [(0, { tlb := [page] })] }
abbrev drainS : Drain := { id := 2, blk := 7, thr := 0 }
/-- `ShootDowns`. -/
theorem witness_shootdowns :
    (sShoot false).hole = false ∧ (sShoot false).bootState = 2 ∧ ((sShoot false).fn 1).sdGo = false ∧ ((sShoot false).fn 0).sdGo = false ∧
      ((sShoot false).thr 7 0).lastPage = some page ∧ ((sShoot false).thr 7 1).lastPage = some { page with fn := 2 } ∧
      page.holds 1 ((sShoot false).fn 1).sdAddr.toNat = true ∧
    (((sShoot true).fn 1).sdGo = true ∧ (sShoot true).reds = [] ∧ (sShoot true).drains = [] ∧ (sShoot true).pendReg = [] ∧
      (sShoot true).hostQ = [] ∧ ((sShoot true).fn 1).sdKind ≠ 2) ∧
    (let s := { sShoot true with drains := [drainS] };
      drainS ∈ s.drains ∧ (s.blk drainS.blk).fn = 1 ∧ (s.fn 1).sdKind ≠ 2) := by
  decide +kernel

/-- Function 64 with the last region, and what is in progress for it. -/
abbrev sFunc (en : Bool) (ending : Nat) : State :=
  { State.reset with bootState := 2, regions := [(31, { holder := some 64 })]
                     fns := [(64, { en := en, regions := 0x80000000, ending := ending, busy := ending ≠ 0 })] }
/-- `FunctionResets`, `Partitions`: a reset that begins and one that ends; an enable that is taken and one of a taken region; a disable. -/
theorem witness_functions :
    (∀ en, ∀ e < 2, (sFunc en e).hole = false ∧ (sFunc en e).bootState = 2 ∧
      ((sFunc en e).fn 64).queues = [] ∧ ((sFunc en e).fn 64).ending = e ∧ (sFunc en e).fnSettled 64 = true ∧ (sFunc en e).launches = [] ∧
      (sFunc en e).copies = [] ∧ (sFunc en e).posts = [] ∧ ((sFunc en e).fn 64).en = en) ∧
    (sFunc false 0).regionTaken 64 (BitVec.ofNat 32 (bits64 0x8000000000000001 63 32)) = false ∧
    (sFunc true 0).regionTaken 0 (BitVec.ofNat 32 (bits64 0x8000000000000001 63 32)) = true ∧ ((sFunc true 0).fn 0).en = false := by
  decide +kernel

/-! ### Context switches -/

/-- A saved block of function 1, whose region 31 a context holds, or none. -/
abbrev sSaved (h : Option Nat) : State :=
  { State.reset with
    fns := [(1, { en := true, regions := 0x80000000 })], regions := [(31, { holder := h })]
    blocks := [(7, some { blk0 with status := .saved, core := 0, threads := [(0, thr0)] })] }
/-- `QuantumExpiry`: no holder, another holder, and the same. -/
theorem witness_quantum : ∀ h, h = none ∨ h = some 2 ∨ h = some 1 →
    (sSaved h).hole = false ∧ ((sSaved h).region 31).preempt = false ∧ (sSaved h).hasWork 31 1 = true ∧ ((sSaved h).region 31).holder = h := by
  rintro h (rfl | rfl | rfl)
  all_goals decide +kernel

/-- A block runs on core 255, and its region's context is being pre-empted or not. -/
abbrev sPre (p : Bool) (ps : List Pending) : State :=
  { State.reset with
    regions := [(31, { holder := some 1, preempt := p })]
    blocks := [(7, some { blk0 with
      core := 255, threads := [(0, thr0)], pend := ps, warps := [(0, { regs := 8 })], scratchSize := 0x80, stashSize := 0 })] }
/-- `Preemption`: a request, work in flight, and a block that is saved. -/
theorem witness_preemption :
    (∀ p ps, (sPre p ps).hole = false ∧ ((sPre p ps).region 31).holder = some 1 ∧ ((sPre p ps).region 31).preempt = p) ∧
    (sPre true [{ id := 1, pc := 0, la := 0, thrs := [(0, 0)], warp := 0, ready := true }]).drained 31 = false ∧
    ((sPre true []).drained 31 = true ∧ ((sPre true []).region 31).next = none ∧ (sPre true []).residents 31 = [7] ∧
      ((sPre true []).blk 7).status = .running ∧ ((sPre true []).saveBlock 7).hole = false) ∧
    ∀ c l x, (sPre true []).l1At c l = some x → l < 0x40000000 :=
  ⟨fun _ _ => ⟨rfl, rfl, rfl⟩, by decide +kernel, by decide +kernel, fun _ _ _ h => by cases h⟩

/-- `BlockResumption`: a block of its own, and one of a cluster of two. -/
theorem witness_resumption : ∀ c, c = 1 ∨ c = 2 →
    let s := { sSaved (some 1) with blocks := [(7, some { blk0 with status := .saved, core := 0, threads := [(0, thr0)], clusterSize := c })] }
    s.hole = false ∧ s.hasBlk 7 ∧ (s.blk 7).status = .saved ∧ (s.blk 7).agent = false ∧ (s.blk 7).liveThreads ≠ [] ∧
      (s.region (regionOf 255)).holder = some (s.blk 7).fn ∧ (s.region (regionOf 255)).preempt = false ∧ [3] ∈ s.waysBack 7 255 ∧
      s.oneRegion 7 255 = true ∧ s.mayReturn 7 255 = true := by
  rintro c (rfl | rfl)
  all_goals
    refine ⟨rfl, rfl, rfl, rfl, ?_⟩
    decide +kernel

end Sys2Proof.Tests
end

