-- ==== Sys2Proof/Tests/WitnessIssue.lean ====
section
/-! SUPPORT. States and operands that meet the hypotheses of the statements: instructions on registers, branches, the stack. -/
namespace Sys2Proof.Tests
open Sys2Proof Sys2Proof.Machine
-- One theorem after another: the checks of several at once need too much memory.
set_option Elab.async false

/-- `IntegerAddMulResults`, `IntegerMinMaxAddressResults`: each instruction, with a register at the end of its file, a discarded
result, a literal, zero, or the uniform form. -/
theorem witness_integer_results :
    let f : BaseF := ⟨7, false, 63, 62, .v 60⟩
    let g : BaseF := ⟨7, false, 62, 60, .lit 1⟩
    Ready s2 [.iaddI32Base f, .isubI32Base f, .imulI32Base f, .iaddI64Base g, .isubI64Base g, .imulI64Base g, .imulhI32Base f,
      .imulhN32Base f, .iadd hd .i32 (.v 254) (.v 0) (.lit 5), .isub hd .n8 .none (.s 62) .zero, .imul hd .i64 (.v 252) (.v 0) (.s 60),
      .imulh hu .n64 (.s 60) (.s 58) .zero, .imad hd false .i32 (.v 1) (.v 2) (.v 3) (.v 4), .imad hd true .n32 (.v 2) (.v 2) (.v 3) (.v 4),
      .iminI32Base f, .imaxI32Base f, .iminN32Base f, .imaxN32Base f, .iminI64Base g, .imaxI64Base g, .leaN32S2Base g, .leaN32S3Base g,
      .leaI32S2Base g, .leaI32S3Base g, .imin hd .i8 (.v 254) (.v 0) (.v 1), .imax hd .n64 (.v 252) (.v 0) (.v 2),
      .lea hd .i64 31 (.v 252) (.v 0) (.v 2), .idot4 hd true false (.v 254) (.v 0) (.v 1) (.lit 7)] :=
  ready_of (by decide +kernel)

/-- `LogicAndShiftResults`. -/
theorem witness_logic_results :
    let f : BaseF := ⟨7, false, 63, 62, .s 62⟩
    let g : BaseF := ⟨7, true, 62, 60, .lit 64⟩
    let g' : BaseF := ⟨7, true, 60, 58, .lit 64⟩
    Ready s2 [.andN32Base f, .orN32Base f, .xorN32Base f, .andN64Base g', .orN64Base g', .xorN64Base g', .shlN32Base g, .shrN32Base g,
      .sarI32Base g, .shlN64Base g', .shrN64Base g', .sarI64Base g', .and hd false (.v 254) (.v 0) (.v 1), .or hd true (.v 252) (.v 0) .zero,
      .xor hu true (.s 60) (.s 2) (.s 4), .shl hd false (.v 1) (.v 2) (.lit 32), .shl hd true (.v 2) (.v 4) (.lit 64),
      .shr hd false (.v 1) (.v 2) (.lit 32), .shr hd true (.v 2) (.v 4) (.lit 64), .sar hd false (.v 1) (.v 2) (.lit 32),
      .sar hd true (.v 2) (.v 4) (.lit 64), .lop3 hd 0xE8 (.v 254) (.v 0) (.v 1) (.v 2), .shf hd .l (.v 1) (.v 2) (.v 3) (.lit 63),
      .shf hd .r (.v 1) (.v 2) (.v 3) (.lit 64), .shf hd .rl (.v 1) (.v 2) (.v 3) (.lit 63), .shf hd .rr (.v 1) (.v 2) (.v 3) (.lit 63)] :=
  ready_of (by decide +kernel)

/-- `BitFieldAndMoveResults`: the special registers at both ends of their range and on either side of %cyc. -/
theorem witness_bit_field_results :
    let f : BaseF := ⟨7, false, 63, 0, .v 62⟩
    let g : BaseF := ⟨7, false, 62, 0, .lit 0⟩
    Ready s2 [.popcN32Base f, .clzN32Base f, .ctzN32Base f, .brevN32Base f, .movBase f, .movlBase g, .popc hd true (.v 1) (.v 252),
      .clz hd true (.v 1) .zero, .ctz hd false (.v 1) .zero, .brev hd true (.v 252) (.v 0), .mov hd (.v 254) (.s 62),
      .movl hd (.v 252) (.lit 0), .sel hd true (.v 252) (.v 0) (.v 2) 7, .sel hd false (.v 254) (.v 0) (.v 2) 0,
      .bfe hd .i64 (.v 252) (.v 0) (.lit 0x4000), .bfi hd true (.v 252) (.v 0) (.lit 0x4000) (.v 2), .prmt hd (.v 1) (.v 2) (.v 3) (.v 4),
      .rdsr hd 0 (.v 254), .rdsr hd 0xB (.v 1), .rdsr hd 0xD (.v 1), .rdsr hd 0x13 (.v 252), .rdexc hd 0 (.v 1), .rdexc hd 10 (.v 1),
      .movs hu (.fromFd (.s 62) 15)] := ready_of (by decide +kernel)

/-- `FloatResults`, `PackedHalfResults`. -/
theorem witness_float_results :
    let f : BaseF := ⟨7, false, 63, 62, .v 60⟩
    let g : BaseF := ⟨7, false, 63, 0, .v 60⟩
    Ready s2 [.faddF32Base f, .fmulF32Base f, .fminF32Base f, .fmaxF32Base f, .faddF16Base f, .fmulF16Base f, .faddBf16Base f,
      .fmulBf16Base f, .frndF32Base g, .fadd hd .bf16 .ru (.v 254) (.v 0) (.v 1), .fmul hd .f16 .rd (.v 1) (.v 0) (.lit 0x7C00),
      .ffma hd .f32 .rna (.v 1) (.v 2) (.v 3) .zero, .fmin hd .f64 (.v 252) (.v 0) (.v 2), .fmax hd .f64 (.v 252) (.v 0) (.v 2),
      .frnd hd true .f64 .rz (.v 252) (.v 0), .hadd2F16Base f, .hmul2F16Base f, .hadd2Bf16Base f, .hmul2Bf16Base f,
      .hadd2 hd .f16 .rz (.v 254) (.v 0) (.v 1), .hmul2 hd .bf16 .rne (.v 254) (.v 0) (.v 1), .hfma2 hd .f16 .ru (.v 254) (.v 0) (.v 1) (.v 2),
      .hdot2 hd .bf16 .rd (.v 254) (.v 0) (.v 1) (.v 2)] := ready_of (by decide +kernel)

/-- `ConversionResults`, without a narrow format. -/
theorem witness_conversion_results :
    let f : BaseF := ⟨7, false, 63, 0, .v 60⟩
    let g : BaseF := ⟨7, false, 62, 0, .v 60⟩
    Ready s2 [.cvtF32I32Base f, .cvtF32N32Base f, .cvtI32F32Base f, .cvtN32F32Base f, .cvtF32F16Base f, .cvtF16F32Base f, .cvtF32Bf16Base f,
      .cvtBf16F32Base f, .cvtF64F32Base g, .cvtF32F64Base f, .cvtI32I16Base f, .cvtI32I8Base f, .cvtN32N16Base f, .cvtN32N8Base f,
      .cvt hd true (.std .i8) (.std .i64) .rne (.v 1) (.v 252), .pack hd (.std .i8) (.std .f32) .rz 3 (.v 1) (.v 2) (.v 3),
      .unpack hd (.std .f32) (.std .n16) .rne 1 (.v 1) (.v 2)] ∧
    DescReady s2 (.std .i8) (.std .i64) (fun _ => True) ∧ DescReady s2 (.std .i8) (.std .f32) (fun v => 3 < 32 / contWidth v (.std .i8)) ∧
    DescReady s2 (.std .f32) (.std .n16) (fun v => 1 < 32 / contWidth v (.std .n16)) :=
  ⟨ready_of (by decide +kernel), fun h => absurd h (by decide), fun h => absurd h (by decide), fun h => absurd h (by decide)⟩

/-- A narrow format of 4 bits in fd15, whose containers are numbered up to 7. -/
abbrev sfd : State := small { blk0 with fds := [(15, 0x0214)] } [0, 1]
/-- `ConversionResults`, from and to a narrow format. -/
theorem witness_conversion_narrow :
    Ready sfd [.cvt hd false (.fd 15) (.std .f32) .rz (.v 1) (.v 2), .pack hd (.fd 15) (.std .f32) .rz 7 (.v 1) (.v 2) (.v 3),
      .unpack hd (.std .f32) (.fd 15) .rne 7 (.v 1) (.v 2)] ∧
    DescReady sfd (.fd 15) (.std .f32) (fun v => 7 < 32 / contWidth v (.fd 15)) ∧
    DescReady sfd (.std .f32) (.fd 15) (fun v => 7 < 32 / contWidth v (.fd 15)) :=
  ⟨ready_of (by decide +kernel), fun _ => ⟨by decide +kernel, by decide +kernel⟩, fun _ => ⟨by decide +kernel, by decide +kernel⟩⟩

/-- `LongLatencyRules`: issue. -/
theorem witness_long_latency_issue :
    Ready s2 [.frcp hl .ru (.v 254) .zero, .frsq hl (.v 254) (.v 0), .fsqrt hl .rd (.v 254) (.v 0), .fexp2 hl (.v 254) (.v 0),
      .flog2 hl (.v 254) .zero, .fsin hl (.v 254) (.v 0), .fcos hl (.v 254) (.v 0), .ftanh hl (.v 254) (.v 0),
      .dadd hl .rna (.v 252) (.v 0) (.v 2), .dmul hl .rne (.v 252) (.v 0) (.v 2), .dfma hl .rz (.v 252) (.v 0) (.v 2) (.v 4)] :=
  ready_of (by decide +kernel)

/-- A block in which one long-latency result is known, and one is not. -/
abbrev pending (ready : Bool) : Pending :=
  { id := 1, pc := 0, la := 0, thrs := [(0, 0)], warp := 0, ready := ready, result := .regs (.v 252) 4 [(0, 9), (1, 8)] .g }
/-- `LongLatencyRules`: completion of a result whose registers end the file. -/
theorem witness_long_latency_completion : ∀ ready : Bool,
    let s := small { blk0 with pend := [pending ready] } []
    s.hole = false ∧ s.hasBlk 7 ∧ (s.blk 7).pend = [pending ready] ∧ (pending ready).result = .regs (.v 252) 4 [(0, 9), (1, 8)] .g ∧
      252 + 4 ≤ 256 ∧ (pending ready).warps = [] ∧ ([((0 : Nat), (9 : QWord)), (1, 8)].map fun e => laneOf e.1).Nodup ∧
      (pending ready).ready = ready := by
  intro ready
  exact ⟨rfl, rfl, rfl, rfl, by decide, rfl, by decide, rfl⟩

/-- `PredicateResults`: p0, p6 and the discarded p7. -/
theorem witness_predicate_results :
    Ready s2 [.icmp hd .lt .i64 0 (.v 252) (.v 0), .icmp hd .ge .n8 7 (.v 254) .zero, .pset hd .and 6 7 0, .pset hd .orn 7 0 6,
      .fcmp hd .un .f64 6 (.v 252) (.v 0), .fcmp hd (.cmp .eq) .bf16 0 (.v 254) (.v 0)] := ready_of (by decide +kernel)

/-- `BranchRules`: a target at a multiple of 4, and one beyond it by 1 or 3. -/
theorem witness_branches :
    Ready s2 [.nop ⟨7, false, 0, 0, .v 0⟩, .nopExt hd, .bra hd 0xFFFFFFFC, .brx hd (.v 252) 4, .yield hd, .bra hd 1, .brx hd (.v 0) 3] ∧
      (addOff s2.sel.pc 0xFFFFFFFC).toNat % 4 = 0 ∧ (∀ x ∈ s2.executing hd, (addOff (s2.bk.pair x (.v 252)) 4).toNat % 4 = 0) ∧
      (addOff s2.sel.pc 1).toNat % 4 ≠ 0 ∧ (∀ x ∈ s2.executing hd, (addOff (s2.bk.pair x (.v 0)) 3).toNat % 4 ≠ 0) ∧
      ∀ x ∈ s2.executing hd, s2.CanRaise x :=
  ⟨ready_of (by decide +kernel), by decide +kernel, by decide +kernel, by decide +kernel, by decide +kernel,
    fun x hx => by
      have : s2.executing hd = [0, 1] := by decide +kernel
      rw [this] at hx
      rcases List.mem_cons.1 hx with rfl | hx
      · exact can_raise_of (by decide +kernel)
      · rw [List.mem_singleton.1 hx]
        exact can_raise_of (by decide +kernel)⟩

/-- A launch of one cluster of one block. -/
abbrev launch0 : Launch := { fn := 1, lid := 5, snap := 0x90000, grid := (1, 1, 1), clusters := [0], shares := [] }
/-- One thread whose stack lies from 0x10000 to 0x11000, by the descriptor's stack base of 0x10000. -/
abbrev stack (sp : DWord) : State :=
  { small { blk0 with threads := [(0, { thr0 with sp := sp })], desc := 0x90000 } [0] with mem := [(0x90052, 1)] }

/-- `CallRules`: CALL with the last 8 bytes of room, RET 8 bytes below the stack base, each one step beyond, and a stack of size
0. -/
theorem witness_call_and_return :
    (∃ f, (stack 0x10008).Solo (.call hd none 4) f 0 ∧
      ((stack 0x10008).sel.pc + (4 : Word).signExtend 64).toNat % 4 = 0 ∧ ((stack 0x10008).bk.warp 0).stackLimit ≠ 0 ∧
      ((stack 0x10008).stackBase 7 0 - (((stack 0x10008).bk.warp 0).stackLimit).setWidth 64).toNat + 8 ≤ (0x10008 : DWord).toNat ∧
      (stack 0x10008).Reaches 0 (0x10008 - 8) 8 8 .write 0x40000) ∧
    (∃ f, (stack 0x11000).Solo (.call hd (some (.v 252)) 4) f 0 ∧
      ((stack 0x11000).bk.pair 0 (.v 252) + (4 : Word).signExtend 64).toNat % 4 = 0 ∧
      (stack 0x11000).Reaches 0 (0x11000 - 8) 8 8 .write 0x40FF8) ∧
    (∃ f, (stack 0x10FF8).Solo (.ret hd) f 0 ∧ (0x10FF8 : DWord) ≠ (stack 0x10FF8).stackBase 7 0 ∧
      (stack 0x10FF8).Reaches 0 0x10FF8 8 8 .read 0x40FF8 ∧
      ∀ bs, (stack 0x10FF8).Reads 7 0x40FF8 8 bs → leNat bs % 4 = 0) :=
  ⟨solo_with (by decide +kernel) ⟨by decide +kernel, by decide +kernel, by decide +kernel, reaches_of (by decide +kernel)⟩,
    solo_with (by decide +kernel) ⟨by decide +kernel, reaches_of (by decide +kernel)⟩,
    solo_with (by decide +kernel) ⟨by decide +kernel, reaches_of (by decide +kernel),
      fun _ hr => reads_eq (by decide +kernel) hr ▸ by decide +kernel⟩⟩
theorem witness_stack_limits :
    (∃ f, (stack 0x10007).Solo (.call hd none 4) f 0 ∧ (0x10007 : DWord).toNat <
      ((stack 0x10007).stackBase 7 0 - (((stack 0x10007).bk.warp 0).stackLimit).setWidth 64).toNat + 8) ∧
    (let s := small { blk0 with threads := [(0, { thr0 with sp := 0x11000 })], warps := [(0, { regs := 256 })] } [0]
    (∃ f, s.Solo (.call hd none 4) f 0 ∧ (s.bk.warp s.wp).stackLimit = 0) ∧ s.CanRaise 0) ∧
    (∃ f, (stack 0x11000).Solo (.ret hd) f 0 ∧ (0x11000 : DWord) = (stack 0x11000).stackBase 7 0) ∧ (stack 0x11000).CanRaise 0 :=
  ⟨solo_with (by decide +kernel) (by decide +kernel),
    ⟨solo_with (by decide +kernel) (by decide +kernel), can_raise_of (by decide +kernel)⟩,
    solo_with (by decide +kernel) (by decide +kernel),
    can_raise_of (by decide +kernel)⟩

/-- `EndRules`: a bundle that exits, in no convergence set; and a block without a live thread. -/
theorem witness_exit : (∃ f, s2.Passes (.exit hd) f ∧ ∀ n < 8, (s2.bk.kreg n).kind = 0) ∧
    (let s := { small { blk0 with threads := [] } [] with launches := [launch0] }
    s.hole = false ∧ s.hasBlk 7 ∧ (s.blk 7).status = .running ∧ (s.blk 7).agent = false ∧ (s.blk 7).liveThreads = [] ∧
      s.quiet 7 = true ∧ s.PlainFor 7 ∧ (s.blk 7).smaps = [] ∧ (∀ r, (s.region r).occ = 0) ∧
      (∀ c, (s.blk c).status = .dead → (s.blk c).notice = true) ∧ s.launchOf 1 5 = some launch0) :=
  ⟨passes_with (by decide +kernel) (by decide +kernel),
    rfl, rfl, rfl, rfl, rfl, by decide +kernel, plain_for_of (by decide +kernel), rfl, fun _ => rfl,
    fun c h => absurd h (blk_all (P := fun k => k.status ≠ .dead) (by decide) (by decide +kernel) c), by decide +kernel⟩

/-- `SpecialRegisterRules`: both ends of the narrow formats, %cyc, and each register that WRSR writes. -/
theorem witness_special_registers :
    Ready s2 [.movs hu (.toFd 0 (.s 62)), .movs hu (.toFd 15 (.lit 0x214)), .rdsr hd 0xC (.v 252), .rdsr hu 0xC (.s 60),
      .wrsr hd 0xE (.v 254), .wrsr hd 0xF (.lit 3), .wrsr hu 0x10 (.s 60), .wrsr hd 0x13 (.v 252)] ∧
    s2.CanRaise 0 ∧ (s2.bk.thr 0).mode = 0 ∧
    (let s := small { blk0 with threads := [(0, { thr0 with mode := 1 })] } [0]
    Ready s [.wrsr hd 0x13 (.v 252)] ∧ (s.bk.thr 0).mode ≠ 0) :=
  ⟨ready_of (by decide +kernel), can_raise_of (by decide +kernel), by decide +kernel, ready_of (by decide +kernel), by decide +kernel⟩

/-! ### The rules of issue -/

/-- What the rules of issue ask of any state and instruction. -/
def issueB (s : State) (i : Instr) (h : Hdr) (exe : List Nat) (bad : Bool) : Bool :=
  !s.hole && decide s.sel.thrs.Nodup && s.sel.thrs.all (fun x => decide (warpOf x = s.wp)) && decide (s.executing h = exe) &&
    exe.all (fun x => (s.bk.thr x).live && decide ((s.bk.thr x).raised = none) && !s.bk.agent) &&
    (match uses i with
      | none => false
      | some f => decide (f.h = h) &&
          exe.all fun x => s.bk.hazardous x s.wp (touches i f ++ s.bk.tcNames s.wp i) == bad)
/-- The instructions that the rules name, with destination and sources in V4 to V7. -/
abbrev issued (h : Hdr) : List Instr :=
  [.iadd h .i32 (.v 4) (.v 5) (.v 6), .imul h .i32 (.v 4) (.v 5) (.v 6), .fadd h .f32 .rne (.v 4) (.v 5) (.v 6),
    .ld h .plain .i32 (.v 4) (.v 6) 0, .st h .plain .i32 (.v 6) (.v 4) 0, .lds h .plain .i32 (.v 4) (.v 5) 0, .sts h .plain .i32 (.v 5) (.v 4) 0]
/-- Every thread's V4 is pending for it; V5 and V6 differ in the bundle, with UCHK set. -/
abbrev sIssue (ps : List Pending) : State :=
  small (({ blk0 with pend := ps, warps := [(0, { regs := 256, uchk := true })] }.setTag 0 5 .g).setTag 0 6 .g) [0, 1]
/-- `IssueRules`: a guard that no thread passes; a register that is pending for every thread; operands of a uniform instruction that
differ. -/
theorem witness_issue_rules :
    (∀ i ∈ issued hg, issueB (sIssue []) i hg [] false = true) ∧
    (∀ i ∈ issued hd, issueB (sIssue [{ id := 1, pc := 0, la := 0, thrs := [(0, 0), (1, 0)], warp := 0, dst := .v 4, w := 4 }]) i hd
      [0, 1] true = true) ∧
    (∀ i ∈ issued hu, issueB (sIssue []) i hu [0, 1] false = true ∧ ((sIssue []).bk.warp (sIssue []).wp).uchk = true ∧
      ∀ f, uses i = some f → (sIssue []).bk.uniform f (sIssue []).wp (sIssue []).sel.thrs = false) := by
  refine ⟨by decide +kernel, by decide +kernel, fun i hi => ⟨?_, by decide +kernel, fun f hf => ?_⟩⟩
  · revert i; decide +kernel
  · have h : (issued hu).all (fun i => match uses i with
        | none => true
        | some f => !(sIssue []).bk.uniform f (sIssue []).wp (sIssue []).sel.thrs) = true := by decide +kernel
    have := List.all_eq_true.1 h i hi
    rw [hf] at this
    simpa using this

/-- `StepKeepsMemory`: the memory of reset, and one byte at the end of device memory; a step goes on. -/
theorem witness_memory_form : ∀ m, m = [] ∨ m = [(memEnd - 1, (1 : Byte))] →
    Map.wf memDefault m = true ∧ ∃ t, step { State.reset with mem := m, agenda := [.event (.notifyWake 3)] } = .next t := by
  rintro m (rfl | rfl)
  all_goals exact ⟨by decide, _, rfl⟩

end Sys2Proof.Tests
end

