-- ==== Sys2Proof/Tests/WitnessMatrix.lean ====
section
/-! SUPPORT. States and operands that meet the hypotheses of the statements: lanes, the content store, tiles and the matrix unit. -/
namespace Sys2Proof.Tests
open Sys2Proof Sys2Proof.Machine
-- One theorem after another: the checks of several at once need too much memory.
set_option Elab.async false

/-! ### Lanes -/

/-- `LaneRules`: segments of 1 and of 32, the whole warp, and a mask that names the two threads. -/
theorem witness_lanes :
    Gathering s2 [(.shfl hd .pick 0 (.v 254) (.v 0) (.v 1) .zero, .zero), (.shfl hd .rot 5 (.v 254) (.v 0) (.lit 31) .zero, .zero),
      (.shfl hd .flip 5 (.v 1) (.v 0) (.lit 3) (.lit 3), .lit 3), (.shfl hd .slide 5 (.v 1) (.v 0) (.lit 3) (.lit 3), .lit 3),
      (.ballot hd (.v 254) 7 (.lit 3), .lit 3), (.ballot hd .none 0 .zero, .zero), (.vote hd .all 7 0 .zero, .zero),
      (.vote hd .any 6 7 (.lit 3), .lit 3), (.vote hd .uni 0 0 .zero, .zero), (.matchLanes hd true (.v 252) (.v 0) .zero, .zero),
      (.redux hd .add .i64 .rne (.v 252) (.v 0) .zero, .zero), (.redux hd .xor .n32 .rne (.v 254) (.v 0) .zero, .zero),
      (.redux hd .add .f32 .ru (.v 254) (.v 0) .zero, .zero), (.redux hd .max .f32 .rne (.v 254) (.v 0) .zero, .zero)] :=
  gathering_of (by decide +kernel)

/-- `GatheringRules`: thread 31 of the mask has not arrived; and a mask that names thread 0 alone, which both threads hold. -/
theorem witness_gathering_rules :
    (let s := small { blk0 with threads := [(0, thr0), (1, thr0), (31, { thr0 with pc := 0 })] } [0, 1]
    ∃ f, s.Passes (.ballot hd (.v 9) 0 (.lit 0x80000003)) f ∧
      ∀ x ∈ s.sel.thrs, ∃ y ∈ s.bk.members s.wp (s.bk.word x (.lit 0x80000003)), s.bk.arrived s.sel.pc y = false) ∧
    (∃ f, s2.Passes (.ballot hd (.v 9) 0 (.lit 1)) f ∧ s2.sel.thrs.headD 0 = 0 ∧
      s2.bk.members s2.wp (s2.bk.word 0 (.lit 1)) = [0] ∧ (∀ y ∈ [0], s2.bk.arrived s2.sel.pc y = true) ∧
      ((s2.bk.liveOf s2.wp).filter fun y => decide (y = 0) ||
        (s2.bk.arrived s2.sel.pc y && (s2.bk.members s2.wp (s2.bk.word y (.lit 1))).any [0].contains)) = [0, 1] ∧
      s2.CanRaise 0 ∧ s2.CanRaise 1) :=
  ⟨passes_with (by decide +kernel) (by decide +kernel),
    passes_with (by decide +kernel) ⟨by decide +kernel, by decide +kernel, by decide +kernel, by decide +kernel,
      can_raise_of (by decide +kernel), can_raise_of (by decide +kernel)⟩⟩

/-! ### The content store -/

/-- Vault 255 of function 1: two frames to a quarter, one of them the index. -/
abbrev vault0 : Vault := { ctl := 0x200101, size := 0x1_00000002, keys := 1 }
/-- One thread with a vault; v4..v7 hold the name whose vault is 255 and whose other bits are 0. -/
abbrev sVault (cs : List CEntry) : State :=
  { small { blk0 with threads := [(0, thr0)], vregs := [(7 * 32, 0xFF000000)], sregs := [(1, 255)] } [0] with vaults := [(255, vault0)], content := cs }
abbrev name0 : QWord := 0xFF000000_00000000_00000000_00000000
abbrev entry0 (st : CState) (r : Word) : CEntry :=
  { name := name0, state := st, node := false, pin := false, line := 0, slot := 0x400000, ref := r, data := List.replicate 128 7 }
/-- The line of zeros, as the scratchpad's last line and as the last row of a tile hold it, and its hash as a leaf. -/
abbrev zeros : List Byte := List.replicate 128 0
def hash0 : Nat := (keyedBlake3 (Config.vaultKey 255 1) (0 :: zeros)).toNat
abbrev entryZ : CEntry :=
  { name := nameOf 255 hash0 0, state := .live, node := false, pin := false, line := 0, slot := 0x400000, ref := 0xFFFFFFFE, data := zeros }

theorem name_vid (h : Nat) (hh : h < 2 ^ 112) : nameVid (nameOf 255 h 0) = 255 := by
  simp only [nameVid, nameOf, BitVec.toNat_ofNat]
  rw [Nat.mod_eq_of_lt (by omega)]
  omega
theorem name_hash (h : Nat) (hh : h < 2 ^ 112) : nameHash (nameOf 255 h 0) = h := by
  simp only [nameHash, nameOf, BitVec.toNat_ofNat]
  omega

theorem freePlace_empty {s : State} {vid : Nat} {name : QWord} (h : s.content = []) (hb : 0 < (s.vault vid).buckets)
    (hs : 0 < (s.vault vid).slots) : ∃ p, s.freePlace vid name = some (p, (s.vault vid).slotAt (nameDie name) 0) := by
  obtain ⟨b, hb⟩ := Nat.exists_eq_succ_of_ne_zero (Nat.ne_of_gt hb)
  obtain ⟨n, hs⟩ := Nat.exists_eq_succ_of_ne_zero (Nat.ne_of_gt hs)
  have hm : min 16 (b + 1) = min 15 b + 1 := by omega
  simp [State.freePlace, h, hb, hs, hm, List.range_succ_eq_map]

/-- `ContentRules`, CAINT: the last line of the scratchpad, and row 31 of tile 15, of a line that the vault holds with one reference
fewer than it can count, and of a line for an empty vault. -/
theorem witness_intern :
    (∀ cs, cs = [entryZ] ∨ cs = [] → (∃ f, (sVault cs).Solo (.caint hl false (.scratch (.lit 0xF80)) (.s 1) (.v 248)) f 0) ∧
      ∃ f, (sVault cs).Solo (.caint hl false (.tile 15 (.lit 31)) (.s 1) (.v 248)) f 0) ∧
    (let s := sVault [entryZ]
    s.InScratch (s.bk.word 0 (.lit 0xF80)) 128 16 ∧ zeros = s.bk.scratch.getList 0 (s.bk.word 0 (.lit 0xF80)).toNat 128 ∧
      15 < (s.bk.warp s.wp).tiles ∧ s.bk.num 0 1 (.lit 31) ≤ 31 ∧ zeros = s.bk.tileBytes s.wp 15 (128 * s.bk.num 0 1 (.lit 31)) 128 ∧
      s.bk.num 0 1 (.s 1) % 256 = 255 ∧ s.usable s.bk.fn 255 = true) ∧
    ((sVault [entryZ]).content = [entryZ] ∧ nameVid entryZ.name = 255 ∧ nameHash entryZ.name = hash0 ∧ entryZ.alive = true ∧
      entryZ.node = false ∧ entryZ.data = zeros ∧ entryZ.ref ≠ 0xFFFFFFFF) ∧
    ((sVault []).content = [] ∧ ∃ p slot, (sVault []).freePlace 255 (nameOf 255 hash0 0) = some (p, slot) ∧ slot + 128 ≤ memEnd) := by
  have hh : hash0 < 2 ^ 112 := (keyedBlake3 (Config.vaultKey 255 1) (0 :: zeros)).isLt
  have solo {s : State} {i : Instr} (h : soloB s i 0 = true) : ∃ f, s.Solo i f 0 :=
    let ⟨f, h, _⟩ := solo_with (P := True) h trivial
    ⟨f, h⟩
  refine ⟨fun cs h => ⟨solo ?_, solo ?_⟩, ?_, ⟨rfl, name_vid _ hh, name_hash _ hh, ?_, ?_, ?_, ?_⟩, rfl, ?_⟩
  · rcases h with rfl | rfl <;> decide +kernel
  · rcases h with rfl | rfl <;> decide +kernel
  · unfold State.InScratch
    decide +kernel
  · rfl
  · rfl
  · rfl
  · show (0xFFFFFFFE#32) ≠ 0xFFFFFFFF#32; decide
  · have e : (sVault []).vault 255 = vault0 := by decide +kernel
    have b : vault0.base = 0x200000 := by decide +kernel
    have q : vault0.qf = 2 := by decide +kernel
    have i : vault0.ixq = 1 := by decide +kernel
    obtain ⟨p, hp⟩ := freePlace_empty (s := sVault []) (vid := 255) (name := nameOf 255 hash0 0) rfl (by decide +kernel)
      (by decide +kernel)
    refine ⟨p, _, hp, ?_⟩
    have hd : nameDie (nameOf 255 hash0 0) < 4 := Nat.mod_lt _ (by decide)
    rw [e, Vault.slotAt, b, q, i, show memEnd = 0x2000000000 from rfl]
    omega

/-- A name, a 128-bit value and an address for `ContentResults`. -/
abbrev sName (cs : List CEntry) : State :=
  { small { blk0 with threads := [(0, thr0)], vregs := [(7 * 32, 0xFF000000), (8 * 32, 0xFF), (9 * 32, 0xFFFFFFFF)] } [0] with
    vaults := [(255, vault0)], content := cs }
/-- `ContentRules`: CAGET of a live name and of one that is being reclaimed, CAREL of the null name, of the last reference and of none,
CASWAP at the end of the page, CAEXP of 255 bytes of a leaf (whose data are fewer). -/
theorem witness_content :
    (∃ f, (sName [entry0 .live 1]).Solo (.caget hl (.v 254) (.lit 0xF80) (.v 4) 0) f 0 ∧
      (sName [entry0 .live 1]).InScratch ((sName [entry0 .live 1]).bk.word 0 (.lit 0xF80) + 0) 128 16 ∧
      (sName [entry0 .live 1]).readable 1 ((sName [entry0 .live 1]).bk.src 0 4 (.v 4)) = some (entry0 .live 1)) ∧
    (∃ f, (sName [entry0 .reclaiming 0]).Solo (.caget hl (.v 254) (.lit 0) (.v 4) 0) f 0 ∧
      (sName [entry0 .reclaiming 0]).readable 1 ((sName [entry0 .reclaiming 0]).bk.src 0 4 (.v 4)) = none ∧
      (sName [entry0 .reclaiming 0]).InScratch ((sName [entry0 .reclaiming 0]).bk.word 0 (.lit 0) + 0) 128 16 ∧
      (sName [entry0 .reclaiming 0]).CanRaise 0) ∧
    (∃ f, (sName []).Solo (.carel hd (.v 0)) f 0 ∧ (sName []).bk.src 0 4 (.v 0) = 0) ∧
    (∀ e, e = entry0 .live 1 ∨ e = entry0 .live 0xFFFFFFFF ∨ e = entry0 .held 0 →
      ∃ f, (sName [e]).Solo (.carel hd (.v 4)) f 0 ∧ (sName [e]).CanRaise 0 ∧ (sName [e]).bk.src 0 4 (.v 4) ≠ 0 ∧
        (sName [e]).usable 1 (nameVid ((sName [e]).bk.src 0 4 (.v 4))) = true ∧ (sName [e]).entry ((sName [e]).bk.src 0 4 (.v 4)) = some e) ∧
    (∃ f, s1.Solo (.caswap hl (.v 248) (.lit 0x1FFF0) (.v 4) (.v 12) 0) f 0 ∧
      s1.Reaches 0 (s1.bk.pair 0 (.lit 0x1FFF0) + (0 : Word).signExtend 64) 16 16 .atomic 0x4FFF0) ∧
    (∃ f, (sName [entry0 .live 1]).Solo (.caexp hd (.v 0) (.v 4) (.v 8) 0) f 0 ∧
      let s := sName [entry0 .live 1]
      s.readable 1 (s.bk.src 0 4 (.v 4)) = some (entry0 .live 1) ∧ (entry0 .live 1).node = false ∧
        s.bk.num 0 2 (.v 8) / 2 ^ 32 = 0xFFFFFFFF ∧ (∀ y ∈ s.sel.thrs, s.bk.num y 2 (.v 8) % 2 ^ 32 < 2 ^ 28) ∧
        (s.bk.num 0 2 (.v 8) % 2 ^ 32 ≠ 0) ∧
        s.export 1 (s.bk.num 0 2 (.v 8) % 2 ^ 32) (s.content.length + 1) (s.bk.src 0 4 (.v 4)) ([], []) =
          some ([s.bk.src 0 4 (.v 4)], (entry0 .live 1).data) ∧ (entry0 .live 1).data ≠ []) := by
  refine ⟨solo_with (by decide +kernel) ⟨by unfold State.InScratch; decide +kernel, by decide +kernel⟩,
    solo_with (by decide +kernel) ⟨by decide +kernel, by unfold State.InScratch; decide +kernel, can_raise_of (by decide +kernel)⟩,
    solo_with (by decide +kernel) (by decide +kernel), ?_,
    solo_with (by decide +kernel) (reaches_of (by decide +kernel)), solo_with (by decide +kernel) (by decide +kernel)⟩
  rintro e (rfl | rfl | rfl)
  all_goals exact solo_with (by decide +kernel) ⟨can_raise_of (by decide +kernel), by decide +kernel, by decide +kernel, by decide +kernel⟩

/-- An export of one byte, the last of the page, and an entry that is being reclaimed. -/
abbrev export0 : Export := { id := 6, blk := 7, thr := 0, pc := 0, fn := 1, dst := 0x1FFFF, bytes := [9], aoff := 0xFFFFFFFF, held := [] }
theorem witness_content_landing_and_reclaim :
    (let s := { s1 with exports := [export0], cores := [(0, { tlb := [page] })] }
    s.exports = [export0] ∧ export0.fault = none ∧ export0.aoff = 0xFFFFFFFF ∧ s.hole = false ∧ (s.blk 7).status = .running ∧
      s.PlainFor 7 ∧ export0.done < export0.bytes.length ∧
      let va := export0.dst + BitVec.ofNat 64 export0.done
      min (export0.bytes.length - export0.done) (8 - va.toNat % 8) = 1 ∧ s.EngineReaches (s.blk 7).core 1 va 1 .write 0x4FFFF) ∧
    (let s := sName [entry0 .live 1, { entry0 .reclaiming 0 with name := 5 }]
    s.hole = false ∧ s.content[1]? = some { entry0 .reclaiming 0 with name := 5 } ∧ (entry0 .reclaiming 0).state = .reclaiming ∧
      (entry0 .reclaiming 0).node = false) :=
  ⟨⟨rfl, rfl, rfl, rfl, rfl, plain_for_of (by decide +kernel), by decide, by decide, by decide +kernel, by decide +kernel,
    ⟨page, by decide +kernel, by decide +kernel, by decide +kernel, by decide +kernel, by decide +kernel, by decide +kernel⟩,
    by decide +kernel⟩, rfl, rfl, rfl, rfl⟩

/-! ### Tiles and the matrix unit -/

/-- Tile control of 2 rows and of 1 row of 32 f16 elements, in t0, t1 and t15; scalars s2:s3 an address and s5 a stride; k0 holds
threads 0 and 1. -/
abbrev tc2 : DWord := 0x41A002
abbrev tc1 : DWord := 0x41A001
abbrev kset : KReg := { kind := 2, set := 3, anchor := 0 }
abbrev sTile (k : KReg) : State :=
  small { blk0 with tcs := [(0, tc2), (1, tc1), (15, tc2)], kregs := [(0, k)], sregs := [(2, 0x1FF00), (5, 0x80), (6, 0x40), (9, 0x1F00)] }
    [0, 1]
abbrev sT : State := sTile kset

/-- `TileRules`: tiles 0 and 15, of 2 rows of 32 halves. -/
theorem witness_tiles :
    Gathering sT [(.tzero hd 15, .zero), (.tmov hd 15 0, .zero), (.txpose hd 15 0, .zero), (.tcvt hd .rna 15 0, .zero)] ∧
    15 < (sT.bk.warp sT.wp).tiles ∧ 0 < (sT.bk.warp sT.wp).tiles ∧ txposeOk 0 sT.bk sT.wp = true ∧ tcvtOk 15 0 sT.bk sT.wp = true :=
  ⟨gathering_of (by decide +kernel), by decide +kernel, by decide +kernel, by decide +kernel, by decide +kernel⟩

/-- `TileRules`, control: a tile of the warp's allotment and, with no tiles, one beyond it; each set of CVINIT. -/
theorem witness_tile_control :
    Ready sT [.movtc hu 15 (.s 2), .rdtc hu (.s 60) 15, .cvinit hu 7 (.group 0), .cvinit hu 7 .warp, .cvinit hu 0 (.mask (.lit 3))] ∧
    15 < (sT.bk.warp sT.wp).tiles ∧
    (∀ kind ∈ [CvKind.group 0, .warp, .mask (.lit 3)], sT.bk.declared sT.wp 0 kind = some [0, 1]) ∧
    sT.bk.onePart [0, 1] = true ∧ (sT.bk.kreg 7).signed = 0 ∧ (sT.bk.kreg 0).signed = 0 ∧
    (let s := small { blk0 with warps := [] } [0, 1]
    (∃ f, s.Passes (.movtc hu 0 (.s 2)) f ∧ (s.bk.warp s.wp).tiles ≤ 0) ∧ s.CanRaise 0) :=
  ⟨ready_of (by decide +kernel), by decide +kernel, by decide +kernel, by decide +kernel, by decide +kernel, by decide +kernel,
    passes_with (by decide +kernel) (by decide +kernel), can_raise_of (by decide +kernel)⟩

/-- `MatrixRules`, signing: a set in which thread 1023 has not signed, for each operation that signs; with no signature yet, and
joining an operation that thread 2 has signed. -/
theorem witness_signing :
    (let k : KReg := { kind := 2, set := 3 ||| 1#1024 <<< 1023, anchor := 0 }; 
    (∀ e ∈ [(Instr.mclr hd 1 0, (0 : QWord)), (.mma hl 0 0 15 0, 0), (.tld hl 15 (.s 2) (.s 5) 0 0, 0x80_00000000_0001FF00),
        (.tst hd 0 (.s 2) (.s 5) 0 0, 0x80_00000000_0001FF00),
        (.mdrain hl ⟨.f32, .rne, false, false, false, true, 0⟩ 1 (.s 2) (.s 4) 0, 0x00000080_00000000_00000000_0001FF00)],
      ∃ f, (sTile k).Signs e.1 f 0 e.2) ∧
      ∃ y < 1024, ((sTile k).bk.kreg 0).set.getLsbD y = true ∧ ((sTile k).bk.kreg 0).signed.getLsbD y = false ∧
        y ∉ (sTile k).sel.thrs) ∧
    (let k : KReg := { kind := 1, set := 0xF, anchor := 0, signed := 4, opPc := 0x10000, opVal := 0 };
    (∃ f, (sTile k).Signs (.mclr hd 1 0) f 0 0) ∧
      ∃ y < 1024, ((sTile k).bk.kreg 0).set.getLsbD y = true ∧ ((sTile k).bk.kreg 0).signed.getLsbD y = false ∧
        y ∉ (sTile k).sel.thrs) := by
  have sg {s : State} {i : Instr} {v : QWord} (h : signsB s i 0 v = true) : ∃ f, s.Signs i f 0 v :=
    let ⟨f, _, h⟩ := signs_of h
    .intro f h
  refine ⟨⟨?_, 1023, by decide +kernel⟩, sg (by decide +kernel), 3, by decide +kernel⟩
  simp only [List.mem_cons, List.not_mem_nil, or_false, forall_eq_or_imp, forall_eq]
  exact ⟨sg (by decide +kernel), sg (by decide +kernel), sg (by decide +kernel), sg (by decide +kernel), sg (by decide +kernel)⟩

/-- `MatrixRules`: MCLR, MMA of two valid tiles with as many columns, and of tiles whose columns differ. -/
theorem witness_matrix :
    (∃ f, sT.Converges (.mclr hd 1 0) f 0 0) ∧
    (∃ f, sT.Converges (.mma hl 1 0 1 0) f 0 0 ∧ sT.bk.tcValid 0 0 = true ∧ sT.bk.tcValid 0 1 = true ∧
      (sT.bk.tcf 0 0).cols = (sT.bk.tcf 0 1).cols) ∧
    (let s := small { blk0 with tcs := [(0, tc2), (1, tc1 - 0x100)], kregs := [(0, kset)] } [0, 1]
    ∃ f, s.Converges (.mma hl 0 0 1 0) f 0 0 ∧ (s.bk.tcf 0 0).cols ≠ (s.bk.tcf 0 1).cols ∧
      (∀ x ∈ s.sel.thrs, (s.bk.thr x).live = true) ∧ s.CanRaise 0) :=
  ⟨let ⟨f, h, _⟩ := converges_with (P := True) (by decide +kernel) trivial; ⟨f, h⟩, converges_with (by decide +kernel) (by decide +kernel),
    converges_with (by decide +kernel) ⟨by decide +kernel, by decide +kernel, can_raise_of (by decide +kernel)⟩⟩

/-- `TileMemoryRules`: TLD of 2 rows, the second at the end of the page's last 128 bytes, and TST of one. -/
theorem witness_tile_memory :
    (∃ f, sT.Converges (.tld hl 0 (.s 2) (.s 5) 0 0x40) f 0 0x80_00000000_0001FF00 ∧ sT.bk.tcValid 0 0 = true ∧
      (sT.bk.tcf 0 0).rows = 2 ∧ (sT.bk.tcf 0 0).cw = 16 ∧ ((sT.bk.tcf 0 0).cols * (sT.bk.tcf 0 0).cw + 7) / 8 = 64 ∧
      ∀ r < 2, sT.Reaches 0 ((((0x80_00000000_0001FF00 : QWord).setWidth 64 : DWord) + (0x40 : Word).signExtend 64 +
        BitVec.ofNat 64 r * (((0x80_00000000_0001FF00 : QWord) >>> 64).setWidth 32 : Word).signExtend 64)) 64 2 .read
          (0x4FF40 + 0x80 * r) ∧ (0x4FF40 + 0x80 * r) % 65536 + 64 ≤ 65536 ∧
        (((0x80_00000000_0001FF00 : QWord).setWidth 64 : DWord) + (0x40 : Word).signExtend 64 + BitVec.ofNat 64 r *
          (((0x80_00000000_0001FF00 : QWord) >>> 64).setWidth 32 : Word).signExtend 64).toNat % 65536 = (0x4FF40 + 0x80 * r) % 65536) ∧
    (∃ f, sT.Converges (.tst hd 1 (.s 2) (.s 5) 0 0xC0) f 0 0x80_00000000_0001FF00 ∧ sT.bk.tcValid 0 1 = true ∧
      (sT.bk.tcf 0 1).rows = 1 ∧ (sT.bk.tcf 0 1).cols * (sT.bk.tcf 0 1).cw % 8 = 0 ∧ (sT.bk.tcf 0 1).scm = 0 ∧
      sT.Reaches 0 ((((0x80_00000000_0001FF00 : QWord).setWidth 64 : DWord) + (0xC0 : Word).signExtend 64 +
        BitVec.ofNat 64 0 * (((0x80_00000000_0001FF00 : QWord) >>> 64).setWidth 32 : Word).signExtend 64)) 64 2 .write 0x4FFC0 ∧
      0x4FFC0 % 65536 + 64 = 65536 ∧
      (((0x80_00000000_0001FF00 : QWord).setWidth 64 : DWord) + (0xC0 : Word).signExtend 64 + BitVec.ofNat 64 0 *
        (((0x80_00000000_0001FF00 : QWord) >>> 64).setWidth 32 : Word).signExtend 64).toNat % 65536 = 0x4FFC0 % 65536) := by
  refine ⟨converges_with (by decide +kernel) ⟨by decide +kernel, by decide +kernel, by decide +kernel, by decide +kernel,
    fun r hr => ?_⟩, converges_with (by decide +kernel) ⟨by decide +kernel, by decide +kernel, by decide +kernel,
      by decide +kernel, reaches_of (by decide +kernel), by decide, by decide +kernel⟩⟩
  obtain rfl | rfl : r = 0 ∨ r = 1 := by omega
  all_goals exact ⟨reaches_of (by decide +kernel), by decide +kernel, by decide +kernel⟩

/-- `TileMemoryRules`, MDRAIN of 64 columns of 1 row, whose last bytes end the scratchpad; s9 is the address and s7 names the shape. -/
theorem witness_drain :
    let s : State := small { blk0 with kregs := [(0, kset)], sregs := [(5, 0xF00), (7, 0x3F00)] } [0, 1]
    let val : QWord := 0x00003F00_00000000_00000000_00000F00
    (∃ f, s.Converges (.mdrain hl ⟨.f32, .rne, false, false, false, true, 0⟩ 1 (.s 5) (.s 6) 0) f 0 val) ∧
      (val >>> 96).toNat % 64 + 1 = 1 ∧ (val >>> 96).toNat / 256 % 64 + 1 = 64 ∧ (val >>> 96).toNat / 2 ^ 15 % 2 = 0 ∧
      ∀ r < 1, s.InScratch ((val.setWidth 32 : Word) + BitVec.ofNat 32 r * ((val >>> 64).setWidth 32 : Word)) (4 * 64) 4 := by
  refine ⟨let ⟨f, h, _⟩ := converges_with (P := True) (by decide +kernel) trivial; ⟨f, h⟩, by decide +kernel, by decide +kernel,
    by decide +kernel, fun r hr => ?_⟩
  obtain rfl : r = 0 := by omega
  unfold State.InScratch
  decide +kernel

/-- The same to memory, whose last bytes end the page. -/
theorem witness_drain_memory :
    let s : State := small { blk0 with kregs := [(0, kset)], sregs := [(2, 0x1FF00), (7, 0x3F00)] } [0, 1]
    let val : QWord := 0x00003F00_00000000_00000000_0001FF00
    (∃ f, s.Converges (.mdrain hl ⟨.f32, .rne, false, false, false, false, 0⟩ 1 (.s 2) (.s 6) 0) f 0 val) ∧
      (val >>> 96).toNat % 64 + 1 = 1 ∧ (val >>> 96).toNat / 256 % 64 + 1 = 64 ∧ (val >>> 96).toNat / 2 ^ 15 % 2 = 0 ∧
      s.Reaches (s.sel.thrs.headD 0) ((val.setWidth 64 : DWord) + BitVec.ofNat 64 0 * ((val >>> 64).setWidth 32 : Word).signExtend 64)
        (64 * 4) (64 * 4 / 64) .drain 0x4FF00 ∧ 0x4FF00 % 65536 + 64 * 4 ≤ 65536 ∧
      ((val.setWidth 64 : DWord) + BitVec.ofNat 64 0 * ((val >>> 64).setWidth 32 : Word).signExtend 64).toNat % 65536 =
        0x4FF00 % 65536 :=
  ⟨let ⟨f, h, _⟩ := converges_with (P := True) (by decide +kernel) trivial; ⟨f, h⟩, by decide +kernel, by decide +kernel,
    by decide +kernel, reaches_of (by decide +kernel), by decide, by decide +kernel⟩

/-- `TileMemoryRules`, writes of a drain: the last one, and one of two. -/
theorem witness_drain_writes : ∀ rest ∈ [[], [(Place.scratch 7 0xFF8, [(1 : Byte)], [(0xFF : Byte)])]],
    let d : Drain := { id := 2, blk := 7, thr := 0, writes := (.scratch 7 0xFFC, [1, 2, 3, 4], [0xFF, 0xFF, 0xFF, 0xFF]) :: rest }
    let s : State := { s1 with drains := [d] }
    s.drains = [d] ∧ d.add = none ∧ d.credit = none ∧ d.side = [] ∧ s.hole = false ∧ s.hasBlk d.blk ∧
      d.writes = (.scratch d.blk 0xFFC, [1, 2, 3, 4], [0xFF, 0xFF, 0xFF, 0xFF]) :: rest ∧
      [(0xFF : Byte), 0xFF, 0xFF, 0xFF].all (· = 0xFF) = true :=
  fun _ _ => ⟨rfl, rfl, rfl, rfl, rfl, rfl, rfl, by decide⟩
/-- And one to the last bytes of device memory. -/
theorem witness_drain_write_memory :
    let d : Drain := { id := 2, blk := 7, thr := 0, writes := [(.mem 0x1FFFFFFFFE false, [1, 2], [0xFF, 0xFF])] }
    let s : State := { s1 with drains := [d] }
    s.drains = [d] ∧ d.add = none ∧ d.credit = none ∧ d.side = [] ∧ s.hole = false ∧ s.hasBlk d.blk ∧ s.PlainFor d.blk ∧
      d.writes = (.mem 0x1FFFFFFFFE false, [1, 2], [0xFF, 0xFF]) :: [] ∧ [(0xFF : Byte), 0xFF].all (· = 0xFF) = true ∧
      0x1FFFFFFFFE + [(1 : Byte), 2].length ≤ memEnd :=
  ⟨rfl, rfl, rfl, rfl, rfl, rfl, plain_for_of (by decide +kernel), rfl, by decide, by decide⟩

end Sys2Proof.Tests
end

