-- ==== Sys2Proof/Tests/WitnessMemory.lean ====
section
/-! SUPPORT. States and operands that meet the hypotheses of the statements: memory, caches, barriers, copies, arrival. -/
namespace Sys2Proof.Tests
open Sys2Proof Sys2Proof.Machine
-- One theorem after another: the checks of several at once need too much memory.
set_option Elab.async false

/-! ### Loads, stores and atomics (addresses are given as literals) -/

/-- `LoadResults`, `StoreResults`: the last element of the page, of the scratchpad and of the aperture, of each width. -/
theorem witness_load_store :
    (∃ f, s1.Solo (.ld hl .acq .i32 (.v 254) (.lit 0x1FFF8) 4) f 0 ∧
      s1.Reaches 0 (s1.bk.pair 0 (.lit 0x1FFF8) + (4 : Word).signExtend 64) Ty.i32.bytes Ty.i32.bytes .read 0x4FFFC) ∧
    (∃ f, s1.Solo (.st hd .rel .f64 (.lit 0x20000) (.v 252) 0xFFFFFFF8) f 0 ∧
      s1.Reaches 0 (s1.bk.pair 0 (.lit 0x20000) + (0xFFFFFFF8 : Word).signExtend 64) Ty.f64.bytes Ty.f64.bytes .write 0x4FFF8) ∧
    (∃ f, s1.Solo (.lds hl .plain .i64 (.v 252) (.lit 0xFF8) 0) f 0 ∧
      s1.InScratch (s1.bk.word 0 (.lit 0xFF8) + 0) Ty.i64.bytes Ty.i64.bytes) ∧
    (∃ f, s1.Solo (.sts hd .plain .n8 (.lit 0xFFE) (.v 254) 1) f 0 ∧
      s1.InScratch (s1.bk.word 0 (.lit 0xFFE) + 1) Ty.n8.bytes Ty.n8.bytes) ∧
    (∃ f, s1.Solo (.ld hl .plain .n8 (.v 254) (.lit 0x1FFFF) 0) f 0 ∧
      s1.Reaches 0 (s1.bk.pair 0 (.lit 0x1FFFF) + (0 : Word).signExtend 64) Ty.n8.bytes Ty.n8.bytes .read 0x4FFFF) ∧
    (∃ f, s1.Solo (.ld hl .plain .n16 (.v 254) (.lit 0x00FFFFFF_00000FFE) 0) f 0 ∧ s1.bk.fn ≠ fwFn ∧
      (s1.bk.pair 0 (.lit 0x00FFFFFF_00000FFE) + (0 : Word).signExtend 64) >>> 32 = 0x00FFFFFF ∧
      s1.InScratch ((s1.bk.pair 0 (.lit 0x00FFFFFF_00000FFE) + (0 : Word).signExtend 64).setWidth 32) Ty.n16.bytes Ty.n16.bytes) ∧
    (∃ f, s1.Solo (.st hd .plain .i64 (.lit 0x00FFFFFF_00000FF8) (.v 252) 0) f 0 ∧ s1.bk.fn ≠ fwFn ∧
      (s1.bk.pair 0 (.lit 0x00FFFFFF_00000FF8) + (0 : Word).signExtend 64) >>> 32 = 0x00FFFFFF ∧
      s1.InScratch ((s1.bk.pair 0 (.lit 0x00FFFFFF_00000FF8) + (0 : Word).signExtend 64).setWidth 32) Ty.i64.bytes Ty.i64.bytes) :=
  ⟨solo_with (by decide +kernel) (reaches_of (by decide +kernel)), solo_with (by decide +kernel) (reaches_of (by decide +kernel)),
    solo_with (by decide +kernel) (by unfold State.InScratch; decide +kernel),
    solo_with (by decide +kernel) (by unfold State.InScratch; decide +kernel), solo_with (by decide +kernel) (reaches_of (by decide +kernel)),
    solo_with (by decide +kernel) ⟨by decide +kernel, by decide +kernel, by unfold State.InScratch; decide +kernel⟩,
    solo_with (by decide +kernel) ⟨by decide +kernel, by decide +kernel, by unfold State.InScratch; decide +kernel⟩⟩

/-- `AccessChecks`: not canonical, the fabric window, one byte past an aligned address; the first address past the scratchpad. -/
theorem witness_access_checks :
    s1.CanRaise 0 ∧ s1.bk.fn ≠ fwFn ∧
    (∃ f, s1.Solo (.ld hl .plain .n8 (.v 1) (.lit 0x80000000_00000000) 0) f 0 ∧
      canonical (s1.bk.pair 0 (.lit 0x80000000_00000000) + (0 : Word).signExtend 64) = false) ∧
    (∃ f, s1.Solo (.st hd .plain .n8 (.lit 0xFF000000_00000000) (.v 1) 0) f 0 ∧
      inFabric (s1.bk.pair 0 (.lit 0xFF000000_00000000) + (0 : Word).signExtend 64) = true) ∧
    (∃ f, s1.Solo (.ld hl .plain .i16 (.v 1) (.lit 0x10000) 1) f 0 ∧
      let ea := s1.bk.pair 0 (.lit 0x10000) + (1 : Word).signExtend 64
      canonical ea = true ∧ inFabric ea = false ∧ inAperture ea = false ∧ ea.toNat % Ty.i16.bytes ≠ 0) ∧
    (∃ f, s1.Solo (.st hd .plain .n64 (.lit 0x10000) (.v 2) 4) f 0 ∧
      let ea := s1.bk.pair 0 (.lit 0x10000) + (4 : Word).signExtend 64
      canonical ea = true ∧ inFabric ea = false ∧ inAperture ea = false ∧ ea.toNat % Ty.n64.bytes ≠ 0) ∧
    (∃ f, s1.Solo (.lds hl .plain .n8 (.v 1) (.lit 0x1000) 0) f 0 ∧
      (s1.bk.word 0 (.lit 0x1000) + 0).toNat < 0x10000000 ∧ s1.bk.scratchSize < (s1.bk.word 0 (.lit 0x1000) + 0).toNat + Ty.n8.bytes) ∧
    (∃ f, s1.Solo (.lds hl .plain .i32 (.v 1) (.lit 2) 0) f 0 ∧
      (s1.bk.word 0 (.lit 2) + 0).toNat + Ty.i32.bytes ≤ s1.bk.scratchSize ∧ (s1.bk.word 0 (.lit 2) + 0).toNat % Ty.i32.bytes ≠ 0) ∧
    (∃ f, s1.Solo (.sts hd .plain .n8 (.lit 0x0FFFFFFF) (.v 1) 0) f 0 ∧ (s1.bk.word 0 (.lit 0x0FFFFFFF) + 0).toNat < 0x10000000 ∧
      s1.bk.scratchSize < (s1.bk.word 0 (.lit 0x0FFFFFFF) + 0).toNat + Ty.n8.bytes) ∧
    (∃ f, s1.Solo (.sts hd .plain .i32 (.lit 1) (.v 1) 0) f 0 ∧
      (s1.bk.word 0 (.lit 1) + 0).toNat + Ty.i32.bytes ≤ s1.bk.scratchSize ∧ (s1.bk.word 0 (.lit 1) + 0).toNat % Ty.i32.bytes ≠ 0) :=
  ⟨can_raise_of (by decide +kernel), by decide +kernel, solo_with (by decide +kernel) (by decide +kernel),
    solo_with (by decide +kernel) (by decide +kernel), solo_with (by decide +kernel) (by decide +kernel),
    solo_with (by decide +kernel) (by decide +kernel), solo_with (by decide +kernel) (by decide +kernel),
    solo_with (by decide +kernel) (by decide +kernel), solo_with (by decide +kernel) (by decide +kernel),
    solo_with (by decide +kernel) (by decide +kernel)⟩

/-- A reduction that waits to be applied to the last word of device memory. -/
abbrev red0 : Red := { id := 9, blk := 7, thr := 0, thrs := [0], instr := 0, place := .mem 0x1FFFFFFFFC false, op := .fadd, w := .w32, b := 5 }
/-- `AtomicResults`: a compare and swap of 128 bits at the end of the page, a reduction of 64, and one that is applied. -/
theorem witness_atomics :
    (∃ f, s1.Solo (.atom hl .cas .acqrel .w128 (.v 248) (.lit 0x1FFF0) (.v 0) (.v 4) 0) f 0 ∧
      s1.Reaches 0 (s1.bk.pair 0 (.lit 0x1FFF0) + (0 : Word).signExtend 64) Wd.w128.bytes Wd.w128.bytes .atomic 0x4FFF0) ∧
    (∃ f, s1.Solo (.atom hl .mins .plain .w32 .none (.lit 0x10000) (.v 0) .zero 0) f 0 ∧
      s1.Reaches 0 (s1.bk.pair 0 (.lit 0x10000) + (0 : Word).signExtend 64) Wd.w32.bytes Wd.w32.bytes .atomic 0x40000) ∧
    (∃ f, s1.Solo (.red hd .maxu .rel .w64 (.lit 0x1FFF8) (.v 2) 0) f 0 ∧
      s1.Reaches 0 (s1.bk.pair 0 (.lit 0x1FFF8) + (0 : Word).signExtend 64) Wd.w64.bytes Wd.w64.bytes .atomic 0x4FFF8) ∧
    (∃ f, s1.Solo (.atom hl .fadd .plain .w32 (.v 254) (.lit 0x00FFFFFF_00000FFC) (.v 0) .zero 0) f 0 ∧
      let ea := s1.bk.pair 0 (.lit 0x00FFFFFF_00000FFC) + (0 : Word).signExtend 64
      ea >>> 32 = 0x00FFFFFF ∧ s1.InScratch (ea.setWidth 32) Wd.w32.bytes Wd.w32.bytes) ∧
    (let s := { s1 with reds := [red0] }
    s.reds = [red0] ∧ s.hole = false ∧ s.PlainFor 7 ∧ red0.place = .mem 0x1FFFFFFFFC false ∧ 0x1FFFFFFFFC + red0.w.bytes ≤ memEnd ∧
      s.misCached (s.blk 7).core false (0x1FFFFFFFFC / 128) = false ∧ 0x1FFFFFFFFC % 128 + red0.w.bytes ≤ 128 ∧
      s.l1At (s.blk 7).core (0x1FFFFFFFFC / 128) = none) :=
  ⟨solo_with (by decide +kernel) (reaches_of (by decide +kernel)), solo_with (by decide +kernel) (reaches_of (by decide +kernel)),
    solo_with (by decide +kernel) (reaches_of (by decide +kernel)),
    solo_with (by decide +kernel) (by unfold State.InScratch; decide +kernel), rfl, rfl, plain_for_of (by decide +kernel), rfl,
    by decide, by decide +kernel, by decide, by decide +kernel⟩

/-- Threads 0 and 1, of which p0 selects the second alone. -/
abbrev sEl : State := small { blk0 with threads := [(0, thr0), (1, { thr0 with preds := 1 })] } [0, 1]
/-- `ElementResults`: one selected thread, all, and none. -/
theorem witness_elements :
    s2.PlainMem ∧ sEl.PlainMem ∧
    (∃ f, sEl.Gathers (.cmpst hd .i64 (.v 254) (.lit 0x1FFF8) (.v 0) 0 0) f .zero ∧
      ((sEl.executing hd).filter fun x => (sEl.bk.thr x).pred 0) = [1] ∧
      sEl.Reaches 1 (sEl.bk.pair 0 (.lit 0x1FFF8) + (0 : Word).signExtend 64 + BitVec.ofNat 64 (0 * 8)) 8 8 .write (0x4FFF8 + 0 * 8)) ∧
    (∃ f, s2.Gathers (.expld hl .n16 (.v 254) (.lit 0x1FFFC) 7 0) f .zero ∧
      ((s2.executing hl).filter fun x => (s2.bk.thr x).pred 7) = [0, 1] ∧ ∀ j < 2,
      s2.Reaches ([0, 1].getD j 0) (s2.bk.pair 0 (.lit 0x1FFFC) + (0 : Word).signExtend 64 + BitVec.ofNat 64 (j * 2)) 2 2 .read
        (0x4FFFC + j * 2)) ∧
    (∃ f, s2.Gathers (.cmpst hd .n8 .none (.lit 0) (.v 0) 0 0) f .zero ∧ ((s2.executing hd).filter fun x => (s2.bk.thr x).pred 0) = []) ∧
    (∃ f, s2.Gathers (.expld hl .n64 (.v 252) (.lit 8) 6 0) f .zero ∧ ((s2.executing hl).filter fun x => (s2.bk.thr x).pred 6) = [] ∧
      (s2.bk.pair 0 (.lit 8) + (0 : Word).signExtend 64).toNat % Ty.n64.bytes = 0) :=
  ⟨plain_of (by decide +kernel), plain_of (by decide +kernel),
    gathers_with (by decide +kernel) ⟨by decide +kernel, reaches_of (by decide +kernel)⟩,
    gathers_with (by decide +kernel) ⟨by decide +kernel, fun j hj => by
      obtain rfl | rfl : j = 0 ∨ j = 1 := by omega
      all_goals exact reaches_of (by decide +kernel)⟩,
    gathers_with (by decide +kernel) (by decide +kernel), gathers_with (by decide +kernel) (by decide +kernel)⟩

/-! ### Caches and the stash -/

/-- Scalar registers that hold 1 and 2. -/
abbrev sOne : State := small { blk0 with threads := [(0, thr0)], sregs := [(1, 1), (2, 2)] } [0]
/-- `CacheRules`: PREF of each level, fences, an empty range, the last byte of the lower half of the address space, and its first. -/
theorem witness_cache_control :
    Ready s2 [.pref hd 0 (.lit 0) 0, .pref hd 2 (.v 252) 0, .fence hd, .xfence hd 0 3, .sflush hu] ∧ s2.bk.contained = false ∧
    (∃ f, s1.Solo (.cctlWb hd (.v 252) .zero 0) f 0 ∧ s1.bk.num 0 1 .zero = 0 ∧
      let ea := s1.bk.pair 0 (.v 252) + (0 : Word).signExtend 64
      canonical ea = true ∧ inFabric ea = false ∧ ea.toNat + s1.bk.num 0 1 .zero ≤ 2 ^ 56) ∧
    (∃ f, sOne.Solo (.cctlWb hd (.lit 0x00FFFFFF_FFFFFFFF) (.s 2) 0) f 0 ∧
      ¬ (sOne.bk.pair 0 (.lit 0x00FFFFFF_FFFFFFFF) + (0 : Word).signExtend 64).toNat + sOne.bk.num 0 1 (.s 2) ≤ 2 ^ 56) ∧
    (∃ f, s1.Solo (.cctlInv hd (.lit 0xFF000000_00000000) .zero 0) f 0 ∧
      inFabric (s1.bk.pair 0 (.lit 0xFF000000_00000000) + (0 : Word).signExtend 64) = true) ∧ s1.CanRaise 0 ∧ sOne.CanRaise 0 ∧
    (∃ f, sOne.Solo (.cctlWb hd (.lit 0x00FFFFFF_FFFFFFFF) (.s 1) 0) f 0 ∧
      let ea := sOne.bk.pair 0 (.lit 0x00FFFFFF_FFFFFFFF) + (0 : Word).signExtend 64
      sOne.bk.num 0 1 (.s 1) ≠ 0 ∧ canonical ea = true ∧ inFabric ea = false ∧ ea.toNat + sOne.bk.num 0 1 (.s 1) = 2 ^ 56) ∧
    (∃ f, s1.Solo (.cctlInv hd (.lit 0x10) (.lit 0x10) 0xFFFFFFF0) f 0 ∧
      let ea := s1.bk.pair 0 (.lit 0x10) + (0xFFFFFFF0 : Word).signExtend 64
      ea = 0 ∧ s1.bk.num 0 1 (.lit 0x10) ≠ 0 ∧ canonical ea = true ∧ inFabric ea = false ∧
        ea.toNat + s1.bk.num 0 1 (.lit 0x10) ≤ 2 ^ 56) :=
  ⟨ready_of (by decide +kernel), by decide +kernel, solo_with (by decide +kernel) (by decide +kernel),
    solo_with (by decide +kernel) (by decide +kernel), solo_with (by decide +kernel) (by decide +kernel), can_raise_of (by decide +kernel),
    can_raise_of (by decide +kernel), solo_with (by decide +kernel) (by decide +kernel), solo_with (by decide +kernel) (by decide +kernel)⟩

/-- A CCTL, and an SFLUSH, of the last line of device memory. -/
abbrev flush0 (inv : Bool) : Flush := { id := 3, blk := 7, thrs := [0], die := 3, core := 255, lines := [0x3FFFFFFF], inv := inv }
theorem witness_cache_completion :
    (∀ inv, let s := { s1 with cctls := [flush0 inv] };
      s.hole = false ∧ s.pendReg = [] ∧ s.cctls = [flush0 inv] ∧ s.roasts = [] ∧ s.watches = [] ∧ ∀ l ∈ (flush0 inv).lines, l < 0x40000000) ∧
    (let s := { s1 with sflushes := [flush0 false] };
      s.hole = false ∧ s.pendReg = [] ∧ s.roasts = [] ∧ s.sflushes = [flush0 false] ∧ ∀ l ∈ (flush0 false).lines, l < 0x40000000) :=
  ⟨fun _ => ⟨rfl, rfl, rfl, rfl, rfl, fun l hl => by rw [List.mem_singleton.1 hl]; decide⟩, rfl, rfl, rfl, rfl,
    fun l hl => by rw [List.mem_singleton.1 hl]; decide⟩

/-- Scalar registers of the SMAP: base s2:s3, sizes in s4 and s5, offsets in s6 and s7; slot 1 maps the first 128 bytes. -/
abbrev sMap : State :=
  small { blk0 with sregs := [(2, 0x20000), (4, 0x80), (5, 0x81), (6, 0xF80), (8, 0x1000)], smaps := [(1, some ⟨0x1FF80, 0x80, 0⟩)] } [0, 1]
/-- `CacheRules`, SMAP: size 0; the last line of the stash beside another mapping; and a size that is no multiple of 128. -/
theorem witness_stash_mapping :
    Ready sMap [.smap hu 0 (.s 2) .zero (.s 6), .smap hu 15 (.s 2) (.s 4) (.s 6), .smap hu 0 (.s 2) (.s 5) (.s 6)] ∧
    sMap.bk.num 0 1 .zero = 0 ∧
    (let g := sMap.bk.pair 0 (.s 2)
    let size := sMap.bk.num 0 1 (.s 4)
    let off := sMap.bk.num 0 1 (.s 6)
    size ≠ 0 ∧ g.toNat % 128 = 0 ∧ size % 128 = 0 ∧ off % 128 = 0 ∧ off + size = sMap.bk.stashSize ∧ canonical g = true ∧
      inFabric g = false ∧ inAperture g = false ∧ ∀ m < 16, m ≠ 15 → ∀ e, sMap.bk.smap m = some e →
        (e.base + e.size ≤ g.toNat ∨ g.toNat + size ≤ e.base) ∧ (e.off + e.size ≤ off ∨ off + size ≤ e.off)) ∧
    (sMap.bk.num 0 1 (.s 5) ≠ 0 ∧ ¬ ((sMap.bk.pair 0 (.s 2)).toNat % 128 = 0 ∧ sMap.bk.num 0 1 (.s 5) % 128 = 0 ∧
      sMap.bk.num 0 1 (.s 6) % 128 = 0) ∧ sMap.bk.smap 0 = none) ∧
    ((∃ f, sMap.Passes (.smap hu 0 (.s 2) (.s 4) (.s 8)) f) ∧ sMap.bk.num 0 1 (.s 8) % 128 = 0 ∧
      ¬ sMap.bk.num 0 1 (.s 8) + sMap.bk.num 0 1 (.s 4) ≤ sMap.bk.stashSize) ∧ sMap.CanRaise 0 ∧ sMap.PlainL1 sMap.bk.core := by
  refine ⟨ready_of (by decide +kernel), by decide +kernel, ⟨by decide +kernel, by decide +kernel, by decide +kernel, by decide +kernel,
    by decide +kernel, by decide +kernel, by decide +kernel, by decide +kernel, fun m hm hn e he => ?_⟩, by decide +kernel,
    ⟨(passes_with (P := True) (by decide +kernel) trivial).imp fun _ h => h.1, by decide +kernel, by decide +kernel⟩,
    can_raise_of (by decide +kernel), fun _ _ h => by cases h⟩
  obtain rfl | h : m = 1 ∨ sMap.bk.smap m = none := by
    rcases m with _ | _ | m
    · exact .inr rfl
    · exact .inl rfl
    · exact .inr rfl
  · obtain rfl := Option.some.inj he
    decide +kernel
  · rw [h] at he; cases he

/-! ### Barriers -/

/-- `BarrierRules`: a bundle that is all of the block, and one beside a live thread that has not arrived. -/
abbrev s3 : State := small { blk0 with threads := [(0, thr0), (1, thr0), (31, { thr0 with pc := 0 })] } [0, 1]
theorem witness_barriers :
    (Ready s2 [.bar hd, .gbar hd 0, .clbar hd, .gbar hd 15] ∧ Ready s3 [.bar hd, .gbar hd 0, .clbar hd]) ∧
    (s2.bk.barArr = [] ∧ s3.bk.barArr = [] ∧ s2.bk.clArr = [] ∧ s3.bk.clArr = [] ∧ s2.bk.gbarArr.get [] 0 = [] ∧
      s3.bk.gbarArr.get [] 0 = []) ∧
    ((∃ y ∈ s3.bk.liveThreads, y ∉ s3.sel.thrs) ∧ (∃ y ∈ s3.bk.groupThreads 0, y ∉ s3.sel.thrs)) ∧
    ((∀ y, y ∈ s2.bk.liveThreads ↔ y ∈ s2.sel.thrs) ∧ (∀ y ∈ s2.bk.groupThreads 0, y ∈ s2.sel.thrs) ∧
      ∀ x ∈ s2.sel.thrs, (s2.bk.thr x).raised = none ∧ (s2.bk.thr x).wait = none) ∧
    (((s2.bk.groups[0]?).getD 0).getLsbD s2.wp = true ∧ ((s2.bk.groups[15]?).getD 0).getLsbD s2.wp = false) ∧
    (s2.bk.contained = false ∧ s2.bk.status ≠ .dead ∧ s2.cluster 7 = [7] ∧ s3.cluster 7 = [7]) :=
  ⟨⟨ready_of (by decide +kernel), ready_of (by decide +kernel)⟩, by decide +kernel, by decide +kernel,
    ⟨fun y => by rw [show s2.bk.liveThreads = s2.sel.thrs by decide +kernel], by decide +kernel, by decide +kernel⟩,
    by decide +kernel, by decide +kernel⟩

/-! ### Copies and completion registers -/

/-- A scratchpad with a copy record of the most bytes, 2^28 - 1, at 0xFD0, its last 48 bytes. -/
abbrev scratchRec : Map Byte :=
  Map.setList 0 [] 0xFD0 (leBytes 8 0x10000 ++ leBytes 8 0x20000 ++ leBytes 4 0x0FFFFFFF ++ leBytes 4 0 ++ leBytes 4 0 ++ leBytes 4 0 ++
    leBytes 4 0 ++ leBytes 4 0xFFFFFFFF ++ leBytes 8 0)
abbrev sCopy : State := small { blk0 with threads := [(0, thr0)], scratch := scratchRec } [0]
/-- A record whose byte count is 2^28. -/
abbrev sBad : State :=
  small { blk0 with threads := [(0, thr0)], scratch := Map.setList 0 scratchRec 0xFE0 (leBytes 4 0x10000000) } [0]
/-- A record that names an arrival object at 0xFC0. -/
abbrev sArr : State :=
  small { blk0 with threads := [(0, thr0)], scratch := Map.setList 0 scratchRec 0xFF4 (leBytes 4 0xFC0) } [0]
theorem witness_copy_requests :
    (∃ f, sCopy.Solo (.cpq hd (.lit 0xFD0) 0) f 0 ∧ sCopy.InScratch (sCopy.bk.word 0 (.lit 0xFD0) + 0) 48 16 ∧
      let r := CopyRec.of (sCopy.bk.scratch.getList 0 (sCopy.bk.word 0 (.lit 0xFD0) + 0).toNat 48)
      r.valid = true ∧ r.fabric = false ∧ r.aoff = 0xFFFFFFFF ∧ r.bytes = 0x0FFFFFFF ∧ sCopy.copiesOf sCopy.bk.core < 64) ∧
    (∃ f, sArr.Solo (.cpq hd (.lit 0xFD0) 0) f 0 ∧ sArr.InScratch (sArr.bk.word 0 (.lit 0xFD0) + 0) 48 16 ∧
      let r := CopyRec.of (sArr.bk.scratch.getList 0 (sArr.bk.word 0 (.lit 0xFD0) + 0).toNat 48)
      r.valid = true ∧ r.fabric = false ∧ r.bytes ≠ 0 ∧ sArr.InScratch r.aoff 16 16 ∧ sArr.copiesOf sArr.bk.core < 64) ∧
    (∃ f, sBad.Solo (.cpq hd (.lit 0xFD0) 0) f 0 ∧ sBad.InScratch (sBad.bk.word 0 (.lit 0xFD0) + 0) 48 16 ∧
      (CopyRec.of (sBad.bk.scratch.getList 0 (sBad.bk.word 0 (.lit 0xFD0) + 0).toNat 48)).valid = false ∧
      sBad.copiesOf sBad.bk.core < 64) ∧ sBad.CanRaise 0 ∧
    (∃ f, s1.Solo (.cpld hd .i64 (.v 252) (.lit 0x1FFF8) 7 0) f 0 ∧
      s1.Reaches 0 (s1.bk.pair 0 (.lit 0x1FFF8) + (0 : Word).signExtend 64) Ty.i64.bytes Ty.i64.bytes .read 0x4FFF8 ∧
      (s1.bk.sreg s1.wp (48 + 7)).toNat + Ty.i64.bytes < 2 ^ 31) ∧
    (∃ f, s1.Passes (.cqwait hu 7) f ∧ s1.bk.sreg s1.wp (48 + 7) = 0) ∧
    (let s := small { blk0 with sregs := [(48, 1)] } [0, 1];
      ∃ f, s.Passes (.cqwait hu 0) f ∧ s.bk.sreg s.wp (48 + 0) ≠ 0) :=
  ⟨solo_with (by decide +kernel) (by unfold State.InScratch; decide +kernel),
    solo_with (by decide +kernel) (by unfold State.InScratch; decide +kernel),
    solo_with (by decide +kernel) (by unfold State.InScratch; decide +kernel), can_raise_of (by decide +kernel),
    solo_with (by decide +kernel) ⟨reaches_of (by decide +kernel), by decide +kernel⟩, passes_with (by decide +kernel) (by decide +kernel),
    passes_with (by decide +kernel) (by decide +kernel)⟩

/-- A landing of CQ7 into v254. -/
abbrev land (n : Nat) : Landing := { thr := 1, dst := .v 254, val := 0xABCD, cq := 7, bytes := n }
/-- `CopyRequestRules`, landings: of 4 bytes, of 2, and the last one. -/
theorem witness_landings : ∀ n ∈ [4, 2, 1],
    let s := small { blk0 with landings := [land n] } []
    s.hole = false ∧ s.hasBlk 7 ∧ (s.blk 7).landings = [land n] ∧ (land n).dst = .v 254 ∧ (land n).cq < 8 ∧ 254 < 256 ∧
      ((1 < (land n).bytes ∧ (land n).bytes ≤ 4) ∨ (land n).bytes = 1) := by
  intro n hn
  refine ⟨rfl, rfl, rfl, rfl, Nat.lt_succ_self 7, by decide, ?_⟩
  rcases List.mem_cons.1 hn with rfl | hn
  · decide
  rcases List.mem_cons.1 hn with rfl | hn
  · decide
  · rw [List.mem_singleton.1 hn]; decide

/-- A copy from the scratchpad's start: to its end, or to a page that core 0 has cached. -/
abbrev copy0 (sp : Bool) : Copy :=
  { id := 4, core := 0, blk := 7, thr := 0, pc := 0x8000, recAddr := 0, fn := 1, src := 0, dst := if sp then 0xFFC else 0x1FFFC,
    rows := 0, rowBytes := 4, bytes := 4, sstride := 0, dstride := 0, aoff := 0xFFFFFFFF, srcSp := true, dstSp := sp, rxNote := false,
    rxSlot := 0, todo := [(0, 4)] }
abbrev sLand (sp : Bool) : State := { s1 with copies := [copy0 sp], cores := [(0, { tlb := [page] })] }
/-- `CopyEngineRules`: the last unit of the scratchpad, and of a page of memory. -/
theorem witness_copy_landings :
    (∀ sp, (sLand sp).copies = [copy0 sp] ∧ (copy0 sp).fault = none ∧ (copy0 sp).stopped = false ∧ (copy0 sp).packet = none ∧
      (copy0 sp).aoff = 0xFFFFFFFF ∧ (copy0 sp).rxNote = false ∧ inFabric (copy0 sp).dst = false ∧ (copy0 sp).unitAt 0 = 0 ∧
      (sLand sp).hole = false ∧ (sLand sp).hasBlk 7 ∧ ((sLand sp).blk 7).status = .running ∧ (sLand sp).PlainFor 7 ∧
      (copy0 sp).srcSp = true ∧ (copy0 sp).runAt 0 ≠ 0) ∧
    (let n := min ((copy0 true).runAt 0) (8 - ((copy0 true).dstAt 0).toNat % 8);
      n = 4 ∧ (sLand true).scratchHolds 7 ((copy0 true).srcAt 0) n ∧ (copy0 true).dstSp = true ∧
        (sLand true).scratchHolds 7 ((copy0 true).dstAt 0) n) ∧
    (let n := min ((copy0 false).runAt 0) (8 - ((copy0 false).dstAt 0).toNat % 8);
      n = 4 ∧ (sLand false).scratchHolds 7 ((copy0 false).srcAt 0) n ∧ (copy0 false).dstSp = false ∧
        inFabric ((copy0 false).dstAt 0) = false ∧
        (sLand false).EngineReaches 0 1 ((copy0 false).dstAt 0) n .write 0x4FFFC) := by
  refine ⟨fun sp => ?_, ?_, ?_⟩
  · cases sp <;> exact ⟨rfl, rfl, rfl, rfl, rfl, rfl, by decide +kernel, by decide +kernel, rfl, rfl, rfl,
      plain_for_of (by decide +kernel), rfl, by decide +kernel⟩
  · unfold State.scratchHolds; decide +kernel
  · exact ⟨by decide +kernel, by unfold State.scratchHolds; decide +kernel, by decide +kernel, by decide +kernel,
      by decide +kernel, by decide +kernel, ⟨page, by decide +kernel, by decide +kernel, by decide +kernel, by decide +kernel,
        by decide +kernel, by decide +kernel⟩, by decide +kernel⟩

/-- A copy into the scratchpad whose source is the fabric window, or a page that no table maps. -/
abbrev copy1 (src : DWord) : Copy := { copy0 true with src := src, srcSp := false }
abbrev sStop (src : DWord) : State := { s1 with copies := [copy1 src] }
theorem witness_copy_stops :
    (∀ src, (sStop src).copies = [copy1 src] ∧ (copy1 src).fault = none ∧ (copy1 src).stopped = false ∧ (copy1 src).packet = none ∧
      (copy1 src).rxNote = false ∧ (copy1 src).srcSp = false ∧
      (copy1 src).dstSp = true ∧ (sStop src).hole = false ∧ ((sStop src).blk 7).status = .running ∧ (copy1 src).runAt 0 ≠ 0) ∧
    (deviceSpace ((copy1 0xFF000000_00000000).srcAt 0) = false ∧ (((sStop 0xFF000000_00000000).blk 7).thr 0).live = true ∧
      (sStop 0xFF000000_00000000).hasBlk 7) ∧
    (let s := sStop 0;
      deviceSpace ((copy1 0).srcAt 0) = true ∧ (s.core 0).tlb = [] ∧ (s.region (regionOf 0)).tlb = [] ∧ (s.die (dieOf 0)).tlb = [] ∧
        s.walkFor 1 ((copy1 0).srcAt 0).toNat .read = .fault 1 0) :=
  ⟨fun _ => ⟨rfl, rfl, rfl, rfl, rfl, rfl, rfl, rfl, rfl, Nat.succ_ne_zero 3⟩, ⟨by decide +kernel, by decide +kernel, rfl⟩, by decide +kernel⟩

/-- `CopyEngineRules`: a report of an engine, of a code for a region and of one for the launch, in mode 0 and in mode 2. -/
abbrev report (code : Word) : Exc := { code := code, aux := 3, pc := 0x8000, async := true }
theorem witness_async_exceptions : ∀ code ∈ [cPERM, cHWUE], ∀ mode ∈ [(0 : Word), 2],
    let s := small { blk0 with threads := [(0, { thr0 with asyncs := [report code], mode := mode })] } []
    s.hole = false ∧ (s.thr 7 0).asyncs = report code :: [] ∧ (s.blk 7).status = .running ∧ (s.blk 7).agent = false ∧
      (s.thr 7 0).raised = none ∧ (s.thr 7 0).live = true ∧ (s.thr 7 0).mode ≠ 1 ∧ (report code).async = true ∧
      (report code).carried = none := by
  intro code _ mode hm
  refine ⟨rfl, rfl, rfl, rfl, rfl, rfl, fun (h : mode = 1) => ?_, rfl, rfl⟩
  rw [h] at hm
  revert hm
  decide

/-! ### Arrival objects -/

/-- One thread with an arrival object at the end of its scratchpad. -/
abbrev arrObj (o : Arrival) : State := small { blk0 with threads := [(0, thr0)], scratch := Map.setList 0 [] 0xFF0 o.bytes } [0]
abbrev obj : Arrival := { gen := 0x80000000, paths := 7, pend := 0xFFFFFFE, hi := 0, expect := 3, arrive := 2 }
/-- `ArrivalRules`: AARM to the greatest PEND and beyond it; AARRIVE of two, of the last, with bytes pending, and of none left; AWAIT of
generations one apart, 2^31 apart, none, and more than 2^31. -/
theorem witness_arrival :
    (arrObj obj).InScratch ((arrObj obj).bk.word 0 (.lit 0xFF0) + 0) 16 16 ∧ (arrObj obj).arrival 7 0xFF0 = obj ∧
      (arrObj obj).CanRaise 0 ∧
    (∃ f, (arrObj obj).Solo (.aarm hd (.lit 0xFF0) (.v 1) (.v 2) 0) f 0 ∧ obj.pend + (arrObj obj).bk.num 0 1 (.v 1) < 2 ^ 28) ∧
    (∃ f, (arrObj obj).Solo (.aarm hd (.s 0) (.lit 2) (.v 2) 0xFF0) f 0 ∧ 2 ^ 28 ≤ obj.pend + (arrObj obj).bk.num 0 1 (.lit 2)) ∧
    (∃ f, (arrObj obj).Solo (.aarrive hd (.lit 0xFF0) 0) f 0) ∧
    (∃ f, (arrObj { obj with arrive := 1 }).Solo (.aarrive hd (.lit 0xFF0) 0) f 0) ∧
    (∃ f, (arrObj { obj with arrive := 1, pend := 0 }).Solo (.aarrive hd (.lit 0xFF0) 0) f 0) ∧
    (∃ f, (arrObj { obj with arrive := 0 }).Solo (.aarrive hd (.lit 0xFF0) 0) f 0) ∧
    (∀ v ∈ [(0 : DWord), 0x7FFFFFFF, 0x80000000, 0x80000001], ∃ f, (arrObj obj).Solo (.await hd (.s 0) (.lit v) 0xFF0) f 0) ∧
    (let d := fun v : DWord => (obj.gen + 2 ^ 32 - (arrObj obj).bk.num 0 1 (.lit v)) % 2 ^ 32;
      obj.paths < 8 ∧ d 0 = 2 ^ 31 ∧ d 0x7FFFFFFF = 1 ∧ d 0x80000000 = 0 ∧ 2 ^ 31 < d 0x80000001) := by
  have drop {s : State} {i : Instr} {x : Nat} (h : soloB s i x = true) : ∃ f, s.Solo i f x :=
    let ⟨f, h, _⟩ := solo_with (P := True) h trivial
    ⟨f, h⟩
  refine ⟨by unfold State.InScratch; decide +kernel, by decide +kernel, can_raise_of (by decide +kernel),
    solo_with (by decide +kernel) (by decide +kernel), solo_with (by decide +kernel) (by decide +kernel), drop (by decide +kernel),
    drop (by decide +kernel), drop (by decide +kernel), drop (by decide +kernel), ?_, by decide +kernel⟩
  simp only [List.mem_cons, List.not_mem_nil, or_false, forall_eq_or_imp, forall_eq]
  exact ⟨drop (by decide +kernel), drop (by decide +kernel), drop (by decide +kernel), drop (by decide +kernel)⟩

/-- `ArrivalRules`: a thread that awaits the HOST path, on which a write to the end of device memory is held. -/
theorem witness_host_fence :
    let k : Block := { blk0 with threads := [(0, { thr0 with wait := some (.await 7 0xFF0 0 0x10010) })],
                                 scratch := Map.setList 0 [] 0xFF0 (Arrival.bytes { obj with paths := 8, gen := 1 }) }
    let s : State := { small k [] with hostQ := [(0x1FFFFFFFFE, [5, 6])] }
    s.hole = false ∧ s.hasBlk 7 ∧ s.poisoned = [] ∧ s.watches = [] ∧ s.roasts = [] ∧ s.links = [] ∧
      (s.thr 7 0).wait = some (.await 7 0xFF0 0 0x10010) ∧ (s.thr 7 0).raised = none ∧ (s.arrival 7 0xFF0).passed 0 = true ∧
      8 ≤ (s.arrival 7 0xFF0).paths ∧ s.hostQ = [(0x1FFFFFFFFE, [5, 6])] ∧ 0x1FFFFFFFFE + [(5 : Byte), 6].length ≤ memEnd :=
  ⟨rfl, rfl, rfl, rfl, rfl, rfl, rfl, rfl, by decide +kernel, by decide +kernel, rfl, by decide⟩

end Sys2Proof.Tests
end

