-- ==== Sys2Proof/Tests/WitnessQueue.lean ====
section
/-! SUPPORT. States and operands that meet the hypotheses of the statements: notify registers, queues, packets, and launches. -/
namespace Sys2Proof.Tests
open Sys2Proof Sys2Proof.Machine
-- One theorem after another: the checks of several at once need too much memory.
set_option Elab.async false

/-- An answer that passes a check. -/
def suchB {ε α : Type} (e : Except ε α) (p : α → Bool) : Bool := match e with
  | .ok x => p x
  | .error _ => false
theorem such_of {ε α : Type} {e : Except ε α} {p : α → Bool} (h : suchB e p = true) : ∃ x, e = .ok x ∧ p x = true := by
  unfold suchB at h
  split at h
  · exact ⟨_, rfl, h⟩
  · cases h

/-! ### Function 0 has a table that maps the first GiB to itself -/

/-- The table of function 0 lies in the 12 KiB from `tb` on. -/
def Maps (tb : Nat) (t : State) : Prop :=
  (t.fn 0).s1root = BitVec.ofNat 64 (tb + 1) ∧ t.num tb 8 = tb + 0x1001 ∧ t.num (tb + 0x1000) 8 = tb + 0x2001 ∧
    t.num (tb + 0x2000) 8 = 0x1B ∧ t.watches = [] ∧ t.roasts = []

theorem step_maps (t : State) (va l tb e : Nat) (hn : t.num tb 8 = e) (hi : va / 2 ^ levelBit (l + 1) = 0) (hd : inDevice tb 8 = true)
    (he : e % 2 = 1 ∧ field e 63 52 = 0 ∧ field e 7 7 = 0 ∧ field e 2 2 = 0 ∧ field e 1 1 = 0) (hl : l ≠ 0)
    (ha : field e 51 8 * 256 % 4096 = 0) : t.walkFrom 0 va (l + 1) tb = t.walkFrom 0 va l (field e 51 8 * 256) := by
  have h2 : field e 51 8 * 256 % 256 = 0 := Nat.mul_mod_left _ _
  have hm : field e 51 8 * 256 % (if l = 1 then 256 else 4096) = 0 := by split <;> assumption
  simp [State.walkFrom, State.stage2, hi, hn, hd, he, hl, hm]

theorem leaf_maps (t : State) (va tb : Nat) (hn : t.num tb 8 = 0x1B) (hv : va < 2 ^ 30) (hd : inDevice tb 8 = true) :
    t.walkFrom 0 va 3 tb = .ok ⟨0, 0, 30, 0, true, true, false, false⟩ := by
  have q3 : va / 1073741824 = 0 := Nat.div_eq_of_lt (by omega)
  have p3 : va % 1073741824 / 1073741824 = 0 := Nat.div_eq_of_lt (by omega)
  simp [State.walkFrom, State.stage2, levelBit, q3, p3, hn, hd, field]

theorem walk_maps {tb : Nat} (hb : tb = 0x1000 ∨ tb = 0x40000000) {t : State} (h : Maps tb t) (va : Nat) (hv : va < 2 ^ 30) :
    t.walk 0 va = .ok ⟨0, 0, 30, 0, true, true, false, false⟩ := by
  obtain ⟨h0, h1, h2, h3, _⟩ := h
  have e0 : va % 2 ^ 57 = va := Nat.mod_eq_of_lt (by omega)
  have e5 : va / 2 ^ levelBit 5 = 0 := Nat.div_eq_of_lt (by simp only [levelBit]; omega)
  have e4 : va / 2 ^ levelBit 4 = 0 := Nat.div_eq_of_lt (by simp only [levelBit]; omega)
  rcases hb with rfl | rfl
  all_goals
    simp only [State.walk, h0, e0]
    rw [if_neg (by decide), if_neg (by decide)]
    refine (step_maps t va 4 _ _ h1 e5 (by decide) (by decide) (by decide) (by decide)).trans ?_
    refine (step_maps t va 3 _ _ h2 e4 (by decide) (by decide) (by decide) (by decide)).trans ?_
    exact leaf_maps t va _ h3 hv (by decide)

/-- An access in one page of 64 KiB. -/
theorem reaches_maps {tb : Nat} (hb : tb = 0x1000 ∨ tb = 0x40000000) {t : State} (h : Maps tb t) (va : DWord) (n : Nat) (kind : AccKind)
    (hv : va.toNat < 2 ^ 30) (hn : n ≠ 0) (hp : va.toNat % 65536 + n ≤ 65536) : t.CpReaches 0 va n kind va.toNat := by
  have q : ∀ k, 30 ≤ k → va.toNat / 2 ^ k = 0 := fun k hk =>
    Nat.div_eq_of_lt (Nat.lt_of_lt_of_le hv (Nat.pow_le_pow_right (by decide) hk))
  have hd : deviceSpace va = true := by
    have h56 : va.getLsbD 56 = false := by
      rw [BitVec.getLsbD, Nat.testBit_eq_decide_div_mod_eq, q 56 (by decide)]; rfl
    simp only [deviceSpace, canonical, inFabric, inAperture, bits64, bitAt, q 56 (by decide), q 32 (by decide), h56]
    decide
  have hm : va.toNat % 2 ^ 30 = va.toNat := Nat.mod_eq_of_lt hv
  have hw : t.walkFor 0 va.toNat kind = .ok ⟨0, 0, 30, 0, true, true, false, false⟩ := by
    rw [State.walkFor, walk_maps hb h _ hv]; cases kind <;> rfl
  have hmin : min n (65536 - va.toNat % 65536) = n := by omega
  have hadr : (⟨0, 0, 30, 0, true, true, false, false⟩ : Xlat).addr va.toNat = va.toNat := by
    simp only [Xlat.addr, hm, Nat.zero_add]
  have hin : inDevice va.toNat n = true := decide_eq_true (show va.toNat + n ≤ 0x2000000000 by omega)
  obtain ⟨f, hf⟩ : ∃ f, n / 65536 + 2 = f + 2 := ⟨_, rfl⟩
  rw [State.CpReaches, hf]
  simp [State.cpPieces, hn, hd, hw, hmin, hadr, hin, Except.map]

/-- A write that leaves the table alone. -/
def clear (tb : Nat) (w : Nat × List Byte) : Prop := w.1 + w.2.length ≤ tb ∨ tb + 0x3000 ≤ w.1

/-- Of what `Maps` reads, nothing has changed. -/
def Alike (s t : State) : Prop := t.mem = s.mem ∧ t.fns = s.fns ∧ t.watches = s.watches ∧ t.roasts = s.roasts
theorem Alike.trans {s t u : State} (h : Alike s t) (k : Alike t u) : Alike s u :=
  ⟨k.1.trans h.1, k.2.1.trans h.2.1, k.2.2.1.trans h.2.2.1, k.2.2.2.trans h.2.2.2⟩
theorem alike_fold {α : Type} (f : State → α → State) (l : List α) (hf : ∀ s a, s.roasts = [] → Alike s (f s a)) (s : State)
    (hs : s.roasts = []) : Alike s (l.foldl f s) := by
  induction l generalizing s with
  | nil => exact ⟨rfl, rfl, rfl, rfl⟩
  | cons a l ih => exact (hf s a hs).trans (ih _ ((hf s a hs).2.2.2.trans hs))

theorem alike_llcEvict (s : State) (line : Nat) (hs : s.roasts = []) : Alike s (s.llcEvict line) := by
  have ht : s.tagBack line = s := by simp [State.tagBack, State.scaledAt, hs]
  unfold State.llcEvict
  dsimp only
  rw [ht, ite_self]
  split <;> exact ⟨rfl, rfl, rfl, rfl⟩
theorem alike_llcFill (s : State) (line : Nat) (hs : s.roasts = []) : Alike s (s.llcFill line) := by
  have hr : Alike s (s.llcRoom line) := by
    unfold State.llcRoom
    dsimp only
    generalize (if s.llc.length < llcCap then [] else s.llc.filter fun e => s.home (e.1 * 128) = s.home (line * 128)) = l
    split
    · exact ⟨rfl, rfl, rfl, rfl⟩
    · exact alike_llcEvict (s.freeNat).2 _ hs
  unfold State.llcFill
  dsimp only
  split
  · exact ⟨rfl, rfl, rfl, rfl⟩
  · split
    · rename_i h; simp [State.scaledAt, hr.2.2.2.trans hs] at h
    · exact hr
theorem alike_touch (s : State) (pa n : Nat) (hs : s.roasts = []) : Alike s (s.touch pa n) := by
  unfold State.touch
  split
  · exact ⟨rfl, rfl, rfl, rfl⟩
  · split
    · exact ⟨rfl, rfl, rfl, rfl⟩
    · exact alike_fold _ _ (fun s j h => alike_llcFill s _ h) s hs
theorem alike_disown (s : State) (pa n : Nat) : Alike s (s.disown pa n) := by
  unfold State.disown; split <;> exact ⟨rfl, rfl, rfl, rfl⟩

theorem maps_alike {tb : Nat} {s t : State} (h : Maps tb s) (k : Alike s t) : Maps tb t := by
  have hn : ∀ a n, t.num a n = s.num a n := fun a n => by simp only [State.num, State.readPA, k.1]
  simpa only [Maps, State.fn, hn, k.2.1, k.2.2.1, k.2.2.2] using h
theorem maps_writePA {tb : Nat} {t : State} (h : Maps tb t) (w : Nat × List Byte) (hw : clear tb w) : Maps tb (t.writePA w.1 w.2) := by
  obtain ⟨h0, h1, h2, h3, h4, h5⟩ := h
  have hr : (t.writePA w.1 w.2).fns = t.fns ∧ (t.writePA w.1 w.2).watches = t.watches ∧ (t.writePA w.1 w.2).roasts = t.roasts := by
    unfold State.writePA State.unpoison
    split
    · split <;> exact ⟨rfl, rfl, rfl⟩
    · exact ⟨rfl, rfl, rfl⟩
  have hn : ∀ a, tb ≤ a → a + 8 ≤ tb + 0x3000 → (t.writePA w.1 w.2).num a 8 = t.num a 8 := fun a ha hb => by
    simp only [State.num, State.readPA]
    rw [Map.getList_congr memDefault _ t.mem a 8 fun j h1 h2 => t.byte_writePA_out w.1 w.2 j (by unfold clear at hw; omega)]
  exact ⟨by rw [State.fn, hr.1]; exact h0, by rw [hn _ (by omega) (by omega)]; exact h1, by rw [hn _ (by omega) (by omega)]; exact h2,
    by rw [hn _ (by omega) (by omega)]; exact h3, hr.2.1.trans h4, hr.2.2.trans h5⟩
theorem maps_writeHome {tb : Nat} {t : State} (h : Maps tb t) (w : Nat × List Byte) (hw : clear tb w) : Maps tb (t.writeHome w.1 w.2) := by
  unfold State.writeHome
  split
  · exact h
  · have h1 := maps_alike h ((alike_touch t w.1 w.2.length h.2.2.2.2.2).trans (alike_disown _ w.1 w.2.length))
    have h2 := maps_writePA h1 w hw
    have h3 := maps_alike h2 (alike_fold (fun (s : State) (j : Nat) => s.llcDirty (w.1 / 128 + j))
      (List.range ((w.1 + w.2.length - 1) / 128 - w.1 / 128 + 1)) (fun s j _ => ⟨rfl, rfl, rfl, rfl⟩) _ h2.2.2.2.2.2)
    dsimp only
    rw [State.mark, if_pos (.inl h3.2.2.2.2.1)]
    exact h3

theorem maps_writes {tb : Nat} {t : State} (h : Maps tb t) (ws : List (Nat × List Byte)) (hw : ∀ w ∈ ws, clear tb w) :
    Maps tb (t.writes ws) := by
  induction ws generalizing t with
  | nil => exact h
  | cons w ws ih => exact ih (maps_writeHome h w (hw w (by simp))) fun x hx => hw x (by simp [hx])

/-! ### A queue of function 0 -/

/-- The table of function 0 at `tb`, and other bytes from 0x20000 on. -/
abbrev table (tb : Nat) (l : List Host.Cell) : List Host.Cell :=
  if tb = 0x1000 then (0x1000, 1) :: (0x1001, 0x20) :: (0x2000, 1) :: (0x2001, 0x30) :: (0x3000, 0x1B) :: l
  else l ++ [(tb, 1), (tb + 1, 0x10), (tb + 3, 0x40), (tb + 0x1000, 1), (tb + 0x1001, 0x20), (tb + 0x1003, 0x40), (tb + 0x2000, 0x1B)]
/-- Where the control block of queue 255 lies: apart from the table, and from the snapshot pool in one of the two places. -/
abbrev qc (tb : Nat) : Nat := if tb = 0x1000 then 0x20000 else 0x30000000
/-- A write that leaves the table and the control block alone. -/
def safe (tb : Nat) (w : Nat × List Byte) : Prop :=
  if tb = 0x1000 then w.1 + w.2.length ≤ 0x1000 ∨ 0x20020 ≤ w.1 else w.1 + w.2.length ≤ 0x30000000 ∨ 0x40003000 ≤ w.1
theorem clear_of_safe {tb : Nat} (hb : tb = 0x1000 ∨ tb = 0x40000000) {w : Nat × List Byte} (h : safe tb w) : clear tb w := by
  rcases hb with rfl | rfl <;> simp [safe] at h <;> simp only [clear] <;> omega
theorem apart_of_safe {tb : Nat} (hb : tb = 0x1000 ∨ tb = 0x40000000) {w : Nat × List Byte} (h : safe tb w) :
    w.1 + w.2.length ≤ qc tb + 0x10 ∨ qc tb + 0x10 + 16 ≤ w.1 := by
  rcases hb with rfl | rfl <;> simp [safe] at h <;> simp [qc] <;> omega
/-- Queue 255, its ring of 16 packets at 0x30000, with 7 packets before P done and one before the wrap. -/
abbrev queue0 : Queue :=
  { running := true, base := 0x30000, log2n := 4, pos := 0xFFFFFFFF, rdidx := 0xFFFFFFF8, state := 1 }
/-- Its control block's words, with fill position 0, and other bytes after it. -/
abbrev words (c : Nat) (q : Queue) : List Host.Cell :=
  [(c + 0x10, 0xF8), (c + 0x11, 0xFF), (c + 0x12, 0xFF), (c + 0x13, 0xFF), (c + 0x18, BitVec.ofNat 8 q.state)]
abbrev sQueue (tb : Nat) (q : Queue) (l : List Host.Cell) : State :=
  { State.reset with
    mem := table tb (if tb = 0x1000 then words 0x20000 q ++ l else l ++ words 0x30000000 q), bootState := 2,
    fns := [(0,
      { s1root := BitVec.ofNat 64 (tb + 1), regions := 0xFFFFFFFF, queues := [(255, { q with qcb := BitVec.ofNat 64 (qc tb) })] })] }

def runsB (tb : Nat) (s : State) (f : Word) : Bool :=
  let q := s.queue 0 255
  decide (s.hole = false ∧ s.poisoned = []) && decide (s.watches = [] ∧ s.roasts = []) &&
    decide (q.running = true ∧ q.binding = false ∧ q.closing = false) &&
    decide (q.fault = none ∧ q.err = 0 ∧ q.held = none ∧ q.inflight = []) && decide ((s.fn 0).queues = [(255, q)]) &&
    decide (s.fnWarps 0 = [] ∧ s.launches = []) &&
    (okB (s.fill 0 255) f && decide (¬ (2 ^ q.log2n < (f - q.rdidx).toNat ∧ (f - q.rdidx).toNat ≤ 2 ^ 31))) &&
    decide (s.num (qc tb + 0x10) 8 = q.rdidx.toNat ∧ s.num (qc tb + 0x18) 8 = q.word) &&
    decide (s.qcb 0 255 = BitVec.ofNat 64 (qc tb)) && decide (s.dies = [] ∧ s.unitsOut = [] ∧ s.cpStopped = false)

/-- The control block's words are reached, whatever is written elsewhere. -/
theorem reach_qcb {tb : Nat} (hb : tb = 0x1000 ∨ tb = 0x40000000) {t : State} (h : Maps tb t) {v : DWord} (hv : v = BitVec.ofNat 64 (qc tb)) :
    t.CpReaches 0 (v + 0x10) 16 .write (qc tb + 0x10) := by
  subst hv
  rcases hb with rfl | rfl
  · exact reaches_maps (.inl rfl) h 0x20010 16 .write (by decide) (by decide) (by decide)
  · exact reaches_maps (.inr rfl) h 0x30000010 16 .write (by decide) (by decide) (by decide)

theorem runs_of {tb : Nat} (hb : tb = 0x1000 ∨ tb = 0x40000000) {s : State} (h : Maps tb s) {f : Word} (hr : runsB tb s f = true)
    (ws : List (Nat × List Byte)) (hw : ∀ w ∈ ws, safe tb w) : s.QueueRuns 0 255 (qc tb + 0x10) f ws := by
  simp only [runsB, Bool.and_eq_true] at hr
  obtain ⟨⟨⟨⟨⟨⟨⟨⟨⟨a, c⟩, d⟩, e⟩, g⟩, i⟩, j, k⟩, l⟩, m⟩, n⟩ := hr
  have a := of_decide_eq_true a
  have c := of_decide_eq_true c
  have n := of_decide_eq_true n
  have hc : ∀ w ∈ ws, clear tb w := fun w hm => clear_of_safe hb (hw w hm)
  have own : ∀ bs : List Byte, bs.length = 16 → clear tb (qc tb + 0x10, bs) := fun bs hbs => by
    rcases hb with rfl | rfl
    · exact .inr (by show 0x1000 + 0x3000 ≤ 0x20010; decide)
    · exact .inl (by show 0x30000010 + bs.length ≤ 0x40000000; omega)
  have m := of_decide_eq_true m
  exact
    { noHole := a.1, unpoisoned := a.2, unwatched := c.1, unroasted := c.2, running := of_decide_eq_true d, free := of_decide_eq_true e
      served := by simp [State.cpRuns, n.2.1, n.2.2, State.die, n.1]
      only := of_decide_eq_true g, alone := of_decide_eq_true i, fill := ⟨ok_of j, of_decide_eq_true k⟩
      apart := fun w hm => apart_of_safe hb (hw w hm)
      agree := of_decide_eq_true l
      reach := reach_qcb hb (maps_writes h ws hc) m
      reachAgain := fun bs hbs => reach_qcb hb (maps_writes h _ fun w hm => by
        rcases List.mem_append.1 hm with hm | hm
        · exact hc w hm
        · rw [List.mem_singleton.1 hm]; exact own bs hbs) m }

def atB (tb : Nat) (s : State) (f : Word) (bs : List Byte) (type : Nat) (w : Option Bool) : Bool :=
  let q := s.queue 0 255
  runsB tb s f && processable f q.pos && decide (q.fetched.find? (fun e => e.1 = q.pos) = some (q.pos, bs)) &&
    decide (bs.length = 64 ∧ pktType bs = type ∧ q.waits = w)

theorem at_of {tb : Nat} (hb : tb = 0x1000 ∨ tb = 0x40000000) {s : State} (h : Maps tb s) {bs : List Byte} {type : Nat} {w : Option Bool}
    (ha : atB tb s 0 bs type w = true) (ws : List (Nat × List Byte)) (hw : ∀ x ∈ ws, safe tb x) :
    s.AtPacket 0 255 (qc tb + 0x10) ws bs type w := by
  simp only [atB, Bool.and_eq_true, decide_eq_true_eq] at ha
  obtain ⟨⟨⟨a, b⟩, c⟩, d⟩ := ha
  exact ⟨⟨0, runs_of hb h a ws hw, b⟩, c, d.1, d.2.1, d.2.2⟩

theorem low : 0x1000 = 0x1000 ∨ 0x1000 = 0x40000000 := .inl rfl
/-- A state with the table at 0x1000. -/
def mapsB (s : State) : Bool :=
  decide ((s.fn 0).s1root = 0x1001 ∧ s.num 0x1000 8 = 0x2001 ∧ s.num 0x2000 8 = 0x3001 ∧ s.num 0x3000 8 = 0x1B ∧ s.watches = [] ∧
    s.roasts = [])
theorem maps_of {s : State} (h : mapsB s = true) : Maps 0x1000 s := by
  simp only [mapsB, decide_eq_true_eq] at h
  exact h

/-! ### Notify registers and queues -/

abbrev hostQueue : Queue := { queue0 with hostq := true }
/-- `NotifyWrites`: a queue that is no host queue; a host queue at the largest fill position that its
ring holds, at the ends of those past it, and behind RDIDX. -/
theorem witness_notify_write :
    ((sQueue 0x1000 queue0 []).bootState = 2 ∧ ((sQueue 0x1000 queue0 []).fn 0).busy = false ∧ (sQueue 0x1000 queue0 []).hole = false ∧
      ((sQueue 0x1000 queue0 []).queue 0 255).hostq = false) ∧
    (let s := sQueue 0x1000 hostQueue [];
      s.bootState = 2 ∧ (s.fn 0).busy = false ∧ (s.queue 0 255).hostq = true ∧ (∃ f, s.QueueRuns 0 255 0x20010 f []) ∧
        (s.queue 0 255).waits = none ∧ (s.queue 0 255).fetched = [] ∧ (s.queue 0 255).state = 1 ∧
        ∀ v x, (v, x) ∈ [((8 : Word), false), (9, true), (0x7FFFFFF8, true), (0x7FFFFFF9, false)] →
          decide (2 ^ (s.queue 0 255).log2n < (v - (s.queue 0 255).rdidx).toNat ∧ (v - (s.queue 0 255).rdidx).toNat ≤ 2 ^ 31) = x) := by
  refine ⟨⟨rfl, rfl, rfl, rfl⟩, rfl, rfl, rfl, ⟨0, ?_⟩, rfl, rfl, rfl, ?_⟩
  rotate_left
  · intro v x h
    simp only [List.mem_cons, Prod.mk.injEq, List.not_mem_nil, or_false] at h
    rcases h with ⟨rfl, rfl⟩ | ⟨rfl, rfl⟩ | ⟨rfl, rfl⟩ | ⟨rfl, rfl⟩ <;> decide +kernel
  exact runs_of low (maps_of (by decide +kernel)) (by decide +kernel) [] (by simp)

/-- `NotifyBinds`: a register that is not bound, with a control block whose ring is the largest; one that is bound; a queue that runs;
and a die. -/
theorem witness_notify_bind :
    (let s := { State.reset with
        mem := table 0x1000 ((0x20002, 3) :: (0x20008, 0x30) :: words 0x20000 queue0), bootState := 2, fns := [(0, { s1root := 0x1001 })] };
      let q := addr (bits64 (0x20000 : DWord) 63 6 * 64);
      s.bootState = 2 ∧ (s.fn 0).busy = false ∧ s.hole = false ∧ s.poisoned = [] ∧ s.watches = [] ∧ s.roasts = [] ∧ (s.notifyReg 0 255).en = false ∧
        (s.fn 0).queues = [] ∧ s.fnWarps 0 = [] ∧ s.launches = [] ∧ s.cpRuns (queueDie 0 255) = true ∧
        (∃ bs, s.cpRead 0 q 64 = .ok bs ∧ qcbOk bs = true) ∧ s.CpReaches 0 (q + 0x10) 16 .write 0x20010) ∧
    (let s := { State.reset with bootState := 2, fns := [(0, { notify := [(255, { en := true })] })] };
      s.bootState = 2 ∧ (s.fn 0).busy = false ∧ s.hole = false ∧ s.poisoned = [] ∧ s.watches = [] ∧ s.roasts = [] ∧ (s.notifyReg 0 255).en = true) ∧
    (∃ f, (sQueue 0x1000 queue0 []).QueueRuns 0 255 0x20010 f []) ∧ ((sQueue 0x1000 queue0 []).queue 0 255).waits = none := by
  refine ⟨⟨rfl, rfl, rfl, rfl, rfl, rfl, rfl, rfl, rfl, rfl, rfl, ?_, ?_⟩, ⟨rfl, rfl, rfl, rfl, rfl, rfl, rfl⟩, ⟨0, ?_⟩, rfl⟩
  · exact such_of (by decide +kernel)
  · exact reaches_maps low (maps_of (by decide +kernel)) (0x20000 + 0x10) 16 .write (by decide) (by decide) (by decide)
  · exact runs_of low (maps_of (by decide +kernel)) (by decide +kernel) [] (by simp)

/-- `PacketFetch`: the first unit at the last place of the ring, and the last unit of a packet. -/
theorem witness_packet_fetch : ∀ l k, (l, k) = ([], 0) ∨ (l, k) = ([((0xFFFFFFFF : Word), List.replicate 56 (0 : Byte))], 56) →
    let s := sQueue 0x1000 { queue0 with fetched := l } []
    (∃ f, s.QueueRuns 0 255 0x20010 f [] ∧ (s.queue 0 255).nextUnit f = some (0xFFFFFFFF, k)) ∧ (s.queue 0 255).waits = none ∧
      s.CpReaches 0 ((s.queue 0 255).base + BitVec.ofNat 64 ((0xFFFFFFFF : Word).toNat % 2 ^ (s.queue 0 255).log2n * 64 + k)) 8 .read
        (0x303C0 + k) := by
  rintro l k (h | h) <;> cases h
  · exact ⟨⟨0, runs_of low (maps_of (by decide +kernel)) (by decide +kernel) [] (by simp), by decide +kernel⟩, rfl,
      reaches_maps low (maps_of (by decide +kernel)) 0x303C0 8 .read (by decide) (by decide) (by decide)⟩
  · exact ⟨⟨0, runs_of low (maps_of (by decide +kernel)) (by decide +kernel) [] (by simp), by decide +kernel⟩, rfl,
      reaches_maps low (maps_of (by decide +kernel)) 0x303F8 8 .read (by decide) (by decide) (by decide)⟩

/-! ### Packets -/

/-- A packet of a type, with BARRIER and CSIG as `flags`, its record at 0x50000 when it asks for one, and fields from 0x10 on. -/
abbrev packet (type flags : Nat) (fields : List Byte) : List Byte :=
  leBytes 1 type ++ leBytes 3 flags ++ leBytes 4 0xFFFFFFFF ++ leBytes 8 (if flags / 2 % 2 = 1 then 0x50000 else 0) ++ fields ++
    List.replicate (48 - fields.length) 0
/-- The packet at P, with 2^32 - 1 in the 8 bytes at 0x40000. -/
abbrev sPacket (q : Queue) (bs : List Byte) : State :=
  sQueue 0x1000 { q with fetched := [(0xFFFFFFFF, bs)] } [(0x40000, 0xFF), (0x40001, 0xFF), (0x40002, 0xFF), (0x40003, 0xFF)]

theorem safe_record (bs : List Byte) : ∀ w ∈ recordWrite bs 0x50000, safe 0x1000 w := by
  intro w hw
  unfold recordWrite at hw
  split at hw
  · rw [List.mem_singleton.1 hw]; exact .inr (by decide : 0x20020 ≤ 0x50000)
  · cases hw
/-- A record at 0x50000, where it is asked for, is reached. -/
theorem record_of {s : State} {bs : List Byte} (h : mapsB s = true) (hb : pktSig bs = none ∨ pktSig bs = some 0x50000) :
    s.recordReached 0 bs 0x50000 := by
  intro a ha
  rcases hb with hb | hb
  · rw [hb] at ha; cases ha
  · rw [hb] at ha; cases ha
    exact reaches_maps low (maps_of h) 0x50000 64 .write (by decide) (by decide) (by decide)
theorem read_of {s : State} (h : mapsB s = true) (n : Nat) (kind : AccKind) (hn : n ≠ 0 ∧ n ≤ 65536) : s.CpReaches 0 0x40000 n kind 0x40000 :=
  reaches_maps low (maps_of h) 0x40000 n kind (by decide) hn.1 (by simpa using hn.2)

def packetB (s : State) (bs : List Byte) (type : Nat) (w : Option Bool) : Bool :=
  mapsB s && atB 0x1000 s 0 bs type w && decide (pktSig bs = none ∨ pktSig bs = some 0x50000)
/-- The packet stands at P, and its record is reached. -/
theorem packet_of {s : State} {bs : List Byte} {type : Nat} {w : Option Bool} (h : packetB s bs type w = true) :
    s.recordReached 0 bs 0x50000 ∧ s.AtPacket 0 255 0x20010 (recordWrite bs 0x50000) bs type w := by
  simp only [packetB, Bool.and_eq_true, decide_eq_true_eq] at h
  exact ⟨record_of h.1.1 h.2, at_of low (maps_of h.1.1) h.1.2 _ (safe_record bs)⟩
theorem packet_with {s : State} {bs : List Byte} {type : Nat} {w : Option Bool} {P : Prop} (h : packetB s bs type w = true) (p : P) :
    s.recordReached 0 bs 0x50000 ∧ s.AtPacket 0 255 0x20010 (recordWrite bs 0x50000) bs type w ∧ P :=
  ⟨(packet_of h).1, (packet_of h).2, p⟩

abbrev jumpP (f : Nat) : List Byte := packet 8 f (leBytes 4 (2 ^ 31))
abbrev fenceP (f : Nat) : List Byte := packet 9 f []
/-- A compare of the low word at 0x40000, with all its bits, for equality; 1024 packets are skipped. -/
abbrev condP (f v : Nat) : List Byte := packet 7 f (leBytes 8 0x40000 ++ leBytes 8 v ++ leBytes 8 0xFFFFFFFF ++ leBytes 4 0 ++ leBytes 4 1024)
/-- An add to 8 bytes at 0x40000. -/
abbrev signalP (f : Nat) : List Byte := packet 5 f (leBytes 8 0x40000 ++ leBytes 8 (2 ^ 64 - 1) ++ leBytes 8 0 ++ leBytes 8 9)
abbrev loopP (f count back : Nat) : List Byte := packet 6 f (leBytes 4 count ++ leBytes 4 back)

/-- `SimplePackets`: each packet with BARRIER, with a record and without one; the farthest JUMP; COND that skips and that does not; an add
that wraps; LOOP that goes back to RDIDX, with its first, a live and a spent counter; and LOOP whose target lies before
RDIDX. -/
theorem witness_simple_packets : ∀ f, f = 1 ∨ f = 3 →
    (let bs := jumpP f; let s := sPacket queue0 bs;
      s.recordReached 0 bs 0x50000 ∧ s.AtPacket 0 255 0x20010 (recordWrite bs 0x50000) bs 8 none ∧
        pktOk bs (inField 0x10 4) = true ∧ 1 ≤ pkt bs 0x10 4 ∧ pkt bs 0x10 4 ≤ 2 ^ 31) ∧
    (let bs := fenceP f; let s := sPacket queue0 bs;
      s.recordReached 0 bs 0x50000 ∧ s.AtPacket 0 255 0x20010 (recordWrite bs 0x50000) bs 9 none ∧ pktOk bs (fun _ => false) = true) ∧
    (∀ v, v = 0xFFFFFFFF ∨ v = 0 → let bs := condP f v; let s := sPacket queue0 bs;
      s.recordReached 0 bs 0x50000 ∧ s.AtPacket 0 255 0x20010 (recordWrite bs 0x50000) bs 7 none ∧ condOk bs = true ∧
        s.CpReaches 0 (addr (pkt bs 0x10 8)) (pktBytes bs) .read 0x40000 ∧
        pktCompare bs (s.num 0x40000 (pktBytes bs)) = decide (v = 0xFFFFFFFF)) ∧
    (let bs := signalP f; let s := sPacket queue0 bs;
      let w := (0x40000, leBytes (pktBytes bs) (signalValue bs (s.num 0x40000 (pktBytes bs))));
      s.recordReached 0 bs 0x50000 ∧ signalOk bs = true ∧ s.CpReaches 0 (addr (pkt bs 0x10 8)) (pktBytes bs) .read 0x40000 ∧
        s.CpReaches 0 (addr (pkt bs 0x10 8)) (pktBytes bs) .write 0x40000 ∧
        s.AtPacket 0 255 0x20010 (w :: recordWrite bs 0x50000) bs 5 none) ∧
    (∀ c l, (c = 1 ∨ c = 0xFFFFFFFF) → (l = [] ∨ l = [((0xFFFFFFFF : Word), (0 : Word), (7 : Word))] ∨
        l = [((0xFFFFFFFF : Word), (5 : Word), (7 : Word))]) →
      let bs := loopP f c 7; let s := sPacket { queue0 with loops := l } bs;
      s.recordReached 0 bs 0x50000 ∧ s.AtPacket 0 255 0x20010 (recordWrite bs 0x50000) bs 6 none ∧ pktOk bs (inField 0x10 8) = true ∧
        1 ≤ pkt bs 0x10 4 ∧ (7 : Word) = BitVec.ofNat 32 (pkt bs 0x14 4) ∧ 1 ≤ (7 : Word).toNat ∧ (7 : Word).toNat ≤ 1024 ∧
        (7 : Word).toNat ≤ ((s.queue 0 255).pos - (s.queue 0 255).rdidx).toNat ∧ (s.queue 0 255).loops = l) ∧
    (let bs := loopP 1 f 8; let s := sPacket queue0 bs;
      s.AtPacket 0 255 0x20010 [] bs 6 none ∧ pktOk bs (inField 0x10 8) = true ∧ 1 ≤ pkt bs 0x10 4 ∧ pktSig bs = none ∧
        (8 : Word) = BitVec.ofNat 32 (pkt bs 0x14 4) ∧ 1 ≤ (8 : Word).toNat ∧ (8 : Word).toNat ≤ 1024 ∧
        ((s.queue 0 255).pos - (s.queue 0 255).rdidx).toNat < (8 : Word).toNat) := by
  rintro f (rfl | rfl)
  all_goals
    refine ⟨?_, ?_, ?_, ?_, ?_, ?_⟩
    · exact packet_with (by decide +kernel) ⟨by decide +kernel, by decide +kernel, by decide +kernel⟩
    · exact packet_with (by decide +kernel) (by decide +kernel)
    · rintro v (rfl | rfl)
      all_goals exact packet_with (by decide +kernel) ⟨by decide +kernel, read_of (by decide +kernel) _ .read (by decide +kernel),
        by decide +kernel⟩
    · refine ⟨(packet_of (type := 5) (w := none) (by decide +kernel)).1, by decide +kernel, read_of (by decide +kernel) _ .read (by decide +kernel),
        read_of (by decide +kernel) _ .write (by decide +kernel), at_of low (maps_of (by decide +kernel)) (by decide +kernel) _ ?_⟩
      intro w hw
      rcases List.mem_cons.1 hw with rfl | hw
      · exact .inr (by decide : 0x20020 ≤ 0x40000)
      · exact safe_record _ w hw
    · rintro c l (rfl | rfl) (rfl | rfl | rfl)
      all_goals exact packet_with (by decide +kernel) ⟨by decide +kernel, by decide +kernel, by decide +kernel, by decide, by decide,
        by decide +kernel, rfl⟩
    · exact ⟨at_of low (maps_of (by decide +kernel)) (by decide +kernel) [] (by simp), by decide +kernel, by decide +kernel,
        by decide +kernel, by decide +kernel, by decide, by decide, by decide +kernel⟩

/-- A WAIT on the low word at 0x40000, local or external. -/
abbrev waitP (f v ext : Nat) : List Byte := packet 4 f (leBytes 8 0x40000 ++ leBytes 8 v ++ leBytes 8 0xFFFFFFFF ++ leBytes 4 (16 * ext))
/-- `WaitPackets`: one that begins to wait; one whose compare holds, with a record and without one; one whose compare does not. -/
theorem witness_wait_packets : ∀ f e, (f = 1 ∨ f = 3) → (e = 0 ∨ e = 1) →
    (let bs := waitP f 5 e; let s := sPacket queue0 bs; waitOk bs = true ∧ s.AtPacket 0 255 0x20010 [] bs 4 none) ∧
    (∀ v, v = 5 ∨ v = 0xFFFFFFFF → let bs := waitP f v e;
      let s := sPacket { queue0 with waits := some (decide (e = 1)), state := 2 + e } bs;
      waitOk bs = true ∧ s.recordReached 0 bs 0x50000 ∧ s.AtPacket 0 255 0x20010 (recordWrite bs 0x50000) bs 4 (some (decide (e = 1))) ∧
        s.CpReaches 0 (addr (pkt bs 0x10 8)) (pktBytes bs) .read 0x40000 ∧
        pktCompare bs (s.num 0x40000 (pktBytes bs)) = decide (v = 0xFFFFFFFF) ∧
        (s.queue 0 255).state = (if decide (e = 1) = true then 3 else 2)) := by
  rintro f e (rfl | rfl) (rfl | rfl)
  all_goals
    refine ⟨⟨by decide +kernel, at_of low (maps_of (by decide +kernel)) (by decide +kernel) [] (by simp)⟩, ?_⟩
    rintro v (rfl | rfl)
    all_goals exact ⟨by decide +kernel, packet_with (by decide +kernel) ⟨read_of (by decide +kernel) _ .read (by decide +kernel),
      by decide +kernel, by decide +kernel⟩⟩

/-- `UndefinedPackets`: the types at the ends of the undefined ranges, with and without a record. -/
theorem witness_undefined_packets : ∀ type f, (type = 0 ∨ type = 0xB ∨ type = 0xFF) → (f = 0 ∨ f = 2) →
    let bs := packet type f []
    let s := sPacket queue0 bs
    (type = 0 ∨ 0xB ≤ type) ∧ s.AtPacket 0 255 0x20010 [] bs type none ∧
      (f = 0 → pktSig bs = none) ∧
      (f = 2 → pktSig bs = some 0x50000 ∧ (0x50000 : DWord).toNat % 64 = 0 ∧ (0x50000 + 64 ≤ 0x20010 ∨ 0x20010 + 16 ≤ 0x50000) ∧
        ∀ w : List Byte, w.length = 16 → (s.writes [(0x20010, w)]).CpReaches 0 0x50000 64 .write 0x50000) := by
  have own : ∀ w : List Byte, w.length = 16 → ∀ x ∈ [(0x20010, w)], clear 0x1000 x := fun w hw x hx => by
    rw [List.mem_singleton.1 hx]; exact .inr (by decide : 0x1000 + 0x3000 ≤ 0x20010)
  rintro type f (rfl | rfl | rfl) (rfl | rfl)
  all_goals exact ⟨by decide, at_of low (maps_of (by decide +kernel)) (by decide +kernel) [] (by simp), by decide +kernel,
    fun h => ⟨by revert h; decide +kernel, by decide, by decide, fun w hw =>
      reaches_maps low (maps_writes (maps_of (by decide +kernel)) _ (own w hw)) 0x50000 64 .write (by decide) (by decide) (by decide)⟩⟩

/-- A copy of a packet, whose bytes have landed. -/
abbrev copyDone : Copy :=
  { id := 3, core := 0, blk := 0, thr := 0, pc := 0, recAddr := 0, fn := 0, packet := some (255, 0xFFFFFFFE), src := 0x60000, dst := 0x70000,
    rows := 1, rowBytes := 64, bytes := 64, sstride := 0, dstride := 0, aoff := 0, srcSp := false, dstSp := false, rxNote := false,
    rxSlot := 0, todo := [] }
/-- `CopyPackets`: the longest copy, with and without a record, and none at all; one that has landed, with a record and without. -/
theorem witness_copy_packets :
    (∀ f n, (f = 1 ∨ f = 3) → (n = 0 ∨ n = 2 ^ 40) → let bs := packet 10 f (leBytes 8 0x60000 ++ leBytes 8 0x70000 ++ leBytes 8 n);
      let s := sPacket queue0 bs;
      s.AtPacket 0 255 0x20010 [] bs 10 none ∧ pktOk bs (inField 0x10 24) = true ∧ pkt bs 0x20 8 ≤ 2 ^ 40) ∧
    (∀ sig, sig = none ∨ sig = some 0x50000 →
      let s := { sQueue 0x1000 { queue0 with inflight := [(0xFFFFFFFE, .copy 3 sig 9)] } [] with copies := [copyDone] };
      s.hole = false ∧ s.watches = [] ∧ s.roasts = [] ∧ s.copies = [copyDone] ∧ copyDone.fn = 0 ∧
        copyDone.packet = some (255, 0xFFFFFFFE) ∧ copyDone.landed = true ∧ copyDone.fault = none ∧
        (s.queue 0 255).inflight = [(0xFFFFFFFE, .copy copyDone.id sig 9)] ∧ s.CpReaches 0 0x50000 64 .write 0x50000) := by
  refine ⟨?_, ?_⟩
  · rintro f n (rfl | rfl) (rfl | rfl)
    all_goals exact ⟨at_of low (maps_of (by decide +kernel)) (by decide +kernel) [] (by simp), by decide +kernel, by decide +kernel⟩
  · rintro sig (rfl | rfl)
    all_goals exact ⟨rfl, rfl, rfl, rfl, rfl, rfl, by decide, rfl, rfl,
      reaches_maps low (maps_of (by decide +kernel)) 0x50000 64 .write (by decide) (by decide) (by decide)⟩

/-! ### Launches -/

theorem length_le (n v : Nat) : (leBytes n v).length = n := by
  induction n generalizing v with
  | zero => rfl
  | succ n ih => simp [leBytes, ih]

/-- The snapshot pool leaves the table and the control block alone in one of the two places. -/
theorem table_place : ∃ tb, (tb = 0x1000 ∨ tb = 0x40000000) ∧ ∀ bs : List Byte, bs.length = 512 → safe tb (snapBase, bs) := by
  by_cases h : snapBase < 0x20020
  · exact ⟨0x40000000, .inr rfl, fun bs hb => .inl (by show snapBase + bs.length ≤ _; omega)⟩
  · exact ⟨0x1000, .inl rfl, fun bs _ => .inr (by show _ ≤ snapBase; omega)⟩

/-- The bytes that are not zero. -/
abbrev nonzero (l : List Host.Cell) : List Host.Cell := l.filter fun e => e.2 ≠ 0
/-- At 0x60000 a descriptor of `gx` blocks in one role of one warp, whose bit 0 of `fl` is traced; a grid of 3 blocks at 0x62000; and at
0x70000 a trace buffer: the header of a completed run of two blocks, with the hash of no bytes, the record of a block that is not
selected, and of one that is. -/
abbrev launchCells (fl gx hdr : Byte) : List Host.Cell :=
  nonzero [(0x60000, fl), (0x60008, gx)] ++ [(0x6000C, 1), (0x60010, 1), (0x60014, 0x11), (0x60015, 1), (0x60018, 0x80), (0x60062, 1),
    (0x60068, 1), (0x6006A, 0x10), (0x62000, 3), (0x62004, 1), (0x62008, 1)] ++ nonzero [(0x70000, hdr)] ++
  [(0x70010, 2), (0x70014, 1), (0x70018, 1), (0x7001C, 0x11), (0x7001D, 1), (0x70020, 0xAF), (0x70021, 0x13), (0x70022, 0x49),
    (0x70023, 0xB9), (0x70024, 0xF5), (0x70025, 0xF9), (0x70026, 0xA1), (0x70027, 0xA6), (0x70100, 1)]
abbrev sLaunchQ (tb : Nat) (fl gx : Byte) (bs : List Byte) (hdr : Byte) : State :=
  sQueue tb { queue0 with fetched := [(0xFFFFFFFF, bs)] } (launchCells fl gx hdr)

def mapsAtB (tb : Nat) (s : State) : Bool :=
  decide ((s.fn 0).s1root = BitVec.ofNat 64 (tb + 1) ∧ s.num tb 8 = tb + 0x1001 ∧ s.num (tb + 0x1000) 8 = tb + 0x2001 ∧
    s.num (tb + 0x2000) 8 = 0x1B ∧ s.watches = [] ∧ s.roasts = [])
theorem maps_at {tb : Nat} {s : State} (h : mapsAtB tb s = true) : Maps tb s := by
  simp only [mapsAtB, decide_eq_true_eq] at h
  exact h

/-- The launch packet at P, its snapshot and its check. -/
def launchB (tb : Nat) (s : State) (bs : List Byte) (type : Nat) (a : Ask) (p : Checked → Bool) : Bool :=
  mapsAtB tb s && atB tb s 0 bs type none && suchB (s.check a) fun c => decide (c.snap.length = 512) && decide (1 ≤ c.d.csize) && p c
theorem launch_at {tb : Nat} (hb : tb = 0x1000 ∨ tb = 0x40000000) (ht : ∀ x : List Byte, x.length = 512 → safe tb (snapBase, x))
    {s : State} {bs : List Byte} {type : Nat} {a : Ask} {p : Checked → Bool} (h : launchB tb s bs type a p = true) :
    ∃ c, s.check a = .ok c ∧ c.snap.length = 512 ∧ 1 ≤ c.d.csize ∧ p c = true ∧
      ∀ ws, (∀ w ∈ ws, safe tb w) → s.AtPacket 0 255 (qc tb + 0x10) (ws ++ [(snapBase, c.snap)]) bs type none := by
  simp only [launchB, Bool.and_eq_true] at h
  obtain ⟨⟨hm, ha⟩, hc⟩ := h
  obtain ⟨c, hc, hp⟩ := such_of hc
  simp only [Bool.and_eq_true, decide_eq_true_eq] at hp
  refine ⟨c, hc, hp.1.1, hp.1.2, hp.2, fun ws hw => at_of hb (maps_at hm) ha _ fun w hw' => ?_⟩
  rcases List.mem_append.1 hw' with h | h
  · exact hw w h
  · rw [List.mem_singleton.1 h]; exact ht _ hp.1.1

abbrev launch1 : List Byte := packet 1 3 (leBytes 8 0x60000)
abbrev launch2 : List Byte := packet 2 3 (leBytes 8 0x60000 ++ leBytes 8 0x62000)
abbrev launch3 : List Byte := packet 3 3 (leBytes 8 0x60000 ++ leBytes 8 0x70000)
abbrev ask2 : Ask := { fn := 0, desc := addr (pkt launch2 0x10 8), gridAt := some (addr (pkt launch2 0x18 8)) }
abbrev ask3 : Ask := { fn := 0, desc := addr (pkt launch3 0x10 8), traceAt := some (addr (pkt launch3 0x18 8)) }

/-- `LaunchPackets`, LAUNCH and LAUNCH_IND, whose grid stands in memory; and a descriptor of no blocks. -/
theorem witness_launch_packets : ∃ tb,
    (let s := sLaunchQ tb 0 1 launch1 0;
      ∃ c, c.snap.length = 512 ∧ 1 ≤ c.d.csize ∧ s.AtPacket 0 255 (qc tb + 0x10) [(snapBase, c.snap)] launch1 1 none ∧
        pktOk launch1 (inField 0x10 8) = true ∧ pkt launch1 0x10 8 % 256 = 0 ∧
        s.check { fn := 0, desc := addr (pkt launch1 0x10 8) } = .ok c ∧ c.d.traced = false) ∧
    (let s := sLaunchQ tb 0 1 launch2 0;
      ∃ c, c.snap.length = 512 ∧ 1 ≤ c.d.csize ∧ s.AtPacket 0 255 (qc tb + 0x10) [(snapBase, c.snap)] launch2 2 none ∧
        pktOk launch2 (inField 0x10 16) = true ∧ pkt launch2 0x10 8 % 256 = 0 ∧ pkt launch2 0x18 8 % 4 = 0 ∧
        s.check { fn := 0, desc := addr (pkt launch2 0x10 8), gridAt := some (addr (pkt launch2 0x18 8)) } = .ok c ∧
        c.d.traced = false ∧ c.d.grid = (3, 1, 1)) ∧
    (let bs := packet 1 1 (leBytes 8 0x60000); let s := sLaunchQ tb 0 0 bs 0;
      s.AtPacket 0 255 (qc tb + 0x10) [] bs 1 none ∧ pktOk bs (inField 0x10 8) = true ∧ pkt bs 0x10 8 % 256 = 0 ∧ pktSig bs = none ∧
        s.check { fn := 0, desc := addr (pkt bs 0x10 8) } = .error .descriptor) := by
  obtain ⟨tb, hb, ht⟩ := table_place
  refine ⟨tb, ?_, ?_, ?_⟩
  · have h : launchB tb (sLaunchQ tb 0 1 launch1 0) launch1 1 { fn := 0, desc := addr (pkt launch1 0x10 8) } (fun c => !c.d.traced) = true := by
      rcases hb with rfl | rfl <;> decide +kernel
    obtain ⟨c, hc, h1, h2, h3, h4⟩ := launch_at hb ht h
    exact ⟨c, h1, h2, h4 [] (by simp), by decide +kernel, by decide +kernel, hc, by simpa using h3⟩
  · have h : launchB tb (sLaunchQ tb 0 1 launch2 0) launch2 2 ask2 (fun c => !c.d.traced && decide (c.d.grid = (3, 1, 1))) = true := by
      rcases hb with rfl | rfl <;> decide +kernel
    obtain ⟨c, hc, h1, h2, h3, h4⟩ := launch_at hb ht h
    simp only [Bool.and_eq_true, Bool.not_eq_true', decide_eq_true_eq] at h3
    exact ⟨c, h1, h2, h4 [] (by simp), by decide +kernel, by decide +kernel, by decide +kernel, hc, h3.1, h3.2⟩
  · rcases hb with rfl | rfl
    · exact ⟨at_of (.inl rfl) (maps_at (by decide +kernel)) (by decide +kernel) [] (by simp), by decide +kernel, by decide +kernel,
        by decide +kernel, error_of (by decide +kernel)⟩
    · exact ⟨at_of (.inr rfl) (maps_at (by decide +kernel)) (by decide +kernel) [] (by simp), by decide +kernel, by decide +kernel,
        by decide +kernel, error_of (by decide +kernel)⟩

/-- `LaunchPackets`, RELAUNCH: one that runs every cluster, and one that runs the second of two. -/
theorem witness_relaunch_packet : ∃ tb, ∀ hdr, hdr = 0 ∨ hdr = 1 →
    let bs := launch3
    let buf := addr (pkt bs 0x18 8)
    let s := sLaunchQ tb 1 2 bs hdr
    pktOk bs (inField 0x10 16) = true ∧ pkt bs 0x10 8 % 256 = 0 ∧ pkt bs 0x18 8 % 256 = 0 ∧
      s.CpReaches 0 buf 256 .read 0x70000 ∧ s.CpReaches 0 buf 256 .write 0x70000 ∧ s.traceBusy 0 buf = false ∧
      ∃ c, c.snap.length = 512 ∧ 1 ≤ c.d.csize ∧ s.check { fn := 0, desc := addr (pkt bs 0x10 8), traceAt := some buf } = .ok c ∧
        s.fullRun 0 c (s.readPA 0x70000 256) = decide (hdr = 0) ∧
        (∃ recs, s.readRecords 0 buf (c.d.gx * c.d.gy * c.d.gz) = .ok recs ∧
          (List.range c.d.clusters).map (fun i => s.selects (recs.getD i [])) = [false, true]) ∧
        (let run : TraceRun := { buf := buf, winMask := 0, gens := s.gens, phash := c.phash };
          s.AtPacket 0 255 (qc tb + 0x10) [(0x70000, headerBytes ((Desc.of c.snap).withGrid c.d.grid) (s.fn 0).lidNext run),
            (snapBase, c.snap)] bs 3 none) := by
  obtain ⟨tb, hb, ht⟩ := table_place
  refine ⟨tb, fun hdr hh => ?_⟩
  have h : launchB tb (sLaunchQ tb 1 2 launch3 hdr) launch3 3 ask3 (fun c =>
        let s := sLaunchQ tb 1 2 launch3 hdr
        decide (s.fullRun 0 c (s.readPA 0x70000 256) = decide (hdr = 0)) &&
          suchB (s.readRecords 0 (addr (pkt launch3 0x18 8)) (c.d.gx * c.d.gy * c.d.gz)) (fun recs =>
            decide ((List.range c.d.clusters).map (fun i => s.selects (recs.getD i [])) = [false, true]))) = true := by
    rcases hb with rfl | rfl <;> rcases hh with rfl | rfl <;> decide +kernel
  have hm : mapsAtB tb (sLaunchQ tb 1 2 launch3 hdr) = true := by
    rcases hb with rfl | rfl <;> rcases hh with rfl | rfl <;> decide +kernel
  obtain ⟨c, hc, h1, h2, h3, h4⟩ := launch_at hb ht h
  simp only [Bool.and_eq_true, decide_eq_true_eq] at h3
  obtain ⟨recs, hr, hp⟩ := such_of h3.2
  refine ⟨by decide +kernel, by decide +kernel, by decide +kernel,
    reaches_maps hb (maps_at hm) 0x70000 256 .read (by decide) (by decide) (by decide),
    reaches_maps hb (maps_at hm) 0x70000 256 .write (by decide) (by decide) (by decide), rfl,
    c, h1, h2, hc, h3.1, ⟨recs, hr, of_decide_eq_true hp⟩, ?_⟩
  refine h4 [_] fun w hw => ?_
  rw [List.mem_singleton.1 hw]
  have hl : ∀ d lid (r : TraceRun), r.gens.length = 32 → (headerBytes d lid r).length = 256 := by
    intro d lid r hg
    have h4 : (r.gens.flatMap fun g => leBytes 4 g.toNat).length = 4 * r.gens.length := by
      induction r.gens with
      | nil => rfl
      | cons g l ih => simp only [List.flatMap_cons, List.length_append, ih, List.length_cons]; have := length_le 4 g.toNat; omega
    simp only [headerBytes, List.length_append, List.length_replicate, h4, hg, length_le]
  rcases hb with rfl | rfl
  · exact .inr (by show 0x20020 ≤ 0x70000; decide)
  · exact .inl (by show 0x70000 + (headerBytes _ _ _).length ≤ 0x30000000; rw [hl _ _ _ (by simp [State.gens])]; decide)

/-! ### Carafes, tickets, and the end of a launch -/

/-- The head of a carafe of die 3, of a launch of function 0 from a kernel. -/
abbrev carafeQ (kind : Nat) (grid comp : DWord) : Carafe := { kind := kind, fn := 0, desc := 0x60000, grid := grid, completion := comp }
abbrev sCarafe (e : Carafe) (fl gx hdr : Byte) : State :=
  { State.reset with
    mem := table 0x1000 (launchCells fl gx hdr), bootState := 2, fns := [(0, { s1root := 0x1001, regions := 0xFFFFFFFF })], dies := [(3, { carafe := [e, e] })] }
/-- `CarafeEntries`: a LAUNCH with its descriptor's grid and with one in memory; a RELAUNCH of every cluster and of one; and a descriptor
of no blocks, with a record and without one. -/
theorem witness_carafe_entries :
    (∀ e fl gx hdr, (fl, gx, hdr, e) ∈ [(0, 1, 0, carafeQ 0 0 0), (0, 1, 0, carafeQ 0 0x62000 0x50000), (1, 2, 0, carafeQ 1 0x70000 0),
        (1, 2, 1, carafeQ 1 0x70000 0x50000), (0, 0, 0, carafeQ 0 0 0), (0, 0, 0, carafeQ 0 0 0x50000)] →
      let s := sCarafe e fl gx hdr
      s.hole = false ∧ s.watches = [] ∧ s.roasts = [] ∧ (s.die 3).carafe = e :: [e] ∧ e.fault = none ∧ e.held = none ∧
        s.cpRuns 3 = true ∧ s.launches = []) ∧
    (∀ e, e = carafeQ 0 0 0 ∨ e = carafeQ 0 0x62000 0x50000 → let s := sCarafe e 0 1 0;
      ∃ c, s.check e.ask = .ok c ∧ c.d.traced = false ∧ e.kind = 0 ∧ c.snap.length = 512) ∧
    (∀ hdr, hdr = 0 ∨ hdr = 1 → let e := carafeQ 1 0x70000 0; let s := sCarafe e 1 2 hdr;
      s.CpReaches 0 e.grid 256 .read 0x70000 ∧ s.CpReaches 0 e.grid 256 .write 0x70000 ∧ s.traceBusy e.fn e.grid = false ∧ e.kind = 1 ∧
        ∃ c, s.check e.ask = .ok c ∧ c.snap.length = 512 ∧ 1 ≤ c.d.csize ∧ s.fullRun 0 c (s.readPA 0x70000 256) = decide (hdr = 0) ∧
          ∃ recs, s.readRecords 0 e.grid (c.d.gx * c.d.gy * c.d.gz) = .ok recs) ∧
    (∀ comp, comp = 0 ∨ comp = 0x50000 → let e := carafeQ 0 0 comp; let s := sCarafe e 0 0 0;
      s.check e.ask = .error .descriptor ∧ s.CpReaches 0 0x50000 64 .write 0x50000) := by
  refine ⟨?_, ?_, ?_, ?_⟩
  · intro e fl gx hdr h
    have h3 : e.fault = none ∧ e.held = none := by
      simp only [List.mem_cons, Prod.mk.injEq, List.not_mem_nil, or_false] at h
      rcases h with h | h | h | h | h | h <;> rw [h.2.2.2] <;> exact ⟨rfl, rfl⟩
    exact ⟨rfl, rfl, rfl, rfl, h3.1, h3.2, rfl, rfl⟩
  · rintro e (rfl | rfl)
    · obtain ⟨c, hc, hp⟩ := such_of (e := (sCarafe (carafeQ 0 0 0) 0 1 0).check (carafeQ 0 0 0).ask)
        (p := fun c => !c.d.traced && decide (c.snap.length = 512)) (by decide +kernel)
      simp only [Bool.and_eq_true, Bool.not_eq_true', decide_eq_true_eq] at hp
      exact ⟨c, hc, hp.1, rfl, hp.2⟩
    · obtain ⟨c, hc, hp⟩ := such_of (e := (sCarafe (carafeQ 0 0x62000 0x50000) 0 1 0).check (carafeQ 0 0x62000 0x50000).ask)
        (p := fun c => !c.d.traced && decide (c.snap.length = 512)) (by decide +kernel)
      simp only [Bool.and_eq_true, Bool.not_eq_true', decide_eq_true_eq] at hp
      exact ⟨c, hc, hp.1, rfl, hp.2⟩
  · rintro hdr hh
    have h : suchB ((sCarafe (carafeQ 1 0x70000 0) 1 2 hdr).check (carafeQ 1 0x70000 0).ask) (fun c =>
        let s := sCarafe (carafeQ 1 0x70000 0) 1 2 hdr
        decide (c.snap.length = 512 ∧ 1 ≤ c.d.csize ∧ s.fullRun 0 c (s.readPA 0x70000 256) = decide (hdr = 0)) &&
          suchB (s.readRecords 0 0x70000 (c.d.gx * c.d.gy * c.d.gz)) fun _ => true) = true := by
      rcases hh with rfl | rfl <;> decide +kernel
    obtain ⟨c, hc, hp⟩ := such_of h
    simp only [Bool.and_eq_true, decide_eq_true_eq] at hp
    obtain ⟨recs, hr, _⟩ := such_of hp.2
    have hm : mapsB (sCarafe (carafeQ 1 0x70000 0) 1 2 hdr) = true := by rcases hh with rfl | rfl <;> decide +kernel
    exact ⟨reaches_maps low (maps_of hm) 0x70000 256 .read (by decide) (by decide) (by decide),
      reaches_maps low (maps_of hm) 0x70000 256 .write (by decide) (by decide) (by decide), rfl,
      rfl, c, hc, hp.1.1, hp.1.2.1, hp.1.2.2, recs, hr⟩
  · rintro comp (rfl | rfl)
    all_goals exact ⟨error_of (by decide +kernel),
      reaches_maps low (maps_of (by decide +kernel)) 0x50000 64 .write (by decide) (by decide) (by decide)⟩

/-- A launch of one cluster whose share of the last die has no ticket. -/
abbrev shareQ : Share := { die := 3, first := 0, last := 1 }
abbrev launchQ : Launch := { fn := 0, lid := 5, snap := 0x60000, grid := (1, 1, 1), clusters := [0], shares := [shareQ] }
/-- `TicketWrites`: a board whose first slot is free, and one whose first slot is taken. -/
theorem witness_ticket_write :
    (let s := { State.reset with bootState := 2, launches := [launchQ] };
      let a := boardAt shareQ.die + 64 + 64 * (s.num (boardAt shareQ.die) 4 % 255);
      s.hole = false ∧ s.watches = [] ∧ s.roasts = [] ∧ s.launches = [launchQ] ∧ launchQ.ending = .running ∧
        launchQ.shares = [shareQ] ∧ shareQ.slot = none ∧ shareQ.die < 4 ∧ s.cpStopped = false ∧
        (∀ u ∈ s.unitsOut, ¬ (u.1 = shareQ.die ∧ u.2.1 = 6)) ∧ s.num (a + 8) 4 = 0) ∧
    (let s := { State.reset with bootState := 2, launches := [launchQ], mem := [(boardAt 3 + 72, 1)] };
      let a := boardAt shareQ.die + 64 + 64 * (s.num (boardAt shareQ.die) 4 % 255);
      s.hole = false ∧ s.watches = [] ∧ s.roasts = [] ∧ s.launches = [launchQ] ∧ s.cpStopped = false ∧ s.num (a + 8) 4 ≠ 0) := by
  refine ⟨⟨rfl, rfl, rfl, rfl, rfl, rfl, rfl, by decide, rfl, (fun u h => by cases h), rfl⟩, rfl, rfl, rfl, rfl, rfl, ?_⟩
  have h : ({ State.reset with bootState := 2, launches := [launchQ], mem := [(boardAt 3 + 72, 1)] } : State).num (boardAt 3) 4 = 0 := by
    simp [show memDefault = 0 from rfl, State.num, State.readPA, Map.getList, Map.get, leNat]
  simp only [h]
  simp [State.num, State.readPA, Map.getList, Map.get, leNat]

/-- `LaunchCompletion`: a launch that ran, and one that failed, with a record and without one. -/
theorem witness_launch_complete : ∀ end_ sig, (end_ = .running ∨ end_ = .failed { code := 5 }) → (sig = none ∨ sig = some 0x50000) →
    let l := { launchQ with ending := end_, sigAddr := sig, ended := [0], shares := [] }
    let s := { sCarafe (carafeQ 0 0 0) 0 1 0 with launches := [l], dies := [] }
    s.hole = false ∧ s.watches = [] ∧ s.roasts = [] ∧ s.launches = [l] ∧ s.launchOver l = true ∧ l.fault = none ∧ l.trace = none ∧
      l.queue = none ∧ s.cpStopped = false ∧ l.sigAddr = sig ∧ s.CpReaches 0 0x50000 64 .write 0x50000 := by
  rintro end_ sig (rfl | rfl) (rfl | rfl)
  all_goals exact ⟨rfl, rfl, rfl, rfl, by decide +kernel, rfl, rfl, rfl, rfl, rfl,
    reaches_maps low (maps_of (by decide +kernel)) 0x50000 64 .write (by decide) (by decide) (by decide)⟩

end Sys2Proof.Tests
end

