-- ==== Sys2Proof/Tests/WitnessSystem.lean ====
section
/-! SUPPORT. States and operands that meet the hypotheses of the statements: roles, waits, launches, regions of exceptions, and the
system instructions. -/
namespace Sys2Proof.Tests
open Sys2Proof Sys2Proof.Machine
-- One theorem after another: the checks of several at once need too much memory.
set_option Elab.async false

/-! ### Roles -/

/-- Three roles: the warp's own, one that needs less of every kind, and one that needs all of a partition's registers. -/
abbrev roles0 : List Role :=
  [{ entry := 0x10000, warps := 1, regq := 32, tiles := 16, acc := 2 }, { entry := 0x10100, warps := 1, regq := 1 },
    { entry := 0x10200, warps := 1, regq := 63 }, { entry := 0x10300, warps := 1, regq := 31, tiles := 16, acc := 2 }]
abbrev sRole : State := small { blk0 with roles := roles0 } [0, 1]
/-- Another warp of the core holds what role 2 would need. -/
abbrev sFull : State :=
  { sRole with blocks := sRole.blocks ++ [(8, some { blk0 with warps := [(0, { regs := 256, tiles := 0, acc := 0 })], roles := [{}] })] }
/-- `RoleChangeResults`: roles 1 and 3, and role 2 with no room. -/
theorem witness_role_change :
    (∀ s, s = sRole ∨ s = sFull → s.hole = false ∧ s.hasBlk s.sel.blk ∧ [0, 1] = s.bk.liveOf s.wp ∧
      (∀ x ∈ [0, 1], s.bk.arrived s.sel.pc x = true ∧ (s.bk.thr x).guard hd = true) ∧ s.bk.signedWarp [0, 1] = false) ∧
    (∀ r ∈ [1, 3], (sRole.bk.roles[r]?).isSome ∧ sRole.bk.roleGrowth sRole.wp r = { slots := 0, regs := 0, tiles := 0, accs := 0 }) ∧
    (sFull.bk.roles[2]?).isSome ∧ sFull.roleFree sFull.sel.blk sFull.wp 2 = false := by
  refine ⟨?_, by decide +kernel, by decide +kernel, by decide +kernel⟩
  rintro s (rfl | rfl)
  · exact ⟨rfl, rfl, by decide +kernel, by decide +kernel, by decide +kernel⟩
  · exact ⟨rfl, rfl, by decide +kernel, by decide +kernel, by decide +kernel⟩

/-- A warp that waits for role 2 of its block on partition 3 of core 255. -/
abbrev sWaitRole : State :=
  { State.reset with blocks := [(7, some { blk0 with core := 255, parts := [3], roles := roles0
                                                     threads := [(0, { thr0 with wait := some (.rolesw 1 4) })] })] }
/-- `RoleGrants`: the last partition of the module. -/
theorem witness_role_grant :
    sWaitRole.hole = false ∧ sWaitRole.roleWaiters (1023 / 4) (1023 % 4) = [(7, 0, 1)] ∧ sWaitRole.roleFree 7 0 1 = true ∧
      ((sWaitRole.blk 7).roles[1]?).isSome :=
  ⟨rfl, by decide +kernel, by decide +kernel, by decide +kernel⟩

/-! ### Waits -/

/-- `WaitResults`: a comparison that holds and one that does not, of 4 and of 8 bytes at the end of the page. -/
theorem witness_waits :
    (∃ f, s1.Solo (.wait hd .eq .i32 0 (.lit 0x1FFFC) (.v 0)) f 0 ∧ s1.Reaches 0 (s1.bk.pair 0 (.lit 0x1FFFC)) 4 4 .read 0x4FFFC ∧
      CmpOp.eq.holds (Ty.i32.read (leNat (s1.view s1.sel.blk 0x4FFFC 4))) (Ty.i32.read (s1.bk.num 0 1 (.v 0))) = true) ∧
    (∃ f, s1.Solo (.wait hd .lt .n64 6 (.lit 0x1FFF8) (.v 0)) f 0 ∧ s1.Reaches 0 (s1.bk.pair 0 (.lit 0x1FFF8)) 8 8 .read 0x4FFF8 ∧
      CmpOp.lt.holds (Ty.n64.read (leNat (s1.view s1.sel.blk 0x4FFF8 8))) (Ty.n64.read (s1.bk.num 0 2 (.v 0))) = false) ∧
    (∃ f, s1.Solo (.waitExt hd .ge .i64 7 (.lit 0x10000) (.v 0)) f 0 ∧ s1.Reaches 0 (s1.bk.pair 0 (.lit 0x10000)) 8 8 .read 0x40000 ∧
      CmpOp.ge.holds (Ty.i64.read (leNat (s1.view s1.sel.blk 0x40000 8))) (Ty.i64.read (s1.bk.num 0 2 (.v 0))) = true) ∧
    (∃ f, s1.Solo (.waitExt hd .ne .n32 0 (.lit 0x10000) (.v 0)) f 0 ∧ s1.Reaches 0 (s1.bk.pair 0 (.lit 0x10000)) 4 4 .read 0x40000 ∧
      CmpOp.ne.holds (Ty.n32.read (leNat (s1.view s1.sel.blk 0x40000 4))) (Ty.n32.read (s1.bk.num 0 1 (.v 0))) = false) :=
  ⟨solo_with (by decide +kernel) ⟨reaches_of (by decide +kernel), by decide +kernel⟩,
    solo_with (by decide +kernel) ⟨reaches_of (by decide +kernel), by decide +kernel⟩,
    solo_with (by decide +kernel) ⟨reaches_of (by decide +kernel), by decide +kernel⟩,
    solo_with (by decide +kernel) ⟨reaches_of (by decide +kernel), by decide +kernel⟩⟩

/-- Threads 1 and 2 wait on the word at 0x40000; v0 holds `n`. -/
abbrev sWake (n : Word) : State :=
  small { blk0 with
    vregs := [(0, n)]
    threads := [(0, thr0), (1, { thr0 with pc := 0, wait := some (.mem 0x10000 0x40000 .ne .i32 0 false 2 0 12) }),
      (2, { thr0 with pc := 0, wait := some (.mem 0x10000 0x40000 .ne .i64 5 true 1 7 12) })] } [0]
theorem waiters_of (n : Word) : (sWake n).waiters 0x40000 = [(7, 2), (7, 1)] := by
  show (([(2, 7, 1), (1, 7, 2)] : List (Nat × Nat × Nat)).mergeSort fun x y => x.1 ≤ y.1).map (·.2) = _
  simp [List.mergeSort, List.MergeSort.Internal.splitInTwo]

/-- `WakeResults`: a count of 0, of one of two waiters, and of more than wait. -/
theorem witness_wakes : ∀ n : Word, n = 0 ∨ n = 1 ∨ n = 0xFFFFFFFF →
    ∃ f, (sWake n).Solo (.wake hd (.v 254) (.lit 0x10000) (.v 0)) f 0 ∧
      (sWake n).Reaches 0 ((sWake n).bk.pair 0 (.lit 0x10000)) 4 4 .read 0x40000 ∧ ((sWake n).waiters 0x40000).Nodup ∧
      (sWake n).blocks.wf none = true ∧ (sWake n).bk.threads.wf {} = true ∧
      (∀ e ∈ (sWake n).waiters 0x40000, (((sWake n).thr e.1 e.2).queued 0x40000).isSome ∧
        ¬ (e.1 = (sWake n).sel.blk ∧ e.2 ∈ (sWake n).sel.thrs)) ∧
      (∀ e ∈ (sWake n).waiters 0x40000, ((sWake n).core ((sWake n).blk e.1).core).l1 = []) ∧
      ((sWake n).thr 7 1).wait = some (.mem 0x10000 0x40000 .ne .i32 0 false 2 0 12) ∧ 0x40000 + Ty.i32.bytes ≤ memEnd ∧
      ((sWake n).thr 7 2).wait = some (.mem 0x10000 0x40000 .ne .i64 5 true 1 7 12) ∧ 0x40000 + Ty.i64.bytes ≤ memEnd := by
  rintro n (rfl | rfl | rfl)
  all_goals
    rw [waiters_of]
    exact solo_with (by decide +kernel) ⟨reaches_of (by decide +kernel), by decide, by decide +kernel, by decide +kernel,
      by decide +kernel, by decide +kernel, rfl, by decide, rfl, by decide⟩

/-! ### Launches from a kernel, and placing blocks -/

/-- A descriptor of one block of one warp: scratchpad of 128 bytes, entry 0x10000, 8 registers. -/
abbrev desc0 : List Byte :=
  leBytes 8 0 ++ leBytes 8 0x100000001 ++ leBytes 8 0x11100000001 ++ leBytes 8 0x80 ++ List.replicate 64 0 ++ leBytes 8 0x10000 ++
    leBytes 8 0x100001 ++ List.replicate 144 0
/-- v4:v5 hold the address of a descriptor, v6:v7 of grid words, v8:v9 of a completion record; v10:v11 of a trace buffer. -/
abbrev sLaunch (n : Nat) : State :=
  { small { blk0 with threads := [(0, thr0)], core := 255
                      vregs := [(4 * 32, 0xFFFFFF00), (5 * 32, 0xFFFFFE), (6 * 32, 4), (8 * 32, 0x40), (10 * 32, 0x100)] } [0] with
    dies := [(3, { carafe := List.replicate n { kind := 0, fn := 1, desc := 0, grid := 0, completion := 0 } })] }
theorem launch_of (n : Nat) (i : Instr)
    (hi : i = .launch hd (.v 4) (.v 6) (.v 8) ∨ i = .launchTry hd 6 (.v 4) (.v 6) (.v 8) ∨ i = .relaunch hd (.v 4) (.v 10) (.v 12)) :
    ∃ f, (sLaunch n).Solo i f 0 := by
  have h : ∀ i, i = .launch hd (.v 4) (.v 6) (.v 8) ∨ i = .launchTry hd 6 (.v 4) (.v 6) (.v 8) ∨ i = .relaunch hd (.v 4) (.v 10) (.v 12) →
      ∃ f, (sLaunch 0).Solo i f 0 := by
    rintro i (rfl | rfl | rfl)
    all_goals exact let ⟨f, h, _⟩ := solo_with (P := True) (by decide +kernel) trivial; ⟨f, h⟩
  obtain ⟨f, h⟩ := h i hi
  exact ⟨f, { h with }⟩
/-- `KernelLaunchResults`: an empty carafe, one with a last place, and a full one; the last descriptor below the aperture. -/
theorem witness_kernel_launch :
    (∀ n i, i = .launch hd (.v 4) (.v 6) (.v 8) ∨ i = .launchTry hd 6 (.v 4) (.v 6) (.v 8) ∨ i = .relaunch hd (.v 4) (.v 10) (.v 12) →
      ∃ f, (sLaunch n).Solo i f 0) ∧
    (∀ n, launchCheck false ((sLaunch n).bk.pair 0 (.v 4)) ((sLaunch n).bk.pair 0 (.v 6)) ((sLaunch n).bk.pair 0 (.v 8)) = none ∧
      launchCheck true ((sLaunch n).bk.pair 0 (.v 4)) ((sLaunch n).bk.pair 0 (.v 10)) ((sLaunch n).bk.pair 0 (.v 12)) = none ∧
      ((sLaunch n).die (dieOf (sLaunch n).bk.core)).carafe.length = n ∧ (sLaunch n).CanRaise 0) := by
  refine ⟨launch_of, fun n => ⟨?_, ?_, ?_, ?_⟩⟩
  · exact (by decide +kernel : launchCheck false ((sLaunch 0).bk.pair 0 (.v 4)) ((sLaunch 0).bk.pair 0 (.v 6)) ((sLaunch 0).bk.pair 0 (.v 8)) = none)
  · exact (by decide +kernel : launchCheck true ((sLaunch 0).bk.pair 0 (.v 4)) ((sLaunch 0).bk.pair 0 (.v 10)) ((sLaunch 0).bk.pair 0 (.v 12)) = none)
  · rw [show (sLaunch n).bk.core = 255 from rfl, show dieOf 255 = 3 from rfl]
    show (List.replicate n ({ kind := 0, fn := 1, desc := 0, grid := 0, completion := 0 } : Carafe)).length = n
    exact List.length_replicate
  · exact ⟨rfl, rfl, rfl⟩

/-- The barista of core 255, with a descriptor at 0x40000 and the snapshot at 0x50000 of a launch of function 1, of `c` blocks a
cluster. Scalars s2:s3 name the descriptor, s4:s5 the launch with the rank. -/
abbrev descs (c : Nat) : List Byte :=
  leBytes 8 0 ++ leBytes 8 (0x100000000 + c) ++ leBytes 8 (0x11000000001 + c * 2 ^ 32) ++ leBytes 8 0x80 ++ List.replicate 64 0 ++
    leBytes 8 0x10000 ++ leBytes 8 0x100001 ++ List.replicate 144 0
abbrev agentPage : Xlat := ⟨fwFn, 0x40000, 16, 0x40000, true, true, false, false⟩
abbrev agent0 : Block :=
  { blk0 with fn := fwFn, agent := true, core := 255, threads := [(0, { thr0 with lastPage := some agentPage, mode := 2 })],
              sregs := [(2, 0x40000), (4, 5), (5, 0)] }
abbrev launchP : Launch := { fn := 1, lid := 5, snap := 0x50000, grid := (1, 1, 1), clusters := [0], shares := [] }
abbrev sPlace (c : Nat) : State :=
  { small agent0 [0] with
    mem := Map.setList 0 (Map.setList 0 [] 0x40000 (descs c)) 0x50000 (descs c)
    regions := [(31, { holder := some 1 })], launches := [{ launchP with grid := (c, 1, 1) }], nextId := 9 }
/-- `PlacementResults`, PLACE: a block of its own and one of a cluster of two. -/
theorem witness_place : ∀ c, c = 1 ∨ c = 2 →
    let s := sPlace c
    let l := { launchP with grid := (c, 1, 1) }
    let w := s.bk.pair 0 (.s 4)
    let ea := s.bk.pair 0 (.s 2)
    let d := (Desc.of (s.readPA (agentPage.addr ea.toNat) 256)).withGrid l.grid
    let e := s.launchDesc l
    (∃ f, s.Passes (.place hu 7 (.s 2) .zero (.s 4)) f) ∧ s.bk.agent = true ∧ s.PlainMem ∧ s.sel.thrs.headD 0 = 0 ∧
      s.holderOf s.bk.core = some 1 ∧ s.launchOf 1 (w.setWidth 32) = some l ∧ canonical ea = true ∧ inFabric ea = false ∧
      inAperture ea = false ∧ s.bk.fn = fwFn ∧ (s.bk.thr 0).lastPage = some agentPage ∧ agentPage.holds fwFn ea.toNat = true ∧
      agentPage.decaf = false ∧ placeReg (agentPage.addr ea.toNat) = none ∧ agentPage.addr ea.toNat + 256 ≤ memEnd ∧
      bits64 w 63 35 = 0 ∧ d.ok = true ∧ d.fitsEmpty = true ∧ s.bk.num 0 1 .zero < d.clusters ∧ bits64 w 34 32 < d.csize ∧
      s.blocks = [(s.sel.blk, some s.bk)] ∧ s.bk.status = .running ∧ (∀ q, (s.bk.thr q).wait = none) ∧
      s.banned (regionOf s.bk.core) (w.setWidth 32) 0 = false ∧ e.fitsEmpty = true ∧ e.scratch + 65536 * e.stash ≤ 524288 ∧
      s.nextId ≠ s.sel.blk ∧ (s.core s.bk.core).outOfService = false ∧ (s.core s.bk.core).partsOut = [] ∧
      (s.core s.bk.core).l1 = [] := by
  have wait : ∀ q, (agent0.thr q).wait = none := fun q => by
    rcases q with _ | q
    · rfl
    · rfl
  rintro c (rfl | rfl)
  all_goals
    refine ⟨let ⟨f, h, _⟩ := passes_with (P := True) (by decide +kernel) trivial; ⟨f, h⟩, ?_⟩
    refine ⟨by decide +kernel, plain_of (by decide +kernel), rfl, by decide +kernel, by decide +kernel, by decide +kernel, by decide +kernel,
      by decide +kernel, rfl, rfl, by decide +kernel, rfl, ?_, by decide +kernel, by decide +kernel, by decide +kernel, by decide +kernel,
      by decide +kernel, by decide +kernel, rfl, rfl, wait, by decide +kernel, by decide +kernel, by decide +kernel, by decide +kernel,
      by decide +kernel, by decide +kernel, by decide +kernel⟩
    exact if_pos (by decide +kernel)

/-- `PlacementResults`, EVICT: no held member, and one; and each form in a warp that is no barista's. -/
theorem witness_evict :
    (∀ bs, bs = [] ∨ bs = [(8, some { blk0 with core := 255, status := .held })] →
      let s := { sPlace 1 with blocks := [(7, some agent0)] ++ bs }
      (∃ f, s.Passes (.evict hu 0 (.s 4)) f) ∧ s.bk.agent = true ∧ (s.region (regionOf s.bk.core)).holder = some 1 ∧
        s.heldOf (regionOf s.bk.core) 1 ((s.bk.pair 0 (.s 4)).setWidth 32) ((s.bk.pair 0 (.s 4)) >>> 32).toNat = bs.map (·.1) ∧
        ∀ x ∈ bs.map (·.1), x ≠ s.sel.blk) ∧
    (s2.hole = false ∧ s2.bk.agent = false ∧ s2.sel.thrs = [0, 1] ∧ s2.CanRaise 0 ∧ s2.CanRaise 1) := by
  refine ⟨?_, rfl, rfl, rfl, can_raise_of (by decide +kernel), can_raise_of (by decide +kernel)⟩
  rintro bs (rfl | rfl)
  all_goals exact ⟨let ⟨f, h, _⟩ := passes_with (P := True) (by decide +kernel) trivial; ⟨f, h⟩, by decide +kernel, by decide +kernel,
    by decide +kernel, by decide +kernel⟩

/-! ### Regions of exceptions -/

abbrev try0 : TryEntry := ⟨0, 0x10040, 3⟩
/-- Threads whose TSTACK has room for one entry more. -/
abbrev sDeep : State := small { blk0 with threads := [(0, { thr0 with tstack := List.replicate 7 try0 })] } [0]
/-- `TryRegionResults`: TRY.W with 7 open regions; TRY.B with none; the catch point before the instruction; ENDTRY with a region and
with none. -/
theorem witness_try :
    (sDeep.hole = false ∧ sDeep.hasBlk sDeep.sel.blk ∧ [0] = sDeep.bk.liveOf sDeep.wp ∧
      (∀ x ∈ [0], sDeep.bk.arrived sDeep.sel.pc x = true ∧ (sDeep.bk.thr x).guard hd = true ∧ (sDeep.bk.thr x).tstack.length < 8) ∧
      (sDeep.sel.pc + (0xFFFFFFFC : Word).signExtend 64).toNat % 4 = 0) ∧
    (s2.hole = false ∧ s2.hasBlk s2.sel.blk ∧ [0, 1].Nodup ∧ [0, 1] = s2.bk.liveThreads ∧
      (∀ x ∈ [0, 1], s2.bk.arrived s2.sel.pc x = true ∧ (s2.bk.thr x).guard hd = true ∧ (s2.bk.thr x).tstack = []) ∧
      (s2.sel.pc + (0x7FFFFFFC : Word).signExtend 64).toNat % 4 = 0) ∧
    Ready sDeep [.endtry hd] ∧ Ready s2 [.endtry hd] :=
  ⟨⟨rfl, rfl, by decide +kernel, by decide +kernel, by decide +kernel⟩, ⟨rfl, rfl, by decide, by decide +kernel, by decide +kernel,
    by decide +kernel⟩, ready_of (by decide +kernel), ready_of (by decide +kernel)⟩

/-- A thread that holds a record, and one that holds none; codes 0xFFFF and 0x10000 in v0. -/
abbrev sThrow : State :=
  small { blk0 with threads := [(0, { thr0 with held := { code := 0x20000, aux := 9 } }), (1, thr0)], vregs := [(0, 0xFFFF), (1, 0x10000)] }
    [0, 1]
/-- `ThrowResults`, `ClearException`. -/
theorem witness_throw :
    Ready sThrow [.throw hd (.v 0) (.v 2), .rethrow hd, .clrexc hd] ∧ sThrow.CanRaise 0 ∧ sThrow.CanRaise 1 ∧
      (sThrow.bk.word 0 (.v 0)).toNat = 0xFFFF ∧ (sThrow.bk.word 1 (.v 0)).toNat = 0x10000 ∧ (sThrow.bk.thr 0).held.code ≠ 0 ∧
      (sThrow.bk.thr 1).held.code = 0 :=
  ⟨ready_of (by decide +kernel), can_raise_of (by decide +kernel), can_raise_of (by decide +kernel), by decide +kernel, by decide +kernel,
    by decide +kernel, by decide +kernel⟩

/-! ### System instructions -/

abbrev sMode (m : Word) : State := small { blk0 with threads := [(0, { thr0 with mode := m, epc := 0x10008, svcPc := 0x10000 })] } [0]
/-- `ServiceCallAndReturn`, `PrivilegeRules`: each instruction in each mode. -/
theorem witness_modes :
    (∀ m : Word, m = 0 ∨ m = 1 ∨ m = 2 → (sMode m).hole = false ∧ Ready (sMode m) [.svc hd 0xFFFF, .eret hd, .halt hd] ∧ (sMode m).CanRaise 0 ∧
      (sMode m).executing hd = [0] ∧ ((sMode m).bk.thr 0).mode = m ∧ ((sMode m).bk.thr 0).epc.toNat % 4 = 0) := by
  rintro m (rfl | rfl | rfl)
  all_goals exact ⟨rfl, ready_of (by decide +kernel), can_raise_of (by decide +kernel), by decide +kernel, by decide +kernel, by decide +kernel⟩

/-- Function 1: its frame 0 lies at 0, writable; a fault queue of 16 records at 0x1000, a profile ring of 2 at 0x2000; debug stops are
enabled. -/
abbrev fn1 : Fn :=
  { en := true, s2base := 0x100000, s2frames := 1, fqBase := 0x1004, profBase := 0x2001, dbgCtl := 1 }
abbrev sFn : State := { s2 with fns := [(1, fn1)], mem := Map.setList 0 [] 0x100000 (leBytes 8 0xD) }
/-- `TrapAndBreak`: with a fault queue and without; `SpecialRegisterWrites` in modes 0 and 2. -/
theorem witness_trap_break :
    Ready sFn [.trap hd 6 0xFFFF, .brk hd 0xFFFF] ∧ Ready s2 [.trap hd 7 0, .brk hd 0] ∧
      (∀ x ∈ sFn.executing hd, (sFn.bk.thr x).mode = 0) ∧ (∀ x ∈ s2.executing hd, (s2.bk.thr x).mode = 0) ∧
      sFn.fqValid sFn.bk.fn = true ∧ bitAt (sFn.fn sFn.bk.fn).dbgCtl 0 = true ∧ s2.fqValid s2.bk.fn = false ∧
      bitAt (s2.fn s2.bk.fn).dbgCtl 0 = false :=
  ⟨ready_of (by decide +kernel), ready_of (by decide +kernel), by decide +kernel, by decide +kernel, by decide +kernel, by decide +kernel,
    by decide +kernel, by decide +kernel⟩

/-- `ProfilingResults`: the first and the last counter; a mark with no ring, and one for the last free place of a ring. -/
theorem witness_profiling :
    Ready s2 [.pmcfg hu 0 (.s 0), .pmcfg hu 7 (.lit 0x30040), .pmrd hu true 7 (.s 62), .pmrd hu false 0 (.v 252), .dbgmark hd 0xFFFF] ∧
      ((s2.fn s2.bk.fn).pmcs.get {} 0).en = false ∧ bits64 (s2.fn s2.bk.fn).profBase 3 0 = 0 ∧
    (let s := { sFn with fns := [(1, { fn1 with profProd := 0, profCons := 0xFFFFFFFF })] };
    Ready s [.dbgmark hd 0xFFFF] ∧ s.poisoned = [] ∧ s.watches = [] ∧ s.roasts = [] ∧
      let k := bits64 (s.fn s.bk.fn).profBase 3 0
      let p := (s.fn s.bk.fn).profProd
      k ≠ 0 ∧ p - (s.fn s.bk.fn).profCons ≠ BitVec.ofNat 32 (2 ^ k) ∧
        s.stage2 s.bk.fn (bits64 (s.fn s.bk.fn).profBase 51 12 * 4096 + p.toNat % 2 ^ k * 32) = .ok (0x2000, true, true) ∧
        0x2000 + 32 ≤ memEnd) :=
  ⟨ready_of (by decide +kernel), by decide +kernel, by decide +kernel, ready_of (by decide +kernel), rfl, rfl, rfl, by decide +kernel,
    by decide +kernel, ok_of (by decide +kernel), by decide +kernel⟩

end Sys2Proof.Tests
end

section
/-! PROOFS. Decoding: the operands that fields hold, and what every row of the field table keeps to (spec/03 R42..R57). -/
namespace Sys2Proof

/-! ### What a field of a word stands for -/

/-- The destination that the field table names is the one that DK and D hold. -/
def DSpec.ReadAs (s : DSpec) (dk n : Nat) : Prop :=
  match s with
  | .no => True
  | .vs _ d | .v _ d | .sc _ d => mkDst dk n = d
  | .pred m => n = m
  | .aux base _ m => n - base = m

/-- The source that the field table names is the one that a K bit and an index hold, under the literal of the form. -/
def FSpec.ReadAs (s : FSpec) (k n : Nat) (lit : Option DWord) : Prop :=
  match s with
  | .no | .blank => True
  | .absent => n = 255 ∧ lit = none
  | .vs _ x | .v _ x | .sc _ x | .scK _ x => mkSrc k n lit = x
  | .pred m => n = m
  | .aux base _ m => n - base = m
  | .cq m => n - 48 = m

/-- The header and the operands of a row of the field table are those that the fields of the words hold. -/
structure Raw.Holds (r : Raw) (f : Uses) : Prop where
  hdr : r.hdr = f.h
  d : f.d.ReadAs r.dk r.d
  a : f.a.ReadAs r.ak r.a r.lit
  b : f.b.ReadAs r.bk r.b r.lit
  c : f.c.ReadAs r.ck r.c r.lit

/-! ### The instruction that the fields name -/

theorem mem_of_layoutOf_plain {op : Nat} (h : layoutOf op = some .plain) :
    op ∈ [0x00, 0x01, 0x02, 0x03, 0x04, 0x05, 0x06, 0x10, 0x11, 0x12, 0x13, 0x14, 0x20, 0x21, 0x28, 0x34, 0x35, 0x41, 0x48,
      0x50, 0x51, 0x58, 0x59, 0x60, 0x68, 0x69] := by
  unfold layoutOf at h
  split at h <;> simp_all

/-- Each group and XOP of the plain layout, except where MOVS, CALL, CAINT and CVINIT choose a form by their modifiers, names one
instruction. -/
theorem holds_of_buildPlain {r : Raw} {i : Instr} {f : Uses} (hl : layoutOf r.op = some .plain) (hb : buildPlain r = some i)
    (hf : uses i = some f) : r.Holds f := by
  have hop := mem_of_layoutOf_plain hl
  clear hl
  obtain ⟨dk, a, d, gn, g, op, u, res, ck, bk, ak, xop, la, c, b, w2, lit⟩ := r
  simp only [List.mem_cons, List.not_mem_nil, or_false] at hop
  rcases hop with rfl | rfl | rfl | rfl | rfl | rfl | rfl | rfl | rfl | rfl | rfl | rfl | rfl | rfl | rfl | rfl | rfl | rfl |
    rfl | rfl | rfl | rfl | rfl | rfl | rfl | rfl
  all_goals
    rcases xop with _ | _ | _ | _ | _ | _ | _ | _ | n
  all_goals cases hb
  all_goals try split at hf
  all_goals
    cases hf
    exact ⟨rfl, by trivial, by trivial, by trivial, by trivial⟩

theorem holds_of_buildMemory {r : Raw} {i : Instr} {f : Uses} (hb : buildMemory r = some i) (hf : uses i = some f) :
    r.Holds f := by
  unfold buildMemory at hb
  split at hb
  all_goals try split at hb
  all_goals cases hb
  all_goals
    cases hf
    exact ⟨rfl, by trivial, by trivial, by trivial, by trivial⟩

theorem holds_of_buildAtomic {r : Raw} {i : Instr} {f : Uses} (hb : buildAtomic r = some i) (hf : uses i = some f) :
    r.Holds f := by
  unfold buildAtomic at hb
  dsimp only at hb
  split at hb
  · cases hb
    cases hf
    refine ⟨rfl, by trivial, by trivial, by trivial, ?_⟩
    dsimp only
    split <;> trivial
  · cases hb
    cases hf
    exact ⟨rfl, by trivial, by trivial, by trivial, by trivial⟩

/-- The instruction comes from the layout of its group. -/
theorem build_ok_cases {r : Raw} {i : Instr} (h : build r = .ok i) :
    (layoutOf r.op = some .plain ∧ buildPlain r = some i) ∨ (layoutOf r.op = some .memory ∧ buildMemory r = some i) ∨
      (layoutOf r.op = some .atomic ∧ buildAtomic r = some i) := by
  unfold build at h
  split at h
  · cases h
  · next hl => exact .inl ⟨hl, by split at h <;> simp_all⟩
  · next hl => exact .inr (.inl ⟨hl, by split at h <;> simp_all⟩)
  · next hl => exact .inr (.inr ⟨hl, by split at h <;> simp_all⟩)

/-- The instruction that the fields name has their header and operands. -/
theorem holds_of_build {r : Raw} {i : Instr} {f : Uses} (hb : build r = .ok i) (hf : uses i = some f) : r.Holds f := by
  rcases build_ok_cases hb with ⟨hl, h⟩ | ⟨-, h⟩ | ⟨-, h⟩
  · exact holds_of_buildPlain hl h hf
  · exact holds_of_buildMemory h hf
  · exact holds_of_buildAtomic h hf

/-! ### What every row of the field table keeps -/

/-- Numbers of an auxiliary field fit in 8 bits. -/
def FSpec.auxFits : FSpec → Prop
  | .aux base count _ => base + count ≤ 256
  | _ => True
def DSpec.auxFits : DSpec → Prop
  | .aux base count _ => base + count ≤ 256
  | _ => True

@[simp] theorem Ty.code_lt (t : Ty) : t.code < 16 := by cases t <;> decide
@[simp] theorem Rm.code_lt (m : Rm) : m.code < 8 := by cases m <;> decide
@[simp] theorem CmpOp.code_lt (c : CmpOp) : c.code < 16 := by cases c <;> decide
@[simp] theorem FCmpOp.code_lt (c : FCmpOp) : c.code < 16 := by
  cases c with
  | cmp c => exact c.code_lt
  | un => decide
  | ord => decide
@[simp] theorem PsetOp.code_lt (o : PsetOp) : o.code < 16 := by cases o <;> decide
@[simp] theorem ShflOp.code_lt (o : ShflOp) : o.code < 16 := by cases o <;> decide
@[simp] theorem VoteOp.code_lt (o : VoteOp) : o.code < 16 := by cases o <;> decide
@[simp] theorem ReduxOp.code_lt (o : ReduxOp) : o.code < 16 := by cases o <;> decide
@[simp] theorem ShfVar.code_lt (o : ShfVar) : o.code < 4 := by cases o <;> decide
@[simp] theorem AtomOp.code_lt (o : AtomOp) : o.code < 16 := by cases o <;> decide
@[simp] theorem Ord4.code_lt (o : Ord4) : o.code < 4 := by cases o <;> decide
@[simp] theorem Wd.code_lt (w : Wd) : w.code < 4 := by cases w <;> decide
@[simp] theorem CTy.code_lt (t : CTy) : t.code < 16 := by
  cases t with
  | std t => exact t.code_lt
  | fd n => exact (by decide : 13 < 16)
@[simp] theorem DrainTy.code_lt (t : DrainTy) : t.code < 16 := by
  cases t with
  | fd n => exact (by decide : 13 < 16)
  | _ => decide
@[simp] theorem bit_lt (b : Bool) : bit b < 2 := by cases b <;> decide

/-- A modifier word leaves its bits 31:28 clear. -/
theorem mword_lt {fd opm rm imm tys tyd var : Nat} (h1 : fd < 16) (h2 : opm < 16) (h3 : rm < 8) (h4 : imm < 32) (h5 : tys < 16)
    (h6 : tyd < 16) (h7 : var < 16) : mword fd opm rm imm tys tyd var < 2 ^ 28 := by
  unfold mword
  omega

theorem fdOf_lt_of_cvtOk {sat : Bool} {td ts : CTy} {m : Rm} (h : cvtOk sat td ts m = true) : td.fdOf + ts.fdOf < 16 := by
  cases td <;> cases ts <;> simp_all [cvtOk, CTy.ok, CTy.isNarrow, CTy.fdOf]

theorem fdOf_lt_of_packOk {td ts : CTy} {k : Nat} (h : packOk td ts k = true) : td.fdOf + ts.fdOf < 16 := by
  cases td <;> cases ts <;> simp_all [packOk, packSide, CTy.fdOf]

theorem fdOf_lt_of_unpackOk {td ts : CTy} {m : Rm} {k : Nat} (h : unpackOk td ts m k = true) : td.fdOf + ts.fdOf < 16 := by
  cases td <;> cases ts <;> simp_all [unpackOk, packSide, CTy.fdOf]

theorem packLimit_le (t : CTy) : packLimit t ≤ 8 := by
  unfold packLimit
  split
  · exact le_refl 8
  · split <;> decide

theorem lt_of_packOk {td ts : CTy} {k : Nat} (h : packOk td ts k = true) : k < 32 := by
  have hk : k < packLimit td := by simp_all [packOk]
  have := packLimit_le td
  omega

theorem lt_of_unpackOk {td ts : CTy} {m : Rm} {k : Nat} (h : unpackOk td ts m k = true) : k < 32 := by
  have hk : k < packLimit ts := by simp_all [unpackOk]
  have := packLimit_le ts
  omega

theorem DrainMods.fdOf_lt {m : DrainMods} (h : m.ok = true) : m.td.fdOf < 16 := by
  unfold DrainMods.ok at h
  cases htd : m.td <;> simp_all [DrainTy.fdOf]

theorem DrainMods.stile_lt {m : DrainMods} (h : m.ok = true) : m.stile < 16 := by
  simp_all [DrainMods.ok]

theorem w2_lt_of_uses {i : Instr} {f : Uses} (h : uses i = some f) (hok : f.ok = true) (hm : f.cls = .m) : f.w2 < 2 ^ 28 := by
  unfold uses at h
  split at h
  all_goals cases h
  all_goals try cases hm
  all_goals dsimp only at hok ⊢
  all_goals try apply mword_lt
  all_goals try simp only [Nat.ofNat_pos, Nat.reduceLT]
  all_goals
    grind [Ty.code_lt, CTy.code_lt, DrainTy.code_lt, Rm.code_lt, CmpOp.code_lt, FCmpOp.code_lt, PsetOp.code_lt, ShflOp.code_lt,
      VoteOp.code_lt, ReduxOp.code_lt, ShfVar.code_lt, bit_lt, → fdOf_lt_of_cvtOk, → fdOf_lt_of_packOk, → fdOf_lt_of_unpackOk,
      → lt_of_packOk, → lt_of_unpackOk, → DrainMods.fdOf_lt, → DrainMods.stile_lt]

theorem xop_lt_of_uses {i : Instr} {f : Uses} (h : uses i = some f) (hok : f.ok = true) : f.xop < 256 := by
  unfold uses at h
  split at h
  all_goals cases h
  all_goals
    simp only [memXop, atomXop]
    grind [Ty.code_lt, Ord4.code_lt, Wd.code_lt, AtomOp.code_lt]

theorem typed_of_cvtOk {sat : Bool} {td ts : CTy} {m : Rm} (h : cvtOk sat td ts m = true) : (td.ok && ts.ok) = true := by
  simp_all [cvtOk]

theorem typed_of_reduxOk {op : ReduxOp} {ty : Ty} {m : Rm} (h : reduxOk op ty m = true) : reduxOk op ty .rne = true := by
  cases op <;> grind [reduxOk]

theorem typed_of_atomOk {red : Bool} {op : AtomOp} {ord : Ord4} {w : Wd} (h : atomOk red op ord w = true) :
    atomOk red op .plain w = true := by
  unfold atomOk at h ⊢
  simp_all

/-- A form whose types are ones that it defines has widths for its operands. -/
theorem typed_of_uses {i : Instr} {f : Uses} (h : uses i = some f) (hok : f.ok = true) : f.typed = true := by
  unfold uses at h
  split at h
  all_goals cases h
  all_goals dsimp only at hok ⊢
  all_goals
    grind [→ typed_of_cvtOk, → typed_of_reduxOk, → typed_of_atomOk]

theorem CvKind.field_auxFits (k : CvKind) : k.field.auxFits := by cases k <;> trivial
theorem CvKind.field_ne_absent (k : CvKind) : k.field ≠ .absent := by cases k <;> nofun

/-- What a row of the field table keeps to, whatever the operands: its numbers fit their fields, only instructions that require
U = 1 have a scalar-only destination, and a field that CALL leaves out stands alone. -/
structure Uses.Regular (f : Uses) : Prop where
  op : f.op < 128
  zero : f.cls = .z → f.w2 = 0
  scalar : ∀ w d, f.d = .sc w d → f.mark = .q
  fitD : f.d.auxFits
  fitA : f.a.auxFits
  fitB : f.b.auxFits
  fitC : f.c.auxFits
  absA : f.a = .absent → f.lit = none
  absB : f.b ≠ .absent
  absC : f.c ≠ .absent

theorem regular_of_uses {i : Instr} {f : Uses} (h : uses i = some f) : f.Regular := by
  unfold uses at h
  split at h
  all_goals cases h
  case h_65 => exact ⟨(by decide : 0x28 < 128), nofun, nofun, trivial, trivial, trivial, trivial, fun _ => rfl, nofun, nofun⟩
  case h_80 =>
    refine ⟨(by decide : 0x32 < 128), nofun, nofun, trivial, trivial, trivial, ?_, nofun, nofun, ?_⟩
    · dsimp only
      split <;> trivial
    · dsimp only
      split <;> nofun
  case h_107 kind =>
    exact ⟨(by decide : 0x51 < 128), nofun, nofun, (by decide : 0x28 + 8 ≤ 256), trivial, kind.field_auxFits, trivial, nofun,
      kind.field_ne_absent, nofun⟩
  all_goals constructor <;> simp [FSpec.auxFits, DSpec.auxFits]

end Sys2Proof
end

section
/-! PROOFS. Encoding: the fields that the encoder writes, and that they pass every check (spec/03 R63). -/
namespace Sys2Proof

/-! ### The fields of an encoded instruction -/

/-- The fields that the encoder writes for a row of the field table. -/
def Uses.raw (f : Uses) : Raw :=
  { dk := f.d.enc.1, a := f.a.enc.2, d := f.d.enc.2, gn := bit f.h.neg, g := f.h.g, op := f.op, u := bit f.h.u, res := 0,
    ck := f.c.enc.1, bk := f.b.enc.1, ak := f.a.enc.1, xop := f.xop, la := f.h.la, c := f.c.enc.2, b := f.b.enc.2, w2 := f.w2,
    lit := f.lit }

@[simp] theorem vecOk_255 (w : Nat) : vecOk w 255 = true := rfl
@[simp] theorem scaOk_255 (w : Nat) : scaOk w 255 = true := rfl
@[simp] theorem scaOk_63 (w : Nat) : scaOk w 63 = true := rfl

theorem le_of_vecOk {w n : Nat} (h : vecOk w n = true) : n ≤ 255 := by
  simp only [vecOk, Bool.or_eq_true, Bool.and_eq_true, decide_eq_true_eq] at h
  omega

theorem le_of_scaOk {w n : Nat} (h : scaOk w n = true) : n ≤ 255 := by
  simp only [scaOk, Bool.or_eq_true, Bool.and_eq_true, decide_eq_true_eq] at h
  split at h
  · omega
  · split at h <;> omega

/-- What a source that is written down keeps to, by the class of its field. -/
theorem FSpec.enc_lt {s : FSpec} {lit : Bool} (h : s.wf lit = true) (hf : s.auxFits) : s.enc.1 < 2 ∧ s.enc.2 < 256 := by
  cases s with
  | vs w x | v w x | sc w x | scK w x =>
    cases x <;> simp_all [FSpec.wf, Src.wf, FSpec.enc] <;> grind [→ le_of_vecOk, → le_of_scaOk]
  | _ => simp_all [FSpec.wf, FSpec.enc, FSpec.auxFits] <;> omega

theorem DSpec.enc_lt {s : DSpec} {u : Bool} (h : s.wf u = true) (hf : s.auxFits) : s.enc.1 < 4 ∧ s.enc.2 < 256 := by
  cases s with
  | vs w x | v w x | sc w x =>
    cases x <;> simp_all [DSpec.wf, Dst.wf, DSpec.enc] <;> grind [→ le_of_vecOk, → le_of_scaOk]
  | _ => simp_all [DSpec.wf, DSpec.enc, DSpec.auxFits] <;> omega

theorem DSpec.readAs_enc {s : DSpec} {u : Bool} (h : s.wf u = true) : s.ReadAs s.enc.1 s.enc.2 := by
  cases s with
  | vs w x | v w x | sc w x => cases x <;> simp_all [DSpec.wf, Dst.wf, DSpec.enc, DSpec.ReadAs, mkDst, Dst.isSca, Dst.isVec]
  | _ => simp [DSpec.enc, DSpec.ReadAs]

/-- The literal of a source is the literal of its form. -/
theorem FSpec.lit_eq {s : FSpec} {lit : Option DWord} {x : DWord} (h : s.litAgrees lit = true) (hx : s.litOf = some x) :
    lit = some x := by
  simp_all [FSpec.litAgrees]

theorem FSpec.readAs_enc {s : FSpec} {lit : Option DWord} (h : s.wf lit.isSome = true) (hl : s.litAgrees lit = true)
    (ha : s = .absent → lit = none) : s.ReadAs s.enc.1 s.enc.2 lit := by
  cases s with
  | vs w x | v w x | sc w x | scK w x =>
    cases x with
    | lit y =>
      obtain rfl := FSpec.lit_eq hl rfl
      rfl
    | _ => simp_all [FSpec.wf, Src.wf, FSpec.enc, FSpec.ReadAs, mkSrc, Src.isSca, Src.isVec, Src.isZero]
  | _ => simp_all [FSpec.enc, FSpec.ReadAs]

/-- What `Uses.wf` says, taken apart. -/
structure Uses.Wf (f : Uses) : Prop where
  hdr : f.hdrOk = true
  ok : f.ok = true
  d : f.d.wf f.h.u = true
  a : f.a.wf f.lit.isSome = true
  b : f.b.wf f.lit.isSome = true
  c : f.c.wf f.lit.isSome = true
  litA : f.a.litAgrees f.lit = true
  litB : f.b.litAgrees f.lit = true
  litC : f.c.litAgrees f.lit = true

theorem Uses.wf_iff (f : Uses) : f.wf = true ↔ f.Wf := by
  simp only [Uses.wf, Bool.and_eq_true]
  constructor
  · rintro ⟨⟨⟨⟨⟨⟨⟨⟨h1, h2⟩, h3⟩, h4⟩, h5⟩, h6⟩, h7⟩, h8⟩, h9⟩
    exact ⟨h1, h2, h3, h4, h5, h6, h7, h8, h9⟩
  · rintro ⟨h1, h2, h3, h4, h5, h6, h7, h8, h9⟩
    exact ⟨⟨⟨⟨⟨⟨⟨⟨h1, h2⟩, h3⟩, h4⟩, h5⟩, h6⟩, h7⟩, h8⟩, h9⟩

/-- What `Uses.hdrOk` says, taken apart. -/
structure Uses.HdrOk (f : Uses) : Prop where
  g : f.h.g < 8
  named : ¬ (f.h.g = 7 ∧ f.h.neg = true)
  la : f.h.la < 16
  ll : f.ll = true ∨ f.h.la = 0
  required : f.mark = .q → f.h.u = true
  forbidden : f.mark = .f → f.h.u = false

theorem Uses.hdrOk_iff (f : Uses) : f.hdrOk = true ↔ f.HdrOk := by
  constructor
  · intro h
    simp only [Uses.hdrOk, Bool.and_eq_true, Bool.not_eq_true', Bool.or_eq_true, decide_eq_true_eq] at h
    obtain ⟨⟨⟨⟨hg, hn⟩, hla⟩, hll⟩, hm⟩ := h
    exact ⟨hg, by simpa using hn, hla, hll, fun e => by simpa [e] using hm, fun e => by simpa [e] using hm⟩
  · rintro ⟨hg, hn, hla, hll, hq, hf⟩
    simp only [Uses.hdrOk, Bool.and_eq_true, Bool.not_eq_true', Bool.or_eq_true, decide_eq_true_eq]
    refine ⟨⟨⟨⟨hg, by simpa using hn⟩, hla⟩, hll⟩, ?_⟩
    cases hm : f.mark with
    | p => rfl
    | q => exact hq hm
    | f => simp [hf hm]

/-- A row that is written down holds its own header and operands in the fields that the encoder writes. -/
theorem Uses.raw_holds {f : Uses} (h : f.Wf) (hr : f.Regular) : f.raw.Holds f where
  hdr := by
    obtain ⟨⟨g, neg, u, la⟩, -⟩ := f
    cases neg <;> cases u <;> rfl
  d := DSpec.readAs_enc h.d
  a := FSpec.readAs_enc h.a h.litA hr.absA
  b := FSpec.readAs_enc h.b h.litB fun e => absurd e hr.absB
  c := FSpec.readAs_enc h.c h.litC fun e => absurd e hr.absC

/-- The fields of the words that the encoder writes. -/
theorem Uses.raw_of_words {f : Uses} (h : f.Wf) (hr : f.Regular) (hx : f.xop < 256) :
    Raw.of f.w0 f.w1 f.w2 f.lit = f.raw := by
  have hh := (Uses.hdrOk_iff f).mp h.hdr
  have hg := hh.g
  have hla := hh.la
  have hop := hr.op
  have hn := bit_lt f.h.neg
  have hu := bit_lt f.h.u
  obtain ⟨hd1, hd2⟩ := DSpec.enc_lt h.d hr.fitD
  obtain ⟨ha1, ha2⟩ := FSpec.enc_lt h.a hr.fitA
  obtain ⟨hb1, hb2⟩ := FSpec.enc_lt h.b hr.fitB
  obtain ⟨hc1, hc2⟩ := FSpec.enc_lt h.c hr.fitC
  have hlen : (if f.lit.isSome = true then 3 else 2) < 4 := by split <;> decide
  simp only [Raw.of, Uses.raw, Uses.w0, Uses.w1, field, Raw.mk.injEq, and_true, Nat.reducePow, Nat.reduceAdd, Nat.reduceSub]
  refine ⟨?_, ?_, ?_, ?_, ?_, ?_, ?_, ?_, ?_, ?_, ?_, ?_, ?_, ?_, ?_⟩ <;> omega

theorem Uses.w0_mod {f : Uses} : f.w0 % 4 = if f.lit.isSome then 3 else 2 := by
  have hlen : (if f.lit.isSome = true then 3 else 2) < 4 := by split <;> decide
  unfold Uses.w0
  omega

/-- The two words of a literal give it back. -/
theorem literal_words (n : Nat) : literal (n % 0x100000000) (n / 0x100000000) = BitVec.ofNat 64 n := by
  rw [literal, Nat.mod_add_div']
theorem literal_toNat (x : DWord) : literal (x.toNat % 0x100000000) (x.toNat / 0x100000000) = x := by
  rw [literal_words, BitVec.ofNat_toNat, BitVec.setWidth_eq]

/-! The length field chooses the form (spec/03 R39). -/

theorem decode_base (allot w0 : Nat) (rest : List Nat) (h : w0 % 4 = 0) :
    decode allot (w0 :: rest) = decodeBase allot w0 none := by
  simp only [decode, h]
theorem decode_baseLit (allot w0 lo hi : Nat) (rest : List Nat) (h : w0 % 4 = 1) :
    decode allot (w0 :: lo :: hi :: rest) = decodeBase allot w0 (some (literal lo hi)) := by
  simp only [decode, h]
theorem decode_ext (allot w0 w1 w2 : Nat) (rest : List Nat) (h : w0 % 4 = 2) :
    decode allot (w0 :: w1 :: w2 :: rest) = decodeExt allot (Raw.of w0 w1 w2 none) := by
  simp only [decode, h]
theorem decode_extLit (allot w0 w1 w2 lo hi : Nat) (rest : List Nat) (h : w0 % 4 = 3) :
    decode allot (w0 :: w1 :: w2 :: lo :: hi :: rest) = decodeExt allot (Raw.of w0 w1 w2 (some (literal lo hi))) := by
  simp only [decode, h]
/-- The decoder finds the fields that the encoder wrote. -/
theorem decode_extWords {f : Uses} (h : f.Wf) (hr : f.Regular) (hx : f.xop < 256) (allot : Nat) (rest : List Nat) :
    decode allot ([f.w0, f.w1, f.w2] ++ litWords f.lit ++ rest) = decodeExt allot f.raw := by
  rw [← Uses.raw_of_words h hr hx]
  have hw := f.w0_mod
  cases hl : f.lit with
  | none => exact decode_ext _ _ _ _ _ (by simpa [hl] using hw)
  | some x =>
    have hd := decode_extLit allot f.w0 f.w1 f.w2 (x.toNat % 0x100000000) (x.toNat / 0x100000000) rest (by simpa [hl] using hw)
    rwa [literal_toNat] at hd

/-! ### The checks of the fields that the encoder writes -/

theorem FSpec.unusedOk_enc (s : FSpec) : s.unusedOk s.enc.1 s.enc.2 = true := by cases s <;> rfl
theorem FSpec.blankOk_enc (s : FSpec) : s.blankOk s.enc.1 s.enc.2 = true := by cases s <;> rfl

theorem FSpec.rangeOk_enc {s : FSpec} {lit : Option DWord} (h : s.wf lit.isSome = true) (hl : s.litAgrees lit = true) :
    s.rangeOk s.enc.1 s.enc.2 lit.isSome = true := by
  cases s with
  | vs w x | v w x | sc w x | scK w x =>
    cases x with
    | lit y =>
      obtain rfl := FSpec.lit_eq hl rfl
      simp [FSpec.enc, FSpec.rangeOk]
    | _ => simp_all [FSpec.wf, Src.wf, FSpec.enc, FSpec.rangeOk, Src.isSca, Src.isVec]
  | cq n =>
    have : n < 8 := by simpa [FSpec.wf] using h
    simp only [FSpec.enc, FSpec.rangeOk, Bool.and_eq_true]
    exact ⟨⟨rfl, decide_eq_true (Nat.le_add_right 48 n)⟩, decide_eq_true (Nat.add_lt_add_left this 48)⟩
  | _ => simp_all [FSpec.wf, FSpec.enc, FSpec.rangeOk]

theorem FSpec.allotOk_enc {s : FSpec} {lit : Bool} (h : s.wf lit = true) (hf : s.auxFits) :
    s.allotOk s.enc.1 s.enc.2 256 = true := by
  have := (FSpec.enc_lt h hf).2
  cases s <;> simp_all [FSpec.allotOk]

theorem FSpec.readsLit_enc {s : FSpec} (h : s.litOf.isSome = true) : s.readsLit s.enc.2 = true := by
  cases s with
  | vs w x | v w x | sc w x | scK w x => cases x <;> simp_all [FSpec.litOf, FSpec.enc, FSpec.readsLit]
  | _ => simp_all [FSpec.litOf]

theorem DSpec.rangeOk_enc {s : DSpec} {u : Bool} (h : s.wf u = true) : s.rangeOk s.enc.1 s.enc.2 = true := by
  cases s with
  | vs w x | v w x | sc w x =>
    cases x <;> simp_all [DSpec.wf, Dst.wf, DSpec.enc, DSpec.rangeOk, Dst.isSca, Dst.isVec]
  | _ => simp_all [DSpec.wf, DSpec.enc, DSpec.rangeOk]

theorem DSpec.allotOk_enc {s : DSpec} {u : Bool} (h : s.wf u = true) (hf : s.auxFits) : s.allotOk s.enc.1 s.enc.2 256 = true := by
  have := (DSpec.enc_lt h hf).2
  cases s <;> simp_all [DSpec.allotOk]

/-- A destination in DK = 1 needs U = 1. -/
theorem DSpec.uniform_of_enc {s : DSpec} {u : Bool} (h : s.wf u = true) (hs : ∀ w d, s = .sc w d → u = true)
    (hk : s.enc.1 = 1) : u = true := by
  cases s with
  | sc w x => exact hs w x rfl
  | vs w x | v w x => cases x <;> simp_all [DSpec.wf, Dst.wf, DSpec.enc, Dst.isSca]
  | _ => simp_all [DSpec.enc]

/-- When a form has a literal, one of its sources reads it. -/
theorem Uses.readsLit_of_lit {f : Uses} (h : f.lit.isSome = true) :
    f.a.litOf.isSome = true ∨ f.b.litOf.isSome = true ∨ f.c.litOf.isSome = true := by
  unfold Uses.lit at h
  cases ha : f.a.litOf <;> cases hb : f.b.litOf <;> simp_all

/-- The fields that the encoder writes pass every check of R63, for a warp that has every vector register. -/
theorem Uses.reason_raw {f : Uses} (h : f.Wf) (hr : f.Regular) (ht : f.typed = true) (hm : f.cls = .m → f.w2 < 2 ^ 28) :
    reason 256 f.raw f = none := by
  have hh := (Uses.hdrOk_iff f).mp h.hdr
  have hsize : f.sized = f := if_pos ht
  have hrange : (!f.d.rangeOk f.raw.dk f.raw.d || !f.a.rangeOk f.raw.ak f.raw.a f.lit.isSome ||
      !f.b.rangeOk f.raw.bk f.raw.b f.lit.isSome || !f.c.rangeOk f.raw.ck f.raw.c f.lit.isSome) = false := by
    simp [Uses.raw, DSpec.rangeOk_enc h.d, FSpec.rangeOk_enc h.a h.litA, FSpec.rangeOk_enc h.b h.litB,
      FSpec.rangeOk_enc h.c h.litC]
  have hallot : (!f.d.allotOk f.raw.dk f.raw.d 256 || !f.a.allotOk f.raw.ak f.raw.a 256 || !f.b.allotOk f.raw.bk f.raw.b 256 ||
      !f.c.allotOk f.raw.ck f.raw.c 256) = false := by
    simp [Uses.raw, DSpec.allotOk_enc h.d hr.fitD, FSpec.allotOk_enc h.a hr.fitA, FSpec.allotOk_enc h.b hr.fitB,
      FSpec.allotOk_enc h.c hr.fitC]
  have hmod : f.cls = .m → field f.w2 31 28 = 0 := fun e => by
    have := hm e
    simp only [field]
    omega
  have hlit : f.lit.isSome = true → f.a.readsLit f.raw.a = true ∨ f.b.readsLit f.raw.b = true ∨ f.c.readsLit f.raw.c = true :=
    fun e => (Uses.readsLit_of_lit e).imp FSpec.readsLit_enc (Or.imp FSpec.readsLit_enc FSpec.readsLit_enc)
  have hdk : f.raw.dk = 1 → f.raw.u ≠ 0 := fun e => by
    have : f.h.u = true := DSpec.uniform_of_enc h.d (fun w d hd => hh.required (hr.scalar w d hd)) e
    simp [Uses.raw, this, bit]
  unfold reason
  dsimp only
  rw [hsize, show f.raw.lit = f.lit from rfl]
  rw [if_neg, if_neg, if_neg, if_neg, if_neg, if_neg, if_neg, if_neg, if_neg]
  · simp [Uses.raw, h.ok, FSpec.blankOk_enc]
  · simp only [Bool.and_eq_true, decide_eq_true_eq]
    simpa [Uses.raw, bit] using hh.named
  · have hq := hh.required
    have hf := hh.forbidden
    cases hu : f.h.u <;> simp_all [Uses.raw, bit]
  · intro e
    simp only [Bool.and_eq_true, Bool.not_eq_true'] at e
    obtain ⟨⟨⟨hl, ha⟩, hb⟩, hc⟩ := e
    simpa [ha, hb, hc] using hlit hl
  · simp [hallot]
  · simp [hrange]
  · simpa using hdk
  · simp only [Bool.and_eq_true, decide_eq_true_eq, Bool.not_eq_true']
    rintro ⟨h0, hll⟩
    exact hh.ll.elim (fun e => by simp [e] at hll) h0
  · simp only [Bool.or_eq_true, Bool.and_eq_true, decide_eq_true_eq, Bool.not_eq_true']
    rintro (((((e | ⟨e, e'⟩) | ⟨e, e'⟩) | e) | e) | e)
    · exact e rfl
    · exact e' (hmod e)
    · exact e' (hr.zero e)
    · exact nomatch f.a.unusedOk_enc.symm.trans e
    · exact nomatch f.b.unusedOk_enc.symm.trans e
    · exact nomatch f.c.unusedOk_enc.symm.trans e

end Sys2Proof
end

section
/-! PROOFS. Encoding: the fields of a row name its instruction (spec/04 R70..R76). -/
namespace Sys2Proof

/-! ### Codes and modifier words read back -/

@[simp] theorem Ty.ofCode_code (t : Ty) : Ty.ofCode t.code = some t := by cases t <;> rfl
@[simp] theorem Rm.ofCode_code (m : Rm) : Rm.ofCode m.code = m := by cases m <;> rfl
@[simp] theorem CmpOp.ofCode_code (c : CmpOp) : CmpOp.ofCode c.code = c := by cases c <;> rfl
@[simp] theorem FCmpOp.ofCode_code (c : FCmpOp) : FCmpOp.ofCode c.code = c := by
  cases c with
  | cmp c => cases c <;> rfl
  | un => rfl
  | ord => rfl
@[simp] theorem PsetOp.ofCode_code (o : PsetOp) : PsetOp.ofCode o.code = o := by cases o <;> rfl
@[simp] theorem ShflOp.ofCode_code (o : ShflOp) : ShflOp.ofCode o.code = o := by cases o <;> rfl
@[simp] theorem VoteOp.ofCode_code (o : VoteOp) : VoteOp.ofCode o.code = o := by cases o <;> rfl
@[simp] theorem ReduxOp.ofCode_code (o : ReduxOp) : ReduxOp.ofCode o.code = o := by cases o <;> rfl
@[simp] theorem AtomOp.ofCode_code (o : AtomOp) : AtomOp.ofCode o.code = o := by cases o <;> rfl
@[simp] theorem Ord4.ofCode_code (o : Ord4) : Ord4.ofCode o.code = o := by cases o <;> rfl
@[simp] theorem Wd.ofCode_code (w : Wd) : Wd.ofCode w.code = w := by cases w <;> rfl
@[simp] theorem ShfVar.ofCode_code (v : ShfVar) : ShfVar.ofCode v.code = v := by cases v <;> rfl

section
variable {fd opm rm imm tys tyd var : Nat} (hfd : fd < 16) (hopm : opm < 16) (hrm : rm < 8) (himm : imm < 32) (htys : tys < 16)
  (htyd : tyd < 16) (hvar : var < 16)
include hvar htyd

theorem mword_tyd : field (mword fd opm rm imm tys tyd var) 7 4 = tyd := by
  unfold field mword
  omega
include htys
theorem mword_tys : field (mword fd opm rm imm tys tyd var) 11 8 = tys := by
  unfold field mword
  omega
include himm
theorem mword_imm : field (mword fd opm rm imm tys tyd var) 16 12 = imm := by
  unfold field mword
  omega
include hrm
theorem mword_rm : field (mword fd opm rm imm tys tyd var) 19 17 = rm := by
  unfold field mword
  omega
include hopm
theorem mword_opm : field (mword fd opm rm imm tys tyd var) 23 20 = opm := by
  unfold field mword
  omega
include hfd
theorem mword_fd : field (mword fd opm rm imm tys tyd var) 27 24 = fd := by
  unfold field mword
  omega
end

theorem mword_bit (fd opm rm imm tys tyd : Nat) (b : Bool) : field (mword fd opm rm imm tys tyd (bit b)) 0 0 = bit b := by
  have := bit_lt b
  unfold field mword
  omega

@[simp] theorem bit_lt_16 (b : Bool) : bit b < 16 := by cases b <;> decide
@[simp] theorem bit_eq_one (b : Bool) : bit b = 1 ↔ b = true := by cases b <;> simp [bit]
@[simp] theorem nTy_code_eq_8 (w : Bool) : (nTy w).code = 8 ↔ w = true := by cases w <;> decide
@[simp] theorem nTy_code_eq_4 (w : Bool) : (if w then Ty.i64 else Ty.i32).code = 4 ↔ w = true := by cases w <;> decide

theorem field_low {n k : Nat} (h : n < 2 ^ (k + 1)) : field n k 0 = n := by
  rw [field, Nat.pow_zero, Nat.div_one, Nat.sub_zero, Nat.mod_eq_of_lt h]

@[simp] theorem memXop_sel (sel : Nat) (o : Ord4) {ty : Nat} (hs : sel < 4) (h : ty < 16) : field (memXop sel o ty) 7 6 = sel := by
  have := o.code_lt
  unfold field memXop
  omega
@[simp] theorem memXop_ord (sel : Nat) (o : Ord4) {ty : Nat} (h : ty < 16) : field (memXop sel o ty) 5 4 = o.code := by
  have := o.code_lt
  unfold field memXop
  omega
@[simp] theorem memXop_ty (sel : Nat) (o : Ord4) {ty : Nat} (h : ty < 16) : field (memXop sel o ty) 3 0 = ty := by
  unfold field memXop
  omega
@[simp] theorem atomXop_op (op : AtomOp) (o : Ord4) (w : Wd) : field (atomXop op o w) 7 4 = op.code := by
  have := op.code_lt
  have := o.code_lt
  have := w.code_lt
  unfold field atomXop
  omega
@[simp] theorem atomXop_ord (op : AtomOp) (o : Ord4) (w : Wd) : field (atomXop op o w) 3 2 = o.code := by
  have := o.code_lt
  have := w.code_lt
  unfold field atomXop
  omega
@[simp] theorem atomXop_w (op : AtomOp) (o : Ord4) (w : Wd) : field (atomXop op o w) 1 0 = w.code := by
  have := w.code_lt
  unfold field atomXop
  omega

@[simp] theorem ctyOf_code (t : Ty) (fd : Nat) : ctyOf t.code fd = .std t := by cases t <;> rfl

/-- FD names the narrow one of two types. -/
theorem ctyOf_fd {td ts : CTy} (h : td.isNarrow = true → ts.isNarrow = false) :
    ctyOf td.code (td.fdOf + ts.fdOf) = td ∧ ctyOf ts.code (td.fdOf + ts.fdOf) = ts := by
  cases td <;> cases ts <;> simp_all [CTy.isNarrow, CTy.code, CTy.fdOf]
  all_goals rfl

theorem drainTyOf_code (t : DrainTy) : drainTyOf t.code t.fdOf = t := by cases t <;> rfl

theorem narrow_of_cvtOk {sat : Bool} {td ts : CTy} {m : Rm} (h : cvtOk sat td ts m = true) :
    td.isNarrow = true → ts.isNarrow = false := by
  cases td <;> cases ts <;> simp_all [cvtOk, CTy.isNarrow]
theorem narrow_of_packOk {td ts : CTy} {k : Nat} (h : packOk td ts k = true) : td.isNarrow = true → ts.isNarrow = false := by
  cases td <;> cases ts <;> simp_all [packOk, CTy.isNarrow]
theorem narrow_of_unpackOk {td ts : CTy} {m : Rm} {k : Nat} (h : unpackOk td ts m k = true) :
    td.isNarrow = true → ts.isNarrow = false := by
  cases td <;> cases ts <;> simp_all [unpackOk, CTy.isNarrow]

/-- The form that the bits of a CVINIT choose. -/
theorem cvinit_kind {k : CvKind} (h : k.ok = true) {bk b : Nat} {lit : Option DWord} (hb : k.field.ReadAs bk b lit) :
    (match field k.w2 31 30 with
      | 0 => CvKind.group (field k.w2 3 0)
      | 2 => .mask (mkSrc bk b lit)
      | _ => .warp) = k := by
  cases k with
  | group g =>
    have hg : g < 16 := of_decide_eq_true h
    have h1 : field (CvKind.group g).w2 31 30 = 0 := by
      simp only [field, CvKind.w2]
      omega
    simp only [h1]
    exact congrArg CvKind.group (field_low hg)
  | warp => rfl
  | mask x =>
    have h1 : field (CvKind.mask x).w2 31 30 = 2 := by simp [field, CvKind.w2]
    simp only [h1]
    exact congrArg CvKind.mask hb

/-- The bits of VAR, the lowest field of a modifier word. -/
theorem mword_var (fd opm rm imm tys tyd : Nat) {var k : Nat} (hk : k < 4) :
    field (mword fd opm rm imm tys tyd var) k k = field var k k := by
  unfold field mword
  interval_cases k <;> omega

/-- VAR of MDRAIN. -/
def DrainMods.var (m : DrainMods) : Nat := bit m.rs + 2 * bit m.cs + 4 * bit m.add + 8 * bit m.sp

theorem DrainMods.var_lt (m : DrainMods) : m.var < 16 := by
  have := bit_lt m.rs
  have := bit_lt m.cs
  have := bit_lt m.add
  have := bit_lt m.sp
  unfold DrainMods.var
  omega

theorem DrainMods.var_bits (m : DrainMods) : field m.var 0 0 = bit m.rs ∧ field m.var 1 1 = bit m.cs ∧
    field m.var 2 2 = bit m.add ∧ field m.var 3 3 = bit m.sp := by
  have := bit_lt m.rs
  have := bit_lt m.cs
  have := bit_lt m.add
  have := bit_lt m.sp
  unfold field DrainMods.var
  omega

/-- The modifiers of MDRAIN read back. -/
theorem Raw.drain_eq {r : Raw} {m : DrainMods} (h : m.ok = true) (hw : r.w2 = m.w2) : r.drain = m := by
  have hfd := m.fdOf_lt h
  have hs := m.stile_lt h
  have htd := m.td.code_lt
  have hrm := m.rm.code_lt
  have hv := m.var_lt
  obtain ⟨h0, h1, h2, h3⟩ := m.var_bits
  have hmw : r.w2 = mword m.td.fdOf 0 m.rm.code m.stile 0 m.td.code m.var := hw
  have hstile : field (mword m.td.fdOf 0 m.rm.code m.stile 0 m.td.code m.var) 15 12 = m.stile := by
    unfold field mword
    omega
  have hs' : m.stile < 32 := Nat.lt_trans hs (by decide)
  simp only [Raw.drain, Raw.rm, Raw.var, hmw, hstile, mword_var, mword_tyd htd hv, mword_rm hrm hs' (by decide : 0 < 16) htd hv,
    mword_fd hfd (by decide : 0 < 16) hrm hs' (by decide : 0 < 16) htd hv, h0, h1, h2, h3, drainTyOf_code, Rm.ofCode_code,
    bit_eq_one, Bool.decide_eq_true, Nat.reduceLT]

@[simp] theorem field_zero (hi lo : Nat) : field 0 hi lo = 0 := by simp [field]
@[simp] theorem field_one : field 1 0 0 = 1 := rfl
@[simp] theorem sign_lt (b : Bool) : (if b then 1 else 5) < 16 := by cases b <;> decide
@[simp] theorem sign_eq_one (b : Bool) : (if b then 1 else 5) = 1 ↔ b = true := by cases b <;> decide
@[simp] theorem caint_scratch (b : Bool) : field (2 * bit b) 1 1 = bit b ∧ field (2 * bit b) 0 0 = 0 := by cases b <;> decide
@[simp] theorem caint_tile (b : Bool) : field (1 + 2 * bit b) 1 1 = bit b ∧ field (1 + 2 * bit b) 0 0 = 1 := by
  cases b <;> decide
@[simp] theorem pmrd_fields {n : Nat} (b : Bool) (h : n < 8) : field (n + 8 * bit b) 3 3 = bit b ∧ field (n + 8 * bit b) 2 0 = n := by
  have := bit_lt b
  unfold field
  omega
@[simp] theorem xfence_fields {x y : Nat} (hx : x < 4) (hy : y < 4) :
    field (x + 16 * y) 3 0 = x ∧ field (x + 16 * y) 7 4 = y := by
  unfold field
  omega

/-- The instruction that the fields of a row name. -/
theorem build_of_holds {r : Raw} {i : Instr} {f : Uses} (hf : uses i = some f) (hok : f.ok = true) (h : r.Holds f)
    (hop : r.op = f.op) (hxop : r.xop = f.xop) (hw2 : r.w2 = f.w2) (habs : ∀ w x, f.a = .vs w x → ¬ (r.a = 255 ∧ r.lit = none)) :
    build r = .ok i := by
  obtain ⟨dk, a, d, gn, g, op, u, res, ck, bk, ak, xop, la, c, b, w2, lit⟩ := r
  dsimp only at hop hxop hw2
  unfold uses at hf
  split at hf
  all_goals cases hf
  all_goals
    obtain ⟨hh, hd, ha, hb, hc⟩ := h
    dsimp only [DSpec.ReadAs, FSpec.ReadAs, Nat.sub_zero] at hok hop hxop hw2 hh hd ha hb hc habs
    subst hop hxop hw2 hh
  all_goals try simp only [Bool.and_eq_true, decide_eq_true_eq] at hok
  -- PREF, and where a number is bounded by less than its field
  case h_77.refl =>
    have hok := Nat.lt_trans hok (by decide : 3 < 16)
    simp [build, layoutOf, buildMemory, Raw.srcA, Raw.off, ha, hok]
  all_goals try refine congrArg Except.ok ?_
  all_goals
    try
      simp [hd, ha, hb, hc, hok, build, layoutOf, buildMemory, Raw.dst, Raw.srcA, Raw.srcB, Raw.srcC, Raw.off, Raw.tyd, Raw.tys,
        Raw.rm, Raw.opm, Raw.imm, Raw.w64, Raw.var, Raw.ctd, Raw.cts, Raw.ord, Raw.mty, mty, mtr, mword_tyd, mword_tys,
        mword_imm, mword_rm, mword_opm, mword_bit, field_low]
  case h_54.refl =>
    simp [mword_fd, fdOf_lt_of_cvtOk hok, ctyOf_fd (narrow_of_cvtOk hok)]
  case h_55.refl =>
    simp [mword_fd, mword_rm, mword_imm, fdOf_lt_of_packOk hok, lt_of_packOk hok, ctyOf_fd (narrow_of_packOk hok)]
  case h_56.refl =>
    simp [mword_fd, mword_rm, mword_imm, fdOf_lt_of_unpackOk hok, lt_of_unpackOk hok, ctyOf_fd (narrow_of_unpackOk hok)]
  case h_57.refl =>
    simp [mword_opm, mword_imm, show _ < 32 from Nat.lt_of_le_of_lt hok (by decide)]
  case h_66.refl => simpa using habs 2 _ rfl
  case h_80.refl op ord w d a b c off =>
    by_cases e : op = .cas <;> simp_all
  case h_107.refl => exact cvinit_kind hok hb
  case h_109.refl => exact Raw.drain_eq hok rfl
  case h_128.refl => exact field_low (Nat.lt_of_le_of_lt hok (by decide))

end Sys2Proof
end

section
/-! PROOFS. Every well-formed instruction is what its words decode to. -/
namespace Sys2Proof

/-! ### Extended instructions -/

/-- A vector-or-scalar source is vector 255 only where it reads the literal. -/
theorem FSpec.vs_enc_255 {w : Nat} {x : Src} {lit : Option DWord} (h : (FSpec.vs w x).wf lit.isSome = true)
    (hl : (FSpec.vs w x).litAgrees lit = true) : ¬ ((FSpec.vs w x).enc.2 = 255 ∧ lit = none) := by
  cases x with
  | lit y => simp [FSpec.lit_eq hl rfl]
  | _ => simp_all [FSpec.wf, Src.wf, FSpec.enc]

/-- The fields that the encoder writes name the instruction. -/
theorem build_raw {i : Instr} {f : Uses} (hf : uses i = some f) (h : f.Wf) : build f.raw = .ok i :=
  build_of_holds hf h.ok (Uses.raw_holds h (regular_of_uses hf)) rfl rfl rfl fun w x e => by
    have ha := h.a
    have hl := h.litA
    show ¬ (f.a.enc.2 = 255 ∧ f.lit = none)
    rw [e] at ha hl ⊢
    exact FSpec.vs_enc_255 ha hl

/-- An extended instruction is what its words decode to. -/
theorem decode_encode_ext {i : Instr} {f : Uses} (hf : uses i = some f) (h : f.Wf) (rest : List Nat) :
    decode 256 ([f.w0, f.w1, f.w2] ++ litWords f.lit ++ rest) = .ok i := by
  have hr := regular_of_uses hf
  rw [decode_extWords h hr (xop_lt_of_uses hf h.ok), decodeExt, build_raw hf h]
  simp only [hf, Uses.reason_raw h hr (typed_of_uses hf h.ok) (w2_lt_of_uses hf h.ok)]

/-! ### Base forms -/

theorem mkBase_of_baseOf {i : Instr} {op : Nat} {f : BaseF} (h : baseOf i = some (op, f)) : mkBase op f = some i ∧ op < 64 := by
  unfold baseOf at h
  split at h
  all_goals cases h
  all_goals exact ⟨rfl, by decide⟩

theorem baseOf_of_mkBase {i : Instr} {op : Nat} {f : BaseF} (h : mkBase op f = some i) : baseOf i = some (op, f) := by
  unfold mkBase at h
  split at h
  all_goals cases h
  all_goals rfl

theorem mkBase_none {op : Nat} (h : 64 ≤ op) (f : BaseF) : mkBase op f = none := by
  cases hm : mkBase op f with
  | none => rfl
  | some i => exact absurd (mkBase_of_baseOf (baseOf_of_mkBase hm)).2 (Nat.not_lt.mpr h)

/-- What `BaseF.wf` says, taken apart. -/
structure BaseF.Wf (f : BaseF) (u : Uses) : Prop where
  g : f.g < 8
  mark : u.mark = .f → f.u = false
  d : f.d < 64
  a : f.a < 64
  idxD : u.d ≠ .no → baseIdxOk f.u u.d.regs f.d = true
  idxA : u.a ≠ .no → baseIdxOk f.u u.a.regs f.a = true
  b : u.b ≠ .no → f.b.wf u.b.regs = true
  noD : u.d = .no → f.d = 0
  noA : u.a = .no → f.a = 0
  noB : u.b = .no → f.b = .v 0

theorem BaseF.wf_iff (f : BaseF) (u : Uses) : f.wf u = true ↔ f.Wf u := by
  unfold BaseF.wf
  simp only [Bool.and_eq_true, decide_eq_true_eq]
  constructor
  · rintro ⟨⟨⟨⟨hg, hm⟩, hd⟩, ha⟩, hb⟩
    have hd' : f.d < 64 ∧ (u.d ≠ .no → baseIdxOk f.u u.d.regs f.d = true) ∧ (u.d = .no → f.d = 0) := by
      split at hd <;> simp_all
    have ha' : f.a < 64 ∧ (u.a ≠ .no → baseIdxOk f.u u.a.regs f.a = true) ∧ (u.a = .no → f.a = 0) := by
      split at ha <;> simp_all
    refine ⟨hg, fun e => by simpa [e] using hm, hd'.1, ha'.1, hd'.2.1, ha'.2.1, fun e => by simpa [e] using hb, hd'.2.2, ha'.2.2,
      fun e => by simpa [e] using hb⟩
  · rintro ⟨hg, hm, hd, ha, hd1, ha1, hb, hd0, ha0, hb0⟩
    refine ⟨⟨⟨⟨hg, ?_⟩, ?_⟩, ?_⟩, ?_⟩
    · by_cases e : u.mark = .f <;> simp_all
    · by_cases e : u.d = .no <;> simp_all
    · by_cases e : u.a = .no <;> simp_all
    · by_cases e : u.b = .no <;> simp_all

theorem BaseF.Wf.enc_lt {f : BaseF} {u : Uses} (h : f.Wf u) : f.b.enc.1 < 2 ∧ f.b.enc.2 < 64 := by
  by_cases e : u.b = .no
  · rw [h.noB e]
    decide
  · have hb := h.b e
    cases hf : f.b <;> simp_all [BSrc.wf, BSrc.enc]

theorem mkBSrc_enc (b : BSrc) : mkBSrc b.enc.1 b.enc.2 b.litOf = b := by cases b <;> rfl

/-- The fields of the word that the encoder writes for a base form. -/
theorem BaseF.field_w0 {f : BaseF} {u : Uses} {op : Nat} (h : f.Wf u) (hop : op < 64) :
    f.w0 op % 4 = (if f.b.litOf.isSome then 1 else 0) ∧ field (f.w0 op) 31 31 = f.b.enc.1 ∧
      field (f.w0 op) 30 25 = f.b.enc.2 ∧ field (f.w0 op) 24 19 = f.a ∧ field (f.w0 op) 18 13 = f.d ∧
      field (f.w0 op) 2 2 = bit f.u ∧ field (f.w0 op) 9 3 = op ∧ field (f.w0 op) 12 10 = f.g := by
  obtain ⟨hb1, hb2⟩ := h.enc_lt
  have hg := h.g
  have hd := h.d
  have ha := h.a
  have hu := bit_lt f.u
  have hlen : (if f.b.litOf.isSome = true then 1 else 0) < 2 := by split <;> decide
  unfold field BaseF.w0
  refine ⟨?_, ?_, ?_, ?_, ?_, ?_, ?_, ?_⟩ <;> omega

/-- A word whose fields are those of a base form, decoded. -/
theorem decodeBase_fields {i : Instr} {f : BaseF} {u : Uses} {w : Nat} (hm : mkBase (field w 9 3) f = some i)
    (hu : uses (expand i) = some u) (h : f.Wf u) (h31 : field w 31 31 = f.b.enc.1) (h30 : field w 30 25 = f.b.enc.2)
    (h24 : field w 24 19 = f.a) (h18 : field w 18 13 = f.d) (h2 : field w 2 2 = bit f.u) (h12 : field w 12 10 = f.g) :
    decodeBase 256 w f.b.litOf = .ok i := by
  have hlit : (f.b.litOf.isSome && f.b.enc.2 = 63 && f.b.enc.1 = 0) = f.b.litOf.isSome := by cases f.b <;> rfl
  have hb2 := h.enc_lt.2
  have hd := h.d
  have ha := h.a
  unfold decodeBase
  simp only [h31, h30, h24, h18, h2, h12, mkBSrc_enc, bit_eq_one, Bool.decide_eq_true]
  rw [show mkBase (field w 9 3) { g := f.g, u := f.u, d := f.d, a := f.a, b := f.b } = some i from hm]
  simp only [hu, hlit]
  rw [if_neg, if_neg, if_neg, if_neg, if_neg]
  all_goals simp only [Bool.or_eq_true, Bool.and_eq_true, decide_eq_true_eq, Bool.not_eq_true']
  · rintro ⟨h1, h2⟩
    exact nomatch h1.symm.trans (h.mark h2)
  · rintro ⟨h1, h2 | h2⟩
    · exact nomatch h1.symm.trans h2
    · simp [h.noB h2, BSrc.litOf] at h1
  · omega
  · rintro ((h1 | ⟨h1, h2⟩) | ⟨⟨h1, h2⟩, h3⟩)
    · have hn := h.noD
      have hi := h.idxD
      by_cases e : u.d = .no <;> simp_all
    · exact nomatch (h.idxA h1).symm.trans h2
    · have hb := h.b h1
      cases hf : f.b <;> simp_all [BSrc.wf, BSrc.enc, BSrc.litOf]
  · rintro (⟨h1, h2⟩ | ⟨h1, h2⟩)
    · exact h2 (h.noA h1)
    · simp [h.noB h1, BSrc.enc] at h2

/-- The decoder of base forms takes the word that the encoder writes. -/
theorem decodeBase_w0 {i : Instr} {op : Nat} {f : BaseF} {u : Uses} (hb : baseOf i = some (op, f)) (hu : uses (expand i) = some u)
    (h : f.Wf u) : decodeBase 256 (f.w0 op) f.b.litOf = .ok i := by
  obtain ⟨hm, hop⟩ := mkBase_of_baseOf hb
  obtain ⟨-, h31, h30, h24, h18, h2, h9, h12⟩ := BaseF.field_w0 h hop
  exact decodeBase_fields (by rw [h9, hm]) hu h h31 h30 h24 h18 h2 h12

/-- A base form is what its words decode to. -/
theorem decode_encode_base {i : Instr} {op : Nat} {f : BaseF} {u : Uses} (hb : baseOf i = some (op, f))
    (hu : uses (expand i) = some u) (h : f.Wf u) (rest : List Nat) :
    decode 256 (f.w0 op :: litWords f.b.litOf ++ rest) = .ok i := by
  have hd := decodeBase_w0 hb hu h
  have hlen := (BaseF.field_w0 h (mkBase_of_baseOf hb).2).1
  cases hl : f.b.litOf with
  | none =>
    rw [hl] at hd hlen
    exact (decode_base _ _ _ hlen).trans hd
  | some x =>
    rw [hl] at hd hlen
    have := decode_baseLit 256 (f.w0 op) (x.toNat % 0x100000000) (x.toNat / 0x100000000) rest hlen
    rw [literal_toNat] at this
    exact this.trans hd

/-- Settles O56: a well-formed instruction is a base form or a row of the field table, and each is what its words decode to. -/
theorem encodeDecode : Obligations.EncodeDecode := by
  intro i rest hw hne
  unfold wellFormed at hw
  unfold encode at hne ⊢
  cases hb : baseOf i with
  | some p =>
    obtain ⟨op, f⟩ := p
    rw [hb] at hw
    dsimp only at hw ⊢
    cases hu : uses (expand i) with
    | none => simp [hu] at hw
    | some u =>
      rw [hu] at hw
      exact decode_encode_base hb hu ((BaseF.wf_iff f u).mp hw) rest
  | none =>
    rw [hb] at hw hne
    dsimp only at hw hne ⊢
    cases hu : uses i with
    | none => simp [hu] at hne
    | some u =>
      rw [hu] at hw
      exact decode_encode_ext hu ((Uses.wf_iff u).mp hw) rest

end Sys2Proof
end

section
/-! PROOFS. Whatever decodes is well formed; reserved encodings. -/
namespace Sys2Proof

/-! ### What decodes is well formed -/

theorem mkDst_wf {w dk n : Nat} {u : Bool} (h : (dk = 0 ∧ vecOk w n = true) ∨ (dk = 1 ∧ scaOk w n = true)) (hu : dk = 1 → u = true) :
    (mkDst dk n).wf w u = true := by
  unfold mkDst
  rcases h with ⟨rfl, h⟩ | ⟨rfl, h⟩
  · by_cases e : n = 255 <;> simp [e, Dst.wf, h]
  · by_cases e : n = 63 ∨ n = 255
    · simp [e, Dst.wf]
    · have hn := not_or.mp e
      simp [hn, Dst.wf, h, hu]

/-- A destination field that passes its checks holds a destination of its class. -/
theorem DSpec.wf_of_rangeOk {s : DSpec} {dk n : Nat} {u : Bool} (h : s.ReadAs dk n) (hr : s.rangeOk dk n = true)
    (hu : dk = 1 → u = true) : s.wf u = true := by
  cases s with
  | no => rfl
  | vs w d =>
    subst h
    exact mkDst_wf (by simpa [DSpec.rangeOk] using hr) hu
  | v w d =>
    subst h
    simp only [DSpec.rangeOk, Bool.and_eq_true, decide_eq_true_eq] at hr
    have hw : (mkDst dk n).wf w u = true := mkDst_wf (.inl hr) hu
    obtain ⟨rfl, -⟩ := hr
    have : (mkDst 0 n).isSca = false := by unfold mkDst; split <;> [contradiction; skip]; split <;> rfl
    simp [DSpec.wf, hw, this]
  | sc w d =>
    subst h
    simp only [DSpec.rangeOk, Bool.and_eq_true, decide_eq_true_eq] at hr
    have hw : (mkDst dk n).wf w u = true := mkDst_wf (.inr hr) hu
    obtain ⟨rfl, -⟩ := hr
    have : (mkDst 1 n).isVec = false := by
      unfold mkDst
      by_cases e : n = 63 ∨ n = 255 <;> simp [e, Dst.isVec]
    simp [DSpec.wf, hw, this]
  | pred m =>
    subst h
    exact (Bool.and_eq_true_iff.mp hr).2
  | aux base count m =>
    subst h
    simp only [DSpec.rangeOk, Bool.and_eq_true, decide_eq_true_eq] at hr
    simp only [DSpec.wf, decide_eq_true_eq]
    omega

theorem mkSrc_wf {w k n : Nat} {lit : Option DWord} (h : n = 255 ∨ (k = 1 ∧ scaOk w n = true) ∨ (k ≠ 1 ∧ vecOk w n = true)) :
    (mkSrc k n lit).wf w = true := by
  unfold mkSrc
  by_cases e : n = 255
  · cases lit <;> simp [e, Src.wf]
  · rcases h with h | ⟨rfl, h⟩ | ⟨hk, h⟩
    · exact absurd h e
    · by_cases e' : n = 63 <;> simp [e, e', Src.wf, h]
    · simp [e, hk, Src.wf, h]

/-- A source field that passes its checks holds a source of its class. -/
theorem FSpec.wf_of_rangeOk {s : FSpec} {k n : Nat} {lit : Option DWord} (h : s.ReadAs k n lit)
    (hr : s.rangeOk k n lit.isSome = true) : s.wf lit.isSome = true := by
  cases s with
  | no | absent | blank => rfl
  | vs w x =>
    subst h
    refine mkSrc_wf ?_
    simp only [FSpec.rangeOk] at hr
    split at hr
    · next hk => exact .inr (.inl ⟨hk, hr⟩)
    · next hk => exact .inr (.inr ⟨hk, hr⟩)
  | v w x =>
    subst h
    simp only [FSpec.rangeOk, Bool.and_eq_true, decide_eq_true_eq] at hr
    obtain ⟨rfl, hv⟩ := hr
    have hw : (mkSrc 0 n lit).wf w = true := mkSrc_wf (.inr (.inr ⟨by decide, hv⟩))
    have : (mkSrc 0 n lit).isSca = false ∧ (lit.isSome && (mkSrc 0 n lit).isZero) = false := by
      unfold mkSrc
      by_cases e : n = 255
      · cases lit <;> simp [e, Src.isSca, Src.isZero]
      · simp [e, Src.isSca, Src.isZero]
    simp [FSpec.wf, hw, this]
  | sc w x | scK w x =>
    subst h
    have hs : n = 255 ∨ (k = 1 ∧ scaOk w n = true) := by
      simp only [FSpec.rangeOk, Bool.or_eq_true, Bool.and_eq_true, decide_eq_true_eq] at hr
      tauto
    have hw : (mkSrc k n lit).wf w = true := mkSrc_wf (hs.imp_right .inl)
    have : (mkSrc k n lit).isVec = false := by
      unfold mkSrc
      by_cases e : n = 255
      · cases lit <;> simp [e, Src.isVec]
      · obtain ⟨rfl, -⟩ := hs.resolve_left e
        by_cases e' : n = 63 <;> simp [e, e', Src.isVec]
    simp [FSpec.wf, hw, this]
  | pred m =>
    subst h
    exact (Bool.and_eq_true_iff.mp hr).2
  | aux base count m =>
    subst h
    simp only [FSpec.rangeOk, Bool.and_eq_true, decide_eq_true_eq] at hr
    simp only [FSpec.wf, decide_eq_true_eq]
    omega
  | cq m =>
    subst h
    simp only [FSpec.rangeOk, Bool.and_eq_true, decide_eq_true_eq] at hr
    simp only [FSpec.wf, decide_eq_true_eq]
    omega

/-- A source read from its field holds the literal of the form or none. -/
theorem FSpec.litOf_of_readAs {s : FSpec} {k n : Nat} {lit : Option DWord} (h : s.ReadAs k n lit) :
    s.litOf = none ∨ s.litOf = lit := by
  cases s with
  | vs w x | v w x | sc w x | scK w x =>
    subst h
    by_cases e : n = 255
    · cases lit <;> simp [mkSrc, e, FSpec.litOf]
    · by_cases e' : k = 1 <;> by_cases e'' : n = 63 <;> simp [mkSrc, e, e', e'', FSpec.litOf]
  | _ => exact .inl rfl

/-- A source that reads the literal holds it. -/
theorem FSpec.litOf_of_readsLit {s : FSpec} {k n : Nat} {lit : Option DWord} (h : s.ReadAs k n lit) (hr : s.readsLit n = true) :
    s.litOf = lit := by
  cases s with
  | vs w x | v w x | sc w x | scK w x =>
    subst h
    have e : n = 255 := of_decide_eq_true hr
    cases lit <;> simp [mkSrc, e, FSpec.litOf]
  | _ => exact nomatch hr

theorem FSpec.litAgrees_of_readAs {s : FSpec} {k n : Nat} {lit : Option DWord} (h : s.ReadAs k n lit) :
    s.litAgrees lit = true := by
  rcases FSpec.litOf_of_readAs h with e | e
  · simp [FSpec.litAgrees, e]
  · cases lit <;> simp [FSpec.litAgrees, e]

/-- What the checks of R63 leave of the fields of a form whose types are ones that it defines. -/
structure Raw.Passes (r : Raw) (f : Uses) : Prop where
  ll : f.ll = true ∨ r.la = 0
  dk : r.dk = 1 → r.u ≠ 0
  d : f.d.rangeOk r.dk r.d = true
  a : f.a.rangeOk r.ak r.a r.lit.isSome = true
  b : f.b.rangeOk r.bk r.b r.lit.isSome = true
  c : f.c.rangeOk r.ck r.c r.lit.isSome = true
  lit : r.lit.isSome = true → f.a.readsLit r.a = true ∨ f.b.readsLit r.b = true ∨ f.c.readsLit r.c = true
  forbidden : f.mark = .f → r.u ≠ 1
  required : f.mark = .q → r.u ≠ 0
  guard : ¬ (r.g = 7 ∧ r.gn = 1)

theorem sized_of_typed {f : Uses} (h : f.typed = true) : f.sized = f := if_pos h

@[simp] theorem Uses.sized_ok (f : Uses) : f.sized.ok = f.ok := by unfold Uses.sized; split <;> rfl

/-- A check that gives no reason does not apply. -/
theorem not_of_ite_none {c : Prop} [Decidable c] {e : Nat} {x : Option Nat} (h : (if c then some e else x) = none) :
    ¬ c ∧ x = none := by
  split at h
  · cases h
  · next hc => exact ⟨hc, h⟩

/-- A check that gives no error does not apply. -/
theorem not_of_ite_ok {c : Prop} [Decidable c] {e : Nat} {x : Except Nat Instr} {i : Instr}
    (h : (if c then .error e else x) = .ok i) : ¬ c ∧ x = .ok i := by
  split at h
  · cases h
  · next hc => exact ⟨hc, h⟩

/-- The checks that a form passes which no reason of R63 refuses. -/
theorem reason_none {allot : Nat} {r : Raw} {f : Uses} (h : reason allot r f = none) (ht : f.ok = true → f.typed = true) :
    f.ok = true ∧ r.Passes f := by
  unfold reason at h
  dsimp only at h
  obtain ⟨-, h⟩ := not_of_ite_none h
  obtain ⟨h4, h⟩ := not_of_ite_none h
  obtain ⟨h5, h⟩ := not_of_ite_none h
  obtain ⟨h6, h⟩ := not_of_ite_none h
  obtain ⟨-, h⟩ := not_of_ite_none h
  obtain ⟨h8, h⟩ := not_of_ite_none h
  obtain ⟨h9, h⟩ := not_of_ite_none h
  obtain ⟨h10, h⟩ := not_of_ite_none h
  obtain ⟨h11, -⟩ := not_of_ite_none h
  have hok : f.ok = true := by
    by_contra e
    simp [e] at h11
  rw [sized_of_typed (ht hok)] at *
  simp only [Bool.or_eq_true, Bool.and_eq_true, Bool.not_eq_true', decide_eq_true_eq, not_or, not_and, Bool.not_eq_false] at h4 h5 h6 h8 h9 h10
  obtain ⟨⟨⟨hd, ha⟩, hb⟩, hc⟩ := h6
  refine ⟨hok, ⟨?_, h5, hd, ha, hb, hc, ?_, fun e u => h9.1 u e, fun e u => h9.2 u e, fun e => h10 e.1 e.2⟩⟩
  · by_cases e : r.la = 0
    · exact .inr e
    · exact .inl (h4 e)
  · intro e
    by_contra hn
    simp only [not_or, Bool.not_eq_true] at hn
    obtain ⟨hna, hnb, hnc⟩ := hn
    exact nomatch (h8 ⟨⟨e, hna⟩, hnb⟩).symm.trans hnc

/-- The decoding of an extended instruction: its fields name it, and no reason refuses them. -/
theorem decodeExt_ok {allot : Nat} {r : Raw} {i : Instr} (h : decodeExt allot r = .ok i) :
    ∃ f, build r = .ok i ∧ uses i = some f ∧ reason allot r f = none := by
  unfold decodeExt at h
  split at h
  · cases h
  next j hb =>
  split at h
  · cases h
  next f hf =>
  split at h
  · cases h
  next hr =>
  cases h
  exact ⟨f, hb, hf, hr⟩

/-- A form has the literal that its words carry. -/
theorem Uses.lit_of_holds {r : Raw} {f : Uses} (h : r.Holds f)
    (hl : r.lit.isSome = true → f.a.readsLit r.a = true ∨ f.b.readsLit r.b = true ∨ f.c.readsLit r.c = true) : f.lit = r.lit := by
  have ha := FSpec.litOf_of_readAs h.a
  have hb := FSpec.litOf_of_readAs h.b
  have hc := FSpec.litOf_of_readAs h.c
  have ha' := FSpec.litOf_of_readsLit h.a
  have hb' := FSpec.litOf_of_readsLit h.b
  have hc' := FSpec.litOf_of_readsLit h.c
  unfold Uses.lit
  cases hr : r.lit with
  | none => simp_all
  | some x =>
    rw [hr] at ha hb hc ha' hb' hc'
    rcases ha with ea | ea <;> rcases hb with eb | eb <;> rcases hc with ec | ec <;> simp_all

/-- The words of an extended instruction, whose fields have their widths. -/
structure Raw.Bounded (r : Raw) : Prop where
  g : r.g < 8
  gn : r.gn < 2
  u : r.u < 2
  la : r.la < 16

theorem Raw.bounded_of (w0 w1 w2 : Nat) (lit : Option DWord) : (Raw.of w0 w1 w2 lit).Bounded :=
  ⟨Nat.mod_lt _ (by decide), Nat.mod_lt _ (by decide), Nat.mod_lt _ (by decide), Nat.mod_lt _ (by decide)⟩

/-- A row whose header and operands are those of fields that pass the checks is well formed. -/
theorem Uses.wf_of_passes {r : Raw} {f : Uses} (hr : r.Bounded) (h : r.Holds f) (hok : f.ok = true) (hp : r.Passes f) : f.Wf := by
  have hu : f.h.u = true ↔ r.u = 1 := by simp [← h.hdr, Raw.hdr]
  have hu2 := hr.u
  have hlit := Uses.lit_of_holds h hp.lit
  refine ⟨(Uses.hdrOk_iff f).mpr ?_, hok, DSpec.wf_of_rangeOk h.d hp.d fun e => hu.mpr ?_, ?_, ?_, ?_, ?_, ?_, ?_⟩
  · have hm := hp.guard
    have hll := hp.ll
    refine ⟨?_, ?_, ?_, ?_, fun e => hu.mpr ?_, fun e => ?_⟩
    · rw [← h.hdr]
      exact hr.g
    · simpa [← h.hdr, Raw.hdr] using hm
    · rw [← h.hdr]
      exact hr.la
    · simpa [← h.hdr, Raw.hdr] using hll
    · have := hp.required e
      omega
    · exact Bool.eq_false_iff.mpr fun e' => hp.forbidden e (hu.mp e')
  · have := hp.dk e
    omega
  · rw [hlit]; exact FSpec.wf_of_rangeOk h.a hp.a
  · rw [hlit]; exact FSpec.wf_of_rangeOk h.b hp.b
  · rw [hlit]; exact FSpec.wf_of_rangeOk h.c hp.c
  · rw [hlit]; exact FSpec.litAgrees_of_readAs h.a
  · rw [hlit]; exact FSpec.litAgrees_of_readAs h.b
  · rw [hlit]; exact FSpec.litAgrees_of_readAs h.c

theorem baseOf_of_uses {i : Instr} {f : Uses} (h : uses i = some f) : baseOf i = none := by
  unfold uses at h
  split at h
  all_goals cases h
  all_goals rfl

/-- What an extended form decodes to is well formed. -/
theorem wellFormed_of_decodeExt {allot : Nat} {r : Raw} {i : Instr} (hr : r.Bounded) (h : decodeExt allot r = .ok i) :
    wellFormed i = true := by
  obtain ⟨f, hb, hf, hn⟩ := decodeExt_ok h
  obtain ⟨hok, hp⟩ := reason_none hn (typed_of_uses hf)
  unfold wellFormed
  rw [baseOf_of_uses hf]
  dsimp only
  rw [hf]
  exact (Uses.wf_iff f).mpr (Uses.wf_of_passes hr (holds_of_build hb hf) hok hp)

theorem mkBSrc_wf {w bs b : Nat} {lit : Option DWord} (hb : b < 64)
    (h : (lit.isSome && decide (b = 63) && decide (bs = 0)) = false → baseIdxOk (decide (bs = 1)) w b = true) :
    (mkBSrc bs b lit).wf w = true := by
  unfold mkBSrc
  cases lit with
  | none =>
    have h := h rfl
    by_cases e : bs = 1 <;> simp_all [BSrc.wf]
  | some x =>
    by_cases e : b = 63 ∧ bs = 0
    · simp [e, BSrc.wf]
    · have h := h (by simpa using e)
      simp only [e, if_false]
      by_cases e' : bs = 1 <;> simp_all [BSrc.wf]

/-- What a base form decodes to is well formed. -/
theorem wellFormed_of_decodeBase {allot w : Nat} {lit : Option DWord} {i : Instr} (h : decodeBase allot w lit = .ok i) :
    wellFormed i = true := by
  have hg : field w 12 10 < 8 := Nat.mod_lt _ (by decide)
  have hd : field w 18 13 < 64 := Nat.mod_lt _ (by decide)
  have ha : field w 24 19 < 64 := Nat.mod_lt _ (by decide)
  have hb : field w 30 25 < 64 := Nat.mod_lt _ (by decide)
  have hbs : field w 31 31 < 2 := Nat.mod_lt _ (by decide)
  unfold decodeBase at h
  dsimp only at h
  split at h
  · cases h
  next j hj =>
  split at h
  · cases h
  next u hu =>
  obtain ⟨h3, h⟩ := not_of_ite_ok h
  obtain ⟨h6, h⟩ := not_of_ite_ok h
  obtain ⟨-, h⟩ := not_of_ite_ok h
  obtain ⟨h8, h⟩ := not_of_ite_ok h
  obtain ⟨h9, h⟩ := not_of_ite_ok h
  cases h
  unfold wellFormed
  rw [baseOf_of_mkBase hj]
  dsimp only
  rw [hu]
  refine (BaseF.wf_iff _ u).mpr ?_
  simp only [Bool.or_eq_true, Bool.and_eq_true, Bool.not_eq_true', decide_eq_true_eq, not_or, not_and, Bool.not_eq_false] at h3 h6 h8 h9
  obtain ⟨⟨h6d, h6a⟩, h6b⟩ := h6
  refine ⟨hg, fun e => ?_, hd, ha, fun e => ?_, h6a, fun e => mkBSrc_wf hb fun hl => h6b ⟨e, hl⟩, fun e => ?_, fun e => ?_,
    fun e => ?_⟩
  · exact decide_eq_false fun hu => h9 hu e
  · simpa [e] using h6d
  · simpa [e] using h6d
  · exact not_not.mp (h3.1 e)
  · have hl : lit = none := by
      cases hl : lit with
      | none => rfl
      | some x => exact absurd e (h8 (by simp [hl])).2
    obtain ⟨h30, h31⟩ := h3.2 e
    rw [not_not.mp h30, not_not.mp h31, hl]
    rfl

/-- Whatever decodes is well formed. -/
theorem wellFormed_of_decode {allot : Nat} {ws : List Nat} {i : Instr} (h : decode allot ws = .ok i) : wellFormed i = true := by
  unfold decode at h
  split at h
  · cases h
  · split at h
    · exact wellFormed_of_decodeBase h
    · exact wellFormed_of_decodeBase h
    · exact wellFormed_of_decodeExt (Raw.bounded_of _ _ _ _) h
    · exact wellFormed_of_decodeExt (Raw.bounded_of _ _ _ _) h
    · cases h

/-! ### Reserved encodings -/

theorem layoutOf_none {op : Nat} (h : op ∉ [0x00, 0x01, 0x02, 0x03, 0x04, 0x05, 0x06, 0x10, 0x11, 0x12, 0x13, 0x14, 0x20, 0x21, 0x28,
    0x30, 0x31, 0x32, 0x33, 0x34, 0x35, 0x40, 0x41, 0x48, 0x50, 0x51, 0x58, 0x59, 0x60, 0x68, 0x69]) : layoutOf op = none := by
  unfold layoutOf
  split <;> simp_all

theorem decodeBase_unassigned {allot w : Nat} {lit : Option DWord} (h : 64 ≤ field w 9 3) : decodeBase allot w lit = .error 1 := by
  unfold decodeBase
  simp only [mkBase_none h]

theorem decodeExt_unassigned {allot : Nat} {r : Raw} (h : layoutOf r.op = none) : decodeExt allot r = .error 1 := by
  simp only [decodeExt, build, h]

/-- Group 0x00 has the XOP values 0 to 6. -/
theorem buildPlain_group0 {r : Raw} (hop : r.op = 0) (hx : r.xop ∉ List.range 7) : buildPlain r = none := by
  obtain ⟨dk, a, d, gn, g, op, u, res, ck, bk, ak, xop, la, c, b, w2, lit⟩ := r
  subst hop
  simp only [List.mem_range, not_lt] at hx
  obtain ⟨n, rfl⟩ : ∃ n, xop = n + 7 := ⟨xop - 7, by omega⟩
  rfl

theorem build_group0 {r : Raw} (hop : r.op = 0) : build r = match buildPlain r with
    | some i => .ok i
    | none => .error 2 := by
  rw [build, hop]
  rfl

/-- The reserved bit of W1 comes first. -/
theorem reason_reserved {allot : Nat} {r : Raw} {f : Uses} (h : r.res ≠ 0) : reason allot r f = some 3 := by
  unfold reason
  dsimp only
  rw [if_pos]
  simp [h]

theorem build_iadd {r : Raw} (hop : r.op = 0) (hx : r.xop = 0) : build r = .ok (.iadd r.hdr r.tyd r.dst r.srcA r.srcB) := by
  obtain ⟨dk, a, d, gn, g, op, u, res, ck, bk, ak, xop, la, c, b, w2, lit⟩ := r
  subst hop hx
  rfl

/-- No instruction of group 0x10 is long-latency. -/
theorem ll_of_group10 {r : Raw} {i : Instr} {f : Uses} (hop : r.op = 0x10) (hb : build r = .ok i) (hf : uses i = some f) :
    f.ll = false := by
  obtain ⟨dk, a, d, gn, g, op, u, res, ck, bk, ak, xop, la, c, b, w2, lit⟩ := r
  subst hop
  rcases xop with _ | _ | _ | _ | _ | n <;> cases hb <;> cases hf <;> rfl

/-- Settles O55: each refusal is one check of the decoder, and what passes them all is well formed. -/
theorem reservedEncodings : Obligations.ReservedEncodings := by
  intro allot w0 w1 w2 rest
  have hext : w0 % 4 = 2 → decode allot (w0 :: w1 :: w2 :: rest) = decodeExt allot (Raw.of w0 w1 w2 none) :=
    decode_ext allot w0 w1 w2 rest
  refine ⟨fun h hw => ?_, fun h hw => ?_, fun h hw hx hr => ?_, fun h hw hx => ?_, fun h hg => ?_, fun h hw hla => ?_,
    fun i _ _ _ _ => wellFormed_of_decode⟩
  · rw [decode_base _ _ _ h]
    exact decodeBase_unassigned hw
  · rw [hext h]
    exact decodeExt_unassigned (layoutOf_none hw)
  · rw [hext h, decodeExt, build_iadd hw hx]
    have hres : (Raw.of w0 w1 w2 none).res ≠ 0 := by
      rw [show (Raw.of w0 w1 w2 none).res = 1 from hr]
      decide
    simp only [uses, reason_reserved hres]
  · rw [hext h, decodeExt, build_group0 hw, buildPlain_group0 hw hx]
  · rw [hext h]
    cases hd : decodeExt allot (Raw.of w0 w1 w2 none) with
    | error e => exact ⟨e, rfl⟩
    | ok i =>
      obtain ⟨f, -, hf, hn⟩ := decodeExt_ok hd
      have hg7 : field w0 12 10 = 7 ∧ field w0 13 13 = 1 := by
        unfold field
        omega
      exact absurd hg7 (reason_none hn (typed_of_uses hf)).2.guard
  · rw [hext h]
    cases hd : decodeExt allot (Raw.of w0 w1 w2 none) with
    | error e => exact ⟨e, rfl⟩
    | ok i =>
      obtain ⟨f, hb, hf, hn⟩ := decodeExt_ok hd
      have hll := (reason_none hn (typed_of_uses hf)).2.ll
      rw [ll_of_group10 hw hb hf] at hll
      exact absurd (hll.resolve_left nofun) hla

end Sys2Proof
end

section
/-! PROOFS. Words written out from the encodings. -/
namespace Sys2Proof

/-- Settles O54: each word list is decoded. -/
theorem decodedWords : Obligations.DecodedWords := ⟨rfl, rfl, rfl, rfl, rfl⟩

end Sys2Proof
end

section
/-! PROOFS. Long-latency arithmetic: at issue, and when it completes (spec/03 R58, R59; spec/07 R150). -/
namespace Sys2Proof.Machine

/-! ### At issue -/

/-- A special function becomes pending. -/
theorem pends_of_sfuOp {s : State} {i : Instr} {h : Hdr} {d : Dst} {b : Src} {v : Nat → Res}
    (he : exec i s = sfuOp i h d b v s) (hh : ∀ f, uses (expand i) = some f → f.h = h) :
    Pends s i 1 d fun x => v (s.bk.num x 1 b) := fun f hf => by
  rw [he, ← hh f hf.row]
  exact aluLong_spec s i f 1 d _ _ _ hf fun ts pc t => by rw [Block.advance_num]

/-- An instruction of the FP64 group becomes pending. -/
theorem pends_of_dOp {s : State} {i : Instr} {h : Hdr} {d : Dst} {srcs : List Src} {g : Block → Nat → Res}
    (he : exec i s = dOp i h d srcs g s) (hh : ∀ f, uses (expand i) = some f → f.h = h)
    (hg : ∀ ts pc t, g (s.bk.advance ts pc) t = g s.bk t) : Pends s i 2 d (g s.bk) := fun f hf => by
  rw [he, ← hh f hf.row]
  exact aluLong_spec s i f 2 d _ g _ hf hg

theorem Block.advance_fval (k : Block) (ts : List Nat) (pc : DWord) (t : Nat) (ty : Ty) (x : Src) :
    (k.advance ts pc).fval t ty x = k.fval t ty x := by
  simp [Block.fval]

/-! ### At completion -/

/-- Values of threads on different lanes are values of their lanes. -/
theorem exists_valueOfLane (vals : List (Nat × QWord)) (h : (vals.map fun e => laneOf e.1).Nodup) :
    ∃ F : Nat → QWord, ∀ e ∈ vals, e.2 = F (laneOf e.1) := by
  induction vals with
  | nil => exact ⟨fun _ => 0, by simp⟩
  | cons e vals ih =>
    rw [List.map_cons, List.nodup_cons] at h
    obtain ⟨hnew, hnodup⟩ := h
    obtain ⟨F, hF⟩ := ih hnodup
    refine ⟨Function.update F (laneOf e.1) e.2, fun x hx => ?_⟩
    rcases List.mem_cons.mp hx with rfl | hx
    · simp
    · have hne : laneOf x.1 ≠ laneOf e.1 := fun he => hnew (he ▸ List.mem_map_of_mem hx)
      rw [Function.update_of_ne hne, hF x hx]

/-- %fs of a warp after flags have been set, and that nothing else of the block differs. -/
theorem State.blk_orFlags (s : State) (b wp : Nat) (fl : Flags) (h : s.hasBlk b) :
    ∃ m, (s.orFlags b wp fl).blk b = { s.blk b with warps := m } ∧
      ((s.orFlags b wp fl).blk b).warp wp = { (s.blk b).warp wp with fs := ((s.blk b).warp wp).fs ||| fl } := by
  unfold State.orFlags
  split
  · next hf => subst hf; exact ⟨_, rfl, by simp⟩
  · have hb : (s.updWarp b wp fun w => { w with fs := w.fs ||| fl }).blk b =
        (s.blk b).updWarp wp fun w => { w with fs := w.fs ||| fl } := State.blk_updBlk_self _ _ _ h
    rw [hb]
    exact ⟨_, rfl, by rw [Block.warp_updWarp, if_pos rfl]⟩

theorem State.onlyBlocks_orFlags (s : State) (b wp : Nat) (fl : Flags) : s.OnlyBlocks (s.orFlags b wp fl) := by
  unfold State.orFlags
  split
  · rfl
  · exact State.onlyBlocks_updBlk _ _ _

theorem State.hasBlk_orFlags (s : State) (b wp : Nat) (fl : Flags) (b' : Nat) :
    (s.orFlags b wp fl).hasBlk b' ↔ s.hasBlk b' := by
  unfold State.orFlags
  split
  · rfl
  · exact State.hasBlk_updBlk _ _ _ _

/-- What a completion does: the result is written, %fs of the warp receives the flags, and nothing of the id is pending. -/
theorem State.completePend_spec (s : State) (b : Nat) (p : Pending) (h : s.hasBlk b) (hw : p.warps = []) :
    s.OnlyBlocks (s.completePend b p) ∧ ∃ m, (s.completePend b p).blk b =
      { (s.blk b).writeResult p with warps := m, pend := ((s.blk b).writeResult p).pend.filter fun q => q.id ≠ p.id } ∧
      (Map.get {} m p.warp).fs = (((s.blk b).writeResult p).warp p.warp).fs ||| p.flags := by
  unfold State.completePend State.pendFlags
  rw [if_pos hw, List.foldl_cons, List.foldl_nil]
  set s1 := s.updBlk b fun k => k.writeResult p with hs1
  have hb1 : s1.hasBlk b := (State.hasBlk_updBlk _ _ _ _).mpr h
  have hk1 : s1.blk b = (s.blk b).writeResult p := State.blk_updBlk_self _ _ _ h
  obtain ⟨m, hk2, hm⟩ := State.blk_orFlags s1 b p.warp p.flags hb1
  have hb2 := (State.hasBlk_orFlags s1 b p.warp p.flags b).mpr hb1
  have hk3 : ((s1.orFlags b p.warp p.flags).dropPend b p.id).blk b = _ := State.blk_updBlk_self _ _ _ hb2
  refine ⟨((State.onlyBlocks_updBlk _ _ _).trans (State.onlyBlocks_orFlags _ _ _ _)).trans (State.onlyBlocks_updBlk _ _ _),
    m, ?_, ?_⟩
  · rw [hk3, hk2, hk1]
  · have : Map.get {} m p.warp = ((s1.orFlags b p.warp p.flags).blk b).warp p.warp := by rw [hk2]; rfl
    rw [this, hm, hk1]

/-- The registers that a result of known values writes. -/
theorem Block.vreg_writeResult (k : Block) (p : Pending) (n w : Nat) (vals : List (Nat × QWord)) (tag : Tag)
    (hres : p.result = .regs (.v n) w vals tag) (hn : n + w ≤ 256) (F : Nat → QWord) (hF : ∀ e ∈ vals, e.2 = F (laneOf e.1))
    (wp r l : Nat) (hr : r < 256) (hl : l < 32) :
    (k.writeResult p).vreg wp r l =
      if wp = p.warp ∧ (n ≤ r ∧ r < n + w) ∧ ∃ e ∈ vals, laneOf e.1 = l then wordAt (F l) (r - n) else k.vreg wp r l := by
  unfold Block.writeResult
  rw [hres]
  exact Block.vreg_putDst k p.warp w (.v n) vals tag F hF hn wp r l hr hl

theorem Block.writeResult_eq (k : Block) (p : Pending) :
    ∃ v g r, k.writeResult p = { k with vregs := v, vtags := g, sregs := r } := by
  unfold Block.writeResult
  split
  · exact Block.putDst_eq _ _ _ _ _ _
  · exact ⟨_, _, _, rfl⟩
  · exact ⟨_, _, _, rfl⟩

/-- A step ends in its state when no access left device memory. -/
theorem finish_of_noHole {t : State} (h : t.hole = false) : finish t = .next t := by simp [finish, h]

/-- The completion of the only pending instruction of a block, once its result is known. -/
theorem exec_longLatencyComplete {s : State} {b : Nat} {p : Pending} (hp : (s.blk b).pend = [p]) :
    exec (.longLatencyComplete b 0) s = finish (if p.ready then s.completePend b p else s) := by
  show execLongLatencyComplete b 0 s = _
  simp [execLongLatencyComplete, hp]

/-- Settles O8: at issue by the rule of the long-latency operations on registers, at completion by the three updates that
it makes. -/
theorem longLatencyRules : Obligations.LongLatencyRules := by
  unfold Obligations.LongLatencyRules
  refine ⟨fun s => ⟨fun h rm d b => ?_, fun h d b => ?_, fun h rm d b => ?_, fun h d b => ?_, fun h d b => ?_, fun h d b => ?_,
    fun h d b => ?_, fun h d b => ?_, fun h rm d a b => ?_, fun h rm d a b => ?_, fun h rm d a b c => ?_⟩,
    fun s b p n w vals tag hs hb hp hres hn hw hnd => ⟨fun hr => ?_, fun hr => ?_⟩⟩
  · exact pends_of_sfuOp (v := fun x => frcpVal rm (f32.decode x)) rfl fun f hf => by cases hf; rfl
  · exact pends_of_sfuOp rfl fun f hf => by cases hf; rfl
  · exact pends_of_sfuOp (v := fun x => fsqrtVal rm (f32.decode x)) rfl fun f hf => by cases hf; rfl
  · exact pends_of_sfuOp rfl fun f hf => by cases hf; rfl
  · exact pends_of_sfuOp rfl fun f hf => by cases hf; rfl
  · exact pends_of_sfuOp rfl fun f hf => by cases hf; rfl
  · exact pends_of_sfuOp rfl fun f hf => by cases hf; rfl
  · exact pends_of_sfuOp rfl fun f hf => by cases hf; rfl
  · exact pends_of_dOp (g := fun k t => f64.add rm (k.fval t .f64 a) (k.fval t .f64 b)) rfl (fun f hf => by cases hf; rfl)
      fun ts pc t => by simp only [Block.advance_fval]
  · exact pends_of_dOp (g := fun k t => f64.mul rm (k.fval t .f64 a) (k.fval t .f64 b)) rfl (fun f hf => by cases hf; rfl)
      fun ts pc t => by simp only [Block.advance_fval]
  · exact pends_of_dOp (g := fun k t => f64.fma rm (k.fval t .f64 a) (k.fval t .f64 b) (k.fval t .f64 c)) rfl
      (fun f hf => by cases hf; rfl) fun ts pc t => by simp only [Block.advance_fval]
  · have hexec : exec (.longLatencyComplete b 0) s = finish (s.completePend b p) := by
      rw [exec_longLatencyComplete hp, if_pos hr]
    obtain ⟨ho, m, hk, hfs⟩ := s.completePend_spec b p hb hw
    obtain ⟨F, hF⟩ := exists_valueOfLane vals hnd
    obtain ⟨v, g, r, heq⟩ := (s.blk b).writeResult_eq p
    have hv : ∀ wp r l, r < 256 → l < 32 → ((s.completePend b p).blk b).vreg wp r l =
        if wp = p.warp ∧ (n ≤ r ∧ r < n + w) ∧ ∃ e ∈ vals, laneOf e.1 = l then wordAt (F l) (r - n)
        else (s.blk b).vreg wp r l := fun wp r l hr hl => by
      rw [hk]
      exact (s.blk b).vreg_writeResult p n w vals tag hres hn F hF wp r l hr hl
    refine ⟨_, hexec.trans (finish_of_noHole (ho.hole.trans hs)), ?_, fun e he j hj => ?_, fun wp r q hr hq hno => ?_, ?_, ?_, ?_⟩
    · rw [hk, heq]
      simp [hp]
    · have hlane : laneOf e.1 < 32 := Nat.mod_lt _ (by decide)
      rw [hv p.warp (n + j) (laneOf e.1) (by omega) hlane, if_pos ⟨rfl, by omega, e, he, rfl⟩, hF e he, Nat.add_sub_cancel_left]
    · rw [hv _ _ _ hr hq, if_neg fun ⟨h1, ⟨h2, h3⟩, h4⟩ => hno ⟨h1, h2, h3, h4⟩]
    · have : (((s.completePend b p).blk b).warp p.warp) = Map.get {} m p.warp := by rw [hk]; rfl
      rw [this, hfs, heq]
      rfl
    · rw [ho]
    · rw [hk, heq]
  · rw [exec_longLatencyComplete hp, if_neg (by simp [hr]), finish_of_noHole hs]

end Sys2Proof.Machine
end

section
/-! PROOFS. Exceptions: what stays when threads of a block move or raise them (spec/23 R400, R401). -/
namespace Sys2Proof.Machine

/-! ### What stays when threads of a block move or raise exceptions -/

/-- Threads of block `b` have moved on or raised exceptions: memory, the bundle and the block's registers are as they were,
and a level that was to stop still is. -/
structure State.ThreadsMoved (b : Nat) (s t : State) : Prop where
  mem : t.mem = s.mem
  sel : t.sel = s.sel
  hole : t.hole = s.hole
  hasBlk : s.hasBlk b → t.hasBlk b
  blk : s.hasBlk b → t.blk b =
    { s.blk b with threads := (t.blk b).threads, warps := (t.blk b).warps, pend := (t.blk b).pend }
  umis : s.hasBlk b → ∀ w, ((s.blk b).warp w).umis = true → ((t.blk b).warp w).umis = true
  stops : ∀ l ∈ s.stops, l ∈ t.stops

namespace State.ThreadsMoved

theorem refl (b : Nat) (s : State) : s.ThreadsMoved b s :=
  ⟨rfl, rfl, rfl, id, fun _ => rfl, fun _ _ => id, fun _ => id⟩

theorem trans {b : Nat} {s t u : State} (h : s.ThreadsMoved b t) (g : t.ThreadsMoved b u) : s.ThreadsMoved b u where
  mem := g.mem.trans h.mem
  sel := g.sel.trans h.sel
  hole := g.hole.trans h.hole
  hasBlk hb := g.hasBlk (h.hasBlk hb)
  blk hb := by rw [g.blk (h.hasBlk hb), h.blk hb]
  umis hb w hu := g.umis (h.hasBlk hb) w (h.umis hb w hu)
  stops l hl := g.stops l (h.stops l hl)

theorem sameRegs {b : Nat} {s t : State} (h : s.ThreadsMoved b t) (hb : s.hasBlk b) : (s.blk b).SameRegs (t.blk b) := by
  rw [h.blk hb]
  exact ⟨rfl, rfl, rfl, rfl, rfl, rfl, rfl, rfl, rfl⟩

theorem fn {b : Nat} {s t : State} (h : s.ThreadsMoved b t) (hb : s.hasBlk b) : (t.blk b).fn = (s.blk b).fn := by
  rw [h.blk hb]
theorem lid {b : Nat} {s t : State} (h : s.ThreadsMoved b t) (hb : s.hasBlk b) : (t.blk b).lid = (s.blk b).lid := by
  rw [h.blk hb]
theorem agent {b : Nat} {s t : State} (h : s.ThreadsMoved b t) (hb : s.hasBlk b) : (t.blk b).agent = (s.blk b).agent := by
  rw [h.blk hb]

/-- An update of the block that changes only threads, warps and what is pending. -/
theorem updBlk (s : State) (b : Nat) (f : Block → Block)
    (hf : ∀ k, f k = { k with threads := (f k).threads, warps := (f k).warps, pend := (f k).pend })
    (hu : ∀ k w, (Block.warp k w).umis = true → ((f k).warp w).umis = true) : s.ThreadsMoved b (s.updBlk b f) where
  mem := State.updBlk_mem s b f
  sel := (State.onlyBlocks_updBlk s b f).sel
  hole := (State.onlyBlocks_updBlk s b f).hole
  hasBlk hb := (State.hasBlk_updBlk s b f b).mpr hb
  blk hb := by rw [State.blk_updBlk_self s b f hb]; exact hf _
  umis hb w h := by rw [State.blk_updBlk_self s b f hb]; exact hu _ w h
  stops l hl := by rw [State.onlyBlocks_updBlk s b f]; exact hl

end State.ThreadsMoved

theorem State.threadsMoved_advance (s : State) (b : Nat) (ts : List Nat) (pc : DWord) :
    s.ThreadsMoved b (s.advance b ts pc) := .updBlk s b _ (fun _ => rfl) fun _ _ => id

theorem State.threadsMoved_updThr (s : State) (b t : Nat) (f : Thread → Thread) : s.ThreadsMoved b (s.updThr b t f) :=
  .updBlk s b _ (fun _ => rfl) fun _ _ => id

theorem State.threadsMoved_updWarp (s : State) (b w : Nat) (f : Warp → Warp) (hf : ∀ x, x.umis = true → (f x).umis = true) :
    s.ThreadsMoved b (s.updWarp b w f) := by
  refine .updBlk s b _ (fun _ => rfl) fun k v h => ?_
  rw [Block.warp_updWarp]
  split
  · next hv => subst hv; exact hf _ h
  · exact h

/-- A change of the machine outside its blocks, its memory and the bundle. -/
theorem State.threadsMoved_of_blocks {s t : State} (b : Nat) (hm : t.mem = s.mem) (hs : t.sel = s.sel) (hh : t.hole = s.hole)
    (hb : t.blocks = s.blocks) (hl : ∀ l ∈ s.stops, l ∈ t.stops) : s.ThreadsMoved b t := by
  have hk : t.blk b = s.blk b := by simp [State.blk, hb]
  refine ⟨hm, hs, hh, fun h => ?_, fun _ => by rw [hk], fun _ w h => by rw [hk]; exact h, hl⟩
  simpa [State.hasBlk, hb] using h

/-! ### A raised exception (spec/23 R400, R401) -/

theorem State.mem_addStop (s : State) (fn : Nat) (lid : Word) (lv : Option Nat) : (fn, lid, lv) ∈ (s.addStop fn lid lv).stops := by
  unfold State.addStop
  split
  · next h => simpa using h
  · simp
theorem State.addStop_eq (s : State) (fn : Nat) (lid : Word) (lv : Option Nat) :
    ∃ l, s.addStop fn lid lv = { s with stops := s.stops ++ l } := by
  unfold State.addStop
  split
  · exact ⟨[], by simp⟩
  · exact ⟨_, rfl⟩
theorem State.threadsMoved_addStop (s : State) (b fn : Nat) (lid : Word) (lv : Option Nat) :
    s.ThreadsMoved b (s.addStop fn lid lv) := by
  obtain ⟨l, hl⟩ := s.addStop_eq fn lid lv
  rw [hl]
  exact State.threadsMoved_of_blocks b rfl rfl rfl rfl fun x hx => by simp [hx]
theorem State.blk_addStop (s : State) (fn : Nat) (lid : Word) (lv : Option Nat) (b : Nat) :
    (s.addStop fn lid lv).blk b = s.blk b := by
  obtain ⟨l, hl⟩ := s.addStop_eq fn lid lv
  rw [hl]
  rfl

/-- Where a thread stops that raises an exception (spec/22 R390). -/
def Thread.stopPoint (th : Thread) (e : Exc) : DWord := if th.mode = 1 then th.svcPc else if e.async then th.pc else e.pc
/-- The level that is to receive the exception (spec/23 R400). -/
def Thread.levelOf (th : Thread) (e : Exc) : Option Nat :=
  if launchCode e.code && e.carried.isNone then none else th.tstack.head?.map (·.region)
/-- The exception as the thread holds it. -/
def Thread.heldExc (th : Thread) (e : Exc) : Exc :=
  { e with pc := if e.async then e.pc else th.stopPoint e, level := th.levelOf e }
/-- What an exception makes of the thread that raises it (spec/23 R400; spec/22 R390). -/
def Thread.raise (th : Thread) (e : Exc) : Thread :=
  { th with raised := some (th.heldExc e), pc := th.stopPoint e, mode := if th.mode = 1 then 0 else th.mode }

/-- Can a thread of a block raise an exception? -/
def Block.canRaise (k : Block) (x : Nat) : Prop := k.agent = false ∧ (k.thr x).live = true ∧ (k.thr x).raised = none

theorem State.raiseExc_of_canRaise (s : State) (b x : Nat) (e : Exc) (h : (s.blk b).canRaise x) :
    s.raiseExc b x e = (s.updThr b x fun th => { th with
      raised := some (((s.blk b).thr x).heldExc e), pc := ((s.blk b).thr x).stopPoint e,
      mode := if th.mode = 1 then 0 else th.mode }).addStop (s.blk b).fn (s.blk b).lid (((s.blk b).thr x).levelOf e) := by
  obtain ⟨hagent, hlive, hraised⟩ := h
  unfold State.raiseExc
  dsimp only
  rw [if_neg (by simp [hagent]), if_neg (by simp [hlive, hraised])]
  rfl

theorem State.threadsMoved_raiseExc (s : State) (b x : Nat) (e : Exc) : s.ThreadsMoved b (s.raiseExc b x e) := by
  unfold State.raiseExc
  dsimp only
  split
  · have hw := s.threadsMoved_updWarp b (warpOf x) (fun w => { w with stopped := some (.agentFault e) }) fun _ => id
    exact hw.trans (State.threadsMoved_of_blocks b rfl rfl rfl rfl fun _ => id)
  · split
    · exact .refl b s
    · exact (s.threadsMoved_updThr b x _).trans (State.threadsMoved_addStop _ b _ _ _)

/-- The other threads of the block stay as they are. -/
theorem State.thr_raiseExc_ne (s : State) {b x y : Nat} (e : Exc) (hb : s.hasBlk b) (hy : y ≠ x) :
    ((s.raiseExc b x e).blk b).thr y = (s.blk b).thr y := by
  unfold State.raiseExc
  dsimp only
  split
  · show ((s.updWarp b _ _).blk b).thr y = _
    rw [State.updWarp, State.blk_updBlk_self _ _ _ hb]
    rfl
  · split
    · rfl
    · rw [State.blk_addStop, State.updThr, State.blk_updBlk_self _ _ _ hb, Block.thr_updThr, if_neg hy]

theorem State.thr_raiseExc_self (s : State) {b x : Nat} (e : Exc) (hb : s.hasBlk b) (h : (s.blk b).canRaise x) :
    ((s.raiseExc b x e).blk b).thr x = ((s.blk b).thr x).raise e := by
  rw [s.raiseExc_of_canRaise b x e h, State.blk_addStop, State.updThr, State.blk_updBlk_self _ _ _ hb, Block.thr_updThr,
    if_pos rfl]
  rfl

theorem State.stops_raiseExc (s : State) {b x : Nat} (e : Exc) (h : (s.blk b).canRaise x) :
    ((s.blk b).fn, (s.blk b).lid, ((s.blk b).thr x).levelOf e) ∈ (s.raiseExc b x e).stops := by
  rw [s.raiseExc_of_canRaise b x e h]
  exact State.mem_addStop _ _ _ _

/-! ### An exception at an instruction -/

theorem State.auxOf_eq (s : State) (a : Aux) : ∃ n, (s.auxOf a).2 = { s with tick := n } := by
  cases a <;> exact ⟨_, rfl⟩

theorem State.threadsMoved_raiseAt (s : State) (b x : Nat) (pc : DWord) (code : Word) (a : Aux) :
    s.ThreadsMoved b (s.raiseAt b x pc code a) := by
  obtain ⟨n, hn⟩ := s.auxOf_eq a
  unfold State.raiseAt
  dsimp only
  rw [hn]
  have ht : s.ThreadsMoved b { s with tick := n } := State.threadsMoved_of_blocks b rfl rfl rfl rfl fun _ => id
  exact ht.trans (State.threadsMoved_raiseExc _ b x _)

theorem State.thr_raiseAt_ne (s : State) {b x y : Nat} (pc : DWord) (code : Word) (a : Aux) (hb : s.hasBlk b) (hy : y ≠ x) :
    ((s.raiseAt b x pc code a).blk b).thr y = (s.blk b).thr y := by
  obtain ⟨n, hn⟩ := s.auxOf_eq a
  unfold State.raiseAt
  dsimp only
  rw [hn]
  exact State.thr_raiseExc_ne { s with tick := n } _ hb hy

/-- The thread holds the exception, and its level is to stop. -/
theorem State.raiseAt_spec (s : State) {b x : Nat} (pc : DWord) (code : Word) (a : Aux) (hb : s.hasBlk b)
    (h : (s.blk b).canRaise x) : ∃ e : Exc, e.code = code ∧ e.pc = pc ∧ e.async = false ∧ e.carried = none ∧
      ((s.raiseAt b x pc code a).blk b).thr x = ((s.blk b).thr x).raise e ∧
      ((s.blk b).fn, (s.blk b).lid, ((s.blk b).thr x).levelOf e) ∈ (s.raiseAt b x pc code a).stops := by
  obtain ⟨n, hn⟩ := s.auxOf_eq a
  unfold State.raiseAt
  dsimp only
  rw [hn]
  refine ⟨{ code := code, aux := (s.auxOf a).1, pc := pc }, rfl, rfl, rfl, rfl,
    State.thr_raiseExc_self { s with tick := n } _ hb h, State.stops_raiseExc { s with tick := n } _ h⟩

/-- A thread that holds a synchronous exception of the instruction, with its level about to stop, has raised it. -/
theorem State.raised_of_thr {s t : State} {x : Nat} {e : Exc} (hthr : t.bk.thr x = (s.bk.thr x).raise e)
    (hpc : e.pc = s.sel.pc) (hasync : e.async = false) (hcarried : e.carried = none)
    (hstop : (s.bk.fn, s.bk.lid, (s.bk.thr x).levelOf e) ∈ t.stops) : s.Raised t x e.code := by
  refine ⟨⟨(s.bk.thr x).heldExc e, by rw [hthr]; rfl, rfl, hasync, hcarried, ?_, ?_, hstop⟩, ?_, by rw [hthr]; rfl⟩
  · rw [hthr]
    simp [Thread.heldExc, Thread.raise, hasync]
  · simp [Thread.heldExc, Thread.levelOf, hcarried]
  · rw [hthr]
    simp [Thread.raise, Thread.stopPoint, hasync, hpc]

/-- A state that keeps the thread, and the levels that are to stop, keeps the exception raised. -/
theorem State.Raised.of_thr_eq {s t u : State} {x : Nat} {code : Word} (h : s.Raised t x code)
    (hthr : u.bk.thr x = t.bk.thr x) (hstops : ∀ l ∈ t.stops, l ∈ u.stops) : s.Raised u x code := by
  obtain ⟨⟨e, hraised, hcode, hasync, hcarried, hpc, hlevel, hstop⟩, hstoppc, hmode⟩ := h
  rw [← hthr] at hraised hpc hstoppc hmode
  exact ⟨⟨e, hraised, hcode, hasync, hcarried, hpc, hlevel, hstops _ hstop⟩, hstoppc, hmode⟩

/-! ### Threads taken one after the other -/

/-- An action on one thread of block `b`: it moves that thread alone. -/
structure ActsOnThread (b : Nat) (act : State → Nat → State) : Prop where
  moved : ∀ (s : State) x, s.ThreadsMoved b (act s x)
  others : ∀ (s : State) x y, s.hasBlk b → y ≠ x → ((act s x).blk b).thr y = (s.blk b).thr y

theorem actsOnThread_raiseAt (b : Nat) (pc : DWord) (code : Word) (a : Aux) :
    ActsOnThread b fun s x => s.raiseAt b x pc code a :=
  ⟨fun s x => s.threadsMoved_raiseAt b x pc code a, fun s _ _ hb hy => s.thr_raiseAt_ne pc code a hb hy⟩

section
variable {b : Nat} {act : State → Nat → State} (ha : ActsOnThread b act)
include ha

theorem ActsOnThread.foldl_moved (ts : List Nat) (s : State) : s.ThreadsMoved b (ts.foldl act s) := by
  induction ts generalizing s with
  | nil => exact .refl b s
  | cons x ts ih => exact (ha.moved s x).trans (ih _)

theorem ActsOnThread.foldl_others (ts : List Nat) (s : State) (hb : s.hasBlk b) (y : Nat) (hy : y ∉ ts) :
    ((ts.foldl act s).blk b).thr y = (s.blk b).thr y := by
  induction ts generalizing s with
  | nil => rfl
  | cons x ts ih =>
    obtain ⟨hyx, hyts⟩ := not_or.mp (mt List.mem_cons.mpr hy)
    rw [List.foldl_cons, ih _ ((ha.moved s x).hasBlk hb) hyts, ha.others s x y hb hyx]

/-- The turn of a thread of the list: it starts with the thread as it was, and what it makes of the thread stays. -/
theorem ActsOnThread.foldl_turn (ts : List Nat) (hd : ts.Nodup) (s : State) (hb : s.hasBlk b) (x : Nat) (hx : x ∈ ts) :
    ∃ s1, s.ThreadsMoved b s1 ∧ (s1.blk b).thr x = (s.blk b).thr x ∧ (act s1 x).ThreadsMoved b (ts.foldl act s) ∧
      ((ts.foldl act s).blk b).thr x = ((act s1 x).blk b).thr x := by
  obtain ⟨l, r, rfl⟩ := List.append_of_mem hx
  obtain ⟨hr, hl⟩ : x ∉ r ∧ x ∉ l := by
    have := List.nodup_append.mp hd
    refine ⟨(List.nodup_cons.mp this.2.1).1, fun h => this.2.2 x h x (by simp) rfl⟩
  have h1 := ha.foldl_moved l s
  refine ⟨l.foldl act s, h1, ha.foldl_others l s hb x hl, ?_⟩
  rw [List.foldl_append, List.foldl_cons]
  exact ⟨ha.foldl_moved r _, ha.foldl_others r _ ((ha.moved _ x).hasBlk (h1.hasBlk hb)) x hr⟩

/-- A thread whose turn raises an exception has raised it when all have had theirs. -/
theorem ActsOnThread.raised (ts : List Nat) (hd : ts.Nodup) {s0 s : State} (hm : s0.ThreadsMoved s0.sel.blk s)
    (hsel : s0.sel.blk = b) (hb : s0.hasBlk s0.sel.blk) (code : Word) (x : Nat) (hx : x ∈ ts)
    (hthr : (s.blk b).thr x = s0.bk.thr x) (hact : ∀ u, act u x = u.raiseAt b x s0.sel.pc code .free)
    (hcan : s0.CanRaise x) : s0.Raised (ts.foldl act s) x code := by
  subst hsel
  obtain ⟨s1, hm1, ht1, hm2, ht2⟩ := ha.foldl_turn ts hd s (hm.hasBlk hb) x hx
  have hm01 := hm.trans hm1
  have hm02 := (hm01.trans (ha.moved s1 x)).trans hm2
  have hthr1 : (s1.blk s0.sel.blk).thr x = s0.bk.thr x := ht1.trans hthr
  obtain ⟨hagent, hlive, hraised⟩ := hcan
  have hcan1 : (s1.blk s0.sel.blk).canRaise x := by
    refine ⟨?_, ?_, ?_⟩
    · rw [hm01.agent hb]; exact hagent
    · rw [hthr1]; exact hlive
    · rw [hthr1]; exact hraised
  obtain ⟨e, hcode, hpc, hasync, hcarried, hthr2, hstop⟩ :=
    s1.raiseAt_spec s0.sel.pc code .free (hm01.hasBlk hb) hcan1
  rw [hact s1] at hm2 ht2
  have hbk : (ts.foldl act s).bk = (ts.foldl act s).blk s0.sel.blk := by unfold State.bk; rw [hm02.sel]
  have hfin : (ts.foldl act s).bk.thr x = (s0.bk.thr x).raise e := by rw [hbk, ht2, hthr2, hthr1]
  rw [hthr1, hm01.fn hb, hm01.lid hb] at hstop
  rw [← hcode]
  exact State.raised_of_thr hfin hpc hasync hcarried (hm2.stops _ hstop)

end

/-- Every thread of a list that raises an exception at the instruction holds it. -/
theorem State.raised_raiseAll (s0 s : State) (ts : List Nat) (hd : ts.Nodup) (hm : s0.ThreadsMoved s0.sel.blk s)
    (hb : s0.hasBlk s0.sel.blk) (code : Word) (x : Nat) (hx : x ∈ ts) (hthr : (s.blk s0.sel.blk).thr x = s0.bk.thr x)
    (hcan : s0.CanRaise x) : s0.Raised (s.raiseAll s0.sel.blk ts s0.sel.pc code .free) x code :=
  (actsOnThread_raiseAt s0.sel.blk s0.sel.pc code .free).raised ts hd hm rfl hb code x hx hthr (fun _ => rfl) hcan

theorem State.threadsMoved_raiseAll (s : State) (b : Nat) (ts : List Nat) (pc : DWord) (code : Word) (a : Aux) :
    s.ThreadsMoved b (s.raiseAll b ts pc code a) := (actsOnThread_raiseAt b pc code a).foldl_moved ts s

end Sys2Proof.Machine
end

section
/-! PROOFS. NOP, branches and YIELD (spec/07 R163, R164, R167). -/
namespace Sys2Proof.Machine

/-! ### Threads that go on, each to its own address -/

/-- Threads go on to addresses of their own, and count a window position of what is pending for them. -/
def Block.goTo (k : Block) (ts : List Nat) (f : Nat → DWord) : Block :=
  { k with threads := ts.foldl (fun m t => m.upd {} t fun th => { th with pc := f t }) k.threads,
           pend := countPositions ts k.pend }

theorem Block.advance_eq_goTo (k : Block) (ts : List Nat) (pc : DWord) : k.advance ts pc = k.goTo ts fun _ => pc := rfl

theorem Block.thr_goTo (k : Block) (ts : List Nat) (f : Nat → DWord) (x : Nat) :
    (k.goTo ts f).thr x = if x ∈ ts then { k.thr x with pc := f x } else k.thr x := by
  unfold Block.goTo Block.thr
  exact foldl_updBy_get {} (fun t (th : Thread) => { th with pc := f t }) ts k.threads x fun _ _ => rfl

theorem countPositions_nil (l : List Pending) : countPositions [] l = l := by
  simp [countPositions]

theorem Block.goTo_cons (k : Block) {x : Nat} {ts : List Nat} (f : Nat → DWord) (hx : x ∉ ts) :
    (k.advance [x] (f x)).goTo ts f = k.goTo (x :: ts) f := by
  have hp : countPositions ts (countPositions [x] k.pend) = countPositions (x :: ts) k.pend := by
    refine countPositions_twice [x] ts k.pend (fun y hy => ?_) (x :: ts) fun y => by simp
    obtain ⟨h1, h2⟩ := hy
    simp only [List.mem_singleton] at h1
    exact hx (h1 ▸ h2)
  unfold Block.goTo
  rw [← hp]
  rfl

/-- Threads that go on one after the other have gone on together. -/
theorem State.foldl_advance (b : Nat) (f : Nat → DWord) (ts : List Nat) (hd : ts.Nodup) (s : State) (hb : s.hasBlk b) :
    s.OnlyBlocks (ts.foldl (fun s x => s.advance b [x] (f x)) s) ∧
      (ts.foldl (fun s x => s.advance b [x] (f x)) s).blk b = (s.blk b).goTo ts f ∧
      ∀ c, c ≠ b → (ts.foldl (fun s x => s.advance b [x] (f x)) s).blocks.get none c = s.blocks.get none c := by
  induction ts generalizing s with
  | nil => exact ⟨rfl, by simp [Block.goTo, countPositions_nil], fun _ _ => rfl⟩
  | cons x ts ih =>
    obtain ⟨hx, hd⟩ := List.nodup_cons.mp hd
    obtain ⟨ho, hk, hoth⟩ := ih hd (s.advance b [x] (f x)) ((State.hasBlk_updBlk _ _ _ _).mpr hb)
    rw [List.foldl_cons]
    refine ⟨(State.onlyBlocks_updBlk _ _ _).trans ho, ?_, fun c hc => ?_⟩
    · rw [hk, State.advance, State.blk_updBlk_self _ _ _ hb, Block.goTo_cons _ f hx]
    · rw [hoth c hc, State.advance, State.blocks_updBlk, if_neg hc]

theorem State.nodup_executing {s : State} {h : Hdr} (hd : s.sel.thrs.Nodup) : (s.executing h).Nodup := hd.filter _

/-! ### Instructions that only move threads -/

/-- The threads of the bundle that do not execute. -/
def State.idle (s : State) (h : Hdr) : List Nat := s.sel.thrs.filter fun t => !(s.executing h).contains t
/-- The state in which they have gone on. -/
def State.idleOn (s : State) (h : Hdr) : State := s.advance s.sel.blk (s.idle h) s.sel.next

/-- The context in which an instruction runs for Executing. -/
def State.exeCtx (s : State) (h : Hdr) : Ctx := { s.ctxOf h.u with exe := s.executing h }

theorem issue_of_passes {s : State} {i : Instr} {f : Uses} (h : s.Passes i f) (body : Ctx → State → State) :
    issue i s body = finish (body (s.exeCtx f.h) (s.idleOn f.h)) := issue_spec s i f body h

theorem State.mem_idle (s : State) (h : Hdr) (x : Nat) : x ∈ s.idle h ↔ x ∈ s.sel.thrs ∧ x ∉ s.executing h := by
  simp [State.idle]

section
variable (s : State) (h : Hdr) (hb : s.hasBlk s.sel.blk)
include hb

theorem State.blk_idleOn : (s.idleOn h).blk s.sel.blk = s.bk.advance (s.idle h) s.sel.next :=
  State.blk_updBlk_self _ _ _ hb
theorem State.hasBlk_idleOn : (s.idleOn h).hasBlk s.sel.blk := (State.hasBlk_updBlk _ _ _ _).mpr hb

omit hb in
theorem State.onlyBlocks_idleOn : s.OnlyBlocks (s.idleOn h) := State.onlyBlocks_updBlk _ _ _

/-- After the idle threads have gone on, Executing goes to its targets. -/
theorem State.moved_of_goTo {t : State} (target : Nat → DWord) (ho : (s.idleOn h).OnlyBlocks t)
    (hk : t.blk s.sel.blk = ((s.idleOn h).blk s.sel.blk).goTo (s.executing h) target)
    (hoth : ∀ c, c ≠ s.sel.blk → t.blocks.get none c = (s.idleOn h).blocks.get none c) : s.Moved t h target := by
  have hframe := (s.onlyBlocks_idleOn h).trans ho
  have hbk : t.bk = (s.bk.advance (s.idle h) s.sel.next).goTo (s.executing h) target := by
    rw [← s.blk_idleOn h hb, ← hk, State.bk, hframe.sel]
  refine ⟨⟨fun x => ?_, ?_, ?_, fun c hc => ?_⟩, hframe⟩
  · rw [hbk, Block.thr_goTo, Block.thr_advance]
    by_cases hx : x ∈ s.executing h
    · have : x ∉ s.idle h := fun hi => ((s.mem_idle h x).mp hi).2 hx
      simp [hx, this]
    · by_cases hx' : x ∈ s.sel.thrs
      · simp [hx, hx', (s.mem_idle h x).mpr ⟨hx', hx⟩]
      · have : x ∉ s.idle h := fun hi => hx' ((s.mem_idle h x).mp hi).1
        simp [hx, hx', this]
  · rw [hbk]
    refine countPositions_twice (s.idle h) (s.executing h) s.bk.pend (fun x hx => ?_) _ fun x => ?_
    · exact ((s.mem_idle h x).mp hx.1).2 hx.2
    · rw [State.mem_bundle s h x, or_comm]; rfl
  · rw [hbk]; rfl
  · rw [hoth c hc, State.idleOn, State.advance, State.blocks_updBlk, if_neg hc]

end

/-- NOP sends its bundle on. -/
theorem nopOp_moved {s : State} {i : Instr} {f : Uses} (h : s.Passes i f) :
    ∃ t, nopOp i s = .next t ∧ s.Moved t f.h fun _ => s.sel.next := by
  have hm : s.Moved ((s.idleOn f.h).advance s.sel.blk (s.executing f.h) s.sel.next) f.h fun _ => s.sel.next := by
    refine s.moved_of_goTo f.h h.hasBlk _ (State.onlyBlocks_updBlk _ _ _) ?_ fun c hc => ?_
    · rw [State.advance, State.blk_updBlk_self _ _ _ (s.hasBlk_idleOn f.h h.hasBlk), Block.advance_eq_goTo]
    · rw [State.advance, State.blocks_updBlk, if_neg hc]
  exact ⟨_, (issue_of_passes h _).trans (finish_of_noHole (hm.frame.hole.trans h.noHole)), hm⟩

/-! ### Branches (spec/07 R164) -/

/-- A thread at its branch: it raises ALIGN or goes to its target. -/
def State.branchTo (b : Nat) (pc : DWord) (target : Nat → DWord) (s : State) (x : Nat) : State :=
  if (target x).toNat % 4 ≠ 0 then s.raiseAt b x pc cALIGN .free else s.advance b [x] (target x)

theorem actsOnThread_branchTo (b : Nat) (pc : DWord) (target : Nat → DWord) :
    ActsOnThread b (State.branchTo b pc target) := by
  refine ⟨fun s x => ?_, fun s x y hb hy => ?_⟩
  · unfold State.branchTo
    split
    · exact s.threadsMoved_raiseAt _ _ _ _ _
    · exact s.threadsMoved_advance _ _ _
  · unfold State.branchTo
    split
    · exact s.thr_raiseAt_ne _ _ _ hb hy
    · rw [State.advance, State.blk_updBlk_self _ _ _ hb, Block.thr_advance, if_neg (by simpa using hy)]

section
variable {s : State} {i : Instr} {f : Uses} (h : s.Passes i f) (g : Ctx → Block → Nat → DWord) (target : Nat → DWord)
  (hg : g (s.exeCtx f.h) (s.bk.advance (s.idle f.h) s.sel.next) = target)
include h hg

/-- A branch whose targets are aligned. -/
theorem branch_moved (hal : ∀ x ∈ s.executing f.h, (target x).toNat % 4 = 0) :
    ∃ t, issue i s (fun c s => s.jump c (g c)) = .next t ∧ s.Moved t f.h target := by
  have hstep : ((s.idleOn f.h).jump (s.exeCtx f.h) (g (s.exeCtx f.h))) =
      (s.executing f.h).foldl (fun s' x => s'.advance s.sel.blk [x] (target x)) (s.idleOn f.h) := by
    refine List.foldl_ext _ _ _ fun s' x hx => ?_
    show (if (g (s.exeCtx f.h) ((s.idleOn f.h).blk s.sel.blk) x).toNat % 4 ≠ 0 then _ else
      s'.advance s.sel.blk [x] (g (s.exeCtx f.h) ((s.idleOn f.h).blk s.sel.blk) x)) = _
    rw [s.blk_idleOn f.h h.hasBlk, hg, if_neg (by simp [hal x hx])]
  obtain ⟨ho, hk, hoth⟩ := State.foldl_advance s.sel.blk target _ (State.nodup_executing h.distinct) (s.idleOn f.h)
    (s.hasBlk_idleOn f.h h.hasBlk)
  have hm := s.moved_of_goTo f.h h.hasBlk target ho hk hoth
  refine ⟨_, ?_, hm⟩
  rw [issue_of_passes h, hstep, finish_of_noHole (hm.frame.hole.trans h.noHole)]

/-- A branch raises ALIGN in each thread whose target is misaligned. -/
theorem branch_traps :
    ∃ t, issue i s (fun c s => s.jump c (g c)) = .next t ∧
      (∀ x ∈ (s.executing f.h).filter fun x => (target x).toNat % 4 ≠ 0, s.CanRaise x → s.Raised t x cALIGN) ∧
      t.mem = s.mem ∧ s.bk.SameRegs t.bk := by
  have hb := h.hasBlk
  have ha := actsOnThread_branchTo s.sel.blk s.sel.pc target
  set act := State.branchTo s.sel.blk s.sel.pc target with hact
  have hstep : ((s.idleOn f.h).jump (s.exeCtx f.h) (g (s.exeCtx f.h))) =
      (s.executing f.h).foldl act (s.idleOn f.h) := by
    have hk : g (s.exeCtx f.h) ((s.idleOn f.h).blk s.sel.blk) = target := by rw [s.blk_idleOn f.h hb, hg]
    rw [hact, ← hk]
    rfl
  have hm0 : s.ThreadsMoved s.sel.blk (s.idleOn f.h) := s.threadsMoved_advance _ _ _
  have hm := hm0.trans (ha.foldl_moved (s.executing f.h) _)
  refine ⟨(s.executing f.h).foldl act (s.idleOn f.h), ?_, fun x hx hcan => ?_, hm.mem, ?_⟩
  · rw [issue_of_passes h, hstep, finish_of_noHole (hm.hole.trans h.noHole)]
  · obtain ⟨hx, hmis⟩ := List.mem_filter.mp hx
    refine ha.raised (s.executing f.h) (State.nodup_executing h.distinct) hm0 rfl hb cALIGN x hx ?_ (fun u => ?_) hcan
    · rw [s.blk_idleOn f.h hb, Block.thr_advance, if_neg fun hi => ((s.mem_idle f.h x).mp hi).2 hx]
    · exact if_pos (by simpa using hmis)
  · have := hm.sameRegs hb
    unfold State.bk
    rwa [hm.sel]

end

/-! ### YIELD (spec/07 R167) -/

theorem yield_spec {s : State} {i : Instr} {f : Uses} (h : s.Passes i f) :
    ∃ t, issue i s (fun c s => (s.updWarp c.b c.wp fun w => { w with yielded := true }).advance c.b c.exe c.next) = .next t ∧
      (∀ x, t.bk.thr x = if x ∈ s.sel.thrs then { s.bk.thr x with pc := s.sel.next } else s.bk.thr x) ∧
      (∀ wp, t.bk.warp wp = if wp = s.wp then { s.bk.warp wp with yielded := true } else s.bk.warp wp) ∧
      t.bk = { s.bk with threads := t.bk.threads, warps := t.bk.warps, pend := t.bk.pend } ∧ s.OnlyBundle t := by
  have hb := h.hasBlk
  set s1 := (s.idleOn f.h).updWarp s.sel.blk s.wp fun w => { w with yielded := true } with hs1
  set t := s1.advance s.sel.blk (s.executing f.h) s.sel.next with ht
  have hb0 := s.hasBlk_idleOn f.h hb
  have hb1 : s1.hasBlk s.sel.blk := (State.hasBlk_updBlk _ _ _ _).mpr hb0
  have hsel0 : (s.idleOn f.h).sel = s.sel := (s.onlyBlocks_idleOn f.h).sel
  have hsel1 : s1.sel = s.sel := (State.onlyBlocks_updBlk _ _ _).sel.trans hsel0
  have ho : s.OnlyBundle t := by
    have h0 : s.OnlyBundle (s.idleOn f.h) := State.onlyBundle_updBlk s _
    have h1 : (s.idleOn f.h).OnlyBundle s1 := by
      have := State.onlyBundle_updBlk (s.idleOn f.h) fun k => k.updWarp s.wp fun w => { w with yielded := true }
      rwa [hsel0] at this
    have h2 : s1.OnlyBundle t := by
      have := State.onlyBundle_updBlk s1 fun k => k.advance (s.executing f.h) s.sel.next
      rwa [hsel1] at this
    exact (h0.trans h1).trans h2
  have hbk : t.bk = ((s.bk.advance (s.idle f.h) s.sel.next).updWarp s.wp fun w => { w with yielded := true }).advance
      (s.executing f.h) s.sel.next := by
    rw [State.bk, ho.1.sel, ht, State.advance, State.blk_updBlk_self _ _ _ hb1, hs1, State.updWarp,
      State.blk_updBlk_self _ _ _ hb0, s.blk_idleOn f.h hb]
  refine ⟨t, (issue_of_passes h _).trans (finish_of_noHole (ho.1.hole.trans h.noHole)), fun x => ?_, fun w => ?_, ?_, ho⟩
  · rw [hbk, Block.thr_advance]
    show (if x ∈ s.executing f.h then { (s.bk.advance (s.idle f.h) s.sel.next).thr x with pc := s.sel.next } else
      (s.bk.advance (s.idle f.h) s.sel.next).thr x) = _
    rw [Block.thr_advance]
    by_cases hx : x ∈ s.executing f.h
    · have hx' : x ∈ s.sel.thrs := List.mem_of_mem_filter hx
      have hi : x ∉ s.idle f.h := fun hi => ((s.mem_idle f.h x).mp hi).2 hx
      simp [hx, hx', hi]
    · by_cases hx' : x ∈ s.sel.thrs
      · simp [hx, hx', (s.mem_idle f.h x).mpr ⟨hx', hx⟩]
      · have hi : x ∉ s.idle f.h := fun hi => hx' ((s.mem_idle f.h x).mp hi).1
        simp [hx, hx', hi]
  · rw [hbk, Block.advance_warp, Block.warp_updWarp, Block.advance_warp, Block.advance_warp]
    split
    · next hw => rw [hw]
    · rfl
  · rw [hbk]
    rfl

/-! ### The obligation -/

/-- Settles O10: each instruction by the rule of its kind, with its own targets. -/
theorem branchRules : Obligations.BranchRules := by
  unfold Obligations.BranchRules
  refine ⟨fun s => ⟨fun fb f h => nopOp_moved h, fun hd f h => ?_, fun hd off f h hal => ?_, fun hd a off f h hal => ?_,
    fun hd f h => yield_spec h⟩, fun s => ⟨fun hd off f h hmis => ?_, fun hd a off f h => ?_⟩⟩
  · obtain rfl : f.h = hd := by cases h.row; rfl
    exact nopOp_moved h
  · obtain rfl : f.h = hd := by cases h.row; rfl
    exact branch_moved h (fun c _ _ => addOff c.pc off) (fun _ => addOff s.sel.pc off) rfl fun _ _ => hal
  · obtain rfl : f.h = hd := by cases h.row; rfl
    exact branch_moved h (fun _ k x => addOff (k.pair x a) off) (fun x => addOff (s.bk.pair x a) off)
      (by simp) hal
  · obtain rfl : f.h = hd := by cases h.row; rfl
    have := branch_traps h (fun c _ _ => addOff c.pc off) (fun _ => addOff s.sel.pc off) rfl
    obtain ⟨t, he, hr, hm, hregs⟩ := this
    exact ⟨t, he, fun x hx => hr x (List.mem_filter.mpr ⟨hx, by simpa using hmis⟩), hm, hregs⟩
  · obtain rfl : f.h = hd := by cases h.row; rfl
    exact branch_traps h (fun _ k x => addOff (k.pair x a) off) (fun x => addOff (s.bk.pair x a) off) (by simp)

end Sys2Proof.Machine
end

section
/-! PROOFS. The start of an instruction: false guards, LAHEAD, UMIS and UNIFORM (spec/03 R56, R60; spec/15 R292). -/
namespace Sys2Proof.Machine

/-! ### The start of an instruction that does not run (spec/03 R56, R60; spec/15 R292) -/

theorem State.pmEvent_eq (s : State) (fn id n : Nat) : ∃ x, s.pmEvent fn id n = { s with fns := x } := by
  unfold State.pmEvent
  split
  · exact ⟨_, rfl⟩
  · exact ⟨_, rfl⟩

theorem State.threadsMoved_pmEvent (s : State) (b fn id n : Nat) : s.ThreadsMoved b (s.pmEvent fn id n) := by
  obtain ⟨x, hx⟩ := s.pmEvent_eq fn id n
  rw [hx]
  exact State.threadsMoved_of_blocks b rfl rfl rfl rfl fun _ h => h

/-- The threads of Executing that touch what is pending for them. -/
def State.hazards (s : State) (i : Instr) (f : Uses) : List Nat :=
  (s.executing f.h).filter fun x => s.bk.hazardous x s.wp (touches i f ++ s.bk.tcNames s.wp i)

/-- With every guard false the bundle goes on. -/
theorem State.enter_of_noneExecuting {s : State} (i : Instr) (f : Uses) (h : s.executing f.h = []) :
    s.enter i f = (some { s.ctxOf f.h.u with exe := [] }, s.advance s.sel.blk s.sel.thrs s.sel.next) := by
  have hexe : (s.ctxOf f.h.u).bundle.filter (fun t => ((s.blk (s.ctxOf f.h.u).b).thr t).guard f.h) = [] := h
  unfold State.enter
  dsimp only
  rw [hexe]
  cases hu : f.h.u <;> simp [State.raiseAll, State.ctxOf]

/-- Each thread with a hazard raises LAHEAD; when all of Executing have one, none is left to run. -/
theorem State.enter_of_allHazardous {s : State} (i : Instr) (f : Uses) (hu : f.h.u = false)
    (h : s.hazards i f = s.executing f.h) :
    s.enter i f = (some { s.ctxOf f.h.u with exe := [] },
      (s.raiseAll s.sel.blk (s.executing f.h) s.sel.pc cLAHEAD .free).advance s.sel.blk (s.idle f.h) s.sel.next) := by
  have hexe : (s.ctxOf f.h.u).bundle.filter (fun t => ((s.blk (s.ctxOf f.h.u).b).thr t).guard f.h) = s.executing f.h := rfl
  have hbad : ((s.executing f.h).filter fun t => (s.blk (s.ctxOf f.h.u).b).hazardous t (s.ctxOf f.h.u).wp
      (touches i f ++ (s.blk (s.ctxOf f.h.u).b).tcNames (s.ctxOf f.h.u).wp i)) = s.executing f.h := h
  unfold State.enter
  dsimp only
  rw [hexe, hbad, hu]
  have hok : ((s.executing f.h).filter fun t => !(s.executing f.h).contains t) = [] :=
    List.filter_eq_nil_iff.mpr fun x hx => by simp [hx]
  rw [hok]
  rfl

/-- An instruction marked uniform whose operands differ sets UMIS; where UCHK is set, the whole bundle raises UNIFORM. -/
theorem State.enter_of_notUniform {s : State} (i : Instr) (f : Uses) (hu : f.h.u = true) (hrun : s.executing f.h ≠ [])
    (h : s.hazards i f = []) (hn : s.bk.uniform f s.wp s.sel.thrs = false) (hc : (s.bk.warp s.wp).uchk = true) :
    s.enter i f = (none, ((s.updWarp s.sel.blk s.wp fun w => { w with umis := true }).pmEvent s.bk.fn 0x31 1).raiseAll
      s.sel.blk s.sel.thrs s.sel.pc cUNIFORM .free) := by
  have hexe : (s.ctxOf f.h.u).bundle.filter (fun t => ((s.blk (s.ctxOf f.h.u).b).thr t).guard f.h) = s.executing f.h := rfl
  have hbad : ((s.executing f.h).filter fun t => (s.blk (s.ctxOf f.h.u).b).hazardous t (s.ctxOf f.h.u).wp
      (touches i f ++ (s.blk (s.ctxOf f.h.u).b).tcNames (s.ctxOf f.h.u).wp i)) = [] := h
  have hun : (s.blk (s.ctxOf f.h.u).b).uniform f (s.ctxOf f.h.u).wp (s.ctxOf f.h.u).bundle = false := hn
  have hch : ((s.blk (s.ctxOf f.h.u).b).warp (s.ctxOf f.h.u).wp).uchk = true := hc
  unfold State.enter
  dsimp only
  rw [hexe, hbad, hun, hch]
  simp only [hu, hrun, ne_eq, not_true_eq_false, not_false_eq_true, if_true, if_false, decide_true, Bool.not_false,
    Bool.and_self]
  rfl

/-! ### What the bundle has done then -/

section
variable {s : State} {i : Instr} {f : Uses} (body : Ctx → State → State) (hrow : uses (expand i) = some f)
  (hole : s.hole = false) (hb : s.hasBlk s.sel.blk)
include hrow hole hb

theorem issue_of_noneExecuting (h : s.executing f.h = []) :
    ∃ t, issue i s body = .next t ∧ s.Passed t ∧ t.mem = s.mem := by
  set t := s.advance s.sel.blk s.sel.thrs s.sel.next with ht
  have hm : s.ThreadsMoved s.sel.blk t := s.threadsMoved_advance _ _ _
  have hbk : t.bk = s.bk.advance s.sel.thrs s.sel.next := by
    rw [State.bk, hm.sel, ht, State.advance, State.blk_updBlk_self _ _ _ hb, State.bk]
  refine ⟨t, ?_, ⟨fun x => ?_, ?_, ?_, fun c hc => ?_⟩, hm.mem⟩
  · unfold issue
    rw [hrow]
    dsimp only
    rw [State.enter_of_noneExecuting _ f h]
    exact finish_of_noHole (hm.hole.trans hole)
  · rw [hbk, Block.thr_advance]
  · rw [hbk]
    exact ⟨rfl, rfl, rfl, rfl, rfl, rfl, rfl, rfl, rfl⟩
  · rw [hbk]
    rfl
  · rw [ht, State.advance, State.blocks_updBlk, if_neg hc]

theorem issue_of_allHazardous (hd : s.sel.thrs.Nodup) (hu : f.h.u = false) (h : s.hazards (expand i) f = s.executing f.h) :
    ∃ t, issue i s body = .next t ∧ t.mem = s.mem ∧ s.bk.SameRegs t.bk ∧
      ∀ x ∈ s.executing f.h, s.CanRaise x → s.Raised t x cLAHEAD := by
  set r := s.raiseAll s.sel.blk (s.executing f.h) s.sel.pc cLAHEAD .free with hr
  have hm1 : s.ThreadsMoved s.sel.blk r := s.threadsMoved_raiseAll _ _ _ _ _
  have hm2 : r.ThreadsMoved s.sel.blk (r.advance s.sel.blk (s.idle f.h) s.sel.next) := r.threadsMoved_advance _ _ _
  have hm := hm1.trans hm2
  refine ⟨r.advance s.sel.blk (s.idle f.h) s.sel.next, ?_, hm.mem, ?_, fun x hx hcan => ?_⟩
  · unfold issue
    rw [hrow]
    dsimp only
    rw [State.enter_of_allHazardous _ f hu h]
    exact finish_of_noHole (hm.hole.trans hole)
  · have := hm.sameRegs hb
    unfold State.bk
    rwa [hm.sel]
  · have hraised := s.raised_raiseAll s _ (State.nodup_executing hd) (.refl _ s) hb cLAHEAD x hx rfl hcan
    refine hraised.of_thr_eq ?_ hm2.stops
    rw [State.bk, hm.sel, State.advance, State.blk_updBlk_self _ _ _ (hm1.hasBlk hb), Block.thr_advance,
      if_neg fun hi => ((s.mem_idle f.h x).mp hi).2 hx, State.bk, hm1.sel]

theorem issue_of_notUniform (hd : s.sel.thrs.Nodup) (hu : f.h.u = true) (hrun : s.executing f.h ≠ [])
    (h : s.hazards (expand i) f = []) (hn : s.bk.uniform f s.wp s.sel.thrs = false) (hc : (s.bk.warp s.wp).uchk = true) :
    ∃ t, issue i s body = .next t ∧ (t.bk.warp s.wp).umis = true ∧ t.mem = s.mem ∧ s.bk.SameRegs t.bk ∧
      ∀ x ∈ s.sel.thrs, s.CanRaise x → s.Raised t x cUNIFORM := by
  set m := s.updWarp s.sel.blk s.wp fun w => { w with umis := true } with hmdef
  have hm1 : s.ThreadsMoved s.sel.blk m := s.threadsMoved_updWarp _ _ _ fun _ _ => rfl
  have hmk : m.blk s.sel.blk = s.bk.updWarp s.wp fun w => { w with umis := true } := State.blk_updBlk_self _ _ _ hb
  obtain ⟨fns, hp⟩ := m.pmEvent_eq s.bk.fn 0x31 1
  set p := m.pmEvent s.bk.fn 0x31 1 with hpdef
  have hpk : p.blk s.sel.blk = m.blk s.sel.blk := by rw [hp]; rfl
  have hm2 : s.ThreadsMoved s.sel.blk p := hm1.trans (m.threadsMoved_pmEvent _ _ _ _)
  have hm3 := p.threadsMoved_raiseAll s.sel.blk s.sel.thrs s.sel.pc cUNIFORM .free
  have hm := hm2.trans hm3
  refine ⟨p.raiseAll s.sel.blk s.sel.thrs s.sel.pc cUNIFORM .free, ?_, ?_, hm.mem, ?_, fun x hx hcan => ?_⟩
  · unfold issue
    rw [hrow]
    dsimp only
    rw [State.enter_of_notUniform _ f hu hrun h hn hc]
    exact finish_of_noHole (hm.hole.trans hole)
  · rw [State.bk, hm.sel]
    refine hm3.umis (hm2.hasBlk hb) s.wp ?_
    rw [hpk, hmk, Block.warp_updWarp, if_pos rfl]
  · have := hm.sameRegs hb
    unfold State.bk
    rwa [hm.sel]
  · refine s.raised_raiseAll p _ hd hm2 hb cUNIFORM x hx ?_ hcan
    rw [hpk, hmk]
    rfl

end

/-! ### The obligation -/

/-- Settles O58: the seven instructions begin by the common start of issue, whose three ways out are followed. -/
theorem issueRules : Obligations.IssueRules := by
  unfold Obligations.IssueRules
  intro s i f h ty d a b off ord hole hb hd _ hrow hh hi bad
  subst hh
  obtain ⟨hexp, body, hexec⟩ : expand i = i ∧ ∃ body, exec i s = issue i s body := by
    rcases hi with rfl | rfl | rfl | rfl | rfl | rfl | rfl <;> exact ⟨rfl, _, rfl⟩
  rw [← hexp] at hrow
  rw [hexec]
  refine ⟨issue_of_noneExecuting body hrow hole hb, fun hu hall => ?_, fun hu hrun hnone hn hc => ?_⟩
  · refine issue_of_allHazardous body hrow hole hb hd hu ?_
    rw [hexp]
    exact List.filter_eq_self.mpr hall
  · refine issue_of_notUniform body hrow hole hb hd hu hrun ?_ hn hc
    rw [hexp]
    exact List.filter_eq_nil_iff.mpr fun x hx => by
      rw [Bool.not_eq_true]
      exact hnone x hx

end Sys2Proof.Machine
end

section
/-! PROOFS. A fetch may change memory: the write-back of a side tag (spec/06 R125). -/
namespace Sys2Proof.Machine

/-! ### The fill of a full LLC writes a side tag back (spec/06 R125) -/

theorem State.writePA_launches (s : State) (pa : Nat) (bs : List Byte) : (s.writePA pa bs).launches = s.launches := by
  unfold State.writePA State.unpoison
  dsimp only
  split
  · split <;> rfl
  · rfl
theorem State.tagBack_launches (s : State) (line : Nat) : (s.tagBack line).launches = s.launches := by
  unfold State.tagBack
  split
  · exact s.writePA_launches _ _
  · rfl
theorem State.llcEvict_launches (s : State) (line : Nat) : (s.llcEvict line).launches = s.launches := by
  unfold State.llcEvict
  dsimp only
  split
  · rfl
  · split
    · exact s.tagBack_launches line
    · rfl
theorem State.llcRoom_launches (s : State) (line : Nat) : (s.llcRoom line).launches = s.launches := by
  unfold State.llcRoom
  dsimp only
  generalize (if s.llc.length < llcCap then [] else s.llc.filter fun e => s.home (e.1 * 128) = s.home (line * 128)) = l
  split
  · rfl
  · exact State.llcEvict_launches _ _
theorem State.fillTag_launches (s : State) (n line : Nat) : (s.fillTag n line).launches = s.launches := by
  unfold State.fillTag
  split <;> rfl

/-- A line that the LLC does not hold fills it: beyond the room made, memory and the launches stay. -/
theorem State.llcFill_room (s : State) (line : Nat) (h : s.llc.get 0 line = 0) :
    (s.llcFill line).mem = (s.llcRoom line).mem ∧ (s.llcFill line).launches = s.launches := by
  have hl := s.llcRoom_launches line
  unfold State.llcFill
  dsimp only
  rw [if_neg (by simp [h])]
  split
  · rw [State.fillTag_mem, State.fillTag_launches]
    split <;> exact ⟨rfl, hl⟩
  · exact ⟨rfl, hl⟩

theorem get_mapConst {β : Type} (d v : β) (lines : List Nat) (l : Nat) :
    Map.get d (lines.map fun l => (l, v)) l = if l ∈ lines then v else d := by
  induction lines with
  | nil => rfl
  | cons j js ih =>
    rw [List.map_cons, Map.get_cons, ih]
    by_cases hj : j = l
    · simp [hj]
    · simp [hj, Ne.symm hj]

/-! ### The state that refutes the statement -/

/-- The window of the lines: bytes 0x20000 to 0x20000FFFF, blocks of 16 bytes, scales from 0x1000000000 on. -/
def taggedWindow : Roast := { ctl := 0x20001, limit := 0x200000000, fmt := 0x50100000000, scale := 0x1000000000 }

/-- Thread 0 of block 0 stands at 0x10000, and the LLC holds the lines, all dirty, each with a side tag of 1. -/
def stateWithLlc (lines : List Nat) : State :=
  { blocks := [(0, some probeBlock)], llc := lines.map fun l => (l, 2), sideTags := lines.map fun l => (l, some 1),
    roasts := [(0, taggedWindow)] }

/-- As many lines as an LLC holds, of one home die and all in the window. -/
structure FillsLlc (lines : List Nat) : Prop where
  length : lines.length = llcCap
  inWindow : ∀ l ∈ lines, 0x400 ≤ l ∧ l < 0x4000000
  home : ∀ l ∈ lines, l / 32 % 4 = 0

theorem home_of_noMemory {s : State} (hmem : s.mem = []) (pa : Nat) : s.home pa = pa / 4096 % 4 := by
  simp [State.home, State.byte, hmem, memDefault]

theorem scaledAt_taggedWindow {s : State} (hr : s.roasts = [(0, taggedWindow)]) (l : Nat) (hl : 0x400 ≤ l ∧ l < 0x4000000) :
    s.scaledAt (l * 128) = some 0 := by
  have hw : s.roast 0 = taggedWindow := by rw [State.roast, hr]; rfl
  unfold State.scaledAt
  rw [hr, if_neg (by simp), List.range_succ_eq_map, List.find?_cons_of_pos]
  dsimp only
  rw [hw]
  have h1 : taggedWindow.en = true := by decide
  have h2 : taggedWindow.scaled = true := by decide
  have h3 : taggedWindow.first = 0x20000 := by decide
  have h4 : taggedWindow.last = 0x20000FFFF := by decide
  rw [h1, h2, h3, h4]
  simp only [Bool.and_eq_true, decide_eq_true_eq, true_and]
  omega

section
variable {lines : List Nat} (hf : FillsLlc lines) {s : State} (hmem : s.mem = []) (hllc : s.llc = lines.map fun l => (l, 2))
  (htags : s.sideTags = lines.map fun l => (l, some 1)) (hr : s.roasts = [(0, taggedWindow)])
include hf hmem hllc htags hr

/-- The eviction of one of the lines writes its tag to the scale region. -/
theorem llcEvict_writesTag (l : Nat) (hl : l ∈ lines) :
    ∃ a ≥ 0x1000000000, (s.llcEvict l).mem = Map.setList memDefault [] a (leBytes 8 1) := by
  have hin := hf.inWindow l hl
  have hw : s.roast 0 = taggedWindow := by rw [State.roast, hr]; rfl
  have hx : s.llc.get 0 l = 2 := by rw [hllc, get_mapConst, if_pos hl]
  have ht : s.sideTags.get none l = some 1 := by rw [htags, get_mapConst, if_pos hl]
  have h1 : taggedWindow.sbase = 0x1000000000 := by decide
  have h2 : taggedWindow.first = 0x20000 := by decide
  have h3 : taggedWindow.blockBytes = 16 := by decide
  refine ⟨0x1000000000 + (l * 128 - 0x20000) / 16, by omega, ?_⟩
  have htb : (s.tagBack l).mem =
      (s.writePA (0x1000000000 + (l * 128 - 0x20000) / 16) (leBytes 8 1)).mem := by
    unfold State.tagBack
    rw [ht, scaledAt_taggedWindow hr l hin]
    dsimp only
    rw [hw, h1, h2, h3]
    rfl
  unfold State.llcEvict
  dsimp only
  rw [hx, if_neg (by decide), if_pos rfl]
  show (s.tagBack l).mem = _
  rw [htb, State.writePA_mem, hmem, if_pos]
  have hlen : (leBytes 8 1).length = 8 := by decide
  rw [hlen]
  refine decide_eq_true ?_
  show 0x1000000000 + (l * 128 - 0x20000) / 16 + 8 ≤ 0x2000000000
  omega

/-- Room for the code line is made at the cost of one of the lines. -/
theorem llcRoom_writesTag :
    ∃ a ≥ 0x1000000000, (s.llcRoom 0x200).mem = Map.setList memDefault [] a (leBytes 8 1) := by
  have hlen : s.llc.length = llcCap := by rw [hllc, List.length_map, hf.length]
  have hall : (s.llc.filter fun e => decide (s.home (e.1 * 128) = s.home (0x200 * 128))) = s.llc := by
    rw [List.filter_eq_self]
    intro e he
    rw [hllc] at he
    obtain ⟨l, hl, rfl⟩ := List.mem_map.mp he
    have := hf.home l hl
    rw [home_of_noMemory hmem, home_of_noMemory hmem]
    simp only [decide_eq_true_eq]
    omega
  have hpos : 0 < llcCap := by decide
  have hidx : Config.freeNat s.tick % llcCap < lines.length := by rw [hf.length]; exact Nat.mod_lt _ hpos
  have hchosen : (s.llc[Config.freeNat s.tick % llcCap]?).map (·.1) = some (lines[Config.freeNat s.tick % llcCap]) := by
    rw [hllc, List.getElem?_map, List.getElem?_eq_getElem hidx]
    rfl
  have hfull : ¬ s.llc.length < llcCap := by rw [hlen]; exact lt_irrefl llcCap
  unfold State.llcRoom
  rw [if_neg hfull, hall]
  dsimp only [State.freeNat]
  rw [if_neg hfull, hlen, hchosen]
  exact llcEvict_writesTag hf (s := { s with tick := s.tick + 1 }) hmem hllc htags hr _ (List.getElem_mem hidx)

/-- The fetch of the word at 0x10000 fills the LLC, and so writes memory. -/
theorem touch_writesTag : (s.touch 0x10000 4).launches = s.launches ∧
    ∃ a ≥ 0x1000000000, (s.touch 0x10000 4).mem = Map.setList memDefault [] a (leBytes 8 1) := by
  have hnot : 0x200 ∉ lines := fun h => by have := hf.inWindow _ h; omega
  have hx : s.llc.get 0 0x200 = 0 := by rw [hllc, get_mapConst, if_neg hnot]
  have htouch : s.touch 0x10000 4 = s.llcFill 0x200 := by
    unfold State.touch
    rw [if_neg (by decide), if_neg (by decide)]
    rfl
  obtain ⟨hm, hl⟩ := s.llcFill_room 0x200 hx
  rw [htouch, hm, hl]
  exact ⟨rfl, llcRoom_writesTag hf hmem hllc htags hr⟩

end

/-! ### The fetch in that state -/

theorem byte_belowTag {m : List Host.Cell} {a : Nat} (ha : 0x1000000000 ≤ a)
    (hm : m = Map.setList memDefault [] a (leBytes 8 1)) (j : Nat) (hj : j < 0x1000000000) : Map.get memDefault m j = 0 := by
  rw [hm, Map.get_setList, if_neg (by omega)]
  rfl

theorem mem_ne_nil_of_tag {m : List Host.Cell} {a : Nat} (hm : m = Map.setList memDefault [] a (leBytes 8 1)) : m ≠ [] := by
  intro hnil
  have h1 : Map.get memDefault m a = 1 := by
    rw [hm, Map.get_setList, if_pos (Nat.le_refl a), Nat.sub_self]
    rfl
  rw [hnil, Map.get_nil] at h1
  exact absurd h1 (by decide)

/-- A thread whose last-page register holds the page, and permits the access, is answered from it (spec/21 R373). -/
theorem State.translate_lastPage {s : State} {b t va : Nat} {kind : AccKind} {pg : Xlat}
    (hlast : ((s.blk b).thr t).lastPage = some pg) (hholds : pg.holds (s.blk b).fn va = true)
    (hpermits : pg.permits kind = true) :
    s.translate b t va kind = (.ok pg, s.updThr b t fun th => { th with lastPage := some pg }) := by
  have hhit : (pg.holds (s.blk b).fn va && pg.permits kind) = true := by rw [hholds, hpermits]; rfl
  unfold State.translate
  dsimp only
  simp only [hlast, Option.toList_some, List.append_assoc, List.cons_append, List.find?_cons, hhit]

/-- Where memory and no copy is read, and no fetch has met another value, a fetch may find a word of zero bytes only as 0. -/
theorem codeWords_zero {s : State} (k : Block) (pa : Nat) (hl : s.launches = []) (h : ∀ j < 4, s.byte (pa + j) = 0) :
    s.codeWords k false pa = [0] := by
  have hbyte : ∀ j, s.dieByte false (dieOf k.core) j = s.byte j := fun j => by simp [State.dieByte, State.remote]
  have hnum : s.num pa 4 = 0 := by
    have h0 := h 0 (by decide)
    have h1 := h 1 (by decide)
    have h2 := h 2 (by decide)
    have h3 := h 3 (by decide)
    unfold State.byte at h0 h1 h2 h3
    simp only [State.num, State.readPA, Map.getList, leNat, Nat.add_assoc, Nat.reduceAdd]
    simp only [Nat.add_zero] at h0
    rw [h0, h1, h2, h3]
    rfl
  have hhere : ((List.range 4).map fun j => s.byte (pa + j)) = List.replicate 4 0 := by
    rw [List.eq_replicate_iff]
    refine ⟨by simp, fun x hx => ?_⟩
    obtain ⟨j, hj, rfl⟩ := List.mem_map.mp hx
    exact h j (List.mem_range.mp hj)
  unfold State.codeWords
  simp only [hbyte, hhere, hnum, hl]
  rfl

section
variable {lines : List Nat} (hf : FillsLlc lines)

/-- The state in which the thread's page has been looked up. -/
def lookedUp (lines : List Nat) : State :=
  (stateWithLlc lines).updThr 0 0 fun th => { th with lastPage := some probePage }

theorem translate_stateWithLlc (lines : List Nat) :
    (stateWithLlc lines).translate 0 0 0x10000 .fetch = (.ok probePage, lookedUp lines) :=
  State.translate_lastPage rfl rfl rfl

include hf in
theorem fetchWord_writesTag : ∃ t : State, (stateWithLlc lines).fetchWord 0 0 (addr 0x10000) = (.words [0], t) ∧
    t.mem ≠ [] := by
  have ho : (stateWithLlc lines).OnlyBlocks (lookedUp lines) := by
    unfold lookedUp State.updThr
    exact State.onlyBlocks_updBlk _ _ _
  obtain ⟨hl, a, ha, hm⟩ := touch_writesTag hf (s := lookedUp lines) (by rw [ho]; rfl) (by rw [ho]; rfl) (by rw [ho]; rfl)
    (by rw [ho]; rfl)
  have hl : ((lookedUp lines).touch 0x10000 4).launches = [] := by rw [hl, ho]; rfl
  set t := (lookedUp lines).touch 0x10000 4 with ht
  have hcode : t.codeWords (t.blk 0) false 0x10000 = [0] :=
    codeWords_zero _ _ hl fun j hj => byte_belowTag ha hm _ (by omega)
  refine ⟨t.sawCode (t.blk 0) 0x10000 (BitVec.ofNat 32 (t.num 0x10000 4)), ?_, mem_ne_nil_of_tag hm⟩
  have hpc : (addr 0x10000).toNat = 0x10000 := by decide
  have hpa : probePage.addr 0x10000 = 0x10000 := by decide
  unfold State.fetchWord
  rw [if_neg (by decide), hpc, translate_stateWithLlc]
  dsimp only
  rw [hpa, ← ht, show probePage.decaf = false from rfl, hcode]
  rfl

include hf in
/-- The fetch of a word of no more than memory's zero bytes has written memory. -/
theorem fetch_writesMemory : ∃ t : State, (stateWithLlc lines).fetch 0 0 = (.words [0], t) ∧ t.mem ≠ [] := by
  obtain ⟨t, ht, hm⟩ := fetchWord_writesTag hf
  have hpc : ((stateWithLlc lines).thr 0 0).pc = addr 0x10000 := rfl
  have hmem : (stateWithLlc lines).fetchMem 0 0 = (.words [0], t) := by
    unfold State.fetchMem
    dsimp only
    rw [hpc, ht]
    rfl
  have hbuf : (((stateWithLlc lines).blk 0).warp (warpOf 0)).buffered ((stateWithLlc lines).thr 0 0).pc.toNat = none := rfl
  refine ⟨t.updWarp 0 (warpOf 0) fun w => w.fill (addr 0x10000).toNat [0], ?_, ?_⟩
  · unfold State.fetch
    dsimp only
    rw [hmem, hbuf, hpc]
  · rw [State.updWarp, State.updBlk_mem]
    exact hm

end

/-- Lines of one home die, as many as its LLC holds. -/
def dirtyLines : List Nat := (List.range llcCap).map fun j => 0x400 + j / 32 * 128 + j % 32

theorem fillsLlc_dirtyLines : FillsLlc dirtyLines where
  length := by rw [dirtyLines, List.length_map, List.length_range]
  inWindow l hl := by
    obtain ⟨j, hj, rfl⟩ := List.mem_map.mp hl
    have hj : j < 0x800000 := List.mem_range.mp hj
    omega
  home l hl := by
    obtain ⟨j, _, rfl⟩ := List.mem_map.mp hl
    omega

/-- Refutes O57: a fetch may change memory. The word's line fills the LLC of its home die; in `stateWithLlc dirtyLines` that LLC
is full of dirty lines of a scaled window, so one of them leaves it and its side tag is written to the scale region (spec/06
R125). -/
theorem not_issueSteps : ¬ Obligations.IssueSteps := by
  unfold Obligations.IssueSteps
  rintro ⟨-, hfetch⟩
  have hthr : (stateWithLlc dirtyLines).thr 0 0 = probeThread := rfl
  obtain ⟨ws, t, ht, -, -, hmem, -⟩ := hfetch (stateWithLlc dirtyLines) 0 0 probePage rfl rfl (by decide) (by decide)
    (by rw [hthr]; decide) (by rw [hthr]; decide) (by rw [hthr]; decide) (by decide) (by rw [hthr]; decide)
    (by rw [hthr]; decide) (by rw [hthr]; decide) (by rw [hthr]; decide) (by rw [hthr]; decide) (by rw [hthr]; decide) rfl
  obtain ⟨u, hu, hne⟩ := fetch_writesMemory fillsLlc_dirtyLines
  rw [ht] at hu
  obtain rfl : t = u := (Prod.mk.inj hu).2
  exact hne hmem

end Sys2Proof.Machine
end

section
/-! PROOFS. Roast and watch windows: their control registers, and what an enable and a disable do (spec/06 R123, R124;
spec/17 R327, R328). -/
namespace Sys2Proof.Machine

/-! ### Bits of a control register -/

/-- A number in three parts: the bits of `setBits64` below, inside and above the field that it replaces. -/
theorem setBits64_parts (X lo w v : Nat) :
    X - X / 2 ^ lo % 2 ^ w * 2 ^ lo + v % 2 ^ w * 2 ^ lo =
      2 ^ lo * (2 ^ w * (X / 2 ^ lo / 2 ^ w) + v % 2 ^ w) + X % 2 ^ lo := by
  have hlow : 2 ^ lo * (X / 2 ^ lo) + X % 2 ^ lo = X := Nat.div_add_mod _ _
  have hhigh : 2 ^ w * (X / 2 ^ lo / 2 ^ w) + X / 2 ^ lo % 2 ^ w = X / 2 ^ lo := Nat.div_add_mod _ _
  have hX : 2 ^ lo * (2 ^ w * (X / 2 ^ lo / 2 ^ w)) + 2 ^ lo * (X / 2 ^ lo % 2 ^ w) + X % 2 ^ lo = X := by
    rw [← Nat.mul_add, hhigh, hlow]
  rw [Nat.mul_add, Nat.mul_comm (X / 2 ^ lo % 2 ^ w), Nat.mul_comm (v % 2 ^ w)]
  omega

theorem bitAt_setBits64 (x : DWord) {hi lo i : Nat} (v : Nat) (h : lo ≤ hi) (hi64 : i < 64) :
    bitAt (setBits64 x hi lo v) i = if lo ≤ i ∧ i ≤ hi then v.testBit (i - lo) else bitAt x i := by
  have hx : bitAt x i = x.toNat.testBit i := rfl
  unfold bitAt setBits64 bits64
  rw [setBits64_parts, BitVec.getLsbD_ofNat, Nat.testBit_two_pow_mul_add _ (Nat.mod_lt _ (Nat.two_pow_pos lo)),
    Nat.testBit_two_pow_mul_add _ (Nat.mod_lt _ (Nat.two_pow_pos _)), ← bitAt, hx]
  by_cases hlo : i < lo
  · simp [hi64, hlo, Nat.not_le.mpr hlo, Nat.testBit_mod_two_pow]
  · by_cases hhi : i ≤ hi
    · simp [hi64, hlo, hhi, Nat.le_of_not_lt hlo, Nat.testBit_mod_two_pow, show i - lo < hi + 1 - lo by omega]
    · have hsum : i - lo - (hi + 1 - lo) + (hi + 1 - lo) + lo = i := by omega
      simp only [hi64, hlo, hhi, show ¬i - lo < hi + 1 - lo by omega, decide_true, Bool.true_and, if_false, and_false,
        Nat.testBit_div_two_pow, hsum]

theorem bitAt_bitsMask {hi lo i : Nat} (h : lo ≤ hi) (hi64 : i < 64) :
    bitAt (bitsMask hi lo) i = decide (lo ≤ i ∧ i ≤ hi) := by
  have hmask : 2 ^ (hi + 1) - 2 ^ lo = 2 ^ lo * (2 ^ (hi + 1 - lo) - 1) := by
    rw [Nat.mul_sub_one, ← pow_add, show lo + (hi + 1 - lo) = hi + 1 by omega]
  simp only [bitAt, bitsMask, addr, hmask, BitVec.getLsbD_ofNat, Nat.testBit_two_pow_mul, Nat.testBit_two_pow_sub_one, hi64,
    decide_true, Bool.true_and, ← Bool.decide_and]
  exact decide_eq_decide.mpr (by omega)

theorem bitAt_mergeBits (old v mask : DWord) {i : Nat} (hi64 : i < 64) :
    bitAt (mergeBits old v mask) i = if bitAt mask i then bitAt v i else bitAt old i := by
  simp only [bitAt, mergeBits, BitVec.getLsbD_or, BitVec.getLsbD_and, BitVec.getLsbD_not, hi64, decide_true, Bool.true_and]
  by_cases hm : mask.getLsbD i <;> simp [hm]

theorem bitAt_clearOnes (ctl v : DWord) {i : Nat} (hi64 : i < 64) (hi1 : i ≠ 1) : bitAt (clearOnes ctl v) i = bitAt ctl i := by
  unfold clearOnes
  split
  · rw [bitAt_setBits64 _ _ (Nat.le_refl 1) hi64, if_neg (by omega)]
  · rfl

theorem testBit_bits64 (x : DWord) (hi lo j : Nat) :
    (bits64 x hi lo).testBit j = (decide (j < hi + 1 - lo) && bitAt x (j + lo)) := by
  rw [bits64, Nat.testBit_mod_two_pow, Nat.testBit_div_two_pow]
  rfl

/-- A field is what its bits are. -/
theorem bits64_congr {x y : DWord} {hi lo : Nat} (h : ∀ i, lo ≤ i → i ≤ hi → bitAt x i = bitAt y i) :
    bits64 x hi lo = bits64 y hi lo := by
  refine Nat.eq_of_testBit_eq fun j => ?_
  rw [testBit_bits64, testBit_bits64]
  by_cases hj : j < hi + 1 - lo
  · rw [h (j + lo) (by omega) (by omega)]
  · simp [hj]

/-! ### The control register of a window: BASE, CFGERR and EN -/

/-- What a write leaves in a window that is not enabled: CFGERR by its W1C rule, and BASE as written. -/
abbrev windowCtl (ctl v : DWord) : DWord := mergeBits (clearOnes ctl v) v (bitsMask 51 16)

theorem bitAt_windowCtl_zero (ctl v : DWord) : bitAt (windowCtl ctl v) 0 = bitAt ctl 0 := by
  simp [bitAt_mergeBits, bitAt_bitsMask, bitAt_clearOnes]

theorem bits64_windowCtl_base (ctl v : DWord) : bits64 (windowCtl ctl v) 51 16 = bits64 v 51 16 :=
  bits64_congr fun i hlo hhi => by
    rw [windowCtl, bitAt_mergeBits _ _ _ (by omega), bitAt_bitsMask (by decide) (by omega), if_pos (by simp [hlo, hhi])]

/-- A write of EN and CFGERR leaves BASE alone. -/
theorem bits64_setBits64_base (ctl : DWord) (x : Nat) : bits64 (setBits64 ctl 1 0 x) 51 16 = bits64 ctl 51 16 :=
  bits64_congr fun i hlo hhi => by rw [bitAt_setBits64 _ _ (by decide) (by omega), if_neg (by omega)]

/-! An enable that is accepted sets EN and clears CFGERR; one that is refused does the converse. -/

theorem bitAt_enableCtl_zero (ctl : DWord) (ok : Bool) : bitAt (setBits64 ctl 1 0 (if ok then 1 else 2)) 0 = ok := by
  rw [bitAt_setBits64 _ _ (by decide) (by decide), if_pos (by decide)]
  cases ok <;> rfl
theorem bitAt_enableCtl_one (ctl : DWord) (ok : Bool) : bitAt (setBits64 ctl 1 0 (if ok then 1 else 2)) 1 = !ok := by
  rw [bitAt_setBits64 _ _ (by decide) (by decide), if_pos (by decide)]
  cases ok <;> rfl

/-! ### Updates of windows -/

@[simp] theorem State.updRoast_llc (s : State) (n : Nat) (f : Roast → Roast) : (s.updRoast n f).llc = s.llc := rfl
@[simp] theorem State.roast_updRoast_self (s : State) (n : Nat) (f : Roast → Roast) :
    (s.updRoast n f).roast n = f (s.roast n) := by
  simp [State.roast, State.updRoast]
theorem State.roast_updRoast_ne (s : State) {n m : Nat} (f : Roast → Roast) (h : m ≠ n) :
    (s.updRoast n f).roast m = s.roast m := by
  simp [State.roast, State.updRoast, Map.get_upd_ne, h]

@[simp] theorem State.watch_updWatch_self (s : State) (n : Nat) (f : Watch → Watch) :
    (s.updWatch n f).watch n = f (s.watch n) := by
  simp [State.watch, State.updWatch]
theorem State.watch_updWatch_ne (s : State) {n m : Nat} (f : Watch → Watch) (h : m ≠ n) :
    (s.updWatch n f).watch m = s.watch m := by
  simp [State.watch, State.updWatch, Map.get_upd_ne, h]

/-! ### Tables and memory without some keys -/

theorem Map.get_filter_key {β : Type} (d : β) (p : Nat → Bool) (m : Map β) (k : Nat) :
    Map.get d (m.filter fun e => p e.1) k = if p k then m.get d k else d := by
  induction m with
  | nil => simp
  | cons e m ih =>
    obtain ⟨j, x⟩ := e
    rw [List.filter_cons, Map.get_cons]
    by_cases hj : j = k
    · subst hj
      by_cases hp : p j <;> simp [hp, ih, Map.get_cons]
    · by_cases hp : p j <;> simp [hp, hj, ih, Map.get_cons]

theorem Map.get_clear {β : Type} (d : β) (m : Map β) (k n j : Nat) :
    (m.clear k n).get d j = if k ≤ j ∧ j < k + n then d else m.get d j := by
  rw [Map.clear, Map.get_filter_key d (fun j => decide (j < k) || decide (k + n ≤ j))]
  by_cases h : k ≤ j ∧ j < k + n
  · rw [if_pos h, if_neg (by simp; omega)]
  · rw [if_neg h, if_pos (by simp; omega)]

/-- Zeroing a range of device memory changes memory alone. -/
theorem State.zeroRange_of_inDevice (s : State) {pa n : Nat} (h : pa + n ≤ memEnd) :
    s.zeroRange pa n = { s with mem := Map.clear s.mem pa n } := by
  rw [State.zeroRange, if_pos (by simpa [inDevice] using h)]

/-! ### Roast windows -/

section
variable {s : State} {n : Nat}

/-- The registers of a window of a module that is ready answer. -/
theorem window_answers (hb : s.bootState = 2) (hn : n < 32) : (!s.regsUp || decide (32 ≤ n)) = false := by
  simp [State.regsUp, hb, hn]

/-- Whether a window is valid depends on its control register through BASE alone. -/
theorem State.roastOk_base (s : State) (n : Nat) (w : Roast) {c : DWord} (h : bits64 c 51 16 = bits64 w.ctl 51 16) :
    s.roastOk n { w with ctl := c } = s.roastOk n w := by
  have hfirst : Roast.first { w with ctl := c } = w.first := by simp only [Roast.first, h]
  simp only [State.roastOk, Roast.bytes, hfirst]
  rfl

/-- An enable of a window that is not enabled writes its fields, and EN or CFGERR. -/
theorem exec_roastEnable_disabled {v : DWord} (hs : s.hole = false) (hb : s.bootState = 2) (hn : n < 32)
    (he : (s.roast n).en = false) {w : Roast} (hw : w = { s.roast n with ctl := windowCtl (s.roast n).ctl v }) :
    exec (.roastEnable n v) s =
      .next (s.updRoast n fun _ => { w with ctl := setBits64 w.ctl 1 0 (if s.roastOk n w then 1 else 2) }) := by
  show execRoastEnable n v s = _
  subst hw
  simp only [execRoastEnable, window_answers hb hn, he, Bool.false_eq_true, if_false]
  split <;> exact finish_of_noHole hs

theorem exec_roastEnable_enabled {v : DWord} (hs : s.hole = false) (hb : s.bootState = 2) (hn : n < 32)
    (he : (s.roast n).en = true) :
    exec (.roastEnable n v) s = .next (s.updRoast n fun w => { w with ctl := clearOnes w.ctl v }) := by
  show execRoastEnable n v s = _
  simp only [execRoastEnable, window_answers hb hn, he, Bool.false_eq_true, if_false, if_true]
  exact finish_of_noHole hs

theorem exec_roastDisable_enabled {v : DWord} (hs : s.hole = false) (hb : s.bootState = 2) (hn : n < 32)
    (he : (s.roast n).en = true) :
    exec (.roastDisable n v) s = .next (s.updRoast n fun w => { w with ctl := setBits64 (clearOnes w.ctl v) 2 2 1 }) := by
  show execRoastDisable n v s = _
  simp only [execRoastDisable, window_answers hb hn, he, Bool.false_eq_true, if_false, if_true]
  exact finish_of_noHole hs

/-- Where no cache and no transaction holds data, nothing is written back. -/
theorem State.writeBackLines_of_empty (p : Nat → Bool) (hp : s.pendReg = []) (ho : s.owners = []) (hl2 : s.l2 = [])
    (hd : s.decafs = []) (ht : s.txns = []) (hl1 : ∀ c, (s.core c).l1 = []) : s.writeBackLines p = s := by
  have hpub : s.publishLines p = s := by
    refine List.foldlRecOn (motive := fun t => t = s) s.cores _ rfl fun t ht e _ => ?_
    simp [ht, State.l1Lines, hl1]
  have htxn : s.finishTxns p = s := by simp [State.finishTxns, ht]
  have hnone : ({ s with pendReg := [], owners := [] } : State) = s := by rw [← hp, ← ho]
  simp only [State.writeBackLines, hpub, htxn, hp, ho, List.filter_nil, List.foldl_nil, hnone]
  simp only [hl2, hd, List.filter_nil, List.foldl_nil]

/-- Does a window hold a byte of a line? -/
abbrev Roast.holds (w : Roast) (line : Nat) : Bool := decide (w.first ≤ line * 128) && decide (line * 128 ≤ w.last)

/-- The end of a disable where nothing is left to write back: the window's lines leave the LLC, and EN and BUSY clear. -/
theorem exec_roastDisableDone_of_empty (hs : s.hole = false) (hbusy : bitAt (s.roast n).ctl 2 = true) (hp : s.pendReg = [])
    (ho : s.owners = []) (hl2 : s.l2 = []) (hd : s.decafs = []) (htags : s.sideTags = []) (ht : s.txns = [])
    (hl1 : ∀ c, (s.core c).l1 = []) :
    exec (.roastDisableDone n) s = .next (
      ({ s with llc := s.llc.filter fun e => !(s.roast n).holds e.1 } : State).updRoast n fun w =>
        { w with ctl := setBits64 (setBits64 w.ctl 2 2 0) 0 0 0 }) := by
  show execRoastDisableDone n s = _
  simp only [execRoastDisableDone, hbusy, State.writeBackLines_of_empty _ hp ho hl2 hd ht hl1, htags, List.filter_nil,
    List.foldl_nil, Bool.not_true, Bool.false_eq_true, if_false]
  rw [← htags]
  exact finish_of_noHole hs

/-! ### Watch windows -/

/-- An accepted enable zeroes both maps, advances GEN and sets EN. -/
theorem exec_watchEnable_accepted {v : DWord} (hs : s.hole = false) (hb : s.bootState = 2) (hn : n < 32)
    (he : (s.watch n).en = false) {w : Watch} (hw : w = { s.watch n with ctl := windowCtl (s.watch n).ctl v })
    (hok : s.watchOk n w = true) (hmap : w.mapAt 0 + w.mapAll ≤ memEnd) :
    exec (.watchEnable n v) s = .next (
      ({ s with mem := Map.clear s.mem (w.mapAt 0) w.mapAll } : State).updWatch n fun _ =>
        { w with ctl := setBits64 w.ctl 1 0 1, gen := w.gen + 1 }) := by
  show execWatchEnable n v s = _
  subst hw
  simp only [execWatchEnable, window_answers hb hn, he, hok, State.zeroRange_of_inDevice s hmap, Bool.false_eq_true, if_false,
    if_true]
  exact finish_of_noHole hs

theorem exec_watchEnable_refused {v : DWord} (hs : s.hole = false) (hb : s.bootState = 2) (hn : n < 32)
    (he : (s.watch n).en = false) {w : Watch} (hw : w = { s.watch n with ctl := windowCtl (s.watch n).ctl v })
    (hok : s.watchOk n w = false) :
    exec (.watchEnable n v) s = .next (s.updWatch n fun _ => { w with ctl := setBits64 w.ctl 1 0 2 }) := by
  show execWatchEnable n v s = _
  subst hw
  simp only [execWatchEnable, window_answers hb hn, he, hok, Bool.false_eq_true, if_false]
  exact finish_of_noHole hs

theorem exec_watchEnable_enabled {v : DWord} (hs : s.hole = false) (hb : s.bootState = 2) (hn : n < 32)
    (he : (s.watch n).en = true) :
    exec (.watchEnable n v) s = .next (s.updWatch n fun w => { w with ctl := clearOnes w.ctl v }) := by
  show execWatchEnable n v s = _
  simp only [execWatchEnable, window_answers hb hn, he, Bool.false_eq_true, if_false, if_true]
  exact finish_of_noHole hs

/-- A disable clears EN, or writes the fields of a window that is not enabled; GEN advances in both. -/
theorem exec_watchDisable {v : DWord} (hs : s.hole = false) (hb : s.bootState = 2) (hn : n < 32) :
    exec (.watchDisable n v) s = .next (s.updWatch n fun w =>
      { w with
        ctl := if (s.watch n).en then setBits64 (clearOnes w.ctl v) 0 0 0 else windowCtl w.ctl v
        gen := w.gen + 1 }) := by
  show execWatchDisable n v s = _
  simp only [execWatchDisable, window_answers hb hn, Bool.false_eq_true, if_false]
  cases (s.watch n).en <;> exact finish_of_noHole hs

end

/-! ### The obligation -/

/-- Settles O51: the state after each write is known, and BASE, BUSY, CFGERR and EN are read off its control register. -/
theorem windowRegisters : Obligations.WindowRegisters := by
  intro s n v hs hb hn
  refine ⟨fun he => ?_, fun he => ?_, fun he => ?_, fun hbusy hp ho hl2 hd htags ht hl1 => ?_,
    fun he w hw => ⟨fun hok hmap => ?_, fun hok => ?_⟩, fun he => ?_, ?_⟩
  · refine ⟨_, exec_roastEnable_disabled hs hb hn he rfl, ?_, ?_, ?_, fun m hm => s.roast_updRoast_ne _ hm, rfl⟩
    · simp [bits64_setBits64_base, bits64_windowCtl_base]
    · rw [State.roast_updRoast_self, State.roastOk_base _ _ _ (bits64_setBits64_base _ _)]
      exact bitAt_enableCtl_zero _ _
    · rw [State.roast_updRoast_self, Roast.en, bitAt_enableCtl_zero, bitAt_enableCtl_one]
  · exact ⟨_, exec_roastEnable_enabled hs hb hn he, s.roast_updRoast_self n _, fun m hm => s.roast_updRoast_ne _ hm, rfl⟩
  · refine ⟨_, exec_roastDisable_enabled hs hb hn he, ?_, ?_, rfl⟩
    · simpa [Roast.en, bitAt_setBits64, bitAt_clearOnes] using he
    · simp [bitAt_setBits64]
  · refine ⟨_, exec_roastDisableDone_of_empty hs hbusy hp ho hl2 hd htags ht hl1, ?_, ?_, rfl, fun l hfirst hlast => ?_,
      fun m hm => State.roast_updRoast_ne _ _ hm⟩
    · simp [Roast.en, bitAt_setBits64]
    · simp [bitAt_setBits64]
    · rw [State.updRoast_llc, Map.get_filter_key 0 (fun j => !(s.roast n).holds j), if_neg (by simp [hfirst, hlast])]
  · refine ⟨_, exec_watchEnable_accepted hs hb hn he hw hok hmap, ?_, ?_, fun a => Map.get_clear _ _ _ _ a,
      fun m hm => State.watch_updWatch_ne _ _ hm⟩
    · simp [Watch.en, bitAt_setBits64]
    · simp [hw]
  · refine ⟨_, exec_watchEnable_refused hs hb hn he hw hok, ?_, ?_, ?_, rfl⟩
    · rw [State.watch_updWatch_self]
      exact bitAt_enableCtl_zero w.ctl false
    · rw [State.watch_updWatch_self]
      exact bitAt_enableCtl_one w.ctl false
    · simp [hw]
  · exact ⟨_, exec_watchEnable_enabled hs hb hn he, s.watch_updWatch_self n _, fun m hm => s.watch_updWatch_ne _ hm, rfl⟩
  · refine ⟨_, exec_watchDisable hs hb hn, ?_, ?_, rfl, fun m hm => s.watch_updWatch_ne _ hm⟩
    · cases he : (s.watch n).en
      · simpa [Watch.en, bitAt_windowCtl_zero] using he
      · simp [Watch.en, bitAt_setBits64]
    · simp

end Sys2Proof.Machine
end

section
/-! PROOFS. Instructions on registers: what each computes, by the operation that is its meaning (spec/07 R133..R145). -/
namespace Sys2Proof
open Sys2Proof.Machine

theorem Ty.regs_eq (t : Ty) : t.regs = 1 ∨ t.regs = 2 ∨ t.regs = 4 := by
  unfold Ty.regs; split <;> simp

@[simp] theorem Ty.regs_i32 : Ty.i32.regs = 1 := rfl
@[simp] theorem Ty.regs_n32 : Ty.n32.regs = 1 := rfl
@[simp] theorem Ty.regs_i64 : Ty.i64.regs = 2 := rfl
@[simp] theorem Ty.regs_n64 : Ty.n64.regs = 2 := rfl
@[simp] theorem Ty.bits_i32 : Ty.i32.bits = 32 := rfl
@[simp] theorem Ty.bits_n32 : Ty.n32.bits = 32 := rfl
@[simp] theorem Ty.bits_i64 : Ty.i64.bits = 64 := rfl
@[simp] theorem Ty.bits_n64 : Ty.n64.bits = 64 := rfl

end Sys2Proof

namespace Sys2Proof.Machine

/-! ### Results -/

theorem Computes.congr {s : State} {i : Instr} {w : Nat} {d : Dst} {g g' : Nat → Res} (h : Computes s i w d g)
    (hg : ∀ x, g x = g' x) : Computes s i w d g' := funext hg ▸ h

/-- Where the instruction passes the checks of issue, its destination of `w` registers names registers that a warp has. -/
def FitsAtIssue (i : Instr) (w : Nat) (d : Dst) : Prop := ∀ (s : State) f, s.Passes i f → d.fits w

section
variable {i : Instr} {r : Uses} {w op : Nat} {b : BaseF} {d : Dst}

/-- The destination field of an extended instruction that passes the checks of issue is well formed. -/
theorem State.Passes.dstField_wf {s : State} {f : Uses} (h : s.Passes i f) (hb : baseOf i = none) (hi : expand i = i) :
    f.d.wf f.h.u = true := by
  have hwf := h.wf
  have hrow := h.row
  rw [hi] at hrow
  unfold wellFormed at hwf
  rw [hb] at hwf
  dsimp only at hwf
  rw [hrow] at hwf
  dsimp only [Uses.wf] at hwf
  simp only [Bool.and_eq_true] at hwf
  tauto

theorem fits_ext (hb : baseOf i = none) (hi : expand i = i) (hr : uses i = some r)
    (hd : r.d = .vs w d ∨ r.d = .v w d ∨ r.d = .sc w d) (hw : w = 1 ∨ w = 2 ∨ w = 4) : FitsAtIssue i w d := fun s f h => by
  have hrow := h.row
  rw [hi, hr] at hrow
  cases hrow
  have hwf := h.dstField_wf hb hi
  refine fits_of_dstWf (u := r.h.u) ?_ hw
  rcases hd with hd | hd | hd <;> rw [hd] at hwf
  · exact hwf
  · exact (Bool.and_eq_true _ _ ▸ hwf : _ ∧ _).1
  · exact (Bool.and_eq_true _ _ ▸ hwf : _ ∧ _).1

theorem fits_base (hb : baseOf i = some (op, b)) (hr : uses (expand i) = some r) (hd : r.d = .vs w b.dst)
    (hw : w = 1 ∨ w = 2 ∨ w = 4) : FitsAtIssue i w b.dst := fun s f h => by
  refine h.fits_base hb ?_ hw
  have hrow := h.row
  rw [hr] at hrow
  cases hrow
  exact hd

end

/-! ### Integer operations (spec/07 R134..R137) -/

section
variable {s : State} {i : Instr} {d : Dst} {a b c : Src} {tag : Block → Nat → Tag} {g : Nat → Res}

theorem computes_intOp {F : Int → Int → Int} (ty : Ty) (hf : FitsAtIssue i ty.regs d)
    (he : exec i s = intOp i ty d a b F tag s)
    (hg : ∀ x, (ty.write (F (ty.read (s.bk.num x ty.regs a)) (ty.read (s.bk.num x ty.regs b))), 0) = g x) :
    Computes s i ty.regs d g := by
  dsimp only [intOp] at he
  exact computes_of_alu he (hf s) (by have := ty.regs_eq; omega) fun ts pc x => by simp [← hg]

theorem computes_iaddOp (ty : Ty) (hf : FitsAtIssue i ty.regs d) (he : exec i s = iaddOp i ty d a b s)
    (hg : ∀ x, (ty.write (ty.read (s.bk.num x ty.regs a) + ty.read (s.bk.num x ty.regs b)), 0) = g x) :
    Computes s i ty.regs d g := computes_intOp ty hf he hg
theorem computes_isubOp (ty : Ty) (hf : FitsAtIssue i ty.regs d) (he : exec i s = isubOp i ty d a b s)
    (hg : ∀ x, (ty.write (ty.read (s.bk.num x ty.regs a) - ty.read (s.bk.num x ty.regs b)), 0) = g x) :
    Computes s i ty.regs d g := computes_intOp ty hf he hg
theorem computes_imulOp (ty : Ty) (hf : FitsAtIssue i ty.regs d) (he : exec i s = imulOp i ty d a b s)
    (hg : ∀ x, (ty.write (ty.read (s.bk.num x ty.regs a) * ty.read (s.bk.num x ty.regs b)), 0) = g x) :
    Computes s i ty.regs d g := computes_intOp ty hf he hg
theorem computes_imulhOp (ty : Ty) (hf : FitsAtIssue i ty.regs d) (he : exec i s = imulhOp i ty d a b s)
    (hg : ∀ x, (ty.write (ty.read (s.bk.num x ty.regs a) * ty.read (s.bk.num x ty.regs b) / 2 ^ ty.bits), 0) = g x) :
    Computes s i ty.regs d g := computes_intOp ty hf he hg
theorem computes_iminOp (ty : Ty) (hf : FitsAtIssue i ty.regs d) (he : exec i s = iminOp i ty d a b s)
    (hg : ∀ x, (ty.write (min (ty.read (s.bk.num x ty.regs a)) (ty.read (s.bk.num x ty.regs b))), 0) = g x) :
    Computes s i ty.regs d g := computes_intOp ty hf he hg
theorem computes_imaxOp (ty : Ty) (hf : FitsAtIssue i ty.regs d) (he : exec i s = imaxOp i ty d a b s)
    (hg : ∀ x, (ty.write (max (ty.read (s.bk.num x ty.regs a)) (ty.read (s.bk.num x ty.regs b))), 0) = g x) :
    Computes s i ty.regs d g := computes_intOp ty hf he hg

theorem computes_imadOp {ty : Ty} (hf : FitsAtIssue i ty.regs d) (he : exec i s = imadOp i false ty d a b c s) :
    Computes s i ty.regs d fun x => (ty.write (ty.read (s.bk.num x ty.regs a) * ty.read (s.bk.num x ty.regs b) +
      ty.read (s.bk.num x ty.regs c)), 0) := by
  dsimp only [imadOp] at he
  exact computes_of_alu he (hf s) (by have := ty.regs_eq; omega) fun ts pc x => by simp

theorem computes_imadOp_wide {ty : Ty} (hf : FitsAtIssue i 2 d) (he : exec i s = imadOp i true ty d a b c s) :
    Computes s i 2 d fun x => (modPow (ty.read (s.bk.num x ty.regs a) * ty.read (s.bk.num x ty.regs b) +
      (s.bk.num x 2 c : Int)) 64, 0) := by
  dsimp only [imadOp] at he
  exact computes_of_alu he (hf s) (by decide) fun ts pc x => by simp

theorem computes_leaOp (ty : Ty) (sh : Nat) (hf : FitsAtIssue i 2 d) (he : exec i s = leaOp i ty sh d a b s)
    (hg : ∀ x, (modPow ((s.bk.num x 2 a : Int) + ty.read (s.bk.num x ty.regs b) * 2 ^ sh) 64, 0) = g x) :
    Computes s i 2 d g := by
  dsimp only [leaOp] at he
  exact computes_of_alu he (hf s) (by decide) fun ts pc x => by simp [← hg]

theorem computes_idot4Op {sa sb : Bool} (hf : FitsAtIssue i 1 d) (he : exec i s = idot4Op i sa sb d a b c s) :
    Computes s i 1 d fun x => (modPow ((List.range 4).foldl (fun z j => z + byteOf sa (s.bk.num x 1 a) j *
      byteOf sb (s.bk.num x 1 b) j) (Ty.i32.read (s.bk.num x 1 c))) 32, 0) := by
  dsimp only [idot4Op] at he
  exact computes_of_alu he (hf s) (by decide) fun ts pc x => by simp

theorem computes_logicOp {F : Nat → Nat → Nat} (w64 : Bool) (hf : FitsAtIssue i (nTy w64).regs d)
    (he : exec i s = logicOp i w64 d a b F s)
    (hg : ∀ x, (F (s.bk.num x (nTy w64).regs a) (s.bk.num x (nTy w64).regs b), 0) = g x) :
    Computes s i (nTy w64).regs d g := by
  dsimp only [logicOp] at he
  exact computes_of_alu he (hf s) (by cases w64 <;> decide) fun ts pc x => by simp [← hg]

theorem computes_andOp (w64 : Bool) (hf : FitsAtIssue i (nTy w64).regs d) (he : exec i s = andOp i w64 d a b s)
    (hg : ∀ x, (s.bk.num x (nTy w64).regs a &&& s.bk.num x (nTy w64).regs b, 0) = g x) : Computes s i (nTy w64).regs d g :=
  computes_logicOp w64 hf he hg
theorem computes_orOp (w64 : Bool) (hf : FitsAtIssue i (nTy w64).regs d) (he : exec i s = orOp i w64 d a b s)
    (hg : ∀ x, (s.bk.num x (nTy w64).regs a ||| s.bk.num x (nTy w64).regs b, 0) = g x) : Computes s i (nTy w64).regs d g :=
  computes_logicOp w64 hf he hg
theorem computes_xorOp (w64 : Bool) (hf : FitsAtIssue i (nTy w64).regs d) (he : exec i s = xorOp i w64 d a b s)
    (hg : ∀ x, (s.bk.num x (nTy w64).regs a ^^^ s.bk.num x (nTy w64).regs b, 0) = g x) : Computes s i (nTy w64).regs d g :=
  computes_logicOp w64 hf he hg

theorem computes_shiftOp {F : Nat → Nat → Nat → Nat} (w64 : Bool) (hf : FitsAtIssue i (nTy w64).regs d)
    (he : exec i s = shiftOp i w64 d a b F tag s)
    (hg : ∀ x, (F (nTy w64).bits (s.bk.num x (nTy w64).regs a) (s.bk.num x 1 b), 0) = g x) :
    Computes s i (nTy w64).regs d g := by
  dsimp only [shiftOp] at he
  exact computes_of_alu he (hf s) (by cases w64 <;> decide) fun ts pc x => by simp [← hg]

theorem computes_shlOp (w64 : Bool) (hf : FitsAtIssue i (nTy w64).regs d) (he : exec i s = shlOp i w64 d a b s)
    (hg : ∀ x, (if (nTy w64).bits ≤ s.bk.num x 1 b then 0
      else s.bk.num x (nTy w64).regs a * 2 ^ s.bk.num x 1 b % 2 ^ (nTy w64).bits, 0) = g x) : Computes s i (nTy w64).regs d g :=
  computes_shiftOp w64 hf he hg
theorem computes_shrOp (w64 : Bool) (hf : FitsAtIssue i (nTy w64).regs d) (he : exec i s = shrOp i w64 d a b s)
    (hg : ∀ x, (if (nTy w64).bits ≤ s.bk.num x 1 b then 0 else s.bk.num x (nTy w64).regs a / 2 ^ s.bk.num x 1 b, 0) = g x) :
    Computes s i (nTy w64).regs d g := computes_shiftOp w64 hf he hg
theorem computes_sarOp (w64 : Bool) (hf : FitsAtIssue i (nTy w64).regs d) (he : exec i s = sarOp i w64 d a b s)
    (hg : ∀ x, (modPow ((if (nTy w64).bits = 64 then Ty.i64 else Ty.i32).read (s.bk.num x (nTy w64).regs a) /
      (2 ^ min (s.bk.num x 1 b) (nTy w64).bits : Int)) (nTy w64).bits, 0) = g x) : Computes s i (nTy w64).regs d g :=
  computes_shiftOp w64 hf he hg

theorem computes_lop3Op {tb : Byte} (hf : FitsAtIssue i 1 d) (he : exec i s = lop3Op i tb d a b c s)
    (hg : ∀ x, (lop3 tb.toNat (s.bk.num x 1 a) (s.bk.num x 1 b) (s.bk.num x 1 c), 0) = g x) : Computes s i 1 d g := by
  dsimp only [lop3Op] at he
  exact computes_of_alu he (hf s) (by decide) fun ts pc x => by simp [← hg]

theorem computes_shfOp {var : ShfVar} (hf : FitsAtIssue i 1 d) (he : exec i s = shfOp i var d a b c s)
    (hg : ∀ x, (shf var (s.bk.num x 1 a) (s.bk.num x 1 b) (s.bk.num x 1 c), 0) = g x) : Computes s i 1 d g := by
  dsimp only [shfOp] at he
  exact computes_of_alu he (hf s) (by decide) fun ts pc x => by simp [← hg]

end

section
variable {s : State} {i : Instr} {d : Dst} {a b c : Src} {g : Nat → Res}

theorem nTy_regs (w64 : Bool) : (nTy w64).regs = 1 ∨ (nTy w64).regs = 2 ∨ (nTy w64).regs = 4 := (nTy w64).regs_eq

theorem computes_bitOp {F : Nat → Nat → Nat} (w64 : Bool) (hf : FitsAtIssue i 1 d) (he : exec i s = bitOp i w64 false d b F s)
    (hg : ∀ x, (F (nTy w64).bits (s.bk.num x (nTy w64).regs b), 0) = g x) : Computes s i 1 d g := by
  dsimp only [bitOp] at he
  exact computes_of_alu he (hf s) (by decide) fun ts pc x => by simp [← hg]

theorem computes_popcOp (w64 : Bool) (hf : FitsAtIssue i 1 d) (he : exec i s = popcOp i w64 d b s)
    (hg : ∀ x, (popc (nTy w64).bits (s.bk.num x (nTy w64).regs b), 0) = g x) : Computes s i 1 d g :=
  computes_bitOp w64 hf he hg
theorem computes_clzOp (w64 : Bool) (hf : FitsAtIssue i 1 d) (he : exec i s = clzOp i w64 d b s)
    (hg : ∀ x, (clz (nTy w64).bits (s.bk.num x (nTy w64).regs b), 0) = g x) : Computes s i 1 d g :=
  computes_bitOp w64 hf he hg
theorem computes_ctzOp (w64 : Bool) (hf : FitsAtIssue i 1 d) (he : exec i s = ctzOp i w64 d b s)
    (hg : ∀ x, (ctz (nTy w64).bits (s.bk.num x (nTy w64).regs b), 0) = g x) : Computes s i 1 d g :=
  computes_bitOp w64 hf he hg
theorem computes_brevOp (w64 : Bool) (hf : FitsAtIssue i (nTy w64).regs d) (he : exec i s = brevOp i w64 d b s)
    (hg : ∀ x, (brev (nTy w64).bits (s.bk.num x (nTy w64).regs b), 0) = g x) : Computes s i (nTy w64).regs d g := by
  dsimp only [brevOp, bitOp] at he
  rw [if_pos rfl] at he
  exact computes_of_alu he (hf s) (by have := nTy_regs w64; omega) fun ts pc x => by simp [← hg]

theorem computes_movOp (hf : FitsAtIssue i 1 d) (he : exec i s = movOp i d b s) :
    Computes s i 1 d fun x => ((s.bk.word x b).toNat, 0) :=
  computes_of_alu he (hf s) (by decide) fun ts pc x => by simp [Block.num_one]
theorem computes_movlOp (hf : FitsAtIssue i 2 d) (he : exec i s = movlOp i d b s) :
    Computes s i 2 d fun x => ((s.bk.pair x b).toNat, 0) :=
  computes_of_alu he (hf s) (by decide) fun ts pc x => by simp [Block.num_two]

theorem computes_selOp {w64 : Bool} {p : Nat} (hf : FitsAtIssue i (nTy w64).regs d) (he : exec i s = selOp i w64 d a b p s) :
    Computes s i (nTy w64).regs d fun x =>
      (if (s.bk.thr x).pred p then s.bk.num x (nTy w64).regs a else s.bk.num x (nTy w64).regs b, 0) := by
  dsimp only [selOp] at he
  exact computes_of_alu he (hf s) (by have := nTy_regs w64; omega) fun ts pc x => by simp

theorem computes_bfeOp {ty : Ty} (hf : FitsAtIssue i ty.regs d) (he : exec i s = bfeOp i ty d a b s) :
    Computes s i ty.regs d fun x => (bfe ty (s.bk.num x ty.regs a) (s.bk.num x 1 b), 0) :=
  computes_of_alu he (hf s) (by have := ty.regs_eq; omega) fun ts pc x => by simp

theorem computes_bfiOp {w64 : Bool} (hf : FitsAtIssue i (nTy w64).regs d) (he : exec i s = bfiOp i w64 d a b c s) :
    Computes s i (nTy w64).regs d fun x =>
      (bfi (nTy w64).bits (s.bk.num x (nTy w64).regs a) (s.bk.num x 1 b) (s.bk.num x (nTy w64).regs c), 0) := by
  dsimp only [bfiOp] at he
  exact computes_of_alu he (hf s) (by have := nTy_regs w64; omega) fun ts pc x => by simp

end

/-! ### Special registers, exception records and narrow-format entries (spec/07 R145; spec/24 R426) -/

theorem Block.special_advance (k : Block) (ts : List Nat) (pc : DWord) (t n : Nat) :
    (k.advance ts pc).special t n = k.special t n := by
  unfold Block.special
  rw [Block.thr_advance]
  split <;> rfl

theorem Block.excItem_advance (k : Block) (ts : List Nat) (pc : DWord) (t n : Nat) :
    ((k.advance ts pc).thr t).excItem n = (k.thr t).excItem n := by
  rw [Block.thr_advance]
  split <;> rfl

theorem srRegs_eq (n : Nat) : srRegs n = 1 ∨ srRegs n = 2 ∨ srRegs n = 4 := by
  unfold srRegs; split <;> simp
theorem excRegs_eq (n : Nat) : excRegs n = 1 ∨ excRegs n = 2 ∨ excRegs n = 4 := by
  unfold excRegs; split <;> simp

theorem computes_rdsrOp {s : State} {i : Instr} {n : Nat} {d : Dst} (hn : n ≠ 0xC) (hf : FitsAtIssue i (srRegs n) d)
    (he : exec i s = rdsrOp i n d s) : Computes s i (srRegs n) d fun x => (s.bk.special x n, 0) := by
  dsimp only [rdsrOp] at he
  simp only [if_neg hn] at he
  exact computes_of_alu he (hf s) (by have := srRegs_eq n; omega) fun ts pc x => by rw [Block.special_advance]

theorem computes_rdexc (s : State) (h : Hdr) (n : Nat) (d : Dst) (hf : FitsAtIssue (.rdexc h n d) (excRegs n) d) :
    Computes s (.rdexc h n d) (excRegs n) d fun x => ((s.bk.thr x).excItem n, 0) :=
  computes_of_alu (tag := fun _ _ => .g) (g := fun k x => ((k.thr x).excItem n, 0)) rfl (hf s)
    (by have := excRegs_eq n; omega) fun ts pc x => by rw [Block.excItem_advance]

theorem computes_prmt (s : State) (h : Hdr) (d : Dst) (a b c : Src) (hf : FitsAtIssue (.prmt h d a b c) 1 d) :
    Computes s (.prmt h d a b c) 1 d fun x => (prmt (s.bk.num x 1 a) (s.bk.num x 1 b) (s.bk.num x 1 c), 0) :=
  computes_of_alu (tag := tagOf [(1, a), (1, b), (1, c)])
    (g := fun k x => (prmt (k.num x 1 a) (k.num x 1 b) (k.num x 1 c), 0)) rfl (hf s) (by decide) fun ts pc x => by simp

theorem foldl_or_zero (l : List Nat) : l.foldl (fun fl _ => fl ||| 0) (0 : Flags) = 0 := by simp

@[simp] theorem State.orFlags_zero (s : State) (b wp : Nat) : s.orFlags b wp 0 = s := if_pos rfl

/-- A MOVS from an entry is an operation whose result is the entry. -/
theorem exec_movs_fromFd {s : State} {h : Hdr} {d : Dst} {n : Nat} {f : Uses} (hp : s.Passes (.movs h (.fromFd d n)) f) :
    exec (.movs h (.fromFd d n)) s = alu (.movs h (.fromFd d n)) s 1 d (fun _ _ => .u) fun k _ => ((k.fd s.wp n).toNat, 0) := by
  show execMovs h (.fromFd d n) s = _
  unfold execMovs alu
  dsimp only
  rw [issue_of_passes hp, issue_of_passes hp]
  simp only [foldl_or_zero, State.orFlags_zero, BitVec.ofNat_toNat]
  rfl

theorem computes_movs_fromFd (s : State) (h : Hdr) (d : Dst) (n : Nat) (hf : FitsAtIssue (.movs h (.fromFd d n)) 1 d) :
    Computes s (.movs h (.fromFd d n)) 1 d fun _ => ((s.bk.fd s.wp n).toNat, 0) := fun f hp => by
  rw [exec_movs_fromFd hp]
  exact alu_spec s _ f 1 d _ _ _ hp (hf s f hp) (by decide) fun ts pc x => by simp

end Sys2Proof.Machine
end

section
/-! PROOFS. Values of the model's bit operations in terms of bit vectors (spec/07 R134..R144). -/
namespace Sys2Proof.Machine

/-! ### Integers -/

theorem ofInt_toInt_sub {n : Nat} (x y : BitVec n) : BitVec.ofInt n (x.toInt - y.toInt) = x - y := by
  rw [Int.sub_eq_add_neg, BitVec.ofInt_add, BitVec.ofInt_neg, BitVec.ofInt_toInt, BitVec.ofInt_toInt, BitVec.sub_eq_add_neg]

theorem ofInt_toNat (x : Word) : BitVec.ofInt 64 (x.toNat : Int) = x.setWidth 64 := by
  rw [BitVec.ofInt_natCast, BitVec.ofNat_toNat]

theorem write_n32_of_lt {z : Nat} (h : z < 2 ^ 32) : Ty.n32.write z = z := by
  rw [Ty.write_n32, BitVec.ofInt_natCast, BitVec.toNat_ofNat, Nat.mod_eq_of_lt h]

theorem ofInt_min_toInt {n : Nat} (x y : BitVec n) :
    (BitVec.ofInt n (min x.toInt y.toInt)).toNat = (if x.slt y then x else y).toNat := by
  by_cases h : x.toInt < y.toInt
  · rw [min_eq_left h.le, if_pos (BitVec.slt_iff_toInt_lt.mpr h), BitVec.ofInt_toInt]
  · rw [min_eq_right (not_lt.mp h), if_neg (mt BitVec.slt_iff_toInt_lt.mp h), BitVec.ofInt_toInt]

theorem ofInt_max_toInt {n : Nat} (x y : BitVec n) :
    (BitVec.ofInt n (max x.toInt y.toInt)).toNat = (if x.slt y then y else x).toNat := by
  by_cases h : x.toInt < y.toInt
  · rw [max_eq_right h.le, if_pos (BitVec.slt_iff_toInt_lt.mpr h), BitVec.ofInt_toInt]
  · rw [max_eq_left (not_lt.mp h), if_neg (mt BitVec.slt_iff_toInt_lt.mp h), BitVec.ofInt_toInt]

/-- A base plus a shifted index, as an address. -/
theorem modPow_add_mul_two_pow (x : DWord) (z : Int) (sh : Nat) :
    modPow ((x.toNat : Int) + z * 2 ^ sh) 64 = (x + (BitVec.ofInt 64 z <<< sh)).toNat := by
  have h : BitVec.ofInt 64 (2 ^ sh) = BitVec.twoPow 64 sh := by
    have : (2 ^ sh : Int) = ((2 ^ sh : Nat) : Int) := by norm_cast
    rw [this, BitVec.ofInt_natCast]
    exact BitVec.eq_of_toNat_eq (by simp [BitVec.toNat_twoPow])
  rw [modPow_eq, BitVec.ofInt_add, BitVec.ofInt_mul, BitVec.ofInt_natCast, BitVec.ofNat_toNat, BitVec.setWidth_eq, h,
    BitVec.shiftLeft_eq_mul_twoPow]

/-! ### Shifts (spec/07 R141) -/

section
variable {w : Nat} (x : BitVec w) (n : Nat)

theorem shl_toNat : (if w ≤ n then 0 else x.toNat * 2 ^ n % 2 ^ w) = (x <<< n).toNat := by
  split
  · next h => rw [BitVec.shiftLeft_eq_zero h]; rfl
  · rw [BitVec.toNat_shiftLeft, Nat.shiftLeft_eq]

theorem shr_toNat : (if w ≤ n then 0 else x.toNat / 2 ^ n) = (x >>> n).toNat := by
  split
  · next h => rw [BitVec.ushiftRight_eq_zero h]; rfl
  · rw [BitVec.toNat_ushiftRight, Nat.shiftRight_eq_div_pow]

/-- A count above the width gives what the width gives: the sign in every bit. -/
theorem ediv_two_pow_min : x.toInt / (2 ^ min n w : Int) = x.toInt / (2 ^ n : Int) := by
  rcases Nat.le_total n w with h | h
  · rw [min_eq_left h]
  · rw [min_eq_right h]
    have hlo := BitVec.le_two_mul_toInt (x := x)
    have hhi := BitVec.two_mul_toInt_lt (x := x)
    have hw : (2 ^ w : Int) ≤ 2 ^ n := pow_le_pow_right₀ (by decide) h
    have hpos : (0 : Int) < 2 ^ w := by positivity
    rcases lt_or_ge x.toInt 0 with hneg | hnonneg
    · rw [Int.ediv_eq_neg_one_of_neg_of_le hneg (by omega), Int.ediv_eq_neg_one_of_neg_of_le hneg (by omega)]
    · rw [Int.ediv_eq_zero_of_lt hnonneg (by omega), Int.ediv_eq_zero_of_lt hnonneg (by omega)]

theorem sar_toNat : modPow (x.toInt / (2 ^ min n w : Int)) w = (x.sshiftRight n).toNat := by
  rw [ediv_two_pow_min, modPow_eq, BitVec.sshiftRight, Int.shiftRight_eq_div_pow]
  push_cast
  rfl

end

/-! ### Bits (spec/07 R140, R144) -/

theorem field_bit (x q : Nat) : field x q q = (x.testBit q).toNat := by
  rw [Nat.toNat_testBit, field, Nat.add_sub_cancel_left, pow_one]

theorem foldl_add_range (f : Nat → Nat) (n : Nat) :
    (List.range n).foldl (fun r q => r + f q) 0 = ∑ q ∈ Finset.range n, f q := by
  induction n with
  | zero => rfl
  | succ n ih => rw [List.range_succ, List.foldl_append, ih, Finset.sum_range_succ]; rfl

theorem toNat_ofBoolListLE_range (f : Nat → Bool) (n : Nat) :
    (BitVec.ofBoolListLE ((List.range n).map f)).toNat = ∑ q ∈ Finset.range n, (f q).toNat * 2 ^ q := by
  induction n generalizing f with
  | zero => rfl
  | succ n ih =>
    rw [List.range_succ_eq_map, List.map_cons, List.map_map, BitVec.ofBoolListLE, Finset.sum_range_succ']
    rw [BitVec.toNat_concat, ih, Finset.sum_mul]
    simp [pow_succ, mul_assoc]

/-- A bit vector is the sum of its bits. -/
theorem sum_getLsbD {w : Nat} (x : BitVec w) : ∑ q ∈ Finset.range w, (x.getLsbD q).toNat * 2 ^ q = x.toNat := by
  have h := toNat_ofBoolListLE_range x.getLsbD w
  rw [← h]
  refine Nat.eq_of_testBit_eq fun q => ?_
  rw [← BitVec.getLsbD, BitVec.getLsbD_ofBoolListLE, List.getD_eq_getElem?_getD]
  by_cases hq : q < w
  · simp [hq, BitVec.testBit_toNat]
  · simp [hq, BitVec.testBit_toNat, BitVec.getLsbD_of_ge x q (by omega)]

/-- LOP3's table, read by the bits of the sources. -/
theorem lop3_toNat (tb : Byte) (a b c : Word) :
    lop3 tb.toNat a.toNat b.toNat c.toNat = (BitVec.ofBoolListLE ((List.range 32).map fun q =>
      tb.getLsbD ((c.getLsbD q).toNat * 4 + (b.getLsbD q).toNat * 2 + (a.getLsbD q).toNat))).toNat := by
  have h : ∀ q, field tb.toNat q q = (tb.getLsbD q).toNat := fun q => field_bit _ _
  have h' : ∀ (x : Word) q, field x.toNat q q = (x.getLsbD q).toNat := fun x q => field_bit _ _
  rw [toNat_ofBoolListLE_range, lop3]
  simp only [h, h']
  exact foldl_add_range _ 32

/-- A bit of the reversed value. -/
theorem getLsbD_eq_reverse {w : Nat} (x : BitVec w) {q : Nat} (hq : q < w) :
    x.getLsbD q = x.reverse.getLsbD (w - 1 - q) := by
  rw [BitVec.getLsbD_reverse, BitVec.getMsbD_eq_getLsbD, show w - 1 - (w - 1 - q) = q by omega]
  simp [show w - 1 - q < w by omega]

theorem brev_toNat {w : Nat} (x : BitVec w) : brev w x.toNat = x.reverse.toNat := by
  have h : ∀ q, field x.toNat q q = (x.getLsbD q).toNat := fun q => field_bit _ _
  rw [brev]
  simp only [h]
  rw [foldl_add_range, ← sum_getLsbD x.reverse, ← Finset.sum_range_reflect]
  refine Finset.sum_congr rfl fun q hq => ?_
  have hq : q < w := Finset.mem_range.mp hq
  have hq' : w - 1 - (w - 1 - q) = q := by omega
  rw [getLsbD_eq_reverse x (by omega), hq']

theorem clz_lt_of_ne_zero {w : Nat} {x : BitVec w} (hx : x ≠ 0#w) : x.clz.toNat < w := by
  have := BitVec.clz_lt_iff_ne_zero.mpr hx
  rwa [BitVec.lt_def, BitVec.natCast_eq_ofNat, BitVec.toNat_ofNat, Nat.mod_eq_of_lt Nat.lt_two_pow_self] at this

theorem clz_toNat {w : Nat} (hw : 0 < w) (x : BitVec w) : clz w x.toNat = x.clz.toNat := by
  unfold clz
  by_cases hx : x = 0#w
  · have hc : x.clz = BitVec.ofNat w w := BitVec.clz_eq_iff_eq_zero.mpr hx
    rw [hc, hx, if_pos (by simp), BitVec.toNat_ofNat, Nat.mod_eq_of_lt Nat.lt_two_pow_self]
  · have hx' : x.toNat ≠ 0 := fun h => hx (BitVec.eq_of_toNat_eq (by simpa using h))
    have hlt := clz_lt_of_ne_zero hx
    have hlog : Nat.log2 x.toNat = w - 1 - x.clz.toNat := by
      rw [Nat.log2_eq_iff hx']
      have h := BitVec.toNat_lt_two_pow_sub_clz (x := x)
      exact ⟨BitVec.two_pow_sub_clz_le_toNat_of_ne_zero hw hx, by rwa [show w - 1 - x.clz.toNat + 1 = w - x.clz.toNat by omega]⟩
    rw [if_neg hx', hlog]
    omega

/-- The lowest 1 bit of a value is the highest of the reversed one. -/
theorem ctz_toNat {w : Nat} (hw : 0 < w) (x : BitVec w) : ctz w x.toNat = x.reverse.clz.toNat := by
  have hbit : ∀ q, (field x.toNat q q = 1) ↔ x.getLsbD q = true := fun q => by
    rw [field_bit, BitVec.testBit_toNat]; simp
  unfold ctz
  simp only [hbit]
  by_cases hx : x = 0#w
  · have hc : x.reverse.clz = BitVec.ofNat w w :=
      BitVec.clz_eq_iff_eq_zero.mpr (BitVec.reverse_eq_zero_iff.mpr hx)
    rw [hc, BitVec.toNat_ofNat, Nat.mod_eq_of_lt Nat.lt_two_pow_self]
    have hfind : (List.range w).find? (fun q => decide (x.getLsbD q = true)) = none := by simp [hx]
    rw [hfind]
    rfl
  · have hr : x.reverse ≠ 0#w := mt BitVec.reverse_eq_zero_iff.mp hx
    have hlt := clz_lt_of_ne_zero hr
    have hone := BitVec.getLsbD_true_clz_of_ne_zero hw hr
    rw [← getLsbD_eq_reverse x hlt] at hone
    have hzero : ∀ q < x.reverse.clz.toNat, x.getLsbD q = false := fun q hq => by
      rw [getLsbD_eq_reverse x (by omega), BitVec.getLsbD]
      exact Nat.testBit_lt_two_pow (BitVec.toNat_lt_two_pow_sub_clz.trans_le (Nat.pow_le_pow_right (by decide) (by omega)))
    have hfind : (List.range w).find? (fun q => decide (x.getLsbD q = true)) = some x.reverse.clz.toNat := by
      rw [List.find?_range_eq_some]
      exact ⟨by simpa using hone, by simpa using hlt, fun q hq => by simp [hzero q hq]⟩
    rw [hfind]
    rfl

/-! ### SHF (spec/07 R142) -/

/-- A rotation as a shift to the left and one to the right. -/
theorem shiftLeft_or_shiftRight_toNat (x : DWord) {m k : Nat} (h : m + k = 64) :
    (x <<< k ||| x >>> m).toNat = (x.toNat * 2 ^ k + x.toNat / 2 ^ m) % 2 ^ 64 := by
  have hx := x.isLt
  have hpow : (2 : Nat) ^ 64 = 2 ^ m * 2 ^ k := by rw [← pow_add, h]
  have hdiv : x.toNat / 2 ^ m < 2 ^ k := Nat.div_lt_of_lt_mul (hpow ▸ hx)
  have hmod : x.toNat * 2 ^ k % 2 ^ 64 = x.toNat % 2 ^ m * 2 ^ k := by rw [hpow, Nat.mul_mod_mul_right]
  have hlt : x.toNat % 2 ^ m * 2 ^ k + x.toNat / 2 ^ m < 2 ^ 64 := by
    have : x.toNat % 2 ^ m < 2 ^ m := Nat.mod_lt _ (by positivity)
    calc _ < x.toNat % 2 ^ m * 2 ^ k + 2 ^ k := by omega
      _ = (x.toNat % 2 ^ m + 1) * 2 ^ k := by ring
      _ ≤ 2 ^ m * 2 ^ k := Nat.mul_le_mul_right _ this
      _ = 2 ^ 64 := hpow.symm
  rw [BitVec.toNat_or, BitVec.toNat_shiftLeft, BitVec.toNat_ushiftRight, Nat.shiftLeft_eq, Nat.shiftRight_eq_div_pow, hmod,
    ← Nat.shiftLeft_eq, ← Nat.shiftLeft_add_eq_or_of_lt hdiv, Nat.shiftLeft_eq, Nat.add_mod, hmod,
    Nat.mod_eq_of_lt (hdiv.trans_le (hpow ▸ Nat.le_mul_of_pos_left _ (by positivity))), Nat.mod_eq_of_lt hlt]

/-- The upper word of a value that has been cut to 64 bits. -/
theorem upper_word (y : Nat) : y % 2 ^ 64 / 2 ^ 32 = y / 2 ^ 32 % 2 ^ 32 := by omega

section
variable (a b : Word) (n : Nat)

theorem append_toNat : a.toNat * 2 ^ 32 + b.toNat = (a ++ b : DWord).toNat := by
  rw [BitVec.toNat_append, ← Nat.shiftLeft_add_eq_or_of_lt b.isLt, Nat.shiftLeft_eq]

theorem shf_l : shf .l a.toNat b.toNat n = (((a ++ b : DWord) <<< (n % 64)) >>> 32).toNat := by
  unfold shf
  rw [append_toNat, BitVec.toNat_ushiftRight, BitVec.toNat_shiftLeft, Nat.shiftLeft_eq, Nat.shiftRight_eq_div_pow, upper_word]

theorem shf_r : shf .r a.toNat b.toNat n = ((a ++ b : DWord) >>> (n % 64)).toNat % 2 ^ 32 := by
  unfold shf
  rw [append_toNat, BitVec.toNat_ushiftRight, Nat.shiftRight_eq_div_pow]

theorem shf_rl : shf .rl a.toNat b.toNat n = ((a ++ b : DWord).rotateLeft (n % 64) >>> 32).toNat := by
  have hm : n % 64 < 64 := Nat.mod_lt _ (by decide)
  unfold shf
  rw [append_toNat, BitVec.rotateLeft_def, Nat.mod_mod, BitVec.toNat_ushiftRight,
    shiftLeft_or_shiftRight_toNat _ (by omega), Nat.shiftRight_eq_div_pow, upper_word]

theorem shf_rr : shf .rr a.toNat b.toNat n = ((a ++ b : DWord).rotateRight (n % 64)).toNat % 2 ^ 32 := by
  have hm : n % 64 < 64 := Nat.mod_lt _ (by decide)
  unfold shf
  rw [append_toNat, BitVec.rotateRight_def, Nat.mod_mod, BitVec.or_comm, shiftLeft_or_shiftRight_toNat _ (by omega),
    Nat.mod_mod_of_dvd _ (by decide)]
  exact congrArg (· % 2 ^ 32) (Nat.add_comm _ _)

end

end Sys2Proof.Machine
end

section
/-! PROOFS. Integer, logic and move instructions (spec/07 R133..R145). -/
namespace Sys2Proof.Machine

@[simp] theorem nTy_false_regs : (nTy false).regs = 1 := rfl
@[simp] theorem nTy_true_regs : (nTy true).regs = 2 := rfl
@[simp] theorem nTy_false_bits : (nTy false).bits = 32 := rfl
@[simp] theorem nTy_true_bits : (nTy true).bits = 64 := rfl

section
variable {s : State} {i : Instr} {d : Dst} {a b : Src}

theorem computes_shl_32 (hf : FitsAtIssue i 1 d) (he : exec i s = shlOp i false d a b s) :
    Computes s i 1 d fun x => ((s.bk.word x a <<< (s.bk.word x b).toNat).toNat, 0) :=
  computes_shlOp false hf he fun x => by
    simp only [nTy_false_regs, nTy_false_bits, Block.num_one, shl_toNat]
theorem computes_shl_64 (hf : FitsAtIssue i 2 d) (he : exec i s = shlOp i true d a b s) :
    Computes s i 2 d fun x => ((s.bk.pair x a <<< (s.bk.word x b).toNat).toNat, 0) :=
  computes_shlOp true hf he fun x => by
    simp only [nTy_true_regs, nTy_true_bits, Block.num_two, Block.num_one, shl_toNat]
theorem computes_shr_32 (hf : FitsAtIssue i 1 d) (he : exec i s = shrOp i false d a b s) :
    Computes s i 1 d fun x => ((s.bk.word x a >>> (s.bk.word x b).toNat).toNat, 0) :=
  computes_shrOp false hf he fun x => by
    simp only [nTy_false_regs, nTy_false_bits, Block.num_one, shr_toNat]
theorem computes_shr_64 (hf : FitsAtIssue i 2 d) (he : exec i s = shrOp i true d a b s) :
    Computes s i 2 d fun x => ((s.bk.pair x a >>> (s.bk.word x b).toNat).toNat, 0) :=
  computes_shrOp true hf he fun x => by
    simp only [nTy_true_regs, nTy_true_bits, Block.num_two, Block.num_one, shr_toNat]
theorem computes_sar_32 (hf : FitsAtIssue i 1 d) (he : exec i s = sarOp i false d a b s) :
    Computes s i 1 d fun x => (((s.bk.word x a).sshiftRight (s.bk.word x b).toNat).toNat, 0) :=
  computes_sarOp false hf he fun x => by
    simp only [nTy_false_regs, nTy_false_bits, Block.num_one, sar_toNat, Ty.read_i32, reduceIte, show (32 : Nat) ≠ 64 by decide]
theorem computes_sar_64 (hf : FitsAtIssue i 2 d) (he : exec i s = sarOp i true d a b s) :
    Computes s i 2 d fun x => (((s.bk.pair x a).sshiftRight (s.bk.word x b).toNat).toNat, 0) :=
  computes_sarOp true hf he fun x => by
    simp only [nTy_true_regs, nTy_true_bits, Block.num_two, Block.num_one, sar_toNat, Ty.read_i64, reduceIte]

end

/-- Settles O1: each operation by its rule, the base forms with the integers as bit vectors. -/
theorem integerAddMulResults : Obligations.IntegerAddMulResults := by
  unfold Obligations.IntegerAddMulResults
  refine fun s => ⟨fun f => ?_, fun f => ?_, fun f => ?_, fun f => ?_, fun f => ?_, fun f => ?_, fun f => ?_, fun f => ?_,
    fun h ty d a b => ?_, fun h ty d a b => ?_, fun h ty d a b => ?_, fun h ty d a b => ?_, fun h ty d a b c => ?_,
    fun h ty d a b c => ?_⟩
  · exact computes_iaddOp .i32 (fits_base rfl rfl rfl (by decide)) rfl fun x => by
      simp [Block.num_one, Ty.read_i32, Ty.write_i32, BitVec.ofInt_add]
  · exact computes_isubOp .i32 (fits_base rfl rfl rfl (by decide)) rfl fun x => by
      simp only [Ty.regs_i32, Block.num_one, Ty.read_i32, Ty.write_i32, ofInt_toInt_sub]
  · exact computes_imulOp .i32 (fits_base rfl rfl rfl (by decide)) rfl fun x => by
      simp [Block.num_one, Ty.read_i32, Ty.write_i32, BitVec.ofInt_mul]
  · exact computes_iaddOp .i64 (fits_base rfl rfl rfl (by decide)) rfl fun x => by
      simp [Block.num_two, Ty.read_i64, Ty.write_i64, BitVec.ofInt_add]
  · exact computes_isubOp .i64 (fits_base rfl rfl rfl (by decide)) rfl fun x => by
      simp only [Ty.regs_i64, Block.num_two, Ty.read_i64, Ty.write_i64, ofInt_toInt_sub]
  · exact computes_imulOp .i64 (fits_base rfl rfl rfl (by decide)) rfl fun x => by
      simp [Block.num_two, Ty.read_i64, Ty.write_i64, BitVec.ofInt_mul]
  · exact computes_imulhOp .i32 (fits_base rfl rfl rfl (by decide)) rfl fun x => by
      simp [Block.num_one, Ty.read_i32, Ty.write_i32]
  · refine computes_imulhOp .n32 (fits_base rfl rfl rfl (by decide)) rfl fun x => ?_
    have hlt : (s.bk.word x f.srcA).toNat * (s.bk.word x f.srcB).toNat / 2 ^ 32 < 2 ^ 32 :=
      Nat.div_lt_of_lt_mul (Nat.mul_lt_mul'' (s.bk.word x f.srcA).isLt (s.bk.word x f.srcB).isLt)
    simp only [Ty.regs_n32, Ty.bits_n32, Block.num_one, Ty.read_n32]
    exact congrArg (·, 0) (write_n32_of_lt hlt)
  · exact computes_iaddOp ty (fits_ext rfl rfl rfl (.inl rfl) ty.regs_eq) rfl fun x => rfl
  · exact computes_isubOp ty (fits_ext rfl rfl rfl (.inl rfl) ty.regs_eq) rfl fun x => rfl
  · exact computes_imulOp ty (fits_ext rfl rfl rfl (.inl rfl) ty.regs_eq) rfl fun x => rfl
  · exact computes_imulhOp ty (fits_ext rfl rfl rfl (.inl rfl) ty.regs_eq) rfl fun x => rfl
  · exact computes_imadOp (fits_ext rfl rfl rfl (.inl rfl) ty.regs_eq) rfl
  · exact computes_imadOp_wide (fits_ext rfl rfl rfl (.inl rfl) (by decide)) rfl

/-- Settles O2: minimum and maximum by the order of the type, the address with its index as a bit vector. -/
theorem integerMinMaxAddressResults : Obligations.IntegerMinMaxAddressResults := by
  unfold Obligations.IntegerMinMaxAddressResults
  refine fun s => ⟨fun f => ?_, fun f => ?_, fun f => ?_, fun f => ?_, fun f => ?_, fun f => ?_, fun h ty d a b => ?_,
    fun h ty d a b => ?_, fun f => ?_, fun f => ?_, fun f => ?_, fun f => ?_, fun h ty sh d a b => ?_,
    fun h sa sb d a b c => ?_⟩
  · exact computes_iminOp .i32 (fits_base rfl rfl rfl (by decide)) rfl fun x => by
      simp only [Ty.regs_i32, Block.num_one, Ty.read_i32, Ty.write_i32, ofInt_min_toInt]
  · exact computes_imaxOp .i32 (fits_base rfl rfl rfl (by decide)) rfl fun x => by
      simp only [Ty.regs_i32, Block.num_one, Ty.read_i32, Ty.write_i32, ofInt_max_toInt]
  · refine computes_iminOp .n32 (fits_base rfl rfl rfl (by decide)) rfl fun x => ?_
    simp only [Ty.regs_n32, Block.num_one, Ty.read_n32, ← Nat.cast_min]
    exact congrArg (·, 0) (write_n32_of_lt (min_lt_of_left_lt (s.bk.word x f.srcA).isLt))
  · refine computes_imaxOp .n32 (fits_base rfl rfl rfl (by decide)) rfl fun x => ?_
    simp only [Ty.regs_n32, Block.num_one, Ty.read_n32, ← Nat.cast_max]
    exact congrArg (·, 0) (write_n32_of_lt (max_lt (s.bk.word x f.srcA).isLt (s.bk.word x f.srcB).isLt))
  · exact computes_iminOp .i64 (fits_base rfl rfl rfl (by decide)) rfl fun x => by
      simp only [Ty.regs_i64, Block.num_two, Ty.read_i64, Ty.write_i64, ofInt_min_toInt]
  · exact computes_imaxOp .i64 (fits_base rfl rfl rfl (by decide)) rfl fun x => by
      simp only [Ty.regs_i64, Block.num_two, Ty.read_i64, Ty.write_i64, ofInt_max_toInt]
  · exact computes_iminOp ty (fits_ext rfl rfl rfl (.inl rfl) ty.regs_eq) rfl fun x => rfl
  · exact computes_imaxOp ty (fits_ext rfl rfl rfl (.inl rfl) ty.regs_eq) rfl fun x => rfl
  · exact computes_leaOp .n32 2 (fits_base rfl rfl rfl (by decide)) rfl fun x => by
      simp only [Ty.regs_n32, Block.num_one, Block.num_two, Ty.read_n32, modPow_add_mul_two_pow, ofInt_toNat]
  · exact computes_leaOp .n32 3 (fits_base rfl rfl rfl (by decide)) rfl fun x => by
      simp only [Ty.regs_n32, Block.num_one, Block.num_two, Ty.read_n32, modPow_add_mul_two_pow, ofInt_toNat]
  · exact computes_leaOp .i32 2 (fits_base rfl rfl rfl (by decide)) rfl fun x => by
      simp only [Ty.regs_i32, Block.num_one, Block.num_two, Ty.read_i32, modPow_add_mul_two_pow, ← BitVec.signExtend.eq_1]
  · exact computes_leaOp .i32 3 (fits_base rfl rfl rfl (by decide)) rfl fun x => by
      simp only [Ty.regs_i32, Block.num_one, Block.num_two, Ty.read_i32, modPow_add_mul_two_pow, ← BitVec.signExtend.eq_1]
  · exact computes_leaOp ty sh (fits_ext rfl rfl rfl (.inl rfl) (by decide)) rfl fun x => rfl
  · refine (computes_idot4Op (fits_ext rfl rfl rfl (.inl rfl) (by decide)) rfl).congr fun x => ?_
    rw [Block.num_one _ _ c, Ty.read_i32]
    rfl

/-- Settles O3: each operation by its rule, the values as bit vectors. -/
theorem logicAndShiftResults : Obligations.LogicAndShiftResults := by
  unfold Obligations.LogicAndShiftResults
  refine fun s => ⟨fun f => ?_, fun f => ?_, fun f => ?_, fun f => ?_, fun f => ?_, fun f => ?_, fun f => ?_, fun f => ?_,
    fun f => ?_, fun f => ?_, fun f => ?_, fun f => ?_, fun h w d a b => ?_, fun h w d a b => ?_, fun h w d a b => ?_,
    fun h d a b => ?_, fun h d a b => ?_, fun h d a b => ?_, fun h d a b => ?_, fun h d a b => ?_, fun h d a b => ?_,
    fun h tb d a b c => ?_, fun h d a b c => ?_, fun h d a b c => ?_, fun h d a b c => ?_, fun h d a b c => ?_⟩
  · exact computes_andOp false (fits_base rfl rfl rfl (by decide)) rfl fun x => by
      simp only [nTy_false_regs, Block.num_one, BitVec.toNat_and]
  · exact computes_orOp false (fits_base rfl rfl rfl (by decide)) rfl fun x => by
      simp only [nTy_false_regs, Block.num_one, BitVec.toNat_or]
  · exact computes_xorOp false (fits_base rfl rfl rfl (by decide)) rfl fun x => by
      simp only [nTy_false_regs, Block.num_one, BitVec.toNat_xor]
  · exact computes_andOp true (fits_base rfl rfl rfl (by decide)) rfl fun x => by
      simp only [nTy_true_regs, Block.num_two, BitVec.toNat_and]
  · exact computes_orOp true (fits_base rfl rfl rfl (by decide)) rfl fun x => by
      simp only [nTy_true_regs, Block.num_two, BitVec.toNat_or]
  · exact computes_xorOp true (fits_base rfl rfl rfl (by decide)) rfl fun x => by
      simp only [nTy_true_regs, Block.num_two, BitVec.toNat_xor]
  · exact computes_shl_32 (fits_base rfl rfl rfl (by decide)) rfl
  · exact computes_shr_32 (fits_base rfl rfl rfl (by decide)) rfl
  · exact computes_sar_32 (fits_base rfl rfl rfl (by decide)) rfl
  · exact computes_shl_64 (fits_base rfl rfl rfl (by decide)) rfl
  · exact computes_shr_64 (fits_base rfl rfl rfl (by decide)) rfl
  · exact computes_sar_64 (fits_base rfl rfl rfl (by decide)) rfl
  · exact computes_andOp w (fits_ext rfl rfl rfl (.inl rfl) (nTy_regs w)) rfl fun x => rfl
  · exact computes_orOp w (fits_ext rfl rfl rfl (.inl rfl) (nTy_regs w)) rfl fun x => rfl
  · exact computes_xorOp w (fits_ext rfl rfl rfl (.inl rfl) (nTy_regs w)) rfl fun x => rfl
  · exact computes_shl_32 (fits_ext rfl rfl rfl (.inl rfl) (by decide)) rfl
  · exact computes_shl_64 (fits_ext rfl rfl rfl (.inl rfl) (by decide)) rfl
  · exact computes_shr_32 (fits_ext rfl rfl rfl (.inl rfl) (by decide)) rfl
  · exact computes_shr_64 (fits_ext rfl rfl rfl (.inl rfl) (by decide)) rfl
  · exact computes_sar_32 (fits_ext rfl rfl rfl (.inl rfl) (by decide)) rfl
  · exact computes_sar_64 (fits_ext rfl rfl rfl (.inl rfl) (by decide)) rfl
  · exact computes_lop3Op (fits_ext rfl rfl rfl (.inl rfl) (by decide)) rfl fun x => by simp only [Block.num_one, lop3_toNat]
  · exact computes_shfOp (fits_ext rfl rfl rfl (.inl rfl) (by decide)) rfl fun x => by simp only [Block.num_one, shf_l]
  · exact computes_shfOp (fits_ext rfl rfl rfl (.inl rfl) (by decide)) rfl fun x => by simp only [Block.num_one, shf_r]
  · exact computes_shfOp (fits_ext rfl rfl rfl (.inl rfl) (by decide)) rfl fun x => by simp only [Block.num_one, shf_rl]
  · exact computes_shfOp (fits_ext rfl rfl rfl (.inl rfl) (by decide)) rfl fun x => by simp only [Block.num_one, shf_rr]

/-- Settles O4: each operation by its rule, the counts of base forms as bit vectors. -/
theorem bitFieldAndMoveResults : Obligations.BitFieldAndMoveResults := by
  unfold Obligations.BitFieldAndMoveResults
  refine fun s => ⟨fun f => ?_, fun f => ?_, fun f => ?_, fun f => ?_, fun f => ?_, fun f => ?_, fun h w d b => ?_,
    fun h w d b => ?_, fun h w d b => ?_, fun h w d b => ?_, fun h d b => ?_, fun h d b => ?_, fun h w d a b p => ?_,
    fun h ty d a b => ?_, fun h w d a b c => ?_, fun h d a b c => ?_, fun h n d hn => ?_, fun h n d => ?_, fun h d n => ?_⟩
  · exact computes_popcOp false (fits_base rfl rfl rfl (by decide)) rfl fun x => rfl
  · exact computes_clzOp false (fits_base rfl rfl rfl (by decide)) rfl fun x => by
      simp only [nTy_false_regs, nTy_false_bits, Block.num_one, clz_toNat (w := 32) (by decide)]
  · exact computes_ctzOp false (fits_base rfl rfl rfl (by decide)) rfl fun x => by
      simp only [nTy_false_regs, nTy_false_bits, Block.num_one, ctz_toNat (w := 32) (by decide)]
  · exact computes_brevOp false (fits_base rfl rfl rfl (by decide)) rfl fun x => by
      simp only [nTy_false_regs, nTy_false_bits, Block.num_one, brev_toNat]
  · exact computes_movOp (fits_base rfl rfl rfl (by decide)) rfl
  · exact computes_movlOp (fits_base rfl rfl rfl (by decide)) rfl
  · exact computes_popcOp w (fits_ext rfl rfl rfl (.inl rfl) (by decide)) rfl fun x => rfl
  · exact computes_clzOp w (fits_ext rfl rfl rfl (.inl rfl) (by decide)) rfl fun x => rfl
  · exact computes_ctzOp w (fits_ext rfl rfl rfl (.inl rfl) (by decide)) rfl fun x => rfl
  · exact computes_brevOp w (fits_ext rfl rfl rfl (.inl rfl) (nTy_regs w)) rfl fun x => rfl
  · exact computes_movOp (fits_ext rfl rfl rfl (.inl rfl) (by decide)) rfl
  · exact computes_movlOp (fits_ext rfl rfl rfl (.inl rfl) (by decide)) rfl
  · exact computes_selOp (fits_ext rfl rfl rfl (.inl rfl) (nTy_regs w)) rfl
  · exact computes_bfeOp (fits_ext rfl rfl rfl (.inl rfl) ty.regs_eq) rfl
  · exact computes_bfiOp (fits_ext rfl rfl rfl (.inl rfl) (nTy_regs w)) rfl
  · exact computes_prmt s h d a b c (fits_ext rfl rfl rfl (.inl rfl) (by decide))
  · exact computes_rdsrOp hn (fits_ext rfl rfl rfl (.inl rfl) (srRegs_eq n)) rfl
  · exact computes_rdexc s h n d (fits_ext rfl rfl rfl (.inl rfl) (excRegs_eq n))
  · exact computes_movs_fromFd s h d n (fits_ext rfl rfl rfl (.inr (.inr rfl)) (by decide))

end Sys2Proof.Machine
end

section
/-! PROOFS. Floating-point, packed and converting instructions; predicates (spec/07 R138, R146..R154). -/
namespace Sys2Proof

theorem CTy.regs_eq (t : CTy) : t.regs = 1 ∨ t.regs = 2 ∨ t.regs = 4 := by
  cases t with
  | std t => exact t.regs_eq
  | fd n => exact .inl rfl

@[simp] theorem Ty.regs_f32 : Ty.f32.regs = 1 := rfl
@[simp] theorem Ty.bits_f32 : Ty.f32.bits = 32 := rfl

end Sys2Proof

namespace Sys2Proof.Machine

@[simp] theorem Ieee.ofTy_f32 : Ieee.ofTy .f32 = f32 := rfl

/-! ### Floating-point operations (spec/07 R147, R149) -/

@[simp] theorem Block.fval_advance (k : Block) (ts : List Nat) (pc : DWord) (t : Nat) (ty : Ty) (x : Src) :
    (k.advance ts pc).fval t ty x = k.fval t ty x := Block.advance_fval k ts pc t ty x

section
variable {s : State} {i : Instr} {ty : Ty} {rm : Rm} {d : Dst} {a b c : Src}

theorem computes_fop2 {F : FVal → FVal → Res} (hf : FitsAtIssue i ty.regs d) (he : exec i s = fop2 i ty d a b F s) :
    Computes s i ty.regs d fun x => F (s.bk.fval x ty a) (s.bk.fval x ty b) :=
  computes_of_alu he (hf s) (by have := ty.regs_eq; omega) fun ts pc x => by simp

theorem computes_faddOp (hf : FitsAtIssue i ty.regs d) (he : exec i s = faddOp i ty rm d a b s) :
    Computes s i ty.regs d fun x => (Ieee.ofTy ty).add rm (s.bk.fval x ty a) (s.bk.fval x ty b) := computes_fop2 hf he
theorem computes_fmulOp (hf : FitsAtIssue i ty.regs d) (he : exec i s = fmulOp i ty rm d a b s) :
    Computes s i ty.regs d fun x => (Ieee.ofTy ty).mul rm (s.bk.fval x ty a) (s.bk.fval x ty b) := computes_fop2 hf he

theorem computes_ffmaOp (hf : FitsAtIssue i ty.regs d) (he : exec i s = ffmaOp i ty rm d a b c s) :
    Computes s i ty.regs d fun x => (Ieee.ofTy ty).fma rm (s.bk.fval x ty a) (s.bk.fval x ty b) (s.bk.fval x ty c) :=
  computes_of_alu he (hf s) (by have := ty.regs_eq; omega) fun ts pc x => by simp

theorem computes_fminmaxOp {isMax : Bool} (hf : FitsAtIssue i ty.regs d) (he : exec i s = fminmaxOp i isMax ty d a b s) :
    Computes s i ty.regs d fun x =>
      (Ieee.ofTy ty).minmax isMax (s.bk.num x ty.regs a % 2 ^ ty.bits) (s.bk.num x ty.regs b % 2 ^ ty.bits) :=
  computes_of_alu he (hf s) (by have := ty.regs_eq; omega) fun ts pc x => by simp

theorem num_one_mod (k : Block) (x : Nat) (a : Src) : k.num x 1 a % 2 ^ 32 = k.num x 1 a := by
  rw [Block.num_one, Nat.mod_eq_of_lt (BitVec.isLt _)]

theorem computes_frndOp {e : Bool} (hf : FitsAtIssue i ty.regs d) (he : exec i s = frndOp i e ty rm d b s) :
    Computes s i ty.regs d fun x => frnd (Ieee.ofTy ty) e rm (s.bk.fval x ty b) :=
  computes_of_alu he (hf s) (by have := ty.regs_eq; omega) fun ts pc x => by simp

end

/-- Settles O5: each operation by its rule, of which the base forms are those at their type. -/
theorem floatResults : Obligations.FloatResults := by
  unfold Obligations.FloatResults
  refine fun s => ⟨fun f => ?_, fun f => ?_, fun f => ?_, fun f => ?_, fun f => ?_, fun f => ?_, fun f => ?_, fun f => ?_,
    fun f => ?_, fun h ty rm d a b => ?_, fun h ty rm d a b => ?_, fun h ty rm d a b c => ?_, fun h ty d a b => ?_,
    fun h ty d a b => ?_, fun h e ty rm d b => ?_⟩
  · exact computes_faddOp (ty := .f32) (rm := .rne) (fits_base rfl rfl rfl (by decide)) rfl
  · exact computes_fmulOp (ty := .f32) (rm := .rne) (fits_base rfl rfl rfl (by decide)) rfl
  · exact (computes_fminmaxOp (isMax := false) (ty := .f32) (fits_base rfl rfl rfl (by decide)) rfl).congr fun x => by
      simp only [Ty.regs_f32, Ty.bits_f32, num_one_mod, Ieee.ofTy_f32]
  · exact (computes_fminmaxOp (isMax := true) (ty := .f32) (fits_base rfl rfl rfl (by decide)) rfl).congr fun x => by
      simp only [Ty.regs_f32, Ty.bits_f32, num_one_mod, Ieee.ofTy_f32]
  · exact computes_faddOp (ty := .f16) (rm := .rne) (fits_base rfl rfl rfl (by decide)) rfl
  · exact computes_fmulOp (ty := .f16) (rm := .rne) (fits_base rfl rfl rfl (by decide)) rfl
  · exact computes_faddOp (ty := .bf16) (rm := .rne) (fits_base rfl rfl rfl (by decide)) rfl
  · exact computes_fmulOp (ty := .bf16) (rm := .rne) (fits_base rfl rfl rfl (by decide)) rfl
  · exact computes_frndOp (ty := .f32) (rm := .rne) (e := false) (fits_base rfl rfl rfl (by decide)) rfl
  · exact computes_faddOp (fits_ext rfl rfl rfl (.inl rfl) ty.regs_eq) rfl
  · exact computes_fmulOp (fits_ext rfl rfl rfl (.inl rfl) ty.regs_eq) rfl
  · exact computes_ffmaOp (fits_ext rfl rfl rfl (.inl rfl) ty.regs_eq) rfl
  · exact computes_fminmaxOp (isMax := false) (fits_ext rfl rfl rfl (.inl rfl) ty.regs_eq) rfl
  · exact computes_fminmaxOp (isMax := true) (fits_ext rfl rfl rfl (.inl rfl) ty.regs_eq) rfl
  · exact computes_frndOp (fits_ext rfl rfl rfl (.inl rfl) ty.regs_eq) rfl

/-! ### Packed halves (spec/07 R151) -/

section
variable {s : State} {i : Instr} {ty : Ty} {rm : Rm} {d : Dst} {a b c : Src}

theorem computes_hop2 {F : FVal → FVal → Res} (hf : FitsAtIssue i 1 d) (he : exec i s = hop2 i ty d a b F s) :
    Computes s i 1 d fun x => two (F (half ty (s.bk.num x 1 a) 0) (half ty (s.bk.num x 1 b) 0))
      (F (half ty (s.bk.num x 1 a) 1) (half ty (s.bk.num x 1 b) 1)) :=
  computes_of_alu he (hf s) (by decide) fun ts pc x => by simp

theorem computes_hadd2Op (hf : FitsAtIssue i 1 d) (he : exec i s = hadd2Op i ty rm d a b s) :
    Computes s i 1 d fun x =>
      two ((Ieee.ofTy ty).add rm (half ty (s.bk.num x 1 a) 0) (half ty (s.bk.num x 1 b) 0))
        ((Ieee.ofTy ty).add rm (half ty (s.bk.num x 1 a) 1) (half ty (s.bk.num x 1 b) 1)) := computes_hop2 hf he
theorem computes_hmul2Op (hf : FitsAtIssue i 1 d) (he : exec i s = hmul2Op i ty rm d a b s) :
    Computes s i 1 d fun x =>
      two ((Ieee.ofTy ty).mul rm (half ty (s.bk.num x 1 a) 0) (half ty (s.bk.num x 1 b) 0))
        ((Ieee.ofTy ty).mul rm (half ty (s.bk.num x 1 a) 1) (half ty (s.bk.num x 1 b) 1)) := computes_hop2 hf he

theorem computes_hfma2Op (hf : FitsAtIssue i 1 d) (he : exec i s = hfma2Op i ty rm d a b c s) :
    Computes s i 1 d fun x =>
      let g := fun j => (Ieee.ofTy ty).fma rm (half ty (s.bk.num x 1 a) j) (half ty (s.bk.num x 1 b) j) (half ty (s.bk.num x 1 c) j)
      two (g 0) (g 1) :=
  computes_of_alu he (hf s) (by decide) fun ts pc x => by simp

theorem computes_hdot2Op (hf : FitsAtIssue i 1 d) (he : exec i s = hdot2Op i ty rm d a b c s) :
    Computes s i 1 d fun x => f32.dot rm [(half ty (s.bk.num x 1 a) 0, half ty (s.bk.num x 1 b) 0),
      (half ty (s.bk.num x 1 a) 1, half ty (s.bk.num x 1 b) 1)] (f32.decode (s.bk.num x 1 c)) :=
  computes_of_alu he (hf s) (by decide) fun ts pc x => by simp

end

/-- Settles O6: each packed operation by its rule, of which the base forms are those at their type. -/
theorem packedHalfResults : Obligations.PackedHalfResults := by
  unfold Obligations.PackedHalfResults
  refine fun s => ⟨fun f => ?_, fun f => ?_, fun f => ?_, fun f => ?_, fun h ty rm d a b => ?_, fun h ty rm d a b => ?_,
    fun h ty rm d a b c => ?_, fun h ty rm d a b c => ?_⟩
  · exact computes_hadd2Op (ty := .f16) (rm := .rne) (fits_base rfl rfl rfl (by decide)) rfl
  · exact computes_hmul2Op (ty := .f16) (rm := .rne) (fits_base rfl rfl rfl (by decide)) rfl
  · exact computes_hadd2Op (ty := .bf16) (rm := .rne) (fits_base rfl rfl rfl (by decide)) rfl
  · exact computes_hmul2Op (ty := .bf16) (rm := .rne) (fits_base rfl rfl rfl (by decide)) rfl
  · exact computes_hadd2Op (fits_ext rfl rfl rfl (.inl rfl) (by decide)) rfl
  · exact computes_hmul2Op (fits_ext rfl rfl rfl (.inl rfl) (by decide)) rfl
  · exact computes_hfma2Op (fits_ext rfl rfl rfl (.inl rfl) (by decide)) rfl
  · exact computes_hdot2Op (fits_ext rfl rfl rfl (.inl rfl) (by decide)) rfl

/-! ### Conversion (spec/07 R152..R154; spec/05 R87) -/

/-- The thread that acts for an executing thread is one of the bundle. -/
theorem State.actor_mem {s : State} {h : Hdr} {x : Nat} (hx : x ∈ s.executing h) : s.actor h x ∈ s.sel.thrs := by
  have hmem : x ∈ s.sel.thrs := List.mem_of_mem_filter hx
  unfold State.actor
  split
  · cases hs : s.sel.thrs with
    | nil => rw [hs] at hmem; simp at hmem
    | cons y l => simp
  · exact hmem

/-- Results matter only for the threads that act. -/
theorem State.Wrote.congr {s t : State} {h : Hdr} {w : Nat} {d : Dst} {g g' : Nat → Res} (hw : s.Wrote t h w d g)
    (hne : s.executing h ≠ []) (hg : ∀ x ∈ s.sel.thrs, g x = g' x) : s.Wrote t h w d g' := by
  have hact : ∀ x ∈ s.executing h, g (s.actor h x) = g' (s.actor h x) := fun x hx => hg _ (State.actor_mem hx)
  have hhead : (s.executing h).headD 0 ∈ s.executing h := by
    obtain ⟨y, l, hl⟩ := List.exists_cons_of_ne_nil hne
    simp [hl]
  refine { hw with vec := fun n hn x hx j hj => ?_, sca := fun n hn j hj => ?_, flags := ?_ }
  · rw [hw.vec n hn x hx j hj, hact x hx]
  · rw [hw.sca n hn j hj, hact _ hhead]
  · rw [hw.flags]
    refine List.foldl_ext _ _ _ fun fl y hy => ?_
    obtain ⟨x, hx, rfl⟩ := List.mem_map.mp hy
    rw [hact x hx]

/-- The descriptor of a converting instruction is one of the warp, whose tiles no thread moves. -/
@[simp] theorem convDesc_advance (k : Block) (ts : List Nat) (pc : DWord) (wp : Nat) (td tsrc : CTy) :
    convDesc (k.advance ts pc) wp td tsrc = convDesc k wp td tsrc := rfl

/-- A converting instruction that finds its descriptor valid does what it does on registers. -/
theorem withDesc_of_ready {s : State} {td ts : CTy} {room : Narrow → Prop} (limit : Narrow → Bool)
    (hl : ∀ v, room v → limit v = true) (h : DescReady s td ts room) (body : Host.Outcome State Fault Refusal) :
    withDesc td ts limit s body = body := by
  unfold withDesc
  dsimp only
  rw [if_neg]
  intro hc
  obtain ⟨hnar, hbad⟩ := Bool.and_eq_true _ _ ▸ hc
  obtain ⟨hvalid, hroom⟩ := h hnar
  have hv : (convDesc (s.blk s.sel.blk) (warpOf (s.sel.thrs.headD 0)) td ts).valid = true := hvalid
  have hr : limit (convDesc (s.blk s.sel.blk) (warpOf (s.sel.thrs.headD 0)) td ts) = true := hl _ hroom
  rw [hv, hr] at hbad
  simp at hbad

/-- A converting instruction whose result for a thread of warp `wp` is `G wp`. -/
theorem computes_of_conv {s : State} {i : Instr} {w : Nat} {d : Dst} {tag : Block → Nat → Tag} {G : Nat → Block → Nat → Res}
    (hf : FitsAtIssue i w d) (hw : w ≤ 4) (he : exec i s = alu i s w d tag fun k x => G (warpOf x) k x)
    (hG : ∀ wp ts pc x, G wp (s.bk.advance ts pc) x = G wp s.bk x) : Computes s i w d (G s.wp s.bk) := fun f h => by
  obtain ⟨t, ht, hwrote⟩ := computes_of_alu he (hf s) hw (fun ts pc x => hG (warpOf x) ts pc x) f h
  exact ⟨t, ht, hwrote.congr h.runs fun x hx => by rw [h.oneWarp x hx]⟩

theorem computes_cvtOp {s : State} {i : Instr} {sat : Bool} {td ts : CTy} {rm : Rm} {d : Dst} {b : Src}
    (hf : FitsAtIssue i td.regs d) (hr : DescReady s td ts fun _ => True) (he : exec i s = cvtOp i sat td ts rm d b s) :
    Computes s i td.regs d fun x => convert sat td ts (convDesc s.bk s.wp td ts) rm (s.bk.num x ts.regs b) := by
  rw [cvtOp, withDesc_of_ready _ (fun _ _ => rfl) hr] at he
  exact computes_of_conv (G := fun wp k x => convert sat td ts (convDesc k wp td ts) rm (k.num x ts.regs b)) hf
    (by have := td.regs_eq; omega) he fun wp ts pc x => by simp

theorem computes_packOp {s : State} {i : Instr} {td ts : CTy} {rm : Rm} {n : Nat} {d : Dst} {a c : Src}
    (hf : FitsAtIssue i 1 d) (hr : DescReady s td ts fun v => n < 32 / contWidth v td)
    (he : exec i s = packOp i td ts rm n d a c s) : Computes s i 1 d fun x =>
      let v := convDesc s.bk s.wp td ts
      let r := convert false td ts v rm (s.bk.num x 1 a)
      (insertAt (contWidth v td) n (s.bk.num x 1 c) r.1, r.2) := by
  rw [packOp, withDesc_of_ready _ (fun _ => decide_eq_true) hr] at he
  exact computes_of_conv (G := fun wp k x =>
    (insertAt (contWidth (convDesc k wp td ts) td) n (k.num x 1 c) (convert false td ts (convDesc k wp td ts) rm (k.num x 1 a)).1,
      (convert false td ts (convDesc k wp td ts) rm (k.num x 1 a)).2)) hf (by decide) he fun wp ts pc x => by simp

theorem computes_unpackOp {s : State} {i : Instr} {td ts : CTy} {rm : Rm} {n : Nat} {d : Dst} {b : Src}
    (hf : FitsAtIssue i 1 d) (hr : DescReady s td ts fun v => n < 32 / contWidth v ts)
    (he : exec i s = unpackOp i td ts rm n d b s) : Computes s i 1 d fun x =>
      let v := convDesc s.bk s.wp td ts
      convert false td ts v rm (s.bk.num x 1 b / 2 ^ (contWidth v ts * n) % 2 ^ contWidth v ts) := by
  rw [unpackOp, withDesc_of_ready _ (fun _ => decide_eq_true) hr] at he
  exact computes_of_conv (G := fun wp k x => convert false td ts (convDesc k wp td ts) rm
    (k.num x 1 b / 2 ^ (contWidth (convDesc k wp td ts) ts * n) % 2 ^ contWidth (convDesc k wp td ts) ts)) hf (by decide) he
    fun wp ts pc x => by simp

/-- Types of spec/03 R54 need no descriptor. -/
theorem descReady_std (s : State) (td ts : Ty) (room : Narrow → Prop) : DescReady s (.std td) (.std ts) room :=
  fun h => absurd h (by simp [CTy.isNarrow])

theorem computes_cvtOp_std {s : State} {i : Instr} {td ts : Ty} {rm : Rm} {d : Dst} {b : Src} (hf : FitsAtIssue i td.regs d)
    (he : exec i s = cvtOp i false (.std td) (.std ts) rm d b s) : Computes s i td.regs d fun x =>
      convert false (.std td) (.std ts) (convDesc s.bk s.wp (.std td) (.std ts)) rm (s.bk.num x ts.regs b) :=
  computes_cvtOp hf (descReady_std _ _ _ _) he

/-- Settles O7: each conversion by its rule; the base forms name no descriptor. -/
theorem conversionResults : Obligations.ConversionResults := by
  unfold Obligations.ConversionResults
  refine fun s => ⟨fun f => ?_, fun f => ?_, fun f => ?_, fun f => ?_, fun f => ?_, fun f => ?_, fun f => ?_, fun f => ?_,
    fun f => ?_, fun f => ?_, fun f => ?_, fun f => ?_, fun f => ?_, fun f => ?_, fun h sat td ts rm d b hr => ?_,
    fun h td ts rm n d a c hr => ?_, fun h td ts rm n d b hr => ?_⟩
  · exact computes_cvtOp_std (td := .f32) (ts := .i32) (rm := .rne) (fits_base rfl rfl rfl (by decide)) rfl
  · exact computes_cvtOp_std (td := .f32) (ts := .n32) (rm := .rne) (fits_base rfl rfl rfl (by decide)) rfl
  · exact computes_cvtOp_std (td := .i32) (ts := .f32) (rm := .rz) (fits_base rfl rfl rfl (by decide)) rfl
  · exact computes_cvtOp_std (td := .n32) (ts := .f32) (rm := .rz) (fits_base rfl rfl rfl (by decide)) rfl
  · exact computes_cvtOp_std (td := .f32) (ts := .f16) (rm := .rne) (fits_base rfl rfl rfl (by decide)) rfl
  · exact computes_cvtOp_std (td := .f16) (ts := .f32) (rm := .rne) (fits_base rfl rfl rfl (by decide)) rfl
  · exact computes_cvtOp_std (td := .f32) (ts := .bf16) (rm := .rne) (fits_base rfl rfl rfl (by decide)) rfl
  · exact computes_cvtOp_std (td := .bf16) (ts := .f32) (rm := .rne) (fits_base rfl rfl rfl (by decide)) rfl
  · exact computes_cvtOp_std (td := .f64) (ts := .f32) (rm := .rne) (fits_base rfl rfl rfl (by decide)) rfl
  · exact computes_cvtOp_std (td := .f32) (ts := .f64) (rm := .rne) (fits_base rfl rfl rfl (by decide)) rfl
  · exact computes_cvtOp_std (td := .i32) (ts := .i16) (rm := .rne) (fits_base rfl rfl rfl (by decide)) rfl
  · exact computes_cvtOp_std (td := .i32) (ts := .i8) (rm := .rne) (fits_base rfl rfl rfl (by decide)) rfl
  · exact computes_cvtOp_std (td := .n32) (ts := .n16) (rm := .rne) (fits_base rfl rfl rfl (by decide)) rfl
  · exact computes_cvtOp_std (td := .n32) (ts := .n8) (rm := .rne) (fits_base rfl rfl rfl (by decide)) rfl
  · exact computes_cvtOp (fits_ext rfl rfl rfl (.inl rfl) td.regs_eq) hr rfl
  · exact computes_packOp (fits_ext rfl rfl rfl (.inl rfl) (by decide)) hr rfl
  · exact computes_unpackOp (fits_ext rfl rfl rfl (.inl rfl) (by decide)) hr rfl

/-! ### Predicates (spec/07 R138, R148) -/

/-- An instruction whose meaning writes a predicate decides it. -/
theorem decides_of_aluPred {s : State} {i : Instr} {p : Nat} {G : Block → Nat → Bool × Flags} {g : Nat → Bool × Flags}
    (he : exec i s = aluPred i s p G) (hG : ∀ ts pc x, G (s.bk.advance ts pc) x = g x) : Decides s i p g := fun f h => by
  rw [he]
  exact aluPred_spec s i f p G g h hG

section
variable {s : State} {i : Instr} {p pa pb : Nat} {a b : Src}

theorem decides_icmpOp {op : CmpOp} {ty : Ty} (he : exec i s = icmpOp i op ty p a b s) : Decides s i p fun x =>
    (op.holds (ty.read (s.bk.num x ty.regs a)) (ty.read (s.bk.num x ty.regs b)), 0) :=
  decides_of_aluPred he fun ts pc x => by simp [compareTy]

theorem decides_psetOp {op : PsetOp} (he : exec i s = psetOp i op p pa pb s) : Decides s i p fun x =>
    (psetEval op ((s.bk.thr x).pred pa) ((s.bk.thr x).pred pb), 0) :=
  decides_of_aluPred he fun ts pc x => by simp

theorem decides_fcmpOp {op : FCmpOp} {ty : Ty} (he : exec i s = fcmpOp i op ty p a b s) : Decides s i p fun x =>
    (fcmp op (s.bk.fval x ty a) (s.bk.fval x ty b),
      if (s.bk.fval x ty a).isSnan || (s.bk.fval x ty b).isSnan then fNV else 0) :=
  decides_of_aluPred he fun ts pc x => by simp [when]

end

/-- Settles O9: each comparison by the rule of the operations that write a predicate. -/
theorem predicateResults : Obligations.PredicateResults := by
  unfold Obligations.PredicateResults
  refine fun s => ⟨fun h op ty pd a b => decides_icmpOp rfl, fun h op pd pa pb => ?_,
    fun h op ty pd a b => decides_fcmpOp rfl⟩
  have := decides_psetOp (s := s) (i := .pset h op pd pa pb) (op := op) (p := pd) (pa := pa) (pb := pb) rfl
  cases op <;> exact this

end Sys2Proof.Machine
end

section
/-! PROOFS. Lane instructions: gatherings, and what each computes (spec/07 R155..R160). -/
namespace Sys2Proof.Machine

/-! ### Gatherings (spec/07 R155, R156) -/

/-- An instruction whose marking forbids U = 1 does not have it. -/
theorem State.Passes.not_uniform {s : State} {i : Instr} {f : Uses} (h : s.Passes i f) (hb : baseOf i = none)
    (hi : expand i = i) (hm : f.mark = .f) : f.h.u = false := by
  have hwf := h.wf
  have hrow := h.row
  rw [hi] at hrow
  unfold wellFormed at hwf
  rw [hb] at hwf
  dsimp only at hwf
  rw [hrow] at hwf
  dsimp only [Uses.wf, Uses.hdrOk] at hwf
  rw [hm] at hwf
  simp only [Bool.and_eq_true, Bool.not_eq_true'] at hwf
  tauto

/-- The threads near a gathering by mask `x`: the first thread, and those that have arrived and name a member. -/
def State.near (s : State) (m : Src) (t : Nat) : List Nat :=
  (s.bk.liveOf s.wp).filter fun y => decide (y = t) || (s.bk.arrived s.sel.pc y &&
    (s.bk.members s.wp (s.bk.word y m)).any (s.bk.members s.wp (s.bk.word t m)).contains)

section
variable {s : State} {i : Instr} {f : Uses} {m : Src}

/-- The first thread of a bundle. -/
theorem State.Passes.head_mem (h : s.Passes i f) : s.sel.thrs.headD 0 ∈ s.sel.thrs := by
  obtain ⟨x, l, hx⟩ := List.exists_cons_of_ne_nil h.runs
  have : x ∈ s.sel.thrs := List.mem_of_mem_filter (hx ▸ List.mem_cons_self : x ∈ s.executing f.h)
  cases hs : s.sel.thrs with
  | nil => simp [hs] at this
  | cons y l => simp

/-- A bundle whose first thread's member set has arrived gathers it. -/
theorem State.Passes.gathered_head (h : s.Passes i f)
    (hall : ∀ y ∈ s.bk.members s.wp (s.bk.word (s.sel.thrs.headD 0) m), s.bk.arrived s.sel.pc y = true) :
    s.bk.gathered s.sel.pc m s.sel.thrs = some (s.sel.thrs.headD 0) := by
  have hmem := h.head_mem
  have hw := h.oneWarp _ hmem
  unfold Block.gathered
  cases hs : s.sel.thrs with
  | nil => rw [hs] at hmem; simp at hmem
  | cons x l =>
    rw [hs, List.headD_cons] at hall hw
    rw [List.find?_cons_of_pos, List.headD_cons]
    rw [hw, Block.complete, List.all_eq_true]
    exact hall

/-- A lane instruction whose first thread's member set has arrived: the threads near it disagree, or its members go on. -/
theorem laneIssue_of_gathered (hi : expand i = i) (h : s.Passes i f)
    (hall : ∀ y ∈ s.bk.members s.wp (s.bk.word (s.sel.thrs.headD 0) m), s.bk.arrived s.sel.pc y = true)
    (body : Ctx → State → State) :
    laneIssue i m s body =
      if (s.near m (s.sel.thrs.headD 0)).any fun x => s.bk.word x m ≠ s.bk.word (s.sel.thrs.headD 0) m ||
          !(s.bk.members s.wp (s.bk.word (s.sel.thrs.headD 0) m)).contains x then
        finish (s.raiseAll s.sel.blk (s.near m (s.sel.thrs.headD 0)) s.sel.pc cCVSET .free)
      else
        let parts := s.bk.members s.wp (s.bk.word (s.sel.thrs.headD 0) m)
        let exe := parts.filter fun x => (s.bk.thr x).guard f.h
        let bad := exe.filter fun x => s.bk.hazardous x s.wp (touches i f ++ s.bk.tcNames s.wp i)
        let ok := exe.filter fun x => !bad.contains x
        let t := (s.raiseAll s.sel.blk bad s.sel.pc cLAHEAD .free).advance s.sel.blk (parts.filter fun x => !exe.contains x)
          s.sel.next
        finish (if ok = [] then t else body { s.ctxOf false with bundle := parts, exe := ok } t) := by
  have hrow := h.row
  rw [hi] at hrow
  have hg : (s.blk (s.ctxOf false).b).gathered (s.ctxOf false).pc m (s.ctxOf false).bundle = some (s.sel.thrs.headD 0) :=
    h.gathered_head hall
  unfold laneIssue
  rw [hrow]
  dsimp only
  rw [hg]
  rfl

end

section
variable {s : State} {i : Instr} {f : Uses} {m : Src} (h : s.Gathers i f m)
include h

theorem State.Gathers.members_head : s.bk.members s.wp (s.bk.word (s.sel.thrs.headD 0) m) = s.sel.thrs :=
  (h.same _ h.head_mem).1

/-- No thread near a gathering that is the whole member set of its mask holds another mask or is left out. -/
theorem State.Gathers.agree {x : Nat} (hx : x ∈ s.near m (s.sel.thrs.headD 0)) :
    x ∈ s.sel.thrs ∧ s.bk.word x m = s.bk.word (s.sel.thrs.headD 0) m := by
  have hhead := h.head_mem
  suffices hmem : x ∈ s.sel.thrs from ⟨hmem, ((h.same _ hhead).2 x hmem).symm⟩
  unfold State.near at hx
  rw [h.members_head] at hx
  obtain ⟨hlive, hnear⟩ := List.mem_filter.mp hx
  rcases Bool.or_eq_true _ _ ▸ hnear with heq | harr
  · rw [of_decide_eq_true heq]; exact hhead
  · by_contra hout
    obtain ⟨harr, hany⟩ := Bool.and_eq_true _ _ ▸ harr
    obtain ⟨y, hy, hyin⟩ := List.any_eq_true.mp hany
    exact h.others x hlive hout harr y hy (by simpa using hyin)

/-- A lane instruction of a bundle that is the whole member set runs for Executing. -/
theorem laneIssue_of_gathers (hi : expand i = i) (hu : f.h.u = false) (body : Ctx → State → State) :
    laneIssue i m s body = finish (body (s.exeCtx f.h) (s.idleOn f.h)) := by
  have hall : ∀ y ∈ s.bk.members s.wp (s.bk.word (s.sel.thrs.headD 0) m), s.bk.arrived s.sel.pc y = true := by
    rw [h.members_head]; exact h.here
  rw [laneIssue_of_gathered hi h.toPasses hall, if_neg]
  · rw [h.members_head]
    have hexe : (s.sel.thrs.filter fun x => (s.bk.thr x).guard f.h) = s.executing f.h := rfl
    have hbad : (s.executing f.h).filter (fun x => s.bk.hazardous x s.wp (touches i f ++ s.bk.tcNames s.wp i)) = [] := by
      rw [List.filter_eq_nil_iff]
      intro x hx
      have := h.noHazard x hx
      rw [hi] at this
      simp [this]
    dsimp only
    rw [hexe, hbad]
    simp only [List.contains_nil, Bool.not_false, List.filter_true, if_neg h.runs, State.raiseAll, List.foldl_nil]
    rw [State.exeCtx, hu]
    rfl
  · rw [Bool.not_eq_true, List.any_eq_false]
    intro x hx
    obtain ⟨hmem, hword⟩ := h.agree hx
    rw [h.members_head]
    simp [hmem, hword]

/-- A lane instruction that writes registers does what the operation does in whose terms its body is written. -/
theorem lane_wrote (hb : baseOf i = none) (hi : expand i = i) (hm : f.mark = .f) {w : Nat} {d : Dst} (hw : w ≤ 4)
    (hf : FitsAtIssue i w d) {tag : Block → Nat → Tag} {G : Block → Nat → Res} {g : Nat → Res} {body : Ctx → State → State}
    (he : exec i s = laneIssue i m s body)
    (hbody : ∀ t : State, body (s.exeCtx f.h) t =
      ((t.put (s.exeCtx f.h) w d (fun x => BitVec.ofNat 128 (G (t.blk s.sel.blk) x).1) (tag (t.blk s.sel.blk) s.wp)).orFlags
        s.sel.blk s.wp ((s.exeCtx f.h).acting.foldl (fun fl x => fl ||| (G (t.blk s.sel.blk) x).2) 0)).advance
        s.sel.blk (s.executing f.h) s.sel.next)
    (hG : ∀ ts pc x, G (s.bk.advance ts pc) x = g x) :
    ∃ t, exec i s = .next t ∧ s.Wrote t f.h w d g := by
  have halu : exec i s = alu i s w d tag G := by
    rw [he, laneIssue_of_gathers h hi (h.not_uniform hb hi hm), hbody, alu, issue_of_passes h.toPasses]
    rfl
  rw [halu]
  exact alu_spec s i f w d tag G g h.toPasses (hf s f h.toPasses) hw hG

/-- One that raises no flags. -/
theorem lane_wrote_values (hb : baseOf i = none) (hi : expand i = i) (hm : f.mark = .f) {w : Nat} {d : Dst} (hw : w ≤ 4)
    (hf : FitsAtIssue i w d) {tag : Block → Nat → Tag} {G : Block → Nat → Nat} {g : Nat → Nat} {body : Ctx → State → State}
    (he : exec i s = laneIssue i m s body)
    (hbody : ∀ t : State, body (s.exeCtx f.h) t =
      (t.put (s.exeCtx f.h) w d (fun x => BitVec.ofNat 128 (G (t.blk s.sel.blk) x)) (tag (t.blk s.sel.blk) s.wp)).advance
        s.sel.blk (s.executing f.h) s.sel.next)
    (hG : ∀ ts pc x, G (s.bk.advance ts pc) x = g x) :
    ∃ t, exec i s = .next t ∧ s.Wrote t f.h w d fun x => (g x, 0) :=
  lane_wrote h hb hi hm hw hf (tag := tag) (G := fun k x => (G k x, 0)) he
    (fun t => by simp only [hbody, foldl_or_zero, State.orFlags_zero]) fun ts pc x => by rw [hG]

end

/-! ### SHFL (R158) -/

/-- The value of A that a thread receives at a position of the warp. -/
def shflVal (wp : Nat) (exe : List Nat) (op : ShflOp) (seg : Nat) (a b : Src) (k : Block) (x : Nat) : Nat :=
  match shflFrom op seg (laneOf x) (k.word x b) with
  | some q => if exe.contains (wp * 32 + q) then k.num (wp * 32 + q) 1 a else 0
  | none => 0

theorem shflVal_advance (wp : Nat) (exe : List Nat) (op : ShflOp) (seg : Nat) (a b : Src) (k : Block) (x : Nat)
    (ts : List Nat) (pc : DWord) : shflVal wp exe op seg a b (k.advance ts pc) x = shflVal wp exe op seg a b k x := by
  simp [shflVal]

theorem shfl_wrote {s : State} {h : Hdr} {op : ShflOp} {seg : Nat} {d : Dst} {a b m : Src} {f : Uses}
    (hg : s.Gathers (.shfl h op seg d a b m) f m) : ∃ t, exec (.shfl h op seg d a b m) s = .next t ∧
      s.Wrote t h 1 d fun x => (shflVal s.wp (s.executing h) op seg a b s.bk x, 0) := by
  have hm : f.mark = .f := by cases hg.row; rfl
  obtain rfl : f.h = h := by cases hg.row; rfl
  exact lane_wrote_values hg rfl rfl hm (by decide) (fits_ext rfl rfl rfl (.inr (.inl rfl)) (by decide))
    (tag := fun k wp => laneTag [(1, a), (1, b), (1, m)] k wp
      ((s.executing f.h).map (shflVal s.wp (s.executing f.h) op seg a b k)))
    (show exec _ s = execShfl f.h op seg d a b m s from rfl) (fun t => by simp only [shflVal]; rfl) fun ts pc x => shflVal_advance ..

/-! ### BALLOT, MATCH and REDUX (R159, R160) -/

theorem ballot_wrote {s : State} {h : Hdr} {d : Dst} {pa : Nat} {m : Src} {f : Uses}
    (hg : s.Gathers (.ballot h d pa m) f m) : ∃ t, exec (.ballot h d pa m) s = .next t ∧
      s.Wrote t h 1 d fun _ => (maskOf ((s.executing h).filter fun x => (s.bk.thr x).pred pa), 0) := by
  have hm : f.mark = .f := by cases hg.row; rfl
  obtain rfl : f.h = h := by cases hg.row; rfl
  exact lane_wrote_values hg rfl rfl hm (by decide) (fits_ext rfl rfl rfl (.inr (.inl rfl)) (by decide))
    (tag := fun _ _ => .u) (G := fun k _ => maskOf ((s.executing f.h).filter fun x => (k.thr x).pred pa))
    (show exec _ s = execBallot f.h d pa m s from rfl) (fun t => rfl) fun ts pc x => by simp

theorem matchLanes_wrote {s : State} {h : Hdr} {w : Bool} {d : Dst} {a m : Src} {f : Uses}
    (hg : s.Gathers (.matchLanes h w d a m) f m) : ∃ t, exec (.matchLanes h w d a m) s = .next t ∧
      s.Wrote t h 1 d fun x =>
        (maskOf ((s.executing h).filter fun y => s.bk.num y (nTy w).regs a = s.bk.num x (nTy w).regs a), 0) := by
  have hm : f.mark = .f := by cases hg.row; rfl
  obtain rfl : f.h = h := by cases hg.row; rfl
  exact lane_wrote_values hg rfl rfl hm (by decide) (fits_ext rfl rfl rfl (.inr (.inl rfl)) (by decide))
    (tag := fun k wp => laneTag [((nTy w).regs, a), (1, m)] k wp ((s.executing f.h).map fun x =>
      maskOf ((s.executing f.h).filter fun y => k.num y (nTy w).regs a = k.num x (nTy w).regs a)))
    (G := fun k x => maskOf ((s.executing f.h).filter fun y => k.num y (nTy w).regs a = k.num x (nTy w).regs a))
    (show exec _ s = execMatchLanes f.h w d a m s from rfl) (fun t => rfl) fun ts pc x => by simp

/-- The result of a REDUX over threads. -/
def reduxVal (wp : Nat) (exe : List Nat) (op : ReduxOp) (ty : Ty) (rm : Rm) (a : Src) (k : Block) : Res :=
  if ty = .f32 then reduxF32 op rm fun q => if exe.contains (wp * 32 + q) then some (k.num (wp * 32 + q) 1 a) else none
  else (reduxInt op ty (exe.map fun t => k.num t ty.regs a), 0)

theorem reduxVal_advance (wp : Nat) (exe : List Nat) (op : ReduxOp) (ty : Ty) (rm : Rm) (a : Src) (k : Block)
    (ts : List Nat) (pc : DWord) : reduxVal wp exe op ty rm a (k.advance ts pc) = reduxVal wp exe op ty rm a k := by
  simp [reduxVal]

/-- The flags of a result that all acting threads share. -/
theorem foldl_or_same (x : Flags) (l : List Nat) (h : l ≠ []) : l.foldl (fun fl _ => fl ||| x) (0 : Flags) = x := by
  have := foldl_or_const (fun y : Flags => y) x l 0 h
  rw [List.foldl_map] at this
  simpa using this

theorem redux_wrote {s : State} {h : Hdr} {op : ReduxOp} {ty : Ty} {rm : Rm} {d : Dst} {a m : Src} {f : Uses}
    (hg : s.Gathers (.redux h op ty rm d a m) f m) : ∃ t, exec (.redux h op ty rm d a m) s = .next t ∧
      s.Wrote t h ty.regs d fun _ => reduxVal s.wp (s.executing h) op ty rm a s.bk := by
  have hm : f.mark = .f := by cases hg.row; rfl
  obtain rfl : f.h = h := by cases hg.row; rfl
  have hact : (s.exeCtx f.h).acting = s.executing f.h := by
    simp [Ctx.acting, State.exeCtx, State.ctxOf, hg.not_uniform rfl rfl hm]
  refine lane_wrote hg rfl rfl hm (by have := ty.regs_eq; omega) (fits_ext rfl rfl rfl (.inr (.inl rfl)) ty.regs_eq)
    (tag := fun _ _ => .u) (G := fun k _ => reduxVal s.wp (s.executing f.h) op ty rm a k)
    (show exec _ s = execRedux f.h op ty rm d a m s from rfl) (fun t => ?_) fun ts pc x => reduxVal_advance ..
  rw [hact, foldl_or_same _ _ hg.runs]
  rfl

/-! ### VOTE (R159) -/

/-- What VOTE decides of the executing threads' predicates. -/
def voteVal (op : VoteOp) (ps : List Bool) : Bool :=
  match op with
  | .all => ps.all id
  | .any => ps.any id
  | .uni => ps.all id || !ps.any id

theorem vote_decided {s : State} {h : Hdr} {op : VoteOp} {pd pa : Nat} {m : Src} {f : Uses}
    (hg : s.Gathers (.vote h op pd pa m) f m) : ∃ t, exec (.vote h op pd pa m) s = .next t ∧
      s.Decided t h pd fun _ => (voteVal op ((s.executing h).map fun x => (s.bk.thr x).pred pa), 0) := by
  have hm : f.mark = .f := by cases hg.row; rfl
  obtain rfl : f.h = h := by cases hg.row; rfl
  have hexec : exec (.vote f.h op pd pa m) s = aluPred (.vote f.h op pd pa m) s pd fun k _ =>
      (voteVal op ((s.executing f.h).map fun x => (k.thr x).pred pa), 0) := by
    show execVote f.h op pd pa m s = _
    unfold execVote aluPred
    rw [laneIssue_of_gathers hg rfl (hg.not_uniform rfl rfl hm), issue_of_passes hg.toPasses]
    simp only [foldl_or_zero, State.orFlags_zero]
    rfl
  rw [hexec]
  exact aluPred_spec s _ f pd _ _ hg.toPasses fun ts pc x => by simp

theorem voteVal_all (l : List Nat) (p : Nat → Bool) : voteVal .all (l.map p) = decide (∀ x ∈ l, p x = true) := by
  rw [voteVal, Bool.eq_iff_iff, List.all_map, List.all_eq_true, decide_eq_true_eq]
  rfl
theorem voteVal_any (l : List Nat) (p : Nat → Bool) : voteVal .any (l.map p) = decide (∃ x ∈ l, p x = true) := by
  rw [voteVal, Bool.eq_iff_iff, List.any_map, List.any_eq_true, decide_eq_true_eq]
  rfl
/-- All alike: all true or none. -/
theorem voteVal_uni (l : List Nat) (p : Nat → Bool) :
    voteVal .uni (l.map p) = decide (∀ x ∈ l, ∀ y ∈ l, p x = p y) := by
  rw [voteVal, Bool.eq_iff_iff, decide_eq_true_eq]
  simp only [Bool.or_eq_true, Bool.not_eq_true', List.all_map, List.any_map, List.all_eq_true, List.any_eq_false,
    Function.comp, id]
  constructor
  · rintro (hall | hnone) x hx y hy
    · rw [hall x hx, hall y hy]
    · rw [Bool.eq_false_iff.mpr (hnone x hx), Bool.eq_false_iff.mpr (hnone y hy)]
  · intro halike
    by_cases hany : ∃ x ∈ l, p x = true
    · obtain ⟨x, hx, hpx⟩ := hany
      exact .inl fun y hy => by rw [halike y hy x hx, hpx]
    · exact .inr fun x hx hpx => hany ⟨x, hx, hpx⟩

/-! ### The values of the statements -/

section
variable (wp : Nat) (exe : List Nat) (seg : Nat) (a b : Src) (k : Block) (x : Nat)

theorem shflVal_eq (op : ShflOp) : shflVal wp exe op seg a b k x =
    (shflFrom op seg (laneOf x) (k.word x b)).elim 0 fun q => if wp * 32 + q ∈ exe then k.num (wp * 32 + q) 1 a else 0 := by
  unfold shflVal
  cases shflFrom op seg (laneOf x) (k.word x b) <;> simp

theorem shflFrom_rot (q : Nat) (n : Word) : shflFrom .rot seg q n =
    some (q - q % 2 ^ seg + (q % 2 ^ seg + n.toNat % 2 ^ seg) % 2 ^ seg) := by
  simp [shflFrom]

/-- A slide that leaves its segment gives 0. -/
theorem shflVal_slide : shflVal wp exe .slide seg a b k x =
    let o := laneOf x % 2 ^ seg
    let to_ := (o : Int) + (k.word x b).toInt
    if 0 ≤ to_ ∧ to_ < 2 ^ seg then
      if wp * 32 + (laneOf x - o + to_.toNat) ∈ exe then k.num (wp * 32 + (laneOf x - o + to_.toNat)) 1 a else 0
    else 0 := by
  rw [shflVal_eq]
  simp only [shflFrom, Nat.cast_pow, Nat.cast_ofNat]
  split <;> rfl

end

theorem foldl_add_sum (f : Nat → Int) (l : List Nat) (z : Int) : l.foldl (fun z y => z + f y) z = z + (l.map f).sum := by
  induction l generalizing z with
  | nil => simp
  | cons x l ih => rw [List.foldl_cons, ih, List.map_cons, List.sum_cons, Int.add_assoc]

/-- An integer sum over threads. -/
theorem reduxInt_add (ty : Ty) {xs : List Nat} (h : xs ≠ []) : reduxInt .add ty xs = ty.write (xs.map ty.read).sum := by
  obtain ⟨x, l, rfl⟩ := List.exists_cons_of_ne_nil h
  rw [List.map_cons, List.sum_cons, ← foldl_add_sum]
  rfl

/-! ### The obligations -/

/-- Settles O24: each instruction by its rule, whose values are those that the statement writes out. -/
theorem laneRules : Obligations.LaneRules := by
  unfold Obligations.LaneRules
  refine ⟨fun s h seg d a b m f => ⟨fun hg => ?_, fun hg => ?_, fun hg => ?_, fun hg => ?_⟩,
    fun s => ⟨fun h d pa m f hg => ballot_wrote hg, fun h op pd pa m f hg => ?_, fun h w d a m f hg => matchLanes_wrote hg,
      fun h ty rm d a m f hty hg => ?_, fun h op ty rm d a m f hty hg => ?_, fun h op rm d a m f hg => ?_⟩⟩
  · obtain ⟨t, he, hw⟩ := shfl_wrote hg
    refine ⟨t, he, ?_⟩
    simp only [shflVal_eq] at hw
    exact hw
  · obtain ⟨t, he, hw⟩ := shfl_wrote hg
    refine ⟨t, he, ?_⟩
    simp only [shflVal_eq, shflFrom_rot] at hw
    exact hw
  · obtain ⟨t, he, hw⟩ := shfl_wrote hg
    refine ⟨t, he, ?_⟩
    simp only [shflVal_eq] at hw
    exact hw
  · obtain ⟨t, he, hw⟩ := shfl_wrote hg
    refine ⟨t, he, ?_⟩
    simp only [shflVal_slide] at hw
    exact hw
  · obtain ⟨t, he, hd⟩ := vote_decided hg
    refine ⟨t, he, ?_⟩
    cases op
    · rwa [voteVal_all] at hd
    · rwa [voteVal_any] at hd
    · rwa [voteVal_uni] at hd
  · obtain ⟨t, he, hw⟩ := redux_wrote hg
    refine ⟨t, he, ?_⟩
    obtain rfl : f.h = h := by cases hg.row; rfl
    rw [reduxVal, if_neg hty, reduxInt_add ty (by simpa using hg.runs), List.map_map] at hw
    exact hw
  · obtain ⟨t, he, hw⟩ := redux_wrote hg
    refine ⟨t, he, ?_⟩
    rw [reduxVal, if_neg hty] at hw
    exact hw
  · obtain ⟨t, he, hw⟩ := redux_wrote hg
    refine ⟨t, he, ?_⟩
    simp only [reduxVal, if_true, List.contains_iff_mem] at hw
    exact hw

/-- An action that leaves a thread alone once it has raised an exception. -/
theorem State.raiseAt_of_raised (s : State) {b x : Nat} (pc : DWord) (code : Word) (a : Aux)
    (hagent : (s.blk b).agent = false) (h : ((s.blk b).thr x).raised.isSome = true) :
    ((s.raiseAt b x pc code a).blk b) = s.blk b := by
  obtain ⟨n, hn⟩ := s.auxOf_eq a
  unfold State.raiseAt State.raiseExc
  dsimp only
  rw [hn]
  have hk : State.blk { s with tick := n } b = s.blk b := rfl
  rw [hk, if_neg (by simp [hagent]), if_pos (by simp [h])]
  rfl

section
variable {s0 : State} (hb : s0.hasBlk s0.sel.blk) {code : Word} {x : Nat} (hcan : s0.CanRaise x)
include hb hcan

/-- A thread that has raised keeps its exception, whoever raises after it. -/
theorem State.Raised.raiseAll {s : State} (ts : List Nat) (hm : s0.ThreadsMoved s0.sel.blk s) (hr : s0.Raised s x code) :
    s0.Raised (s.raiseAll s0.sel.blk ts s0.sel.pc code .free) x code := by
  induction ts generalizing s with
  | nil => exact hr
  | cons y ts ih =>
    have hy := s.threadsMoved_raiseAt s0.sel.blk y s0.sel.pc code .free
    refine ih (hm.trans hy) (hr.of_thr_eq ?_ hy.stops)
    unfold State.bk
    rw [hy.sel, hm.sel]
    by_cases hxy : x = y
    · subst hxy
      obtain ⟨⟨e, hraised, -⟩, -, -⟩ := hr
      rw [State.bk, hm.sel] at hraised
      rw [s.raiseAt_of_raised _ _ _ ((hm.agent hb).trans hcan.1) (by rw [hraised]; rfl)]
    · exact s.thr_raiseAt_ne _ _ _ (hm.hasBlk hb) hxy

/-- Every thread of a list raises the exception; one that the list names twice keeps its first. -/
theorem State.raised_raiseAll_of_mem {s : State} (ts : List Nat) (hm : s0.ThreadsMoved s0.sel.blk s) (hx : x ∈ ts)
    (hthr : (s.blk s0.sel.blk).thr x = s0.bk.thr x) :
    s0.Raised (s.raiseAll s0.sel.blk ts s0.sel.pc code .free) x code := by
  induction ts generalizing s with
  | nil => simp at hx
  | cons y ts ih =>
    have hy := s.threadsMoved_raiseAt s0.sel.blk y s0.sel.pc code .free
    by_cases hxy : x = y
    · subst hxy
      have hr := State.raised_raiseAll s0 s [x] (by simp) hm hb code x (by simp) hthr hcan
      exact hr.raiseAll hb hcan ts (hm.trans hy)
    · refine ih (hm.trans hy) ((List.mem_cons.mp hx).resolve_left hxy) ?_
      rw [s.thr_raiseAt_ne _ _ _ (hm.hasBlk hb) hxy, hthr]

end

theorem State.ThreadsMoved.sameRegs_bk {s t : State} (h : s.ThreadsMoved s.sel.blk t) (hb : s.hasBlk s.sel.blk) :
    s.bk.SameRegs t.bk := by
  unfold State.bk
  rw [h.sel]
  exact h.sameRegs hb

/-- An instruction that makes threads raise an exception, and does nothing else, traps in them. -/
theorem traps_of_raiseAll {s : State} {i : Instr} {ts : List Nat} {code : Word} (hh : s.hole = false)
    (hb : s.hasBlk s.sel.blk) (he : exec i s = finish (s.raiseAll s.sel.blk ts s.sel.pc code .free)) : Traps s i ts code := by
  have hm := s.threadsMoved_raiseAll s.sel.blk ts s.sel.pc code .free
  exact ⟨_, he.trans (finish_of_noHole (hm.hole.trans hh)),
    fun x hx hcan => State.raised_raiseAll_of_mem hb hcan ts (.refl _ s) hx rfl, hm.mem, hm.sameRegs_bk hb⟩

/-- Settles O25: without a set that has arrived nothing is gathered; a set that has arrived is gathered, and whoever is near it and
disagrees makes all near it raise. -/
theorem gatheringRules : Obligations.GatheringRules := by
  unfold Obligations.GatheringRules
  intro s h d pa m f hp
  have hexec : exec (.ballot h d pa m) s = execBallot h d pa m s := rfl
  refine ⟨fun hnone => ?_, fun hall hdis => ?_⟩
  · have hg : (s.blk (s.ctxOf false).b).gathered (s.ctxOf false).pc m (s.ctxOf false).bundle = none := by
      refine List.find?_eq_none.mpr fun x hx hc => ?_
      obtain ⟨y, hy, harr⟩ := hnone x hx
      rw [hp.oneWarp x hx] at hc
      have := List.all_eq_true.mp hc y hy
      exact absurd (this.symm.trans harr) (by simp)
    have hrow : uses (.ballot h d pa m) = some f := hp.row
    rw [hexec, execBallot, laneIssue, hrow]
    dsimp only
    rw [hg]
    exact finish_of_noHole hp.noHole
  · refine traps_of_raiseAll (ts := s.near m (s.sel.thrs.headD 0)) hp.noHole hp.hasBlk ?_
    rw [hexec, execBallot, laneIssue_of_gathered rfl hp hall, if_pos]
    obtain ⟨y, hy, hd⟩ := hdis
    refine List.any_eq_true.mpr ⟨y, hy, ?_⟩
    rw [Bool.or_eq_true, decide_eq_true_eq, Bool.not_eq_true', List.contains_eq_mem, decide_eq_false_iff_not]
    exact hd

end Sys2Proof.Machine
end

section
/-! PROOFS. MOVS to a narrow-format entry, RDSR of %cyc, and WRSR (spec/07 R145; spec/22 R386..R388). -/
namespace Sys2Proof.Machine

/-! ### Instructions that change their block and go on -/

section
variable {s : State} {i : Instr} {f : Uses} (h : s.Passes i f)
include h

/-- An instruction that makes one change of the bundle's block and sends Executing on. -/
theorem issue_updBlk (F : Block → Block) (body : Ctx → State → State)
    (hbody : body (s.exeCtx f.h) (s.idleOn f.h) =
      ((s.idleOn f.h).updBlk s.sel.blk F).advance s.sel.blk (s.executing f.h) s.sel.next) :
    ∃ t, issue i s body = .next t ∧
      t.bk = (F (s.bk.advance (s.idle f.h) s.sel.next)).advance (s.executing f.h) s.sel.next ∧ s.OnlyBundle t := by
  have hb0 := s.hasBlk_idleOn f.h h.hasBlk
  set s1 := (s.idleOn f.h).updBlk s.sel.blk F with hs1
  set t := s1.advance s.sel.blk (s.executing f.h) s.sel.next with ht
  have hb1 : s1.hasBlk s.sel.blk := (State.hasBlk_updBlk _ _ _ _).mpr hb0
  have hsel0 : (s.idleOn f.h).sel = s.sel := (s.onlyBlocks_idleOn f.h).sel
  have hsel1 : s1.sel = s.sel := (State.onlyBlocks_updBlk _ _ _).sel.trans hsel0
  have ho0 : s.OnlyBundle (s.idleOn f.h) := State.onlyBundle_updBlk s _
  have ho1 : (s.idleOn f.h).OnlyBundle s1 := by
    have := State.onlyBundle_updBlk (s.idleOn f.h) F
    rwa [hsel0] at this
  have ho2 : s1.OnlyBundle t := by
    have := State.onlyBundle_updBlk s1 fun k => k.advance (s.executing f.h) s.sel.next
    rwa [hsel1] at this
  have ho := (ho0.trans ho1).trans ho2
  refine ⟨t, ?_, ?_, ho⟩
  · rw [issue_of_passes h, hbody, finish_of_noHole (ho.1.hole.trans h.noHole)]
  · rw [State.bk, ho.1.sel, ht, State.advance, State.blk_updBlk_self _ _ _ hb1, hs1, State.blk_updBlk_self _ _ _ hb0,
      s.blk_idleOn f.h h.hasBlk]

omit h in
/-- The bundle's threads after a change that leaves threads alone. -/
theorem thr_goneOn {t : State} (F : Block → Block) (hF : ∀ k, (F k).threads = k.threads)
    (hk : t.bk = (F (s.bk.advance (s.idle f.h) s.sel.next)).advance (s.executing f.h) s.sel.next) (x : Nat) :
    t.bk.thr x = if x ∈ s.sel.thrs then { s.bk.thr x with pc := s.sel.next } else s.bk.thr x := by
  have hthr : ∀ j : Block, (F j).thr x = j.thr x := fun j => by unfold Block.thr; rw [hF]
  rw [hk, Block.thr_advance, hthr, Block.thr_advance]
  by_cases hx : x ∈ s.executing f.h
  · have hx' : x ∈ s.sel.thrs := List.mem_of_mem_filter hx
    have hi : x ∉ s.idle f.h := fun hi => ((s.mem_idle f.h x).mp hi).2 hx
    simp [hx, hx', hi]
  · by_cases hx' : x ∈ s.sel.thrs
    · simp [hx, hx', (s.mem_idle f.h x).mpr ⟨hx', hx⟩]
    · have hi : x ∉ s.idle f.h := fun hi => hx' ((s.mem_idle f.h x).mp hi).1
      simp [hx, hx', hi]

end

/-! ### MOVS to an entry -/

theorem Block.fd_setFd (k : Block) {w n w' m : Nat} (x : Word) (hn : n < 16) (hm : m < 16) :
    (k.setFd w n x).fd w' m = if w' = w ∧ m = n then x else k.fd w' m := by
  unfold Block.setFd Block.fd
  rw [Map.get_set]
  exact if_congr (by omega) rfl rfl

theorem movs_toFd {s : State} {h : Hdr} {n : Nat} {b : Src} {f : Uses} (hp : s.Passes (.movs h (.toFd n b)) f) :
    ∃ t, exec (.movs h (.toFd n b)) s = .next t ∧
      (∀ wp m, m < 16 → t.bk.fd wp m = if wp = s.wp ∧ m = n then s.bk.word (s.sel.thrs.headD 0) b else s.bk.fd wp m) ∧
      (∀ x, t.bk.thr x = if x ∈ s.sel.thrs then { s.bk.thr x with pc := s.sel.next } else s.bk.thr x) ∧
      t.bk = { s.bk with threads := t.bk.threads, fds := t.bk.fds, pend := t.bk.pend } ∧ s.OnlyBundle t := by
  have hn : n < 16 := by
    have hwf := hp.dstField_wf rfl rfl
    obtain rfl : f = _ := (Option.some.inj hp.row).symm
    exact of_decide_eq_true hwf
  set F : Block → Block := fun k => k.setFd s.wp n (k.word (s.sel.thrs.headD 0) b) with hF
  obtain ⟨t, he, hk, ho⟩ := issue_updBlk hp F
    (fun c s => (s.updBlk c.b fun k => k.setFd c.wp n (k.word c.lead b)).advance c.b c.exe c.next) rfl
  refine ⟨t, he, fun wp m hm => ?_, thr_goneOn F (fun _ => rfl) hk, ?_, ho⟩
  · rw [hk, Block.advance_fd, hF]
    dsimp only
    rw [Block.fd_setFd _ _ hn hm, Block.advance_word, Block.advance_fd]
  · rw [hk]
    rfl

/-! ### RDSR of %cyc -/

/-- The checks of issue look at blocks and the bundle alone. -/
theorem State.Passes.of_blocks {s t : State} {i : Instr} {f : Uses} (h : s.Passes i f) (hb : t.blocks = s.blocks)
    (hs : t.sel = s.sel) (hh : t.hole = s.hole) : t.Passes i f := by
  have hbk : t.bk = s.bk := by unfold State.bk State.blk; rw [hb, hs]
  have hwp : t.wp = s.wp := by unfold State.wp; rw [hs]
  have hexe : t.executing f.h = s.executing f.h := by unfold State.executing; rw [hbk, hs]
  refine ⟨h.wf, h.row, hh.trans h.noHole, ?_, ?_, ?_, ?_, ?_, ?_⟩
  · have := h.hasBlk
    unfold State.hasBlk at this ⊢
    rwa [hs, hb]
  · rw [hs]; exact h.distinct
  · rw [hs, hwp]; exact h.oneWarp
  · rw [hexe]; exact h.runs
  · rw [hexe, hbk, hwp]; exact h.noHazard
  · rw [hbk, hwp, hs]; exact h.uniform

/-- The threads of a bundle that has written registers. -/
theorem State.Wrote.thr_eq {s t : State} {h : Hdr} {w : Nat} {d : Dst} {g : Nat → Res} (hw : s.Wrote t h w d g) (x : Nat) :
    t.bk.thr x = if x ∈ s.sel.thrs then { s.bk.thr x with pc := s.sel.next } else s.bk.thr x := by
  rw [hw.frameThr x]
  split
  · next hx => rw [hw.pcs x hx]
  · next hx => rw [hw.framePc x hx]

theorem wordAt_setWidth (v : DWord) {j : Nat} (hj : j < 4) : wordAt (v.setWidth 128) j = BitVec.ofNat 32 (v.toNat / 2 ^ (32 * j)) := by
  rw [← wordAt_ofNat _ _ hj, BitVec.ofNat_toNat]

/-- The state in which %cyc has been read. -/
def State.cycRead (s : State) : State := (s.readCyc s.sel.blk).2

theorem rdsr_cyc {s : State} {h : Hdr} {d : Dst} {f : Uses} (hp : s.Passes (.rdsr h 0xC d) f) :
    ∃ t n, exec (.rdsr h 0xC d) s = .next t ∧ n < 2 ^ 32 ∧
      (t.core s.bk.core).cyc = (s.core s.bk.core).cyc + BitVec.ofNat 64 n ∧
      (let v := ((t.core s.bk.core).cyc + (s.core s.bk.core).offsets.get 0 s.bk.fn).setWidth 128
       (∀ m, d = .v m → ∀ x ∈ s.executing h, ∀ j < 2, t.bk.vreg s.wp (m + j) (laneOf x) = wordAt v j) ∧
       ∀ m, d = .s m → ∀ j < 2, t.bk.sreg s.wp (m + j) = wordAt v j) ∧
      (∀ x, t.bk.thr x = if x ∈ s.sel.thrs then { s.bk.thr x with pc := s.sel.next } else s.bk.thr x) ∧ t.mem = s.mem := by
  obtain rfl : f.h = h := by cases hp.row; rfl
  have hp' : s.cycRead.Passes (.rdsr f.h 0xC d) f := hp.of_blocks rfl rfl rfl
  set v : DWord := (s.cycRead.core s.bk.core).cyc + (s.core s.bk.core).offsets.get 0 s.bk.fn with hv
  have hcore : s.cycRead.core s.bk.core = { s.core s.bk.core with
      cyc := (s.core s.bk.core).cyc + BitVec.ofNat 64 (Config.freeNat s.tick % 2 ^ 32) } := State.core_updCore_self _ _ _
  have hval : (s.readCyc s.sel.blk).1 % 2 ^ 64 = v.toNat := by
    have hoff : ((s.cycRead.core s.bk.core).offsets.get 0 s.bk.fn) = (s.core s.bk.core).offsets.get 0 s.bk.fn := by rw [hcore]
    rw [hv, BitVec.toNat_add, ← hoff]
    rfl
  obtain ⟨t, he, hw⟩ := alu_spec s.cycRead (.rdsr f.h 0xC d) f 2 d (tagSpecial 0xC)
    (fun _ _ => ((s.readCyc s.sel.blk).1 % 2 ^ 64, 0)) (fun _ => (v.toNat, 0)) hp'
    (fits_ext rfl rfl rfl (.inl rfl) (by decide) _ _ hp') (by decide) fun _ _ _ => by rw [hval]
  have hcoret : t.core s.bk.core = s.cycRead.core s.bk.core := by rw [hw.frame.1]; rfl
  refine ⟨t, Config.freeNat s.tick % 2 ^ 32, he, Nat.mod_lt _ (by decide), ?_, ⟨fun m hm x hx j hj => ?_, fun m hm j hj => ?_⟩,
    hw.thr_eq, ?_⟩
  · rw [hcoret, hcore]
  · rw [hcoret, wordAt_setWidth _ (by omega)]
    exact hw.vec m hm x hx j hj
  · rw [hcoret, wordAt_setWidth _ (by omega)]
    exact hw.sca m hm j hj
  · rw [hw.frame.1]; rfl

/-! ### WRSR (spec/22 R386..R388) -/

/-- A change of the bundle's warp that sends Executing on, as the statements speak of it. -/
theorem issue_updWarp {s : State} {i : Instr} {f : Uses} (hp : s.Passes i f) (G : Warp → Warp) (body : Ctx → State → State)
    (hbody : body (s.exeCtx f.h) (s.idleOn f.h) =
      ((s.idleOn f.h).updWarp s.sel.blk s.wp G).advance s.sel.blk (s.executing f.h) s.sel.next) :
    ∃ t, issue i s body = .next t ∧ t.bk.warp s.wp = G (s.bk.warp s.wp) ∧
      (∀ x ∈ s.sel.thrs, (t.bk.thr x).pc = s.sel.next) ∧ t.mem = s.mem ∧ s.bk.SameRegs t.bk := by
  obtain ⟨t, he, hk, ho⟩ := issue_updBlk hp (fun k => k.updWarp s.wp G) body hbody
  refine ⟨t, he, ?_, fun x hx => ?_, by rw [ho.1], ?_⟩
  · rw [hk, Block.advance_warp, Block.warp_updWarp, if_pos rfl, Block.advance_warp]
  · rw [thr_goneOn (fun k => k.updWarp s.wp G) (fun _ => rfl) hk, if_pos hx]
  · rw [hk]
    have hsame : ∀ k : Block, k.SameRegs (k.updWarp s.wp G) := fun k => ⟨rfl, rfl, rfl, rfl, rfl, rfl, rfl, rfl, rfl⟩
    exact hsame _

/-- WRSR's turn of a thread: %sp is written, or %epc outside mode 0, where it raises PRIV. -/
def State.wrsrTurn (b : Nat) (pc next : DWord) (num : Nat) (k : Block) (v : Nat → DWord) (s : State) (x : Nat) : State :=
  if num = 0x10 then (s.updThr b x fun th => { th with sp := v x }).advance b [x] next
  else if (k.thr x).mode = 0 then s.raiseAt b x pc cPRIV .free
  else (s.updThr b x fun th => { th with epc := v x }).advance b [x] next

theorem State.thr_updThr_advance (s : State) {b x : Nat} (g : Thread → Thread) (next : DWord) (hb : s.hasBlk b) (y : Nat) :
    (((s.updThr b x g).advance b [x] next).blk b).thr y =
      if y = x then { g ((s.blk b).thr x) with pc := next } else (s.blk b).thr y := by
  have hb1 : (s.updThr b x g).hasBlk b := (State.hasBlk_updBlk _ _ _ _).mpr hb
  rw [State.advance, State.blk_updBlk_self _ _ _ hb1, Block.thr_advance, State.updThr, State.blk_updBlk_self _ _ _ hb,
    Block.thr_updThr]
  by_cases hy : y = x <;> simp [hy]

theorem actsOnThread_wrsrTurn (b : Nat) (pc next : DWord) (num : Nat) (k : Block) (v : Nat → DWord) :
    ActsOnThread b (State.wrsrTurn b pc next num k v) := by
  have hset : ∀ (s : State) x (g : Thread → Thread), s.ThreadsMoved b ((s.updThr b x g).advance b [x] next) :=
    fun s x g => (s.threadsMoved_updThr b x g).trans (State.threadsMoved_advance _ _ _ _)
  refine ⟨fun s x => ?_, fun s x y hb hy => ?_⟩
  · unfold State.wrsrTurn
    split
    · exact hset _ _ _
    · split
      · exact s.threadsMoved_raiseAt _ _ _ _ _
      · exact hset _ _ _
  · unfold State.wrsrTurn
    split
    · rw [State.thr_updThr_advance _ _ _ hb, if_neg hy]
    · split
      · exact s.thr_raiseAt_ne _ _ _ hb hy
      · rw [State.thr_updThr_advance _ _ _ hb, if_neg hy]

section
variable {s : State} {h : Hdr} {num : Nat} {b : Src} {f : Uses}

/-- WRSR of a register of each thread takes Executing in turn. -/
theorem exec_wrsr_thr (hp : s.Passes (.wrsr h num b) f) (hE : num ≠ 0xE) (hF : num ≠ 0xF) :
    exec (.wrsr h num b) s = finish ((s.executing h).foldl
      (State.wrsrTurn s.sel.blk s.sel.pc s.sel.next num s.bk fun x => s.bk.pair (s.actor h x) b) (s.idleOn h)) := by
  obtain rfl : f.h = h := by cases hp.row; rfl
  show execWrsr f.h num b s = _
  unfold execWrsr
  rw [issue_of_passes hp]
  dsimp only
  rw [if_neg hE, if_neg hF]
  refine congrArg finish (List.foldl_ext _ _ _ fun u x hx => ?_)
  have hidle : x ∉ s.idle f.h := fun hi => ((s.mem_idle f.h x).mp hi).2 hx
  have hk : (s.idleOn f.h).blk (s.exeCtx f.h).b = s.bk.advance (s.idle f.h) s.sel.next := s.blk_idleOn f.h hp.hasBlk
  rw [hk, Block.advance_pair, Block.thr_advance, if_neg hidle]
  rfl

/-- What WRSR of a register of each thread leaves of the rest, and the turn of an executing thread: it starts with the thread as
it was, and what it makes of the thread stays. -/
theorem wrsr_thr (hp : s.Passes (.wrsr h num b) f) (hE : num ≠ 0xE) (hF : num ≠ 0xF) :
    ∃ t, exec (.wrsr h num b) s = .next t ∧ t.mem = s.mem ∧ s.bk.SameRegs t.bk ∧
      ∀ x ∈ s.executing h,
        (num = 0x10 → t.bk.thr x = { s.bk.thr x with pc := s.sel.next, sp := s.bk.pair (s.actor h x) b }) ∧
        (num ≠ 0x10 → (s.bk.thr x).mode ≠ 0 →
          t.bk.thr x = { s.bk.thr x with pc := s.sel.next, epc := s.bk.pair (s.actor h x) b }) ∧
        (num ≠ 0x10 → (s.bk.thr x).mode = 0 → s.CanRaise x → s.Raised t x cPRIV) := by
  have hb := hp.hasBlk
  have ha := actsOnThread_wrsrTurn s.sel.blk s.sel.pc s.sel.next num s.bk fun x => s.bk.pair (s.actor h x) b
  have hm0 : s.ThreadsMoved s.sel.blk (s.idleOn h) := s.threadsMoved_advance _ _ _
  have hm := hm0.trans (ha.foldl_moved (s.executing h) _)
  refine ⟨_, (exec_wrsr_thr hp hE hF).trans (finish_of_noHole (hm.hole.trans hp.noHole)), hm.mem, hm.sameRegs_bk hb,
    fun x hx => ?_⟩
  have hd := State.nodup_executing (h := h) hp.distinct
  have hthr0 : ((s.idleOn h).blk s.sel.blk).thr x = s.bk.thr x := by
    rw [s.blk_idleOn h hb, Block.thr_advance, if_neg fun hi => ((s.mem_idle h x).mp hi).2 hx]
  obtain ⟨s1, hm1, ht1, -, ht2⟩ := ha.foldl_turn _ hd _ (hm0.hasBlk hb) x hx
  have hb1 := hm1.hasBlk (hm0.hasBlk hb)
  have hthr1 : (s1.blk s.sel.blk).thr x = s.bk.thr x := ht1.trans hthr0
  refine ⟨fun hn => ?_, fun hn hmode => ?_, fun hn hmode hcan => ?_⟩
  · rw [State.bk, hm.sel, ht2, State.wrsrTurn, if_pos hn, State.thr_updThr_advance _ _ _ hb1, if_pos rfl, hthr1]
  · rw [State.bk, hm.sel, ht2, State.wrsrTurn, if_neg hn, if_neg hmode, State.thr_updThr_advance _ _ _ hb1, if_pos rfl,
      hthr1]
  · refine ha.raised _ hd hm0 rfl hb cPRIV x hx hthr0 (fun u => ?_) hcan
    rw [State.wrsrTurn, if_neg hn, if_pos hmode]

theorem wrsr_fs (hp : s.Passes (.wrsr h 0xE b) f) : ∃ t, exec (.wrsr h 0xE b) s = .next t ∧
    t.bk.warp s.wp = { s.bk.warp s.wp with
      fs := (s.bk.warp s.wp).fs &&& ~~~((s.bk.word (s.actor h ((s.executing h).headD 0)) b).setWidth 7) } ∧
    (∀ x ∈ s.sel.thrs, (t.bk.thr x).pc = s.sel.next) ∧ t.mem = s.mem ∧ s.bk.SameRegs t.bk := by
  obtain rfl : f.h = h := by cases hp.row; rfl
  have he : exec (.wrsr f.h 0xE b) s = execWrsr f.h 0xE b s := rfl
  rw [he, execWrsr]
  refine issue_updWarp hp (fun w => { w with
    fs := w.fs &&& ~~~((s.bk.word (s.actor f.h ((s.executing f.h).headD 0)) b).setWidth 7) }) _ ?_
  have hk : (s.idleOn f.h).blk (s.exeCtx f.h).b = s.bk.advance (s.idle f.h) s.sel.next := s.blk_idleOn f.h hp.hasBlk
  dsimp only
  rw [hk, if_pos rfl, Block.advance_word]
  rfl

theorem wrsr_wstat (hp : s.Passes (.wrsr h 0xF b) f) : ∃ t, exec (.wrsr h 0xF b) s = .next t ∧
    t.bk.warp s.wp = (s.bk.warp s.wp).writeStat (s.bk.word (s.actor h ((s.executing h).headD 0)) b) ∧
    (∀ x ∈ s.sel.thrs, (t.bk.thr x).pc = s.sel.next) ∧ t.mem = s.mem ∧ s.bk.SameRegs t.bk := by
  obtain rfl : f.h = h := by cases hp.row; rfl
  have he : exec (.wrsr f.h 0xF b) s = execWrsr f.h 0xF b s := rfl
  rw [he, execWrsr]
  refine issue_updWarp hp (fun w => w.writeStat (s.bk.word (s.actor f.h ((s.executing f.h).headD 0)) b)) _ ?_
  have hk : (s.idleOn f.h).blk (s.exeCtx f.h).b = s.bk.advance (s.idle f.h) s.sel.next := s.blk_idleOn f.h hp.hasBlk
  dsimp only
  rw [hk, if_neg (by decide), if_pos rfl, Block.advance_word]
  rfl

end

/-- Settles O13: a register of the warp by one change of it, a register of each thread by the threads' turns. -/
theorem specialRegisterRules : Obligations.SpecialRegisterRules := by
  unfold Obligations.SpecialRegisterRules
  refine ⟨fun s => ⟨fun h n b f hp => movs_toFd hp, fun h d f hp => rdsr_cyc hp⟩,
    fun s h b => ⟨fun f hp => ?_, fun f hp => ?_, fun f hp => ?_, fun f hp => ?_⟩⟩
  · obtain ⟨t, he, hw, hpc, hm, hregs⟩ := wrsr_fs hp
    refine ⟨t, he, fun n hn => ?_, hpc, hm, hregs⟩
    rw [hw]
    simp [hn]
  · obtain ⟨t, he, hw, hpc, hm, hregs⟩ := wrsr_wstat hp
    exact ⟨t, he, by rw [hw]; rfl, by rw [hw]; rfl, by rw [hw]; rfl, hpc, hm, hregs⟩
  · obtain ⟨t, he, hm, hregs, hthr⟩ := wrsr_thr hp (by decide) (by decide)
    exact ⟨t, he, fun x hx => (hthr x hx).1 rfl, hm, hregs⟩
  · obtain ⟨t, he, hm, hregs, hthr⟩ := wrsr_thr hp (by decide) (by decide)
    refine ⟨t, he, hm, hregs, fun x hx => ?_⟩
    obtain ⟨-, hepc, hpriv⟩ := hthr x hx
    exact ⟨hepc (by decide), hpriv (by decide)⟩

end Sys2Proof.Machine
end

section
/-! PROOFS. EXIT and the end of a block (spec/07 R166; spec/16 R306). -/
namespace Sys2Proof.Machine

theorem Block.SameRegs.refl (k : Block) : k.SameRegs k := ⟨rfl, rfl, rfl, rfl, rfl, rfl, rfl, rfl, rfl⟩
theorem Block.SameRegs.trans {k j i : Block} (h : k.SameRegs j) (h' : j.SameRegs i) : k.SameRegs i := by
  obtain ⟨h1, h2, h3, h4, h5, h6, h7, h8, h9⟩ := h
  obtain ⟨g1, g2, g3, g4, g5, g6, g7, g8, g9⟩ := h'
  exact ⟨g1.trans h1, g2.trans h2, g3.trans h3, g4.trans h4, g5.trans h5, g6.trans h6, g7.trans h7, g8.trans h8, g9.trans h9⟩
theorem Block.SameRegs.kregs {k j : Block} (h : k.SameRegs j) : j.kregs = k.kregs := h.2.2.2.2.2.2.2.2

/-! ### Threads that leave, and threads that a barrier lets go on -/

/-- What the release of a barrier can do to a thread: one that waits for nothing is left alone. -/
structure Thread.LetGo (u v : Thread) : Prop where
  live : v.live = u.live
  tstack : v.tstack = u.tstack
  free : u.wait = none → v = u

theorem Thread.LetGo.refl (u : Thread) : u.LetGo u := ⟨rfl, rfl, fun _ => rfl⟩
theorem Thread.LetGo.trans {u v w : Thread} (h : u.LetGo v) (h' : v.LetGo w) : u.LetGo w := by
  refine ⟨h'.live.trans h.live, h'.tstack.trans h.tstack, fun hu => ?_⟩
  have hv := h.free hu
  exact (h'.free (hv ▸ hu)).trans hv

/-- The threads `ts` of a block have retired: the block's other threads are at most let go on by a barrier. -/
structure State.Retired (b : Nat) (ts : List Nat) (s t : State) : Prop where
  mem : t.mem = s.mem
  sel : t.sel = s.sel
  hole : t.hole = s.hole
  has : s.hasBlk b → t.hasBlk b
  regs : (s.blk b).SameRegs (t.blk b)
  gone : ∀ x ∈ ts, ((t.blk b).thr x).live = false ∧ ((t.blk b).thr x).tstack = []
  stays : ∀ x ∉ ts, ((s.blk b).thr x).LetGo ((t.blk b).thr x)

namespace State.Retired

theorem refl (b : Nat) (s : State) : State.Retired b [] s s :=
  ⟨rfl, rfl, rfl, id, Block.SameRegs.refl _, fun _ h => absurd h List.not_mem_nil, fun _ _ => .refl _⟩

theorem trans {b : Nat} {ts us : List Nat} {s t u : State} (h : State.Retired b ts s t) (h' : State.Retired b us t u) :
    State.Retired b (ts ++ us) s u := by
  refine ⟨h'.mem.trans h.mem, h'.sel.trans h.sel, h'.hole.trans h.hole, fun hs => h'.has (h.has hs), h.regs.trans h'.regs,
    fun x hx => ?_, fun x hx => ?_⟩
  · by_cases hu : x ∈ us
    · exact h'.gone x hu
    · obtain ⟨hl, ht⟩ := h.gone x ((List.mem_append.mp hx).resolve_right hu)
      have hs := h'.stays x hu
      exact ⟨hs.live.trans hl, hs.tstack.trans ht⟩
  · rw [List.mem_append, not_or] at hx
    exact (h.stays x hx.1).trans (h'.stays x hx.2)

/-- Steps that retire no thread. -/
theorem foldl {α : Type} {b : Nat} (f : State → α → State) (hf : ∀ s a, State.Retired b [] s (f s a)) (as : List α) (s : State) :
    State.Retired b [] s (as.foldl f s) := by
  induction as generalizing s with
  | nil => exact .refl b s
  | cons a as ih => exact (hf s a).trans (ih _)

/-- A change outside the blocks. -/
theorem of_blocks {b : Nat} {s t : State} (hm : t.mem = s.mem) (hs : t.sel = s.sel) (hh : t.hole = s.hole)
    (hb : t.blocks = s.blocks) : State.Retired b [] s t := by
  have hk : t.blk b = s.blk b := by rw [State.blk, hb, State.blk]
  exact ⟨hm, hs, hh, fun h => by rw [State.hasBlk, hb]; exact h, hk ▸ Block.SameRegs.refl _,
    fun _ h => absurd h List.not_mem_nil, fun x _ => hk ▸ .refl _⟩

/-- A change of one block, this one or another. -/
theorem updBlk {b y : Nat} {ts : List Nat} (s : State) (f : Block → Block) (hf : ∀ k : Block, k.SameRegs (f k))
    (hg : ∀ x ∈ ts, y = b ∧ s.hasBlk b ∧ ((f (s.blk b)).thr x).live = false ∧ ((f (s.blk b)).thr x).tstack = [])
    (hl : ∀ (k : Block), ∀ x ∉ ts, (k.thr x).LetGo ((f k).thr x)) : State.Retired b ts s (s.updBlk y f) := by
  have ho := State.onlyBlocks_updBlk s y f
  by_cases h : b = y ∧ s.hasBlk y
  · obtain ⟨rfl, hb⟩ := h
    have hk := State.blk_updBlk_self s b f hb
    refine ⟨by rw [ho], ho.sel, ho.hole, (State.hasBlk_updBlk _ _ _ _).mpr, hk ▸ hf _, fun x hx => ?_, fun x hx => hk ▸ hl _ x hx⟩
    obtain ⟨-, -, hx⟩ := hg x hx
    exact hk ▸ hx
  · have hk : (s.updBlk y f).blk b = s.blk b := by
      by_cases hy : b = y
      · subst hy
        have hn : s.blocks.get none b = none := by
          simpa [State.hasBlk] using fun hb => h ⟨rfl, hb⟩
        simp [State.blk, State.blocks_updBlk, hn]
      · exact State.blk_updBlk_ne s f hy
    refine ⟨by rw [ho], ho.sel, ho.hole, (State.hasBlk_updBlk _ _ _ _).mpr, hk ▸ Block.SameRegs.refl _, fun x hx => ?_,
      fun x hx => hk ▸ .refl _⟩
    obtain ⟨rfl, hb, -⟩ := hg x hx
    exact absurd ⟨rfl, hb⟩ h

/-- A block without convergence sets stays one. -/
theorem kinds {b : Nat} {ts : List Nat} {s t : State} (h : State.Retired b ts s t)
    (hk : ∀ n < 8, ((s.blk b).kreg n).kind = 0) : ∀ n < 8, ((t.blk b).kreg n).kind = 0 := by
  intro n hn
  rw [Block.kreg, h.regs.kregs]
  exact hk n hn

end State.Retired

/-! ### Barriers that release -/

theorem Map.get_map_val {β : Type} (d : β) (g : β → β) (hd : g d = d) (m : Map β) (k : Nat) :
    Map.get d (m.map fun e => (e.1, g e.2)) k = g (Map.get d m k) := by
  induction m with
  | nil => exact hd.symm
  | cons e m ih =>
    obtain ⟨j, x⟩ := e
    simp only [List.map_cons, Map.get_cons]
    split
    · rfl
    · exact ih

/-- A thread when waits of a kind are released. -/
def Thread.release (u : Thread) (f : Wait → Option DWord) : Thread :=
  match (if u.raised.isNone then u.wait.bind f else none) with
  | some pc => { u with wait := none, pc := pc }
  | none => u

theorem Thread.letGo_release (u : Thread) (f : Wait → Option DWord) : u.LetGo (u.release f) := by
  unfold Thread.release
  split
  · next h => exact ⟨rfl, rfl, fun hu => by simp [hu] at h⟩
  · exact .refl u

theorem Block.release_threads (k : Block) (f : Wait → Option DWord) :
    (k.release f).threads = k.threads.map fun e => (e.1, e.2.release f) := by
  refine List.map_congr_left fun e _ => ?_
  unfold Thread.release
  cases (if e.2.raised.isNone then e.2.wait.bind f else none) <;> rfl

theorem Block.thr_release (k : Block) (f : Wait → Option DWord) (x : Nat) : (k.release f).thr x = (k.thr x).release f := by
  rw [Block.thr, Block.release_threads]
  exact Map.get_map_val {} (fun u : Thread => u.release f) rfl k.threads x

/-- A change of a block that releases waits and moves no register. -/
theorem State.Retired.release {b : Nat} (s : State) (y : Nat) (f : Wait → Option DWord) (g : Block → Block)
    (hr : ∀ k : Block, k.SameRegs (g k)) (ht : ∀ k : Block, (g k).threads = (k.release f).threads) :
    State.Retired b [] s (s.updBlk y g) := by
  refine .updBlk s g hr (fun _ h => absurd h List.not_mem_nil) fun k x _ => ?_
  have : (g k).thr x = (k.thr x).release f := by rw [Block.thr, ht k]; exact k.thr_release f x
  exact this ▸ Thread.letGo_release _ _

theorem State.retired_dropMask {b : Nat} (s : State) (core line : Nat) (m : BitVec 128) :
    State.Retired b [] s (s.dropMask core line m) := by
  unfold State.dropMask
  split
  · exact .refl b s
  · exact .of_blocks rfl rfl rfl rfl

theorem State.retired_acquire {b : Nat} (s : State) (core : Nat) : State.Retired b [] s (s.acquire core) := by
  refine .foldl _ (fun s l => ?_) _ s
  split
  · exact .refl b s
  · exact s.retired_dropMask _ _ _

theorem State.retired_checkBar {b : Nat} (s : State) (c : Nat) : State.Retired b [] s (s.checkBar c) := by
  unfold State.checkBar
  dsimp only
  split
  · exact (s.retired_acquire _).trans (.release _ c _ _ (fun _ => Block.SameRegs.refl _) fun _ => rfl)
  · exact .refl b s

theorem State.retired_checkGbar {b : Nat} (s : State) (c g : Nat) : State.Retired b [] s (s.checkGbar c g) := by
  unfold State.checkGbar
  dsimp only
  split
  · exact (s.retired_acquire _).trans (.release _ c _ _ (fun _ => Block.SameRegs.refl _) fun _ => rfl)
  · exact .refl b s

theorem State.retired_checkClbar {b : Nat} (s : State) (c : Nat) : State.Retired b [] s (s.checkClbar c) := by
  unfold State.checkClbar
  dsimp only
  split
  · refine .foldl _ (fun s x => ?_) _ s
    exact (s.retired_acquire _).trans (.release _ x _ _ (fun _ => Block.SameRegs.refl _) fun _ => rfl)
  · exact .refl b s

theorem State.retired_checkBarriers {b : Nat} (s : State) (c : Nat) : State.Retired b [] s (s.checkBarriers c) :=
  ((s.retired_checkBar c).trans (.foldl _ (fun s g => s.retired_checkGbar c g) _ _)).trans (State.retired_checkClbar _ c)

/-! ### EXIT -/

/-- A thread of a block without convergence sets leaves none. -/
theorem State.leaveSets_of_kind (s : State) (b x : Nat) (h : ∀ n < 8, ((s.blk b).kreg n).kind = 0) : s.leaveSets b x = s := by
  have hstep : ∀ (ns : List Nat), (∀ n ∈ ns, n < 8) → ∀ f : State → Nat → State,
      (∀ n < 8, f s n = s) → ns.foldl f s = s := by
    intro ns hns f hf
    induction ns with
    | nil => rfl
    | cons n ns ih =>
      rw [List.foldl_cons, hf n (hns n List.mem_cons_self)]
      exact ih fun m hm => hns m (List.mem_cons_of_mem n hm)
  refine hstep _ (fun n hn => List.mem_range.mp hn) _ fun n hn => ?_
  simp [h n hn]

theorem State.retired_retire {b : Nat} (s : State) (x : Nat) (hb : s.hasBlk b)
    (hk : ∀ n < 8, ((s.blk b).kreg n).kind = 0) : State.Retired b [x] s (s.retire b x) := by
  have h1 : State.Retired b [x] s (s.updThr b x fun th => { th with live := false, tstack := [], wait := none }) := by
    refine .updBlk s _ (fun _ => Block.SameRegs.refl _) (fun y hy => ?_) fun k y hy => ?_
    · rw [Block.thr_updThr, if_pos (List.mem_singleton.mp hy)]
      exact ⟨rfl, hb, rfl, rfl⟩
    · rw [Block.thr_updThr, if_neg (mt List.mem_singleton.mpr hy)]
      exact .refl _
  have hk1 := h1.kinds hk
  unfold State.retire
  dsimp only
  rw [State.leaveSets_of_kind _ b x hk1]
  exact h1.trans (State.retired_checkBarriers _ b)

theorem State.retired_foldl {b : Nat} (ts : List Nat) (s : State) (hb : s.hasBlk b)
    (hk : ∀ n < 8, ((s.blk b).kreg n).kind = 0) : State.Retired b ts s (ts.foldl (fun s t => s.retire b t) s) := by
  induction ts generalizing s with
  | nil => exact .refl b s
  | cons x xs ih =>
    have h1 := s.retired_retire x hb hk
    rw [List.foldl_cons, ← List.singleton_append]
    exact h1.trans (ih _ (h1.has hb) (h1.kinds hk))

theorem exit_retires {s : State} {h : Hdr} {f : Uses} (hp : s.Passes (.exit h) f)
    (hk : ∀ n < 8, (s.bk.kreg n).kind = 0) : ∃ t, exec (.exit h) s = .next t ∧
      (∀ x ∈ s.executing h, (t.bk.thr x).live = false ∧ (t.bk.thr x).tstack = []) ∧
      (∀ x, x ∉ s.executing h → (t.bk.thr x).live = (s.bk.thr x).live) ∧
      (∀ x ∈ s.sel.thrs, x ∉ s.executing h → (s.bk.thr x).wait = none → (t.bk.thr x).pc = s.sel.next) ∧
      t.mem = s.mem ∧ s.bk.SameRegs t.bk := by
  obtain rfl : f.h = h := by cases hp.row; rfl
  have hb := s.hasBlk_idleOn f.h hp.hasBlk
  have hbk := s.blk_idleOn f.h hp.hasBlk
  have ho := s.onlyBlocks_idleOn f.h
  have hr := State.retired_foldl (s.executing f.h) (s.idleOn f.h) hb (by rw [hbk]; exact hk)
  set t := (s.executing f.h).foldl (fun s' x => s'.retire s.sel.blk x) (s.idleOn f.h) with ht
  refine ⟨t, (issue_of_passes hp _).trans (finish_of_noHole ((hr.hole.trans ho.hole).trans hp.noHole)), ?_⟩
  have htb : t.bk = t.blk s.sel.blk := by rw [State.bk, hr.sel, ho.sel]
  have hthr : ∀ x, (s.bk.advance (s.idle f.h) s.sel.next).thr x =
      if x ∈ s.idle f.h then { s.bk.thr x with pc := s.sel.next } else s.bk.thr x := Block.thr_advance _ _ _
  have hst : ∀ x ∉ s.executing f.h, ((s.bk.advance (s.idle f.h) s.sel.next).thr x).LetGo (t.bk.thr x) := by
    intro x hx
    rw [htb, ← hbk]
    exact hr.stays x hx
  refine ⟨fun x hx => htb ▸ hr.gone x hx, fun x hx => ?_, fun x hx hne hw => ?_, hr.mem.trans (by rw [ho]), ?_⟩
  · rw [(hst x hx).live, hthr]
    split <;> rfl
  · have hi := (s.mem_idle f.h x).mpr ⟨hx, hne⟩
    have hl := hst x hne
    rw [hthr, if_pos hi] at hl
    rw [hl.free hw]
  · rw [htb]
    have := hr.regs
    rw [hbk] at this
    exact this

/-! ### The end of a block -/

/-- A core that gives up no line. -/
theorem State.dropLines_nil (s : State) (core : Nat) : s.dropLines core [] = s := by
  simp [State.dropLines, State.recallWords]

theorem State.smapLines_nil (s : State) (b : Nat) (h : (s.blk b).smaps = []) : s.smapLines b = [] := by
  simp [State.smapLines, Block.smap, h]

/-- A sweep that finds no dead block whose allocation is still held. -/
theorem State.sweepDead_of_noticed (s : State) (h : ∀ c, (s.blk c).status = .dead → (s.blk c).notice = true) :
    s.sweepDead = s := by
  unfold State.sweepDead
  generalize s.blocks.map (·.1) = cs
  induction cs with
  | nil => rfl
  | cons c cs ih =>
    rw [List.foldl_cons, if_neg]
    · exact ih
    · by_cases hd : (s.blk c).status = .dead
      · simp [h c hd]
      · simp [hd]

theorem State.launchOf_updLaunch {s : State} {fn : Nat} {lid : Word} {l : Launch} (g : Launch → Launch)
    (hg : ∀ l, (g l).fn = l.fn ∧ (g l).lid = l.lid) (h : s.launchOf fn lid = some l) :
    (s.updLaunch fn lid g).launchOf fn lid = some (g l) := by
  set p := fun l : Launch => decide (l.fn = fn) && decide (l.lid = lid) with hp
  set G := fun l : Launch => if l.fn = fn && l.lid = lid then g l else l with hG
  have hpG : p ∘ G = p := by
    funext m
    simp only [Function.comp, hp, hG]
    split
    · rw [(hg m).1, (hg m).2]
    · rfl
  have hl : p l = true := List.find?_some h
  have hGl : G l = g l := if_pos hl
  calc (s.updLaunch fn lid g).launchOf fn lid
    _ = (s.launches.map G).find? p := rfl
    _ = ((s.launches.find? p).map G) := by rw [List.find?_map, hpG]
    _ = some (g l) := by rw [← hGl, show s.launches.find? p = some l from h]; rfl

/-- A block that has all gone, and that writes nothing back, is taken off its core and counted. -/
theorem blockEnd_leaves {s : State} {b : Nat} {l : Launch} (hh : s.hole = false)
    (hst : (s.blk b).status = .running) (ha : (s.blk b).agent = false) (hlv : (s.blk b).liveThreads = [])
    (hq : s.quiet b = true) (hpl : s.PlainFor b) (hsm : (s.blk b).smaps = []) (hocc : ∀ r, (s.region r).occ = 0)
    (hd : ∀ c, (s.blk c).status = .dead → (s.blk c).notice = true)
    (hl : s.launchOf (s.blk b).fn (s.blk b).lid = some l) :
    ∃ t, exec (.blockEnd b) s = .next t ∧ t.blocks.get none b = none ∧
      t.launchOf l.fn l.lid = some { l with ended := l.ended ++ [(s.blk b).q] } ∧ t.mem = s.mem := by
  have hcommit : s.commit b false = s := by simp [State.commit, hpl.uncontained]
  have hdrop : s.dropLines (s.blk b).core (s.smapLines b) = s := by
    rw [s.smapLines_nil b hsm, State.dropLines_nil]
  have hnotice : s.occNotice (s.blk b).core = s := by simp [State.occNotice, hocc]
  set g := fun l : Launch => { l with ended := l.ended ++ [(s.blk b).q] } with hg
  set s1 := s.updLaunch (s.blk b).fn (s.blk b).lid g with hs1
  have hblk : ∀ c, (s1.dropBlock b).blk c = if c = b then {} else s.blk c := by
    intro c
    have : (s1.dropBlock b).blocks = s.blocks.set none b none := by
      unfold State.dropBlock State.freeGroups
      dsimp only
      split <;> rfl
    rw [State.blk, this, Map.get_set]
    split <;> rfl
  have hsweep : (s1.dropBlock b).sweepDead = s1.dropBlock b := by
    refine State.sweepDead_of_noticed _ fun c hc => ?_
    rw [hblk] at hc ⊢
    split at hc
    · exact absurd hc (by decide)
    · next hcb => rw [if_neg hcb]; exact hd c hc
  obtain ⟨hfn, hlid⟩ : l.fn = (s.blk b).fn ∧ l.lid = (s.blk b).lid := by
    simpa using List.find?_some hl
  have hdb : s1.dropBlock b = { (s1.freeGroups b) with blocks := (s1.freeGroups b).blocks.set none b none } := rfl
  have hfree : (s1.freeGroups b).hole = s.hole ∧ (s1.freeGroups b).launches = s1.launches ∧ (s1.freeGroups b).mem = s.mem := by
    unfold State.freeGroups
    dsimp only
    split <;> exact ⟨rfl, rfl, rfl⟩
  obtain ⟨hhole, hlaunch, hmem⟩ := hfree
  refine ⟨s1.dropBlock b, ?_, ?_, ?_, hmem⟩
  · have hrun : exec (.blockEnd b) s = execBlockEnd b s := rfl
    rw [hrun, execBlockEnd]
    simp only [hst, ha, hlv, hq, hcommit, hpl.untraced, hdrop, hnotice, reduceCtorEq, decide_true, decide_false, Bool.true_or,
      Bool.not_true, ne_eq, not_true_eq_false, Bool.or_self, if_false, Option.isSome_none, Bool.false_eq_true]
    rw [← hs1, hsweep]
    exact finish_of_noHole (hhole.trans hh)
  · exact Map.get_set_self none none _ b
  · have hcount := State.launchOf_updLaunch g (fun _ => ⟨rfl, rfl⟩) hl
    rw [← hfn, ← hlid] at hcount
    rw [State.launchOf, hdb]
    dsimp only
    rw [hlaunch, hs1, ← hfn, ← hlid]
    exact hcount

/-- Settles O12: each executing thread retires in turn, and what its leaving releases at a barrier changes only threads that wait
there. A quiet block has nothing to commit, to write or to give up, so what is left of its end is its launch's count. -/
theorem endRules : Obligations.EndRules := by
  unfold Obligations.EndRules
  refine ⟨fun s h f hp hk => exit_retires hp hk, ?_⟩
  intro s b l hh _ hst ha hlv hq hpl hsm hocc hd hl
  exact blockEnd_leaves hh hst ha hlv hq hpl hsm hocc hd hl

end Sys2Proof.Machine
end

section
/-! PROOFS. A core's L1 and the LLC under plain loads and stores of a thread (spec/10 R189, R197, R201). -/
namespace Sys2Proof.Machine

/-! ### What an access leaves alone -/

/-- Of the machine, only memory, the L1 of one core, the LLC and what awaits registration differ, and the count of free values. -/
structure State.L1Only (core : Nat) (s t : State) : Prop where
  rest : t = { s with mem := t.mem, cores := t.cores, llc := t.llc, pendReg := t.pendReg, tick := t.tick }
  lines : ∀ c, t.core c = { s.core c with l1 := (t.core c).l1 }
  others : ∀ c, c ≠ core → t.core c = s.core c

namespace State.L1Only
variable {core : Nat} {s t u : State}

theorem refl (core : Nat) (s : State) : State.L1Only core s s := ⟨rfl, fun _ => rfl, fun _ _ => rfl⟩

theorem trans (h : State.L1Only core s t) (h' : State.L1Only core t u) : State.L1Only core s u := by
  refine ⟨?_, fun c => ?_, fun c hc => (h'.others c hc).trans (h.others c hc)⟩
  · rw [h'.rest, h.rest]
  · rw [h'.lines c, h.lines c]

theorem blocks (h : State.L1Only core s t) : t.blocks = s.blocks := by rw [h.rest]
theorem blk (h : State.L1Only core s t) (b : Nat) : t.blk b = s.blk b := by rw [State.blk, h.blocks, State.blk]
theorem sel (h : State.L1Only core s t) : t.sel = s.sel := by rw [h.rest]
theorem owners (h : State.L1Only core s t) : t.owners = s.owners := by rw [h.rest]
theorem poisoned (h : State.L1Only core s t) : t.poisoned = s.poisoned := by rw [h.rest]
theorem roasts (h : State.L1Only core s t) : t.roasts = s.roasts := by rw [h.rest]
theorem sideTags (h : State.L1Only core s t) : t.sideTags = s.sideTags := by rw [h.rest]
theorem decafs (h : State.L1Only core s t) : t.decafs = s.decafs := by rw [h.rest]

/-- A change of memory, the LLC, registrations or the count of free values. -/
theorem of_cores (h : t = { s with mem := t.mem, llc := t.llc, pendReg := t.pendReg, tick := t.tick }) :
    State.L1Only core s t := by
  have hc : ∀ c, t.core c = s.core c := fun c => by rw [h]; rfl
  refine ⟨?_, fun c => ?_, fun c _ => hc c⟩
  · rw [h]
  · rw [hc]

theorem setL1 (s : State) (core line : Nat) (x : Option L1Line) : State.L1Only core s (s.setL1 core line x) := by
  refine ⟨rfl, fun c => ?_, fun c hc => State.core_updCore_ne s _ hc⟩
  by_cases hc : c = core
  · subst hc
    rw [State.setL1, State.core_updCore_self]
  · rw [State.setL1, State.core_updCore_ne s _ hc]

/-- Steps that each leave the rest alone. -/
theorem foldl {α : Type} (f : State → α → State) (hf : ∀ s a, State.L1Only core s (f s a)) (as : List α) (s : State) :
    State.L1Only core s (as.foldl f s) := by
  induction as generalizing s with
  | nil => exact refl core s
  | cons a as ih => exact (hf s a).trans (ih _)

end State.L1Only

/-! ### The LLC -/

/-- No window has a format, and no line has a side tag. -/
structure State.Unroasted (s : State) : Prop where
  roasts : s.roasts = []
  sideTags : s.sideTags = []

/-- Nothing but the LLC and the count of free values differs. -/
def State.LlcOnly (s t : State) : Prop := t = { s with llc := t.llc, tick := t.tick }

namespace State.LlcOnly
variable {s t u : State}

theorem refl (s : State) : s.LlcOnly s := rfl
theorem trans (h : s.LlcOnly t) (h' : t.LlcOnly u) : s.LlcOnly u := by
  unfold State.LlcOnly at *
  rw [h', h]
theorem unroasted (h : s.LlcOnly t) (hu : s.Unroasted) : t.Unroasted := by
  unfold State.LlcOnly at h
  exact ⟨by rw [h]; exact hu.roasts, by rw [h]; exact hu.sideTags⟩
theorem mem (h : s.LlcOnly t) : t.mem = s.mem := by rw [h]
theorem cores (h : s.LlcOnly t) : t.cores = s.cores := by rw [h]
theorem pendReg (h : s.LlcOnly t) : t.pendReg = s.pendReg := by rw [h]
theorem l1Only (h : s.LlcOnly t) (core : Nat) : State.L1Only core s t := .of_cores (by rw [h])

end State.LlcOnly

theorem State.Unroasted.scaledAt {s : State} (hu : s.Unroasted) (pa : Nat) : s.scaledAt pa = none := by
  simp [State.scaledAt, hu.roasts]

theorem State.llcOnly_llcEvict {s : State} (hu : s.Unroasted) (line : Nat) : s.LlcOnly (s.llcEvict line) := by
  have htag : s.tagBack line = s := by simp [State.tagBack, hu.sideTags]
  unfold State.llcEvict
  dsimp only
  rw [htag, ite_self]
  split
  · exact .refl s
  · have hset : s.sideTags.set none line none = s.sideTags := by rw [hu.sideTags]; rfl
    rw [hset, ite_self]
    rfl

theorem State.llcOnly_llcRoom {s : State} (hu : s.Unroasted) (line : Nat) : s.LlcOnly (s.llcRoom line) := by
  unfold State.llcRoom
  dsimp only
  generalize (if s.llc.length < llcCap then [] else s.llc.filter fun e => s.home (e.1 * 128) = s.home (line * 128)) = l
  split
  · exact .refl s
  · have hf : s.LlcOnly s.freeNat.2 := rfl
    exact hf.trans (State.llcOnly_llcEvict (hf.unroasted hu) _)

theorem State.llcOnly_llcFill {s : State} (hu : s.Unroasted) (line : Nat) : s.LlcOnly (s.llcFill line) := by
  unfold State.llcFill
  dsimp only
  split
  · exact .refl s
  · have hr := State.llcOnly_llcRoom hu line
    have hl : s.LlcOnly { s.llcRoom line with llc := (s.llcRoom line).llc.set 0 line 1 } := hr.trans rfl
    rw [(hl.unroasted hu).scaledAt]
    exact hl

theorem State.llcOnly_touch {s : State} (hu : s.Unroasted) {pa n : Nat} (hd : inDevice pa n = true) :
    s.LlcOnly (s.touch pa n) := by
  unfold State.touch
  rw [hd, if_neg (by decide)]
  split
  · exact .refl s
  · generalize List.range ((pa + n - 1) / 128 - pa / 128 + 1) = js
    induction js generalizing s with
    | nil => exact .refl s
    | cons j js ih =>
      have h := State.llcOnly_llcFill hu (pa / 128 + j)
      exact h.trans (ih (h.unroasted hu))

/-! ### Lines of an L1 -/

theorem State.l1At_setL1 (s : State) (core line : Nat) (x : Option L1Line) (l : Nat) :
    (s.setL1 core line x).l1At core l = if l = line then x else s.l1At core l := by
  rw [State.l1At, State.setL1, State.core_updCore_self]
  exact Map.get_set none x _ line l

/-- The lines of a list of which a predicate holds, after one more is put in. -/
theorem Map.length_filter_insert_le {β : Type} (p : Nat × β → Bool) (m : Map β) (k : Nat) (v : β) :
    ((m.insert k v).filter p).length ≤ (m.filter p).length + 1 := by
  have h1 : ((k, v) :: m).countP p ≤ m.countP p + 1 := by
    rw [List.countP_cons]
    split <;> omega
  have h2 : (m.insert k v).countP p ≤ m.countP p + 1 := by
    clear h1
    induction m with
    | nil => simpa [Map.insert] using List.countP_le_length (p := p) (l := [(k, v)])
    | cons e m ih =>
      obtain ⟨j, x⟩ := e
      unfold Map.insert
      split
      · rw [List.countP_cons]
        split <;> omega
      · rw [List.countP_cons, List.countP_cons]
        omega
  rwa [List.countP_eq_length_filter, List.countP_eq_length_filter] at h2

theorem Map.length_filter_set_le {β : Type} [DecidableEq β] (d : β) (p : Nat × β → Bool) (m : Map β) (k : Nat) (v : β) :
    ((m.set d k v).filter p).length ≤ (m.filter p).length + 1 := by
  have he : ((m.erase k).filter p).length ≤ (m.filter p).length := by
    unfold Map.erase
    rw [List.filter_filter, ← List.countP_eq_length_filter, ← List.countP_eq_length_filter]
    exact List.countP_mono_left fun e _ h => by simp at h; exact h.1
  unfold Map.set
  split
  · omega
  · exact (Map.length_filter_insert_le p _ k v).trans (by omega)

theorem State.l1Count_setL1_le (s : State) (core line : Nat) (x : Option L1Line) :
    (s.setL1 core line x).l1Count core ≤ s.l1Count core + 1 := by
  rw [State.l1Count, State.setL1, State.core_updCore_self]
  exact Map.length_filter_set_le none _ _ line x

theorem State.l1Room_of_room {s : State} {core : Nat} (h : s.l1Count core < l1Cap) : s.l1Room core = s := by
  rw [State.l1Room, if_pos h]

/-- What a block that holds nothing back sees of a byte: a store of its core, else memory. -/
def State.coreSees (s : State) (core a : Nat) : Byte := (s.ownByte core a).getD (s.byte a)

theorem State.seen_eq {s : State} {b : Nat} (hb : (s.blk b).buf = [] ∧ (s.blk b).merges = []) (a : Nat) :
    s.seen b a = s.coreSees (s.blk b).core a := by
  simp [State.seen, State.loadByte, hb.1, hb.2, State.coreSees, State.dieByte, State.remote]

theorem State.ownByte_congr {s t : State} {core : Nat} (h : t.l1At core = s.l1At core) (a : Nat) :
    t.ownByte core a = s.ownByte core a := by
  rw [State.ownByte, h, State.ownByte]

/-- The lines that bytes reach are of device memory, of pages that are not decaf, and whole. -/
def State.LinesPlain (s : State) (core pa n : Nat) : Prop :=
  ∀ l, pa / 128 ≤ l → l ≤ (pa + n - 1) / 128 → ∀ x, s.l1At core l = some x → x.decaf = false ∧ x.data.length = 128

theorem State.LinesPlain.congr {s t : State} {core pa n : Nat} (hp : s.LinesPlain core pa n)
    (h : t.l1At core = s.l1At core) : t.LinesPlain core pa n := by
  intro l h1 h2 x hx
  rw [h] at hx
  exact hp l h1 h2 x hx

theorem State.LinesPlain.setL1 {s : State} {core pa n line : Nat} {y : L1Line} (hp : s.LinesPlain core pa n)
    (hy : y.decaf = false ∧ y.data.length = 128) : (s.setL1 core line (some y)).LinesPlain core pa n := by
  intro l h1 h2 x hx
  rw [State.l1At_setL1] at hx
  split at hx
  · rw [← Option.some.inj hx]; exact hy
  · exact hp l h1 h2 x hx

/-! ### One byte of a store -/

section
variable {s : State} {core : Nat}

theorem getLsbD_byteBit (p j : Nat) (hp : p < 128) : (1#128 <<< p).getLsbD j = decide (j = p) := by
  rw [BitVec.getLsbD_shiftLeft]
  by_cases h : j = p
  · subst h; simp [hp]
  · by_cases hj : j < p
    · simp [h, hj]
    · have : j - p ≠ 0 := by omega
      simp [h, this]

/-- A byte of a store is the core's own from then on, and changes no other byte of it. -/
theorem State.putL1_spec {pa n a : Nat} (x : Byte) (hroom : s.l1Count core < l1Cap) (hp : s.LinesPlain core pa n)
    (ha : pa ≤ a ∧ a < pa + n) :
    State.L1Only core s (s.putL1 core false a x) ∧ (s.putL1 core false a x).mem = s.mem ∧
      (s.putL1 core false a x).pendReg = s.pendReg ∧ (s.putL1 core false a x).LinesPlain core pa n ∧
      (s.putL1 core false a x).l1Count core ≤ s.l1Count core + 1 ∧
      ∀ c, (s.putL1 core false a x).ownByte core c = if c = a then some x else s.ownByte core c := by
  set old := (s.l1At core (a / 128)).getD { data := List.replicate 128 0, valid := 0, dirty := 0, home := s.home a } with hold
  set y : L1Line :=
    { old with data := old.data.set (a % 128) x, valid := old.valid ||| (1#128 <<< (a % 128)),
               dirty := old.dirty ||| (1#128 <<< (a % 128)), decaf := false } with hy
  have he : s.putL1 core false a x = s.setL1 core (a / 128) (some y) := by
    unfold State.putL1
    simp only [State.l1Room_of_room hroom, ite_self]
    rfl
  have hlen : old.data.length = 128 := by
    rw [hold]
    cases hl : s.l1At core (a / 128) with
    | none => simp
    | some z => exact (hp (a / 128) (by omega) (by omega) z hl).2
  have hbit := Nat.mod_lt a (show 0 < 128 by decide)
  rw [he]
  refine ⟨.setL1 s core _ _, rfl, rfl, hp.setL1 ⟨rfl, by simpa [hy] using hlen⟩, s.l1Count_setL1_le core _ _, fun c => ?_⟩
  have hown : s.ownByte core c = if c / 128 = a / 128 then
      (if old.dirty.getLsbD (c % 128) then some ((old.data[c % 128]?).getD 0) else none) else s.ownByte core c := by
    split
    · next hc =>
      rw [State.ownByte, hc, hold]
      cases hl : s.l1At core (a / 128) with
      | none => simp
      | some z => simp
    · rfl
  rw [State.ownByte, State.l1At_setL1]
  by_cases hc : c / 128 = a / 128
  · rw [if_pos hc]
    dsimp only [hy]
    rw [BitVec.getLsbD_or, getLsbD_byteBit _ _ hbit]
    by_cases hca : c = a
    · subst hca
      simp [hy, hlen, hbit]
    · have hne : c % 128 ≠ a % 128 := by omega
      rw [hown, if_pos hc, if_neg hca]
      simp [hy, hne, List.getElem?_set_ne (Ne.symm hne)]
  · have hca : c ≠ a := fun h => hc (h ▸ rfl)
    rw [if_neg hc, if_neg hca]
    rfl

end

end Sys2Proof.Machine
end

section
/-! PROOFS. Plain stores of a thread, their publication, and plain loads (spec/10 R197, R201, R202). -/
namespace Sys2Proof.Machine

/-! ### Stores put into a core's L1 -/

/-- Bytes put into a core's L1 one after the other, while it has room for a line each. -/
theorem State.foldl_putL1 {s : State} {core pa : Nat} (bs : List Byte) {n : Nat} (hn : n ≤ bs.length)
    (hroom : s.l1Count core + n < l1Cap) (hp : s.LinesPlain core pa bs.length) :
    let t := (List.range n).foldl (fun s j => s.putL1 core false (pa + j) ((bs[j]?).getD 0)) s
    State.L1Only core s t ∧ t.mem = s.mem ∧ t.pendReg = s.pendReg ∧ t.LinesPlain core pa bs.length ∧
      t.l1Count core ≤ s.l1Count core + n ∧
      ∀ a, t.ownByte core a = if pa ≤ a ∧ a < pa + n then some ((bs[a - pa]?).getD 0) else s.ownByte core a := by
  induction n with
  | zero => exact ⟨.refl core s, rfl, rfl, hp, le_rfl, fun a => by rw [if_neg (by omega)]; rfl⟩
  | succ n ih =>
    obtain ⟨h1, h2, h3, h4, h5, h6⟩ := ih (by omega) (by omega)
    dsimp only
    rw [List.range_succ, List.foldl_append, List.foldl_cons, List.foldl_nil]
    obtain ⟨g1, g2, g3, g4, g5, g6⟩ := State.putL1_spec (a := pa + n) ((bs[n]?).getD 0) (by omega) h4 (by omega)
    refine ⟨h1.trans g1, g2.trans h2, g3.trans h3, g4, by omega, fun a => ?_⟩
    rw [g6, h6]
    by_cases ha : a = pa + n
    · rw [if_pos ha, if_pos (by omega), ha, Nat.add_sub_cancel_left]
    · rw [if_neg ha]
      by_cases hr : pa ≤ a ∧ a < pa + n
      · rw [if_pos hr, if_pos (by omega)]
      · rw [if_neg hr, if_neg (by omega)]

/-! ### Publication -/

/-- Bytes written in order to memory, those that a test picks. -/
theorem State.foldl_writePA {s : State} (hu : s.poisoned = []) (p : Nat → Bool) (f : Nat → Byte) (base : Nat) {n : Nat}
    (hd : base + n ≤ memEnd) :
    let t := (List.range n).foldl (fun s j => if p j then s.writePA (base + j) [f j] else s) s
    t = { s with mem := t.mem } ∧
      ∀ a, t.byte a = if base ≤ a ∧ a < base + n ∧ p (a - base) = true then f (a - base) else s.byte a := by
  induction n with
  | zero => exact ⟨rfl, fun a => by rw [if_neg (by omega)]; rfl⟩
  | succ n ih =>
    obtain ⟨h1, h2⟩ := ih (by omega)
    dsimp only
    rw [List.range_succ, List.foldl_append, List.foldl_cons, List.foldl_nil]
    set t := (List.range n).foldl (fun s j => if p j then s.writePA (base + j) [f j] else s) s with ht
    by_cases hp : p n = true
    · rw [if_pos hp]
      have hin : inDevice (base + n) [f n].length = true := decide_eq_true (by simp; omega)
      have hpt : t.poisoned = [] := by rw [h1]; exact hu
      have hw : t.writePA (base + n) [f n] = { t with mem := Map.setList memDefault t.mem (base + n) [f n] } := by
        rw [State.writePA, if_pos hin, State.unpoison, if_pos hpt]
      refine ⟨by rw [hw, h1], fun a => ?_⟩
      by_cases ha : a = base + n
      · subst ha
        simp [State.byte_writePA _ _ _ hin, hp]
      · rw [State.byte_writePA_out _ _ _ _ (by simp only [List.length_singleton]; omega), h2]
        refine if_congr ?_ rfl rfl
        constructor
        · rintro ⟨x, y, z⟩; exact ⟨x, by omega, z⟩
        · rintro ⟨x, y, z⟩; exact ⟨x, by omega, z⟩
    · rw [if_neg hp]
      refine ⟨h1, fun a => ?_⟩
      rw [h2]
      refine if_congr ?_ rfl rfl
      constructor
      · rintro ⟨x, y, z⟩; exact ⟨x, by omega, z⟩
      · rintro ⟨x, y, z⟩
        refine ⟨x, ?_, z⟩
        by_contra hlt
        exact hp (by rwa [show a - base = n by omega] at z)

theorem State.dieWrite_of_plain {decaf : Bool} (h : decaf = false) (s : State) (die pa : Nat) (x : Byte) :
    s.dieWrite decaf die pa x = s.writePA pa [x] := by
  simp [State.dieWrite, State.remote, h]

/-- The stores of a core to some bytes of a line reach memory: no thread of it sees a change, and memory takes what they see. -/
structure State.Publishes (core : Nat) (s t : State) : Prop where
  only : State.L1Only core s t
  plain : ∀ pa n, s.LinesPlain core pa n → t.LinesPlain core pa n
  sees : ∀ a, t.coreSees core a = s.coreSees core a
  byte : ∀ a, t.byte a = s.byte a ∨ t.byte a = s.coreSees core a

theorem State.Publishes.refl (core : Nat) (s : State) : State.Publishes core s s :=
  ⟨.refl core s, fun _ _ h => h, fun _ => rfl, fun _ => .inl rfl⟩
theorem State.Publishes.trans {core : Nat} {s t u : State} (h : State.Publishes core s t) (h' : State.Publishes core t u) :
    State.Publishes core s u := by
  refine ⟨h.only.trans h'.only, fun pa n hp => h'.plain pa n (h.plain pa n hp), fun a => (h'.sees a).trans (h.sees a), fun a => ?_⟩
  rcases h'.byte a with e | e
  · rw [e]; exact h.byte a
  · rw [e, h.sees a]; exact .inr rfl

theorem State.publishes_publishMask {s : State} {core line : Nat} (m : BitVec 128) (hu : s.poisoned = [])
    (hd : line * 128 + 128 ≤ memEnd) (hl : ∀ x, s.l1At core line = some x → x.decaf = false ∧ x.data.length = 128) :
    State.Publishes core s (s.publishMask core line m) := by
  unfold State.publishMask
  split
  · exact .refl core s
  next x hx =>
    obtain ⟨hdec, hlen⟩ := hl x hx
    split
    · exact .refl core s
    have hrem : ∀ t : State, t.remote x.decaf (dieOf core) (line * 128) = false := by simp [State.remote, hdec]
    obtain ⟨ht, hbyte⟩ := State.foldl_writePA hu (x.dirty &&& m).getLsbD (fun j => (x.data[j]?).getD 0) (line * 128) hd
    simp only [hrem, State.dieWrite_of_plain hdec, Bool.false_eq_true, if_false]
    generalize (List.range 128).foldl
      (fun s j => if (x.dirty &&& m).getLsbD j then s.writePA (line * 128 + j) [(x.data[j]?).getD 0] else s) s = t at ht hbyte
    have hat : t.l1At core = s.l1At core := by rw [ht]; rfl
    have h1 : State.L1Only core s t := .of_cores (by rw [ht])
    have hown : ∀ a, (t.setL1 core line (some { x with dirty := x.dirty &&& ~~~m })).ownByte core a =
        if a / 128 = line ∧ m.getLsbD (a % 128) = true then none else s.ownByte core a := by
      intro a
      have hlt := Nat.mod_lt a (show 0 < 128 by decide)
      rw [State.ownByte, State.l1At_setL1, hat]
      by_cases ha : a / 128 = line
      · rw [if_pos ha, State.ownByte, ha, hx]
        dsimp only
        rw [BitVec.getLsbD_and, BitVec.getLsbD_not, decide_eq_true hlt]
        cases hm : m.getLsbD (a % 128) <;> simp
      · rw [if_neg ha, if_neg fun h => ha h.1]
        rfl
    have hb : ∀ a, (t.setL1 core line (some { x with dirty := x.dirty &&& ~~~m })).byte a =
        if a / 128 = line ∧ m.getLsbD (a % 128) = true then s.coreSees core a else s.byte a := by
      intro a
      have hstep : (t.setL1 core line (some { x with dirty := x.dirty &&& ~~~m })).byte a = t.byte a := rfl
      rw [hstep, hbyte]
      by_cases ha : a / 128 = line
      · have hsub : a - line * 128 = a % 128 := by omega
        rw [hsub, State.coreSees, State.ownByte, ha, hx, BitVec.getLsbD_and]
        by_cases hm : m.getLsbD (a % 128) = true
        · by_cases hdirty : x.dirty.getLsbD (a % 128) = true
          · simp [hm, hdirty, show line * 128 ≤ a ∧ a < line * 128 + 128 by omega]
          · simp [hm, hdirty]
        · simp [hm]
      · rw [if_neg fun h => ha (by omega), if_neg fun h => ha h.1]
    refine ⟨h1.trans (.setL1 t core line _), fun pa n hp => (hp.congr hat).setL1 ⟨hdec, hlen⟩, fun a => ?_, fun a => ?_⟩
    · rw [State.coreSees, hown, hb]
      split
      · rfl
      · rfl
    · rw [hb]
      split
      · exact .inr rfl
      · exact .inl rfl

/-! ### A plain store -/

theorem unitsAt_within {f pa n : Nat} {u : Nat × Nat} (h : u ∈ unitsAt f pa n) :
    pa ≤ u.1 ∧ u.1 + u.2 ≤ pa + n ∧ 0 < u.2 ∧ u.1 % 8 + u.2 ≤ 8 := by
  induction f generalizing pa n with
  | zero => exact absurd h List.not_mem_nil
  | succ f ih =>
    unfold unitsAt at h
    split at h
    · exact absurd h List.not_mem_nil
    · rcases List.mem_cons.mp h with rfl | h
      · dsimp only; omega
      · have := ih h
        omega

/-- What a plain store of a core does: the core sees its bytes, and memory differs only where it holds what the core sees. -/
structure State.CorePuts (core pa : Nat) (bs : List Byte) (s t : State) : Prop where
  only : State.L1Only core s t
  sees : ∀ a, t.coreSees core a = if pa ≤ a ∧ a < pa + bs.length then (bs[a - pa]?).getD 0 else s.coreSees core a
  byte : ∀ a, t.byte a = s.byte a ∨ t.byte a = t.coreSees core a

theorem State.corePuts_storeThrough {s : State} {b pa : Nat} {bs : List Byte} (hne : bs ≠ []) (hr : s.Unroasted)
    (hu : s.poisoned = []) (hd : pa + bs.length ≤ memEnd) (hroom : s.l1Count (s.blk b).core + bs.length < l1Cap)
    (hp : s.LinesPlain (s.blk b).core pa bs.length) :
    State.CorePuts (s.blk b).core pa bs s (s.storeThrough b false .lsu pa bs) := by
  have hpos : 0 < bs.length := List.length_pos_iff.mpr hne
  rw [State.storeThrough, if_neg hne]
  dsimp only
  generalize (s.blk b).core = core at *
  have htouch := State.llcOnly_touch hr (pa := pa) (n := bs.length) (decide_eq_true hd)
  generalize s.touch pa bs.length = s1 at htouch ⊢
  have hat1 : s1.core core = s.core core := by rw [State.core, htouch.cores]; rfl
  have hl1 : s1.l1At core = s.l1At core := by funext l; rw [State.l1At, hat1, State.l1At]
  obtain ⟨f1, f2, f3, f4, -, f6⟩ := State.foldl_putL1 (s := s1) (core := core) (pa := pa) bs le_rfl
    (by rw [State.l1Count, hat1]; exact hroom) (hp.congr hl1)
  generalize (List.range bs.length).foldl (fun s j => s.putL1 core false (pa + j) ((bs[j]?).getD 0)) s1 = s2 at f1 f2 f3 f4 f6 ⊢
  generalize (wordsAt pa bs.length).foldl _ s2.pendReg = pr
  set s3 : State := { s2 with pendReg := pr } with hs3
  have o3 : State.L1Only core s s3 := ((htouch.l1Only core).trans f1).trans (.of_cores rfl)
  have hsee3 : ∀ a, s3.coreSees core a = if pa ≤ a ∧ a < pa + bs.length then (bs[a - pa]?).getD 0 else s.coreSees core a := by
    intro a
    have hby : s3.byte a = s.byte a := by
      rw [State.byte, State.byte, show s3.mem = s2.mem from rfl, f2, htouch.mem]
    rw [State.coreSees, hby, show s3.ownByte core a = s2.ownByte core a from rfl, f6, State.ownByte_congr hl1]
    split <;> rfl
  have hpub : ∀ us : List (Nat × Nat), (∀ u ∈ us, pa ≤ u.1 ∧ u.1 < pa + bs.length) → ∀ t : State,
      State.Publishes core s3 t → State.Publishes core s3 (us.foldl
        (fun s u => if (wordsAt (u.1 / 8 * 8) 8).any fun w => s.pendReg.contains (core, w) then s else s.publishUnit core u.1) t) := by
    intro us hus
    induction us with
    | nil => exact fun t h => h
    | cons u us ih =>
      intro t h
      rw [List.foldl_cons]
      refine ih (fun v hv => hus v (List.mem_cons_of_mem u hv)) _ ?_
      split
      · exact h
      · obtain ⟨h1, h2⟩ := hus u List.mem_cons_self
        refine h.trans (State.publishes_publishMask _ ?_ ?_ fun x hx => ?_)
        · rw [h.only.poisoned, o3.poisoned]; exact hu
        · have : memEnd = 1073741824 * 128 := rfl
          omega
        · exact h.plain pa bs.length f4 (u.1 / 128) (by omega) (by omega) x hx
  have hfin := hpub (unitsAt (bs.length / 8 + 2) pa bs.length) (fun u hu => by have := unitsAt_within hu; omega) s3 (.refl core s3)
  refine ⟨o3.trans hfin.only, fun a => (hfin.sees a).trans (hsee3 a), fun a => ?_⟩
  rcases hfin.byte a with e | e
  · left
    rw [e, State.byte, State.byte, show s3.mem = s2.mem from rfl, f2, htouch.mem]
  · right
    rw [e, hfin.sees a]

end Sys2Proof.Machine
end

section
/-! PROOFS. Plain loads of a thread (spec/10 R197). -/
namespace Sys2Proof.Machine

/-! ### The bytes of a plain load -/

theorem State.LlcOnly.mayRead {s t : State} (h : s.LlcOnly t) (b a : Nat) (x : Byte) : t.MayRead b a x ↔ s.MayRead b a x := by
  unfold State.LlcOnly at h
  rw [h]
  rfl
theorem State.LlcOnly.misCached {s t : State} (h : s.LlcOnly t) (core : Nat) (d : Bool) (l : Nat) :
    t.misCached core d l = s.misCached core d l := by
  unfold State.LlcOnly at h
  rw [h]
  rfl
theorem State.LlcOnly.blk {s t : State} (h : s.LlcOnly t) (b : Nat) : t.blk b = s.blk b := by
  unfold State.LlcOnly at h
  rw [h]
  rfl

theorem getD_map_range {α : Type} (f : Nat → α) (d : α) {n j : Nat} (h : j < n) : ((List.range n).map f).getD j d = f j := by
  simp [h]

/-- A load of one unit gives for each byte what the block sees or what the core's valid copy holds. -/
theorem State.loadUnit_spec {s : State} {b pa n : Nat} (hb : (s.blk b).buf = [] ∧ (s.blk b).merges = [])
    (hm : s.misCached (s.blk b).core false (pa / 128) = false) (hu : pa % 8 + n ≤ 8) :
    s.LlcOnly (s.loadUnit b (s.blk b).core false pa n).2 ∧ (s.loadUnit b (s.blk b).core false pa n).1.length = n ∧
      ∀ j < n, s.MayRead b (pa + j) ((s.loadUnit b (s.blk b).core false pa n).1.getD j 0) := by
  set fresh := (List.range n).map fun j => s.loadByte b false .lsu (pa + j) with hfresh
  have hf : fresh.length = n ∧ ∀ j < n, s.MayRead b (pa + j) (fresh.getD j 0) := by
    refine ⟨by simp [hfresh], fun j hj => .inl ?_⟩
    rw [hfresh, getD_map_range _ _ hj]
    rfl
  unfold State.loadUnit
  rw [hm, Bool.and_false, if_neg Bool.false_ne_true]
  dsimp only
  rw [← hfresh]
  split
  · exact ⟨.refl s, hf⟩
  next old hold =>
    have ho : old.length = n ∧ ∀ j < n, s.MayRead b (pa + j) (old.getD j 0) := by
      unfold State.copyBytes at hold
      split at hold
      · exact absurd hold (by simp)
      next x hx =>
        split at hold
        · next hall =>
          rw [← Option.some.inj hold]
          refine ⟨by simp, fun j hj => .inr ⟨x, ?_, ?_, ?_⟩⟩
          · rwa [show (pa + j) / 128 = pa / 128 by omega]
          · exact List.all_eq_true.mp hall j (List.mem_range.mpr hj)
          · rw [getD_map_range _ _ hj, hb.1]
            rfl
        · exact absurd hold (by simp)
    split
    · exact ⟨.refl s, hf⟩
    · split
      · exact ⟨.refl s, ho⟩
      · have hfree : s.LlcOnly s.freeBool.2 := rfl
        refine ⟨hfree, ?_⟩
        dsimp only
        split
        · exact ho
        · exact hf

/-- The units of a load, one after the other. -/
theorem State.loadUnits_spec {s : State} {b : Nat} (hb : (s.blk b).buf = [] ∧ (s.blk b).merges = []) {f pa n : Nat}
    (hf : n = 0 ∨ pa % 8 + n ≤ 8 * f)
    (hm : ∀ l, pa / 128 ≤ l → l ≤ (pa + n - 1) / 128 → s.misCached (s.blk b).core false l = false)
    (acc : List Byte) {s1 : State} (h1 : s.LlcOnly s1) :
    ∃ bs, ((unitsAt f pa n).foldl (fun (x : List Byte × State) u =>
          (x.1 ++ (x.2.loadUnit b (s.blk b).core false u.1 u.2).1, (x.2.loadUnit b (s.blk b).core false u.1 u.2).2)) (acc, s1)).1 =
        acc ++ bs ∧ bs.length = n ∧ (∀ j < n, s.MayRead b (pa + j) (bs.getD j 0)) ∧
      s.LlcOnly ((unitsAt f pa n).foldl (fun (x : List Byte × State) u =>
          (x.1 ++ (x.2.loadUnit b (s.blk b).core false u.1 u.2).1, (x.2.loadUnit b (s.blk b).core false u.1 u.2).2)) (acc, s1)).2 := by
  induction f generalizing pa n acc s1 with
  | zero =>
    obtain rfl : n = 0 := by omega
    exact ⟨[], by simp [unitsAt], rfl, fun j hj => absurd hj (by omega), h1⟩
  | succ f ih =>
    unfold unitsAt
    by_cases hn : n = 0
    · rw [if_pos hn]
      exact ⟨[], by simp, hn.symm, fun j hj => absurd hj (by omega), h1⟩
    · rw [if_neg hn]
      dsimp only
      rw [List.foldl_cons]
      set m := min n (8 - pa % 8) with hmin
      have hb1 : (s1.blk b).buf = [] ∧ (s1.blk b).merges = [] := by rw [h1.blk]; exact hb
      have hcore : (s1.blk b).core = (s.blk b).core := by rw [h1.blk]
      obtain ⟨u1, u2, u3⟩ := State.loadUnit_spec (s := s1) (b := b) (pa := pa) (n := m) hb1
        (by rw [h1.misCached, hcore]; exact hm _ le_rfl (by omega)) (by omega)
      rw [hcore] at u1 u2 u3
      obtain ⟨bs, g1, g2, g3, g4⟩ := ih (pa := pa + m) (n := n - m) (by omega)
        (fun l hl1 hl2 => hm l (by omega) (by omega)) (acc ++ (s1.loadUnit b (s.blk b).core false pa m).1) (h1.trans u1)
      refine ⟨(s1.loadUnit b (s.blk b).core false pa m).1 ++ bs, by rw [g1, List.append_assoc], ?_, fun j hj => ?_, g4⟩
      · rw [List.length_append, u2, g2]; omega
      · by_cases hjm : j < m
        · rw [List.getD_append _ _ _ _ (by omega)]
          exact (h1.mayRead b _ _).mp (u3 j hjm)
        · rw [List.getD_append_right _ _ _ _ (by omega), u2]
          have := g3 (j - m) (by omega)
          rwa [show pa + m + (j - m) = pa + j by omega] at this

/-! ### The line that a load may fill -/

theorem State.l1Fill_of_room {s : State} {core : Nat} (h : s.l1Count core < l1Cap) (d : Bool) (line : Nat) :
    s.l1Fill core d line = s.setL1 core line (some (s.filled core d line)) := by
  unfold State.l1Fill
  simp only [State.l1Room_of_room h, ite_self]

theorem State.mayFill_spec {s : State} {core : Nat} (h : s.l1Count core < l1Cap) (line : Nat) :
    State.L1Only core s (s.mayFill core false line) ∧ (s.mayFill core false line).mem = s.mem ∧
      (s.mayFill core false line).l1Count core ≤ s.l1Count core + 1 := by
  have hset : ∀ (t : State), t.l1Count core < l1Cap → State.L1Only core t (t.l1Fill core false line) ∧
      (t.l1Fill core false line).mem = t.mem ∧ (t.l1Fill core false line).l1Count core ≤ t.l1Count core + 1 := by
    intro t ht
    rw [State.l1Fill_of_room ht]
    exact ⟨.setL1 t core line _, rfl, t.l1Count_setL1_le core line _⟩
  have hfree : State.L1Only core s s.freeBool.2 := .of_cores rfl
  have hchoice : ∀ c : Bool, State.L1Only core s.freeBool.2
      { s.freeBool.2 with cores := if c then (s.freeBool.2.l1Fill core false line).cores else s.freeBool.2.cores } ∧
      State.l1Count { s.freeBool.2 with cores := if c then (s.freeBool.2.l1Fill core false line).cores else s.freeBool.2.cores }
        core ≤ s.l1Count core + 1 := by
    intro c
    cases c with
    | false => exact ⟨.refl core _, Nat.le_succ _⟩
    | true =>
      have h1 := hset s.freeBool.2 h
      rw [State.l1Fill_of_room (s := s.freeBool.2) h] at h1 ⊢
      exact ⟨h1.1, h1.2.2⟩
  unfold State.mayFill
  split
  · split
    · exact hset s h
    · obtain ⟨h1, h2⟩ := hchoice s.freeBool.1
      exact ⟨hfree.trans h1, rfl, h2⟩
  · dsimp only
    rw [if_pos (show s.freeBool.2.l1Count core < l1Cap from h)]
    obtain ⟨h1, h2⟩ := hchoice s.freeBool.1
    exact ⟨hfree.trans h1, rfl, h2⟩

theorem State.foldl_mayFill {s : State} {core : Nat} (ls : List Nat) (h : s.l1Count core + ls.length < l1Cap) :
    State.L1Only core s (ls.foldl (fun s l => s.mayFill core false l) s) ∧
      (ls.foldl (fun s l => s.mayFill core false l) s).mem = s.mem := by
  induction ls generalizing s with
  | nil => exact ⟨.refl core s, rfl⟩
  | cons l ls ih =>
    rw [List.length_cons] at h
    obtain ⟨h1, h2, h3⟩ := State.mayFill_spec (s := s) (core := core) (by omega) l
    obtain ⟨g1, g2⟩ := ih (s := s.mayFill core false l) (by omega)
    exact ⟨h1.trans g1, g2.trans h2⟩

/-! ### A plain load -/

theorem length_linesAt_le (pa n : Nat) : (linesAt pa n).length ≤ n := by
  unfold linesAt
  split
  · exact Nat.zero_le _
  · simp only [List.length_map, List.length_range]
    omega

/-- A plain load reads what the block may read, and changes nothing but what its core and the LLC hold. -/
theorem State.load_spec {s : State} {b t pa n : Nat} (hr : s.Unroasted) (hu : s.poisoned = []) (hd : pa + n ≤ memEnd)
    (hb : (s.blk b).buf = [] ∧ (s.blk b).merges = [])
    (hm : ∀ l, pa / 128 ≤ l → l ≤ (pa + n - 1) / 128 → s.misCached (s.blk b).core false l = false)
    (hroom : s.l1Count (s.blk b).core + n < l1Cap) :
    s.Reads b pa n (s.load b t false .lsu pa n).1 ∧ State.L1Only (s.blk b).core s (s.load b t false .lsu pa n).2 ∧
      (s.load b t false .lsu pa n).2.mem = s.mem := by
  have htouch := State.llcOnly_touch hr (pa := pa) (n := n) (decide_eq_true hd)
  have hpois : (s.touch pa n).poisoned = [] := by
    have h := htouch
    unfold State.LlcOnly at h
    rw [h]
    exact hu
  have hrem : ∀ x : State, x.remote false (dieOf (s.blk b).core) pa = false := fun _ => rfl
  obtain ⟨bs, g1, g2, g3, g4⟩ := State.loadUnits_spec hb (f := n / 8 + 2) (pa := pa) (n := n) (by omega) hm [] htouch
  unfold State.load
  simp only [if_pos hpois, hrem, Bool.false_eq_true, if_false]
  set r := (unitsAt (n / 8 + 2) pa n).foldl (fun (x : List Byte × State) u =>
    (x.1 ++ (x.2.loadUnit b (s.blk b).core false u.1 u.2).1, (x.2.loadUnit b (s.blk b).core false u.1 u.2).2))
    ([], s.touch pa n) with hrdef
  have hcount : r.2.l1Count (s.blk b).core = s.l1Count (s.blk b).core := by
    rw [State.l1Count, State.core, g4.cores]
    rfl
  have hlen := length_linesAt_le pa n
  obtain ⟨f1, f2⟩ := State.foldl_mayFill (s := r.2) (core := (s.blk b).core) (linesAt pa n) (by omega)
  refine ⟨?_, (g4.l1Only _).trans f1, f2.trans g4.mem⟩
  rw [g1, List.nil_append]
  exact ⟨g2, g3⟩

end Sys2Proof.Machine
end

section
/-! PROOFS. CALL and RET (spec/07 R165; spec/15 R294). -/
namespace Sys2Proof.Machine

/-! ### Steps of one thread that reach memory through its core -/

/-- Outside threads and pending instructions of the bundle's block, nothing differs but what a core's caches may. -/
structure State.Accessed (s t : State) : Prop extends s.CachesOnly t where
  bk : t.bk = { s.bk with threads := t.bk.threads, pend := t.bk.pend }
  has : s.hasBlk s.sel.blk → t.hasBlk s.sel.blk

namespace State.Accessed
variable {s t u : State}

theorem sel (h : s.Accessed t) : t.sel = s.sel := by rw [h.rest]
theorem hole (h : s.Accessed t) : t.hole = s.hole := by rw [h.rest]
theorem core_eq (h : s.Accessed t) : t.bk.core = s.bk.core := by rw [h.bk]
theorem sameRegs (h : s.Accessed t) : s.bk.SameRegs t.bk := by rw [h.bk]; exact Block.SameRegs.refl _

theorem trans (h : s.Accessed t) (h' : t.Accessed u) : s.Accessed u := by
  refine ⟨⟨?_, fun c => ?_, fun c hc => ?_, fun b hb => ?_⟩, ?_, fun hs => ?_⟩
  · rw [h'.rest, h.rest]
  · rw [h'.core c, h.core c]
  · rw [h'.cores c (by rw [h.core_eq]; exact hc), h.cores c hc]
  · rw [h'.blocks b (by rw [h.sel]; exact hb), h.blocks b hb]
  · rw [h'.bk, h.bk]
  · have := h'.has (by rw [h.sel]; exact h.has hs)
    rwa [h.sel] at this

/-- A change of the block's threads and pending instructions. -/
theorem updBlk (s : State) (f : Block → Block) (hb : s.hasBlk s.sel.blk)
    (hf : ∀ k, f k = { k with threads := (f k).threads, pend := (f k).pend }) : s.Accessed (s.updBlk s.sel.blk f) := by
  have ho := State.onlyBundle_updBlk s f
  have hc : ∀ c, (s.updBlk s.sel.blk f).core c = s.core c := fun c => by rw [ho.1]; rfl
  have hbk : (s.updBlk s.sel.blk f).bk = f s.bk := by rw [State.bk, ho.1.sel, State.blk_updBlk_self _ _ _ hb]; rfl
  refine ⟨⟨?_, fun c => by rw [hc], fun c _ => hc c, ho.2⟩, ?_, (State.hasBlk_updBlk _ _ _ _).mpr⟩
  · conv_lhs => rw [ho.1]
    rw [ho.1]
  · rw [hbk]
    exact hf _

/-- A change of what the block's core holds. -/
theorem of_l1Only (h : State.L1Only s.bk.core s t) : s.Accessed t := by
  have hbk : t.bk = s.bk := by rw [State.bk, h.sel, h.blk, State.bk]
  refine ⟨⟨?_, h.lines, h.others, fun b _ => by rw [h.blocks]⟩, by rw [hbk], fun hb => ?_⟩
  · rw [h.rest]
  · rw [State.hasBlk, h.blocks]
    exact hb

end State.Accessed

theorem State.coreSees_congr {s t : State} {core : Nat} (hc : t.core core = s.core core) (hm : t.mem = s.mem) (a : Nat) :
    t.coreSees core a = s.coreSees core a := by
  have hl : t.l1At core = s.l1At core := by funext l; rw [State.l1At, hc, State.l1At]
  rw [State.coreSees, State.ownByte_congr hl, State.byte, hm, State.coreSees, State.byte]

/-! ### An instruction that one thread performs -/

theorem State.overtakes_of_noneAhead {s : State} {b : Nat} (h : ∀ p ∈ (s.blk b).pend, p.k = none ∧ p.log = none) (t : Nat)
    (used : Option Nat) (rs : List (Nat × Nat)) : s.overtakes b t used rs = false := by
  have hp : ∀ p ∈ (s.blk b).pend, s.pendRanges b t p = [] := by
    intro p hp
    obtain ⟨hk, hl⟩ := h p hp
    simp [State.pendRanges, State.pendOps, hk, hl]
  unfold State.overtakes
  rw [Bool.and_eq_false_iff]
  right
  rw [List.any_eq_false]
  intro p hpm
  simp [hp p hpm]

section
variable {s s' : State} {c : Ctx} {i : Instr} {h : Hdr} {o : MemOp} {F : State → MemOp → AccOut × State}
  (hov : s.overtakes c.b o.thr none ((s.blk c.b).ranges c.wp i o) = false)
include hov

theorem State.issueOps_moved (hu : c.u = false) (hF : F s o = (.moved, s')) :
    s.issueOps c i h false 0 .none [o] F = s'.updBlk c.b fun k => k := by
  simp [State.issueOps, State.runOps, hov, hF, State.spreadDue, hu, Outs.add, Block.putDst]

theorem State.issueOps_raises (hu : c.u = false) {code : Word} {a : Aux} (hF : F s o = (.exc code a, s)) :
    s.issueOps c i h false 0 .none [o] F = (s.raiseAll c.b [o.thr] c.pc code a).updBlk c.b fun k => k := by
  simp [State.issueOps, State.runOps, hov, hF, State.spreadDue, hu, Outs.add, Block.putDst, Ctx.spread]

end

/-! ### The page in the last-page register -/

theorem State.globalAccess_of_lastPage {s : State} {b x : Nat} {ea : DWord} {n align : Nat} {kind : AccKind} {pg : Xlat}
    (ap : Bool) (hb : s.hasBlk b) (hspace : canonical ea = true ∧ inFabric ea = false ∧ inAperture ea = false)
    (halign : ea.toNat % align = 0) (hpg : ((s.blk b).thr x).lastPage = some pg)
    (hholds : pg.holds (s.blk b).fn ea.toNat = true) (hperm : pg.permits kind = true) (hown : (s.blk b).fn ≠ fwFn)
    (hmap : (s.blk b).smaps = []) :
    s.globalAccess b x ea n align kind ap =
      (.place (.mem (pg.addr ea.toNat) pg.decaf), s.updThr b x fun th => { th with lastPage := some pg }) := by
  obtain ⟨h1, h2, h3⟩ := hspace
  have htr : s.translate b x ea.toNat kind = (.ok pg, s.updThr b x fun th => { th with lastPage := some pg }) := by
    simp [State.translate, hpg, hholds, hperm]
  have hk : (s.updThr b x fun th => { th with lastPage := some pg }).blk b =
      (s.blk b).updThr x fun th => { th with lastPage := some pg } := State.blk_updBlk_self _ _ _ hb
  have hfn : ((s.updThr b x fun th => { th with lastPage := some pg }).blk b).fn = (s.blk b).fn := by rw [hk]; rfl
  have hsm : ((s.updThr b x fun th => { th with lastPage := some pg }).blk b).smaps = [] := by rw [hk]; exact hmap
  simp [State.globalAccess, h1, h2, h3, halign, htr, hfn, hown, State.mapped, hsm]

theorem State.settle_of_noRed {s : State} (h : s.reds = []) (b t : Nat) (p : Place) (n : Nat) : s.settle b t p n = s := by
  simp [State.settle, h, redsFor]

/-- A thread whose last-page register is written with what it holds. -/
theorem Block.thr_updThr_lastPage {k : Block} {x : Nat} {pg : Xlat} (h : (k.thr x).lastPage = some pg) (y : Nat) :
    (k.updThr x fun th => { th with lastPage := some pg }).thr y = k.thr y := by
  rw [Block.thr_updThr]
  split
  · next hy => subst hy; rw [← h]
  · rfl

end Sys2Proof.Machine
end

section
/-! PROOFS. CALL and RET: results and stack limits (spec/07 R165; spec/15 R294). -/
namespace Sys2Proof.Machine

/-- A thread leaves an access: its record changes, and it goes to an address. -/
def State.leave (s : State) (b x : Nat) (g : Thread → Thread) (pc : DWord) : State :=
  ((s.updThr b x g).advance b [x] pc).updBlk b fun k => k

theorem State.leave_spec {s : State} (x : Nat) (g : Thread → Thread) (pc : DWord) (hb : s.hasBlk s.sel.blk) :
    s.Accessed (s.leave s.sel.blk x g pc) ∧ (s.leave s.sel.blk x g pc).mem = s.mem ∧
      (∀ c, (s.leave s.sel.blk x g pc).core c = s.core c) ∧
      ∀ y, (s.leave s.sel.blk x g pc).bk.thr y = if y = x then { g (s.bk.thr x) with pc := pc } else s.bk.thr y := by
  set s1 := s.updThr s.sel.blk x g with hs1
  set s2 := s1.advance s.sel.blk [x] pc with hs2
  have ho1 : s.OnlyBlocks s1 := State.onlyBlocks_updBlk _ _ _
  have ho2 : s1.OnlyBlocks s2 := State.onlyBlocks_updBlk _ _ _
  have ho3 : s2.OnlyBlocks (s2.updBlk s.sel.blk fun k => k) := State.onlyBlocks_updBlk _ _ _
  have ho := (ho1.trans ho2).trans ho3
  have hsel1 : s1.sel = s.sel := ho1.sel
  have hsel2 : s2.sel = s.sel := ho2.sel.trans hsel1
  have hb1 : s1.hasBlk s.sel.blk := (State.hasBlk_updBlk _ _ _ _).mpr hb
  have hb2 : s2.hasBlk s.sel.blk := (State.hasBlk_updBlk _ _ _ _).mpr hb1
  have a1 : s.Accessed s1 := .updBlk s _ hb fun _ => rfl
  have a2 : s1.Accessed s2 := by
    have := State.Accessed.updBlk s1 (fun k => k.advance [x] pc) (by rw [hsel1]; exact hb1) fun _ => rfl
    rwa [hsel1] at this
  have a3 : s2.Accessed (s2.updBlk s.sel.blk fun k => k) := by
    have := State.Accessed.updBlk s2 (fun k => k) (by rw [hsel2]; exact hb2) fun _ => rfl
    rwa [hsel2] at this
  unfold State.leave
  refine ⟨(a1.trans a2).trans a3, by rw [ho], fun c => by rw [ho]; rfl, fun y => ?_⟩
  rw [State.bk, ho.sel, State.blk_updBlk_self _ _ _ hb2, hs2, State.advance, State.blk_updBlk_self _ _ _ hb1, Block.thr_advance,
    hs1, State.updThr, State.blk_updBlk_self _ _ _ hb, Block.thr_updThr, State.bk]
  by_cases hy : y = x
  · subst hy
    simp
  · simp [hy]

section
variable {s : State} {i : Instr} {f : Uses} {x : Nat} (hp : s.Solo i f x) (hu : f.h.u = false)
include hp hu

theorem State.Solo.executing_eq : s.executing f.h = [x] := by
  have h := hp.sole
  rwa [State.acting, hu, if_neg Bool.false_ne_true] at h

theorem State.Solo.mem_thrs : x ∈ s.sel.thrs := by
  have h : x ∈ s.executing f.h := by rw [hp.executing_eq hu]; exact List.mem_singleton_self x
  exact List.mem_of_mem_filter h

theorem State.Solo.mem_idle (y : Nat) : y ∈ s.idle f.h ↔ y ∈ s.sel.thrs ∧ y ≠ x := by
  rw [State.mem_idle, hp.executing_eq hu, List.mem_singleton]

/-- The one thread that performs a memory instruction does so in the state in which the others have gone on. -/
theorem memInstr_solo (ll : Bool) (w : Nat) (d : Dst) (cap : Ctx → Block → Nat → MemOp) :
    memInstr i s f.h ll w d cap = finish ((s.idleOn f.h).issueOps (s.exeCtx f.h) i f.h ll w d
      [{ cap (s.exeCtx f.h) (s.bk.advance (s.idle f.h) s.sel.next) x with thrs := [], instr := (s.idleOn f.h).issued }]
      fun s' o => s'.memOp s.sel.blk i s.sel.next o) := by
  have hact : (s.exeCtx f.h).acting = [x] := by
    rw [Ctx.acting]
    show (if f.h.u = true then _ else s.executing f.h) = [x]
    rw [hu, if_neg Bool.false_ne_true, hp.executing_eq hu]
  rw [memInstr, opInstr, issue_of_passes hp.toPasses, ← s.blk_idleOn f.h hp.hasBlk]
  dsimp only
  rw [hact]
  simp only [List.map_cons, List.map_nil]
  rw [show (s.exeCtx f.h).u = false from hu, if_neg Bool.false_ne_true]
  rfl

omit hu in
/-- After the others have gone on, nothing that the thread's access needs has changed. -/
theorem State.Solo.noOvertake (o : MemOp) : (s.idleOn f.h).overtakes (s.exeCtx f.h).b o.thr none
    (((s.idleOn f.h).blk (s.exeCtx f.h).b).ranges (s.exeCtx f.h).wp i o) = false := by
  refine State.overtakes_of_noneAhead (fun p hpm => ?_) _ _ _
  rw [show (s.exeCtx f.h).b = s.sel.blk from rfl, s.blk_idleOn f.h hp.hasBlk] at hpm
  obtain ⟨q, hq, rfl⟩ := List.mem_map.mp hpm
  exact hp.noneAhead q hq

theorem State.Solo.thr_idleOn : (s.bk.advance (s.idle f.h) s.sel.next).thr x = s.bk.thr x := by
  rw [Block.thr_advance, if_neg fun h => ((hp.mem_idle hu x).mp h).2 rfl]

/-- The thread's page is found, and it leaves its access after a step that changes only its core and memory. -/
theorem State.Solo.leave_spec {pg : Xlat} (hpg : (s.bk.thr x).lastPage = some pg) {s2 : State}
    (h2 : State.L1Only s.bk.core ((s.idleOn f.h).updThr s.sel.blk x fun th => { th with lastPage := some pg }) s2)
    (v pc : DWord) :
    let t := s2.leave s.sel.blk x (fun th => { th with sp := v }) pc
    s.Accessed t ∧ t.mem = s2.mem ∧ (∀ c, t.core c = s2.core c) ∧
      t.bk.thr x = { s.bk.thr x with sp := v, pc := pc } ∧
      ∀ y, y ≠ x → t.bk.thr y = if y ∈ s.sel.thrs then { s.bk.thr y with pc := s.sel.next } else s.bk.thr y := by
  set s0 := s.idleOn f.h with hs0
  set s1 := s0.updThr s.sel.blk x fun th => { th with lastPage := some pg } with hs1
  have hb0 := s.hasBlk_idleOn f.h hp.hasBlk
  have hsel0 : s0.sel = s.sel := (s.onlyBlocks_idleOn f.h).sel
  have ho1 : s0.OnlyBlocks s1 := State.onlyBlocks_updBlk _ _ _
  have hsel1 : s1.sel = s.sel := ho1.sel.trans hsel0
  have a0 : s.Accessed s0 := .updBlk s _ hp.hasBlk fun _ => rfl
  have a1 : s0.Accessed s1 := by
    have := State.Accessed.updBlk s0 (fun k => k.updThr x fun th => { th with lastPage := some pg })
      (by rw [hsel0]; exact hb0) fun _ => rfl
    rwa [hsel0] at this
  have a01 := a0.trans a1
  have a2 : s1.Accessed s2 := .of_l1Only (by rw [a01.core_eq]; exact h2)
  have a02 := a01.trans a2
  have hb2 : s2.hasBlk s2.sel.blk := by rw [a02.sel]; exact a02.has hp.hasBlk
  have hthr : ∀ y, s2.bk.thr y = (s.bk.advance (s.idle f.h) s.sel.next).thr y := by
    intro y
    have h0 : s0.blk s.sel.blk = s.bk.advance (s.idle f.h) s.sel.next := s.blk_idleOn f.h hp.hasBlk
    rw [State.bk, h2.sel, h2.blk, hsel1, hs1, State.updThr, State.blk_updBlk_self _ _ _ hb0, h0]
    refine Block.thr_updThr_lastPage ?_ y
    rw [hp.thr_idleOn hu]
    exact hpg
  have hleave := State.leave_spec x (fun th => { th with sp := v }) pc hb2
  rw [a02.sel] at hleave
  obtain ⟨l1, l2, l3, l4⟩ := hleave
  refine ⟨a02.trans l1, l2, l3, ?_, fun y hy => ?_⟩
  · rw [l4, if_pos rfl, hthr, hp.thr_idleOn hu]
  · rw [l4, if_neg hy, hthr, Block.thr_advance]
    simp only [hp.mem_idle hu, hy, ne_eq, not_false_eq_true, and_true]

end

theorem length_leBytes (n v : Nat) : (leBytes n v).length = n := by
  induction n generalizing v with
  | zero => rfl
  | succ n ih => rw [leBytes, List.length_cons, ih]

section
variable {s : State} {i : Instr} {f : Uses} {x : Nat} (hp : s.Solo i f x) (hu : f.h.u = false)

/-- The state in which the other threads have gone on and the thread's last-page register is written with what it holds. -/
def State.paged (s : State) (h : Hdr) (x : Nat) (pg : Xlat) : State :=
  (s.idleOn h).updThr s.sel.blk x fun th => { th with lastPage := some pg }

theorem State.onlyBlocks_paged (s : State) (h : Hdr) (x : Nat) (pg : Xlat) : s.OnlyBlocks (s.paged h x pg) :=
  (s.onlyBlocks_idleOn h).trans (State.onlyBlocks_updBlk _ _ _)

include hp in
theorem State.Solo.blk_paged (pg : Xlat) : (s.paged f.h x pg).blk s.sel.blk =
    (s.bk.advance (s.idle f.h) s.sel.next).updThr x fun th => { th with lastPage := some pg } := by
  rw [State.paged, State.updThr, State.blk_updBlk_self _ _ _ (s.hasBlk_idleOn f.h hp.hasBlk), s.blk_idleOn f.h hp.hasBlk]

include hp hu in
/-- An access of the thread reaches its place through its last-page register. -/
theorem State.Solo.globalAccess {ea : DWord} {n align : Nat} {kind : AccKind} {pa : Nat} (hr : s.Reaches x ea n align kind pa) :
    ∃ pg, (s.bk.thr x).lastPage = some pg ∧ (s.idleOn f.h).globalAccess s.sel.blk x ea n align kind false =
      (.place (.mem pa false), s.paged f.h x pg) := by
  obtain ⟨pg, hpg, hholds, hperm, hdecaf, rfl⟩ := hr.page
  have hk := s.blk_idleOn f.h hp.hasBlk
  refine ⟨pg, hpg, ?_⟩
  rw [State.globalAccess_of_lastPage false (s.hasBlk_idleOn f.h hp.hasBlk) hr.space hr.aligned (pg := pg), hdecaf]
  · rfl
  · rw [hk, hp.thr_idleOn hu]; exact hpg
  · rw [hk]; exact hholds
  · exact hperm
  · rw [hk]; exact hr.own
  · rw [hk]; exact hp.unmapped

include hp in
theorem State.Solo.stackBase_idleOn : (s.idleOn f.h).stackBase s.sel.blk x = s.stackBase s.sel.blk x := by
  have hmem : (s.idleOn f.h).mem = s.mem := by rw [s.onlyBlocks_idleOn f.h]
  simp only [State.stackBase, State.descNum, State.num, State.readPA, hmem, s.blk_idleOn f.h hp.hasBlk]
  rfl

include hp hu in
/-- A store of the thread through the page that its last-page register holds, after which it goes on. -/
theorem State.Solo.stores_leave {ea : DWord} {n align : Nat} {kind : AccKind} {pa : Nat} {pg : Xlat}
    (hr : s.Reaches x ea n align kind pa) (hpg : (s.bk.thr x).lastPage = some pg) {bs : List Byte} (hne : bs ≠ [])
    (hn : bs.length = n) (h128 : n ≤ 128) (v pc : DWord) :
    let t := ((s.paged f.h x pg).storeThrough s.sel.blk false .lsu pa bs).leave s.sel.blk x (fun th => { th with sp := v }) pc
    s.Puts t s.sel.blk pa bs ∧ s.Accessed t ∧
      t.bk.thr x = { s.bk.thr x with sp := v, pc := pc } ∧
      ∀ y, y ≠ x → t.bk.thr y = if y ∈ s.sel.thrs then { s.bk.thr y with pc := s.sel.next } else s.bk.thr y := by
  subst hn
  set s1 := s.paged f.h x pg with hs1
  have ho := s.onlyBlocks_paged f.h x pg
  rw [← hs1] at ho
  have hcore : (s1.blk s.sel.blk).core = s.bk.core := by rw [hs1, hp.blk_paged]; rfl
  have hc1 : s1.core s.bk.core = s.core s.bk.core := by rw [ho]; rfl
  have hm1 : s1.mem = s.mem := by rw [ho]
  have hl1 : s1.l1At s.bk.core = s.l1At s.bk.core := by funext l; rw [State.l1At, hc1, State.l1At]
  have hput := State.corePuts_storeThrough (s := s1) (b := s.sel.blk) (pa := pa) hne
    ⟨by rw [ho]; exact hp.unroasted.1, by rw [ho]; exact hp.unroasted.2⟩ (by rw [ho]; exact hp.unpoisoned) hr.device
    (by
      have := hp.room
      rw [hcore, State.l1Count, hc1]
      exact lt_of_le_of_lt (Nat.add_le_add_left h128 _) this)
    (by
      rw [hcore]
      intro l h1 h2 y hy
      rw [hl1] at hy
      have htr := hr.tracked l h1 h2
      refine ⟨?_, hr.whole l y h1 h2 hy⟩
      simp only [State.misCached, hy, Option.any_some, Bool.or_eq_false_iff] at htr
      simpa using htr.1.1.1)
  rw [hcore] at hput
  obtain ⟨hacc, htm, htc, hx, hy⟩ := hp.leave_spec hu hpg hput.only v pc
  set t := (s1.storeThrough s.sel.blk false .lsu pa bs).leave s.sel.blk x (fun th => { th with sp := v }) pc with ht
  have hseen : ∀ a, t.seen s.sel.blk a = t.coreSees s.bk.core a := by
    intro a
    have hbk : t.blk s.sel.blk = t.bk := by rw [State.bk, hacc.sel]
    rw [State.seen_eq (by rw [hbk, hacc.bk]; exact hp.noBuf), hbk, hacc.core_eq]
  have hseen0 : ∀ a, s.seen s.sel.blk a = s.coreSees s.bk.core a := State.seen_eq hp.noBuf
  have hsees : ∀ a, t.seen s.sel.blk a =
      if pa ≤ a ∧ a < pa + bs.length then (bs[a - pa]?).getD 0 else s.seen s.sel.blk a := by
    intro a
    rw [hseen, State.coreSees_congr (htc _) htm, hput.sees, hseen0, State.coreSees_congr hc1 hm1]
  refine ⟨⟨fun j hj => ?_, fun a ha => ?_, fun a => ?_⟩, hacc, hx, hy⟩
  · rw [hsees, if_pos (by omega), Nat.add_sub_cancel_left, List.getD_eq_getElem?_getD]
  · rw [hsees, if_neg ha]
  · rw [hseen, State.coreSees_congr (htc _) htm]
    have := hput.byte a
    rwa [State.byte, State.byte, hm1, ← htm] at this

include hp hu in
/-- A load of the thread through the page that its last-page register holds, after which it goes on. -/
theorem State.Solo.loads_leave {ea : DWord} {n align : Nat} {kind : AccKind} {pa : Nat} {pg : Xlat}
    (hr : s.Reaches x ea n align kind pa) (hpg : (s.bk.thr x).lastPage = some pg) (h128 : n ≤ 128) :
    s.Reads s.sel.blk pa n ((s.paged f.h x pg).load s.sel.blk x false .lsu pa n).1 ∧ ∀ v pc,
      let t := ((s.paged f.h x pg).load s.sel.blk x false .lsu pa n).2.leave s.sel.blk x (fun th => { th with sp := v }) pc
      t.mem = s.mem ∧ s.Accessed t ∧
        t.bk.thr x = { s.bk.thr x with sp := v, pc := pc } ∧
        ∀ y, y ≠ x → t.bk.thr y = if y ∈ s.sel.thrs then { s.bk.thr y with pc := s.sel.next } else s.bk.thr y := by
  set s1 := s.paged f.h x pg with hs1
  have ho := s.onlyBlocks_paged f.h x pg
  rw [← hs1] at ho
  have hk := hp.blk_paged pg
  rw [← hs1] at hk
  have hcore : (s1.blk s.sel.blk).core = s.bk.core := by rw [hk]; rfl
  have hc1 : s1.core s.bk.core = s.core s.bk.core := by rw [ho]; rfl
  have hm1 : s1.mem = s.mem := by rw [ho]
  have hl1 : s1.l1At s.bk.core = s.l1At s.bk.core := by funext l; rw [State.l1At, hc1, State.l1At]
  have hmis : ∀ l, s1.misCached s.bk.core false l = s.misCached s.bk.core false l := fun l => by rw [ho]; rfl
  have hb1 : (s1.blk s.sel.blk).buf = [] ∧ (s1.blk s.sel.blk).merges = [] := by rw [hk]; exact hp.noBuf
  obtain ⟨⟨hlen, hreads⟩, hl1only, hlmem⟩ := State.load_spec (s := s1) (b := s.sel.blk) (t := x) (pa := pa) (n := n)
    ⟨by rw [ho]; exact hp.unroasted.1, by rw [ho]; exact hp.unroasted.2⟩ (by rw [ho]; exact hp.unpoisoned) hr.device hb1
    (fun l h1 h2 => by rw [hcore, hmis]; exact hr.tracked l h1 h2)
    (by
      have := hp.room
      rw [hcore, State.l1Count, hc1]
      exact lt_of_le_of_lt (Nat.add_le_add_left h128 _) this)
  rw [hcore] at hl1only
  refine ⟨⟨hlen, fun j hj => ?_⟩, fun v pc => ?_⟩
  · have hseen : ∀ a, s1.seen s.sel.blk a = s.seen s.sel.blk a := by
      intro a
      rw [State.seen_eq hb1, State.seen_eq hp.noBuf, hcore, State.coreSees_congr hc1 hm1]
      rfl
    have h := hreads j hj
    rw [State.MayRead, hseen, hcore, hl1] at h
    exact h
  · obtain ⟨hacc, htm, -, hx, hy⟩ := hp.leave_spec hu hpg hl1only v pc
    exact ⟨htm.trans (hlmem.trans hm1), hacc, hx, hy⟩

end

/-! ### CALL and RET of one thread -/

section
variable {s : State} {b : Nat} {o : MemOp}

theorem State.callAt_stores {s1 : State} {pa : Nat} (halign : o.ea.toNat % 4 = 0)
    (hsize : ((s.blk b).warp (warpOf o.thr)).stackLimit ≠ 0)
    (hroom : (s.stackBase b o.thr - (((s.blk b).warp (warpOf o.thr)).stackLimit).setWidth 64).toNat + 8 ≤ (s.thr b o.thr).sp.toNat)
    (hacc : s.globalAccess b o.thr ((s.thr b o.thr).sp - 8) 8 8 .write false = (.place (.mem pa false), s1))
    (hred : s1.reds = []) (hten : (s1.blk b).contained = false) :
    s.callAt b o = (.moved, ((s1.storeThrough b false .lsu pa (lowBytes 8 o.b)).updThr b o.thr fun th =>
      { th with sp := (s.thr b o.thr).sp - 8 }).advance b [o.thr] o.ea) := by
  have hstore : s1.store b false .lsu pa (lowBytes 8 o.b) = s1.storeThrough b false .lsu pa (lowBytes 8 o.b) := by
    simp [State.store, Block.tentative, hten]
  unfold State.callAt
  simp only [halign, ne_eq, not_true_eq_false, if_false, hsize, decide_false, Bool.false_or, Bool.false_eq_true,
    Nat.not_lt.mpr hroom, hacc, State.settle_of_noRed hred, State.writePlace, hstore]

theorem State.callAt_noRoom (halign : o.ea.toNat % 4 = 0) (h : ((s.blk b).warp (warpOf o.thr)).stackLimit = 0 ∨
    (s.thr b o.thr).sp.toNat <
      (s.stackBase b o.thr - (((s.blk b).warp (warpOf o.thr)).stackLimit).setWidth 64).toNat + 8) :
    s.callAt b o = (.exc cSTACK .free, s) := by
  unfold State.callAt
  dsimp only
  rw [if_neg (by simp [halign]), if_pos (by simpa using h)]

theorem State.retAt_loads {s1 : State} {pa : Nat} (hsp : (s.thr b o.thr).sp ≠ s.stackBase b o.thr)
    (hacc : s.globalAccess b o.thr (s.thr b o.thr).sp 8 8 .read false = (.place (.mem pa false), s1)) (hred : s1.reds = [])
    (halign : leNat (s1.load b o.thr false .lsu pa 8).1 % 4 = 0) :
    s.retAt b o = (.moved, ((s1.load b o.thr false .lsu pa 8).2.updThr b o.thr fun th =>
      { th with sp := (s.thr b o.thr).sp + 8 }).advance b [o.thr]
        (BitVec.ofNat 64 (leNat (s1.load b o.thr false .lsu pa 8).1))) := by
  have hval : (valueOf (s1.load b o.thr false .lsu pa 8).1).setWidth 64 =
      BitVec.ofNat 64 (leNat (s1.load b o.thr false .lsu pa 8).1) := by
    apply BitVec.eq_of_toNat_eq
    simp only [valueOf, BitVec.toNat_setWidth, BitVec.toNat_ofNat]
    omega
  have hmod : (BitVec.ofNat 64 (leNat (s1.load b o.thr false .lsu pa 8).1)).toNat % 4 = 0 := by
    rw [BitVec.toNat_ofNat]
    omega
  unfold State.retAt
  simp only [if_neg hsp, hacc, State.settle_of_noRed hred, State.readPlace, hval, hmod, ne_eq, not_true_eq_false, if_false]

theorem State.retAt_base (hsp : (s.thr b o.thr).sp = s.stackBase b o.thr) : s.retAt b o = (.exc cSTACK .free, s) := by
  unfold State.retAt
  rw [if_pos hsp]

end

/-! ### The instructions -/

/-- An instruction that one thread performs, and that raises an exception there, traps in it. -/
theorem State.Solo.traps {s : State} {i : Instr} {f : Uses} {x : Nat} (hp : s.Solo i f x) (hu : f.h.u = false)
    {cap : Ctx → Block → Nat → MemOp} {code : Word} (he : exec i s = memInstr i s f.h false 0 .none cap)
    (hthr : (cap (s.exeCtx f.h) (s.bk.advance (s.idle f.h) s.sel.next) x).thr = x)
    (hop : ∀ o, o = { cap (s.exeCtx f.h) (s.bk.advance (s.idle f.h) s.sel.next) x with
        thrs := [], instr := (s.idleOn f.h).issued } →
      (s.idleOn f.h).memOp s.sel.blk i s.sel.next o = (.exc code .free, s.idleOn f.h)) : Traps s i [x] code := by
  rw [memInstr_solo hp hu, State.issueOps_raises (hp.noOvertake _) hu (hop _ rfl)] at he
  dsimp only at he
  rw [hthr] at he
  have h0 : s.ThreadsMoved s.sel.blk (s.idleOn f.h) := s.threadsMoved_advance _ _ _
  have h1 := (s.idleOn f.h).threadsMoved_raiseAll s.sel.blk [x] s.sel.pc code .free
  set t1 := (s.idleOn f.h).raiseAll s.sel.blk [x] s.sel.pc code .free with ht1
  have h2 : t1.ThreadsMoved s.sel.blk (t1.updBlk s.sel.blk fun k => k) := .updBlk _ _ _ (fun _ => rfl) fun _ _ => id
  have hm := (h0.trans h1).trans h2
  have hb1 := (h0.trans h1).hasBlk hp.hasBlk
  have hsame : (t1.updBlk s.sel.blk fun k => k).bk = t1.bk := by
    rw [State.bk, h2.sel, (h0.trans h1).sel, State.blk_updBlk_self _ _ _ hb1, State.bk, (h0.trans h1).sel]
  have hraised : s.CanRaise x → s.Raised t1 x code := fun hcan => by
    refine State.raised_raiseAll_of_mem hp.hasBlk hcan [x] h0 (List.mem_singleton_self x) ?_
    rw [s.blk_idleOn f.h hp.hasBlk]
    exact hp.thr_idleOn hu
  refine ⟨t1.updBlk s.sel.blk fun k => k, he.trans (finish_of_noHole (hm.hole.trans hp.noHole)), fun y hy hcan => ?_, hm.mem,
    hm.sameRegs_bk hp.hasBlk⟩
  obtain rfl := List.mem_singleton.mp hy
  exact (hraised hcan).of_thr_eq (by rw [hsame]) h2.stops

section
variable {s : State} {h : Hdr} {f : Uses} {x : Nat}

section
variable {a : Option Src} {off : Word} (hp : s.Solo (.call h a off) f x) (tgt : DWord)
  (ht : callTarget a off (s.exeCtx f.h) (s.bk.advance (s.idle f.h) s.sel.next) x = tgt)
include hp

theorem State.Solo.call_hdr : f.h = h ∧ f.h.u = false := by
  have hm : f.mark = .f := by cases a <;> (cases hp.row; rfl)
  exact ⟨by cases a <;> (cases hp.row; rfl), hp.not_uniform rfl rfl hm⟩

include ht

theorem call_done {pa : Nat} (halign : tgt.toNat % 4 = 0) (hsize : (s.bk.warp s.wp).stackLimit ≠ 0)
    (hroom : (s.stackBase s.sel.blk x - (s.bk.warp s.wp).stackLimit.setWidth 64).toNat + 8 ≤ (s.bk.thr x).sp.toNat)
    (hr : s.Reaches x ((s.bk.thr x).sp - 8) 8 8 .write pa) :
    ∃ t, exec (.call h a off) s = .next t ∧ s.Puts t s.sel.blk pa (leBytes 8 s.sel.next.toNat) ∧ s.CachesOnly t ∧
      s.bk.SameRegs t.bk ∧ t.bk.thr x = { s.bk.thr x with sp := (s.bk.thr x).sp - 8, pc := tgt } ∧
      ∀ y, y ≠ x → t.bk.thr y = if y ∈ s.sel.thrs then { s.bk.thr y with pc := s.sel.next } else s.bk.thr y := by
  obtain ⟨rfl, hu⟩ := hp.call_hdr
  obtain ⟨pg, hpg, hacc⟩ := hp.globalAccess hu hr
  have hk := s.blk_idleOn f.h hp.hasBlk
  have hwp : warpOf x = s.wp := hp.oneWarp x (hp.mem_thrs hu)
  have hthr : (s.idleOn f.h).thr s.sel.blk x = s.bk.thr x := by rw [State.thr, hk, hp.thr_idleOn hu]
  have hwarp : ((s.idleOn f.h).blk s.sel.blk).warp (warpOf x) = s.bk.warp s.wp := by rw [hk, hwp]; rfl
  have hbytes : lowBytes 8 (s.sel.next.setWidth 128) = leBytes 8 s.sel.next.toNat := by
    rw [lowBytes, BitVec.toNat_setWidth, Nat.mod_eq_of_lt (by omega)]
  set o : MemOp := { thr := x, ea := tgt, b := s.sel.next.setWidth 128, thrs := [], instr := (s.idleOn f.h).issued } with ho
  have hcall : (s.idleOn f.h).callAt s.sel.blk o = (.moved, (((s.paged f.h x pg).storeThrough s.sel.blk false .lsu pa
      (leBytes 8 s.sel.next.toNat)).updThr s.sel.blk x fun th => { th with sp := (s.bk.thr x).sp - 8 }).advance s.sel.blk [x]
      tgt) := by
    rw [State.callAt_stores (o := o) (s1 := s.paged f.h x pg) (pa := pa) halign, hthr]
    · rw [hbytes]
    · rw [hwarp]; exact hsize
    · rw [hthr, hwarp, hp.stackBase_idleOn]; exact hroom
    · rw [hthr]; exact hacc
    · rw [s.onlyBlocks_paged f.h x pg]; exact hp.noRed
    · rw [hp.blk_paged]; exact hp.uncontained
  obtain ⟨hputs, haccd, hx, hy⟩ := hp.stores_leave hu hr hpg (bs := leBytes 8 s.sel.next.toNat) (List.ne_nil_of_length_pos
    (by rw [length_leBytes]; decide)) (length_leBytes _ _) (by decide) ((s.bk.thr x).sp - 8) tgt
  refine ⟨_, ?_, hputs, haccd.toCachesOnly, haccd.sameRegs, hx, hy⟩
  have hrun : exec (.call f.h a off) s = memInstr (.call f.h a off) s f.h false 0 .none fun c k t =>
    { thr := t, ea := callTarget a off c k t, b := c.next.setWidth 128 } := rfl
  rw [hrun, memInstr_solo hp hu, ht]
  exact (congrArg finish (State.issueOps_moved (hp.noOvertake _) hu hcall)).trans
    (finish_of_noHole (haccd.hole.trans hp.noHole))

theorem call_noRoom (halign : tgt.toNat % 4 = 0) (hno : (s.bk.warp s.wp).stackLimit = 0 ∨
    (s.bk.thr x).sp.toNat < (s.stackBase s.sel.blk x - (s.bk.warp s.wp).stackLimit.setWidth 64).toNat + 8) :
    Traps s (.call h a off) [x] cSTACK := by
  obtain ⟨rfl, hu⟩ := hp.call_hdr
  have hk := s.blk_idleOn f.h hp.hasBlk
  have hwp : warpOf x = s.wp := hp.oneWarp x (hp.mem_thrs hu)
  have hthr : (s.idleOn f.h).thr s.sel.blk x = s.bk.thr x := by rw [State.thr, hk, hp.thr_idleOn hu]
  have hwarp : ((s.idleOn f.h).blk s.sel.blk).warp (warpOf x) = s.bk.warp s.wp := by rw [hk, hwp]; rfl
  refine hp.traps hu (cap := fun c k t => { thr := t, ea := callTarget a off c k t, b := c.next.setWidth 128 }) rfl rfl
    fun o ho => ?_
  subst ho
  refine State.callAt_noRoom (by dsimp only; rw [ht]; exact halign) ?_
  dsimp only
  rw [hthr, hwarp, hp.stackBase_idleOn]
  exact hno

end

section
variable (hp : s.Solo (.ret h) f x)
include hp

theorem State.Solo.ret_hdr : f.h = h ∧ f.h.u = false := by
  have hm : f.mark = .f := by cases hp.row; rfl
  exact ⟨by cases hp.row; rfl, hp.not_uniform rfl rfl hm⟩

theorem ret_done {pa : Nat} (hsp : (s.bk.thr x).sp ≠ s.stackBase s.sel.blk x) (hr : s.Reaches x (s.bk.thr x).sp 8 8 .read pa)
    (halign : ∀ bs, s.Reads s.sel.blk pa 8 bs → leNat bs % 4 = 0) :
    ∃ t bs, exec (.ret h) s = .next t ∧ s.Reads s.sel.blk pa 8 bs ∧ t.mem = s.mem ∧ s.CachesOnly t ∧ s.bk.SameRegs t.bk ∧
      t.bk.thr x = { s.bk.thr x with sp := (s.bk.thr x).sp + 8, pc := BitVec.ofNat 64 (leNat bs) } ∧
      ∀ y, y ≠ x → t.bk.thr y = if y ∈ s.sel.thrs then { s.bk.thr y with pc := s.sel.next } else s.bk.thr y := by
  obtain ⟨rfl, hu⟩ := hp.ret_hdr
  obtain ⟨pg, hpg, hacc⟩ := hp.globalAccess hu hr
  have hk := s.blk_idleOn f.h hp.hasBlk
  have hthr : (s.idleOn f.h).thr s.sel.blk x = s.bk.thr x := by rw [State.thr, hk, hp.thr_idleOn hu]
  obtain ⟨hreads, hleave⟩ := hp.loads_leave hu hr hpg (by decide)
  set bs := ((s.paged f.h x pg).load s.sel.blk x false .lsu pa 8).1 with hbs
  set o : MemOp := { thr := x, thrs := [], instr := (s.idleOn f.h).issued } with ho
  have hret : (s.idleOn f.h).retAt s.sel.blk o = (.moved, (((s.paged f.h x pg).load s.sel.blk x false .lsu pa 8).2.updThr
      s.sel.blk x fun th => { th with sp := (s.bk.thr x).sp + 8 }).advance s.sel.blk [x] (BitVec.ofNat 64 (leNat bs))) := by
    rw [State.retAt_loads (o := o) (s1 := s.paged f.h x pg) (pa := pa), hthr]
    · rw [hthr, hp.stackBase_idleOn]; exact hsp
    · rw [hthr]; exact hacc
    · rw [s.onlyBlocks_paged f.h x pg]; exact hp.noRed
    · exact halign bs hreads
  obtain ⟨hmem, haccd, hx, hy⟩ := hleave ((s.bk.thr x).sp + 8) (BitVec.ofNat 64 (leNat bs))
  refine ⟨_, bs, ?_, hreads, hmem, haccd.toCachesOnly, haccd.sameRegs, hx, hy⟩
  have hrun : exec (.ret f.h) s = memInstr (.ret f.h) s f.h false 0 .none fun _ _ t => { thr := t } := rfl
  rw [hrun, memInstr_solo hp hu]
  exact (congrArg finish (State.issueOps_moved (hp.noOvertake _) hu hret)).trans
    (finish_of_noHole (haccd.hole.trans hp.noHole))

theorem ret_base (hsp : (s.bk.thr x).sp = s.stackBase s.sel.blk x) : Traps s (.ret h) [x] cSTACK := by
  obtain ⟨rfl, hu⟩ := hp.ret_hdr
  have hk := s.blk_idleOn f.h hp.hasBlk
  have hthr : (s.idleOn f.h).thr s.sel.blk x = s.bk.thr x := by rw [State.thr, hk, hp.thr_idleOn hu]
  refine hp.traps hu (cap := fun _ _ t => { thr := t }) rfl rfl fun o ho => ?_
  subst ho
  refine State.retAt_base ?_
  dsimp only
  rw [hthr, hp.stackBase_idleOn]
  exact hsp

end

end

/-- Settles O11: CALL and RET are one thread's plain store and load through the page that its last-page register holds, after which
the thread leaves for its target; outside the stack's limits each raises STACK before it reaches memory. -/
theorem callRules : Obligations.CallRules := by
  unfold Obligations.CallRules
  refine ⟨fun s => ⟨?_, ?_⟩, fun s => ⟨?_, ?_⟩⟩
  · intro h a off f x pa hp halign hsize hroom hr
    cases a <;> exact call_done hp _ rfl halign hsize hroom hr
  · intro h f x pa hp hsp hr halign
    exact ret_done hp hsp hr halign
  · intro h a off f x hp halign hno
    cases a <;> exact call_noRoom hp _ rfl halign hno
  · intro h f x hp hsp
    exact ret_base hp hsp

end Sys2Proof.Machine
end

section
/-! PROOFS. Sparse data read back, and the tiles of a warp after a write (spec/06 R105, R108). -/
namespace Sys2Proof.Machine

/-! ### Consecutive values of a table -/

section
variable {β : Type} (d : β) (m : Map β)

theorem Map.getElem?_getList (k : Nat) {n j : Nat} (hj : j < n) : (m.getList d k n)[j]? = some (m.get d (k + j)) := by
  induction n generalizing k j with
  | zero => omega
  | succ n ih =>
    rw [Map.getList]
    cases j with
    | zero => rfl
    | succ j => rw [List.getElem?_cons_succ, ih (k + 1) (by omega), show k + 1 + j = k + (j + 1) by omega]

variable [DecidableEq β] {k n : Nat} {vs : List β}

/-- A part of the values written reads back as it was written. -/
theorem Map.getList_setList_inside {off : Nat} (h : off + n ≤ vs.length) :
    (m.setList d k vs).getList d (k + off) n = (vs.drop off).take n := by
  refine List.ext_getElem? fun j => ?_
  by_cases hj : j < n
  · rw [Map.getElem?_getList _ _ _ hj, Map.get_setList, if_pos (by omega), show k + off + j - k = off + j by omega,
      List.getElem?_eq_getElem (by omega), List.getElem?_take_of_lt hj, List.getElem?_drop, List.getElem?_eq_getElem (by omega)]
    rfl
  · rw [List.getElem?_eq_none (by rw [Map.getList_length]; omega), List.getElem?_eq_none (by simp; omega)]

/-- Values apart from those written stay. -/
theorem Map.getList_setList_apart {a : Nat} (h : a + n ≤ k ∨ k + vs.length ≤ a) :
    (m.setList d k vs).getList d a n = m.getList d a n := by
  refine Map.getList_congr _ _ _ _ _ fun j h1 h2 => ?_
  rw [Map.get_setList]
  split
  · rw [List.getElem?_eq_none (by omega)]
    rfl
  · rfl

end

/-! ### Tiles and side stores -/

section
variable (k : Block) {wp t : Nat} {bs : List Byte}

theorem Block.tileBytes_setTile_self {off n : Nat} (h : off + n ≤ bs.length) :
    (k.setTile wp t 0 bs).tileBytes wp t off n = (bs.drop off).take n := by
  unfold Block.tileBytes Block.setTile
  rw [Nat.add_zero, Map.getList_setList_inside _ _ h]

theorem Block.tileBytes_setTile_ne {wp' t' : Nat} (hlen : bs.length = 4096) (ht : t < 16) (ht' : t' < 16)
    (hne : ¬ (wp' = wp ∧ t' = t)) : (k.setTile wp t 0 bs).tileBytes wp' t' 0 4096 = k.tileBytes wp' t' 0 4096 := by
  unfold Block.tileBytes Block.setTile
  rw [Map.getList_setList_apart _ _ (by omega)]

theorem Block.sideBytes_setSide_self (hlen : bs.length = 512) : (k.setSide wp t 0 bs).sideBytes wp t 0 512 = bs := by
  unfold Block.sideBytes Block.setSide
  rw [← hlen, Map.getList_setList]

theorem Block.tileBytes_setSide (wp' t' off n : Nat) :
    (k.setSide wp t 0 bs).tileBytes wp' t' off n = k.tileBytes wp' t' off n := rfl
theorem Block.sideBytes_advance (ts : List Nat) (pc : DWord) (wp' t' off n : Nat) :
    (k.advance ts pc).sideBytes wp' t' off n = k.sideBytes wp' t' off n := rfl
theorem Block.tileBytes_advance (ts : List Nat) (pc : DWord) (wp' t' off n : Nat) :
    (k.advance ts pc).tileBytes wp' t' off n = k.tileBytes wp' t' off n := rfl

theorem Block.tc_setTc {n m : Nat} (x : DWord) (hn : n < 16) (hm : m < 16) (wp' : Nat) :
    (k.setTc wp n x).tc wp' m = if wp' = wp ∧ m = n then x else k.tc wp' m := by
  unfold Block.setTc Block.tc
  rw [Map.get_set]
  exact if_congr (by omega) rfl rfl

theorem Block.tc_setTc_self (n : Nat) (x : DWord) : (k.setTc wp n x).tc wp n = x := Map.get_set_self _ _ _ _

end

/-! ### Rows of a tile -/

theorem length_fillRow (bs : List Byte) : (fillRow bs).length = 64 := by simp [fillRow]

/-- The bytes of a tile of given rows, the others zero. -/
def tileOfRows (rows : List (List Byte)) : List Byte := (List.range 64).flatMap fun r => fillRow ((rows[r]?).getD [])

theorem Block.putRows_eq (k : Block) (wp t : Nat) (rows : List (List Byte)) :
    k.putRows wp t rows = (k.setTile wp t 0 (tileOfRows rows)).setSide wp t 0 (List.replicate 512 0) := rfl

/-- Rows of one length laid end to end. -/
theorem length_flatMap_range {α : Type} {f : Nat → List α} {w : Nat} (hf : ∀ r, (f r).length = w) (n : Nat) :
    ((List.range n).flatMap f).length = n * w := by
  simp [List.length_flatMap, hf]

theorem take_drop_flatMap_range {α : Type} {f : Nat → List α} {w : Nat} (hf : ∀ r, (f r).length = w) {n r : Nat} (hr : r < n) :
    (((List.range n).flatMap f).drop (w * r)).take w = f r := by
  induction n with
  | zero => omega
  | succ n ih =>
    have hlen := length_flatMap_range hf n
    rw [List.range_succ, List.flatMap_append, List.flatMap_singleton]
    by_cases h : r = n
    · subst h
      rw [List.drop_append_of_le_length (by rw [hlen, Nat.mul_comm]), List.drop_eq_nil_of_le (by rw [hlen, Nat.mul_comm]),
        List.nil_append, List.take_of_length_le (by rw [hf])]
    · have hle : w * (r + 1) ≤ w * n := Nat.mul_le_mul_left w (by omega)
      rw [Nat.mul_succ] at hle
      have hn : n * w = w * n := Nat.mul_comm n w
      rw [List.drop_append_of_le_length (by omega), List.take_append_of_le_length (by rw [List.length_drop]; omega), ih (by omega)]

theorem length_tileOfRows (rows : List (List Byte)) : (tileOfRows rows).length = 4096 :=
  length_flatMap_range (fun _ => length_fillRow _) 64

theorem Block.tileRow_putRows (k : Block) (wp t : Nat) (rows : List (List Byte)) {r : Nat} (hr : r < 64) :
    (k.putRows wp t rows).tileRow wp t r = fillRow ((rows[r]?).getD []) := by
  rw [Block.putRows_eq, Block.tileRow, Block.tileBytes_setSide, Block.tileBytes_setTile_self _ (by rw [length_tileOfRows]; omega)]
  exact take_drop_flatMap_range (f := fun r => fillRow ((rows[r]?).getD [])) (fun _ => length_fillRow _) hr

/-- A write of a tile and its side store changes these alone. -/
theorem Block.setTileSide_frame (k : Block) (wp t : Nat) (bs ss : List Byte) :
    ∃ u v m, (k.setTile wp t 0 bs).setSide wp t 0 ss = { k with tiles := u, sides := v, tcs := m } := ⟨_, _, k.tcs, rfl⟩
theorem Block.putRows_frame (k : Block) (wp t : Nat) (rows : List (List Byte)) :
    ∃ u v m, k.putRows wp t rows = { k with tiles := u, sides := v, tcs := m } := ⟨_, _, k.tcs, rfl⟩
theorem Block.tcs_setTileSide (k : Block) (wp t : Nat) (bs ss : List Byte) :
    ((k.setTile wp t 0 bs).setSide wp t 0 ss).tcs = k.tcs := by
  unfold Block.setSide Block.setTile
  rfl
theorem Block.tc_advance (k : Block) (ts : List Nat) (pc : DWord) (wp n : Nat) : (k.advance ts pc).tc wp n = k.tc wp n := rfl
theorem Block.tcf_advance (k : Block) (ts : List Nat) (pc : DWord) (wp n : Nat) : (k.advance ts pc).tcf wp n = k.tcf wp n := rfl
theorem Block.codes_advance (k : Block) (ts : List Nat) (pc : DWord) (wp t : Nat) (g : Tcf) :
    (k.advance ts pc).codes wp t g = k.codes wp t g := rfl
theorem Block.tcs_advance (k : Block) (ts : List Nat) (pc : DWord) : (k.advance ts pc).tcs = k.tcs := rfl
theorem Block.tileRow_advance (k : Block) (ts : List Nat) (pc : DWord) (wp t r : Nat) :
    (k.advance ts pc).tileRow wp t r = k.tileRow wp t r := rfl
theorem Tcf.rows_le_of_valid {g : Tcf} {fd : Nat → Word} {allot : Nat} (h : g.valid fd allot = true) : g.rows ≤ 64 := by
  unfold Tcf.valid at h
  simp only [Bool.and_eq_true, decide_eq_true_eq] at h
  tauto
theorem Block.tc_setWarps (k : Block) (m : Map Warp) (wp n : Nat) : ({ k with warps := m } : Block).tc wp n = k.tc wp n := rfl
theorem Block.tileRow_setWarps (k : Block) (m : Map Warp) (wp t r : Nat) :
    ({ k with warps := m } : Block).tileRow wp t r = k.tileRow wp t r := rfl
theorem Block.tileRow_setTc (k : Block) (wp n : Nat) (x : DWord) (wp' t r : Nat) :
    (k.setTc wp n x).tileRow wp' t r = k.tileRow wp' t r := rfl

theorem tileOfRows_nil : tileOfRows [] = List.replicate 4096 0 := by
  refine List.eq_replicate_iff.mpr ⟨length_tileOfRows [], fun x hx => ?_⟩
  obtain ⟨r, -, hx⟩ := List.mem_flatMap.mp hx
  exact List.eq_of_mem_replicate (n := 64) (by simpa [fillRow] using hx)

end Sys2Proof.Machine
end

section
/-! PROOFS. Exceptions with a stated auxiliary word (spec/23 R400, R401). -/
namespace Sys2Proof.Machine

/-- A thread of a list that raises an exception at an address: what it holds, and the level that is to stop. -/
theorem State.raiseAll_spec (s : State) {b x : Nat} {ts : List Nat} (hd : ts.Nodup) (pc : DWord) (code : Word) (a : Aux)
    (hb : s.hasBlk b) (hx : x ∈ ts) (h : (s.blk b).canRaise x) :
    ∃ e : Exc, e.code = code ∧ e.pc = pc ∧ e.async = false ∧ e.carried = none ∧
      ((s.raiseAll b ts pc code a).blk b).thr x = ((s.blk b).thr x).raise e ∧
      ((s.blk b).fn, (s.blk b).lid, ((s.blk b).thr x).levelOf e) ∈ (s.raiseAll b ts pc code a).stops := by
  obtain ⟨s1, hm1, ht1, hm2, ht2⟩ := (actsOnThread_raiseAt b pc code a).foldl_turn ts hd s hb x hx
  obtain ⟨hagent, hlive, hraised⟩ := h
  have hcan1 : (s1.blk b).canRaise x := ⟨by rw [hm1.agent hb]; exact hagent, by rw [ht1]; exact hlive, by rw [ht1]; exact hraised⟩
  obtain ⟨e, hcode, hpc, hasync, hcarried, hthr, hstop⟩ := s1.raiseAt_spec pc code a (hm1.hasBlk hb) hcan1
  rw [ht1, hm1.fn hb, hm1.lid hb] at hstop
  exact ⟨e, hcode, hpc, hasync, hcarried, by rw [State.raiseAll, ht2, hthr, ht1], hm2.stops _ hstop⟩

/-- An instruction that makes threads raise an exception with any auxiliary word, and does nothing else, traps in them. -/
theorem traps_of_raiseAll_aux {s : State} {i : Instr} {ts : List Nat} {code : Word} {a : Aux} (hh : s.hole = false)
    (hb : s.hasBlk s.sel.blk) (hd : ts.Nodup) (he : exec i s = finish (s.raiseAll s.sel.blk ts s.sel.pc code a)) :
    Traps s i ts code := by
  have hm := s.threadsMoved_raiseAll s.sel.blk ts s.sel.pc code a
  refine ⟨_, he.trans (finish_of_noHole (hm.hole.trans hh)), fun x hx hcan => ?_, hm.mem, hm.sameRegs_bk hb⟩
  obtain ⟨e, hcode, hpc, hasync, hcarried, hthr, hstop⟩ := s.raiseAll_spec hd s.sel.pc code a hb hx hcan
  subst hcode
  exact State.raised_of_thr (by rw [State.bk, hm.sel, hthr]; rfl) hpc hasync hcarried hstop

/-- A thread that has raised keeps its exception, whoever raises next. -/
theorem State.raised_raiseExc_keeps (s : State) {b x : Nat} (y : Nat) (e' : Exc) (hb : s.hasBlk b) {e : Exc}
    (he : ((s.blk b).thr x).raised = some e) : (((s.raiseExc b y e').blk b).thr x).raised = some e := by
  by_cases hxy : x = y
  · subst hxy
    unfold State.raiseExc
    dsimp only
    split
    · have hthr : ((s.updWarp b (warpOf x) fun w => { w with stopped := some (.agentFault e') }).blk b).thr x = (s.blk b).thr x := by
        rw [State.updWarp, State.blk_updBlk_self _ _ _ hb]
        rfl
      exact (congrArg Thread.raised hthr).trans he
    · rw [if_pos (by simp [he])]
      exact he
  · rw [s.thr_raiseExc_ne _ hb hxy]
    exact he

theorem State.raised_raiseAll_keeps (s : State) {b x : Nat} (ts : List Nat) (pc : DWord) (code : Word) (a : Aux) (hb : s.hasBlk b)
    {e : Exc} (he : ((s.blk b).thr x).raised = some e) : (((s.raiseAll b ts pc code a).blk b).thr x).raised = some e := by
  induction ts generalizing s with
  | nil => exact he
  | cons y ts ih =>
    obtain ⟨n, hn⟩ := s.auxOf_eq a
    refine ih (s.raiseAt b y pc code a) ((s.threadsMoved_raiseAt b y pc code a).hasBlk hb) ?_
    unfold State.raiseAt
    dsimp only
    rw [hn]
    exact State.raised_raiseExc_keeps { s with tick := n } y _ hb he

/-- Every thread of a list that can raise has raised the exception when all have. -/
theorem State.raised_raiseAll_code (s : State) {b x : Nat} (ts : List Nat) (pc : DWord) (code : Word) (a : Aux) (hb : s.hasBlk b)
    (hx : x ∈ ts) (h : (s.blk b).canRaise x) :
    ∃ e, (((s.raiseAll b ts pc code a).blk b).thr x).raised = some e ∧ e.code = code := by
  induction ts generalizing s with
  | nil => cases hx
  | cons y ts ih =>
    have hm := s.threadsMoved_raiseAt b y pc code a
    by_cases hxy : x = y
    · subst hxy
      obtain ⟨e, hcode, -, -, -, hthr, -⟩ := s.raiseAt_spec pc code a hb h
      have hraised : (((s.raiseAt b x pc code a).blk b).thr x).raised = some (((s.blk b).thr x).heldExc e) := by rw [hthr]; rfl
      exact ⟨_, State.raised_raiseAll_keeps _ ts pc code a (hm.hasBlk hb) hraised, hcode⟩
    · have hthr := s.thr_raiseAt_ne pc code a hb hxy
      exact ih _ (hm.hasBlk hb) ((List.mem_cons.mp hx).resolve_left hxy)
        ⟨by rw [hm.agent hb]; exact h.1, by rw [hthr]; exact h.2.1, by rw [hthr]; exact h.2.2⟩

end Sys2Proof.Machine
end

section
/-! PROOFS. The instructions on a warp's tiles, MOVTC, RDTC and CVINIT (spec/08 R169, R179..R182). -/
namespace Sys2Proof.Machine

/-! ### Instructions on a warp's tiles (R179) -/

/-- An operand of a gathering of the whole warp: the mask 0 names its live threads. -/
theorem Block.members_zero (k : Block) (wp x : Nat) : k.members wp (k.word x .zero) = k.liveOf wp := by
  have h : k.word x .zero = 0 := rfl
  simp [Block.members, h]

section
variable {s : State} {i : Instr} {f : Uses} (h : s.Gathers i f .zero)
include h

/-- A tile instruction of a gathered warp, with tiles of its allotment that pass the check, runs for Executing. -/
theorem tileIssue_of_gathers (hi : expand i = i) (hu : f.h.u = false) {tiles : List Nat} {check : Block → Nat → Bool}
    (htiles : ∀ t ∈ tiles, t < (s.bk.warp s.wp).tiles) (hcheck : check s.bk s.wp = true) (body : Ctx → State → State) :
    tileIssue i tiles check s body = issue i s body := by
  have hlive : s.bk.liveOf s.wp = s.sel.thrs := by rw [← h.members_head, Block.members_zero]
  have hhere : s.bk.complete s.sel.pc (s.bk.liveOf s.wp) = true := by
    rw [hlive]
    exact List.all_eq_true.mpr h.here
  have hnone : (tiles.any fun t => decide ((s.bk.warp s.wp).tiles ≤ t)) = false :=
    List.any_eq_false.mpr fun t ht => by simp [htiles t ht]
  have hrun : tileIssue i tiles check s body =
      if (tiles.any fun t => decide ((s.bk.warp s.wp).tiles ≤ t)) = true then finish (s.ill 7)
      else if (!s.bk.complete s.sel.pc (s.bk.liveOf s.wp)) = true then finish s
      else if (!check s.bk s.wp) = true then finish (s.illAll s.sel.blk (s.bk.liveOf s.wp) s.sel.pc s.sel.w0 0xB)
      else laneIssue i .zero s body := rfl
  rw [hrun, hnone, hhere, hcheck, laneIssue_of_gathers h hi hu, issue_of_passes h.toPasses]
  rfl

end

section
variable {s : State} {i : Instr} {f : Uses} (h : s.Passes i f)
include h

/-- An instruction whose body changes its bundle's block to `j` and sends Executing on. -/
theorem issue_changes {u : State} {j : Block} {body : Ctx → State → State}
    (hbody : body (s.exeCtx f.h) (s.idleOn f.h) = u.advance s.sel.blk (s.executing f.h) s.sel.next)
    (ho : (s.idleOn f.h).OnlyBundle u) (hb : u.hasBlk s.sel.blk) (hk : u.blk s.sel.blk = j) :
    ∃ t, issue i s body = .next t ∧ t.bk = j.advance (s.executing f.h) s.sel.next ∧ s.OnlyBundle t := by
  have hsel : u.sel = s.sel := ho.1.sel.trans (s.onlyBlocks_idleOn f.h).sel
  have hadv := State.onlyBundle_updBlk u fun k => k.advance (s.executing f.h) s.sel.next
  rw [hsel] at hadv
  have hall : s.OnlyBundle (u.advance s.sel.blk (s.executing f.h) s.sel.next) :=
    ((State.onlyBundle_updBlk s _).trans ho).trans hadv
  refine ⟨_, ?_, ?_, hall⟩
  · rw [issue_of_passes h, hbody, finish_of_noHole (hall.1.hole.trans h.noHole)]
  · rw [State.bk, hall.1.sel, State.advance, State.blk_updBlk_self _ _ _ hb, hk]

end

/-- A tile instruction of a gathered warp makes one change of its block, which leaves threads alone, and its bundle goes on. -/
theorem tile_done {s : State} {i : Instr} {f : Uses} (h : s.Gathers i f .zero) (hb : baseOf i = none) (hi : expand i = i)
    (hm : f.mark = .f) {tiles : List Nat} {check : Block → Nat → Bool} (htiles : ∀ t ∈ tiles, t < (s.bk.warp s.wp).tiles)
    (hcheck : check s.bk s.wp = true) (G : Nat → Block → Block)
    (hG : ∀ wp k, ∃ u v m, G wp k = { k with tiles := u, sides := v, tcs := m }) :
    ∃ t, tileIssue i tiles check s (fun c s => (s.updBlk c.b fun k => G c.wp k).advance c.b c.exe c.next) = .next t ∧
      t.bk = (G s.wp (s.bk.advance (s.idle f.h) s.sel.next)).advance (s.executing f.h) s.sel.next ∧
      (∀ x ∈ s.sel.thrs, (t.bk.thr x).pc = s.sel.next) ∧ t.mem = s.mem ∧ t.bk.vregs = s.bk.vregs := by
  have hthr : ∀ k, (G s.wp k).threads = k.threads := fun k => by obtain ⟨u, v, m, hk⟩ := hG s.wp k; rw [hk]
  obtain ⟨t, he, hk, ho⟩ := issue_updBlk h.toPasses (G s.wp)
    (fun c s => (s.updBlk c.b fun k => G c.wp k).advance c.b c.exe c.next) rfl
  refine ⟨t, ?_, hk, fun x hx => by rw [thr_goneOn (G s.wp) hthr hk, if_pos hx], by rw [ho.1], ?_⟩
  · rw [tileIssue_of_gathers h hi (h.not_uniform hb hi hm) htiles hcheck, he]
  · obtain ⟨u, v, m, hput⟩ := hG s.wp (s.bk.advance (s.idle f.h) s.sel.next)
    rw [hk, Block.advance_vregs, hput]
    rfl

/-- One that also sets flags of %fs. -/
theorem tile_done_flags {s : State} {i : Instr} {f : Uses} (h : s.Gathers i f .zero) (hb : baseOf i = none)
    (hi : expand i = i) (hm : f.mark = .f) {tiles : List Nat} {check : Block → Nat → Bool}
    (htiles : ∀ t ∈ tiles, t < (s.bk.warp s.wp).tiles) (hcheck : check s.bk s.wp = true) (G : Nat → Block → Block → Block)
    (fl : Nat → Block → Flags) (hG : ∀ wp j k, ∃ u v m, G wp j k = { k with tiles := u, sides := v, tcs := m }) :
    ∃ t, tileIssue i tiles check s (fun c s => ((s.updBlk c.b (G c.wp (s.blk c.b))).orFlags c.b c.wp
        (fl c.wp (s.blk c.b))).advance c.b c.exe c.next) = .next t ∧
      ∃ m, (let k := s.bk.advance (s.idle f.h) s.sel.next
        t.bk = ({ G s.wp k k with warps := m } : Block).advance (s.executing f.h) s.sel.next ∧
        (t.bk.warp s.wp).fs = (s.bk.warp s.wp).fs ||| fl s.wp k) ∧
      (∀ x ∈ s.sel.thrs, (t.bk.thr x).pc = s.sel.next) ∧ t.mem = s.mem ∧ t.bk.vregs = s.bk.vregs := by
  set k := s.bk.advance (s.idle f.h) s.sel.next with hk
  obtain ⟨u, v, tc, hput⟩ := hG s.wp k k
  have hb0 := s.hasBlk_idleOn f.h h.hasBlk
  have hblk0 : (s.idleOn f.h).blk s.sel.blk = k := s.blk_idleOn f.h h.hasBlk
  have hsel0 : (s.idleOn f.h).sel = s.sel := (s.onlyBlocks_idleOn f.h).sel
  -- the tile
  set s1 := (s.idleOn f.h).updBlk s.sel.blk (G s.wp k) with hs1
  have hblk1 : s1.blk s.sel.blk = G s.wp k k := by rw [hs1, State.blk_updBlk_self _ _ _ hb0, hblk0]
  have ho1 : (s.idleOn f.h).OnlyBundle s1 := by
    have := State.onlyBundle_updBlk (s.idleOn f.h) (G s.wp k)
    rwa [hsel0] at this
  have hsel1 : s1.sel = s.sel := ho1.1.sel.trans hsel0
  have hwarp1 : s1.bk.warp s.wp = s.bk.warp s.wp := by
    rw [State.bk, hsel1, hblk1, hput]
    rfl
  -- the flags
  obtain ⟨ho2, hb2, m, hblk2, hwarp⟩ := State.orFlags_spec s1 s.wp (fl s.wp k)
    (by rw [hsel1]; exact (State.hasBlk_updBlk _ _ _ _).mpr hb0)
  rw [hsel1] at ho2 hb2 hblk2
  rw [hblk1] at hblk2
  -- the bundle goes on
  obtain ⟨t, he, hbk, ho⟩ := issue_changes h.toPasses (body := fun c s => ((s.updBlk c.b (G c.wp (s.blk c.b))).orFlags c.b c.wp
    (fl c.wp (s.blk c.b))).advance c.b c.exe c.next) (by rw [hs1, ← hblk0]; rfl) (ho1.trans ho2) hb2 hblk2
  refine ⟨t, ?_, m, ⟨hbk, ?_⟩, fun x hx => ?_, by rw [ho.1], ?_⟩
  · rw [tileIssue_of_gathers h hi (h.not_uniform hb hi hm) htiles hcheck, he]
  · have hm : t.bk.warp s.wp = Map.get {} m s.wp := by rw [hbk]; rfl
    rw [hm, hwarp, if_pos rfl, hwarp1]
  · have hthr : ∀ j, (G s.wp k j).threads = j.threads := fun j => by obtain ⟨u, v, m, hj⟩ := hG s.wp k j; rw [hj]
    rw [thr_goneOn (fun j => { G s.wp k j with warps := m }) hthr hbk, if_pos hx]
  · rw [hbk, Block.advance_vregs, hput]
    rfl

/-- The tile that an instruction writes is one of sixteen. -/
theorem State.Passes.tile_lt {s : State} {i : Instr} {f : Uses} {base n : Nat} (hp : s.Passes i f) (hb : baseOf i = none)
    (hi : expand i = i) (hd : f.d = .aux base 16 n) : n < 16 := by
  have hwf := hp.dstField_wf hb hi
  rw [hd] at hwf
  exact of_decide_eq_true hwf

section
variable {s : State} {h : Hdr} {d a : Nat} {f : Uses}

theorem tzero_done (hg : s.Gathers (.tzero h d) f .zero) (hd : d < (s.bk.warp s.wp).tiles) :
    ∃ t, exec (.tzero h d) s = .next t ∧ t.bk.tileBytes s.wp d 0 4096 = List.replicate 4096 0 ∧
      t.bk.sideBytes s.wp d 0 512 = List.replicate 512 0 ∧ t.bk.tcs = s.bk.tcs ∧
      (∀ wp n, n < 16 → ¬ (wp = s.wp ∧ n = d) → t.bk.tileBytes wp n 0 4096 = s.bk.tileBytes wp n 0 4096) ∧
      (∀ x ∈ s.sel.thrs, (t.bk.thr x).pc = s.sel.next) ∧ t.mem = s.mem ∧ t.bk.vregs = s.bk.vregs := by
  obtain ⟨hm, hfd⟩ : f.mark = .f ∧ f.d = .aux 0 16 d := by cases hg.row; exact ⟨rfl, rfl⟩
  have hd16 : d < 16 := hg.toPasses.tile_lt rfl rfl hfd
  obtain ⟨t, he, hk, hpc, hmem, hvregs⟩ := tile_done hg rfl rfl hm (tiles := [d]) (check := fun _ _ => true)
    (by simpa using hd) rfl (fun wp k => k.putRows wp d []) fun wp k => k.putRows_frame wp d []
  have htcs : t.bk.tcs = s.bk.tcs := by
    rw [hk, Block.tcs_advance, Block.putRows_eq, Block.tcs_setTileSide, Block.tcs_advance]
  refine ⟨t, he, ?_, ?_, htcs, fun wp n hn hne => ?_, hpc, hmem, hvregs⟩
  · rw [hk, Block.tileBytes_advance, Block.putRows_eq, Block.tileBytes_setSide,
      Block.tileBytes_setTile_self _ (by rw [length_tileOfRows]), tileOfRows_nil, List.drop_zero,
      List.take_of_length_le List.length_replicate.le]
  · rw [hk, Block.sideBytes_advance, Block.putRows_eq]
    exact Block.sideBytes_setSide_self _ List.length_replicate
  · rw [hk, Block.tileBytes_advance, Block.putRows_eq, Block.tileBytes_setSide,
      Block.tileBytes_setTile_ne _ (length_tileOfRows []) hd16 hn hne, Block.tileBytes_advance]

theorem tmov_done (hg : s.Gathers (.tmov h d a) f .zero) (hd : d < (s.bk.warp s.wp).tiles) (ha : a < (s.bk.warp s.wp).tiles) :
    ∃ t, exec (.tmov h d a) s = .next t ∧ t.bk.tileBytes s.wp d 0 4096 = s.bk.tileBytes s.wp a 0 4096 ∧
      t.bk.sideBytes s.wp d 0 512 = s.bk.sideBytes s.wp a 0 512 ∧ t.bk.tcs = s.bk.tcs ∧
      (∀ wp n, n < 16 → ¬ (wp = s.wp ∧ n = d) → t.bk.tileBytes wp n 0 4096 = s.bk.tileBytes wp n 0 4096) ∧
      (∀ x ∈ s.sel.thrs, (t.bk.thr x).pc = s.sel.next) ∧ t.mem = s.mem ∧ t.bk.vregs = s.bk.vregs := by
  obtain ⟨hm, hfd⟩ : f.mark = .f ∧ f.d = .aux 0 16 d := by cases hg.row; exact ⟨rfl, rfl⟩
  have hd16 : d < 16 := hg.toPasses.tile_lt rfl rfl hfd
  obtain ⟨t, he, hk, hpc, hmem, hvregs⟩ := tile_done hg rfl rfl hm (tiles := [d, a]) (check := fun _ _ => true)
    (by simp [hd, ha]) rfl (fun wp k => (k.setTile wp d 0 (k.tileBytes wp a 0 4096)).setSide wp d 0 (k.sideBytes wp a 0 512))
    fun wp k => k.setTileSide_frame wp d _ _
  have hlen : (s.bk.tileBytes s.wp a 0 4096).length = 4096 := Map.getList_length _ _ _ _
  have hside : (s.bk.sideBytes s.wp a 0 512).length = 512 := Map.getList_length _ _ _ _
  have htcs : t.bk.tcs = s.bk.tcs := by rw [hk, Block.tcs_advance, Block.tcs_setTileSide, Block.tcs_advance]
  refine ⟨t, he, ?_, ?_, htcs, fun wp n hn hne => ?_, hpc, hmem, hvregs⟩
  · rw [hk, Block.tileBytes_advance, Block.tileBytes_setSide, Block.tileBytes_advance,
      Block.tileBytes_setTile_self _ (by rw [hlen]), List.drop_zero, List.take_of_length_le (by rw [hlen])]
  · rw [hk, Block.sideBytes_advance, Block.sideBytes_advance, Block.sideBytes_setSide_self _ hside]
  · rw [hk, Block.tileBytes_advance, Block.tileBytes_setSide, Block.tileBytes_advance,
      Block.tileBytes_setTile_ne _ hlen hd16 hn hne, Block.tileBytes_advance]

/-- The change that TXPOSE makes. -/
def Block.txpose (d a wp : Nat) (k : Block) : Block :=
  let g := k.tcf wp a
  (k.putRows wp d ((List.range g.cols).map fun j => packRow g.cw ((k.codes wp a g).map fun row => (row[j]?).getD 0))).setTc wp d
    (withShape (k.tc wp a) g.cols g.rows)
theorem Block.txpose_frame (k : Block) (d a wp : Nat) :
    ∃ u v m, Block.txpose d a wp k = { k with tiles := u, sides := v, tcs := m } := ⟨_, _, _, rfl⟩

theorem txpose_done (hg : s.Gathers (.txpose h d a) f .zero) (hd : d < (s.bk.warp s.wp).tiles)
    (ha : a < (s.bk.warp s.wp).tiles) (hok : txposeOk a s.bk s.wp = true) :
    let g := s.bk.tcf s.wp a
    ∃ t, exec (.txpose h d a) s = .next t ∧ t.bk.tc s.wp d = withShape (s.bk.tc s.wp a) g.cols g.rows ∧
      (∀ r < g.cols, t.bk.tileRow s.wp d r =
        fillRow (packRow g.cw ((s.bk.codes s.wp a g).map fun row => row.getD r 0))) ∧
      (∀ x ∈ s.sel.thrs, (t.bk.thr x).pc = s.sel.next) ∧ t.mem = s.mem ∧ t.bk.vregs = s.bk.vregs := by
  intro g
  have hm : f.mark = .f := by cases hg.row; rfl
  have hcols : g.cols ≤ 64 := by
    unfold txposeOk at hok
    simp only [Bool.and_eq_true, decide_eq_true_eq] at hok
    exact hok.1.2
  obtain ⟨t, he, hk, hpc, hmem, hvregs⟩ := tile_done hg rfl rfl hm (tiles := [d, a]) (check := txposeOk a)
    (by simp [hd, ha]) hok (Block.txpose d a) fun wp k => k.txpose_frame d a wp
  refine ⟨t, he, ?_, fun r hr => ?_, hpc, hmem, hvregs⟩
  · rw [hk, Block.tc_advance, Block.txpose, Block.tc_setTc_self, Block.tc_advance, Block.tcf_advance]
  · rw [hk, Block.tileRow_advance, Block.txpose, Block.tileRow_setTc, Block.tileRow_putRows _ _ _ _ (by omega)]
    rw [Block.tcf_advance, Block.codes_advance, List.getElem?_map, List.getElem?_range hr]
    simp only [Option.map_some, Option.getD_some, List.getD_eq_getElem?_getD]
    rfl

/-- The change that TCVT makes of tile and tile control register. -/
def Block.tcvtPut (d a : Nat) (rm : Rm) (wp : Nat) (j k : Block) : Block :=
  (k.putRows wp d (j.tcvt wp d a rm).1).setTc wp d (withShape (k.tc wp d) (j.tcf wp a).rows (j.tcf wp a).cols)
theorem Block.tcvtPut_frame (j k : Block) (d a : Nat) (rm : Rm) (wp : Nat) :
    ∃ u v m, Block.tcvtPut d a rm wp j k = { k with tiles := u, sides := v, tcs := m } := ⟨_, _, _, rfl⟩
theorem Block.tcvt_advance (k : Block) (ts : List Nat) (pc : DWord) (wp d a : Nat) (rm : Rm) :
    (k.advance ts pc).tcvt wp d a rm = k.tcvt wp d a rm := rfl

theorem tcvt_done {rm : Rm} (hg : s.Gathers (.tcvt h rm d a) f .zero) (hd : d < (s.bk.warp s.wp).tiles)
    (ha : a < (s.bk.warp s.wp).tiles) (hok : tcvtOk d a s.bk s.wp = true) :
    let g := s.bk.tcf s.wp a
    ∃ t, exec (.tcvt h rm d a) s = .next t ∧ t.bk.tc s.wp d = withShape (s.bk.tc s.wp d) g.rows g.cols ∧
      (∀ r < g.rows, t.bk.tileRow s.wp d r = fillRow ((s.bk.tcvt s.wp d a rm).1.getD r [])) ∧
      (t.bk.warp s.wp).fs = (s.bk.warp s.wp).fs ||| (s.bk.tcvt s.wp d a rm).2 ∧
      (∀ x ∈ s.sel.thrs, (t.bk.thr x).pc = s.sel.next) ∧ t.mem = s.mem ∧ t.bk.vregs = s.bk.vregs := by
  intro g
  have hm : f.mark = .f := by cases hg.row; rfl
  have hrows : g.rows ≤ 64 := by
    unfold tcvtOk at hok
    simp only [Bool.and_eq_true] at hok
    exact Tcf.rows_le_of_valid hok.1.1.1.1
  obtain ⟨t, he, m, ⟨hk, hfs⟩, hpc, hmem, hvregs⟩ := tile_done_flags hg rfl rfl hm (tiles := [d, a]) (check := tcvtOk d a)
    (by simp [hd, ha]) hok (Block.tcvtPut d a rm) (fun wp j => (j.tcvt wp d a rm).2)
    fun wp j k => Block.tcvtPut_frame j k d a rm wp
  refine ⟨t, he, ?_, fun r hr => ?_, by rw [hfs, Block.tcvt_advance], hpc, hmem, hvregs⟩
  · rw [hk, Block.tc_advance, Block.tc_setWarps, Block.tcvtPut, Block.tc_setTc_self, Block.tc_advance, Block.tcf_advance]
  · rw [hk, Block.tileRow_advance, Block.tileRow_setWarps, Block.tcvtPut, Block.tileRow_setTc,
      Block.tileRow_putRows _ _ _ _ (by omega), Block.tcvt_advance, List.getD_eq_getElem?_getD]

end

/-! ### MOVTC and RDTC (R182) -/

section
variable {s : State} {h : Hdr} {n : Nat} {f : Uses}

theorem movtc_done {b : Src} (hp : s.Passes (.movtc h n b) f) (hn : n < (s.bk.warp s.wp).tiles) :
    ∃ t, exec (.movtc h n b) s = .next t ∧
      t.bk.tc s.wp n = s.bk.pair (s.sel.thrs.headD 0) b &&& 0x000001FFFF7FFF7F ∧
      (∀ wp m, m < 16 → ¬ (wp = s.wp ∧ m = n) → t.bk.tc wp m = s.bk.tc wp m) ∧
      (∀ x, t.bk.thr x = if x ∈ s.sel.thrs then { s.bk.thr x with pc := s.sel.next } else s.bk.thr x) ∧
      t.bk = { s.bk with threads := t.bk.threads, tcs := t.bk.tcs, pend := t.bk.pend } ∧ s.OnlyBundle t := by
  have hn16 : n < 16 := hp.tile_lt rfl rfl (base := 0x10) (by cases hp.row; rfl)
  set F : Block → Block := fun k => k.setTc s.wp n (k.pair (s.sel.thrs.headD 0) b &&& tcMask) with hF
  obtain ⟨t, he, hk, ho⟩ := issue_updBlk hp F
    (fun c s => (s.updBlk c.b fun k => k.setTc c.wp n (k.pair c.lead b &&& tcMask)).advance c.b c.exe c.next) rfl
  refine ⟨t, ?_, ?_, fun wp m hm hne => ?_, thr_goneOn F (fun _ => rfl) hk, by rw [hk]; rfl, ho⟩
  · show execMovtc h n b s = _
    exact (if_neg (Nat.not_le.mpr hn)).trans he
  · rw [hk, Block.tc_advance, hF]
    dsimp only
    rw [Block.tc_setTc_self, Block.advance_pair]
    rfl
  · rw [hk, Block.tc_advance, hF]
    dsimp only
    rw [Block.tc_setTc _ _ hn16 hm, if_neg hne, Block.tc_advance]

/-- MOVTC of a tile beyond the warp's allotment. -/
theorem movtc_beyond {b : Src} (hp : s.Passes (.movtc h n b) f) (hn : (s.bk.warp s.wp).tiles ≤ n) :
    Traps s (.movtc h n b) s.sel.thrs cILL := by
  exact traps_of_raiseAll_aux hp.noHole hp.hasBlk hp.distinct (if_pos hn)

/-- RDTC is an operation whose result is the tile control register. -/
theorem exec_rdtc {d : Dst} (hp : s.Passes (.rdtc h d n) f) (hn : n < (s.bk.warp s.wp).tiles) :
    exec (.rdtc h d n) s = alu (.rdtc h d n) s 2 d (fun _ _ => .u) fun k _ => ((k.tc s.wp n).toNat, 0) := by
  have hrun : exec (.rdtc h d n) s = issue (.rdtc h d n) s fun c s =>
      (s.put c 2 d (fun _ => ((s.blk c.b).tc c.wp n).setWidth 128) .u).advance c.b c.exe c.next :=
    if_neg (Nat.not_le.mpr hn)
  rw [hrun, alu, issue_of_passes hp, issue_of_passes hp]
  simp only [foldl_or_zero, State.orFlags_zero, BitVec.ofNat_toNat]
  rfl

theorem rdtc_done {d : Dst} (hp : s.Passes (.rdtc h d n) f) (hn : n < (s.bk.warp s.wp).tiles) :
    ∃ t, exec (.rdtc h d n) s = .next t ∧ s.Wrote t h 2 d fun _ => ((s.bk.tc s.wp n).toNat, 0) := by
  obtain rfl : f.h = h := by cases hp.row; rfl
  rw [exec_rdtc hp hn]
  exact alu_spec s _ f 2 d _ _ _ hp (fits_ext rfl rfl rfl (.inr (.inr rfl)) (by decide) _ _ hp) (by decide)
    fun _ _ _ => by rw [Block.tc_advance]

end

/-! ### CVINIT (R169) -/

theorem getLsbD_setOf (ts : List Nat) {x : Nat} (hx : x < 1024) : (setOf ts).getLsbD x = decide (x ∈ ts) := by
  have hbit : ∀ t, (1#1024 <<< t).getLsbD x = decide (x = t) := fun t => by
    rw [BitVec.getLsbD_shiftLeft, BitVec.getLsbD_one]
    by_cases h : x = t
    · simp [h, h ▸ hx]
    · simp [h, hx]
      omega
  suffices H : ∀ m : BitVec 1024, (ts.foldl (fun m t => m ||| (1#1024 <<< t)) m).getLsbD x = (m.getLsbD x || decide (x ∈ ts)) by
    rw [setOf, H]; simp
  induction ts with
  | nil => simp
  | cons t ts ih =>
    intro m
    rw [List.foldl_cons, ih, BitVec.getLsbD_or, hbit]
    simp [Bool.or_assoc]

theorem kindCode_ne_zero (kind : CvKind) : kindCode kind ≠ 0 := by
  unfold kindCode
  split <;> decide

theorem Block.kreg_setKreg (k : Block) (n m : Nat) (r : KReg) :
    (k.setKreg n r).kreg m = if m = n then r else k.kreg m := Map.get_set _ _ _ _ _
theorem Block.kreg_advance (k : Block) (ts : List Nat) (pc : DWord) (n : Nat) : (k.advance ts pc).kreg n = k.kreg n := rfl
theorem Block.declared_advance_nil (k : Block) (pc : DWord) (wp t : Nat) (kind : CvKind) :
    (k.advance [] pc).declared wp t kind = k.declared wp t kind := by cases kind <;> rfl
theorem Block.onePart_advance (k : Block) (ts : List Nat) (pc : DWord) (us : List Nat) :
    (k.advance ts pc).onePart us = k.onePart us := rfl

section
variable {s : State} {i : Instr} {f : Uses} (h : s.Passes i f)
include h

/-- An instruction whose marking asks for U = 1 has it. -/
theorem State.Passes.uniform_of_mark (hb : baseOf i = none) (hi : expand i = i) (hm : f.mark = .q) : f.h.u = true := by
  have hwf := h.wf
  have hrow := h.row
  rw [hi] at hrow
  unfold wellFormed at hwf
  rw [hb] at hwf
  dsimp only at hwf
  rw [hrow] at hwf
  dsimp only [Uses.wf, Uses.hdrOk] at hwf
  rw [hm] at hwf
  simp only [Bool.and_eq_true] at hwf
  tauto

/-- Under U = 1 one guard holds in the whole bundle, so that no thread of it is left behind. -/
theorem State.Passes.idle_of_uniform (hu : f.h.u = true) : s.idle f.h = [] := by
  obtain ⟨y, hy⟩ := List.exists_mem_of_ne_nil _ h.runs
  obtain ⟨hy, hgy⟩ := List.mem_filter.mp hy
  have hun := h.uniform hu
  unfold Block.uniform at hun
  simp only [Bool.and_eq_true] at hun
  have hgu := hun.1.1.1
  refine List.filter_eq_nil_iff.mpr fun x hx => ?_
  have hall : ∀ z ∈ s.sel.thrs, (s.bk.thr z).guard f.h = (s.bk.thr (s.sel.thrs.headD 0)).guard f.h := by
    unfold Block.uniformGuard at hgu
    cases hs : s.sel.thrs with
    | nil => simp
    | cons t ts =>
      rw [hs] at hgu
      simpa using hgu
  have hgx : (s.bk.thr x).guard f.h = true := by rw [hall x hx, ← hall y hy, hgy]
  have hexe : x ∈ s.executing f.h := List.mem_filter.mpr ⟨hx, hgx⟩
  simpa using hexe

end

theorem cvinit_done {s : State} {h : Hdr} {n : Nat} {kind : CvKind} {f : Uses} {ts : List Nat}
    (hp : s.Passes (.cvinit h n kind) f) (hdecl : s.bk.declared s.wp (s.sel.thrs.headD 0) kind = some ts) (hne : ts ≠ [])
    (hone : s.bk.onePart ts = true) (hfree : (s.bk.kreg n).signed = 0) :
    ∃ t, exec (.cvinit h n kind) s = .next t ∧
      (t.bk.kreg n).kind ≠ 0 ∧ (∀ x < 1024, (t.bk.kreg n).set.getLsbD x = true ↔ x ∈ ts) ∧
      (t.bk.kreg n).anchor = warpOf (ts.headD 0) ∧ (t.bk.kreg n).signed = 0 ∧
      (∀ m, m ≠ n → t.bk.kreg m = s.bk.kreg m) ∧ (∀ x ∈ s.sel.thrs, (t.bk.thr x).pc = s.sel.next) ∧
      t.mem = s.mem ∧ t.bk.vregs = s.bk.vregs := by
  have hu := hp.uniform_of_mark rfl rfl (by cases hp.row; rfl)
  set r : KReg := { kind := kindCode kind, set := setOf ts, anchor := warpOf (ts.headD 0) } with hr
  have hblk0 : (s.idleOn f.h).blk s.sel.blk = s.bk.advance [] s.sel.next := by
    rw [s.blk_idleOn f.h hp.hasBlk, hp.idle_of_uniform hu]
  have hdecl0 : ((s.idleOn f.h).blk s.sel.blk).declared s.wp (s.sel.thrs.headD 0) kind = some ts := by
    rw [hblk0, Block.declared_advance_nil, hdecl]
  have hok : ¬ (decide (ts = []) || !((s.idleOn f.h).blk s.sel.blk).onePart ts ||
      decide ((((s.idleOn f.h).blk s.sel.blk).kreg n).signed ≠ 0)) = true := by
    rw [hblk0, Block.onePart_advance, Block.kreg_advance, hone, hfree]
    simp [hne]
  obtain ⟨t, he, hk, ho⟩ := issue_updBlk hp (fun k => k.setKreg n r) (fun c s =>
    match (s.blk c.b).declared c.wp c.lead kind with
    | none => s.raiseAll c.b c.exe c.pc cCVSET .free
    | some ts =>
      if ts = [] || !(s.blk c.b).onePart ts || ((s.blk c.b).kreg n).signed ≠ 0 then s.raiseAll c.b c.exe c.pc cCVSET .free
      else (s.updBlk c.b fun k => k.setKreg n { kind := kindCode kind, set := setOf ts, anchor := warpOf (ts.headD 0) }).advance
        c.b c.exe c.next) (by
    show (match ((s.idleOn f.h).blk s.sel.blk).declared s.wp (s.sel.thrs.headD 0) kind with
      | none => _
      | some ts => _) = _
    rw [hdecl0]
    exact if_neg hok)
  have hkreg : ∀ m, t.bk.kreg m = if m = n then r else s.bk.kreg m := fun m => by
    rw [hk, Block.kreg_advance, Block.kreg_setKreg, Block.kreg_advance]
  have hself : t.bk.kreg n = r := by rw [hkreg, if_pos rfl]
  refine ⟨t, he, ?_, fun x hx => ?_, by rw [hself], by rw [hself], fun m hm => by rw [hkreg, if_neg hm], fun x hx => ?_,
    by rw [ho.1], by rw [hk]; rfl⟩
  · rw [hself]
    exact kindCode_ne_zero kind
  · rw [hself]
    simp [hr, getLsbD_setOf ts hx]
  · rw [thr_goneOn (fun k => k.setKreg n r) (fun _ => rfl) hk, if_pos hx]

/-- Settles O27: an instruction on tiles is a gathering of the whole warp with one change of its block; MOVTC, RDTC and CVINIT issue
as others do. -/
theorem tileRules : Obligations.TileRules := by
  unfold Obligations.TileRules
  exact ⟨fun s => ⟨fun _ _ _ hg hd => tzero_done hg hd, fun _ _ _ _ hg hd ha => tmov_done hg hd ha,
      fun _ _ _ _ hg hd ha hok => txpose_done hg hd ha hok, fun _ _ _ _ _ hg hd ha hok => tcvt_done hg hd ha hok⟩,
    fun s => ⟨fun _ _ _ _ hp hn => movtc_done hp hn, fun _ _ _ _ hp hn => rdtc_done hp hn,
      fun _ _ _ _ _ hp hdecl hne hone hfree => cvinit_done hp hdecl hne hone hfree, fun _ _ _ _ hp hn => movtc_beyond hp hn⟩⟩

end Sys2Proof.Machine
end

section
/-! PROOFS. Signing a convergence-issued operation (spec/08 R170, R171). -/
namespace Sys2Proof.Machine

/-! ### What signing leaves alone -/

/-- Of the machine, only the bundle's block and the count of numbers differ; of the block, only its threads, what is pending and its
convergence registers. -/
structure State.Signing (s t : State) : Prop where
  frame : t = { s with blocks := t.blocks, nextId := t.nextId }
  hasBlk : t.hasBlk s.sel.blk
  bk : t.blk s.sel.blk =
    { s.bk with threads := (t.blk s.sel.blk).threads, pend := (t.blk s.sel.blk).pend, kregs := (t.blk s.sel.blk).kregs }

namespace State.Signing
variable {s t u : State}

theorem refl (h : s.hasBlk s.sel.blk) : s.Signing s := ⟨rfl, h, rfl⟩
theorem sel (h : s.Signing t) : t.sel = s.sel := by rw [h.frame]
theorem mem (h : s.Signing t) : t.mem = s.mem := by rw [h.frame]
theorem hole (h : s.Signing t) : t.hole = s.hole := by rw [h.frame]
theorem oplog (h : s.Signing t) : t.oplog = s.oplog := by rw [h.frame]
theorem bk_eq (h : s.Signing t) : t.bk = t.blk s.sel.blk := by rw [State.bk, h.sel]
theorem vregs (h : s.Signing t) : t.bk.vregs = s.bk.vregs := by rw [h.bk_eq, h.bk]
theorem accs (h : s.Signing t) : t.bk.accs = s.bk.accs := by rw [h.bk_eq, h.bk]
theorem tiles (h : s.Signing t) : t.bk.tiles = s.bk.tiles := by rw [h.bk_eq, h.bk]

/-- A further change of the block's threads, what is pending and its convergence registers. -/
theorem updBlk (h : s.Signing t) (F : Block → Block)
    (hF : ∀ k, F k = { k with threads := (F k).threads, pend := (F k).pend, kregs := (F k).kregs }) :
    s.Signing (t.updBlk s.sel.blk F) := by
  have ho := State.onlyBlocks_updBlk t s.sel.blk F
  refine ⟨?_, (State.hasBlk_updBlk _ _ _ _).mpr h.hasBlk, ?_⟩
  · rw [ho, h.frame]
  · rw [State.blk_updBlk_self _ _ _ h.hasBlk, hF, h.bk]

/-- A number is taken. -/
theorem newId (h : s.Signing t) : s.Signing { t with nextId := t.nextId + 1 } := by
  refine ⟨?_, h.hasBlk, h.bk⟩
  rw [h.frame]

theorem thr_eq (h : s.Signing t) (x : Nat) : t.bk.thr x = (t.blk s.sel.blk).thr x := by rw [h.bk_eq]

end State.Signing

theorem Block.convVal_signing (k : Block) (th : Map Thread) (p : List Pending) (m : Map KReg) (x : Nat) (i : Instr) :
    ({ k with threads := th, pend := p, kregs := m } : Block).convVal x i = k.convVal x i := rfl

/-! ### The pending instruction of a set -/

/-- The last of what is pending waits for the operation of kN; all before it waits neither for a set nor in the operand log. -/
def PendsFor (n : Nat) (pc : DWord) (bound : Nat) (l : List Pending) : Prop :=
  ∃ l0 p, l = l0 ++ [p] ∧ (∀ q ∈ l0, q.k = none ∧ q.log = none ∧ q.id < p.id) ∧ p.k = some n ∧ p.log = none ∧ p.pc = pc ∧
    p.id < bound

theorem PendsFor.map {n : Nat} {pc : DWord} {bound : Nat} {l : List Pending} (h : PendsFor n pc bound l) (F : Pending → Pending)
    (hF : ∀ p, (F p).k = p.k ∧ (F p).log = p.log ∧ (F p).id = p.id ∧ (F p).pc = p.pc) : PendsFor n pc bound (l.map F) := by
  obtain ⟨l0, p, rfl, hl, hk, hlog, hpc, hid⟩ := h
  obtain ⟨fk, flog, fid, fpc⟩ := hF p
  refine ⟨l0.map F, F p, by simp, fun q hq => ?_, fk.trans hk, flog.trans hlog, fpc.trans hpc, by rw [fid]; exact hid⟩
  obtain ⟨a, ha, rfl⟩ := List.mem_map.mp hq
  obtain ⟨gk, glog, gid, -⟩ := hF a
  rw [gk, glog, gid, fid]
  exact hl a ha

theorem PendsFor.mono {n : Nat} {pc : DWord} {a b : Nat} {l : List Pending} (h : PendsFor n pc a l) (hab : a ≤ b) :
    PendsFor n pc b l := by
  obtain ⟨l0, p, hl, hq, hk, hlog, hpc, hid⟩ := h
  exact ⟨l0, p, hl, hq, hk, hlog, hpc, hid.trans_le hab⟩

theorem PendsFor.advance {n : Nat} {pc : DWord} {b : Nat} {k : Block} (h : PendsFor n pc b k.pend) (ts : List Nat) (next : DWord) :
    PendsFor n pc b (k.advance ts next).pend := h.map _ fun _ => ⟨rfl, rfl, rfl, rfl⟩

/-- The hazard set of a pending convergence-issued instruction names registers alone. -/
theorem Block.convHazard_eq (k : Block) (wp : Nat) (i : Instr) (p : Pending) :
    ∃ a b c d, k.convHazard wp i p = { p with tiles := a, tcs := b, accs := c, long := d } := by
  unfold Block.convHazard
  split <;> exact ⟨_, _, _, _, rfl⟩

/-! ### One thread signs (R171) -/

/-- The register when one more thread signs. -/
def KReg.sign (r : KReg) (x : Nat) (pc : DWord) (val : QWord) (i : Instr) (live : Bool) : KReg :=
  { r with signed := r.signed ||| (1#1024 <<< x), opPc := pc, opVal := val, live := r.live || live, op := some i }

/-- The block when thread `x` has signed kN, which was `r` and is `r'`: the first signature makes `p` pending, a later one joins it. -/
def Block.takeSign (n x : Nat) (i : Instr) (r r' : KReg) (p : Pending) (k : Block) : Block :=
  { k.setKreg n r' with
    pend := if r.signed = 0 then k.pend ++ [k.convHazard r.anchor i p]
      else k.pend.map fun p => if p.k = some n then { p with thrs := p.thrs ++ [(x, 0)] } else p }

/-- A thread in the set, whose operands agree with what is signed, signs. -/
theorem State.signOne_eq (t : State) (c : Ctx) (n : Nat) (i : Instr) (h : Hdr) (x : Nat) (live : Bool)
    (hk : ((t.blk c.b).kreg n).kind ≠ 0) (hset : ((t.blk c.b).kreg n).set.getLsbD x = true)
    (hagree : ((t.blk c.b).kreg n).signed = 0 ∨ (((t.blk c.b).kreg n).opPc = c.pc ∧
      ((t.blk c.b).kreg n).opVal = (t.blk c.b).convVal x i)) :
    ∃ p : Pending, p.k = some n ∧ p.log = none ∧ p.id = t.nextId ∧ p.pc = c.pc ∧
      t.signOne c n i h x live = (({ t with nextId := t.nextId + 1 } : State).advance c.b [x] c.next).updBlk c.b
        (Block.takeSign n x i ((t.blk c.b).kreg n)
          (((t.blk c.b).kreg n).sign x c.pc ((t.blk c.b).convVal x i) i live) p) := by
  generalize hr : (t.blk c.b).kreg n = r at hk hset hagree ⊢
  have hgo : ¬ (decide (r.kind = 0) || !r.set.getLsbD x || (decide (r.signed ≠ 0) &&
      (decide (r.opPc ≠ c.pc) || decide (r.opVal ≠ (t.blk c.b).convVal x i)))) = true := by
    have hk' : decide (r.kind = 0) = false := decide_eq_false hk
    rcases hagree with hz | ⟨hpc, hval⟩
    · have hz' : decide (r.signed ≠ 0) = false := decide_eq_false fun hne => hne hz
      rw [hk', hset, hz']; simp
    · have hpc' : decide (r.opPc ≠ c.pc) = false := decide_eq_false fun hne => hne hpc
      have hval' : decide (r.opVal ≠ (t.blk c.b).convVal x i) = false := decide_eq_false fun hne => hne hval
      rw [hk', hset, hpc', hval']
      cases decide (r.signed ≠ 0) <;> decide
  subst hr
  set r := (t.blk c.b).kreg n with hr
  exact ⟨{ id := t.nextId, pc := c.pc, la := h.la, thrs := [(x, 0)], warp := r.anchor, part := (t.blk c.b).partOf r.anchor,
           fd := (({ t with nextId := t.nextId + 1 } : State).advance c.b [x] c.next).tldFd c.b r.anchor i
             ((r.sign x c.pc ((t.blk c.b).convVal x i) i live).memOp x),
           k := some n }, rfl, rfl, rfl, rfl, if_neg hgo⟩

section
variable {n x : Nat} {i : Instr} {r r' : KReg} {p : Pending} {k : Block} {pc : DWord}

/-- The first signature makes the operation pending. -/
theorem Block.pendsFor_first (hr : r.signed = 0) (hl : ∀ q ∈ k.pend, q.k = none ∧ q.log = none ∧ q.id < p.id) (hk : p.k = some n)
    (hlog : p.log = none) (hpc : p.pc = pc) : PendsFor n pc (p.id + 1) (Block.takeSign n x i r r' p k).pend := by
  obtain ⟨a, b, c, d, hz⟩ := k.convHazard_eq r.anchor i p
  refine ⟨k.pend, k.convHazard r.anchor i p, if_pos hr, fun q hq => ?_, ?_, ?_, ?_, ?_⟩ <;> rw [hz]
  · exact hl q hq
  · exact hk
  · exact hlog
  · exact hpc
  · exact Nat.lt_succ_self _

/-- A later signature joins what is pending. -/
theorem Block.pendsFor_later {bound : Nat} (hr : r.signed ≠ 0) (h : PendsFor n pc bound k.pend) :
    PendsFor n pc bound (Block.takeSign n x i r r' p k).pend := by
  have he : (Block.takeSign n x i r r' p k).pend =
      k.pend.map fun p => if p.k = some n then { p with thrs := p.thrs ++ [(x, 0)] } else p := if_neg hr
  rw [he]
  exact h.map _ fun p => by split <;> exact ⟨rfl, rfl, rfl, rfl⟩

end

/-! ### The threads of a bundle sign -/

/-- The register once the threads of a list have signed. -/
def KReg.signedBy (r : KReg) (done : List Nat) (pc : DWord) (val : QWord) (i : Instr) (live : Bool) : KReg :=
  if done = [] then r
  else { r with signed := r.signed ||| setOf done, opPc := pc, opVal := val, live := r.live || live, op := some i }

theorem setOf_append (ts : List Nat) (x : Nat) : setOf (ts ++ [x]) = setOf ts ||| (1#1024 <<< x) := by
  simp [setOf, List.foldl_append]

theorem KReg.sign_signedBy (r : KReg) (done : List Nat) (x : Nat) (pc : DWord) (val : QWord) (i : Instr) (g : Nat → Bool) :
    (r.signedBy done pc val i (done.any g)).sign x pc val i (g x) = r.signedBy (done ++ [x]) pc val i ((done ++ [x]).any g) := by
  unfold KReg.signedBy KReg.sign
  rw [if_neg (by simp : done ++ [x] ≠ []), setOf_append]
  split
  · next h => subst h; simp [setOf]
  · simp [BitVec.or_assoc, Bool.or_assoc]

theorem KReg.signedBy_set (r : KReg) (done : List Nat) (pc : DWord) (val : QWord) (i : Instr) (live : Bool) :
    (r.signedBy done pc val i live).set = r.set ∧ (r.signedBy done pc val i live).kind = r.kind := by
  unfold KReg.signedBy
  split <;> exact ⟨rfl, rfl⟩

/-- Threads of the bundle that have signed, in a state that keeps the rest as it was. -/
structure State.SignedBy (s : State) (i : Instr) (h : Hdr) (n : Nat) (val : QWord) (done : List Nat) (t : State) : Prop
    extends s.Signing t where
  thr : ∀ x, (t.blk s.sel.blk).thr x = if x ∈ done then { s.bk.thr x with pc := s.sel.next } else s.bk.thr x
  reg : (t.blk s.sel.blk).kreg n = (s.bk.kreg n).signedBy done s.sel.pc val i (done.any fun x => (s.bk.thr x).guard h)
  pend : (∀ p ∈ s.bk.pend, p.k = none ∧ p.log = none) → (∀ p ∈ s.bk.pend, p.id < s.nextId) → (s.bk.kreg n).signed = 0 →
    (done = [] → (t.blk s.sel.blk).pend = s.bk.pend ∧ t.nextId = s.nextId) ∧
      (done ≠ [] → PendsFor n s.sel.pc t.nextId (t.blk s.sel.blk).pend)

section
variable {s t : State} {i : Instr} {f : Uses} {n : Nat} {val : QWord} (h : s.Signs i f n val)
include h

theorem State.SignedBy.nil : s.SignedBy i f.h n val [] s := by
  refine ⟨.refl h.hasBlk, fun x => ?_, ?_, fun _ _ _ => ⟨fun _ => ⟨rfl, rfl⟩, fun hne => absurd rfl hne⟩⟩
  · simp [State.bk]
  · simp [State.bk, KReg.signedBy]

/-- A register of which a thread has signed. -/
theorem State.Signs.signed_ne_zero {done : List Nat} (hd : ∀ x ∈ done, x ∈ s.sel.thrs) (hne : done ≠ []) (r : BitVec 1024) :
    r ||| setOf done ≠ 0 := by
  obtain ⟨x, hx⟩ := List.exists_mem_of_ne_nil done hne
  intro hz
  have hbit : (r ||| setOf done).getLsbD x = true := by
    rw [BitVec.getLsbD_or, getLsbD_setOf done (h.small x (hd x hx))]
    simp [hx]
  rw [hz] at hbit
  simp at hbit

/-- One more thread of the bundle signs. -/
theorem State.SignedBy.sign {done : List Nat} {x : Nat} (hs : s.SignedBy i f.h n val done t) (hd : ∀ y ∈ done, y ∈ s.sel.thrs)
    (hx : x ∈ s.sel.thrs) :
    s.SignedBy i f.h n val (done ++ [x]) (t.signOne (s.ctxOf false) n i f.h x ((s.bk.thr x).guard f.h)) := by
  set r := s.bk.kreg n with hr
  set g : Nat → Bool := fun x => (s.bk.thr x).guard f.h with hg
  set r1 := r.signedBy done s.sel.pc val i (done.any g) with hr1
  obtain ⟨hset, hkind⟩ := r.signedBy_set done s.sel.pc val i (done.any g)
  have hreg : (t.blk (s.ctxOf false).b).kreg n = r1 := hs.reg
  have hval : (t.blk (s.ctxOf false).b).convVal x i = val := by
    have : (t.blk s.sel.blk).convVal x i = s.bk.convVal x i := by rw [hs.bk, Block.convVal_signing]
    exact this.trans (h.same x hx)
  have hagree : r1.signed = 0 ∨ (r1.opPc = s.sel.pc ∧ r1.opVal = val) := by
    rw [hr1, KReg.signedBy]
    split
    · exact h.agree
    · exact .inr ⟨rfl, rfl⟩
  obtain ⟨p, hpk, hplog, hpid, hppc, heq⟩ := t.signOne_eq (s.ctxOf false) n i f.h x (g x)
    (by rw [hreg, hkind]; exact h.declared) (by rw [hreg, hset]; exact h.inSet x hx) (by rw [hreg, hval]; exact hagree)
  rw [hreg, hval] at heq
  have heq : t.signOne (s.ctxOf false) n i f.h x (g x) =
      (({ t with nextId := t.nextId + 1 } : State).advance s.sel.blk [x] s.sel.next).updBlk s.sel.blk
        (Block.takeSign n x i r1 (r1.sign x s.sel.pc val i (g x)) p) := heq
  rw [heq]
  have h1 := hs.toSigning.newId
  have h2 : s.Signing (({ t with nextId := t.nextId + 1 } : State).advance s.sel.blk [x] s.sel.next) :=
    h1.updBlk (fun k => k.advance [x] s.sel.next) fun _ => rfl
  have h3 := h2.updBlk (Block.takeSign n x i r1 (r1.sign x s.sel.pc val i (g x)) p) fun _ => rfl
  have hblk2 : (({ t with nextId := t.nextId + 1 } : State).advance s.sel.blk [x] s.sel.next).blk s.sel.blk =
      (t.blk s.sel.blk).advance [x] s.sel.next := State.blk_updBlk_self _ _ _ h1.hasBlk
  have hblk3 := State.blk_updBlk_self _ _ (Block.takeSign n x i r1 (r1.sign x s.sel.pc val i (g x)) p) h2.hasBlk
  rw [hblk2] at hblk3
  have hnext3 : ((({ t with nextId := t.nextId + 1 } : State).advance s.sel.blk [x] s.sel.next).updBlk s.sel.blk
      (Block.takeSign n x i r1 (r1.sign x s.sel.pc val i (g x)) p)).nextId = t.nextId + 1 := by
    rw [State.updBlk_nextId, State.advance, State.updBlk_nextId]
  refine ⟨h3, fun y => ?_, ?_, fun hplain hids hfree => ⟨fun hnil => absurd hnil (by simp), fun _ => ?_⟩⟩
  · rw [hblk3]
    show ((t.blk s.sel.blk).advance [x] s.sel.next).thr y = _
    rw [Block.thr_advance, hs.thr y]
    by_cases hy : y = x
    · rw [if_pos (show y ∈ [x] by simp [hy]), if_pos (show y ∈ done ++ [x] by simp [hy])]
      split <;> rfl
    · have hmem : y ∈ done ++ [x] ↔ y ∈ done := by simp [hy]
      rw [if_neg (show y ∉ [x] by simpa using hy), if_congr hmem rfl rfl]
  · rw [hblk3]
    have : (Block.takeSign n x i r1 (r1.sign x s.sel.pc val i (g x)) p ((t.blk s.sel.blk).advance [x] s.sel.next)).kreg n =
      r1.sign x s.sel.pc val i (g x) := Map.get_set_self _ _ _ _
    rw [this, hr1, KReg.sign_signedBy]
  · rw [hblk3, hnext3]
    obtain ⟨hnil, hcons⟩ := hs.pend hplain hids hfree
    by_cases hdone : done = []
    · obtain ⟨hpend, hnext⟩ := hnil hdone
      have hl : ∀ q ∈ ((t.blk s.sel.blk).advance [x] s.sel.next).pend, q.k = none ∧ q.log = none ∧ q.id < p.id := by
        intro q hq
        obtain ⟨q0, hq0, rfl⟩ := List.mem_map.mp hq
        rw [hpend] at hq0
        obtain ⟨hqk, hqlog⟩ := hplain q0 hq0
        exact ⟨hqk, hqlog, by rw [hpid, hnext]; exact hids q0 hq0⟩
      have hgoal := Block.pendsFor_first (x := x) (i := i) (r' := r1.sign x s.sel.pc val i (g x))
        (show r1.signed = 0 by rw [hr1, hdone]; exact hfree) hl hpk hplog hppc
      rw [hpid] at hgoal
      exact hgoal
    · have hlater : r1.signed ≠ 0 := by
        rw [hr1, KReg.signedBy, if_neg hdone]
        exact h.signed_ne_zero hd hdone _
      exact (Block.pendsFor_later hlater ((hcons hdone).advance [x] s.sel.next)).mono (Nat.le_succ _)

/-- All threads of the bundle sign in turn. -/
theorem State.Signs.signedBy : s.SignedBy i f.h n val s.sel.thrs
    (s.sel.thrs.foldl (fun t x => t.signOne (s.ctxOf false) n i f.h x ((s.bk.thr x).guard f.h)) s) := by
  suffices H : ∀ done : List Nat, (∀ y ∈ done, y ∈ s.sel.thrs) → s.SignedBy i f.h n val done
      (done.foldl (fun t x => t.signOne (s.ctxOf false) n i f.h x ((s.bk.thr x).guard f.h)) s) from H _ fun _ => id
  intro done
  induction done using List.reverseRecOn with
  | nil => exact fun _ => .nil h
  | append_singleton done x ih =>
    intro hd
    have hd' : ∀ y ∈ done, y ∈ s.sel.thrs := fun y hy => hd y (by simp [hy])
    rw [List.foldl_append]
    exact (ih hd').sign h hd' (hd x (by simp))

/-- A convergence-issued instruction whose bundle may sign: its threads sign, and the operation issues if the set is complete. -/
theorem State.Signs.convIssue_eq : convIssue i n s = finish
    ((s.sel.thrs.foldl (fun t x => t.signOne (s.ctxOf false) n i f.h x ((s.bk.thr x).guard f.h)) s).convCheck s.sel.blk n) := by
  set r := s.bk.kreg n with hr
  have hfree : (s.sel.thrs.filter fun t => !(decide (r.kind ≠ 0) && r.signed.getLsbD t)) = s.sel.thrs :=
    List.filter_eq_self.mpr fun x hx => by rw [h.unsigned x hx]; simp
  have hbad : (s.sel.thrs.filter fun t => (s.bk.thr t).guard f.h && s.bk.hazardous t r.anchor
      (touches i f ++ s.bk.tcNames r.anchor i)) = [] :=
    List.filter_eq_nil_iff.mpr fun x hx => by
      cases hg : (s.bk.thr x).guard f.h with
      | false => simp
      | true =>
        rw [Bool.true_and]
        exact Bool.eq_false_iff.mp (h.noHazard x hx hg)
  have hnamed : ¬ (decide (r.kind ≠ 0) && !s.bk.convNamed r.anchor i) = true := by rw [h.named]; simp
  have hrun : convIssue i n s =
      let free := s.sel.thrs.filter fun t => !(decide (r.kind ≠ 0) && r.signed.getLsbD t)
      if (decide (r.kind ≠ 0) && !s.bk.convNamed r.anchor i) = true then finish (s.illAll s.sel.blk free s.sel.pc s.sel.w0 7)
      else
        let bad := free.filter fun t => (s.bk.thr t).guard f.h && s.bk.hazardous t r.anchor
          (touches i f ++ s.bk.tcNames r.anchor i)
        finish (((free.filter fun t => !bad.contains t).foldl
          (fun t x => t.signOne (s.ctxOf false) n i f.h x ((s.bk.thr x).guard f.h))
          (s.raiseAll s.sel.blk bad s.sel.pc cLAHEAD .free)).convCheck s.sel.blk n) := by
    unfold convIssue
    rw [h.row]
    rfl
  rw [hrun]
  dsimp only
  rw [if_neg hnamed, hfree, hbad]
  simp [State.raiseAll]

end

/-! ### The signatures of a bundle that leave the set incomplete (R170, R171) -/

/-- A convergence-issued instruction executes by signing its register. -/
theorem exec_eq_convIssue {i : Instr} {n : Nat} (hc : convReg i = some n) (s : State) : exec i s = convIssue i n s := by
  unfold convReg at hc
  split at hc <;> cases hc <;> rfl

theorem KReg.signedBy_of_ne_nil (r : KReg) {done : List Nat} (h : done ≠ []) (pc : DWord) (val : QWord) (i : Instr) (live : Bool) :
    r.signedBy done pc val i live =
      { r with signed := r.signed ||| setOf done, opPc := pc, opVal := val, live := r.live || live, op := some i } := if_neg h

/-- With a signature missing the operation does not run. -/
theorem State.convCheck_of_ne {s : State} {b n : Nat} (h : ((s.blk b).kreg n).signed ≠ ((s.blk b).kreg n).set) :
    s.convCheck b n = s :=
  if_neg (by rw [decide_eq_false h, Bool.and_false]; exact Bool.false_ne_true)

section
variable {s : State} {i : Instr} {f : Uses} {n : Nat} {val : QWord} (h : s.Signs i f n val)
include h

/-- A bundle that is not the rest of the set signs, and that is all. -/
theorem State.Signs.exec_of_missing {y : Nat} (hy : y < 1024) (hset : (s.bk.kreg n).set.getLsbD y = true)
    (hsigned : (s.bk.kreg n).signed.getLsbD y = false) (hmem : y ∉ s.sel.thrs) :
    ∃ t, exec i s = .next t ∧ s.SignedBy i f.h n val s.sel.thrs t := by
  have hs := h.signedBy
  refine ⟨_, ?_, hs⟩
  have hne : ∀ u : State, s.SignedBy i f.h n val s.sel.thrs u → u.convCheck s.sel.blk n = u := by
    intro u hu
    refine State.convCheck_of_ne fun heq => ?_
    rw [hu.reg, KReg.signedBy_of_ne_nil _ h.some] at heq
    have hbit : ((s.bk.kreg n).signed ||| setOf s.sel.thrs).getLsbD y = (s.bk.kreg n).set.getLsbD y := by rw [← heq]
    rw [BitVec.getLsbD_or, getLsbD_setOf _ hy, hset, hsigned] at hbit
    simp [hmem] at hbit
  rw [exec_eq_convIssue h.conv, h.convIssue_eq, hne _ hs, finish_of_noHole (hs.hole.trans h.noHole)]

end

section
variable {s t : State} {i : Instr} {h : Hdr} {n : Nat} {val : QWord} (hs : s.SignedBy i h n val s.sel.thrs t)
include hs

theorem State.SignedBy.pc {x : Nat} (hx : x ∈ s.sel.thrs) : (t.bk.thr x).pc = s.sel.next := by
  rw [hs.thr_eq, hs.thr, if_pos hx]

theorem State.SignedBy.kreg (hne : s.sel.thrs ≠ []) : t.bk.kreg n =
    { s.bk.kreg n with
      signed := (s.bk.kreg n).signed ||| setOf s.sel.thrs, opPc := s.sel.pc, opVal := val,
      live := (s.bk.kreg n).live || s.sel.thrs.any fun x => (s.bk.thr x).guard h, op := some i } := by
  rw [hs.bk_eq, hs.reg, KReg.signedBy_of_ne_nil _ hne]

end

/-! ### The operation of a set that is complete (R170) -/

/-- The register when its operation has issued. -/
def KReg.issued (r : KReg) : KReg := { r with signed := 0, opPc := 0, opVal := 0, live := false, op := none }

/-- The entry is that of the operation which the register holds. -/
structure LogEntry.IsOp (e : LogEntry) (r : KReg) (i : Instr) : Prop where
  instr : e.instr = i
  warp : e.warp = r.anchor
  pc : e.pc = r.opPc

/-- The state when the operation of kN has issued, whose pending instruction is `pid`. -/
def State.takeOp (s : State) (b n pid : Nat) : State :=
  let t := (s.updBlk b fun k => k.setKreg n ((s.blk b).kreg n).issued).updPend b pid fun p => { p with k := none }
  { t with nextId := t.nextId + 1 }

/-- With no operation in the log, the operation of kN runs at once. -/
theorem State.convRun_eq {s : State} {b n : Nat} {i : Instr} {p : Pending} (hop : ((s.blk b).kreg n).op = some i)
    (hfind : (s.blk b).pend.find? (fun p => p.k = some n) = some p) (hlive : ((s.blk b).kreg n).live = true)
    (hlog : s.oplog = []) :
    ∃ e : LogEntry, e.IsOp ((s.blk b).kreg n) i ∧ s.convRun b n = (s.takeOp b n p.id).convPerform b p.id
      ((s.blk b).liveThreads.filter fun x => ((s.blk b).kreg n).set.getLsbD x) e := by
  set r := (s.blk b).kreg n with hr
  set t := (s.updBlk b fun k => k.setKreg n r.issued).updPend b p.id fun p => { p with k := none } with ht
  have hfree : ¬ State.convBlocked { t with nextId := t.nextId + 1 } b r.anchor t.nextId = true := by
    have hlog' : t.oplog = [] := by rw [ht, State.updPend, State.updBlk_oplog, State.updBlk_oplog, hlog]
    rw [State.convBlocked, hlog']
    simp
  refine ⟨{ id := t.nextId, blk := b, warp := r.anchor, part := (s.blk b).partOf r.anchor, pc := r.opPc, instr := i,
            w0 := BitVec.ofNat 32 ((encode i).headD 0),
            ops := [{ thr := (((s.blk b).liveThreads.filter fun x => r.set.getLsbD x)).headD 0, ea := r.opVal.setWidth 64,
                      b := r.opVal >>> 64 }], held := true }, ⟨rfl, rfl, rfl⟩, ?_⟩
  unfold State.convRun
  simp only [← hr, hop, hfind]
  rw [if_neg (by simp [hlive])]
  exact if_neg hfree

/-! ### The outcomes of an operation that nothing holds back -/

section
variable {s t : State} {b pid : Nat} {thrs : List Nat} {e : LogEntry} (hlog : s.oplog = [])
  (hahead : ∀ p ∈ (s.blk b).pend, p.k = none ∧ p.log = none)

theorem State.filter_oplog (hlog : s.oplog = []) (F : LogEntry → Bool) : { s with oplog := s.oplog.filter F } = s := by
  have hf : s.oplog.filter F = s.oplog := by rw [hlog]; rfl
  rw [hf]

theorem State.none_overtakes (hahead : ∀ p ∈ (s.blk b).pend, p.k = none ∧ p.log = none) (l rows : List (Nat × Nat)) :
    ¬ (l.any fun x => s.overtakes b x.1 (some x.2) rows) = true := by
  rw [Bool.not_eq_true, List.any_eq_false]
  intro x _
  rw [State.overtakes_of_noneAhead hahead]
  exact Bool.false_ne_true

include hlog hahead

theorem State.convPerform_of_fin
    (hop : s.convOp b e.warp (e.ops.headD { thr := 0 }).thr thrs e.instr (e.ops.headD { thr := 0 }) = (.fin, t)) :
    s.convPerform b pid thrs e = t.dropPend b pid := by
  unfold State.convPerform
  dsimp only
  rw [State.filter_oplog hlog, if_neg (State.none_overtakes hahead _ _), hop]

theorem State.convPerform_of_exc {c : Word} {a : Aux}
    (hop : s.convOp b e.warp (e.ops.headD { thr := 0 }).thr thrs e.instr (e.ops.headD { thr := 0 }) = (.exc c a, t)) :
    s.convPerform b pid thrs e =
      (t.dropPend b pid).raiseAll b (thrs.filter fun x => ((t.blk b).thr x).live) e.pc c a := by
  unfold State.convPerform
  dsimp only
  rw [State.filter_oplog hlog, if_neg (State.none_overtakes hahead _ _), hop]

/-- An operation that leaves flags: what is pending differs, nothing else. -/
theorem State.convPerform_of_pend {r : Result} {fl : Flags}
    (hop : s.convOp b e.warp (e.ops.headD { thr := 0 }).thr thrs e.instr (e.ops.headD { thr := 0 }) =
      (.pend r fl none none, t)) :
    ∃ F : Pending → Pending, s.convPerform b pid thrs e = t.updPend b pid F := by
  unfold State.convPerform
  dsimp only
  rw [State.filter_oplog hlog, if_neg (State.none_overtakes hahead _ _), hop]
  exact ⟨_, rfl⟩

end

/-! ### The operation of a bundle that is its register's whole set -/

/-- The bundle has signed and the operation is about to run: the threads go on, the register keeps its set without a signature,
and nothing pending waits for it. -/
structure State.Issued (s : State) (n : Nat) (t : State) : Prop extends s.Signing t where
  thr : ∀ x, (t.blk s.sel.blk).thr x = if x ∈ s.sel.thrs then { s.bk.thr x with pc := s.sel.next } else s.bk.thr x
  reg : (t.blk s.sel.blk).kreg n = (((t.blk s.sel.blk).kreg n).issued)
  set : ((t.blk s.sel.blk).kreg n).set = (s.bk.kreg n).set
  ahead : ∀ p ∈ (t.blk s.sel.blk).pend, p.k = none ∧ p.log = none

theorem Map.mem_of_get_ne {β : Type} {d : β} {k : Nat} {m : Map β} (h : m.get d k ≠ d) : (k, m.get d k) ∈ m := by
  induction m with
  | nil => exact absurd rfl h
  | cons e m ih =>
    obtain ⟨j, x⟩ := e
    rw [Map.get_cons] at h ⊢
    by_cases hj : j = k
    · simp [hj]
    · rw [if_neg hj] at h ⊢
      exact List.mem_cons_of_mem _ (ih h)

theorem Block.mem_liveThreads_of_live {k : Block} {x : Nat} (h : (k.thr x).live = true) : x ∈ k.liveThreads := by
  have hne : k.threads.get {} x ≠ {} := fun heq => by
    rw [Block.thr, heq] at h
    cases h
  exact List.mem_map.mpr ⟨_, List.mem_filter.mpr ⟨Map.mem_of_get_ne hne, h⟩, rfl⟩

/-- The last of what is pending is the one that waits for kN. -/
theorem PendsFor.find {n bound : Nat} {pc : DWord} {l : List Pending} (h : PendsFor n pc bound l) :
    ∃ p, l.find? (fun p => p.k = some n) = some p ∧
      ∀ q ∈ l, ((if q.id = p.id then { q with k := none } else q : Pending).k = none ∧
        (if q.id = p.id then { q with k := none } else q : Pending).log = none) := by
  obtain ⟨l0, p, rfl, hl, hk, hlog, -, -⟩ := h
  refine ⟨p, ?_, fun q hq => ?_⟩
  · have hnone : l0.find? (fun p => decide (p.k = some n)) = none := by
      rw [List.find?_eq_none]
      intro q hq
      rw [(hl q hq).1]
      simp
    rw [List.find?_append, hnone]
    simp [hk]
  · rcases List.mem_append.mp hq with hq | hq
    · obtain ⟨qk, qlog, qid⟩ := hl q hq
      rw [if_neg qid.ne]
      exact ⟨qk, qlog⟩
    · rw [List.mem_singleton.mp hq, if_pos rfl]
      exact ⟨rfl, hlog⟩

section
variable {s : State} {i : Instr} {f : Uses} {n : Nat} {val : QWord} (h : s.Converges i f n val)
include h

/-- The signatures of the bundle are the whole set. -/
theorem State.Converges.setOf_eq : setOf s.sel.thrs = (s.bk.kreg n).set := by
  refine BitVec.eq_of_getLsbD_eq fun x hx => ?_
  rw [getLsbD_setOf _ hx, Bool.eq_iff_iff, decide_eq_true_iff]
  exact (h.whole x).symm

theorem State.Converges.convCheck_eq {t : State} (hs : s.SignedBy i f.h n val s.sel.thrs t) :
    t.convCheck s.sel.blk n = t.convRun s.sel.blk n := by
  have hne := h.toSigns.signed_ne_zero (fun _ hx => hx) h.some (s.bk.kreg n).signed
  refine if_pos ?_
  rw [hs.reg, KReg.signedBy_of_ne_nil _ h.some]
  rw [Bool.and_eq_true, decide_eq_true_iff, decide_eq_true_iff]
  refine ⟨hne, ?_⟩
  show (s.bk.kreg n).signed ||| setOf s.sel.thrs = (s.bk.kreg n).set
  rw [h.fresh, h.setOf_eq]
  exact BitVec.zero_or

/-- The operation runs on the anchor warp, for the live threads of the set. -/
theorem State.Converges.issues : ∃ t pid thrs e, exec i s = finish (t.convPerform s.sel.blk pid thrs e) ∧ s.Issued n t ∧
    e.instr = i ∧ e.warp = (s.bk.kreg n).anchor ∧ e.pc = s.sel.pc ∧
    ∀ x ∈ s.sel.thrs, (s.bk.thr x).live = true → x ∈ thrs := by
  set u := s.sel.thrs.foldl (fun t x => t.signOne (s.ctxOf false) n i f.h x ((s.bk.thr x).guard f.h)) s with hu
  have hs : s.SignedBy i f.h n val s.sel.thrs u := h.toSigns.signedBy
  have hreg := hs.reg
  rw [KReg.signedBy_of_ne_nil _ h.some] at hreg
  have hlive : ((u.blk s.sel.blk).kreg n).live = true := by
    obtain ⟨x, hx, hg⟩ := h.live
    rw [hreg, Bool.or_eq_true, List.any_eq_true]
    exact .inr ⟨x, hx, hg⟩
  obtain ⟨p, hfind, hclear⟩ := ((hs.pend h.noneAhead h.ids h.fresh).2 h.some).find
  obtain ⟨e, ⟨hinstr, hwarp, hpc⟩, hrun⟩ := State.convRun_eq (i := i) (by rw [hreg]) hfind hlive (hs.oplog.trans h.noLog)
  rw [hreg] at hwarp hpc
  have h1 : s.Signing (u.updBlk s.sel.blk fun k => k.setKreg n ((u.blk s.sel.blk).kreg n).issued) :=
    hs.toSigning.updBlk _ fun _ => rfl
  have h2 : s.Signing (u.takeOp s.sel.blk n p.id) := (h1.updBlk _ fun _ => rfl).newId
  have hblk : (u.takeOp s.sel.blk n p.id).blk s.sel.blk =
      { (u.blk s.sel.blk).setKreg n ((u.blk s.sel.blk).kreg n).issued with
        pend := (u.blk s.sel.blk).pend.map fun q => if q.id = p.id then { q with k := none } else q } := by
    refine (State.blk_updBlk_self _ _ _ h1.hasBlk).trans ?_
    rw [State.blk_updBlk_self _ _ _ hs.hasBlk]
    rfl
  have hk : ((u.takeOp s.sel.blk n p.id).blk s.sel.blk).kreg n = ((u.blk s.sel.blk).kreg n).issued := by
    rw [hblk]
    exact Map.get_set_self _ _ _ _
  refine ⟨_, p.id, (u.blk s.sel.blk).liveThreads.filter fun x => ((u.blk s.sel.blk).kreg n).set.getLsbD x, e, ?_,
    ⟨h2, fun x => ?_, ?_, ?_, ?_⟩, hinstr, hwarp, hpc, ?_⟩
  · rw [exec_eq_convIssue h.conv, h.toSigns.convIssue_eq, h.convCheck_eq hs, hrun]
  · rw [hblk]
    exact hs.thr x
  · rw [hk]
    rfl
  · rw [hk, hreg]
    rfl
  · rw [hblk]
    intro q hq
    obtain ⟨q0, hq0, rfl⟩ := List.mem_map.mp hq
    exact hclear q0 hq0
  · intro x hx hl
    rw [List.mem_filter, hreg]
    refine ⟨Block.mem_liveThreads_of_live ?_, h.inSet x hx⟩
    rw [hs.thr x, if_pos hx]
    exact hl

end

/-! ### MMA and MCLR on the accumulator (R183, R186) -/

/-- After the operation the block has `a` in the accumulator of `key`; what is pending may differ too. -/
structure State.AccWritten (s : State) (key : Nat) (a : Acc) (t : State) : Prop where
  mem : t.mem = s.mem
  sel : t.sel = s.sel
  hole : t.hole = s.hole
  blk : t.blk s.sel.blk = { s.blk s.sel.blk with accs := (s.blk s.sel.blk).accs.set {} key a, pend := (t.blk s.sel.blk).pend }

section
variable {s u t : State} {n key : Nat} {a : Acc} (hi : s.Issued n u) (hw : u.AccWritten key a t)
include hi hw

theorem State.Issued.bk_accWritten : t.bk =
    { u.blk s.sel.blk with accs := s.bk.accs.set {} key a, pend := (t.blk s.sel.blk).pend } := by
  have hb := hw.blk
  rw [hi.sel] at hb
  rw [State.bk, hw.sel, hi.sel, hb, ← hi.accs, hi.bk_eq]

theorem State.Issued.acc_self : t.bk.accs.get {} key = a := by
  rw [hi.bk_accWritten hw]
  exact Map.get_set_self _ _ _ _

theorem State.Issued.acc_ne {q : Nat} (hq : q ≠ key) : t.bk.accs.get {} q = s.bk.accs.get {} q := by
  rw [hi.bk_accWritten hw]
  exact Map.get_set_ne _ _ _ hq

theorem State.Issued.kreg : (t.bk.kreg n).signed = 0 ∧ (t.bk.kreg n).set = (s.bk.kreg n).set := by
  have hk : t.bk.kreg n = (u.blk s.sel.blk).kreg n := by rw [hi.bk_accWritten hw]; rfl
  rw [hk]
  exact ⟨by rw [hi.reg]; rfl, hi.set⟩

theorem State.Issued.pc {x : Nat} (hx : x ∈ s.sel.thrs) : (t.bk.thr x).pc = s.sel.next := by
  have hthr : t.bk.thr x = (u.blk s.sel.blk).thr x := by rw [hi.bk_accWritten hw]; rfl
  rw [hthr, hi.thr, if_pos hx]

theorem State.Issued.tiles_eq : t.bk.tiles = s.bk.tiles := by
  rw [hi.bk_accWritten hw, ← hi.tiles, hi.bk_eq]

end

/-- Signing leaves what MMA reads. -/
theorem Block.mma_signing (k : Block) (th : Map Thread) (p : List Pending) (m : Map KReg) (wp a b : Nat) (acc : Acc) :
    ({ k with threads := th, pend := p, kregs := m } : Block).mma wp a b acc = k.mma wp a b acc := rfl

section
variable {s u : State} {n : Nat} (hi : s.Issued n u)
include hi

/-- The block as the operation finds it answers as before about its warps, tiles and accumulators. -/
theorem State.Issued.blk_reads (wp : Nat) : (u.blk s.sel.blk).partOf wp = s.bk.partOf wp ∧
    (u.blk s.sel.blk).warp wp = s.bk.warp wp ∧ (u.blk s.sel.blk).accs = s.bk.accs ∧
    (∀ m, (u.blk s.sel.blk).tcValid wp m = s.bk.tcValid wp m) ∧ (∀ m, (u.blk s.sel.blk).tcf wp m = s.bk.tcf wp m) ∧
    ∀ a b acc, (u.blk s.sel.blk).mma wp a b acc = s.bk.mma wp a b acc := by
  rw [hi.bk]
  exact ⟨rfl, rfl, rfl, fun _ => rfl, fun _ => rfl, fun a b acc => Block.mma_signing _ _ _ _ _ _ _ _⟩

theorem State.Issued.convOp_mclr (wp lead : Nat) (thrs : List Nat) (h : Hdr) (c m : Nat) (o : MemOp) :
    u.convOp s.sel.blk wp lead thrs (.mclr h c m) o =
      (.fin, u.updBlk s.sel.blk fun k => k.setAcc (s.bk.partOf wp) (s.bk.warp wp).role c {}) := by
  obtain ⟨hpart, hwarp, -⟩ := hi.blk_reads wp
  rw [← hpart, ← hwarp]
  rfl

theorem State.Issued.convOp_mma (wp lead : Nat) (thrs : List Nat) (h : Hdr) (c a b m : Nat) (o : MemOp)
    (ha : s.bk.tcValid wp a = true) (hb : s.bk.tcValid wp b = true) (hcols : (s.bk.tcf wp a).cols = (s.bk.tcf wp b).cols) :
    ∃ fl t, u.convOp s.sel.blk wp lead thrs (.mma h c a b m) o = (.pend .nothing fl none none, t) ∧
      ∃ fns, t = { u.updBlk s.sel.blk fun k => k.setAcc (s.bk.partOf wp) (s.bk.warp wp).role c
        (s.bk.mma wp a b (s.bk.accs.get {} (accKey (s.bk.partOf wp) (s.bk.warp wp).role c))).1 with fns := fns } := by
  obtain ⟨hpart, hwarp, haccs, hvalid, htcf, hmma⟩ := hi.blk_reads wp
  have hok : ¬ (!(u.blk s.sel.blk).tcValid wp a || !(u.blk s.sel.blk).tcValid wp b ||
      decide (((u.blk s.sel.blk).tcf wp a).cols ≠ ((u.blk s.sel.blk).tcf wp b).cols)) = true := by
    rw [hvalid, hvalid, htcf, htcf, ha, hb, hcols]
    simp
  refine ⟨_, _, if_neg hok, ?_⟩
  rw [hpart, hwarp, hmma, Block.acc, haccs]
  exact State.pmEvent_eq _ _ _ _

theorem State.Issued.convOp_mma_mismatch (wp lead : Nat) (thrs : List Nat) (h : Hdr) (c a b m : Nat) (o : MemOp)
    (hcols : (s.bk.tcf wp a).cols ≠ (s.bk.tcf wp b).cols) :
    u.convOp s.sel.blk wp lead thrs (.mma h c a b m) o = (convIll (.mma h c a b m), u) := by
  obtain ⟨-, -, -, -, htcf, -⟩ := hi.blk_reads wp
  have hbad : (!(u.blk s.sel.blk).tcValid wp a || !(u.blk s.sel.blk).tcValid wp b ||
      decide (((u.blk s.sel.blk).tcf wp a).cols ≠ ((u.blk s.sel.blk).tcf wp b).cols)) = true := by
    rw [htcf, htcf, decide_eq_true hcols, Bool.or_true]
  exact if_pos hbad

/-- A written accumulator, once counters and what is pending have changed too. -/
theorem State.Issued.accWritten_updBlk {v : State} {fns : Map Fn} (F : Block → Block) (part role c : Nat) (a : Acc)
    (hF : ∀ k, F k = { k with pend := (F k).pend })
    (hv : v = { u.updBlk s.sel.blk fun k => k.setAcc part role c a with fns := fns }) :
    u.AccWritten (accKey part role c) a (v.updBlk s.sel.blk F) := by
  have hb : (u.updBlk s.sel.blk fun k => k.setAcc part role c a).hasBlk s.sel.blk := (State.hasBlk_updBlk _ _ _ _).mpr hi.hasBlk
  have hvb : v.hasBlk s.sel.blk := by rw [hv]; exact hb
  have hblk : v.blk s.sel.blk = (u.blk s.sel.blk).setAcc part role c a := by
    rw [hv]
    exact State.blk_updBlk_self _ _ _ hi.hasBlk
  refine ⟨by simp [hv], by simp [hv], by simp [hv], ?_⟩
  rw [hi.sel, State.blk_updBlk_self _ _ _ hvb, hF, hblk]
  rfl

end

section
variable {s : State} {h : Hdr} {c a b n : Nat} {f : Uses} {val : QWord}

theorem State.Converges.exec_mclr (hc : s.Converges (.mclr h c n) f n val) :
    ∃ u t, exec (.mclr h c n) s = .next t ∧ s.Issued n u ∧
    u.AccWritten (accKey (s.bk.partOf (s.bk.kreg n).anchor) (s.bk.warp (s.bk.kreg n).anchor).role c) {} t := by
  obtain ⟨u, pid, thrs, e, hexec, hi, hinstr, hwarp, -, -⟩ := hc.issues
  set v := u.updBlk s.sel.blk fun k => k.setAcc (s.bk.partOf e.warp) (s.bk.warp e.warp).role c {} with hv
  have hw := hi.accWritten_updBlk (v := v) (fns := v.fns) (fun k => { k with pend := k.pend.filter fun p => p.id ≠ pid })
    (s.bk.partOf e.warp) (s.bk.warp e.warp).role c {} (fun _ => rfl) rfl
  have hrun := State.convPerform_of_fin (pid := pid) (hi.oplog.trans hc.noLog) hi.ahead
    (by rw [hinstr]; exact hi.convOp_mclr _ _ thrs h c n _)
  rw [hwarp] at hw
  refine ⟨u, _, ?_, hi, hw⟩
  rw [hexec, hrun]
  exact finish_of_noHole (hw.hole.trans (hi.hole.trans hc.noHole))

theorem State.Converges.exec_mma (hc : s.Converges (.mma h c a b n) f n val)
    (ha : s.bk.tcValid (s.bk.kreg n).anchor a = true) (hb : s.bk.tcValid (s.bk.kreg n).anchor b = true)
    (hcols : (s.bk.tcf (s.bk.kreg n).anchor a).cols = (s.bk.tcf (s.bk.kreg n).anchor b).cols) :
    let wp := (s.bk.kreg n).anchor
    let key := accKey (s.bk.partOf wp) (s.bk.warp wp).role c
    ∃ u t, exec (.mma h c a b n) s = .next t ∧ s.Issued n u ∧
      u.AccWritten key (s.bk.mma wp a b (s.bk.accs.get {} key)).1 t := by
  intro wp key
  obtain ⟨u, pid, thrs, e, hexec, hi, hinstr, hwarp, -, -⟩ := hc.issues
  obtain ⟨fl, v, hop, fns, hv⟩ := hi.convOp_mma wp (e.ops.headD { thr := 0 }).thr thrs h c a b n (e.ops.headD { thr := 0 })
    ha hb hcols
  obtain ⟨F, hrun⟩ := State.convPerform_of_pend (pid := pid) (e := e) (hi.oplog.trans hc.noLog) hi.ahead
    (by rw [hinstr, hwarp]; exact hop)
  have hw := hi.accWritten_updBlk (fun k => { k with pend := k.pend.map fun p => if p.id = pid then F p else p })
    (s.bk.partOf wp) (s.bk.warp wp).role c (s.bk.mma wp a b (s.bk.accs.get {} key)).1 (fun _ => rfl) hv
  refine ⟨u, _, ?_, hi, hw⟩
  rw [hexec, hrun]
  exact finish_of_noHole (hw.hole.trans (hi.hole.trans hc.noHole))

/-- Tiles whose column counts differ: the operation raises ILL and leaves the accumulators. -/
theorem State.Converges.exec_mma_mismatch (hc : s.Converges (.mma h c a b n) f n val)
    (hcols : (s.bk.tcf (s.bk.kreg n).anchor a).cols ≠ (s.bk.tcf (s.bk.kreg n).anchor b).cols)
    (hlive : ∀ x ∈ s.sel.thrs, (s.bk.thr x).live = true) :
    ∃ t, exec (.mma h c a b n) s = .next t ∧ t.bk.accs = s.bk.accs ∧
      ∀ x ∈ s.sel.thrs, s.CanRaise x → ∃ e, (t.bk.thr x).raised = some e ∧ e.code = cILL := by
  obtain ⟨u, pid, thrs, e, hexec, hi, hinstr, hwarp, -, hthrs⟩ := hc.issues
  have hrun := State.convPerform_of_exc (pid := pid) (e := e) (hi.oplog.trans hc.noLog) hi.ahead
    (by rw [hinstr, hwarp]; exact hi.convOp_mma_mismatch _ _ thrs h c a b n _ hcols)
  set v := u.dropPend s.sel.blk pid with hv
  have hs : s.Signing v := hi.toSigning.updBlk _ fun _ => rfl
  have hthr : ∀ x, (v.blk s.sel.blk).thr x = (u.blk s.sel.blk).thr x := fun x => by
    rw [hv, State.dropPend, State.blk_updBlk_self _ _ _ hi.hasBlk]
    rfl
  set ts := thrs.filter fun x => ((u.blk s.sel.blk).thr x).live with hts
  generalize (Aux.all (BitVec.ofNat 64 ((encode (.mma h c a b n)).headD 0 + 0xB * 2 ^ 32))) = aux at hrun
  have hm := v.threadsMoved_raiseAll s.sel.blk ts e.pc cILL aux
  have hbk : (v.raiseAll s.sel.blk ts e.pc cILL aux).bk = (v.raiseAll s.sel.blk ts e.pc cILL aux).blk s.sel.blk := by
    rw [State.bk, hm.sel, hs.sel]
  refine ⟨v.raiseAll s.sel.blk ts e.pc cILL aux, ?_, ?_, fun x hx hcan => ?_⟩
  · rw [hexec, hrun]
    exact finish_of_noHole (hm.hole.trans (hs.hole.trans hc.noHole))
  · rw [hbk, hm.blk hs.hasBlk, ← hs.accs, hs.bk_eq]
  · obtain ⟨hagent, -, hraised⟩ := hcan
    have hgo : (u.blk s.sel.blk).thr x = { s.bk.thr x with pc := s.sel.next } := by rw [hi.thr, if_pos hx]
    have hmem : x ∈ ts := by
      rw [hts, List.mem_filter, hgo]
      exact ⟨hthrs x hx (hlive x hx), hlive x hx⟩
    rw [hbk]
    refine State.raised_raiseAll_code v ts e.pc cILL aux hs.hasBlk hmem ⟨?_, ?_, ?_⟩
    · rw [hs.bk]
      exact hagent
    · rw [hthr, hgo]
      exact hlive x hx
    · rw [hthr, hgo]
      exact hraised

end

/-- Settles O28: a bundle that leaves the set incomplete only signs; one that is the whole set signs and its operation runs at once
on the anchor warp's accumulator. -/
theorem matrixRules : Obligations.MatrixRules := by
  unfold Obligations.MatrixRules
  refine ⟨fun s i f n val h => ?_, fun s => ⟨fun h c n f val hc => ?_, fun h c a b n f val hc ha hb hcols => ?_,
    fun h c a b n f val hc => hc.exec_mma_mismatch⟩⟩
  · rintro ⟨y, hy, hset, hsigned, hmem⟩
    obtain ⟨t, hexec, hs⟩ := h.exec_of_missing hy hset hsigned hmem
    have hk := hs.kreg h.some
    refine ⟨t, hexec, fun x hx => ?_, by rw [hk], by rw [hk], by rw [hk], fun x hx => hs.pc hx, hs.mem,
      hs.accs, hs.tiles, hs.vregs⟩
    rw [hk, BitVec.getLsbD_or, getLsbD_setOf _ hx]
  · obtain ⟨u, t, hexec, hi, hw⟩ := hc.exec_mclr
    obtain ⟨hsigned, hset⟩ := hi.kreg hw
    exact ⟨t, hexec, hi.acc_self hw, fun q hq => hi.acc_ne hw hq, hsigned, hset, fun x hx => hi.pc hw hx, hw.mem.trans hi.mem⟩
  · obtain ⟨u, t, hexec, hi, hw⟩ := hc.exec_mma ha hb hcols
    obtain ⟨hsigned, -⟩ := hi.kreg hw
    exact ⟨t, hexec, hi.acc_self hw, fun q hq => hi.acc_ne hw hq, hsigned, fun x hx => hi.pc hw hx, hi.tiles_eq hw,
      hw.mem.trans hi.mem⟩

end Sys2Proof.Machine
end

section
/-! PROOFS. TST: a row's store may publish an older store that a later row replaces (spec/08 R178; spec/10 R201). -/
namespace Sys2Proof.Machine

/-! ### The state that refutes the statement

The two rows of the tile go to the two words of one aligned 8-byte unit. The core owns the first word alone, and its L1 holds a
store to the second word that no registration awaits. The first row's word is owned, so its store publishes the unit, the older store
with it; the second row's word is not, so its store awaits registration. Memory then holds the older store: neither what it held
before nor what the block sees. -/

/-- A page of 64 KiB of function 1 at 0x10000, at physical 0x40000. -/
def tornPage : Xlat :=
  { fn := 1, va := 0x10000, bits := 16, pa := 0x40000, w := true, x := true, decaf := false, ext := false }

/-- Thread 0 is the set of k0; t0 has two rows of one 16-bit element, the second of value 2; s2:s3 is the address 0x1FF00 and s5 the
stride 4. -/
def tornBlock : Block :=
  { fn := 1, status := .running, parts := [0], nwarps := 1,
    threads := [(0, { live := true, pc := 0x10000, lastPage := some tornPage })],
    warps := [(0, { regs := 256, tiles := 16, acc := 2 })], sregs := [(2, 0x1FF00), (5, 4)], tcs := [(0, 0x418102)],
    tiles := [(64, 2)], kregs := [(0, { kind := 2, set := 1 })] }

/-- The core's copy of line 0x9FE holds a store of 1 to byte 4. -/
def tornLine : L1Line := { data := (List.replicate 128 0).set 4 1, valid := 0x10, dirty := 0x10, home := 3 }

/-- Core 0 has that copy, and owns the word at 0x4FF00. -/
def tornState : State :=
  { State.reset with blocks := [(7, some tornBlock)], sel := { blk := 7, pc := 0x10000, thrs := [0], words := 3 },
                     cores := [(0, { l1 := [(0x9FE, some tornLine)] })], owners := [(ownKey 0 0x13FC0, some 0)] }

/-- TST of t0 at s2:s3 with stride s5, of the set of k0. -/
def tornTst : Instr := .tst ⟨7, false, false, 0⟩ 0 (.s 2) (.s 5) 0 0
/-- The operands that the thread signs: stride 4 and address 0x1FF00. -/
def tornVal : QWord := 0x4_00000000_0001FF00

theorem converges_tornTst : ∃ f, tornState.Converges tornTst f 0 tornVal := by
  obtain ⟨f, hf⟩ : ∃ f, uses tornTst = some f := ⟨_, rfl⟩
  have hset : ∀ x, (tornState.bk.kreg 0).set.getLsbD x = true ↔ x ∈ tornState.sel.thrs := fun x => by
    show (1#1024).getLsbD x = true ↔ x ∈ [0]
    simp [BitVec.getLsbD_one, eq_comm]
  have h0 : ∀ {P : Nat → Prop}, P 0 → ∀ x ∈ tornState.sel.thrs, P x := fun hP x hx => by
    obtain rfl : x = 0 := by simpa [tornState] using hx
    exact hP
  refine ⟨f, {
    wf := by decide +kernel
    row := hf
    conv := rfl
    noHole := rfl
    hasBlk := rfl
    distinct := by decide
    some := by decide
    small := h0 (by decide)
    declared := by decide +kernel
    inSet := fun x hx => (hset x).mpr hx
    unsigned := h0 (by decide +kernel)
    same := h0 (by decide +kernel)
    agree := .inl (by decide +kernel)
    named := by decide +kernel
    noHazard := fun _ _ _ => rfl
    uncontained := rfl
    noBuf := ⟨rfl, rfl⟩
    untraced := rfl
    unmapped := rfl
    unpoisoned := rfl
    noRed := rfl
    unwatched := rfl
    unroasted := ⟨rfl, rfl⟩
    room := by decide +kernel
    noneAhead := fun p hp => absurd hp List.not_mem_nil
    whole := hset
    fresh := by decide +kernel
    live := ⟨0, by decide, by obtain rfl := Option.some.inj hf; decide +kernel⟩
    alive := by decide +kernel
    ids := fun p hp => absurd hp List.not_mem_nil
    noLog := rfl }⟩

/-- The thread reaches both rows through its page. -/
theorem reaches_tornRow {ea : DWord} {pa : Nat}
    (h : (ea = 0x1FF00 ∧ pa = 0x4FF00) ∨ (ea = 0x1FF04 ∧ pa = 0x4FF04)) : tornState.Reaches 0 ea 2 2 .write pa := by
  have hpage : (tornState.bk.thr 0).lastPage = some tornPage := rfl
  have hline : tornState.l1At tornState.bk.core 0x9FE = some tornLine := rfl
  have hmis : tornState.misCached tornState.bk.core false 0x9FE = false := by decide +kernel
  have hl : ∀ l, pa / 128 ≤ l → l ≤ (pa + 2 - 1) / 128 → l = 0x9FE := by omega
  refine {
    space := by obtain ⟨rfl, -⟩ | ⟨rfl, -⟩ := h <;> decide +kernel
    aligned := by obtain ⟨rfl, -⟩ | ⟨rfl, -⟩ := h <;> decide
    page := ⟨tornPage, hpage, ?_⟩
    device := by obtain ⟨-, rfl⟩ | ⟨-, rfl⟩ := h <;> decide
    own := by decide
    tracked := fun l h1 h2 => by rw [hl l h1 h2]; exact hmis
    whole := fun l x h1 h2 hx => by
      rw [hl l h1 h2, hline] at hx
      rw [← Option.some.inj hx]; rfl }
  obtain ⟨rfl, rfl⟩ | ⟨rfl, rfl⟩ := h <;> decide +kernel

/-- Memory at 0x4FF04 holds the older store when the TST has run; the block sees the second row there, and memory held 0. -/
theorem exec_tornTst {t : State} (h : exec tornTst tornState = .next t) :
    t.byte 0x4FF04 = 1 ∧ t.seen 7 0x4FF04 = 2 ∧ tornState.byte 0x4FF04 = 0 := by
  have hrun : (match exec tornTst tornState with
      | .next u => decide (u.byte 0x4FF04 = 1 ∧ u.seen 7 0x4FF04 = 2 ∧ tornState.byte 0x4FF04 = 0)
      | _ => false) = true := by decide +kernel
  rw [h] at hrun
  exact of_decide_eq_true hrun

/-- Refutes O29: after a TST memory may hold a byte that is neither what it held nor what the block sees. In `tornState` the store of
the first row publishes an older store of the core to a byte of the second row, whose own store awaits registration (spec/10 R201).
The hypotheses do not exclude a core's copy with a store whose word the core neither owns nor registers. -/
theorem not_tileMemoryRules : ¬ Obligations.TileMemoryRules := by
  unfold Obligations.TileMemoryRules
  rintro ⟨hmem, -⟩
  obtain ⟨f, hc⟩ := converges_tornTst
  have hrows : (tornState.bk.tcf (tornState.bk.kreg 0).anchor 0).rows = 2 := by decide +kernel
  have hcols : (tornState.bk.tcf (tornState.bk.kreg 0).anchor 0).cols = 1 := by decide +kernel
  have hcw : (tornState.bk.tcf (tornState.bk.kreg 0).anchor 0).cw = 16 := by decide +kernel
  obtain ⟨t, ht, -, -, hbyte, -⟩ := (hmem tornState).2 _ _ _ _ _ _ f tornVal (fun r => 0x4FF00 + 4 * r) hc (by decide +kernel)
    (by
      rw [hrows, hcols, hcw]
      intro r hr
      obtain rfl | rfl : r = 0 ∨ r = 1 := by omega
      · exact ⟨reaches_tornRow (.inl ⟨by decide +kernel, rfl⟩), by decide, by decide +kernel⟩
      · exact ⟨reaches_tornRow (.inr ⟨by decide +kernel, rfl⟩), by decide, by decide +kernel⟩)
    (by
      rw [hrows, hcols, hcw]
      intro r _ q _ hne
      omega)
  obtain ⟨h1, h2, h3⟩ := exec_tornTst ht
  have h := hbyte 0x4FF04
  rw [h1, h3, show t.seen tornState.sel.blk 0x4FF04 = 2 from h2] at h
  exact absurd h (by decide)

end Sys2Proof.Machine
end

section
/-! PROOFS. Canonical memory is kept (spec/10 R190): the predicate, and the rules for what functions are made of. -/
namespace Sys2Proof.Machine

/-- Memory is in its canonical form. -/
def State.Canon (s : State) : Prop := Map.wf memDefault s.mem = true
/-- The state that an outcome goes on to, if it goes on, has canonical memory. -/
def NextCanon (o : Host.Outcome State Fault Refusal) : Prop := ∀ t, o = .next t → t.Canon
/-- The state that a computation answers, when it succeeds, has canonical memory. -/
def OkCanon {ε : Type} (r : Except ε State) : Prop := ∀ t, r = .ok t → t.Canon

variable {s t : State}

/-- A function that leaves memory alone keeps it canonical. -/
theorem State.Canon.of_mem (h : s.Canon) (e : t.mem = s.mem) : t.Canon := by
  unfold State.Canon
  rw [e]
  exact h

theorem State.Canon.setMem (_ : s.Canon) {m : List Host.Cell} (hm : Map.wf memDefault m = true) :
    State.Canon { s with mem := m } := hm

/-- The state of a pair that was taken apart. -/
theorem State.Canon.of_eq {α : Type} {p : α × State} {a : α} (e : p = (a, t)) (h : p.2.Canon) : t.Canon := by
  rw [e] at h
  exact h

theorem State.Canon.pair {α : Type} {a : α} (h : s.Canon) : (a, s).2.Canon := h

theorem State.Canon.ite {c : Prop} [Decidable c] (h : s.Canon) (h' : t.Canon) : (if c then s else t).Canon := by
  split
  · exact h
  · exact h'

theorem State.Canon.itePair {α : Type} {c : Prop} [Decidable c] {p q : α × State} (h : p.2.Canon) (h' : q.2.Canon) :
    (if c then p else q).2.Canon := by
  split
  · exact h
  · exact h'

theorem State.Canon.foldl {α : Type} {f : State → α → State} {l : List α} (h : s.Canon)
    (hf : ∀ s a, s.Canon → (f s a).Canon) : (l.foldl f s).Canon :=
  List.foldlRecOn (motive := State.Canon) l f h fun s hs a _ => hf s a hs

theorem State.Canon.foldlPair {α β : Type} {f : β × State → α → β × State} {l : List α} {b : β} (h : s.Canon)
    (hf : ∀ x a, x.2.Canon → (f x a).2.Canon) : (l.foldl f (b, s)).2.Canon :=
  List.foldlRecOn (motive := fun x : β × State => x.2.Canon) l f h fun x hx a _ => hf x a hx

theorem NextCanon.ite {c : Prop} [Decidable c] {o o' : Host.Outcome State Fault Refusal} (h : NextCanon o)
    (h' : NextCanon o') : NextCanon (if c then o else o') := by
  split
  · exact h
  · exact h'

protected theorem NextCanon.finish (h : s.Canon) : NextCanon (finish s) := by
  unfold Machine.finish
  rintro t e
  split at e
  · cases e
  · cases e
    exact h

theorem OkCanon.ite {ε : Type} {c : Prop} [Decidable c] {r r' : Except ε State} (h : OkCanon r) (h' : OkCanon r') :
    OkCanon (if c then r else r') := by
  split
  · exact h
  · exact h'

theorem OkCanon.ok {ε : Type} (h : s.Canon) : OkCanon (.ok s : Except ε State) := by
  rintro t e
  cases e
  exact h

theorem OkCanon.error {ε : Type} {e : ε} : OkCanon (.error e) := nofun

end Sys2Proof.Machine
end

section
/-! PROOFS. Canonical memory is kept (spec/10 R190): a block's state, memory and its caches (spec/10). -/
namespace Sys2Proof.Machine

variable {s : State}

theorem State.Canon.updBlk {b : Nat} {f : Block → Block} (h : s.Canon) : (s.updBlk b f).Canon :=
  h.of_mem (s.updBlk_mem b f)

theorem State.Canon.updThr {b t : Nat} {f : Thread → Thread} (h : s.Canon) : (s.updThr b t f).Canon := h.updBlk

theorem State.Canon.updWarp {b w : Nat} {f : Warp → Warp} (h : s.Canon) : (s.updWarp b w f).Canon := h.updBlk

theorem State.Canon.updThrs {b : Nat} {ts : List Nat} {f : Thread → Thread} (h : s.Canon) :
    (s.updThrs b ts f).Canon := h.foldl fun _ _ hs => hs.updThr

theorem State.Canon.updFn {n : Nat} {f : Fn → Fn} (h : s.Canon) : (s.updFn n f).Canon := h.of_mem rfl

theorem State.Canon.updCore {c : Nat} {f : CoreSt → CoreSt} (h : s.Canon) : (s.updCore c f).Canon := h.of_mem rfl

theorem State.Canon.updRegion {r : Nat} {f : Region → Region} (h : s.Canon) : (s.updRegion r f).Canon := h.of_mem rfl

theorem State.Canon.updDie {d : Nat} {f : Die → Die} (h : s.Canon) : (s.updDie d f).Canon := h.of_mem rfl

theorem State.Canon.freeWord (h : s.Canon) : s.freeWord.2.Canon := h.of_mem rfl

theorem State.Canon.freeNat (h : s.Canon) : s.freeNat.2.Canon := h.of_mem rfl

theorem State.Canon.freeBool (h : s.Canon) : s.freeBool.2.Canon := h.of_mem rfl

theorem State.Canon.freeBytes {n : Nat} (h : s.Canon) : (s.freeBytes n).2.Canon := h.of_mem rfl

theorem State.Canon.newId (h : s.Canon) : s.newId.2.Canon := h.of_mem rfl

theorem State.Canon.unpoison {pa n : Nat} (h : s.Canon) : (s.unpoison pa n).Canon := h.of_mem (s.unpoison_mem pa n)

theorem State.Canon.writePA {pa : Nat} {bs : List Byte} (h : s.Canon) : (s.writePA pa bs).Canon := by
  unfold State.writePA
  split
  · exact .unpoison (h.setMem (Map.wf_setList _ _ _ _ h))
  · exact h.of_mem rfl

theorem State.Canon.markByte {pa : Nat} (h : s.Canon) : (s.markByte pa).Canon := by
  unfold State.markByte
  refine h.foldl fun s n hs => ?_
  dsimp only
  split
  · exact hs.setMem (Map.wf_set _ _ _ _ hs)
  · exact hs

theorem State.Canon.mark {pa n : Nat} (h : s.Canon) : (s.mark pa n).Canon :=
  .ite h (h.foldl fun _ _ hs => hs.markByte)

theorem State.Canon.fillTag {n line : Nat} (h : s.Canon) : (s.fillTag n line).Canon := by
  unfold State.fillTag
  split
  · exact h
  · exact .of_mem h rfl

theorem State.Canon.tagBack {line : Nat} (h : s.Canon) : (s.tagBack line).Canon := by
  unfold State.tagBack
  split
  · exact h.writePA
  · exact h

theorem State.Canon.llcEvict {line : Nat} (h : s.Canon) : (s.llcEvict line).Canon :=
  .ite h (.of_mem (.ite h.tagBack h) rfl)

theorem State.Canon.llcRoom {line : Nat} (h : s.Canon) : (s.llcRoom line).Canon := .ite h h.freeNat.llcEvict

theorem State.Canon.llcFill {line : Nat} (h : s.Canon) : (s.llcFill line).Canon := by
  unfold State.llcFill
  split
  · exact h
  · dsimp only
    split
    · exact .fillTag (.ite (.of_mem h.llcRoom rfl) (.of_mem h.llcRoom rfl))
    · exact .of_mem h.llcRoom rfl

theorem State.Canon.llcTake {line : Nat} (h : s.Canon) : (s.llcTake line).Canon := .of_mem (.ite h h.llcRoom) rfl

theorem State.Canon.llcDirty {line : Nat} (h : s.Canon) : (s.llcDirty line).Canon := .of_mem h rfl

theorem State.Canon.touch {pa n : Nat} (h : s.Canon) : (s.touch pa n).Canon :=
  .ite (.of_mem h rfl) (.ite h (h.foldl fun _ _ hs => hs.llcFill))

theorem State.Canon.setTag {key : Nat} {v : Byte} (h : s.Canon) : (s.setTag key v).Canon := h.of_mem rfl

theorem State.Canon.disown {pa n : Nat} (h : s.Canon) : (s.disown pa n).Canon := .ite h (.of_mem h rfl)

theorem State.Canon.writeHome {pa : Nat} {bs : List Byte} (h : s.Canon) : (s.writeHome pa bs).Canon :=
  .ite h ((h.touch.disown.writePA.foldl fun _ _ hs => hs.llcDirty).mark)

theorem State.Canon.setDecaf {die line : Nat} {x : Option Decaf} (h : s.Canon) : (s.setDecaf die line x).Canon :=
  .of_mem h rfl

theorem State.Canon.fillDecaf {die line : Nat} (h : s.Canon) : (s.fillDecaf die line).Canon := by
  unfold State.fillDecaf
  split
  · exact h
  · exact h.setDecaf

theorem State.Canon.putDecaf {die pa : Nat} {x : Byte} {dirty : Bool} (h : s.Canon) :
    (s.putDecaf die pa x dirty).Canon := by
  unfold State.putDecaf
  split
  · exact h
  · exact h.setDecaf

theorem State.Canon.cleanDecaf {die line : Nat} (h : s.Canon) : (s.cleanDecaf die line).Canon := by
  unfold State.cleanDecaf
  split
  · exact h
  · exact .ite h ((h.foldl fun _ _ hs => .ite hs.writeHome hs).setDecaf)

theorem State.Canon.dieWrite {decaf : Bool} {die pa : Nat} {x : Byte} (h : s.Canon) :
    (s.dieWrite decaf die pa x).Canon := .ite h.fillDecaf.putDecaf h.writePA

theorem State.Canon.setL1 {core line : Nat} {x : Option L1Line} (h : s.Canon) : (s.setL1 core line x).Canon :=
  h.updCore

theorem State.Canon.publishMask {core line : Nat} {m : BitVec 128} (h : s.Canon) :
    (s.publishMask core line m).Canon := by
  unfold State.publishMask
  split
  · exact h
  · exact .ite h (.setL1 (.ite (.of_mem (h.foldl fun _ _ hs => .ite hs.dieWrite hs) rfl) (h.foldl fun _ _ hs => .ite
      hs.dieWrite hs)))

theorem State.Canon.publishUnit {core pa : Nat} (h : s.Canon) : (s.publishUnit core pa).Canon := h.publishMask

theorem State.Canon.publishLine {core line : Nat} (h : s.Canon) : (s.publishLine core line).Canon := h.publishMask

theorem State.Canon.dropMask {core line : Nat} {m : BitVec 128} (h : s.Canon) : (s.dropMask core line m).Canon := by
  unfold State.dropMask
  split
  · exact h
  · exact h.setL1

theorem State.Canon.dropClean {core line : Nat} (h : s.Canon) : (s.dropClean core line).Canon := by
  unfold State.dropClean
  split
  · exact h
  · exact h.dropMask

theorem State.Canon.acquire {core : Nat} (h : s.Canon) : (s.acquire core).Canon := by
  unfold State.acquire
  refine h.foldl fun _ _ hs => ?_
  split
  · exact hs
  · exact hs.dropMask

theorem State.Canon.settleOwn {core pa n : Nat} (h : s.Canon) : (s.settleOwn core pa n).Canon :=
  (h.foldl fun _ _ hs => hs.publishMask.dropMask).disown

theorem State.Canon.atSlice {core : Nat} {decaf : Bool} {pa n : Nat} (h : s.Canon) :
    (s.atSlice core decaf pa n).Canon := .ite (h.settleOwn.foldl fun _ _ hs => hs.cleanDecaf) h.settleOwn

theorem State.Canon.l1Room {core : Nat} (h : s.Canon) : (s.l1Room core).Canon := by
  unfold State.l1Room
  split
  · exact h
  · split
    next e =>
      dsimp only
      split
      · exact h.freeNat.of_eq e
      · exact (h.freeNat.of_eq e).publishLine.setL1

theorem State.Canon.l1Fill {core : Nat} {decaf : Bool} {line : Nat} (h : s.Canon) :
    (s.l1Fill core decaf line).Canon := .setL1 (.ite h h.l1Room)

theorem State.Canon.mayFill {core : Nat} {decaf : Bool} {line : Nat} (h : s.Canon) :
    (s.mayFill core decaf line).Canon := by
  unfold State.mayFill
  split
  · exact .ite h.l1Fill (.of_mem h.freeBool rfl)
  · exact .ite (.of_mem h.freeBool rfl) (.ite h.freeBool.l1Fill h.freeBool)

theorem State.Canon.putL1 {core : Nat} {decaf : Bool} {pa : Nat} {x : Byte} (h : s.Canon) :
    (s.putL1 core decaf pa x).Canon := .setL1 (.ite h h.l1Room)

theorem State.Canon.toStash {b core pa : Nat} (h : s.Canon) : (s.toStash b core pa).Canon := by
  unfold State.toStash
  split
  · exact .ite h h.setL1
  · exact h.setL1

theorem State.Canon.putScale {b n pa : Nat} {v : Byte} (h : s.Canon) : (s.putScale b n pa v).Canon :=
  .ite h.touch.fillTag.updBlk h.touch.fillTag.setTag

theorem State.Canon.loadUnit {b core : Nat} {decaf : Bool} {pa n : Nat} (h : s.Canon) :
    (s.loadUnit b core decaf pa n).2.Canon := by
  unfold State.loadUnit
  split
  · exact h.freeBytes
  · dsimp only
    split
    · exact h
    · exact .itePair h (.itePair h (.pair h.freeBool))

theorem State.Canon.touched {b t pa n pa' : Nat} {c d : Prop} [Decidable c] [Decidable d] (h : s.Canon) :
    State.Canon (if c then s.touch pa n
      else if d then { s.touch pa n with dueErrors := (s.touch pa n).dueErrors ++ [(b, t, pa')] } else s.touch pa n) := by
  refine .ite h.touch (.ite ?_ h.touch)
  simp only [State.Canon]
  exact h.touch

theorem State.Canon.load {b t : Nat} {decaf : Bool} {way : Way} {pa n : Nat} (h : s.Canon) :
    (s.load b t decaf way pa n).2.Canon := by
  unfold State.load
  dsimp only
  split
  · exact .pair (.atSlice h.touched)
  · exact .pair (.ite (.foldl h.touched fun _ _ hs => hs.fillDecaf) h.touched)
  · exact .pair (.foldl (.foldlPair (.ite (.foldl h.touched fun _ _ hs => hs.fillDecaf) h.touched)
      fun _ _ hs => .pair hs.loadUnit) fun _ _ hs => hs.mayFill)

theorem State.Canon.dieStore {decaf : Bool} {die pa : Nat} {bs : List Byte} (h : s.Canon) :
    (s.dieStore decaf die pa bs).Canon := .ite (h.touch.disown.foldl fun _ _ hs => hs.dieWrite) h.writeHome

theorem State.Canon.sliceStore {decaf : Bool} {die pa : Nat} {bs : List Byte} (h : s.Canon) :
    (s.sliceStore decaf die pa bs).Canon := .ite (h.writeHome.foldl fun _ _ hs => hs.putDecaf) h.writeHome

theorem State.Canon.storeThrough {b : Nat} {decaf : Bool} {way : Way} {pa : Nat} {bs : List Byte} (h : s.Canon) :
    (s.storeThrough b decaf way pa bs).Canon := by
  unfold State.storeThrough
  split
  · exact h
  · dsimp only
    split
    · exact h.atSlice.sliceStore
    · exact h.dieStore
    · exact .foldl (.of_mem (h.touch.foldl fun _ _ hs => hs.putL1) rfl) fun _ _ hs => .ite hs hs.publishUnit

theorem State.Canon.mergeThrough {b : Nat} {decaf : Bool} {pa n : Nat} {m : Merge} (h : s.Canon) :
    (s.mergeThrough b decaf pa n m).2.Canon := by
  unfold State.mergeThrough
  dsimp only
  split
  · exact .pair (.sliceStore (.ite (h.touch.foldl fun _ _ hs => hs.cleanDecaf) h.touch))
  · exact .pair (.dieStore (.ite h.touch.fillDecaf h.touch))

theorem State.Canon.commit {b : Nat} {forced : Bool} (h : s.Canon) : (s.commit b forced).Canon := by
  unfold State.commit
  dsimp only
  split
  · exact h
  · simp only [State.Canon]
    show State.Canon _
    refine .updBlk (.foldl ((h.updBlk.foldl fun _ _ hs => hs.settleOwn.mergeThrough).foldl fun _ _ hs => ?_)
      fun _ _ hs => hs.setTag)
    split
    · exact hs
    · exact hs.settleOwn.dieStore

theorem State.Canon.store {b : Nat} {decaf : Bool} {way : Way} {pa : Nat} {bs : List Byte} (h : s.Canon) :
    (s.store b decaf way pa bs).Canon := .ite (.ite h.touch.updBlk h.commit.storeThrough) h.storeThrough

theorem State.Canon.merge {b : Nat} {decaf : Bool} {pa n : Nat} {m : Merge} (h : s.Canon) :
    (s.merge b decaf pa n m).2.Canon :=
  .itePair h.mergeThrough (.itePair (.pair h.store) (.itePair (.pair h.touch.updBlk) h.commit.mergeThrough))

theorem State.Canon.cache {core : Nat} {bt : Option (Nat × Nat)} {x : Xlat} (h : s.Canon) :
    (s.cache core bt x).Canon := by
  unfold State.cache
  dsimp only
  split
  · exact h.updCore.updRegion.updDie.updThr
  · exact h.updCore.updRegion.updDie

theorem State.Canon.translate {b t va : Nat} {kind : AccKind} (h : s.Canon) : (s.translate b t va kind).2.Canon := by
  unfold State.translate
  dsimp only
  split
  · exact .pair h.updThr
  · split
    · exact .pair h.cache
    · exact h

end Sys2Proof.Machine
end

section
/-! PROOFS. Canonical memory is kept (spec/10 R190): accesses, exceptions and the operations of an instruction. -/
namespace Sys2Proof.Machine

variable {s : State}

theorem State.Canon.auxOf {a : Aux} (h : s.Canon) : (s.auxOf a).2.Canon := by
  unfold State.auxOf
  split
  · exact h
  · exact .pair (.of_mem h rfl)
  · exact .pair (.of_mem h rfl)

theorem State.Canon.addStop {fn : Nat} {lid : Word} {level : Option Nat} (h : s.Canon) :
    (s.addStop fn lid level).Canon := .ite h (.of_mem h rfl)

theorem State.Canon.raiseExc {b t : Nat} {e : Exc} (h : s.Canon) : (s.raiseExc b t e).Canon :=
  .ite (.of_mem h.updWarp rfl) (.ite h h.updThr.addStop)

theorem State.Canon.raiseAt {b t : Nat} {pc : DWord} {code : Word} {aux : Aux} (h : s.Canon) :
    (s.raiseAt b t pc code aux).Canon := h.auxOf.raiseExc

theorem State.Canon.raiseAll {b : Nat} {ts : List Nat} {pc : DWord} {code : Word} {aux : Aux} (h : s.Canon) :
    (s.raiseAll b ts pc code aux).Canon := h.foldl fun _ _ hs => hs.raiseAt

theorem State.Canon.pmEvent {fn id n : Nat} (h : s.Canon) : (s.pmEvent fn id n).Canon := .ite h h.updFn

theorem State.Canon.mapped {b : Nat} {ea : DWord} {pa n : Nat} {kind : AccKind} (h : s.Canon) :
    (s.mapped b ea pa n kind).Canon := .ite h (.ite h (h.foldl fun _ _ hs => .ite hs.toStash hs))

theorem State.Canon.globalAccess {b t : Nat} {ea : DWord} {n align : Nat} {kind : AccKind} {ap : Bool} (h : s.Canon) :
    (s.globalAccess b t ea n align kind ap).2.Canon := by
  unfold State.globalAccess
  split
  · exact h
  · split
    · exact h
    · split
      · exact h
      · split
        next e => exact .itePair (.pair (h.translate.of_eq e)) (.pair ((h.translate.of_eq e).mapped))
        next e => exact .pair (h.translate.of_eq e)
        next e => exact .pair (h.translate.of_eq e)
        next e => exact .pair (.of_mem (h.translate.of_eq e) rfl)

theorem State.Canon.readPlace {b t : Nat} {way : Way} {p : Place} {n : Nat} (h : s.Canon) :
    (s.readPlace b t way p n).2.Canon := by
  unfold State.readPlace
  split
  · exact h.load
  · exact h

theorem State.Canon.writePlace {b : Nat} {way : Way} {p : Place} {bs : List Byte} (h : s.Canon) :
    (s.writePlace b way p bs).Canon := by
  unfold State.writePlace
  split
  · exact h.store
  · exact h.updBlk

theorem State.Canon.rmw {b t : Nat} {p : Place} {op : AtomOp} {w : Wd} {x y : QWord} (h : s.Canon) :
    (s.rmw b t p op w x y).2.Canon := .pair (.ite h.readPlace h.readPlace.writePlace)

theorem State.Canon.applyRed {r : Red} (h : s.Canon) : (s.applyRed r).Canon := .rmw (.of_mem h rfl)

theorem State.Canon.settle {b t : Nat} {p : Place} {n : Nat} (h : s.Canon) : (s.settle b t p n).Canon :=
  h.foldl fun _ _ hs => hs.applyRed

theorem State.Canon.force {b : Nat} (h : s.Canon) : (s.force b).Canon := h.commit

theorem State.Canon.noteTiles {b pa n : Nat} (h : s.Canon) : (s.noteTiles b pa n).Canon := by
  unfold State.noteTiles
  dsimp only
  split
  · exact h
  · exact h.updBlk

theorem State.Canon.note {b t : Nat} {ea : DWord} {n : Nat} (h : s.Canon) : (s.note b t ea n).Canon := by
  unfold State.note
  split
  · exact h
  · split
    · exact h
    · split
      · exact h.updBlk
      · refine h.foldl fun _ _ hs => ?_
        split
        · exact .ite hs.noteTiles hs
        · exact hs

theorem State.Canon.setArrival {b off : Nat} {a : Arrival} (h : s.Canon) : (s.setArrival b off a).Canon := h.updBlk

theorem State.Canon.updArrival {b off : Nat} {f : Arrival → Arrival} (h : s.Canon) : (s.updArrival b off f).Canon :=
  h.setArrival

theorem State.Canon.onObject {b : Nat} {a : Word} {f : Arrival → Arrival} (h : s.Canon) :
    (s.onObject b a f).Canon := by
  unfold State.onObject
  split
  · exact h.updArrival
  · exact h

theorem State.Canon.checkBar {b : Nat} (h : s.Canon) : (s.checkBar b).Canon := .ite h.acquire.updBlk h

theorem State.Canon.checkGbar {b g : Nat} (h : s.Canon) : (s.checkGbar b g).Canon := .ite h.acquire.updBlk h

theorem State.Canon.checkClbar {b : Nat} (h : s.Canon) : (s.checkClbar b).Canon :=
  .ite (h.foldl fun _ _ hs => hs.acquire.updBlk) h

theorem State.Canon.checkBarriers {b : Nat} (h : s.Canon) : (s.checkBarriers b).Canon :=
  (h.checkBar.foldl fun _ _ hs => hs.checkGbar).checkClbar

theorem State.Canon.newRecord {fn : Nat} {va : DWord} {lid blk : Word} {thr cause gpa : Nat} {kind : AccKind}
    {w : Waiter} (h : s.Canon) : (s.newRecord fn va lid blk thr cause gpa kind w).2.Canon :=
  .pair (.of_mem h.newId rfl)

theorem State.Canon.recordFaults {b log : Nat} {kind : AccKind} {fs : List (Nat × DWord × Nat × Nat)} (h : s.Canon) :
    (s.recordFaults b log kind fs).2.Canon := by
  unfold State.recordFaults
  refine List.foldlRecOn (motive := fun x : List (Nat × Nat × Nat) × List (Nat × Nat) × State => x.2.2.Canon) fs _ h
    fun x hx f _ => ?_
  dsimp only
  split
  · exact hx
  · exact State.Canon.newRecord hx

theorem State.Canon.advance {b : Nat} {ts : List Nat} {pc : DWord} (h : s.Canon) : (s.advance b ts pc).Canon :=
  h.updBlk

theorem State.Canon.enter {i : Instr} {f : Uses} (h : s.Canon) : (s.enter i f).2.Canon :=
  .itePair (.itePair (.pair h.raiseAll) (.itePair (.itePair (.pair h.updWarp.pmEvent.raiseAll) (.pair
    h.updWarp.pmEvent.advance)) (.pair h.advance))) (.pair h.raiseAll.advance)

theorem State.Canon.put {c : Ctx} {w : Nat} {d : Dst} {f : Nat → QWord} {tag : Tag} (h : s.Canon) :
    (s.put c w d f tag).Canon := h.updBlk

theorem State.Canon.putPred {c : Ctx} {p : Nat} {f : Nat → Bool} (h : s.Canon) : (s.putPred c p f).Canon := h.updBlk

theorem State.Canon.orFlags {b wp : Nat} {fl : Flags} (h : s.Canon) : (s.orFlags b wp fl).Canon := .ite h h.updWarp

theorem State.Canon.acquireIf {b : Nat} {acq : Bool} (h : s.Canon) : (s.acquireIf b acq).Canon := .ite h.acquire h

theorem State.Canon.loadAt {b t : Nat} {acq : Bool} {ty : Ty} {p : Place} (h : s.Canon) :
    (s.loadAt b t acq ty p).2.Canon := .pair h.settle.readPlace.acquireIf

theorem State.Canon.storeAt {b t : Nat} {rel : Bool} {ty : Ty} {p : Place} {x : QWord} (h : s.Canon) :
    (s.storeAt b t rel ty p x).2.Canon := by
  unfold State.storeAt
  refine .pair (.writePlace ?_)
  split
  · exact .ite h.settle.force h.settle
  · exact h.settle

theorem State.Canon.atomAt {b t : Nat} {acq : Bool} {op : AtomOp} {w : Wd} {p : Place} {x y : QWord} (h : s.Canon) :
    (s.atomAt b t acq op w p x y).2.Canon := by
  unfold State.atomAt
  refine .pair (.acquireIf (.rmw ?_))
  split
  · exact h.settle.force
  · exact h.settle

theorem State.Canon.redAt {b : Nat} {op : AtomOp} {w : Wd} {p : Place} {o : MemOp} (h : s.Canon) :
    (s.redAt b op w p o).2.Canon := by
  unfold State.redAt
  refine .pair ?_
  simp only [State.Canon]
  show State.Canon _
  split
  · exact h.force
  · exact h

theorem State.Canon.callAt {b : Nat} {o : MemOp} (h : s.Canon) : (s.callAt b o).2.Canon := by
  unfold State.callAt
  dsimp only
  split
  · exact h
  · split
    · exact h
    · split
      next e => exact .pair ((h.globalAccess.of_eq e).settle.writePlace.updThr.advance)
      next e => exact .pair (h.globalAccess.of_eq e)

theorem State.Canon.retAt {b : Nat} {o : MemOp} (h : s.Canon) : (s.retAt b o).2.Canon := by
  unfold State.retAt
  dsimp only
  split
  · exact h
  · split
    next e =>
      exact .itePair (.pair ((h.globalAccess.of_eq e).settle.readPlace)) (.pair ((h.globalAccess.of_eq
        e).settle.readPlace.updThr.advance))
    next e => exact .pair (h.globalAccess.of_eq e)

theorem State.Canon.endMem {b t : Nat} (h : s.Canon) : (s.endMem b t).Canon := by
  unfold State.endMem
  split
  · split
    next e => exact (h.readPlace.of_eq e).acquire.updThr
  · exact h

theorem State.Canon.waitAt {b : Nat} {op : CmpOp} {ty : Ty} {pd : Nat} {ext : Bool} {next : DWord} {o : MemOp}
    (h : s.Canon) : (s.waitAt b op ty pd ext next o).2.Canon := by
  unfold State.waitAt
  split
  · next e =>
    dsimp only
    split
    · exact .pair (.advance (.updThr (.acquire (.readPlace (.settle (.of_eq e h.globalAccess))))))
    · exact .pair (.updThr (.newId (.acquire (.readPlace (.settle (.of_eq e h.globalAccess))))))
  · next e => exact .pair (.of_eq e h.globalAccess)

theorem State.Canon.wakeAt {b : Nat} {o : MemOp} (h : s.Canon) : (s.wakeAt b o).2.Canon := by
  unfold State.wakeAt
  split
  next e => exact .pair ((h.globalAccess.of_eq e).force.foldl fun _ _ hs => hs.endMem)
  next e => exact .pair (h.globalAccess.of_eq e)

theorem State.Canon.memOp {b : Nat} {i : Instr} {next : DWord} {o : MemOp} (h : s.Canon) :
    (s.memOp b i next o).2.Canon := by
  unfold State.memOp
  split
  · split
    · exact .itePair h h
    · split
      next e => exact (h.note.globalAccess.of_eq e).loadAt
      next e => exact .pair (h.note.globalAccess.of_eq e)
  · split
    · exact .itePair (.pair h.updRegion) h
    · split
      next e => exact (h.globalAccess.of_eq e).storeAt
      next e => exact .pair (h.globalAccess.of_eq e)
  · split
    · exact h.loadAt
    · exact h
  · split
    · exact h.storeAt
    · exact h
  · split
    next e => exact (h.note.globalAccess.of_eq e).atomAt
    next e => exact .pair (h.note.globalAccess.of_eq e)
  · split
    next e => exact (h.globalAccess.of_eq e).redAt
    next e => exact .pair (h.globalAccess.of_eq e)
  · split
    next e => exact (h.globalAccess.of_eq e).atomAt
    next e => exact .pair (h.globalAccess.of_eq e)
  · exact h.callAt
  · exact h.retAt
  · exact h.waitAt
  · exact h.waitAt
  · exact h.wakeAt
  · exact h

theorem State.Canon.pend {c : Ctx} {la : Nat} {thrs : List Nat} {w : Nat} {d : Dst} {vals : List (Nat × QWord)}
    {tag : Tag} {fl : Flags} {miss : Bool} (h : s.Canon) : (s.pend c la thrs w d vals tag fl miss).Canon :=
  .ite h h.newId.updBlk

theorem State.Canon.pendFault {c : Ctx} {la : Nat} {thrs : List Nat} {w : Nat} {d : Dst} {log : Nat} (h : s.Canon) :
    (s.pendFault c la thrs w d log).Canon := h.newId.updBlk

theorem State.Canon.runOps {f : State → MemOp → AccOut × State} {ops : List MemOp} (h : s.Canon)
    (hf : ∀ s x, s.Canon → (f s x).2.Canon) : (s.runOps f ops).2.Canon := h.foldlPair fun _ _ hs => (hf _ _ hs)

theorem State.Canon.spreadDue {c : Ctx} {n : Nat} (h : s.Canon) : (s.spreadDue c n).Canon := .ite (.of_mem h rfl) h

theorem State.Canon.openLog {c : Ctx} {i : Instr} {ops : List MemOp} {start : Nat} {kind : AccKind}
    {fs : List (Nat × DWord × Nat × Nat)} (h : s.Canon) : (s.openLog c i ops start kind fs).2.Canon :=
  .pair (.of_mem (.itePair (.pair h.newId.updWarp) h.newId.recordFaults) rfl)

theorem State.Canon.raiseOuts {b : Nat} {spread : Nat → List Nat} {pc : DWord} {l : List (Nat × Word × Aux)}
    (h : s.Canon) : (l.foldl (fun s x => s.raiseAll b (spread x.1) pc x.2.1 x.2.2) s).Canon :=
  h.foldl fun _ _ hs => hs.raiseAll

theorem State.Canon.issueOps {c : Ctx} {i : Instr} {hd : Hdr} {ll : Bool} {w : Nat} {d : Dst} {ops : List MemOp}
    {f : State → MemOp → AccOut × State} (h : s.Canon) (hf : ∀ s x, s.Canon → (f s x).2.Canon) :
    (s.issueOps c i hd ll w d ops f).Canon := by
  unfold State.issueOps
  dsimp only
  generalize e : s.runOps _ ops = r
  have hr : r.2.Canon := e ▸ h.runOps fun _ _ hs => .itePair hs (hf _ _ hs)
  split
  · split
    · exact .pend (.ite hr.spreadDue.raiseOuts hr.spreadDue.raiseOuts.advance)
    · exact .updBlk (.ite hr.spreadDue.raiseOuts hr.spreadDue.raiseOuts.advance)
  · refine .pendFault ?_
    split
    · exact .advance (.openLog (.pend (.ite hr.spreadDue.raiseOuts hr.spreadDue.raiseOuts.advance)))
    · exact .openLog (.updBlk (.ite hr.spreadDue.raiseOuts hr.spreadDue.raiseOuts.advance))

theorem State.Canon.ill {reason : Nat} (h : s.Canon) : (s.ill reason).Canon := h.raiseAll

theorem State.Canon.readCyc {b : Nat} (h : s.Canon) : (s.readCyc b).2.Canon := .pair h.freeNat.updCore

end Sys2Proof.Machine
end

section
/-! PROOFS. Canonical memory is kept (spec/10 R190): tiles, converged operations, control and memory instructions. -/
namespace Sys2Proof.Machine

variable {s : State}

theorem State.Canon.illAll {b : Nat} {ts : List Nat} {pc : DWord} {w0 : Word} {reason : Nat} (h : s.Canon) :
    (s.illAll b ts pc w0 reason).Canon := h.raiseAll

theorem State.Canon.pieces {b t : Nat} {kind : AccKind} {align fuel : Nat} {va : DWord} {n : Nat} (h : s.Canon) :
    (s.pieces b t kind align fuel va n).2.Canon := by
  induction fuel generalizing s va n with
  | zero => exact h
  | succ f ih =>
    unfold State.pieces
    dsimp only
    split
    · exact h
    · split
      · next p s₁ e =>
        have h₁ := State.Canon.of_eq e h.globalAccess
        split
        · next e₂ => exact .pair (.of_eq e₂ (ih h₁))
        · exact ih h₁
      · next e => exact .pair (.of_eq e h.globalAccess)

theorem State.Canon.rowPlaces {b t : Nat} {kind : AccKind} {align n : Nat} {a : List DWord} (h : s.Canon) :
    (s.rowPlaces b t kind align n a).2.Canon := by
  induction a generalizing s with
  | nil => exact h
  | cons ea rest ih =>
    unfold State.rowPlaces
    split
    · next e => exact .pair (.of_eq e h.pieces)
    · next e =>
      have h₁ := State.Canon.of_eq e h.pieces
      split
      · next e₂ => exact .pair (.of_eq e₂ (ih h₁))
      · exact ih h₁

theorem State.Canon.readRow {b t : Nat} {l : List (Place × Nat)} (h : s.Canon) : (s.readRow b t l).2.Canon :=
  h.foldlPair fun _ _ hs => .pair hs.readPlace

theorem State.Canon.writeRow {b : Nat} {l : List (Place × Nat)} {bs : List Byte} (h : s.Canon) :
    (s.writeRow b l bs).Canon := h.foldl fun _ _ hs => hs.writePlace

theorem State.Canon.settleRows {b : Nat} {thrs : List Nat} {rows : List (List (Place × Nat))} (h : s.Canon) :
    (s.settleRows b thrs rows).Canon :=
  h.foldl fun _ _ hs => (hs.foldl fun _ _ hs₁ => (hs₁.foldl fun _ _ hs₂ => hs₂.settle))

theorem State.Canon.firstWindow {b lead align : Nat} {ea : DWord} (h : s.Canon) :
    (s.firstWindow b lead align ea).2.Canon := by
  unfold State.firstWindow
  split
  next e => exact .pair (h.globalAccess.of_eq e)
  next e => exact .pair (h.globalAccess.of_eq e)

theorem State.Canon.loadScales {b wp t n per : Nat} {rows : List (List (Place × Nat))} (h : s.Canon) :
    (s.loadScales b wp t n per rows).Canon := h.foldl fun _ _ hs => (hs.foldl fun _ _ hs₁ => hs₁.fillTag.updBlk)

theorem State.Canon.tldOp {b wp lead : Nat} {thrs : List Nat} {i : Instr} {t : Nat} {off : Word} {o : MemOp}
    (h : s.Canon) : (s.tldOp b wp lead thrs i t off o).2.Canon := by
  unfold State.tldOp
  dsimp only
  split
  · exact h
  · split
    · next e => exact .pair (.foldl (.of_eq e h.firstWindow) fun _ _ hs => hs.note)
    · next win _ e =>
      have h₁ := State.Canon.of_eq e h.firstWindow
      split
      · next e₂ => exact .pair (.of_eq e₂ (.rowPlaces (h₁.foldl fun _ _ hs => hs.note)))
      · next e₂ =>
        have h₂ := State.Canon.of_eq e₂ (.rowPlaces (h₁.foldl fun _ _ hs => hs.note))
        split
        · exact .itePair h₂ (.pair (.updBlk (.foldlPair h₂.settleRows fun _ _ hs => .pair hs.readRow)))
        · refine .itePair h₂ (.pair (.ite (.loadScales ?_) ?_)) <;>
            exact .updBlk (.updBlk (.foldlPair h₂.settleRows fun _ _ hs => .pair hs.readRow))

theorem State.Canon.tstOp {b wp lead : Nat} {thrs : List Nat} {i : Instr} {t : Nat} {off : Word} {o : MemOp}
    (h : s.Canon) : (s.tstOp b wp lead thrs i t off o).2.Canon := by
  unfold State.tstOp
  dsimp only
  split
  · exact h
  · split
    next e => exact .pair (h.rowPlaces.of_eq e)
    next e =>
      split
      · exact .pair (h.rowPlaces.of_eq e)
      · refine .pair ((h.rowPlaces.of_eq e).settleRows.foldl fun _ _ hs => ?_)
        split
        · exact hs.writeRow
        · refine hs.writeRow.foldl fun _ _ hs₁ => ?_
          split
          · exact hs₁
          · exact hs₁.foldl fun _ _ hs₂ => hs₂.putScale

theorem State.Canon.drainRows {b lead : Nat} {sp : Bool} {align n : Nat} {rows : List DWord} (h : s.Canon) :
    (s.drainRows b lead sp align n rows).2.Canon := .itePair h h.rowPlaces

theorem State.Canon.drainOp {b wp lead : Nat} {i : Instr} {m : DrainMods} {c : Nat} {o : MemOp} (h : s.Canon) :
    (s.drainOp b wp lead i m c o).2.Canon := by
  have hfeed {p : Prop} [Decidable p] {t : State} {off : Nat} {f : Arrival → Arrival} (ht : t.Canon) :
      State.Canon (if p then t.updArrival b off f else t) := .ite ht.updArrival ht
  unfold State.drainOp
  refine .itePair (.pair h) (.itePair (.pair h) ?_)
  dsimp only
  generalize hr : s.drainRows b lead m.sp _ _ _ = r
  have h₁ : r.2.Canon := hr ▸ h.drainRows
  split
  · exact h₁
  · exact .pair (hfeed h₁)
  · refine .itePair (.pair h₁) ?_
    split <;>
    · simp only [State.Canon]
      exact hfeed (State.Canon.newId h₁)

theorem State.Canon.convOp {b wp lead : Nat} {thrs : List Nat} {i : Instr} {o : MemOp} (h : s.Canon) :
    (s.convOp b wp lead thrs i o).2.Canon := by
  unfold State.convOp
  dsimp only
  split
  · exact h.tldOp
  · exact h.tstOp
  · exact .itePair h (.pair h.updBlk.pmEvent)
  · exact h.drainOp
  · exact .pair h.updBlk
  · exact h

theorem State.Canon.updPend {b id : Nat} {f : Pending → Pending} (h : s.Canon) : (s.updPend b id f).Canon := h.updBlk

theorem State.Canon.dropPend {b id : Nat} (h : s.Canon) : (s.dropPend b id).Canon := h.updBlk

theorem State.Canon.convPerform {b pid : Nat} {thrs : List Nat} {e : LogEntry} (h : s.Canon) :
    (s.convPerform b pid thrs e).Canon := by
  unfold State.convPerform
  dsimp only
  split
  · exact .updPend (.of_mem h rfl)
  · split
    next e => exact (State.Canon.of_eq e (.convOp (.of_mem h rfl))).dropPend
    next e => exact (State.Canon.of_eq e (.convOp (.of_mem h rfl))).updPend
    next e => exact (State.Canon.of_eq e (.convOp (.of_mem h rfl))).dropPend.raiseAll
    next e => exact .updPend (.of_mem ((State.Canon.of_eq e (.convOp (.of_mem h rfl))).recordFaults) rfl)
    next e => exact .updPend (.of_mem (State.Canon.of_eq e (.convOp (.of_mem h rfl))) rfl)

theorem State.Canon.convRun {b n : Nat} (h : s.Canon) : (s.convRun b n).Canon := by
  unfold State.convRun
  dsimp only
  split
  · exact .ite h.updBlk.dropPend (.ite (.updPend (.of_mem h.updBlk.updPend.newId rfl))
      h.updBlk.updPend.newId.convPerform)
  · exact h

theorem State.Canon.convCheck {b n : Nat} (h : s.Canon) : (s.convCheck b n).Canon := .ite h.convRun h

theorem State.Canon.signOne {c : Ctx} {n : Nat} {i : Instr} {hd : Hdr} {t : Nat} {live : Bool} (h : s.Canon) :
    (s.signOne c n i hd t live).Canon := .ite h.raiseAt h.newId.advance.updBlk

theorem State.Canon.convReset {b n : Nat} (h : s.Canon) : (s.convReset b n).Canon := h.updBlk

theorem State.Canon.leaveSets {b t : Nat} (h : s.Canon) : (s.leaveSets b t).Canon :=
  h.foldl fun _ _ hs => .ite hs (.ite hs.convReset hs.updBlk.convCheck)

theorem State.Canon.pendFlags {b : Nat} {p : Pending} (h : s.Canon) : (s.pendFlags b p).Canon :=
  h.foldl fun _ _ hs => hs.orFlags

theorem State.Canon.voidTile {b wp t : Nat} {tc : DWord} {fd : Option (Nat × Word)} (h : s.Canon) :
    (s.voidTile b wp t tc fd).Canon := h.freeBytes.freeBytes.freeBool.freeBool.updBlk

theorem State.Canon.voidResting {b : Nat} {p : Pending} (h : s.Canon) : (s.voidResting b p).Canon := by
  unfold State.voidResting
  split
  · exact h
  · split
    · exact .of_mem h.voidTile rfl
    · exact h

theorem State.Canon.convCancel {b : Nat} {ts : List Nat} (h : s.Canon) : (s.convCancel b ts).Canon := by
  unfold State.convCancel
  refine (h.foldl fun _ _ hs => .ite hs.convReset hs).foldl fun _ _ hs => ?_
  split
  · exact hs.voidTile.dropPend
  · exact .ite hs.pendFlags.dropPend hs.voidResting
  · exact hs

theorem State.Canon.jump {c : Ctx} {f : Block → Nat → DWord} (h : s.Canon) : (s.jump c f).Canon :=
  h.foldl fun _ _ hs => .ite hs.raiseAt hs.advance

theorem State.Canon.retire {b t : Nat} (h : s.Canon) : (s.retire b t).Canon := h.updThr.leaveSets.checkBarriers

theorem State.Canon.elemOp {b : Nat} {i : Instr} {o : MemOp} (h : s.Canon) : (s.elemOp b i o).2.Canon := by
  unfold State.elemOp
  split
  · split
    next e => exact (h.globalAccess.of_eq e).storeAt
    next e => exact .pair (h.globalAccess.of_eq e)
  · split
    next e => exact (h.note.globalAccess.of_eq e).loadAt
    next e => exact .pair (h.note.globalAccess.of_eq e)
  · exact h

theorem State.Canon.runElems {b : Nat} {i : Instr} {used : Nat → Option Nat} {start : Nat} {ops : List MemOp} (h : s.Canon) :
    (s.runElems b i used start ops).2.Canon := by
  induction ops generalizing s start with
  | nil => exact h
  | cons o rest ih =>
    unfold State.runElems
    split
    · next e => exact .pair (ih (.of_eq e (.itePair h h.elemOp)))
    · next e => exact .pair (.of_eq e (.itePair h h.elemOp))

theorem State.Canon.elemsDone {c : Ctx} {i : Instr} {hd : Hdr} {ops : List MemOp} {start : Nat} {old : Option Nat}
    (h : s.Canon) : (s.elemsDone c i hd ops start old).Canon := by
  unfold State.elemsDone
  split
  next ll _ _ _ =>
  dsimp only
  generalize er : s.runElems c.b i _ start _ = r
  have hr : r.2.Canon := er ▸ h.runElems
  split
  · split
    · split
      · exact hr.updPend
      · exact .ite hr.advance hr.advance.pend
    · cases old with
      | none => exact .advance (.updBlk hr)
      | some id => exact .advance (.updBlk hr.dropPend)
  · generalize eu : (if ll then _ else r.2 : State) = u
    have hu : u.Canon := eu ▸ .ite hr.updBlk hr
    split
    · cases old with
      | none => exact hu.raiseAll
      | some id => exact hu.dropPend.raiseAll
    · split
      · exact hu.openLog.updPend
      · exact .pendFault (.ite hu.openLog.advance hu.openLog)
    · split
      · exact .updPend (.of_mem hu.newId rfl)
      · exact .pendFault (.ite (.advance (.of_mem hu.newId rfl)) (.of_mem hu.newId rfl))

theorem State.Canon.cctlAt {c : Ctx} {inv : Bool} {o : MemOp} (h : s.Canon) : (s.cctlAt c inv o).2.Canon :=
  .itePair h (.itePair h (.pair (.of_mem h.newId rfl)))

theorem State.Canon.recallWords {core : Nat} {lines : List Nat} (h : s.Canon) : (s.recallWords core lines).Canon :=
  .of_mem (h.foldl fun _ _ hs => hs.publishLine) rfl

theorem State.Canon.dropLines {core : Nat} {lines : List Nat} (h : s.Canon) : (s.dropLines core lines).Canon :=
  h.recallWords.foldl fun _ _ hs => hs.setL1

theorem State.Canon.emptyCore {core : Nat} (h : s.Canon) : (s.emptyCore core).Canon := by
  unfold State.emptyCore
  dsimp only
  simp only [State.Canon]
  show State.Canon _
  exact .foldl (.of_mem h.dropLines rfl) fun _ _ hs => hs.mark

theorem State.Canon.setWait {b t : Nat} {w : Wait} (h : s.Canon) : (s.setWait b t w).Canon := h.updThr

theorem State.Canon.feedObject {b : Nat} {a : Word} {path : Nat} (h : s.Canon) : (s.feedObject b a path).2.Canon := by
  unfold State.feedObject
  split
  · exact h
  · split
    · exact .pair h.updArrival
    · exact h
    · exact h

theorem State.Canon.noteRows {b t : Nat} {r : CopyRec} (h : s.Canon) : (s.noteRows b t r).Canon :=
  .ite h (h.foldl fun _ _ hs => hs.note)

theorem State.Canon.cpqAt {c : Ctx} {w0 : Word} {o : MemOp} (h : s.Canon) : (s.cpqAt c w0 o).2.Canon := by
  unfold State.cpqAt
  split
  · exact h
  · split
    · dsimp only
      split
      · exact .pair h.settle.readPlace
      · split
        · exact .pair h.settle.readPlace
        · split
          next e => exact .pair (h.settle.readPlace.feedObject.of_eq e)
          next e =>
            refine .pair ?_
            split
            · exact .newId (.noteRows (.ite ((h.settle.readPlace.feedObject.of_eq e).force)
                (h.settle.readPlace.feedObject.of_eq e)))
            · exact .of_mem (.newId (.noteRows (.ite ((h.settle.readPlace.feedObject.of_eq e).force)
                (h.settle.readPlace.feedObject.of_eq e)))) rfl
    · exact h

theorem State.Canon.cpldRun {c : Ctx} {i : Instr} {ty : Ty} {d : Dst} {cq : Nat} {ops : List MemOp} {old : Option Nat}
    (h : s.Canon) : (s.cpldRun c i ty d cq ops old).Canon := by
  unfold State.cpldRun
  dsimp only
  generalize er : State.runOps _ _ ops = r
  have hr : r.2.Canon := by
    rw [← er]
    refine (h.foldl fun _ _ hs => hs.note).runOps fun _ _ hs => ?_
    split
    · exact hs
    · split
      next e => exact .pair (hs.globalAccess.of_eq e)
      next e => exact .pair (hs.globalAccess.of_eq e)
  cases old with
  | none =>
    dsimp only
    refine .ite (hr.foldl fun _ _ hs => hs.raiseAll) (.ite hr.openLog.pendFault (.ite hr (.advance (.updBlk
      (hr.runOps fun _ _ hs => ?_)))))
    split
    next e => exact (hs.globalAccess.of_eq e).loadAt
    next e => exact .pair (hs.globalAccess.of_eq e)
  | some id =>
    dsimp only
    refine .ite (hr.dropPend.foldl fun _ _ hs => hs.raiseAll) (.ite hr.openLog.updPend (.ite hr.dropPend (.advance
      (.updBlk
      (hr.dropPend.runOps fun _ _ hs => ?_)))))
    split
    next e => exact (hs.globalAccess.of_eq e).loadAt
    next e => exact .pair (hs.globalAccess.of_eq e)

theorem State.Canon.aarmAt {c : Ctx} {o : MemOp} (h : s.Canon) : (s.aarmAt c o).2.Canon := by
  unfold State.aarmAt
  split
  · split
    · exact h
    · dsimp only
      split
      · exact .pair h.settle
      · exact .pair h.settle.setArrival
  · exact h

theorem State.Canon.aarriveAt {c : Ctx} {o : MemOp} (h : s.Canon) : (s.aarriveAt c o).2.Canon := by
  unfold State.aarriveAt
  split
  · exact .itePair h (.pair h.settle.updArrival)
  · exact h

theorem State.Canon.awaitAt {c : Ctx} {o : MemOp} (h : s.Canon) : (s.awaitAt c o).2.Canon := by
  unfold State.awaitAt
  split
  · exact .itePair (.pair h.settle.acquire) (.pair h.settle.setWait)
  · exact h

theorem State.Canon.smapSet {c : Ctx} {n : Nat} {g : DWord} {size off : Nat} (h : s.Canon) :
    (s.smapSet c n g size off).Canon := by
  unfold State.smapSet
  dsimp only
  split
  · refine .advance ?_
    split
    · exact h.dropLines.updBlk
    · exact h
  · split
    · refine .raiseAll ?_
      split
      · exact h.dropLines.updBlk
      · exact h
    · split
      · exact .ite h.dropLines.updBlk.raiseAll h.dropLines.updBlk.dropLines.updBlk.advance
      · exact .ite h.raiseAll h.dropLines.updBlk.advance

end Sys2Proof.Machine
end

section
/-! PROOFS. Canonical memory is kept (spec/10 R190): content, placing, groups and system instructions. -/
namespace Sys2Proof.Machine

variable {s : State}

theorem State.Canon.updEntry {x : QWord} {f : CEntry → CEntry} (h : s.Canon) : (s.updEntry x f).Canon := .of_mem h rfl

theorem State.Canon.journal {b : Nat} {j : Journal} (h : s.Canon) : (s.journal b j).Canon := h.updBlk

theorem State.Canon.releaseQuiet {x : QWord} (h : s.Canon) : (s.releaseQuiet x).Canon := h.updEntry

theorem State.Canon.reclaimEntry {e : CEntry} (h : s.Canon) : (s.reclaimEntry e).Canon :=
  .ite (.foldl (.of_mem h rfl) fun _ _ hs => hs.releaseQuiet) (.of_mem h rfl)

theorem State.Canon.reclaimDie {die a : Nat} (h : s.Canon) : (s.reclaimDie die a).Canon := by
  induction a generalizing s with
  | zero => exact h
  | succ n ih =>
    unfold State.reclaimDie
    split
    · exact ih h.reclaimEntry
    · exact h

theorem State.Canon.intern {b vid : Nat} {node : Bool} {x : List Byte} (h : s.Canon) :
    (s.intern b vid node x).2.Canon := by
  unfold State.intern
  dsimp only
  split
  · exact h
  · split
    · exact .pair h.updEntry.journal
    · split
      · exact h
      · split
        · split
          · exact h
          · split
            · exact .pair (.ite h h.reclaimDie)
            · exact .pair (.journal (.foldl (.of_mem (.writePA (.ite h h.reclaimDie)) rfl) fun _ _ hs => hs.updEntry))
        · split
          · exact h
          · split
            · exact .pair (.ite h h.reclaimDie)
            · exact .pair (.journal (.foldl (.of_mem (.writePA (.ite h h.reclaimDie)) rfl) fun _ _ hs => hs.updEntry))

theorem State.Canon.caintBytes {c : Ctx} {src : CaSrc} {t : Nat} (h : s.Canon) : (s.caintBytes c src t).2.Canon := by
  unfold State.caintBytes
  dsimp only
  split
  · exact h
  · split
    · exact .pair h.settle.readPlace
    · exact h
    · exact h

theorem State.Canon.caintAt {c : Ctx} {node : Bool} {src : CaSrc} {o : MemOp} (h : s.Canon) :
    (s.caintAt c node src o).2.Canon := by
  unfold State.caintAt
  split
  next e => exact .pair (h.caintBytes.of_eq e)
  next e => exact (h.caintBytes.of_eq e).intern

theorem State.Canon.cagetAt {c : Ctx} {o : MemOp} (h : s.Canon) : (s.cagetAt c o).2.Canon := by
  unfold State.cagetAt
  split
  · split
    · exact h
    · exact .pair h.settle.writePlace
  · exact h

theorem State.Canon.carelAt {c : Ctx} {o : MemOp} (h : s.Canon) : (s.carelAt c o).2.Canon := by
  unfold State.carelAt
  dsimp only
  split
  · exact h
  · split
    · exact h
    · split
      · exact h
      · split
        · exact h
        · exact .pair (.ite h.updEntry h.updEntry.journal)

theorem State.Canon.caexpAt {c : Ctx} {o : MemOp} (h : s.Canon) : (s.caexpAt c o).2.Canon := by
  unfold State.caexpAt
  dsimp only
  split
  · exact h
  · split
    · exact h
    · split
      · exact h
      · split
        next e => exact .pair (h.feedObject.of_eq e)
        next e =>
          exact .itePair (.pair ((h.feedObject.of_eq e).newId)) (.pair (.of_mem ((h.feedObject.of_eq e).newId.foldl
            fun _ _ hs => hs.updEntry) rfl))

theorem State.Canon.addBlock {k : Block} (h : s.Canon) : (s.addBlock k).2.Canon := .pair (.of_mem h.newId rfl)

theorem State.Canon.fillGroups {b : Nat} (h : s.Canon) : (s.fillGroups b).Canon := h.updCore

theorem State.Canon.freeGroups {b : Nat} (h : s.Canon) : (s.freeGroups b).Canon := .ite h h.updCore

theorem State.Canon.dropBlock {b : Nat} (h : s.Canon) : (s.dropBlock b).Canon := .of_mem h.freeGroups rfl

theorem State.Canon.leaveCore {b : Nat} (h : s.Canon) : (s.leaveCore b).Canon := h.freeGroups.updBlk

theorem State.Canon.unhold {b : Nat} (h : s.Canon) : (s.unhold b).Canon := .ite h.leaveCore h.dropBlock

theorem State.Canon.releaseCluster {region : Nat} {lid : Word} {ci : Nat} {bs : List Nat} (h : s.Canon) :
    (s.releaseCluster region lid ci bs).Canon := (h.foldl fun _ _ hs => hs.acquire.updBlk).updRegion

theorem State.Canon.dispatch {l : Launch} {core ci rank : Nat} (h : s.Canon) :
    (s.dispatch l core ci rank).2.Canon := by
  unfold State.dispatch
  dsimp only
  split
  · exact h
  · refine .pair ?_
    split
    · refine .releaseCluster (.fillGroups ?_)
      split
      · exact .pair h.freeNat.updBlk
      · exact h.freeNat.addBlock
    · refine .fillGroups ?_
      split
      · exact .pair h.freeNat.updBlk
      · exact h.freeNat.addBlock

theorem State.Canon.launchAt {c : Ctx} {trace may : Bool} {o : MemOp} (h : s.Canon) :
    (s.launchAt c trace may o).2.Canon := by
  unfold State.launchAt
  dsimp only
  split
  · exact h
  · exact .itePair h (.pair h.force.updDie)

theorem State.Canon.predOuts {c : Ctx} {pd : Nat} {r : Outs} (h : s.Canon) : (s.predOuts c pd r).Canon :=
  (h.foldl fun _ _ hs => hs.raiseAll).foldl fun _ _ hs => hs.updThrs.advance

theorem State.Canon.placeAt {c : Ctx} {o : MemOp} (h : s.Canon) : (s.placeAt c o).2.Canon := by
  unfold State.placeAt
  dsimp only
  split
  · exact h
  · split
    next e =>
      split
      · exact .pair ((h.globalAccess.of_eq e).readPlace)
      · split
        · exact .pair ((h.globalAccess.of_eq e).readPlace)
        · split
          · exact .pair ((h.globalAccess.of_eq e).readPlace)
          · split
            next e₁ => exact .pair ((h.globalAccess.of_eq e).readPlace.dispatch.of_eq e₁)
            next e₁ => exact .pair ((h.globalAccess.of_eq e).readPlace.dispatch.of_eq e₁)
    next e => exact .pair (h.globalAccess.of_eq e)

theorem State.Canon.evictAt {c : Ctx} {o : MemOp} (h : s.Canon) : (s.evictAt c o).2.Canon := by
  unfold State.evictAt
  dsimp only
  split
  · exact h
  · exact .pair (h.foldl fun _ _ hs => hs.unhold)

theorem State.Canon.debugRecord {b : Nat} {pc : DWord} {cause t x : Nat} {w : Waiter} (h : s.Canon) :
    (s.debugRecord b pc cause t x w).2.Canon := .pair h.newRecord.pmEvent

theorem State.Canon.pmTick {fn n : Nat} (h : s.Canon) : (s.pmTick fn n).Canon := .ite h.freeNat.updFn h

theorem State.Canon.profile {fn w0 w1 w2 w3 : Nat} (h : s.Canon) : (s.profile fn w0 w1 w2 w3).Canon := by
  unfold State.profile
  dsimp only
  split
  · exact h
  · split
    · exact h.updFn
    · split
      · exact h.writeHome.updFn
      · exact h

end Sys2Proof.Machine
end

section
/-! PROOFS. Canonical memory is kept (spec/10 R190): coherence, fetches and what is ready. -/
namespace Sys2Proof.Machine

variable {s : State}

theorem State.Canon.setL2 {die line : Nat} {x : L2} (h : s.Canon) : (s.setL2 die line x).Canon := .of_mem h rfl

theorem State.Canon.setDir {line : Nat} {x : Dir} (h : s.Canon) : (s.setDir line x).Canon := .of_mem h rfl

theorem State.Canon.setFilter {die line : Nat} {x : List (Nat × Nat)} (h : s.Canon) :
    (s.setFilter die line x).Canon := .of_mem h rfl

theorem State.Canon.recallLine {die line : Nat} (h : s.Canon) : (s.recallLine die line).Canon := by
  unfold State.recallLine
  refine h.foldl fun _ _ hs => ?_
  split
  · exact .of_mem hs.publishUnit rfl
  · exact hs

theorem State.Canon.moveL2 {die line : Nat} {x : L2} (h : s.Canon) : (s.moveL2 die line x).Canon :=
  .ite (.setL2 (.ite h h.recallLine)) (.setFilter (.setL2 (.ite h h.recallLine)))

theorem State.Canon.wroteBack {line : Nat} (h : s.Canon) : (s.wroteBack line).Canon := h.mark.llcTake

theorem State.Canon.homeWbm {d line : Nat} (h : s.Canon) : (s.homeWbm d line).Canon :=
  .ite h.setDir.wroteBack (.ite h.setDir.wroteBack h)

theorem State.Canon.homePutc {d line : Nat} (h : s.Canon) : (s.homePutc d line).Canon :=
  .ite h.setDir (.ite h.setDir (.ite h.setDir h))

theorem State.Canon.homeTakes {die line : Nat} {x : L2} (h : s.Canon) : (s.homeTakes die line x).Canon := by
  unfold State.homeTakes
  split
  · exact h.homeWbm
  · exact h.homeWbm
  · exact h.homePutc
  · exact h.homePutc
  · exact h

theorem State.Canon.evictLine {die line : Nat} (h : s.Canon) : (s.evictLine die line).Canon := by
  unfold State.evictLine
  dsimp only
  split
  · split
    · exact h.moveL2
    · simp only [State.Canon]
      exact h.moveL2
  · exact h.moveL2.homeTakes

theorem State.Canon.backInvalidate {die line : Nat} (h : s.Canon) : (s.backInvalidate die line).Canon := by
  unfold State.backInvalidate
  exact ((h.recallLine.foldl fun _ _ hs => hs.pmEvent).foldl fun _ _ hs => hs.dropClean).evictLine

theorem State.Canon.fillLine {die line : Nat} {x : L2} (h : s.Canon) : (s.fillLine die line x).Canon := by
  unfold State.fillLine
  dsimp only
  split
  · exact .moveL2 (.of_mem h rfl)
  · split
    · exact .moveL2 (.of_mem h rfl)
    · refine .setFilter (.setL2 ?_)
      split
      · exact .ite (.of_mem h rfl) (.backInvalidate (.of_mem h rfl))
      · exact .of_mem h rfl

theorem State.Canon.leaveL2 {die line : Nat} (h : s.Canon) : (s.leaveL2 die line).Canon :=
  .ite (.ite h.cleanDecaf.setDecaf h) (.evictLine (.ite h.cleanDecaf.setDecaf h))

theorem State.Canon.trimSlice {die slice a : Nat} (h : s.Canon) : (s.trimSlice die slice a).Canon := by
  induction a generalizing s with
  | zero => exact h
  | succ f ih =>
    unfold State.trimSlice
    exact .ite h (ih h.freeNat.leaveL2)

theorem State.Canon.trimL2 (h : s.Canon) : s.trimL2.Canon := .ite h (h.foldl fun _ _ hs => hs.trimSlice)

theorem State.Canon.trimLlc (h : s.Canon) : s.trimLlc.Canon := .ite h (h.foldl fun _ _ hs => hs.llcEvict)

theorem State.Canon.txnDone {x : Txn} (h : s.Canon) : (s.txnDone x).Canon :=
  .foldl (.fillLine (.setDir (.of_mem h rfl))) fun _ _ hs => hs.homeTakes

theorem State.Canon.txnStart {x : Txn} (h : s.Canon) : (s.txnStart x).Canon := .ite h.txnDone (.of_mem h rfl)

theorem State.Canon.readShare {d line : Nat} (h : s.Canon) : (s.readShare d line).Canon := by
  unfold State.readShare
  dsimp only
  split
  · exact h.txnStart
  · exact h.txnStart
  · exact .ite h h.txnStart

theorem State.Canon.readOwn {d line : Nat} {r : Req} (h : s.Canon) : (s.readOwn d line r).Canon := by
  unfold State.readOwn
  dsimp only
  split
  · exact h.txnStart
  · exact h.txnStart
  · exact .ite h h.txnStart
  · exact .ite h.txnStart h.txnStart

theorem State.Canon.snoop {die line kind : Nat} (h : s.Canon) : (s.snoop die line kind).Canon := by
  unfold State.snoop
  split
  · exact h
  · exact .ite (.txnDone (.ite h h.moveL2)) (.of_mem (.ite h h.moveL2) rfl)

theorem State.Canon.publishDie {die line : Nat} (h : s.Canon) : (s.publishDie die line).Canon :=
  h.foldl fun _ _ hs => hs.publishLine

theorem State.Canon.fillTurn {b va : Nat} (h : s.Canon) : (s.fillTurn b va).Canon := by
  unfold State.fillTurn
  dsimp only
  split
  · exact .ite (.l1Fill (.ite h.touch.fillDecaf h.touch)) h
  · exact h

theorem State.Canon.evictTurn {line : Nat} (h : s.Canon) : (s.evictTurn line).Canon := h.llcEvict

theorem State.Canon.sawCode {k : Block} {pa : Nat} {x : Word} (h : s.Canon) : (s.sawCode k pa x).Canon :=
  .of_mem h rfl

theorem State.Canon.freeOf {xs : List Word} (h : s.Canon) : (s.freeOf xs).2.Canon := by
  unfold State.freeOf
  split
  · exact h
  · exact h
  · exact .pair h.freeNat

theorem State.Canon.fetchWord {b t : Nat} {pc : DWord} (h : s.Canon) : (s.fetchWord b t pc).2.Canon := by
  unfold State.fetchWord
  split
  · exact h
  · split
    next e => exact .pair ((h.translate.of_eq e).touch.freeOf.sawCode)
    next e => exact .pair (h.translate.of_eq e)
    next e => exact .pair (h.translate.of_eq e)
    next e => exact .pair (.of_mem (h.translate.of_eq e) rfl)

theorem State.Canon.fetchMore {b t : Nat} {pc : DWord} {a : Nat} (h : s.Canon) : (s.fetchMore b t pc a).2.Canon := by
  induction a generalizing s pc with
  | zero => exact h
  | succ n ih =>
    unfold State.fetchMore
    split
    · next e =>
      have h₁ := ih (pc := pc + 4) (.of_eq e h.fetchWord)
      split
      · next e₂ => exact .pair (.of_eq e₂ h₁)
      · exact h₁
    · exact h.fetchWord

theorem State.Canon.fetchMem {b t : Nat} (h : s.Canon) : (s.fetchMem b t).2.Canon := by
  unfold State.fetchMem
  dsimp only
  split
  next e =>
    split
    next e₁ => exact .pair ((h.fetchWord.of_eq e).fetchMore.of_eq e₁)
    · exact (h.fetchWord.of_eq e).fetchMore
  · exact h.fetchWord

theorem State.Canon.fetch {b t : Nat} (h : s.Canon) : (s.fetch b t).2.Canon := by
  unfold State.fetch
  dsimp only
  split
  · next e =>
    refine .pair (.updWarp (.of_eq e ?_))
    split
    · exact .pair h.fetchMem
    · exact .itePair (.pair h.fetchMem) (.itePair (.pair h.freeBool) (.pair (.of_mem h.fetchMem rfl)))
  · split
    · exact .pair h.fetchMem
    · exact .itePair (.pair h.fetchMem) (.itePair (.pair h.freeBool) (.pair (.of_mem h.fetchMem rfl)))

theorem State.Canon.prefetchTurn {b t : Nat} {a : DWord} (h : s.Canon) : (s.prefetchTurn b t a).Canon := by
  unfold State.prefetchTurn
  split
  next e => exact State.Canon.of_eq e (.itePair h.fetchWord h)
  · exact h

theorem State.Canon.endWait {b t : Nat} (h : s.Canon) : (s.endWait b t).Canon := by
  unfold State.endWait
  dsimp only
  split
  · exact h
  · split
    · exact h.updThr
    · exact h.acquire.updThr
    · exact h.endMem
    · exact h

theorem State.Canon.reread {b t : Nat} (h : s.Canon) : (s.reread b t).Canon := by
  unfold State.reread
  dsimp only
  split
  · split
    · exact h
    · split
      next e => exact (h.waitAt.of_eq e).updThr.raiseAt
      next e => exact (h.waitAt.of_eq e).updThr.openLog.pendFault
      next e => exact h.waitAt.of_eq e
      next e => exact h.waitAt.of_eq e
  · exact h

theorem State.Canon.endWaits (h : s.Canon) : s.endWaits.Canon :=
  ((h.foldl fun _ _ hs => hs.endWait).foldl fun _ _ hs => hs.reread).foldl fun _ _ hs => .ite (hs.freeBool.foldl fun _
    _ hs₁ => hs₁.endWait) hs.freeBool

end Sys2Proof.Machine
end

section
/-! PROOFS. Canonical memory is kept (spec/10 R190): command processors, launches, queues and engines. -/
namespace Sys2Proof.Machine

variable {s : State}

theorem State.Canon.putPieces {ps : List (Nat × Nat)} {bs : List Byte} (h : s.Canon) : (s.putPieces ps bs).Canon := by
  induction ps generalizing s bs with
  | nil => exact h
  | cons p rest ih => exact ih h.writeHome

theorem State.Canon.cpWrite {fn : Nat} {va : DWord} {bs : List Byte} (h : s.Canon) :
    OkCanon (s.cpWrite fn va bs) := by
  unfold State.cpWrite
  cases s.cpPieces fn .write (bs.length / 65536 + 2) va bs.length with
  | error e => exact .error
  | ok l => exact .ok h.putPieces

theorem State.Canon.cpRecord {fn : Nat} {lid : Word} {va : DWord} {cause gpa : Nat} {w : Waiter} (h : s.Canon) :
    (s.cpRecord fn lid va cause gpa w).2.Canon := h.newRecord

theorem State.Canon.post {fn : Nat} {va : DWord} {bs : List Byte} (h : s.Canon) : (s.post fn va bs).Canon := by
  unfold State.post
  split
  next e =>
    dsimp only
    split
    next e₁ => exact (h.newId.of_eq e).cpWrite _ e₁
    · simp only [State.Canon]
      show State.Canon _
      exact (h.newId.of_eq e).cpRecord
    · exact .of_mem (h.newId.of_eq e) rfl
    · exact .of_mem (h.newId.of_eq e) rfl
    · exact h.newId.of_eq e

theorem State.Canon.postAgain (h : s.Canon) : s.postAgain.Canon := h.foldl fun _ _ hs => .post (.of_mem hs rfl)

theorem State.Canon.updQueue {fn n : Nat} {f : Queue → Queue} (h : s.Canon) : (s.updQueue fn n f).Canon := h.updFn

theorem State.Canon.updNotify {fn n : Nat} {f : Notify → Notify} (h : s.Canon) : (s.updNotify fn n f).Canon := h.updFn

theorem State.Canon.putWords {fn n : Nat} (h : s.Canon) : (s.putWords fn n).Canon := by
  unfold State.putWords
  dsimp only
  split
  next e => exact (h.cpWrite _ e).updQueue
  · exact .ite h.updQueue (.ite h.cpRecord.updQueue h.cpRecord.updQueue.updQueue)
  · exact .of_mem h rfl
  · exact h.updQueue
  · exact h

theorem State.Canon.setQueue {fn n : Nat} {f : Queue → Queue} (h : s.Canon) : (s.setQueue fn n f).Canon :=
  .ite h.updQueue h.updQueue.putWords

theorem State.Canon.irq {fn v : Nat} (h : s.Canon) : (s.irq fn v).Canon := .of_mem h rfl

theorem State.Canon.post3 {fn : Nat} {sig : Option DWord} {tag : Word} (h : s.Canon) :
    (s.post3 fn sig tag).Canon := by
  unfold State.post3
  split
  · exact .ite h.post h
  · exact h

theorem State.Canon.queueError {fn n err : Nat} {pos : Word} {sig : Option DWord} {tag : Word} (h : s.Canon) :
    (s.queueError fn n err pos sig tag).Canon := h.setQueue.irq.post3

theorem State.Canon.packetError {fn n err : Nat} (h : s.Canon) : (s.packetError fn n err).Canon := by
  unfold State.packetError
  dsimp only
  split
  · exact h.queueError
  · exact h.queueError

theorem State.Canon.accessError {fn n : Nat} {va : DWord} (h : s.Canon) : (s.accessError fn n va).Canon := by
  unfold State.accessError
  dsimp only
  split
  · exact h.queueError
  · exact h.queueError

theorem State.Canon.queueStop {fn n : Nat} {lid : Word} {e : CpStop} (h : s.Canon) :
    (s.queueStop fn n lid e).Canon := by
  unfold State.queueStop
  split
  · exact h.cpRecord.setQueue
  · exact h.packetError
  · exact h
  · exact .of_mem h rfl

theorem State.Canon.bindQueue {fn n : Nat} (h : s.Canon) : (s.bindQueue fn n).Canon := by
  unfold State.bindQueue
  dsimp only
  split
  · exact .ite h.queueError h.setQueue
  · exact h.queueError
  · exact h.queueStop

theorem State.Canon.unbindQueue {fn n : Nat} (h : s.Canon) : (s.unbindQueue fn n).Canon := h.setQueue

theorem State.Canon.withFill {fn n : Nat} {k : Word → State → State} (h : s.Canon)
    (hk : ∀ x s, s.Canon → (k x s).Canon) : (s.withFill fn n k).Canon := by
  unfold State.withFill
  dsimp only
  split
  · exact h
  · split
    · exact h.bindQueue
    · split
      · exact h.queueStop
      · exact .ite h.packetError (hk _ _ h)

theorem State.Canon.withPacket {fn n : Nat} {waiting : Bool} {type : Nat → Bool} {k : List Byte → State → State}
    (h : s.Canon) (hk : ∀ x s, s.Canon → (k x s).Canon) : (s.withPacket fn n waiting type k).Canon := by
  unfold State.withPacket
  refine h.withFill (fun _ _ hs => ?_)
  dsimp only
  split
  · exact hs
  · split
    · exact .ite (hk _ _ hs) hs
    · exact hs

theorem State.Canon.movePos {fn n : Nat} {p : Word} (h : s.Canon) : (s.movePos fn n p).Canon :=
  .ite h.freeNat.setQueue.unbindQueue h.freeNat.setQueue

theorem State.Canon.atOnce {fn n : Nat} {bs : List Byte} {next : Word} {effect : State → Except CpStop State}
    (h : s.Canon) (heffect : ∀ s, s.Canon → OkCanon (effect s)) : (s.atOnce fn n bs next effect).Canon := by
  unfold State.atOnce
  dsimp only
  split
  · exact h.queueStop
  · split
    · exact h.queueStop
    next e => exact ((heffect _ h) _ e).putPieces.movePos

theorem State.Canon.updWatch {n : Nat} {f : Watch → Watch} (h : s.Canon) : (s.updWatch n f).Canon := .of_mem h rfl

theorem State.Canon.flip {n : Nat} (h : s.Canon) : (s.flip n).Canon := h.updWatch

theorem State.Canon.zeroOld {n : Nat} (h : s.Canon) : (s.zeroOld n).Canon := h.setMem (Map.wf_clear _ _ _ _ h)

theorem State.Canon.cleanLine {die line : Nat} (h : s.Canon) : (s.cleanLine die line).Canon := by
  unfold State.cleanLine
  split
  · exact h.wroteBack.moveL2
  · exact h.wroteBack.moveL2.setDir
  · exact h

theorem State.Canon.finishTxns {p : Nat → Bool} (h : s.Canon) : (s.finishTxns p).Canon :=
  h.foldl fun _ _ hs => (hs.foldl fun _ _ hs₁ => hs₁.snoop)

theorem State.Canon.publishLines {p : Nat → Bool} (h : s.Canon) : (s.publishLines p).Canon :=
  h.foldl fun _ _ hs => (hs.foldl fun _ _ hs₁ => hs₁.publishLine)

theorem State.Canon.writeBackLines {p : Nat → Bool} (h : s.Canon) : (s.writeBackLines p).Canon := by
  unfold State.writeBackLines
  dsimp only
  refine .foldl (.foldl ?_ fun _ _ hs => hs.cleanLine) fun _ _ hs => hs.cleanDecaf
  simp only [State.Canon]
  show State.Canon _
  exact .foldl (.of_mem h.publishLines.finishTxns rfl) fun _ _ hs => hs.mark

theorem State.Canon.writeBackWindows {ns : List Nat} (h : s.Canon) : (s.writeBackWindows ns).Canon := h.writeBackLines

theorem State.Canon.planLaunch {a : Ask} {c : Checked} (h : s.Canon) : (s.planLaunch a c).2.Canon :=
  .itePair h (.pair (h.foldl fun _ _ hs => hs.flip.zeroOld))

theorem State.Canon.startLaunch {fn : Nat} {p : Plan} {o : Machine.Origin} (h : s.Canon) :
    (s.startLaunch fn p o).2.Canon := .pair (.of_mem h.updFn.writePA rfl)

theorem State.Canon.beginPlan {fn : Nat} {p : Plan} {o : Machine.Origin} (h : s.Canon) :
    (s.beginPlan fn p o).2.Canon := by
  unfold State.beginPlan
  split
  · exact .pair h.startLaunch
  · split
    · exact h
    next e => exact .pair ((h.cpWrite _ e).startLaunch)

theorem State.Canon.planRelaunch {a : Ask} {buf : DWord} {c : Checked} {p : Plan × State} (h : s.Canon)
    (e : s.planRelaunch a buf c = .ok p) : p.2.Canon := by
  unfold State.planRelaunch at e
  split at e
  · cases e
  · dsimp only at e
    split at e
    · cases e
    · cases e
      exact .foldl (.foldl h.writeBackWindows fun _ _ hs => hs.flip) fun _ _ hs => hs.zeroOld

theorem State.Canon.beginLaunch {a : Ask} {held : Option Plan} {o : Machine.Origin} (h : s.Canon) :
    (s.beginLaunch a held o).2.Canon := by
  unfold State.beginLaunch
  split
  · exact h.beginPlan
  · split
    · exact h
    · split
      · exact h.planLaunch.beginPlan
      · split
        · exact h
        · split
          · exact h
          · next e => exact (h.planRelaunch e).beginPlan

theorem State.Canon.updLaunch {fn : Nat} {lid : Word} {f : Launch → Launch} (h : s.Canon) :
    (s.updLaunch fn lid f).Canon := .of_mem h rfl

theorem State.Canon.exhaust {l : Launch} (h : s.Canon) : (s.exhaust l).Canon := by
  unfold State.exhaust
  refine h.foldl fun _ _ hs => ?_
  split
  · exact hs
  · exact .ite hs.writeHome hs

theorem State.Canon.closeHeader {l : Launch} {t : TraceRun} (h : s.Canon) : OkCanon (s.closeHeader l t) := by
  unfold State.closeHeader
  dsimp only
  split
  · exact .error
  · exact h.cpWrite

theorem State.Canon.dropLaunch {l : Launch} (h : s.Canon) : (s.dropLaunch l).Canon := by
  unfold State.dropLaunch
  dsimp only
  split
  · exact .of_mem (h.foldl fun _ _ hs => hs.dropBlock) rfl
  · exact .updQueue (.of_mem (h.foldl fun _ _ hs => hs.dropBlock) rfl)

theorem State.Canon.failHeader {l : Launch} (h : s.Canon) : (s.failHeader l).Canon := h.freeWord.freeWord.updLaunch

theorem State.Canon.failRecord {l : Launch} (h : s.Canon) : (s.failRecord l).Canon := by
  unfold State.failRecord
  dsimp only
  split
  · exact .ite h.dropLaunch h.dropLaunch.queueError
  · exact h.dropLaunch

theorem State.Canon.completeStop {l : Launch} {header : Bool} {e : CpStop} (h : s.Canon) :
    (s.completeStop l header e).Canon := by
  unfold State.completeStop
  split
  · split
    next e =>
      dsimp only
      split
      · exact (h.cpRecord.of_eq e).updLaunch.setQueue
      · exact (h.cpRecord.of_eq e).updLaunch
  · exact h
  · exact .of_mem h rfl
  · exact .ite h.failHeader h.failRecord

theorem State.Canon.popCarafe {die : Nat} (h : s.Canon) : (s.popCarafe die).Canon := h.updDie

theorem State.Canon.headCarafe {die : Nat} {f : Carafe → Carafe} (h : s.Canon) : (s.headCarafe die f).Canon :=
  h.updDie

theorem State.Canon.refuseCarafe {die : Nat} {e : Carafe} (h : s.Canon) : (s.refuseCarafe die e).Canon :=
  .ite h.popCarafe h.popCarafe.post

theorem State.Canon.carafeStop {die : Nat} {e : Carafe} {x : CpStop} (h : s.Canon) :
    (s.carafeStop die e x).Canon := by
  unfold State.carafeStop
  split
  · exact h.cpRecord.headCarafe
  · exact h.refuseCarafe
  · exact h
  · exact .of_mem h rfl

theorem State.Canon.syncQueues {fn : Nat} (h : s.Canon) : (s.syncQueues fn).Canon := h.foldl fun _ _ hs => hs.setQueue

theorem State.Canon.noticeQueues (h : s.Canon) : s.noticeQueues.Canon :=
  ((h.foldl fun _ _ hs => hs.syncQueues).foldl fun _ _ hs => (hs.foldl fun _ _ hs₁ => .ite hs₁.putWords
    hs₁)).postAgain

theorem State.Canon.packetLaunch {fn n : Nat} {a : Ask} {bs : List Byte} {pos : Word} (h : s.Canon) :
    (s.packetLaunch fn n a bs pos).Canon := by
  unfold State.packetLaunch
  dsimp only
  split
  next e => exact (h.beginLaunch.of_eq e).updQueue.movePos
  next e => exact h.beginLaunch.of_eq e
  next e => exact (h.beginLaunch.of_eq e).packetError
  next e => exact (h.beginLaunch.of_eq e).queueStop
  next e => exact (h.beginLaunch.of_eq e).updQueue.queueStop

theorem State.Canon.loopPacket {fn n : Nat} {bs : List Byte} {pos : Word} (h : s.Canon) :
    (s.loopPacket fn n bs pos).Canon := by
  unfold State.loopPacket
  dsimp only
  split
  · exact h.packetError
  · split
    · exact h.packetError
    · split
      · exact h.updQueue.movePos
      · exact h.atOnce (fun _ hs => .ok hs.updQueue)

theorem State.Canon.dropCopyPacket {fn n id : Nat} (h : s.Canon) : (s.dropCopyPacket fn n id).Canon :=
  .updQueue (.of_mem h rfl)

theorem State.Canon.failCopyPacket {fn n id : Nat} {pos : Word} (h : s.Canon) :
    (s.failCopyPacket fn n id pos).Canon := .ite h.dropCopyPacket.post3 h.dropCopyPacket.queueError

theorem State.Canon.engineWalk {core fn va : Nat} {kind : AccKind} (h : s.Canon) :
    (s.engineWalk core fn va kind).2.Canon := by
  unfold State.engineWalk
  dsimp only
  split
  · exact h
  · split
    · exact .pair h.cache
    · exact h

theorem State.Canon.engineByte {core fn : Nat} {va : DWord} {kind : AccKind} (h : s.Canon) :
    (s.engineByte core fn va kind).2.Canon := by
  unfold State.engineByte
  split
  · exact h
  · split
    next e => exact .pair (h.engineWalk.of_eq e)
    next e => exact .pair (h.engineWalk.of_eq e)
    next e => exact .pair (h.engineWalk.of_eq e)
    next e => exact .pair (.of_mem (h.engineWalk.of_eq e) rfl)

theorem State.Canon.enginePlaces {look : State → DWord → Access × State} {len : Nat} {va : DWord} (h : s.Canon)
    (hlook : ∀ s x, s.Canon → (look s x).2.Canon) : (s.enginePlaces look len va).2.Canon := by
  induction len generalizing s va with
  | zero => exact h
  | succ n ih =>
    unfold State.enginePlaces
    split
    · next e =>
      have h₁ := ih (va := va + 1) (.of_eq e (hlook _ _ h))
      split
      · next e₂ => exact .pair (.of_eq e₂ h₁)
      · exact h₁
    · next e => exact .pair (.of_eq e (hlook _ _ h))

theorem State.Canon.updCopy {id : Nat} {f : Copy → Copy} (h : s.Canon) : (s.updCopy id f).Canon := .of_mem h rfl

theorem State.Canon.copySide {q : Copy} {sp : Bool} {kind : AccKind} {va : DWord} (h : s.Canon) :
    (s.copySide q sp kind va).2.Canon := .itePair h h.engineByte

theorem State.Canon.report {b t : Nat} {code : Word} {aux pc : DWord} (h : s.Canon) :
    (s.report b t code aux pc).Canon := .ite h.updThr h

theorem State.Canon.stopCopy {q : Copy} {code : Word} {off : Nat} (h : s.Canon) : (s.stopCopy q code off).Canon := by
  unfold State.stopCopy
  split
  · exact h.failCopyPacket
  · exact .report (.ite h.updCopy (.of_mem h rfl))

theorem State.Canon.copyStop {q : Copy} {off : Nat} {a : Access} (h : s.Canon) : (s.copyStop q off a).Canon := by
  unfold State.copyStop
  split
  · refine .updCopy ?_
    split
    · exact h.newRecord
    · exact h.newRecord
  · exact h.stopCopy
  · exact h

theorem State.Canon.engineRead {q : Copy} {p : Place} (h : s.Canon) : (s.engineRead q p).2.Canon := by
  unfold State.engineRead
  split
  · exact .pair h.touch
  · exact .pair h.readPlace

theorem State.Canon.engineReads {q : Copy} {ps : List Place} (h : s.Canon) : (s.engineReads q ps).2.Canon :=
  h.foldlPair fun _ _ hs => .pair hs.engineRead

theorem State.Canon.engineWrites {q : Copy} {ps : List Place} {bs : List Byte} (h : s.Canon) :
    (s.engineWrites q ps bs).Canon := by
  unfold State.engineWrites
  refine h.foldl fun _ _ hs => ?_
  split
  · exact hs.writeHome
  · exact hs.writePlace

theorem State.Canon.noteCopy {q : Copy} {va : DWord} {n : Nat} (h : s.Canon) : (s.noteCopy q va n).Canon :=
  .ite h h.note

theorem State.Canon.landed {id n : Nat} (h : s.Canon) : (s.landed id n).Canon := by
  unfold State.landed
  split
  · exact h
  · exact .ite (.of_mem h.onObject rfl) h.onObject

theorem State.Canon.setLink {l : Link} (h : s.Canon) : (s.setLink l).Canon := .of_mem h rfl

theorem State.Canon.send {kind : Nat} {f : Frame} (h : s.Canon) : (s.send kind f).Canon := .of_mem h rfl

theorem State.Canon.sendNumbered {port peer : Nat} {f : Frame} {tries : optParam Nat 0} (h : s.Canon) :
    (s.sendNumbered port peer f tries).Canon := h.setLink.send

theorem State.Canon.sendNote {q : Copy} (h : s.Canon) : (s.sendNote q).Canon :=
  .ite h (.ite h.stopCopy h.freeNat.sendNumbered)

theorem State.Canon.sendData {q : Copy} {o : Nat} (h : s.Canon) : (s.sendData q o).Canon := by
  unfold State.sendData
  dsimp only
  split
  · exact h.stopCopy
  · split
    · exact h
    · split
      next e => exact ((h.enginePlaces (fun _ _ hs => hs.copySide)).of_eq e).copyStop
      next e =>
        exact ((h.enginePlaces (fun _ _ hs => hs.copySide)).of_eq e).noteCopy.engineReads.freeNat.updCopy.sendNumbered

theorem State.Canon.noticeLanding {b i : Nat} (h : s.Canon) : (s.noticeLanding b i).Canon := by
  unfold State.noticeLanding
  split
  · exact h
  · exact .ite (.ite h h.updBlk) (.ite h h.freeWord.updBlk)

theorem State.Canon.noticeLandings {b : Nat} (h : s.Canon) : (s.noticeLandings b).Canon :=
  .ite h ((h.foldl fun _ _ hs => hs.noticeLanding).updBlk)

theorem State.Canon.drainMerge {d : Drain} {p : Place} {n : Nat} {m : Merge} (h : s.Canon) :
    (s.drainMerge d p n m).2.Canon := by
  unfold State.drainMerge
  split
  · exact h.merge
  · exact .pair h.updBlk

theorem State.Canon.addDrain {d : Drain} {td : DrainTy} {rm : Rm} (h : s.Canon) : (s.addDrain d td rm).2.Canon :=
  h.foldlPair fun _ _ hs => .pair hs.drainMerge

theorem State.Canon.drainWrite {d : Drain} {p : Place} {bs mask : List Byte} (h : s.Canon) :
    (s.drainWrite d p bs mask).Canon := .ite h.writePlace (h.foldl fun _ _ hs => hs.drainMerge)

theorem State.Canon.creditDrain {d : Drain} {n : Nat} (h : s.Canon) : (s.creditDrain d n).Canon := by
  unfold State.creditDrain
  split
  · exact h.updArrival
  · exact h

theorem State.Canon.drainDone {d : Drain} {fl : Flags} (h : s.Canon) : (s.drainDone d fl).Canon :=
  .updBlk (.foldl (.of_mem h rfl) fun _ _ hs => hs.putScale)

theorem State.Canon.dropExport {x : Export} (h : s.Canon) : (s.dropExport x).Canon :=
  .foldl (.of_mem h rfl) fun _ _ hs => hs.releaseQuiet

theorem State.Canon.exportStop {x : Export} {a : Access} (h : s.Canon) : (s.exportStop x a).Canon := by
  unfold State.exportStop
  split
  · dsimp only
    simp only [State.Canon]
    show State.Canon _
    exact h.newRecord
  · exact h.freeWord.dropExport.report
  · exact h

theorem State.Canon.sendAcks (h : s.Canon) : s.sendAcks.Canon :=
  .ite h (h.foldl fun _ _ hs => .ite hs.setLink.send hs)

theorem State.Canon.nak {f : Frame} {reason : Nat} (h : s.Canon) : (s.nak f reason).Canon := h.send

theorem State.Canon.took {f : Frame} (h : s.Canon) : (s.took f).Canon := h.setLink

theorem State.Canon.againAck {f : Frame} (h : s.Canon) : (s.againAck f).Canon := h.setLink.sendAcks

theorem State.Canon.ackOne {port : Nat} {f : Frame} (h : s.Canon) : (s.ackOne port f).Canon := by
  unfold State.ackOne
  split
  · split
    · exact .of_mem h rfl
    · exact h
  · split
    · exact h
    · exact .landed (.ite h.updCopy.sendNumbered h.updCopy)

theorem State.Canon.dropFrames {xid : Nat} (h : s.Canon) : (s.dropFrames xid).Canon := .of_mem h rfl

end Sys2Proof.Machine
end

section
/-! PROOFS. Canonical memory is kept (spec/10 R190): blocks, saving, recovery, preemption and faults. -/
namespace Sys2Proof.Machine

variable {s : State}

theorem State.Canon.completePend {b : Nat} {p : Pending} (h : s.Canon) : (s.completePend b p).Canon :=
  h.updBlk.pendFlags.dropPend

theorem State.Canon.regroup {part : Nat} (h : s.Canon) : (s.regroup part).Canon := by
  unfold State.regroup
  dsimp only
  refine .foldl (.foldl ((h.foldl fun _ _ hs => hs.updBlk).foldl fun _ _ hs => ?_) fun _ _ hs => hs.updWarp)
    fun _ _ hs => ?_
  · exact .ite (.of_mem hs.updWarp rfl) hs
  · exact .of_mem hs.updWarp rfl

theorem State.Canon.occNotice {core : Nat} (h : s.Canon) : (s.occNotice core).Canon := .ite h h.writeHome

theorem State.Canon.giveUp {b : Nat} (h : s.Canon) : (s.giveUp b).Canon := .ite h h.freeGroups.dropLines

theorem State.Canon.sweepDead (h : s.Canon) : s.sweepDead.Canon :=
  h.foldl fun _ _ hs => .ite hs.giveUp.updBlk.occNotice hs

theorem State.Canon.tracePage {k : Block} (h : s.Canon) : (s.tracePage k).2.Canon := by
  unfold State.tracePage
  split
  next e => exact .pair (h.auxOf.of_eq e)

theorem State.Canon.failTrace {b : Nat} (h : s.Canon) : (s.failTrace b).Canon := by
  unfold State.failTrace
  dsimp only
  exact .ite h h.tracePage.updBlk.updLaunch.addStop

theorem State.Canon.writeRecord {b : Nat} (h : s.Canon) : (s.writeRecord b).Canon := by
  unfold State.writeRecord
  dsimp only
  split
  · split
    · exact h
    · split
      next e => exact (h.cpWrite _ e).updBlk
      · exact h.newRecord
      · exact h.failTrace
      · exact h
      · exact .of_mem h rfl
  · exact h.updBlk

theorem State.Canon.regValues {b w r : Nat} (h : s.Canon) : (s.regValues b w r).2.Canon := by
  unfold State.regValues
  dsimp only
  split
  · exact h
  · exact h
  · exact h.foldlPair fun _ _ hs => .itePair hs (.pair hs.freeBytes)

theorem State.Canon.excImage {th : Thread} (h : s.Canon) : (s.excImage th).2.Canon := .pair h.freeBytes

theorem State.Canon.secBytes {b : Nat} {x : Sec} (h : s.Canon) : (s.secBytes b x).2.Canon := by
  unfold State.secBytes
  dsimp only
  split
  · exact h
  · exact .pair h.freeBytes
  · exact h.foldlPair fun _ _ hs => .pair hs.excImage
  · exact h
  · exact h.foldlPair fun _ _ hs => .pair hs.regValues
  · exact .pair h.freeBytes
  · exact h.freeBytes

theorem State.Canon.writeImage {b off : Nat} (h : s.Canon) : (s.writeImage b off).Canon :=
  (h.foldl fun _ _ hs => hs.secBytes.writeHome).updBlk

theorem State.Canon.refreshImage {b : Nat} (h : s.Canon) : (s.refreshImage b).Canon := by
  unfold State.refreshImage
  split
  · exact h.writeImage
  · exact h

theorem State.Canon.freePositions {b : Nat} (h : s.Canon) : (s.freePositions b).Canon :=
  h.foldl fun _ _ hs => (hs.foldl fun _ _ hs₁ => (hs₁.foldl fun _ _ hs₂ => hs₂.freeWord.updBlk))

theorem State.Canon.restoreImage {b : Nat} (h : s.Canon) : (s.restoreImage b).Canon := by
  unfold State.restoreImage
  dsimp only
  split
  · exact h
  · exact (h.foldl fun _ _ hs => hs.updBlk).freePositions

theorem State.Canon.voidByte {b : Nat} {p : Place} (h : s.Canon) : (s.voidByte b p).Canon := by
  unfold State.voidByte
  dsimp only
  split
  · exact .updBlk (.of_mem h rfl)
  · exact .ite (.store (.of_mem h rfl)) (.writePA (.of_mem h rfl))

theorem State.Canon.voidBytes {b : Nat} {look : State → Nat → Access × State} {os : List Nat} (h : s.Canon)
    (hlook : ∀ s x, s.Canon → (look s x).2.Canon) : (s.voidBytes b look os).Canon := by
  unfold State.voidBytes
  refine h.foldl fun _ _ hs => ?_
  split
  next e => exact ((hlook _ _ hs).of_eq e).voidByte
  next e => exact (hlook _ _ hs).of_eq e

theorem State.Canon.voidCopy {q : Copy} (h : s.Canon) : (s.voidCopy q).Canon :=
  .ite (.of_mem (.of_mem h rfl) rfl) (.voidBytes (.of_mem h rfl) (fun _ _ hs => hs.copySide))

theorem State.Canon.voidExport {x : Export} (h : s.Canon) : (s.voidExport x).Canon :=
  h.dropExport.voidBytes (fun _ _ hs => hs.engineByte)

theorem State.Canon.voidLanding {b : Nat} {l : Landing} (h : s.Canon) : (s.voidLanding b l).Canon := h.freeWord.updBlk

theorem State.Canon.leaveLog {b : Nat} {ts : List Nat} {p : Pending} {id : Nat} (h : s.Canon) :
    (s.leaveLog b ts p id).Canon := .ite (.of_mem h.dropPend rfl) (.of_mem h.updPend rfl)

theorem State.Canon.cancelThreads {b : Nat} {ts : List Nat} (h : s.Canon) : (s.cancelThreads b ts).Canon := by
  unfold State.cancelThreads
  refine .updThrs (.foldl (((((h.foldl fun _ _ hs => hs.voidCopy).foldl fun _ _ hs => hs.voidExport).foldl
    fun _ _ hs => hs.updArrival).foldl fun _ _ hs => hs.voidLanding).updBlk.convCancel.foldl fun _ _ hs => ?_)
    fun _ _ hs => hs.applyRed)
  split
  · exact hs.leaveLog
  · exact .ite hs.completePend hs

theorem State.Canon.dropWork {b : Nat} (h : s.Canon) : (s.dropWork b).Canon :=
  .of_mem (h.foldl fun _ _ hs => hs.dropExport) rfl

theorem State.Canon.undoJournal {b : Nat} (h : s.Canon) : (s.undoJournal b).Canon := by
  unfold State.undoJournal
  refine .updBlk (h.foldl fun _ _ hs => ?_)
  split
  · exact hs.releaseQuiet
  · exact hs.updEntry

theorem State.Canon.loseBarrier {b : Nat} (h : s.Canon) : (s.loseBarrier b).Canon :=
  h.foldl fun _ _ hs => (hs.foldl fun _ _ hs₁ => hs₁.raiseAt)

theorem State.Canon.killDead {b : Nat} (h : s.Canon) : (s.killDead b).Canon :=
  h.dropWork.undoJournal.updBlk.updLaunch.loseBarrier.sweepDead

theorem State.Canon.failLaunch {fn : Nat} {lid : Word} {r : Rec} {ms : List (Nat × List Nat)} (h : s.Canon) :
    (s.failLaunch fn lid r ms).Canon := by
  unfold State.failLaunch
  dsimp only
  split
  · exact (h.foldl fun _ _ hs => hs.cancelThreads.commit.updThrs.updBlk).foldl fun _ _ hs => hs.dropBlock
  · exact ((h.foldl fun _ _ hs => hs.cancelThreads.commit.updThrs.updBlk).foldl fun _ _ hs =>
      hs.dropBlock).exhaust.updLaunch

theorem State.Canon.steerBlock {b : Nat} {ts : List Nat} {r : Rec} {level : Option Nat} {catchPc : DWord}
    (h : s.Canon) : (s.steerBlock b ts r level catchPc).Canon :=
  .updBlk (.foldl (.ite h.cancelThreads.commit h.cancelThreads) fun _ _ hs => hs.updThr)

theorem State.Canon.steer {ms : List (Nat × List Nat)} {r : Rec} {level : Option Nat} {catchPc : DWord} (h : s.Canon) :
    (s.steer ms r level catchPc).Canon := (h.foldl fun _ _ hs => hs.steerBlock).foldl fun _ _ hs => hs.acquire

theorem State.Canon.sweepStops (h : s.Canon) : s.sweepStops.Canon := .of_mem h rfl

theorem State.Canon.stopLevel {fn : Nat} {lid : Word} {level : Option Nat} {ms : List (Nat × List Nat)} (h : s.Canon) :
    (s.stopLevel fn lid level ms).Canon := by
  unfold State.stopLevel
  dsimp only
  split
  · exact h.steer
  · refine .foldl ?_ fun _ _ hs => hs.killDead
    split
    · exact h.failLaunch
    · exact .ite h.failLaunch h.steer.updLaunch

theorem State.Canon.machineCheck {c : Check} (h : s.Canon) : (s.machineCheck c).Canon := h.updDie

theorem State.Canon.releaseRecords {b : Nat} (h : s.Canon) : (s.releaseRecords b).Canon := .of_mem h rfl

theorem State.Canon.killAgain {b : Nat} (h : s.Canon) : (s.killAgain b).Canon := by
  unfold State.killAgain
  dsimp only
  split
  · exact h
  · exact .updBlk (.ite h.dropWork.undoJournal.releaseRecords.giveUp
      h.dropWork.undoJournal.releaseRecords.giveUp.occNotice)

theorem State.Canon.raiseHw {b t : Nat} {code : Word} {aux : Aux} (h : s.Canon) : (s.raiseHw b t code aux).Canon :=
  .ite h.updThr.raiseAt h.auxOf.updLaunch.addStop

theorem State.Canon.consume {b t : Nat} {code : Word} {aux : Aux} {kind pa : Nat} (h : s.Canon) :
    (s.consume b t code aux kind pa).Canon :=
  .ite ((h.machineCheck.foldl fun _ _ hs => hs.killAgain).sweepStops) h.machineCheck.raiseHw.sweepStops

theorem State.Canon.writeDump {cause : Nat} (h : s.Canon) : (s.writeDump cause).Canon := h.freeWord.freeWord.writeHome

theorem State.Canon.fatal {c : Check} (h : s.Canon) : (s.fatal c).Canon := by
  unfold State.fatal
  dsimp only
  refine .writeDump ?_
  simp only [State.Canon]
  show State.Canon _
  exact h.machineCheck

theorem State.Canon.loseUnit {b : Nat} (h : s.Canon) : (s.loseUnit b).Canon := by
  unfold State.loseUnit
  dsimp only
  split
  · exact h.dropBlock
  · split
    · exact h.unhold
    · exact h.leaveCore
    · exact .ite h h.releaseRecords.killDead

theorem State.Canon.loseCore {core : Nat} {part : Option Nat} (h : s.Canon) : (s.loseCore core part).Canon :=
  .ite ((h.updCore.foldl fun _ _ hs => hs.loseUnit).sweepStops.emptyCore) ((h.updCore.foldl fun _ _ hs =>
    hs.loseUnit).sweepStops)

theorem State.Canon.switchIn {region fn : Nat} (h : s.Canon) : (s.switchIn region fn).Canon :=
  h.updRegion.foldl fun _ _ hs => hs.updCore

theorem State.Canon.switchOut {region : Nat} (h : s.Canon) : (s.switchOut region).Canon := by
  unfold State.switchOut
  split
  · exact h
  · exact (h.foldl fun _ _ hs => hs.updCore).updRegion

theorem State.Canon.saveBlock {b : Nat} (h : s.Canon) : (s.saveBlock b).Canon :=
  .ite h.updBlk.leaveCore.refreshImage h.updBlk.leaveCore.writeImage

theorem State.Canon.putBack {b core : Nat} {parts : List Nat} (h : s.Canon) : (s.putBack b core parts).Canon := by
  unfold State.putBack
  dsimp only
  simp only [State.Canon]
  show State.Canon _
  exact h.restoreImage.updBlk.fillGroups

theorem State.Canon.dropLog {id : Nat} (h : s.Canon) : (s.dropLog id).Canon := .of_mem h rfl

/-- What `replayOps` keeps of an entry, where threads of it have faulted again. -/
theorem State.Canon.leaveReplay {b p id : Nat} {c : Prop} [Decidable c] {l : List LogEntry} {f : Pending → Pending}
    (h : s.Canon) : State.Canon
      (if c then (s.dropPend b p).dropLog id else State.updPend { s with oplog := l } b p f) :=
  .ite h.dropPend.dropLog (.updPend (.of_mem h rfl))

theorem State.Canon.replayOps {e : LogEntry} {p : Pending} (h : s.Canon) : (s.replayOps e p).Canon := by
  unfold State.replayOps
  dsimp only
  generalize er : s.runOps _ e.ops = r
  have hr : r.2.Canon := er ▸ h.runOps fun _ _ hs => .itePair hs hs.memOp
  exact .ite (.leaveReplay (.recordFaults (hr.foldl fun _ _ hs => hs.raiseAll)))
    (.ite (.updBlk (.newId (.leaveReplay (.recordFaults (hr.foldl fun _ _ hs => hs.raiseAll)))))
      (.advance (.updBlk (.leaveReplay (.recordFaults (hr.foldl fun _ _ hs => hs.raiseAll))))))

theorem State.Canon.unstopLog {b w : Nat} (h : s.Canon) : (s.unstopLog b w).Canon := h.updWarp

theorem State.Canon.replay {e : LogEntry} {p : Pending} (h : s.Canon) : (s.replay e p).Canon := by
  unfold State.replay
  dsimp only
  split
  · exact h.dropLog.elemsDone
  · exact h.dropLog.elemsDone
  · exact .ite h.dropLog.cpldRun h
  · exact .ite (.ite h h.convPerform) h.replayOps

theorem State.Canon.failLog {e : LogEntry} (h : s.Canon) : (s.failLog e).Canon := by
  unfold State.failLog
  split
  · exact h.dropLog
  · exact .ite h.dropPend.dropLog.raiseAll.refreshImage ((h.leaveLog.foldl fun _ _ hs => hs.raiseAt).refreshImage)

theorem State.Canon.verdictLog {r : Record} {id : Nat} {retry : Bool} (h : s.Canon) :
    (s.verdictLog r id retry).Canon := by
  unfold State.verdictLog
  split
  · exact h
  · exact .ite (.failLog (.of_mem h rfl)) (.of_mem h rfl)

theorem State.Canon.verdictCopy {r : Record} {id : Nat} {retry : Bool} (h : s.Canon) :
    (s.verdictCopy r id retry).Canon := by
  unfold State.verdictCopy
  split
  · exact .ite h (.ite h.updCopy h.stopCopy)
  · exact .ite h (.ite (.of_mem h rfl) h.exportStop)
  · exact h

theorem State.Canon.verdictTrap {r : Record} {b : Nat} {ts : List Nat} {retry : Bool} (h : s.Canon) :
    (s.verdictTrap r b ts retry).Canon := by
  unfold State.verdictTrap
  refine h.foldl fun _ _ hs => ?_
  split
  · exact .ite hs.updThr.advance hs
  · exact hs

theorem State.Canon.verdictComplete {r : Record} {fn : Nat} {lid : Word} {retry : Bool} (h : s.Canon) :
    (s.verdictComplete r fn lid retry).Canon := by
  unfold State.verdictComplete
  split
  · exact h
  · split
    · exact h
    · split
      · exact h.updLaunch.syncQueues
      · split
        · split
          · exact h.failHeader
          · exact h.failRecord
        · exact h.failRecord

theorem State.Canon.resolve {r : Record} {retry : Bool} (h : s.Canon) : (s.resolve r retry).Canon := by
  unfold State.resolve
  dsimp only
  split
  · exact .verdictLog (.of_mem h rfl)
  · exact .ite (.of_mem h rfl) (.foldl (.of_mem h rfl) fun _ _ hs => hs.raiseAt)
  · exact .verdictCopy (.of_mem h rfl)
  · exact .verdictTrap (.of_mem h rfl)
  · exact .updWarp (.of_mem h rfl)
  · exact .ite (.of_mem h rfl) (.ite (.syncQueues (.updQueue (.of_mem h rfl))) (.accessError (.of_mem h rfl)))
  · split
    · exact .ite (.of_mem h rfl) (.ite (.headCarafe (.of_mem h rfl)) (.refuseCarafe (.of_mem h rfl)))
    · exact .of_mem h rfl
  · exact .verdictComplete (.of_mem h rfl)
  · split
    · exact .of_mem h rfl
    · exact .ite (.post (.of_mem h rfl)) (.of_mem h rfl)
  · exact .ite (.of_mem h rfl) (.failTrace (.of_mem h rfl))
  · exact .of_mem h rfl

theorem State.Canon.recheckRecords {fn : Nat} (h : s.Canon) : (s.recheckRecords fn).Canon :=
  .ite h (h.foldl fun _ _ hs => .ite hs.resolve hs)

theorem State.Canon.verdict {fn : Nat} {index : Word} {retry : Bool} (h : s.Canon) :
    (s.verdict fn index retry).Canon := by
  unfold State.verdict
  split
  · exact h
  · dsimp only
    split
    · exact h.updFn.resolve
    · exact h.updFn

theorem State.Canon.dropXlat {p : Xlat → Bool} (h : s.Canon) : (s.dropXlat p).Canon := .of_mem h rfl

theorem State.Canon.shootdown {fn kind : Nat} {v : DWord} {p : State → Xlat → Bool} (h : s.Canon) :
    (s.shootdown fn kind v p).Canon := .ite h h.updFn.dropXlat

theorem State.Canon.endBlock {b : Nat} (h : s.Canon) : (s.endBlock b).Canon :=
  .dropBlock (.ite (.dropLines (.releaseRecords (.dropWork (.undoJournal (.updBlk (.ite h h.cancelThreads))))))
    (.occNotice (.dropLines (.releaseRecords (.dropWork (.undoJournal (.updBlk (.ite h h.cancelThreads))))))))

theorem State.Canon.endLaunch {l : Launch} (h : s.Canon) : (s.endLaunch l).Canon := by
  unfold State.endLaunch
  refine .dropLaunch ?_
  split
  · exact (h.foldl fun _ _ hs => hs.endBlock).exhaust
  · split
    next e => exact (h.foldl fun _ _ hs => hs.endBlock).exhaust.cpWrite _ e
    · exact (h.foldl fun _ _ hs => hs.endBlock).exhaust.post
    · exact (h.foldl fun _ _ hs => hs.endBlock).exhaust

theorem State.Canon.endFunction {fn : Nat} (h : s.Canon) : (s.endFunction fn).Canon :=
  .foldl (.of_mem ((h.foldl fun _ _ hs => hs.endLaunch).foldl fun _ _ hs => hs.dropFrames) rfl) fun _ _ hs =>
    hs.switchOut

theorem State.Canon.disableQueues {fn : Nat} (h : s.Canon) : (s.disableQueues fn).Canon :=
  (h.foldl fun _ _ hs => hs.unbindQueue).updFn

theorem State.Canon.endStep {fn : Nat} (h : s.Canon) : (s.endStep fn).Canon :=
  .ite h (.ite h.endFunction (.ite h.endFunction.updFn h.endFunction.updFn.updFn.irq))

end Sys2Proof.Machine
end

section
/-! PROOFS. Canonical memory is kept (spec/10 R190): registers, management and the schedule. -/
namespace Sys2Proof.Machine

variable {s : State}

theorem State.Canon.zeroRange {pa n : Nat} (h : s.Canon) : (s.zeroRange pa n).Canon := by
  unfold State.zeroRange
  split
  · exact h.setMem (Map.wf_clear _ _ _ _ h)
  · exact h.of_mem rfl

theorem State.Canon.updRoast {n : Nat} {f : Roast → Roast} (h : s.Canon) : (s.updRoast n f).Canon := .of_mem h rfl

theorem State.Canon.updVault {n : Nat} {f : Vault → Vault} (h : s.Canon) : (s.updVault n f).Canon := .of_mem h rfl

theorem State.Canon.writeDebug {fn off : Nat} {v : DWord} (h : s.Canon) : (s.writeDebug fn off v).Canon :=
  .ite h.updFn (.ite h.updFn (.ite h.updFn (.ite h.updFn h)))

theorem State.Canon.writeRx {fn off : Nat} {v : DWord} (h : s.Canon) : (s.writeRx fn off v).Canon :=
  .ite h.updFn (.ite (.ite h h.updFn) (.ite (.ite h h.updFn) h))

theorem State.Canon.bpStop {b wp : Nat} {pc : DWord} {j t : Nat} (h : s.Canon) : (s.bpStop b wp pc j t).Canon :=
  h.debugRecord.updWarp

theorem State.Canon.select {b : Nat} {thrs : List Nat} {pc : DWord} {ws : List Nat} (h : s.Canon) :
    (s.select b thrs pc ws).Canon := .pmEvent (.pmEvent (.updWarp (.of_mem h rfl)))

theorem State.Canon.notice (h : s.Canon) : s.notice.Canon := by
  unfold State.notice
  exact (h.foldl fun _ _ hs => hs.noticeLandings).endWaits.noticeQueues.trimL2.trimLlc

end Sys2Proof.Machine
end

section
/-! PROOFS. Canonical memory is kept (spec/10 R190): instructions of a bundle. -/
namespace Sys2Proof.Machine

variable {s : State}

protected theorem NextCanon.issue {i : Instr} {body : Ctx → State → State} (h : s.Canon)
    (hbody : ∀ x s, s.Canon → (body x s).Canon) : NextCanon (issue i s body) := by
  unfold issue
  split
  · exact .finish h
  · split
    next e => exact .finish (h.enter.of_eq e)
    next e => exact .finish (.ite (h.enter.of_eq e) (hbody _ _ (h.enter.of_eq e)))

protected theorem NextCanon.alu {i : Instr} {w : Nat} {d : Dst} {tag : Block → Nat → Tag} {g : Block → Nat → Res}
    (h : s.Canon) : NextCanon (alu i s w d tag g) := .issue h (fun _ _ hs => hs.put.orFlags.advance)

protected theorem NextCanon.aluPred {i : Instr} {pd : Nat} {g : Block → Nat → Bool × Flags} (h : s.Canon) :
    NextCanon (aluPred i s pd g) := .issue h (fun _ _ hs => hs.putPred.orFlags.advance)

protected theorem NextCanon.opInstr {i : Instr} {hd : Hdr} {ll : Bool} {w : Nat} {d : Dst}
    {cap : Ctx → Block → Nat → MemOp} {f : Ctx → State → MemOp → AccOut × State} (h : s.Canon)
    (hf : ∀ x s y, s.Canon → (f x s y).2.Canon) : NextCanon (opInstr i s hd ll w d cap f) :=
  .issue h (fun _ _ hs => (hs.issueOps (fun _ _ hs₁ => (hf _ _ _ hs₁))))

protected theorem NextCanon.memInstr {i : Instr} {hd : Hdr} {ll : Bool} {w : Nat} {d : Dst}
    {cap : Ctx → Block → Nat → MemOp} (h : s.Canon) : NextCanon (memInstr i s hd ll w d cap) :=
  .opInstr h (fun _ _ _ hs => hs.memOp)

protected theorem NextCanon.aluLong {i : Instr} {hd : Hdr} {w : Nat} {d : Dst} {tag : Block → Nat → Tag}
    {g : Block → Nat → Res} (h : s.Canon) : NextCanon (aluLong i s hd w d tag g) :=
  .issue h (fun _ _ hs => hs.advance.pend)

protected theorem NextCanon.rdsrOp {i : Instr} {num : Nat} {d : Dst} (h : s.Canon) :
    NextCanon (rdsrOp i num d s) := by
  unfold rdsrOp
  exact .alu (.ite h.readCyc h)

protected theorem NextCanon.execMovs {hd : Hdr} {m : MovsForm} (h : s.Canon) : NextCanon (execMovs hd m s) := by
  unfold execMovs
  split
  · exact .issue h (fun _ _ hs => hs.put.advance)
  · exact .issue h (fun _ _ hs => hs.updBlk.advance)

protected theorem NextCanon.withDesc {td ts : CTy} {limit : Narrow → Bool} {body : Host.Outcome State Fault Refusal}
    (h : s.Canon) (hbody : NextCanon body) : NextCanon (withDesc td ts limit s body) := by
  unfold withDesc
  dsimp only
  split
  · exact .finish h.ill
  · exact hbody

protected theorem NextCanon.cvtOp {i : Instr} {sat : Bool} {td ts : CTy} {rm : Rm} {d : Dst} {b : Src} (h : s.Canon) :
    NextCanon (cvtOp i sat td ts rm d b s) := .withDesc h (.alu h)

protected theorem NextCanon.packOp {i : Instr} {td ts : CTy} {rm : Rm} {n : Nat} {d : Dst} {a c : Src} (h : s.Canon) :
    NextCanon (packOp i td ts rm n d a c s) := .withDesc h (.alu h)

protected theorem NextCanon.unpackOp {i : Instr} {td ts : CTy} {rm : Rm} {n : Nat} {d : Dst} {b : Src} (h : s.Canon) :
    NextCanon (unpackOp i td ts rm n d b s) := .withDesc h (.alu h)

protected theorem NextCanon.nopOp {i : Instr} (h : s.Canon) : NextCanon (nopOp i s) :=
  .issue h (fun _ _ hs => hs.advance)

protected theorem NextCanon.laneIssue {i : Instr} {m : Src} {body : Ctx → State → State} (h : s.Canon)
    (hbody : ∀ x s, s.Canon → (body x s).Canon) : NextCanon (laneIssue i m s body) := by
  unfold laneIssue
  split
  · exact .finish h
  · dsimp only
    split
    · exact .finish h
    · exact .ite (.finish h.raiseAll) (.finish (.ite h.raiseAll.advance (hbody _ _ h.raiseAll.advance)))

protected theorem NextCanon.tileIssue {i : Instr} {tiles : List Nat} {check : Block → Nat → Bool}
    {body : Ctx → State → State} (h : s.Canon) (hbody : ∀ x s, s.Canon → (body x s).Canon) :
    NextCanon (tileIssue i tiles check s body) :=
  .ite (.finish h.ill) (.ite (.finish h) (.ite (.finish h.illAll) (.laneIssue h (fun _ _ hs => (hbody _ _ hs)))))

protected theorem NextCanon.execCvinit {hd : Hdr} {n : Nat} {kind : CvKind} (h : s.Canon) :
    NextCanon (execCvinit hd n kind s) := by
  unfold execCvinit
  refine .issue h (fun _ _ hs => ?_)
  dsimp only
  split
  · exact hs.raiseAll
  · exact .ite hs.raiseAll hs.updBlk.advance

protected theorem NextCanon.convIssue {i : Instr} {n : Nat} (h : s.Canon) : NextCanon (convIssue i n s) := by
  unfold convIssue
  split
  · exact .finish h
  · exact .ite (.finish h.illAll) (.finish ((h.raiseAll.foldl fun _ _ hs => hs.signOne).convCheck))

protected theorem NextCanon.elemInstr {i : Instr} {hd : Hdr} {ty : Ty} {a : Src} {off : Word} {b : Src} {pc : Nat}
    (h : s.Canon) : NextCanon (elemInstr i hd ty a off b pc s) :=
  .laneIssue h (fun _ _ hs => .ite hs.raiseAll hs.elemsDone)

protected theorem NextCanon.roleInstr {hd : Hdr} {pd : Option Nat} {r : Nat} (h : s.Canon) :
    NextCanon (roleInstr hd pd r s) := by
  unfold roleInstr
  dsimp only
  split
  · exact .finish h
  · split
    · exact .finish h.illAll
    · split
      · exact .finish h.advance
      · split
        · exact .finish h.raiseAll
        · split
          · exact .finish h.raiseAll
          · split
            · refine .finish (.updBlk ?_)
              split
              · exact h.updThrs
              · exact h
            · split
              · refine .finish (.advance ?_)
                split
                · exact h.updThrs
                · exact h
              · exact .finish h.newId.updThrs

protected theorem NextCanon.execLaunchTry {hd : Hdr} {pd : Nat} {a b c : Src} (h : s.Canon) :
    NextCanon (execLaunchTry hd pd a b c s) := by
  unfold execLaunchTry
  refine .issue h fun x s hs => ?_
  dsimp only
  exact (hs.runOps fun _ _ hs => hs.launchAt).predOuts

protected theorem NextCanon.agentInstr {i : Instr} {pd : Nat} {cap : Ctx → Block → Nat → MemOp}
    {f : Ctx → State → MemOp → AccOut × State} (h : s.Canon) (hf : ∀ x s y, s.Canon → (f x s y).2.Canon) :
    NextCanon (agentInstr i pd cap f s) := by
  unfold agentInstr
  split
  · exact .finish h.raiseAll
  · refine .issue h (fun _ _ hs => ?_)
    split
    next e => exact ((hs.runOps (fun _ _ hs₁ => (hf _ _ _ hs₁))).of_eq e).predOuts

protected theorem NextCanon.tryInstr {level : Nat} {hd : Hdr} {off : Word} (h : s.Canon) :
    NextCanon (tryInstr level hd off s) := by
  unfold tryInstr
  dsimp only
  split <;>
  · refine .ite (.finish h) (.ite (.finish h.advance) ?_)
    iterate 5 refine .ite (.finish h.raiseAll) ?_
    exact .finish h.newId.updThrs.advance

protected theorem NextCanon.moded {modes : List Word} {i : Instr} {hd : Hdr} {body : Ctx → State → State}
    (h : s.Canon) (hbody : ∀ x s, s.Canon → (body x s).Canon) : NextCanon (moded modes i hd s body) :=
  .ite (.finish h.raiseAll) (.issue h (fun _ _ hs => (hbody _ _ hs)))

end Sys2Proof.Machine
end

section
/-! PROOFS. Canonical memory is kept (spec/10 R190): events. -/
namespace Sys2Proof.Machine

variable {s : State}

protected theorem NextCanon.execOwnershipRegister {core word : Nat} (h : s.Canon) :
    NextCanon (execOwnershipRegister core word s) := by
  unfold execOwnershipRegister
  split
  · refine .finish ?_
    split
    · exact .ite (.of_mem (.ite (.ite h h.publishUnit) (.moveL2 (.ite h h.publishUnit))) rfl) (.publishUnit (.of_mem
        (.ite (.ite h h.publishUnit) (.moveL2 (.ite h h.publishUnit))) rfl))
    · exact .ite (.of_mem (.ite h h.moveL2) rfl) (.publishUnit (.of_mem (.ite h h.moveL2) rfl))
  · exact .finish h

protected theorem NextCanon.execCctlComplete {id : Nat} (h : s.Canon) : NextCanon (execCctlComplete id s) := by
  unfold execCctlComplete
  split
  · exact .finish h
  · split
    · exact .finish h
    · exact .finish (.of_mem (.ite ((h.recallWords.foldl fun _ _ hs => hs.publishDie.cleanDecaf).foldl fun _ _ hs =>
        hs.setDecaf.dropClean) (h.recallWords.foldl fun _ _ hs => hs.publishDie.cleanDecaf)) rfl)

protected theorem NextCanon.execSflushComplete {id : Nat} (h : s.Canon) : NextCanon (execSflushComplete id s) := by
  unfold execSflushComplete
  split
  · exact .finish h
  · exact .ite (.finish h) (.finish (.of_mem h.recallWords rfl))

protected theorem NextCanon.execRedApply {id : Nat} (h : s.Canon) : NextCanon (execRedApply id s) := by
  unfold execRedApply
  split
  · exact .finish h
  · exact .ite (.finish h) (.finish h.applyRed)

protected theorem NextCanon.execTicketWrite {die : Nat} (h : s.Canon) : NextCanon (execTicketWrite die s) := by
  unfold execTicketWrite
  split
  · exact .finish h
  · exact .ite (.finish h) (.finish h.writeHome.writeHome.updLaunch)

protected theorem NextCanon.execLaunchComplete {fn lid : Nat} (h : s.Canon) :
    NextCanon (execLaunchComplete fn lid s) := by
  unfold execLaunchComplete
  split
  · exact .finish h
  · split
    · exact .finish h
    · dsimp only
      split
      · refine .finish ?_
        split
        · exact h.dropLaunch
        · split
          next e => exact (h.cpWrite _ e).dropLaunch
          · exact h.completeStop
      · split
        · exact .finish h.completeStop
        next e =>
          refine .finish ?_
          split
          · exact (h.closeHeader _ e).dropLaunch
          · split
            next e₁ => exact ((h.closeHeader _ e).cpWrite _ e₁).dropLaunch
            · exact (h.closeHeader _ e).completeStop

protected theorem NextCanon.execCarafeEntry {die : Nat} (h : s.Canon) : NextCanon (execCarafeEntry die s) := by
  unfold execCarafeEntry
  split
  · exact .finish h
  · split
    · exact .finish h
    · dsimp only
      split
      next e => exact .finish ((h.beginLaunch.of_eq e).popCarafe)
      next e => exact .finish (h.beginLaunch.of_eq e)
      next e => exact .finish ((h.beginLaunch.of_eq e).refuseCarafe)
      next e => exact .finish ((h.beginLaunch.of_eq e).carafeStop)
      next e => exact .finish ((h.beginLaunch.of_eq e).headCarafe.carafeStop)

theorem NextCanon.aperture {fn : Nat} {k : State → State} (h : s.Canon) (hk : ∀ s, s.Canon → (k s).Canon) :
    NextCanon (s.aperture fn k) := .finish (.ite h (.ite h.updFn (hk _ h)))

protected theorem NextCanon.execNotifyWrite {fn n : Nat} {v : Word} (h : s.Canon) :
    NextCanon (execNotifyWrite fn n v s) :=
  .aperture h (fun _ hs => .ite ((hs.updNotify.withFill (fun _ _ hs₁ => hs₁)).syncQueues) hs.updNotify)

protected theorem NextCanon.execNotifyBind {fn n : Nat} {v : DWord} (h : s.Canon) :
    NextCanon (execNotifyBind fn n v s) :=
  .aperture h (fun _ hs => .ite hs ((hs.updNotify.updQueue.withFill (fun _ _ hs₁ => hs₁)).syncQueues))

protected theorem NextCanon.execNotifyUnbind {fn n : Nat} {v : DWord} (h : s.Canon) :
    NextCanon (execNotifyUnbind fn n v s) :=
  .aperture h (fun _ hs => .ite hs.updNotify.updQueue hs.updNotify.unbindQueue.syncQueues)

protected theorem NextCanon.execPacketFetch {fn n : Nat} (h : s.Canon) : NextCanon (execPacketFetch fn n s) := by
  unfold execPacketFetch
  refine .finish (h.withFill (fun _ _ hs => ?_))
  dsimp only
  split
  · exact hs
  · split
    · exact hs.queueStop.syncQueues
    · exact hs.updQueue.syncQueues

protected theorem NextCanon.packetEvent {fn n : Nat} {waiting : Bool} {type : Nat} {ok : List Byte → Bool}
    {k : List Byte → Word → State → State} (h : s.Canon) (hk : ∀ x y s, s.Canon → (k x y s).Canon) :
    NextCanon (packetEvent fn n waiting type ok k s) :=
  .finish ((h.withPacket (fun _ _ hs => .ite (hk _ _ _ hs) hs.packetError)).syncQueues)

protected theorem NextCanon.execWaitPacketSatisfied {fn n : Nat} (h : s.Canon) :
    NextCanon (execWaitPacketSatisfied fn n s) := by
  unfold execWaitPacketSatisfied
  refine .packetEvent h (fun _ _ _ hs => ?_)
  split
  · exact hs.queueStop
  · exact .ite (hs.atOnce (fun _ hs₁ => .ok hs₁)) hs

protected theorem NextCanon.execSignal {fn n : Nat} (h : s.Canon) : NextCanon (execSignal fn n s) := by
  unfold execSignal
  refine .packetEvent h (fun _ _ _ hs => hs.atOnce (fun _ hs₁ => ?_))
  dsimp only
  split
  · exact .error
  · exact hs₁.cpWrite

protected theorem NextCanon.execCond {fn n : Nat} (h : s.Canon) : NextCanon (execCond fn n s) := by
  unfold execCond
  refine .packetEvent h (fun _ _ _ hs => ?_)
  split
  · exact hs.queueStop
  · exact hs.atOnce (fun _ hs₁ => .ok hs₁)

protected theorem NextCanon.execCopyPacketComplete {id : Nat} (h : s.Canon) :
    NextCanon (execCopyPacketComplete id s) := by
  unfold execCopyPacketComplete
  split
  · exact .finish h
  · split
    · exact .finish h
    · split
      · exact .finish h
      · split
        split
        · exact .finish h.dropCopyPacket
        · split
          next e => exact .finish ((h.cpWrite _ e).dropCopyPacket)
          · refine .finish ?_
            exact .of_mem (.of_mem (.of_mem h rfl) rfl) rfl
          · exact .finish h.failCopyPacket
          · exact .finish h
          · exact .finish (.of_mem h rfl)

protected theorem NextCanon.execCopyLanding {id n : Nat} (h : s.Canon) : NextCanon (execCopyLanding id n s) := by
  unfold execCopyLanding
  split
  · exact .finish h
  · dsimp only
    split
    · exact .finish h.sendNote
    · split
      · exact .finish h
      · split
        · exact .finish h.sendData
        · split
          next e => exact .finish (((h.enginePlaces (fun _ _ hs => hs.copySide)).of_eq e).copyStop)
          next e =>
            split
            next e₁ =>
              exact .finish (((((h.enginePlaces (fun _ _ hs => hs.copySide)).of_eq e).enginePlaces (fun _ _ hs =>
                hs.copySide)).of_eq e₁).copyStop)
            next e₁ =>
              exact .finish (((((h.enginePlaces (fun _ _ hs => hs.copySide)).of_eq e).enginePlaces (fun _ _ hs =>
                hs.copySide)).of_eq e₁).noteCopy.engineReads.engineWrites.updCopy.landed)

protected theorem NextCanon.execAsyncExceptionRaise {b thr : Nat} (h : s.Canon) :
    NextCanon (execAsyncExceptionRaise b thr s) := by
  unfold execAsyncExceptionRaise
  split
  · exact .finish h
  · exact .ite (.finish h) (.finish h.updThr.raiseExc)

protected theorem NextCanon.execCpldLanding {b i : Nat} (h : s.Canon) : NextCanon (execCpldLanding b i s) := by
  unfold execCpldLanding
  split
  · exact .finish h
  · exact .ite (.finish h) (.ite (.finish h.updBlk.updBlk) (.finish (.updBlk (.itePair h.updBlk.freeWord (.pair
      h.updBlk)))))

protected theorem NextCanon.execDrainWriteAccept {id : Nat} (h : s.Canon) :
    NextCanon (execDrainWriteAccept id s) := by
  unfold execDrainWriteAccept
  split
  · exact .finish h
  · split
    · exact .finish h.addDrain.creditDrain.drainDone
    · split
      · exact .finish h.drainDone
      · exact .ite (.finish h.drainWrite.creditDrain.drainDone) (.finish (.of_mem h.drainWrite.creditDrain rfl))

protected theorem NextCanon.execContentLanding {id n : Nat} (h : s.Canon) :
    NextCanon (execContentLanding id n s) := by
  unfold execContentLanding
  split
  · exact .finish h
  · split
    · exact .finish h
    · dsimp only
      split
      next e => exact .finish (((h.enginePlaces (fun _ _ hs => hs.engineByte)).of_eq e).exportStop)
      next e =>
        split
        · exact .finish ((((h.enginePlaces (fun _ _ hs => hs.engineByte)).of_eq e).foldl fun _ _ hs =>
            hs.writePlace).onObject.dropExport)
        · exact .finish (.of_mem ((((h.enginePlaces (fun _ _ hs => hs.engineByte)).of_eq e).foldl fun _ _ hs =>
            hs.writePlace).onObject) rfl)

protected theorem NextCanon.execReclaim {e : Nat} (h : s.Canon) : NextCanon (execReclaim e s) := by
  unfold execReclaim
  split
  · exact .finish (.ite h.reclaimEntry h)
  · exact .finish h

protected theorem NextCanon.execHostPathFence {b thr : Nat} (h : s.Canon) :
    NextCanon (execHostPathFence b thr s) := by
  unfold execHostPathFence
  split
  · exact .ite (.finish (.endWait (.sendAcks (.foldl (.of_mem h rfl) fun _ _ hs => hs.writeHome)))) (.finish h)
  · exact .finish h

protected theorem NextCanon.execData {f : Frame} (h : s.Canon) : NextCanon (execData f s) := by
  unfold execData
  split
  · exact .finish h
  · split
    · exact .finish h.nak
    · split
      · exact .finish h.againAck
      · dsimp only
        split
        · exact .finish h.nak
        · split
          · exact .finish h.newRecord
          · exact .finish h.nak
          · exact .finish h
          · exact .finish (.of_mem h rfl)
          · exact .finish (.sendAcks (.took (.of_mem h rfl)))

protected theorem NextCanon.execRxnote {f : Frame} (h : s.Canon) : NextCanon (execRxnote f s) := by
  unfold execRxnote
  split
  · exact .finish h
  · split
    · exact .finish h.nak
    · split
      · exact .finish h.againAck
      · dsimp only
        split
        · exact .finish h.nak
        · split
          · exact .finish h.newRecord
          · exact .finish h.nak
          · exact .finish h
          · exact .finish (.of_mem h rfl)
          · exact .finish (.sendAcks (.took (.putPieces (.foldl (.of_mem h rfl) fun _ _ hs => hs.writeHome))))

protected theorem NextCanon.execNakIntegrity {f : Frame} (h : s.Canon) : NextCanon (execNakIntegrity f s) := by
  unfold execNakIntegrity
  split
  · exact .finish h
  · split
    · exact .finish h
    · exact .finish h.send

protected theorem NextCanon.execNakRefused {f : Frame} (h : s.Canon) : NextCanon (execNakRefused f s) := by
  unfold execNakRefused
  split
  · exact .finish h
  · split
    · exact .finish h.dropFrames
    · exact .finish h.dropFrames.stopCopy

protected theorem NextCanon.execFrameRetransmitTimeout {port dmod seq : Nat} (h : s.Canon) :
    NextCanon (execFrameRetransmitTimeout port dmod seq s) := by
  unfold execFrameRetransmitTimeout
  dsimp only
  split
  · exact .finish h
  · split
    · exact .finish h.setLink.send
    · split
      · exact .finish h.setLink.sendNumbered
      · split
        · exact .finish h.setLink.dropFrames.stopCopy
        · exact .finish h.setLink

protected theorem NextCanon.execLongLatencyComplete {b n : Nat} (h : s.Canon) :
    NextCanon (execLongLatencyComplete b n s) := by
  unfold execLongLatencyComplete
  split
  · exact .finish h
  · exact .finish (.ite h.completePend h)

protected theorem NextCanon.execWarpPromotion {b w : Nat} (h : s.Canon) : NextCanon (execWarpPromotion b w s) := by
  unfold execWarpPromotion
  dsimp only
  split
  · exact .finish h
  · refine .finish ?_
    simp only [State.Canon]
    show State.Canon _
    refine .updWarp ?_
    split
    · exact .ite h.updWarp h
    · exact h

protected theorem NextCanon.execBlockEnd {b : Nat} (h : s.Canon) : NextCanon (execBlockEnd b s) := by
  unfold execBlockEnd
  dsimp only
  split
  · exact .finish (.ite h.writeRecord h)
  · exact .ite (.finish h) (.ite (.finish (.ite h.commit.writeRecord h.commit)) (.finish (.sweepDead (.dropBlock
      (.updLaunch (.occNotice (.dropLines (.ite h.commit.writeRecord h.commit))))))))

protected theorem NextCanon.execBaristaStart {core : Nat} {entry : DWord} {start : List Word} (h : s.Canon) :
    NextCanon (execBaristaStart core entry start s) := by
  unfold execBaristaStart
  dsimp only
  split
  · exact .finish h
  · split
    · exact .finish h.updBlk
    · exact .finish h.addBlock

protected theorem NextCanon.execRoleswGrant {part : Nat} (h : s.Canon) : NextCanon (execRoleswGrant part s) := by
  unfold execRoleswGrant
  split
  · exact .finish h
  · exact .finish (.ite h.updBlk h)

protected theorem NextCanon.execTryStopSteer {n : Nat} (h : s.Canon) : NextCanon (execTryStopSteer n s) := by
  unfold execTryStopSteer
  split
  · exact .finish h
  · dsimp only
    split
    · exact .finish h
    · split
      · exact .finish (.ite (h.foldl fun _ _ hs => (hs.foldl fun _ _ hs₁ => hs₁.voidResting)) (.of_mem (h.foldl
          fun _ _ hs => (hs.foldl fun _ _ hs₁ => hs₁.voidResting)) rfl))
      · exact .finish (.foldl (.sweepDead (.sweepStops (.stopLevel (.of_mem h rfl)))) fun _ _ hs => hs.refreshImage)

protected theorem NextCanon.execErrorConsumption {b thr pa : Nat} (h : s.Canon) :
    NextCanon (execErrorConsumption b thr pa s) := .ite (.finish (.consume (.of_mem h rfl))) (.finish h)

protected theorem NextCanon.execUnitOutOfService {u : UnitId} (h : s.Canon) :
    NextCanon (execUnitOutOfService u s) := by
  unfold execUnitOutOfService
  refine .finish ?_
  split
  · exact h.loseCore
  · exact h.loseCore
  · exact .of_mem h rfl

protected theorem NextCanon.execQuantumExpiry {region fn : Nat} (h : s.Canon) :
    NextCanon (execQuantumExpiry region fn s) := by
  unfold execQuantumExpiry
  dsimp only
  split
  · exact .finish h
  · split
    · exact .finish h.switchIn
    · exact .finish (.ite h h.updRegion)

protected theorem NextCanon.execPreemptRequest {region : Nat} (h : s.Canon) :
    NextCanon (execPreemptRequest region s) := by
  unfold execPreemptRequest
  dsimp only
  split
  · exact .finish h
  · split
    · exact .finish h.updRegion
    · split
      · exact .finish h
      · split
        · exact .finish (.ite (((h.foldl fun _ _ hs => hs.saveBlock).foldl fun _ _ hs =>
            hs.emptyCore).switchOut.switchIn) (((h.foldl fun _ _ hs => hs.saveBlock).foldl fun _ _ hs =>
            hs.emptyCore).switchOut))
        · exact .finish (((h.foldl fun _ _ hs => hs.saveBlock).foldl fun _ _ hs => hs.emptyCore).switchOut)

protected theorem NextCanon.execFaultReplay {id : Nat} (h : s.Canon) : NextCanon (execFaultReplay id s) := by
  unfold execFaultReplay
  split
  · exact .finish h
  · dsimp only
    split
    · exact .finish h
    · split
      · exact .finish (.replay (.ite (.unstopLog (.ite h h.failLog)) (.ite h h.failLog)))
      · exact .finish (.dropLog (.ite h h.failLog))

protected theorem NextCanon.execFaultRecordWrite {i : Nat} (h : s.Canon) : NextCanon (execFaultRecordWrite i s) := by
  unfold execFaultRecordWrite
  split
  · exact .finish h
  · dsimp only
    split
    · exact .finish h
    · split
      · exact .finish h.resolve
      · split
        · exact .finish h
        · split
          · refine .finish (.irq ?_)
            simp only [State.Canon]
            show State.Canon _
            exact h.writeHome.updFn
          · exact .finish h
          · exact .finish h.resolve

protected theorem NextCanon.execVerdictRetry {fn : Nat} {index : Word} (h : s.Canon) :
    NextCanon (execVerdictRetry fn index s) := .finish h.verdict

protected theorem NextCanon.execVerdictFail {fn : Nat} {index : Word} (h : s.Canon) :
    NextCanon (execVerdictFail fn index s) := .finish h.verdict

protected theorem NextCanon.execMovedBounce {b thr : Nat} (h : s.Canon) : NextCanon (execMovedBounce b thr s) := by
  unfold execMovedBounce
  split
  · exact .finish h
  · split
    · exact .finish h.updThr
    · exact .finish h

protected theorem NextCanon.execShootdownPage {fn : Nat} {v : DWord} (h : s.Canon) :
    NextCanon (execShootdownPage fn v s) := .finish h.shootdown

protected theorem NextCanon.execShootdownAll {fn : Nat} {v : DWord} (h : s.Canon) :
    NextCanon (execShootdownAll fn v s) := .finish h.shootdown

protected theorem NextCanon.execShootdownFrame {fn : Nat} {v : DWord} (h : s.Canon) :
    NextCanon (execShootdownFrame fn v s) := .finish (.ite h.shootdown h)

protected theorem NextCanon.execShootdownComplete {fn : Nat} (h : s.Canon) :
    NextCanon (execShootdownComplete fn s) := by
  unfold execShootdownComplete
  dsimp only
  split
  · split
    · exact .finish h
    · refine .finish (.updFn ?_)
      split
      · exact h.writeBackLines
      · exact h
  · split
    · exact .finish h
    · refine .finish (.updFn ?_)
      split
      · exact h.writeBackLines
      · exact h

protected theorem NextCanon.execRoastEnable {n : Nat} {v : DWord} (h : s.Canon) : NextCanon (execRoastEnable n v s) :=
  .ite (.finish h) (.ite (.finish h.updRoast) (.finish h.updRoast))

protected theorem NextCanon.execRoastDisable {n : Nat} {v : DWord} (h : s.Canon) :
    NextCanon (execRoastDisable n v s) := .ite (.finish h) (.ite (.finish h.updRoast) (.finish h.updRoast))

protected theorem NextCanon.execWatchEnable {n : Nat} {v : DWord} (h : s.Canon) : NextCanon (execWatchEnable n v s) :=
  .ite (.finish h) (.ite (.finish h.updWatch) (.ite (.finish h.zeroRange.updWatch) (.finish h.updWatch)))

protected theorem NextCanon.execWatchDisable {n : Nat} {v : DWord} (h : s.Canon) :
    NextCanon (execWatchDisable n v s) := by
  unfold execWatchDisable
  dsimp only
  split
  · exact .finish h
  · split
    · exact .finish h.updWatch
    · exact .finish h.updWatch

theorem State.Canon.setContent {l : List CEntry} (h : s.Canon) : State.Canon { s with content := l } := h

theorem State.Canon.zeroEach {l : List Nat} {first len : Nat → Nat} (h : s.Canon) :
    (l.foldl (fun s d => s.zeroRange (first d) (len d)) s).Canon := h.foldl fun _ _ hs => hs.zeroRange

protected theorem NextCanon.execVaultEnable {n : Nat} {v : DWord} (h : s.Canon) :
    NextCanon (execVaultEnable n v s) := by
  unfold execVaultEnable
  dsimp only
  split
  · exact .finish h
  · split
    · exact .finish h.updVault
    · split
      · exact .finish h.updVault
      · exact .finish (.updVault (.setContent (.zeroEach h)))

protected theorem NextCanon.execVaultEnableDone {n : Nat} (h : s.Canon) : NextCanon (execVaultEnableDone n s) := by
  unfold execVaultEnableDone
  dsimp only
  split
  · exact .finish h
  · exact .finish h.updVault

protected theorem NextCanon.execVaultDisable {n : Nat} {v : DWord} (h : s.Canon) :
    NextCanon (execVaultDisable n v s) := by
  unfold execVaultDisable
  dsimp only
  split
  · exact .finish h
  · split
    · exact .finish h.updVault
    · split
      · exact .finish h.updVault
      · split
        · exact .finish h.updVault
        · exact .finish (.updVault (.of_mem h rfl))

protected theorem NextCanon.execPartEnable {n : Nat} {v : DWord} (h : s.Canon) :
    NextCanon (execPartEnable n v s) := by
  unfold execPartEnable
  dsimp only
  split
  · exact .finish h
  · split
    · exact .finish h.updFn
    · split
      · exact .finish h.updFn
      · exact .finish h.updFn

protected theorem NextCanon.execPartDisable {n : Nat} {v : DWord} (h : s.Canon) :
    NextCanon (execPartDisable n v s) := by
  unfold execPartDisable
  dsimp only
  split
  · exact .finish h
  · split
    · exact .finish h.updFn
    · exact .finish h.updFn.endStep

theorem NextCanon.writePart {n off : Nat} {v : DWord} (h : s.Canon) : NextCanon (s.writePart n off v) := by
  unfold State.writePart
  dsimp only
  split
  · split
    · exact .execPartEnable h
    · exact .execPartDisable h
  · split
    · exact .finish (.ite h h.updFn)
    · split
      · exact .finish (.ite h h.updFn)
      · split
        · exact .finish (.ite h h.updFn)
        · split
          · exact .finish h.updFn
          · exact .finish h

theorem NextCanon.writeShoot {fn : Nat} {v : DWord} (h : s.Canon) : NextCanon (s.writeShoot fn v) := by
  unfold State.writeShoot
  dsimp only
  split
  · exact .finish h
  · split
    · split
      · exact .execShootdownPage h
      · split
        · exact .execShootdownAll h
        · split
          · exact .execShootdownFrame h
          · exact .finish h
    · exact .finish h.updFn

theorem NextCanon.writeXlat {fn off : Nat} {v : DWord} (h : s.Canon) : NextCanon (s.writeXlat fn off v) := by
  unfold State.writeXlat
  dsimp only
  split
  · exact .finish (.ite h h.updFn)
  · split
    · exact .finish h.updFn
    · split
      · exact .writeShoot h
      · split
        · exact .finish (.ite h h.updFn.recheckRecords)
        · split
          · exact .finish h.updFn
          · split
            · split
              · exact .execVerdictRetry h
              · split
                · exact .execVerdictFail h
                · exact .finish h
            · exact .finish h

theorem NextCanon.writeRoast {n off : Nat} {v : DWord} (h : s.Canon) : NextCanon (s.writeRoast n off v) := by
  unfold State.writeRoast
  dsimp only
  split
  · split
    · exact .execRoastEnable h
    · exact .execRoastDisable h
  · split
    · exact .finish (.ite h h.updRoast)
    · split
      · exact .finish (.ite h h.updRoast)
      · exact .finish (.ite h h.updRoast)

theorem NextCanon.writeWatch {n off : Nat} {v : DWord} (h : s.Canon) : NextCanon (s.writeWatch n off v) := by
  unfold State.writeWatch
  dsimp only
  split
  · split
    · exact .execWatchEnable h
    · exact .execWatchDisable h
  · split
    · exact .finish (.ite h h.updWatch)
    · split
      · exact .finish (.ite h h.updWatch)
      · exact .finish h

theorem NextCanon.writeVault {n off : Nat} {v : DWord} (h : s.Canon) : NextCanon (s.writeVault n off v) := by
  unfold State.writeVault
  split
  · exact .finish h
  · split
    · split
      · exact .execVaultEnable h
      · exact .execVaultDisable h
    · split
      · exact .finish (.ite h h.updVault)
      · split
        · exact .finish h.updVault
        · exact .finish h

theorem NextCanon.writePf {off : Nat} {v : DWord} (h : s.Canon) : NextCanon (s.writePf off v) := by
  unfold State.writePf
  split
  · exact .writePart h
  · split
    · exact .finish (.of_mem h rfl)
    · split
      · exact .finish (.of_mem h rfl)
      · split
        · exact .finish (.ite (.of_mem h rfl) h)
        · split
          · exact .writeRoast h
          · split
            · exact .writeWatch h
            · split
              · exact .writeVault h
              · exact .finish h

theorem NextCanon.writeNotify {fn off : Nat} {v : DWord} (h : s.Canon) : NextCanon (s.writeNotify fn off v) := by
  unfold State.writeNotify
  split
  · exact .execNotifyWrite h
  · split
    · exact .execNotifyBind h
    · exact .execNotifyUnbind h

protected theorem NextCanon.execRegisterWrite {fn off : Nat} {v : DWord} (h : s.Canon) :
    NextCanon (execRegisterWrite fn off v s) := by
  unfold execRegisterWrite
  split
  · exact .finish h
  · split
    · exact .writeNotify h
    · split
      · exact .writeXlat h
      · split
        · exact .finish h.writeDebug
        · split
          · exact .finish h.writeRx
          · split
            · exact .writePf h
            · exact .finish h

protected theorem NextCanon.execComparatorLoad {core : Nat} (h : s.Canon) :
    NextCanon (execComparatorLoad core s) := by
  unfold execComparatorLoad
  split
  · exact .finish h
  · exact .finish (.ite h.updCore h)

protected theorem NextCanon.execSampleTimer {core : Nat} (h : s.Canon) : NextCanon (execSampleTimer core s) := by
  unfold execSampleTimer
  split
  · exact .finish h
  · dsimp only
    split
    · exact .finish h
    · split
      · exact .finish h
      · exact .finish h.updCore.profile

protected theorem NextCanon.execRowMitigation {mc bank row : Nat} (h : s.Canon) :
    NextCanon (execRowMitigation mc bank row s) := by
  unfold execRowMitigation
  dsimp only
  split
  · exact .finish (.pmEvent (.of_mem h.freeNat.freeNat rfl))
  · exact .finish (.of_mem h.freeNat.freeNat rfl)

theorem State.Canon.reset : State.reset.Canon := rfl

protected theorem NextCanon.execReset {fail : Nat} (h : s.Canon) : NextCanon (execReset fail s) :=
  .finish (.of_mem State.Canon.reset rfl)

theorem NextCanon.answer {code : Nat} {req extra : List Byte} (h : s.Canon) :
    NextCanon (s.answer code req extra) := by
  unfold State.answer
  split
  · exact .finish h
  · exact .finish (.of_mem h rfl)

end Sys2Proof.Machine
end

section
/-! PROOFS. Canonical memory is kept (spec/10 R190): the table of instructions and a step. -/
namespace Sys2Proof.Machine

variable {s : State}

protected theorem NextCanon.exec {i : Instr} (h : s.Canon) : NextCanon (exec i s) := by
  unfold Machine.exec
  cases i with
  | nop | nopExt => dsimp only [execNop, execNopExt]; exact .nopOp h
  | iaddI32Base | isubI32Base | imulI32Base | imulhI32Base | imulhN32Base | iminI32Base | iminN32Base | imaxI32Base
  | imaxN32Base | iaddI64Base | isubI64Base | imulI64Base | iminI64Base | imaxI64Base | iadd | isub | imul | imulh
  | imin | imax =>
    dsimp only [execIaddI32Base, execIsubI32Base, execImulI32Base, execImulhI32Base, execImulhN32Base,
      execIminI32Base, execIminN32Base, execImaxI32Base, execImaxN32Base, execIaddI64Base, execIsubI64Base,
      execImulI64Base, execIminI64Base, execImaxI64Base, execIadd, execIsub, execImul, execImulh, execImin,
      execImax, iaddOp, intOp, isubOp, imulOp, imulhOp, iminOp, imaxOp]
    exact .alu h
  | andN32Base | orN32Base | xorN32Base | andN64Base | orN64Base | xorN64Base | and | or | xor =>
    dsimp only [execAndN32Base, execOrN32Base, execXorN32Base, execAndN64Base, execOrN64Base, execXorN64Base,
      execAnd, execOr, execXor, andOp, logicOp, orOp, xorOp]
    exact .alu h
  | shlN32Base | shrN32Base | sarI32Base | shlN64Base | shrN64Base | sarI64Base | shl | shr | sar =>
    dsimp only [execShlN32Base, execShrN32Base, execSarI32Base, execShlN64Base, execShrN64Base, execSarI64Base,
      execShl, execShr, execSar, shlOp, shiftOp, shrOp, sarOp]
    exact .alu h
  | popcN32Base | clzN32Base | ctzN32Base | brevN32Base | popc | clz | ctz | brev =>
    dsimp only [execPopcN32Base, execClzN32Base, execCtzN32Base, execBrevN32Base, execPopc, execClz, execCtz,
      execBrev, popcOp, bitOp, clzOp, ctzOp, brevOp]
    exact .alu h
  | movBase | mov => dsimp only [execMovBase, execMov, movOp]; exact .alu h
  | movlBase | movl => dsimp only [execMovlBase, execMovl, movlOp]; exact .alu h
  | leaN32S2Base | leaN32S3Base | leaI32S2Base | leaI32S3Base | lea =>
    dsimp only [execLeaN32S2Base, execLeaN32S3Base, execLeaI32S2Base, execLeaI32S3Base, execLea, leaOp]
    exact .alu h
  | faddF32Base | fmulF32Base | faddF16Base | fmulF16Base | faddBf16Base | fmulBf16Base | fadd | fmul =>
    dsimp only [execFaddF32Base, execFmulF32Base, execFaddF16Base, execFmulF16Base, execFaddBf16Base,
      execFmulBf16Base, execFadd, execFmul, faddOp, fop2, fmulOp]
    exact .alu h
  | fminF32Base | fmaxF32Base | fmin | fmax =>
    dsimp only [execFminF32Base, execFmaxF32Base, execFmin, execFmax, fminOp, fminmaxOp, fmaxOp]
    exact .alu h
  | hadd2F16Base | hmul2F16Base | hadd2Bf16Base | hmul2Bf16Base | hadd2 | hmul2 =>
    dsimp only [execHadd2F16Base, execHmul2F16Base, execHadd2Bf16Base, execHmul2Bf16Base, execHadd2, execHmul2,
      hadd2Op, hop2, hmul2Op]
    exact .alu h
  | frndF32Base | frnd => dsimp only [execFrndF32Base, execFrnd, frndOp]; exact .alu h
  | cvtF32I32Base | cvtF32N32Base | cvtI32F32Base | cvtN32F32Base | cvtF32F16Base | cvtF16F32Base | cvtF32Bf16Base
  | cvtBf16F32Base | cvtF64F32Base | cvtF32F64Base | cvtI32I16Base | cvtI32I8Base | cvtN32N16Base | cvtN32N8Base
  | cvt =>
    dsimp only [execCvtF32I32Base, execCvtF32N32Base, execCvtI32F32Base, execCvtN32F32Base, execCvtF32F16Base,
      execCvtF16F32Base, execCvtF32Bf16Base, execCvtBf16F32Base, execCvtF64F32Base, execCvtF32F64Base,
      execCvtI32I16Base, execCvtI32I8Base, execCvtN32N16Base, execCvtN32N8Base, execCvt]
    exact .cvtOp h
  | imad => dsimp only [execImad, imadOp]; exact .alu h
  | idot4 => dsimp only [execIdot4, idot4Op]; exact .alu h
  | lop3 => dsimp only [execLop3, lop3Op]; exact .alu h
  | icmp => dsimp only [execIcmp, icmpOp]; exact .aluPred h
  | sel => dsimp only [execSel, selOp]; exact .alu h
  | pset => dsimp only [execPset, psetOp]; exact .aluPred h
  | shf => dsimp only [execShf, shfOp]; exact .alu h
  | bfe => dsimp only [execBfe, bfeOp]; exact .alu h
  | bfi => dsimp only [execBfi, bfiOp]; exact .alu h
  | movs => exact .execMovs h
  | rdsr => dsimp only [execRdsr]; exact .rdsrOp h
  | ffma => dsimp only [execFfma, ffmaOp]; exact .alu h
  | fcmp => dsimp only [execFcmp, fcmpOp]; exact .aluPred h
  | frcp | frsq | fsqrt | fexp2 | flog2 | fsin | fcos | ftanh =>
    dsimp only [execFrcp, execFrsq, execFsqrt, execFexp2, execFlog2, execFsin, execFcos, execFtanh, sfuOp]
    exact .aluLong h
  | hfma2 => dsimp only [execHfma2, hfma2Op]; exact .alu h
  | hdot2 => dsimp only [execHdot2, hdot2Op]; exact .alu h
  | dadd | dmul | dfma => dsimp only [execDadd, execDmul, execDfma, dOp]; exact .aluLong h
  | pack => dsimp only [execPack]; exact .packOp h
  | unpack => dsimp only [execUnpack]; exact .unpackOp h
  | shfl | ballot | matchLanes =>
    dsimp only [execShfl, execBallot, execMatchLanes]
    exact .laneIssue h (fun _ _ hs => hs.put.advance)
  | vote => dsimp only [execVote]; exact .laneIssue h (fun _ _ hs => hs.putPred.advance)
  | redux => dsimp only [execRedux]; exact .laneIssue h (fun _ _ hs => hs.put.orFlags.advance)
  | prmt | rdexc => dsimp only [execPrmt, execRdexc]; exact .alu h
  | bra | brx => dsimp only [execBra, execBrx]; exact .issue h (fun _ _ hs => hs.jump)
  | call | ret | ld | st | lds | sts | atom | red | caswap | wait | waitExt | wake =>
    dsimp only [execCall, execRet, execLd, execSt, execLds, execSts, execAtom, execRed, execCaswap, execWait,
      execWaitExt, execWake]
    exact .memInstr h
  | exit => dsimp only [execExit]; exact .issue h (fun _ _ hs => (hs.foldl fun _ _ hs₁ => hs₁.retire))
  | yield => dsimp only [execYield]; exact .issue h (fun _ _ hs => hs.updWarp.advance)
  | cmpst | expld => dsimp only [execCmpst, execExpld]; exact .elemInstr h
  | pref => dsimp only [execPref]; exact .issue h (fun _ _ hs => hs.advance)
  | cctlWb | cctlInv => dsimp only [execCctlWb, execCctlInv]; exact .opInstr h (fun _ _ _ hs => hs.cctlAt)
  | fence => dsimp only [execFence]; exact .issue h (fun _ _ hs => hs.force.acquire.advance)
  | xfence => dsimp only [execXfence]; exact .issue h (fun _ _ hs => .advance (.acquireIf (.ite hs.force hs)))
  | bar => dsimp only [execBar]; exact .finish ((h.advance.foldl fun _ _ hs => hs.setWait).updBlk.checkBar)
  | smap => dsimp only [execSmap]; exact .issue h (fun _ _ hs => hs.smapSet)
  | sflush => dsimp only [execSflush]; exact .issue h (fun _ _ hs => .advance (.of_mem hs.newId rfl))
  | cpq => dsimp only [execCpq]; exact .opInstr h (fun _ _ _ hs => hs.cpqAt)
  | cpld => dsimp only [execCpld]; exact .issue h (fun _ _ hs => .ite hs.cpldRun hs)
  | cqwait =>
    dsimp only [execCqwait]
    exact .issue h (fun _ _ hs => .ite hs.advance (hs.foldl fun _ _ hs₁ => hs₁.setWait))
  | aarm => dsimp only [execAarm]; exact .opInstr h (fun _ _ _ hs => hs.aarmAt)
  | aarrive => dsimp only [execAarrive]; exact .opInstr h (fun _ _ _ hs => hs.aarriveAt)
  | await => dsimp only [execAwait]; exact .opInstr h (fun _ _ _ hs => hs.awaitAt)
  | caint => dsimp only [execCaint]; exact .ite (.finish h.ill) (.opInstr h (fun _ _ _ hs => hs.caintAt))
  | caget => dsimp only [execCaget]; exact .opInstr h (fun _ _ _ hs => hs.cagetAt)
  | carel => dsimp only [execCarel]; exact .opInstr h (fun _ _ _ hs => hs.carelAt)
  | caexp => dsimp only [execCaexp]; exact .ite (.finish h.ill) (.opInstr h (fun _ _ _ hs => hs.caexpAt))
  | tld | tst | mma | mdrain | mclr =>
    dsimp only [execTld, execTst, execMma, execMdrain, execMclr]
    exact .convIssue h
  | tzero | tmov | txpose =>
    dsimp only [execTzero, execTmov, execTxpose]
    exact .tileIssue h (fun _ _ hs => hs.updBlk.advance)
  | tcvt => dsimp only [execTcvt]; exact .tileIssue h (fun _ _ hs => hs.updBlk.orFlags.advance)
  | movtc => dsimp only [execMovtc]; exact .ite (.finish h.ill) (.issue h (fun _ _ hs => hs.updBlk.advance))
  | rdtc => dsimp only [execRdtc]; exact .ite (.finish h.ill) (.issue h (fun _ _ hs => hs.put.advance))
  | cvinit => exact .execCvinit h
  | gbar =>
    dsimp only [execGbar]
    exact .ite (.finish h.raiseAll) (.finish ((h.advance.foldl fun _ _ hs => hs.setWait).updBlk.checkGbar))
  | clbar =>
    dsimp only [execClbar]
    exact .ite (.finish h.raiseAll) (.finish ((h.force.advance.foldl fun _ _ hs => hs.setWait).updBlk.checkClbar))
  | rolesw | roleswTry => dsimp only [execRolesw, execRoleswTry]; exact .roleInstr h
  | launch | relaunch => dsimp only [execLaunch, execRelaunch]; exact .opInstr h (fun _ _ _ hs => hs.launchAt)
  | launchTry => exact .execLaunchTry h
  | place => dsimp only [execPlace]; exact .agentInstr h (fun _ _ _ hs => hs.placeAt)
  | evict => dsimp only [execEvict]; exact .agentInstr h (fun _ _ _ hs => hs.evictAt)
  | tryW | tryB => dsimp only [execTryW, execTryB]; exact .tryInstr h
  | endtry | clrexc => dsimp only [execEndtry, execClrexc]; exact .issue h (fun _ _ hs => hs.updThrs.advance)
  | throw =>
    dsimp only [execThrow]
    exact .issue h (fun _ _ hs => (hs.foldl fun _ _ hs₁ => .ite hs₁.raiseAt hs₁.raiseAt))
  | rethrow =>
    dsimp only [execRethrow]
    exact .issue h (fun _ _ hs => (hs.foldl fun _ _ hs₁ => .ite hs₁.advance hs₁.raiseExc))
  | trap =>
    dsimp only [execTrap]
    exact .moded h (fun _ _ hs => .ite (hs.debugRecord.foldl fun _ _ hs₁ => hs₁.setWait) hs.updThrs.advance)
  | svc => dsimp only [execSvc]; exact .moded h (fun _ _ hs => hs.updThrs)
  | brk => dsimp only [execBrk]; exact .issue h (fun _ _ hs => .ite hs.advance.debugRecord.updWarp hs.advance)
  | wrsr =>
    dsimp only [execWrsr]
    exact .issue h (fun _ _ hs => .ite hs.updWarp.advance (.ite hs.updWarp.advance (hs.foldl fun _ _ hs₁ => .ite
      hs₁.updThr.advance (.ite hs₁.raiseAt hs₁.updThr.advance))))
  | eret =>
    dsimp only [execEret]
    exact .moded h (fun _ _ hs => (hs.foldl fun _ _ hs₁ => .ite hs₁.updThr.raiseAt hs₁.updThr))
  | halt => dsimp only [execHalt]; exact .moded h (fun _ _ hs => hs.updWarp.advance)
  | pmcfg => dsimp only [execPmcfg]; exact .issue h (fun _ _ hs => hs.updFn.advance)
  | pmrd => dsimp only [execPmrd]; exact .alu (.ite h h.pmTick)
  | dbgmark => dsimp only [execDbgmark]; exact .issue h (fun _ _ hs => hs.profile.advance)
  | longLatencyComplete => exact .execLongLatencyComplete h
  | regroup => dsimp only [execRegroup]; exact .finish h.regroup
  | pcGroupForce => dsimp only [execPcGroupForce]; exact .ite (.finish h.updWarp) (.finish h)
  | warpPromotion => exact .execWarpPromotion h
  | ownershipRegister => exact .execOwnershipRegister h
  | ownershipRecall => dsimp only [execOwnershipRecall]; exact .finish h.recallLine
  | rds => dsimp only [execRds]; exact .finish (.ite h.readShare h)
  | rdx | upg => dsimp only [execRdx, execUpg]; exact .finish (.ite h.readOwn h)
  | wbm | putc => dsimp only [execWbm, execPutc]; exact .finish (.ite h.evictLine h)
  | snps | snpx | snpi => dsimp only [execSnps, execSnpx, execSnpi]; exact .finish h.snoop
  | decafWriteback => dsimp only [execDecafWriteback]; exact .finish h.cleanDecaf.setDecaf
  | hostWrite => dsimp only [execHostWrite]; exact .finish (.sendAcks (.writeHome (.of_mem h rfl)))
  | copyLanding => exact .execCopyLanding h
  | asyncExceptionRaise => exact .execAsyncExceptionRaise h
  | cpldLanding => exact .execCpldLanding h
  | drainWriteAccept => exact .execDrainWriteAccept h
  | contentLanding => exact .execContentLanding h
  | hostPathFence => exact .execHostPathFence h
  | reclaim => exact .execReclaim h
  | data => exact .execData h
  | ack => dsimp only [execAck]; exact .ite (.finish h) (.finish (h.setLink.foldl fun _ _ hs => hs.ackOne))
  | nakIntegrity => exact .execNakIntegrity h
  | nakRefused => exact .execNakRefused h
  | credit => dsimp only [execCredit]; exact .ite (.finish h) (.finish h.setLink)
  | rxnote => exact .execRxnote h
  | frameRetransmitTimeout => exact .execFrameRetransmitTimeout h
  | notifyWrite => exact .execNotifyWrite h
  | notifyBind => exact .execNotifyBind h
  | notifyUnbind => exact .execNotifyUnbind h
  | notifyWake => dsimp only [execNotifyWake]; exact .finish (h.updDie.foldl fun _ _ hs => hs.updFn)
  | packetFetch => exact .execPacketFetch h
  | launchPacket | launchInd | relaunchPacket =>
    dsimp only [execLaunchPacket, execLaunchInd, execRelaunchPacket]
    exact .packetEvent h (fun _ _ _ hs => hs.packetLaunch)
  | waitPacket => dsimp only [execWaitPacket]; exact .packetEvent h (fun _ _ _ hs => hs.setQueue)
  | waitPacketSatisfied => exact .execWaitPacketSatisfied h
  | signal => exact .execSignal h
  | loop => dsimp only [execLoop]; exact .packetEvent h (fun _ _ _ hs => hs.loopPacket)
  | cond => exact .execCond h
  | jump => dsimp only [execJump]; exact .packetEvent h (fun _ _ _ hs => (hs.atOnce (fun _ hs₁ => .ok hs₁)))
  | fetchFence =>
    dsimp only [execFetchFence]
    exact .packetEvent h (fun _ _ _ hs => (hs.atOnce (fun _ hs₁ => .ok hs₁.updQueue)))
  | copy =>
    dsimp only [execCopy]
    exact .packetEvent h (fun _ _ _ hs => .movePos (.updQueue (.of_mem hs.newId rfl)))
  | copyPacketComplete => exact .execCopyPacketComplete h
  | carafeEntry => exact .execCarafeEntry h
  | ticketWrite => exact .execTicketWrite h
  | launchComplete => exact .execLaunchComplete h
  | blockEnd => exact .execBlockEnd h
  | clusterRelease => dsimp only [execClusterRelease]; exact .ite (.finish h.releaseCluster) (.finish h)
  | clusterHoldTimeout =>
    dsimp only [execClusterHoldTimeout]
    exact .finish (h.foldl fun _ _ hs => .ite hs.unhold hs.leaveCore)
  | ageId | ageCt => dsimp only [execAgeId, execAgeCt]; exact .finish (.ite h.updRegion h)
  | baristaStart => exact .execBaristaStart h
  | roleswGrant => exact .execRoleswGrant h
  | quantumExpiry => exact .execQuantumExpiry h
  | preemptRequest => exact .execPreemptRequest h
  | blockResume =>
    dsimp only [execBlockResume]
    exact .ite (.finish h) (.finish (.ite h.putBack.releaseCluster h.putBack))
  | deadlockWatchdog =>
    dsimp only [execDeadlockWatchdog]
    exact .ite (.finish h) (.finish (h.foldl fun _ _ hs => (hs.foldl fun _ _ hs₁ => hs₁.raiseAt)))
  | tryStopSteer => exact .execTryStopSteer h
  | errorConsumption => exact .execErrorConsumption h
  | replayMismatch =>
    dsimp only [execReplayMismatch]
    exact .ite (.finish h) (.ite (.finish h.consume) (.finish h.machineCheck))
  | fatalDump | thermalFatal => dsimp only [execFatalDump, execThermalFatal]; exact .finish (.ite h.fatal h)
  | unitOutOfService => exact .execUnitOutOfService h
  | haltRelease => dsimp only [execHaltRelease]; exact .finish h.updWarp
  | roastEnable => exact .execRoastEnable h
  | roastDisable => exact .execRoastDisable h
  | roastDisableDone =>
    dsimp only [execRoastDisableDone]
    exact .ite (.finish h) (.finish (.updRoast (.of_mem (h.writeBackLines.foldl fun _ _ hs => hs.tagBack) rfl)))
  | vaultEnable => exact .execVaultEnable h
  | vaultEnableDone => exact .execVaultEnableDone h
  | vaultDisable => exact .execVaultDisable h
  | watchEnable => exact .execWatchEnable h
  | watchDisable => exact .execWatchDisable h
  | partEnable => exact .execPartEnable h
  | partDisable => exact .execPartDisable h
  | shootdownPage => exact .execShootdownPage h
  | shootdownAll => exact .execShootdownAll h
  | shootdownFrame => exact .execShootdownFrame h
  | shootdownComplete => exact .execShootdownComplete h
  | faultRecordWrite => exact .execFaultRecordWrite h
  | verdictRetry => exact .execVerdictRetry h
  | verdictFail => exact .execVerdictFail h
  | faultReplay => exact .execFaultReplay h
  | movedBounce => exact .execMovedBounce h
  | flr => dsimp only [execFlr]; exact .ite (.finish h) (.ite (.finish h.endStep) (.finish h.disableQueues.updFn))
  | comparatorLoad => exact .execComparatorLoad h
  | sampleTimer => exact .execSampleTimer h
  | rowMitigation => exact .execRowMitigation h
  | refreshWindow => dsimp only [execRefreshWindow]; exact .finish (.of_mem h rfl)
  | powerWindow =>
    dsimp only [execPowerWindow]
    exact .finish (.foldl (.ite (.of_mem h rfl) h) fun _ _ hs => .ite hs.freeBool.updDie hs.freeBool)
  | thermalThrottle => dsimp only [execThermalThrottle]; exact .finish (.ite (.of_mem h rfl) h)
  | reset => exact .execReset h
  | getVersion | getCapabilities | negotiateAlgorithms | getDigests | getCertificate | challenge | getMeasurements
  | keyExchange | vendorMeasurementLog =>
    dsimp only [execGetVersion, execGetCapabilities, execNegotiateAlgorithms, execGetDigests, execGetCertificate,
      execChallenge, execGetMeasurements, execKeyExchange, execVendorMeasurementLog]
    exact .answer h
  | registerWrite => exact .execRegisterWrite h
  | undefinedTypePacket =>
    dsimp only [execUndefinedTypePacket]
    exact .finish ((h.withPacket (fun _ _ hs => hs.packetError)).syncQueues)
  | redApply => exact .execRedApply h
  | cctlComplete => exact .execCctlComplete h
  | sflushComplete => exact .execSflushComplete h

protected theorem NextCanon.issueBundle {b t : Nat} (h : s.Canon) : NextCanon (issueBundle s b t) := by
  unfold issueBundle
  dsimp only
  split
  · exact .finish h
  · split
    next e =>
      split
      · exact .finish (h.fetch.of_eq e)
      · split
        · exact .finish ((h.fetch.of_eq e).bpStop)
        · split
          · exact .exec ((h.fetch.of_eq e).select)
          · exact .finish ((h.fetch.of_eq e).select.raiseAll)
    next e => exact .finish ((h.fetch.of_eq e).raiseAll)
    next e =>
      split
      · exact .finish (h.fetch.of_eq e)
      · exact .finish ((h.fetch.of_eq e).newRecord)
    next e => exact .finish (h.fetch.of_eq e)

protected theorem NextCanon.issueNext {part n : Nat} (h : s.Canon) : NextCanon (issueNext s part n) := by
  unfold issueNext
  split
  · exact .finish h
  · split
    · exact .finish h
    · exact .issueBundle h

protected theorem NextCanon.runTurn {a : Turn} (h : s.Canon) : NextCanon (runTurn s a) := by
  unfold runTurn
  split
  · split
    · exact .exec h
    · exact .finish h
  · exact .issueBundle h
  · exact .finish h.prefetchTurn
  · exact .finish h.fillTurn
  · exact .finish h.evictTurn

protected theorem NextCanon.openStep (h : s.Canon) : NextCanon (openStep s) := by
  unfold openStep
  split
  next e =>
    split
    next e₁ =>
      split
      next e₂ =>
        have ht := ((h.freeNat.of_eq e).freeNat.of_eq e₁).freeNat.of_eq e₂
        refine .ite (.execReset ht) (.ite (.issueNext ht) ?_)
        split
        · exact .runTurn ht.freeNat
        · refine .ite (.runTurn ht) (.ite (.runTurn ht) ?_)
          split
          · exact .runTurn (.of_mem ht rfl)
          · exact .finish ht

protected theorem NextCanon.withNotice {o : Host.Outcome State Fault Refusal} (h : NextCanon o) :
    NextCanon (withNotice o) := by
  unfold Machine.withNotice
  split
  · exact .finish (h _ rfl).notice
  · exact h

protected theorem NextCanon.step (h : s.Canon) : NextCanon (step s) := by
  unfold Machine.step
  refine .withNotice ?_
  split
  · exact .execErrorConsumption h
  · exact .runTurn (.of_mem h rfl)
  · exact .openStep h

/-- Settles O59: every write of memory is a `Map.set`, a `Map.setList` or a `Map.clear` (`State.markByte`, `State.writePA`,
`State.zeroRange`, `State.zeroOld`), which keep the canonical form; every other function is made of functions that keep it. -/
theorem stepKeepsMemory : Obligations.StepKeepsMemory := by
  unfold Obligations.StepKeepsMemory
  intro s t hs ht
  exact NextCanon.step hs t ht

end Sys2Proof.Machine
end

section
/-! PROOFS. What cores have stored to a line reaches the L2 of their die (spec/10 R202, R203). -/
namespace Sys2Proof.Machine

/-- Stores of cores to a line reach memory or a decaf copy, and lines move between caches: nothing else of the machine
differs, memory takes only bytes that a core has stored to the line, and no core has a store that it did not have. -/
structure State.LineMoved (line : Nat) (s t : State) : Prop where
  rest : t = { s with mem := t.mem, poisoned := t.poisoned, cores := t.cores, decafs := t.decafs, pendReg := t.pendReg,
                      owners := t.owners, l2 := t.l2, l2Home := t.l2Home, filters := t.filters, dir := t.dir, txns := t.txns,
                      wbs := t.wbs, llc := t.llc, sideTags := t.sideTags, tick := t.tick }
  published : s.Published t [line]
  own : ∀ c a v, t.ownByte c a = some v → s.ownByte c a = some v

namespace State.LineMoved
variable {line : Nat} {s t u : State}

theorem blocks (h : State.LineMoved line s t) : t.blocks = s.blocks := by rw [h.rest]
theorem hole (h : State.LineMoved line s t) : t.hole = s.hole := by rw [h.rest]
theorem watches (h : State.LineMoved line s t) : t.watches = s.watches := by rw [h.rest]
theorem roasts (h : State.LineMoved line s t) : t.roasts = s.roasts := by rw [h.rest]

/-- Nothing but the caches above memory differs. -/
theorem of_mem (hrest : t = { s with pendReg := t.pendReg, owners := t.owners, l2 := t.l2, l2Home := t.l2Home,
                                     filters := t.filters, dir := t.dir, txns := t.txns, wbs := t.wbs, llc := t.llc,
                                     sideTags := t.sideTags, tick := t.tick }) :
    State.LineMoved line s t :=
  ⟨by rw [hrest], fun a => .inl (by rw [hrest]; rfl), fun c a v h => by rw [hrest] at h; exact h⟩

theorem refl (line : Nat) (s : State) : State.LineMoved line s s := .of_mem rfl

theorem trans (h : State.LineMoved line s t) (h' : State.LineMoved line t u) : State.LineMoved line s u where
  rest := by rw [h'.rest, h.rest]
  published a := by
    rcases h'.published a with e | ⟨hl, c, hc⟩
    · rw [e]
      exact h.published a
    · exact .inr ⟨hl, c, h.own c a _ hc⟩
  own c a v hv := h.own c a v (h'.own c a v hv)

end State.LineMoved

/-! ### A byte that reaches a die's L2 -/

theorem inDevice_line {line j n : Nat} (hl : line < 0x40000000) (hj : j + n ≤ 128) : inDevice (line * 128 + j) n = true :=
  decide_eq_true (by unfold memEnd; omega)

theorem State.unpoison_rest (s : State) (pa n : Nat) : s.unpoison pa n = { s with poisoned := (s.unpoison pa n).poisoned } := by
  unfold State.unpoison
  split <;> rfl

theorem State.writePA_rest {s : State} {pa : Nat} {bs : List Byte} (hd : inDevice pa bs.length = true) :
    s.writePA pa bs = { s with mem := (s.writePA pa bs).mem, poisoned := (s.writePA pa bs).poisoned } := by
  rw [State.writePA, if_pos hd, State.unpoison_rest]

theorem State.putDecaf_rest (s : State) (die pa : Nat) (x : Byte) (d : Bool) :
    s.putDecaf die pa x d = { s with decafs := (s.putDecaf die pa x d).decafs } := by
  unfold State.putDecaf
  split <;> rfl

theorem State.fillDecaf_rest (s : State) (die line : Nat) :
    s.fillDecaf die line = { s with decafs := (s.fillDecaf die line).decafs } := by
  unfold State.fillDecaf
  split <;> rfl

theorem State.dieWrite_rest {s : State} {decaf : Bool} {die pa : Nat} {x : Byte} (hd : inDevice pa 1 = true) :
    s.dieWrite decaf die pa x = { s with mem := (s.dieWrite decaf die pa x).mem, decafs := (s.dieWrite decaf die pa x).decafs,
                                         poisoned := (s.dieWrite decaf die pa x).poisoned } := by
  unfold State.dieWrite
  split
  · rw [State.putDecaf_rest, State.fillDecaf_rest]
  · rw [State.writePA_rest hd]

theorem State.byte_writePA_one {s : State} {pa : Nat} {x : Byte} (hd : inDevice pa 1 = true) (a : Nat) :
    (s.writePA pa [x]).byte a = if a = pa then x else s.byte a := by
  by_cases ha : a = pa
  · subst ha
    simp [State.byte_writePA _ _ _ (show inDevice a [x].length = true from hd)]
  · rw [if_neg ha, State.byte_writePA_out _ _ _ _ (by simp only [List.length_singleton]; omega)]

theorem State.byte_dieWrite {s : State} {decaf : Bool} {die pa : Nat} {x : Byte} (hd : inDevice pa 1 = true) (a : Nat) :
    (s.dieWrite decaf die pa x).byte a = s.byte a ∨ a = pa ∧ (s.dieWrite decaf die pa x).byte a = x := by
  unfold State.dieWrite
  split
  · exact .inl (by simp [State.byte])
  · rw [State.byte_writePA_one hd]
    split
    · next h => exact .inr ⟨h, rfl⟩
    · exact .inl rfl

/-- Bytes of a line that a test picks reach a die's L2 one after the other. -/
theorem State.foldl_dieWrite {s : State} {line : Nat} (hl : line < 0x40000000) (decaf : Bool) (die : Nat) (p : Nat → Bool)
    (f : Nat → Byte) (js : List Nat) (hj : ∀ j ∈ js, j < 128) :
    let t := js.foldl (fun s j => if p j then s.dieWrite decaf die (line * 128 + j) (f j) else s) s
    t = { s with mem := t.mem, decafs := t.decafs, poisoned := t.poisoned } ∧
      (∀ a, t.byte a = s.byte a ∨ ∃ j ∈ js, p j = true ∧ a = line * 128 + j ∧ t.byte a = f j) ∧
      (decaf = false → ∀ j ∈ js, p j = true → t.byte (line * 128 + j) = f j) := by
  induction js generalizing s with
  | nil => exact ⟨rfl, fun a => .inl rfl, fun _ j h => absurd h List.not_mem_nil⟩
  | cons i js ih =>
    have hd : inDevice (line * 128 + i) 1 = true := inDevice_line hl (hj i List.mem_cons_self)
    set s₁ := if p i then s.dieWrite decaf die (line * 128 + i) (f i) else s with hs₁
    have hrest : s₁ = { s with mem := s₁.mem, decafs := s₁.decafs, poisoned := s₁.poisoned } := by
      rw [hs₁]
      split
      · exact State.dieWrite_rest hd
      · rfl
    have hone : ∀ a, s₁.byte a = s.byte a ∨ p i = true ∧ a = line * 128 + i ∧ s₁.byte a = f i := by
      intro a
      rw [hs₁]
      split
      · next hp => exact (State.byte_dieWrite hd a).imp id fun h => ⟨hp, h⟩
      · exact .inl rfl
    obtain ⟨hr, hb, hw⟩ := ih (s := s₁) fun j h => hj j (List.mem_cons_of_mem i h)
    dsimp only at hr hb hw ⊢
    rw [List.foldl_cons]
    refine ⟨by rw [hr, hrest], fun a => ?_, fun hdec j hjs hp => ?_⟩
    · rcases hb a with e | ⟨j, hjs, h⟩
      · rw [e]
        exact (hone a).imp id fun h => ⟨i, List.mem_cons_self, h⟩
      · exact .inr ⟨j, List.mem_cons_of_mem i hjs, h⟩
    · rcases List.mem_cons.mp hjs with rfl | hjs
      · rcases hb (line * 128 + j) with e | ⟨k, -, -, hk, e⟩
        · rw [e, hs₁, if_pos hp, State.dieWrite_of_plain hdec, State.byte_writePA_one hd, if_pos rfl]
        · rw [e, show k = j by omega]
      · exact hw hdec j hjs hp

/-! ### The stores of a core to a line -/

/-- The stores of a core to the bytes of a line that a mask picks reach the L2 of its die. -/
structure State.Publication (core line : Nat) (m : BitVec 128) (s t : State) : Prop where
  rest : t = { s with mem := t.mem, poisoned := t.poisoned, cores := t.cores, decafs := t.decafs, pendReg := t.pendReg }
  others : ∀ c, c ≠ core → t.l1At c = s.l1At c
  own : ∀ c a v, t.ownByte c a = some v → s.ownByte c a = some v
  byte : ∀ a, t.byte a = s.byte a ∨ a / 128 = line ∧ s.ownByte core a = some (t.byte a)
  plain : (∀ x, s.l1At core line = some x → x.decaf = false) →
    ∀ a v, a / 128 = line → m.getLsbD (a % 128) = true → s.ownByte core a = some v → t.byte a = v
  pend : ∀ e ∈ t.pendReg, e ∈ s.pendReg

theorem State.Publication.moved {core line : Nat} {m : BitVec 128} {s t : State} (h : State.Publication core line m s t) :
    State.LineMoved line s t where
  rest := by rw [h.rest]
  published a := (h.byte a).imp id fun ⟨hl, e⟩ => ⟨List.mem_singleton.mpr hl, core, e⟩
  own := h.own

theorem State.ownByte_of_line {s : State} {core line a : Nat} {x : L1Line} (hx : s.l1At core line = some x)
    (ha : a / 128 = line) :
    s.ownByte core a = if x.dirty.getLsbD (a % 128) then some ((x.data[a % 128]?).getD 0) else none := by
  rw [State.ownByte, ha, hx]

/-- A core has no store more when some of those to a line are cleared. -/
theorem State.ownByte_of_cleared {s u : State} {core line c a : Nat} {x : L1Line} {m : BitVec 128} {v : Byte}
    (hx : s.l1At core line = some x) (hu : ∀ c, u.l1At c = s.l1At c)
    (hv : (u.setL1 core line (some { x with dirty := x.dirty &&& ~~~m })).ownByte c a = some v) : s.ownByte c a = some v := by
  by_cases hc : c = core ∧ a / 128 = line
  · obtain ⟨rfl, ha⟩ := hc
    rw [State.ownByte_of_line (by rw [State.l1At_setL1, if_pos rfl]) ha] at hv
    rw [State.ownByte_of_line hx ha]
    simp only [BitVec.getLsbD_and] at hv
    cases hd : x.dirty.getLsbD (a % 128)
    · simp [hd] at hv
    · simpa [hd] using And.right (by simpa [hd] using hv)
  · have hat : (u.setL1 core line (some { x with dirty := x.dirty &&& ~~~m })).l1At c (a / 128) = s.l1At c (a / 128) := by
      by_cases h : c = core
      · subst h
        rw [State.l1At_setL1, if_neg fun ha => hc ⟨rfl, ha⟩]
        exact congrFun (hu c) _
      · rw [State.l1At, State.setL1, State.core_updCore_ne u _ h]
        exact congrFun (hu c) _
    rwa [State.ownByte, hat] at hv

theorem State.publication_publishMask {s : State} {core line : Nat} (hl : line < 0x40000000) (m : BitVec 128) :
    State.Publication core line m s (s.publishMask core line m) := by
  unfold State.publishMask
  split
  · next hx =>
    refine ⟨rfl, fun _ _ => rfl, fun _ _ _ h => h, fun a => .inl rfl, fun _ a v ha _ hv => ?_, fun _ h => h⟩
    rw [State.ownByte, ha, hx] at hv
    cases hv
  next x hx =>
    split
    · next h0 =>
      refine ⟨rfl, fun _ _ => rfl, fun _ _ _ h => h, fun a => .inl rfl, fun _ a v ha hm hv => ?_, fun _ h => h⟩
      have hbit : (x.dirty &&& m).getLsbD (a % 128) = false := by rw [h0]; simp
      rw [State.ownByte_of_line hx ha] at hv
      simp [hm] at hbit
      simp [hbit] at hv
    · obtain ⟨hr, hb, hw⟩ := State.foldl_dieWrite (s := s) hl x.decaf (dieOf core) (x.dirty &&& m).getLsbD
        (fun j => (x.data[j]?).getD 0) (List.range 128) fun j h => List.mem_range.mp h
      simp only [List.mem_range] at hb hw
      dsimp only
      generalize (List.range 128).foldl (fun s j => if (x.dirty &&& m).getLsbD j then
        s.dieWrite x.decaf (dieOf core) (line * 128 + j) ((x.data[j]?).getD 0) else s) s = t at hr hb hw
      set y : L1Line := { x with dirty := x.dirty &&& ~~~m }
      generalize hu : (if t.remote x.decaf (dieOf core) (line * 128) = true then _ else t : State) = u
      have hur : u = { t with pendReg := u.pendReg } := by
        rw [← hu]
        split <;> rfl
      have hup : ∀ e ∈ u.pendReg, e ∈ s.pendReg := by
        have ht : t.pendReg = s.pendReg := by rw [hr]
        intro e he
        rw [← hu] at he
        split at he
        · rw [← ht]
          exact List.mem_of_mem_filter he
        · rwa [← ht]
      have hul : ∀ c, u.l1At c = s.l1At c := fun c => by rw [hur, hr]; rfl
      have hbyte : ∀ a, (u.setL1 core line (some y)).byte a = t.byte a := fun a => by rw [hur]; rfl
      have hbits : ∀ a, a / 128 = line → (x.dirty &&& m).getLsbD (a % 128) = true →
          s.ownByte core a = some ((x.data[a % 128]?).getD 0) := fun a ha h => by
        rw [BitVec.getLsbD_and, Bool.and_eq_true] at h
        rw [State.ownByte_of_line hx ha, if_pos h.1]
      refine ⟨?_, fun c hc => ?_, fun c a v hv => ?_, fun a => ?_, fun hdec a v ha hm hv => ?_, hup⟩
      · rw [State.setL1, State.updCore, hur, hr]
      · funext l
        rw [State.l1At, State.setL1, State.core_updCore_ne u _ hc]
        exact congrFun (hul c) l
      · exact State.ownByte_of_cleared hx hul hv
      · rw [hbyte]
        refine (hb a).imp id ?_
        rintro ⟨j, hj, hp, rfl, e⟩
        have hmod : (line * 128 + j) % 128 = j := by omega
        have hdiv : (line * 128 + j) / 128 = line := by omega
        exact ⟨hdiv, by rw [e, hbits _ hdiv (by rw [hmod]; exact hp), hmod]⟩
      · have hd : x.dirty.getLsbD (a % 128) = true := by
          rw [State.ownByte_of_line hx ha] at hv
          by_contra h
          rw [if_neg h] at hv
          cases hv
        have hp : (x.dirty &&& m).getLsbD (a % 128) = true := by rw [BitVec.getLsbD_and, hd, hm]; rfl
        have hsplit : a = line * 128 + a % 128 := by omega
        rw [hbits a ha hp] at hv
        rw [hbyte, hsplit, hw (hdec x hx) (a % 128) (Nat.mod_lt a (by decide)) hp]
        exact Option.some.inj hv

end Sys2Proof.Machine
end

section
/-! PROOFS. A line that moves between the caches of the dies (spec/10 R203, R205..R207). -/
namespace Sys2Proof.Machine

variable {s : State} {die line : Nat}

/-! ### Recalls -/

/-- The core of a die that owns a word of a line gives it up. -/
def State.recallWord (die line : Nat) (s : State) (j : Nat) : State :=
  match s.owner die (line * 32 + j) with
  | some c => { s.publishUnit c (line * 128 + 4 * j) with owners := s.owners.set none (ownKey die (line * 32 + j)) none }
  | none => s

theorem State.recallLine_eq : s.recallLine die line = (List.range 32).foldl (State.recallWord die line) s := by
  unfold State.recallLine
  congr 1

/-- The cores of a die have given up some words of a line. -/
structure State.Recalled (die line : Nat) (js : List Nat) (s t : State) : Prop where
  rest : t = { s with mem := t.mem, poisoned := t.poisoned, cores := t.cores, decafs := t.decafs, pendReg := t.pendReg,
                      owners := t.owners }
  moved : State.LineMoved line s t
  owners : ∀ k, t.owners.get none k = if ∃ j ∈ js, k = ownKey die (line * 32 + j) then none else s.owners.get none k

theorem State.recallWord_of_unowned {j : Nat} (h : s.owner die (line * 32 + j) = none) : s.recallWord die line j = s := by
  rw [State.recallWord, h]

theorem State.recallWord_of_owner {j c : Nat} (h : s.owner die (line * 32 + j) = some c) :
    s.recallWord die line j =
      { s.publishUnit c (line * 128 + 4 * j) with owners := s.owners.set none (ownKey die (line * 32 + j)) none } := by
  simp only [State.recallWord, h]

theorem State.Publication.recalled {c j : Nat} {m : BitVec 128} {t : State} (h : State.Publication c line m s t) :
    State.Recalled die line [j] s { t with owners := s.owners.set none (ownKey die (line * 32 + j)) none } where
  rest := by rw [h.rest]
  moved := h.moved.trans (.of_mem rfl)
  owners k := by simp [Map.get_set]

theorem State.recalled_recallWord (hl : line < 0x40000000) {j : Nat} (hj : j < 32) :
    State.Recalled die line [j] s (s.recallWord die line j) := by
  cases ho : s.owner die (line * 32 + j) with
  | none =>
    rw [State.recallWord_of_unowned ho]
    refine ⟨rfl, .refl line s, fun k => ?_⟩
    by_cases hk : k = ownKey die (line * 32 + j)
    · rw [if_pos ⟨j, List.mem_singleton_self j, hk⟩, hk]
      exact ho
    · simp [hk]
  | some c =>
    rw [State.recallWord_of_owner ho, State.publishUnit, show (line * 128 + 4 * j) / 128 = line by omega]
    exact (State.publication_publishMask hl _).recalled

theorem State.Recalled.cons {j : Nat} {js : List Nat} {t u : State} (h : State.Recalled die line [j] s t)
    (h' : State.Recalled die line js t u) : State.Recalled die line (j :: js) s u := by
  refine ⟨by rw [h'.rest, h.rest], h.moved.trans h'.moved, fun k => ?_⟩
  rw [h'.owners, h.owners]
  by_cases hk : k = ownKey die (line * 32 + j)
  · simp [hk]
  · simp [hk]

theorem State.recalled_foldl (hl : line < 0x40000000) {js : List Nat} (hj : ∀ j ∈ js, j < 32) :
    State.Recalled die line js s (js.foldl (State.recallWord die line) s) := by
  induction js generalizing s with
  | nil => exact ⟨rfl, .refl line s, fun k => by simp⟩
  | cons i js ih =>
    exact (State.recalled_recallWord hl (hj i List.mem_cons_self)).cons (ih fun j h => hj j (List.mem_cons_of_mem i h))

theorem State.recalled_recallLine (hl : line < 0x40000000) :
    State.Recalled die line (List.range 32) s (s.recallLine die line) := by
  rw [State.recallLine_eq]
  exact State.recalled_foldl hl fun j h => List.mem_range.mp h

theorem State.Recalled.owner_eq_none {t : State} (h : State.Recalled die line (List.range 32) s t) {j : Nat} (hj : j < 32) :
    t.owner die (line * 32 + j) = none :=
  (h.owners _).trans (if_pos ⟨j, List.mem_range.mpr hj, rfl⟩)

theorem State.Recalled.owners_of_ne {t : State} (h : State.Recalled die line (List.range 32) s t) {k : Nat}
    (hk : ¬ ∃ j < 32, k = ownKey die (line * 32 + j)) : t.owners.get none k = s.owners.get none k :=
  (h.owners k).trans (if_neg fun ⟨j, hj, e⟩ => hk ⟨j, List.mem_range.mp hj, e⟩)

theorem State.recallLine_of_unowned (h : ∀ j < 32, s.owner die (line * 32 + j) = none) : s.recallLine die line = s := by
  rw [State.recallLine_eq]
  refine List.foldlRecOn (motive := fun t => t = s) _ _ rfl fun t ht j hj => ?_
  rw [ht]
  exact State.recallWord_of_unowned (h j (List.mem_range.mp hj))

/-! ### A change of state in an L2 -/

theorem l2Key_inj {d d' line : Nat} (h : l2Key d line = l2Key d' line) : d = d' := by
  unfold l2Key at h
  omega

theorem filterKey_ne {d d' : Nat} (l l' : Nat) (h : d ≠ d') : filterKey d l ≠ filterKey d' l' := by
  unfold filterKey
  omega

theorem State.l2At_setL2 (x : L2) (d : Nat) :
    (s.setL2 die line x).l2At d line = if d = die then x else s.l2At d line := by
  rw [State.l2At, State.setL2, Map.get_set]
  exact if_congr ⟨l2Key_inj, fun h => by rw [h]⟩ rfl rfl

/-- A die's copy of a line comes to state `x`; a recall of the die's words of it may come first. -/
structure State.Shifted (die line : Nat) (x : L2) (s t : State) : Prop where
  moved : State.LineMoved line s t
  l2At : ∀ d, t.l2At d line = if d = die then x else s.l2At d line
  dir : t.dir = s.dir
  txns : t.txns = s.txns
  wbs : t.wbs = s.wbs
  filterAt : ∀ d, d ≠ die → t.filterAt d line = s.filterAt d line
  owners : ∀ k, ¬ (∃ j < 32, k = ownKey die (line * 32 + j)) → t.owners.get none k = s.owners.get none k
  mem : (x = .m ∨ ∀ j < 32, s.owner die (line * 32 + j) = none) → t.mem = s.mem

theorem State.Shifted.owner_of_ne {x : L2} {t : State} (h : State.Shifted die line x s t) {d j : Nat}
    (hd : d ≠ die) (hj : j < 32) : t.owner d (line * 32 + j) = s.owner d (line * 32 + j) := by
  refine h.owners _ ?_
  rintro ⟨i, hi, e⟩
  unfold ownKey at e
  omega

/-- A change of a die's copy and of its filter entry, after which nothing else differs. -/
theorem State.shifted_setL2 (x : L2) (f : List (Nat × Nat)) :
    State.Shifted die line x s (s.setL2 die line x) ∧
      State.Shifted die line x s ((s.setL2 die line x).setFilter die line f) := by
  refine ⟨⟨.of_mem rfl, State.l2At_setL2 x, rfl, rfl, rfl, fun _ _ => rfl, fun _ _ => rfl, fun _ => rfl⟩,
    ⟨.of_mem rfl, State.l2At_setL2 x, rfl, rfl, rfl, fun d hd => ?_, fun _ _ => rfl, fun _ => rfl⟩⟩
  rw [State.filterAt, State.setFilter, Map.get_set_ne _ _ _ (filterKey_ne _ _ hd)]
  rfl

/-- A recall may come first: it changes nothing where the die's cores own no word of the line. -/
theorem State.Recalled.shifted {x : L2} {t u : State} (hr : State.Recalled die line (List.range 32) s t)
    (hkeep : (∀ j < 32, s.owner die (line * 32 + j) = none) → t = s) (hx : x ≠ .m) (h : State.Shifted die line x t u) :
    State.Shifted die line x s u where
  moved := hr.moved.trans h.moved
  l2At d := by rw [h.l2At, State.l2At, hr.rest]; rfl
  dir := by rw [h.dir, hr.rest]
  txns := by rw [h.txns, hr.rest]
  wbs := by rw [h.wbs, hr.rest]
  filterAt d hd := by rw [h.filterAt d hd, State.filterAt, hr.rest]; rfl
  owners k hk := by rw [h.owners k hk, hr.owners_of_ne hk]
  mem hm := by
    have hun := hm.resolve_left hx
    rw [hkeep hun] at h
    exact h.mem (.inr hun)

/-- The part of `moveL2` after the recall. -/
def State.placeL2 (s : State) (die line : Nat) (x : L2) : State :=
  let s := s.setL2 die line x
  if s.lineHome line = die then s
  else
    let f := s.filterAt die line
    s.setFilter die line (if x = .i then f.filter fun e => e.1 ≠ line
      else f.map fun e => if e.1 = line then (line, x.code) else e)

theorem State.moveL2_eq (s : State) (die line : Nat) (x : L2) :
    s.moveL2 die line x = (if x = .m then s else s.recallLine die line).placeL2 die line x := rfl

theorem State.shifted_placeL2 (x : L2) : State.Shifted die line x s (s.placeL2 die line x) := by
  unfold State.placeL2
  dsimp only
  split
  · exact (State.shifted_setL2 x []).1
  · exact (State.shifted_setL2 x _).2

theorem State.placeL2_rest (x : L2) :
    s.placeL2 die line x = { s with l2 := (s.placeL2 die line x).l2, l2Home := (s.placeL2 die line x).l2Home,
                                    filters := (s.placeL2 die line x).filters } := by
  unfold State.placeL2
  dsimp only
  split <;> rfl

theorem State.owner_placeL2 (x : L2) (d word : Nat) : (s.placeL2 die line x).owner d word = s.owner d word := by
  rw [State.placeL2_rest]
  rfl

theorem State.shifted_moveL2 (hl : line < 0x40000000) (x : L2) : State.Shifted die line x s (s.moveL2 die line x) := by
  rw [State.moveL2_eq]
  by_cases hx : x = .m
  · rw [if_pos hx]
    exact State.shifted_placeL2 x
  · rw [if_neg hx]
    exact (State.recalled_recallLine hl).shifted State.recallLine_of_unowned hx (State.shifted_placeL2 x)

theorem State.owner_moveL2 (hl : line < 0x40000000) {x : L2} (hx : x ≠ .m) {j : Nat} (hj : j < 32) :
    (s.moveL2 die line x).owner die (line * 32 + j) = none := by
  have hr : State.Recalled die line (List.range 32) s (s.recallLine die line) := State.recalled_recallLine hl
  rw [State.moveL2_eq, if_neg hx, State.owner_placeL2]
  exact hr.owner_eq_none hj

/-! ### A line that fills an L2, and the end of a request -/

/-- A full filter set gives up a line before another enters it. -/
def State.filterRoom (s : State) (die line : Nat) : State :=
  match s.filterAt die line with
  | e :: _ => if (s.filterAt die line).length < 16 then s else s.backInvalidate die e.1
  | [] => s

/-- The part of `fillLine` after the note of the line's home. -/
def State.enterLine (s : State) (die line : Nat) (x : L2) : State :=
  if s.lineHome line = die then s.moveL2 die line x
  else if (s.filterAt die line).any fun e => e.1 = line then s.moveL2 die line x
  else ((s.filterRoom die line).setL2 die line x).setFilter die line
    ((s.filterRoom die line).filterAt die line ++ [(line, x.code)])

theorem State.fillLine_eq (s : State) (die line : Nat) (x : L2) :
    s.fillLine die line x =
      State.enterLine { s with l2Home := s.l2Home.set none (l2Key die line) (some (s.lineHome line)) } die line x := rfl

theorem State.filterRoom_of_room (h : (s.filterAt die line).length < 16) : s.filterRoom die line = s := by
  unfold State.filterRoom
  split
  · exact if_pos h
  · rfl

theorem State.shifted_enterLine (hl : line < 0x40000000) (hroom : (s.filterAt die line).length < 16) (x : L2) :
    State.Shifted die line x s (s.enterLine die line x) := by
  unfold State.enterLine
  split
  · exact State.shifted_moveL2 hl x
  · split
    · exact State.shifted_moveL2 hl x
    · rw [State.filterRoom_of_room hroom]
      exact (State.shifted_setL2 x _).2

theorem State.Shifted.of_home {x : L2} {m : Map (Option Nat)} {t : State}
    (h : State.Shifted die line x { s with l2Home := m } t) : State.Shifted die line x s t :=
  ⟨(State.LineMoved.of_mem rfl).trans h.moved, h.l2At, h.dir, h.txns, h.wbs, h.filterAt, h.owners, h.mem⟩

theorem State.shifted_fillLine (hl : line < 0x40000000) (hroom : (s.filterAt die line).length < 16) (x : L2) :
    State.Shifted die line x s (s.fillLine die line x) := by
  rw [State.fillLine_eq]
  generalize s.l2Home.set none (l2Key die line) (some (s.lineHome line)) = m
  exact (State.shifted_enterLine (s := { s with l2Home := m }) hl hroom x).of_home

/-- What a request of die `x.die` for a line leaves that completes, where no other die has sent the line meanwhile. -/
structure State.Granted (x : Txn) (s t : State) : Prop where
  moved : State.LineMoved x.line s t
  dirAt : t.dirAt x.line = x.newDir
  l2At : ∀ d, t.l2At d x.line = if d = x.die then x.req.grant x.newDir else s.l2At d x.line
  txns : t.txns = s.txns.filter fun y => y.line ≠ x.line
  owner : ∀ d j, d ≠ x.die → j < 32 → t.owner d (x.line * 32 + j) = s.owner d (x.line * 32 + j)
  mem : (x.req.grant x.newDir = .m ∨ ∀ j < 32, s.owner x.die (x.line * 32 + j) = none) → t.mem = s.mem

theorem State.Shifted.granted {x : Txn} {ts : List Txn} {ws : List (Nat × Nat × L2)} {t : State}
    (h : State.Shifted x.die x.line (x.req.grant x.newDir) (State.setDir { s with txns := ts, wbs := ws } x.line x.newDir) t)
    (hts : ts = s.txns.filter fun y => y.line ≠ x.line) : State.Granted x s t where
  moved := (State.LineMoved.of_mem rfl).trans h.moved
  dirAt := by rw [State.dirAt, h.dir]; exact Map.get_set_self _ _ _ _
  l2At := h.l2At
  txns := h.txns.trans hts
  owner d j hd hj := h.owner_of_ne hd hj
  mem := h.mem

theorem State.granted_txnDone {x : Txn} (hl : x.line < 0x40000000) (hroom : (s.filterAt x.die x.line).length < 16)
    (hw : ∀ y ∈ s.wbs, y.2.1 ≠ x.line) : State.Granted x s (s.txnDone x) := by
  have hsent : (s.wbs.filter fun y => y.2.1 = x.line && y.1 ≠ x.die) = [] :=
    List.filter_eq_nil_iff.mpr fun y hy => by simp [hw y hy]
  unfold State.txnDone
  dsimp only
  rw [hsent, List.foldl_nil]
  generalize hts : (s.txns.filter fun y => y.line ≠ x.line) = ts
  generalize (s.wbs.filter fun y => y.2.1 ≠ x.line) = ws
  exact (State.shifted_fillLine (s := State.setDir { s with txns := ts, wbs := ws } x.line x.newDir) hl hroom _).granted
    hts.symm

end Sys2Proof.Machine
end

section
/-! PROOFS. The home agent: requests, upgrades and the answers of snoops (spec/10 R204..R208). -/
namespace Sys2Proof.Machine

variable {s : State} {d o line : Nat}

theorem presOf_one (d : Nat) : presOf [d] = 1#4 <<< d := by simp [presOf]
theorem presOf_two (o d : Nat) : presOf [o, d] = 1#4 <<< o ||| 1#4 <<< d := by simp [presOf]

theorem Dir.others_of_alone {x : Dir} (hd : d < 4) (h : x.pres = 1#4 <<< d) : x.holders.filter (· ≠ d) = [] := by
  have hall : ∀ d < 4, ((List.range 4).filter fun i => (1#4 <<< d).getLsbD i).filter (· ≠ d) = [] := by decide
  rw [Dir.holders, h]
  exact hall d hd

theorem Dir.others_of_two {x : Dir} (hd : d < 4) (ho : o < 4) (hne : o ≠ d) (h : x.pres = 1#4 <<< d ||| 1#4 <<< o) :
    x.holders.filter (· ≠ d) = [o] := by
  have hall : ∀ d < 4, ∀ o < 4, o ≠ d →
      ((List.range 4).filter fun i => (1#4 <<< d ||| 1#4 <<< o).getLsbD i).filter (· ≠ d) = [o] := by decide
  rw [Dir.holders, h]
  exact hall d hd o ho hne

/-! ### What a request does with the line's entry -/

theorem Req.grant_of_write {q : Req} (h : q ≠ .rds) (x : Dir) : q.grant x = .m := by
  cases q with
  | rds => exact absurd rfl h
  | rdx | upg => rfl

/-- The entry of a line that one die holds alone. -/
def Dir.alone (d : Nat) : Dir := { owner := d, pres := presOf [d], state := 2 }

theorem State.readShare_of_uncached (h : (s.dirAt line).state = 0) :
    s.readShare d line = s.txnDone { line := line, die := d, req := .rds, snoops := [], newDir := Dir.alone d } := by
  simp only [State.readShare, h, State.txnStart, if_true, Dir.alone]

theorem State.readShare_of_shared (h : (s.dirAt line).state = 1) :
    s.readShare d line = s.txnDone { line := line, die := d, req := .rds, snoops := [],
                                     newDir := { s.dirAt line with pres := (s.dirAt line).pres ||| presOf [d] } } := by
  simp only [State.readShare, h, State.txnStart, if_true]

theorem State.readShare_of_owned {x : Dir} (h : s.dirAt line = x) (h2 : x.state = 2) (ho : x.owner ≠ d) :
    s.readShare d line =
      { s with txns := s.txns ++ [{ line := line, die := d, req := .rds, snoops := [(x.owner, 0)], newDir := x }] } := by
  simp only [State.readShare, h, h2, State.txnStart, if_neg ho, List.cons_ne_nil, if_false]

theorem State.readOwn_of_uncached (r : Req) (h : (s.dirAt line).state = 0) :
    s.readOwn d line r = s.txnDone { line := line, die := d, req := r, snoops := [], newDir := Dir.alone d } := by
  simp only [State.readOwn, h, State.txnStart, if_true, Dir.alone]

theorem State.readOwn_of_shared (r : Req) (h : (s.dirAt line).state = 1) :
    s.readOwn d line r = s.txnStart { line := line, die := d, req := r, newDir := Dir.alone d,
                                      snoops := ((s.dirAt line).holders.filter (· ≠ d)).map fun o => (o, 2) } := by
  simp only [State.readOwn, h, Dir.alone]

theorem State.readOwn_of_owned {x : Dir} (r : Req) (h : s.dirAt line = x) (h2 : x.state = 2) (ho : x.owner ≠ d) :
    s.readOwn d line r =
      { s with txns := s.txns ++ [{ line := line, die := d, req := r, snoops := [(x.owner, 1)], newDir := Dir.alone d }] } := by
  simp only [State.readOwn, h, h2, State.txnStart, if_neg ho, List.cons_ne_nil, if_false, Dir.alone]

theorem State.readOwn_of_two (r : Req) (h : (s.dirAt line).state = 1) (hd : d < 4) (ho : o < 4) (hne : o ≠ d)
    (hp : (s.dirAt line).pres = 1#4 <<< d ||| 1#4 <<< o) :
    s.readOwn d line r =
      { s with txns := s.txns ++ [{ line := line, die := d, req := r, snoops := [(o, 2)], newDir := Dir.alone d }] } := by
  rw [State.readOwn_of_shared r h, Dir.others_of_two hd ho hne hp]
  rfl

/-! ### Requests of a die that is free to ask -/

theorem exec_ask_of_decaf {c : Decaf} (hh : s.hole = false) (hc : s.decaf d line = some c) :
    exec (.rds d line) s = .next s ∧ exec (.rdx d line) s = .next s := by
  have hmay : ∀ r, s.mayAsk d line r = false := fun r => by simp [State.mayAsk, hc]
  constructor
  · exact (congrArg finish (by rw [hmay]; rfl)).trans (finish_of_noHole hh)
  · exact (congrArg finish (by rw [hmay]; rfl)).trans (finish_of_noHole hh)

/-- A die may send a request for a line as far as the line's state in its own L2 lets it. -/
structure State.FreeToAsk (s : State) (d line : Nat) : Prop where
  noHole : s.hole = false
  die : d < 4
  dev : line < 0x40000000
  idle : s.lineBusy line = false
  noDecaf : s.decaf d line = none

/-- A request that completes at once: the filter set of the die has room, and no writeback of the line is on its way. -/
structure State.Room (s : State) (d line : Nat) : Prop where
  filter : (s.filterAt d line).length < 16
  wbs : ∀ y ∈ s.wbs, y.2.1 ≠ line

section
variable (ha : s.FreeToAsk d line)
include ha

theorem exec_rds_of_free (hi : s.l2At d line = .i) : exec (.rds d line) s = finish (s.readShare d line) := by
  have hmay : s.mayAsk d line .rds = true := by simp [State.mayAsk, lineOk, ha.die, ha.dev, ha.idle, ha.noDecaf, hi]
  exact congrArg finish (if_pos hmay)

theorem exec_rdx_of_free (hi : s.l2At d line = .i) : exec (.rdx d line) s = finish (s.readOwn d line .rdx) := by
  have hmay : s.mayAsk d line .rdx = true := by simp [State.mayAsk, lineOk, ha.die, ha.dev, ha.idle, ha.noDecaf, hi]
  exact congrArg finish (if_pos hmay)

theorem exec_upg_of_free (hi : s.l2At d line = .s) : exec (.upg d line) s = finish (s.readOwn d line .upg) := by
  have hmay : s.mayAsk d line .upg = true := by simp [State.mayAsk, lineOk, ha.die, ha.dev, ha.idle, ha.noDecaf, hi]
  exact congrArg finish (if_pos hmay)

/-- A request that no snoop holds up completes. -/
theorem State.FreeToAsk.granted (hr : s.Room d line) {q : Req} {new : Dir}
    (hm : q.grant new = .m ∨ ∀ j < 32, s.owner d (line * 32 + j) = none) :
    let x : Txn := { line := line, die := d, req := q, snoops := [], newDir := new }
    ∃ t, finish (s.txnDone x) = .next t ∧ t.dirAt line = new ∧ t.l2At d line = q.grant new ∧ t.mem = s.mem ∧
      t.blocks = s.blocks := by
  intro x
  have h : State.Granted x s (s.txnDone x) := State.granted_txnDone ha.dev hr.filter hr.wbs
  exact ⟨_, finish_of_noHole (h.moved.hole.trans ha.noHole), h.dirAt, (h.l2At d).trans (if_pos rfl), h.mem hm, h.moved.blocks⟩

end

/-- A request that snoops hold up waits; nothing else differs. -/
theorem exec_waits {i : Instr} {x : Txn} (hh : s.hole = false) (he : exec i s = finish { s with txns := s.txns ++ [x] }) :
    ∃ t, exec i s = .next t ∧ t.txns = s.txns ++ [x] ∧ t.dir = s.dir ∧ t.l2 = s.l2 ∧ t.mem = s.mem :=
  ⟨_, he.trans (finish_of_noHole hh), rfl, rfl, rfl, rfl⟩

/-! ### Answers of snoops -/

/-- The owner in M of a line answers the one snoop of a request for it. -/
structure State.Snooped (s : State) (o line kind : Nat) (x : Txn) : Prop where
  noHole : s.hole = false
  dev : x.line < 0x40000000
  other : o ≠ x.die
  room : (s.filterAt x.die x.line).length < 16
  owner : s.l2At o x.line = .m
  wbs : s.wbs = []
  txns : s.txns = [x]
  line : x.line = line
  snoops : x.snoops = [(o, kind)]

/-- The copy of an owner in M after its answer: O for SnpS, else none. -/
def snoopLeaves (kind : Nat) : L2 := if kind = 0 then .o else .i
/-- A request whose one snoop has been answered by the owner in M. -/
def Txn.answered (x : Txn) (o kind : Nat) : Txn :=
  { x with snoops := [], newDir := if kind = 0 then { owner := o, pres := presOf [o, x.die], state := 3 } else x.newDir }

theorem State.Snooped.snoop_eq {kind : Nat} {x : Txn} (h : s.Snooped o line kind x) :
    s.snoop o line kind = (s.moveL2 o line (snoopLeaves kind)).txnDone (x.answered o kind) := by
  obtain ⟨-, -, -, -, hm, -, htx, rfl, hs⟩ := h
  have hfind : (s.txns.find? fun y => y.line = x.line && y.snoops.contains (o, kind)) = some x := by simp [htx, hs]
  have hx : s.snooped o x.line = .m := by simp only [State.snooped, hm]
  unfold State.snoop
  simp only [hfind, hx, hs, hm]
  by_cases hk : kind = 0
  · simp [hk, snoopLeaves, Txn.answered, Txn.afterShare]
  · simp [hk, snoopLeaves, Txn.answered]

/-- The owner's cores have given up their words, and the request completes. -/
theorem State.Snooped.answers {kind : Nat} {x : Txn} (h : s.Snooped o line kind x) :
    ∃ t, finish (s.snoop o line kind) = .next t ∧ t.txns = [] ∧ t.l2At o line = snoopLeaves kind ∧
      t.l2At x.die line = x.req.grant (x.answered o kind).newDir ∧ t.dirAt line = (x.answered o kind).newDir ∧
      s.Published t [line] ∧ ∀ j < 32, t.owner o (line * 32 + j) = none := by
  rw [h.snoop_eq]
  obtain ⟨hh, hl, hne, hroom, -, hw, htx, rfl, -⟩ := h
  have hmove : State.Shifted o x.line (snoopLeaves kind) s (s.moveL2 o x.line (snoopLeaves kind)) := State.shifted_moveL2 hl _
  have hgone : ∀ j < 32, (s.moveL2 o x.line (snoopLeaves kind)).owner o (x.line * 32 + j) = none := fun j hj =>
    State.owner_moveL2 hl (by unfold snoopLeaves; split <;> decide) hj
  generalize s.moveL2 o x.line (snoopLeaves kind) = u at hmove hgone
  have hg : State.Granted (x.answered o kind) u (u.txnDone (x.answered o kind)) :=
    State.granted_txnDone hl ((congrArg List.length (hmove.filterAt x.die (Ne.symm hne))).trans_lt hroom)
      (by rw [hmove.wbs, hw]; exact fun y hy => absurd hy List.not_mem_nil)
  generalize u.txnDone (x.answered o kind) = t at hg
  have hmoved : State.LineMoved x.line s t := hmove.moved.trans hg.moved
  refine ⟨t, finish_of_noHole (hmoved.hole.trans hh), ?_, ?_, (hg.l2At x.die).trans (if_pos rfl), hg.dirAt, hmoved.published,
    fun j hj => (hg.owner o j hne hj).trans (hgone j hj)⟩
  · rw [hg.txns, hmove.txns, htx]
    simp [Txn.answered]
  · exact ((hg.l2At o).trans (if_neg hne)).trans ((hmove.l2At o).trans (if_pos rfl))

/-- Settles O39: a request that needs no snoop, and one whose only snoop the owner in M answers, ends in `txnDone`, which
sets the line's entry and fills the requester's L2; memory takes only what the recalls bring. -/
theorem homeRules : Obligations.HomeRules := by
  unfold Obligations.HomeRules
  refine ⟨fun s d line hh hd hl => ⟨fun c hc => exec_ask_of_decaf hh hc, fun hb hdec hf hi hun hw => ?_⟩,
    fun s d line hh hd hl hb hdec hi hst => ⟨fun hp hf hw => ?_, fun o ho hne hp => ?_⟩,
    fun s d o line q new hh hd ho hne hl hf hm hw => ⟨fun htx => ?_, fun htx hq => ?_, fun htx hq => ?_⟩⟩
  · have ha : s.FreeToAsk d line := ⟨hh, hd, hl, hb, hdec⟩
    have hr : s.Room d line := ⟨hf, hw⟩
    refine ⟨fun h0 => ?_, fun h1 => ?_, fun h0 => ?_, fun o hx hne => ⟨?_, ?_⟩⟩
    · obtain ⟨t, ht, hdir, hl2, hmem, hblk⟩ := ha.granted hr (q := .rds) (new := Dir.alone d) (.inr hun)
      rw [Dir.alone, presOf_one] at hdir
      exact ⟨t, by rw [exec_rds_of_free ha hi, State.readShare_of_uncached h0, ht], hdir, hl2, hmem, hblk⟩
    · obtain ⟨t, ht, hdir, hl2, hmem, -⟩ := ha.granted hr (q := .rds)
        (new := { s.dirAt line with pres := (s.dirAt line).pres ||| presOf [d] }) (.inr hun)
      rw [presOf_one] at hdir
      exact ⟨t, by rw [exec_rds_of_free ha hi, State.readShare_of_shared h1, ht], hdir,
        hl2.trans (by simp [Req.grant, h1]), hmem⟩
    · obtain ⟨t, ht, hdir, hl2, hmem, -⟩ := ha.granted hr (q := .rdx) (new := Dir.alone d) (.inl rfl)
      rw [Dir.alone, presOf_one] at hdir
      exact ⟨t, by rw [exec_rdx_of_free ha hi, State.readOwn_of_uncached _ h0, ht], hdir, hl2, hmem⟩
    · obtain ⟨t, ht, htx, hrest⟩ := exec_waits hh
        ((exec_rds_of_free ha hi).trans (congrArg finish (State.readShare_of_owned hx rfl hne)))
      exact ⟨t, _, ht, htx, rfl, rfl, rfl, hrest⟩
    · obtain ⟨t, ht, htx, hrest⟩ := exec_waits hh
        ((exec_rdx_of_free ha hi).trans (congrArg finish (State.readOwn_of_owned _ hx rfl hne)))
      exact ⟨t, _, ht, htx, rfl, rfl, rfl, hrest⟩
  · have ha : s.FreeToAsk d line := ⟨hh, hd, hl, hb, hdec⟩
    obtain ⟨t, ht, hdir, hl2, hmem, -⟩ := ha.granted ⟨hf, hw⟩ (q := .upg) (new := Dir.alone d) (.inl rfl)
    rw [Dir.alone, presOf_one] at hdir
    refine ⟨t, ?_, hdir, hl2, hmem⟩
    rw [exec_upg_of_free ha hi, State.readOwn_of_shared _ hst, Dir.others_of_alone hd hp, ← ht]
    rfl
  · have ha : s.FreeToAsk d line := ⟨hh, hd, hl, hb, hdec⟩
    obtain ⟨t, ht, htx, hdir, -, hmem⟩ := exec_waits hh ((exec_upg_of_free ha hi).trans
      (congrArg finish (State.readOwn_of_two _ hst hd ho hne hp)))
    exact ⟨t, _, ht, htx, rfl, hdir, hmem⟩
  · have h : s.Snooped o line 0 { line := line, die := d, req := .rds, snoops := [(o, 0)], newDir := new } :=
      ⟨hh, hl, hne, hf, hm, hw, htx, rfl, rfl⟩
    obtain ⟨t, ht, htxs, ho2, hd2, hdir, hpub, hown⟩ := h.answers
    rw [Txn.answered, if_pos rfl, presOf_two] at hdir
    exact ⟨t, ht, htxs, ho2, hd2, hdir, hpub, hown⟩
  · have h : s.Snooped o line 1 { line := line, die := d, req := q, snoops := [(o, 1)], newDir := new } :=
      ⟨hh, hl, hne, hf, hm, hw, htx, rfl, rfl⟩
    obtain ⟨t, ht, htxs, ho2, hd2, hdir, hpub, hown⟩ := h.answers
    exact ⟨t, ht, htxs, ho2, hd2.trans (Req.grant_of_write hq _), hdir, hpub, hown⟩
  · have h : s.Snooped o line 2 { line := line, die := d, req := q, snoops := [(o, 2)], newDir := new } :=
      ⟨hh, hl, hne, hf, hm, hw, htx, rfl, rfl⟩
    obtain ⟨t, ht, htxs, ho2, hd2, hdir, hpub, hown⟩ := h.answers
    exact ⟨t, ht, htxs, ho2, hd2.trans (Req.grant_of_write hq _), hdir, hpub, hown⟩

end Sys2Proof.Machine
end

section
/-! PROOFS. Who owns a word, and what an eviction leaves (spec/10 R201..R203, R205..R207). -/
namespace Sys2Proof.Machine

variable {s : State} {core word d line : Nat}

theorem getLsbD_bitRun {p n j : Nat} (hj : j < 128) (hp : p ≤ j) (hn : j < p + n) (hw : n ≤ 128) :
    (bitRun p n).getLsbD j = true := by
  simp only [bitRun, BitVec.getLsbD_shiftLeft, BitVec.getLsbD_ushiftRight, BitVec.getLsbD_allOnes]
  simp
  omega

/-! ### The registration of a word -/

/-- The word's owner before, another core of the die, gives up its stores to the word's 8 bytes. -/
def State.takeWord (s : State) (core word : Nat) : State :=
  match s.owner (dieOf core) word with
  | some c => if c = core then s else s.publishUnit c (word * 4)
  | none => s

/-- The word is the core's, if it has a copy of the line, and its store awaits registration no more. -/
def State.registers (s : State) (core word : Nat) : State :=
  { s with
    pendReg := s.pendReg.filter (· ≠ (core, word))
    owners := s.owners.set none (ownKey (dieOf core) word) (if (s.l1At core (word / 32)).isSome then some core else none) }

/-- The last registration of a word of 8 bytes lets the core's stores to them reach the L2. -/
def State.endUnit (s : State) (core word : Nat) : State :=
  if s.pendReg.contains (core, word / 2 * 2) || s.pendReg.contains (core, word / 2 * 2 + 1) then s
  else s.publishUnit core (word * 4)

/-- The die's L2 holds the line of a word to be registered in M, unless no directory tracks it. -/
def State.claimLine (s : State) (core word : Nat) : State :=
  if s.untracked core word then s else s.moveL2 (dieOf core) (word / 32) .m

theorem execOwnershipRegister_eq (s : State) (core word : Nat) :
    execOwnershipRegister core word s =
      if s.registrable core word then
        finish ((((s.takeWord core word).claimLine core word).registers core word).endUnit core word)
      else finish s := rfl

/-- What precedes a registration: the stores of another core may reach memory, and the core's own line stays. -/
structure State.Taken (core word : Nat) (s t : State) : Prop where
  moved : State.LineMoved (word / 32) s t
  l1At : t.l1At core = s.l1At core
  pend : ∀ e ∈ t.pendReg, e ∈ s.pendReg

theorem State.taken_takeWord (hl : word / 32 < 0x40000000) : State.Taken core word s (s.takeWord core word) := by
  have hsame : State.Taken core word s s := ⟨.refl _ s, rfl, fun _ h => h⟩
  unfold State.takeWord
  split
  · next c _ =>
    split
    · exact hsame
    · next hc =>
      have hp : State.Publication c (word / 32) _ s (s.publishMask c (word / 32) (bitRun (word * 4 % 128 / 8 * 8) 8)) :=
        State.publication_publishMask hl _
      rw [State.publishUnit, show word * 4 / 128 = word / 32 by omega]
      exact ⟨hp.moved, hp.others core (Ne.symm hc), hp.pend⟩
  · exact hsame

/-- A word that the core has registered, before its stores reach the L2. -/
structure State.Registered (core word : Nat) (s t : State) : Prop where
  moved : State.LineMoved (word / 32) s t
  l1At : t.l1At core = s.l1At core
  owner : t.owner (dieOf core) word = if (s.l1At core (word / 32)).isSome then some core else none
  l2At : t.l2At (dieOf core) (word / 32) = .m
  pend : ∀ e ∈ t.pendReg, e ∈ s.pendReg ∧ e ≠ (core, word)

theorem State.Taken.registered {t : State} (h : State.Taken core word s t) (hl : word / 32 < 0x40000000) :
    State.Registered core word s ((t.moveL2 (dieOf core) (word / 32) .m).registers core word) := by
  have hm : State.Shifted (dieOf core) (word / 32) .m t (t.moveL2 (dieOf core) (word / 32) .m) := State.shifted_moveL2 hl _
  have hrest : (t.moveL2 (dieOf core) (word / 32) .m).l1At core = t.l1At core ∧
      (t.moveL2 (dieOf core) (word / 32) .m).pendReg = t.pendReg := by
    rw [State.moveL2_eq, if_pos rfl, State.placeL2_rest]
    exact ⟨rfl, rfl⟩
  obtain ⟨hl1, hpend⟩ := hrest
  generalize t.moveL2 (dieOf core) (word / 32) .m = u at hm hl1 hpend
  refine ⟨h.moved.trans (hm.moved.trans (.of_mem rfl)), hl1.trans h.l1At, ?_, (hm.l2At _).trans (if_pos rfl), fun e he => ?_⟩
  · rw [← h.l1At, ← hl1]
    exact Map.get_set_self _ _ _ _
  · obtain ⟨hmem, hne⟩ := List.mem_filter.mp he
    exact ⟨h.pend e (hpend ▸ hmem), of_decide_eq_true hne⟩

theorem exec_ownershipRegister (hh : s.hole = false) (hp : (core, word) ∈ s.pendReg) (hl : word / 32 < 0x40000000)
    (hx : s.l2At (dieOf core) (word / 32) = .m ∨ s.l2At (dieOf core) (word / 32) = .e)
    (hdec : ∀ x, s.l1At core (word / 32) = some x → x.decaf = false) :
    ∃ t, exec (.ownershipRegister core word) s = .next t ∧
      t.owner (dieOf core) word = (if (s.l1At core (word / 32)).isSome then some core else none) ∧
      (core, word) ∉ t.pendReg ∧ t.l2At (dieOf core) (word / 32) = .m ∧ s.Published t [word / 32] ∧ t.blocks = s.blocks ∧
      ((∀ w, w / 2 = word / 2 → (core, w) ∈ s.pendReg → w = word) →
        ∀ a v, a / 8 = word / 2 → s.ownByte core a = some v → t.byte a = v) := by
  have hreg : s.registrable core word = true := by
    rcases hx with hx | hx <;> simp [State.registrable, hp, hx]
  have htake : State.Taken core word s (s.takeWord core word) := State.taken_takeWord hl
  have hunt : (s.takeWord core word).untracked core word = false := by
    rw [State.untracked, htake.l1At]
    cases hl1 : s.l1At core (word / 32) with
    | none => rfl
    | some x => simp [State.remote, hdec x hl1]
  have he : exec (.ownershipRegister core word) s = execOwnershipRegister core word s := rfl
  rw [he, execOwnershipRegister_eq, if_pos hreg, State.claimLine, hunt, if_neg (by decide)]
  have hu := htake.registered hl
  generalize ((s.takeWord core word).moveL2 (dieOf core) (word / 32) .m).registers core word = u at hu
  unfold State.endUnit
  split
  · next hwait =>
    refine ⟨u, finish_of_noHole (hu.moved.hole.trans hh), hu.owner, fun h => (hu.pend _ h).2 rfl, hu.l2At, hu.moved.published,
      hu.moved.blocks, fun hall a v _ _ => ?_⟩
    have hno : ∀ w, w / 2 = word / 2 → (core, w) ∉ u.pendReg := fun w hw h => by
      obtain ⟨hs, hne⟩ := hu.pend _ h
      exact hne (by rw [hall w hw hs])
    simp [hno (word / 2 * 2) (by omega), hno (word / 2 * 2 + 1) (by omega)] at hwait
  · have hpub : State.Publication core (word / 32) (bitRun (word * 4 % 128 / 8 * 8) 8) u
        (u.publishMask core (word / 32) (bitRun (word * 4 % 128 / 8 * 8) 8)) := State.publication_publishMask hl _
    rw [State.publishUnit, show word * 4 / 128 = word / 32 by omega]
    generalize u.publishMask core (word / 32) (bitRun (word * 4 % 128 / 8 * 8) 8) = t at hpub
    have hmoved : State.LineMoved (word / 32) s t := hu.moved.trans hpub.moved
    refine ⟨t, finish_of_noHole (hmoved.hole.trans hh), ?_, fun h => (hu.pend _ (hpub.pend _ h)).2 rfl, ?_, hmoved.published,
      hmoved.blocks, fun _ a v ha hv => ?_⟩
    · rw [State.owner, hpub.rest]
      exact hu.owner
    · rw [State.l2At, hpub.rest]
      exact hu.l2At
    · refine hpub.plain (fun x hx => hdec x (by rw [← hu.l1At]; exact hx)) a v (by omega) ?_
        (by rw [State.ownByte_congr hu.l1At]; exact hv)
      exact getLsbD_bitRun (Nat.mod_lt a (by decide)) (by omega) (by omega) (by decide)

theorem exec_ownershipRecall (hh : s.hole = false) (die : Nat) (hl : line < 0x40000000) :
    ∃ t, exec (.ownershipRecall die line) s = .next t ∧ s.Published t [line] ∧ t.blocks = s.blocks ∧
      (∀ j < 32, t.owner die (line * 32 + j) = none) ∧
      ∀ k, ¬ (∃ j < 32, k = ownKey die (line * 32 + j)) → t.owners.get none k = s.owners.get none k := by
  have hr : State.Recalled die line (List.range 32) s (s.recallLine die line) := State.recalled_recallLine hl
  have he : exec (.ownershipRecall die line) s = finish (s.recallLine die line) := rfl
  rw [he]
  generalize s.recallLine die line = t at hr
  exact ⟨t, finish_of_noHole (hr.moved.hole.trans hh), hr.moved.published, hr.moved.blocks, fun j hj => hr.owner_eq_none hj,
    fun k hk => hr.owners_of_ne hk⟩

/-! ### Evictions -/

theorem State.lineBusy_congr {t : State} (h : t.txns = s.txns) (line : Nat) : t.lineBusy line = s.lineBusy line := by
  rw [State.lineBusy, h, State.lineBusy]

theorem exec_evict_of_busy (hh : s.hole = false) (hb : s.lineBusy line = true) :
    exec (.wbm d line) s = .next s ∧ exec (.putc d line) s = .next s := by
  constructor
  · exact (congrArg finish (if_neg (by simp [hb]))).trans (finish_of_noHole hh)
  · exact (congrArg finish (if_neg (by simp [hb]))).trans (finish_of_noHole hh)

theorem State.evictLine_of_idle (hl : line < 0x40000000) (hb : s.lineBusy line = false) :
    s.evictLine d line = (s.moveL2 d line .i).homeTakes d line (s.l2At d line) := by
  have hm : State.Shifted d line .i s (s.moveL2 d line .i) := State.shifted_moveL2 hl _
  unfold State.evictLine
  dsimp only
  generalize s.moveL2 d line .i = u at hm
  rw [if_neg (by rw [State.lineBusy_congr hm.txns, hb]; decide)]

theorem exec_wbm_of_idle (hl : line < 0x40000000) (hb : s.lineBusy line = false) {x : L2} (hx : s.l2At d line = x)
    (hd : x = .m ∨ x = .o) : exec (.wbm d line) s = finish ((s.moveL2 d line .i).homeWbm d line) := by
  have hmay : (!s.lineBusy line && (decide (s.l2At d line = .m) || decide (s.l2At d line = .o))) = true := by
    rcases hd with rfl | rfl <;> simp [hb, hx]
  have he : exec (.wbm d line) s = finish (s.evictLine d line) := congrArg finish (if_pos hmay)
  rw [he, State.evictLine_of_idle hl hb, hx]
  rcases hd with rfl | rfl <;> rfl

theorem exec_putc_of_idle (hl : line < 0x40000000) (hb : s.lineBusy line = false) {x : L2} (hx : s.l2At d line = x)
    (hd : x = .e ∨ x = .s) : exec (.putc d line) s = finish ((s.moveL2 d line .i).homePutc d line) := by
  have hmay : (!s.lineBusy line && (decide (s.l2At d line = .e) || decide (s.l2At d line = .s))) = true := by
    rcases hd with rfl | rfl <;> simp [hb, hx]
  have he : exec (.putc d line) s = finish (s.evictLine d line) := congrArg finish (if_pos hmay)
  rw [he, State.evictLine_of_idle hl hb, hx]
  rcases hd with rfl | rfl <;> rfl

/-! What a writeback does to the LLC, where no window has a format or is watched. -/

/-- Nothing but the LLC, side tags and the count of free values differs. -/
def State.LlcMoved (s t : State) : Prop := t = { s with llc := t.llc, sideTags := t.sideTags, tick := t.tick }

theorem State.LlcMoved.trans {t u : State} (h : s.LlcMoved t) (h' : t.LlcMoved u) : s.LlcMoved u := by
  unfold State.LlcMoved at *
  rw [h', h]

theorem State.LlcMoved.roasts {t : State} (h : s.LlcMoved t) : t.roasts = s.roasts := by rw [h]

theorem State.llcMoved_llcRoom (hr : s.roasts = []) (line : Nat) : s.LlcMoved (s.llcRoom line) := by
  have hevict : ∀ (t : State) l, t.roasts = [] → t.LlcMoved (t.llcEvict l) := by
    intro t l ht
    have htag : t.tagBack l = t := by simp [State.tagBack, State.scaledAt, ht]
    unfold State.llcEvict
    dsimp only
    rw [htag, ite_self]
    split <;> rfl
  unfold State.llcRoom
  dsimp only
  generalize (if s.llc.length < llcCap then [] else s.llc.filter fun e => s.home (e.1 * 128) = s.home (line * 128)) = l
  split
  · rfl
  · have hfree : s.LlcMoved s.freeNat.2 := rfl
    exact hfree.trans (hevict s.freeNat.2 _ hr)

theorem State.llcMoved_wroteBack (hw : s.watches = []) (hr : s.roasts = []) (line : Nat) : s.LlcMoved (s.wroteBack line) := by
  have hmark : s.mark (line * 128) 128 = s := if_pos (.inl hw)
  rw [State.wroteBack, hmark, State.llcTake]
  split
  · rfl
  · exact (State.llcMoved_llcRoom hr line).trans rfl

/-- What an eviction by die `d` leaves: the line's entry is `y`, and the die has no copy. -/
structure State.Evicted (d line : Nat) (y : Dir) (s t : State) : Prop where
  dirAt : t.dirAt line = y
  l2At : t.l2At d line = .i
  published : s.Published t [line]
  blocks : t.blocks = s.blocks
  hole : t.hole = s.hole

theorem State.Shifted.evicted {u v : State} {y : Dir} (h : State.Shifted d line .i s u) (hv : (u.setDir line y).LlcMoved v) :
    State.Evicted d line y s v := by
  have hm : State.LineMoved line s v := by
    refine h.moved.trans (.of_mem ?_)
    unfold State.LlcMoved at hv
    rw [hv]
    rfl
  unfold State.LlcMoved at hv
  refine ⟨?_, ?_, hm.published, hm.blocks, hm.hole⟩
  · rw [hv]
    exact Map.get_set_self _ _ _ _
  · rw [hv]
    exact (h.l2At d).trans (if_pos rfl)

section
variable (hl : line < 0x40000000) (hw : s.watches = []) (hr : s.roasts = [])
include hl hw hr

/-- The home agent takes the dirty data of the owner. -/
theorem State.evicted_homeWbm (ho : (s.dirAt line).owner = d) (hx : (s.dirAt line).state = 2 ∨ (s.dirAt line).state = 3) :
    State.Evicted d line (if (s.dirAt line).state = 2 then {} else (s.dirAt line).without d) s
      ((s.moveL2 d line .i).homeWbm d line) := by
  have hm : State.Shifted d line .i s (s.moveL2 d line .i) := State.shifted_moveL2 hl _
  generalize s.moveL2 d line .i = u at hm
  have hdir : u.dirAt line = s.dirAt line := by rw [State.dirAt, hm.dir, State.dirAt]
  have hback : ∀ y, (u.setDir line y).LlcMoved ((u.setDir line y).wroteBack line) := fun y =>
    State.llcMoved_wroteBack (s := u.setDir line y) (hm.moved.watches.trans hw) (hm.moved.roasts.trans hr) line
  refine hm.evicted ?_
  unfold State.homeWbm
  dsimp only
  rw [hdir]
  rcases hx with hx | hx
  · simp only [hx, ho, decide_true, Bool.and_self, if_true]
    exact hback _
  · simp [hx, ho]
    exact hback _

omit hw hr in
/-- The home agent takes note that a holder drops the line. -/
theorem State.evicted_homePutc (hx : (s.dirAt line).state = 2 ∧ (s.dirAt line).owner = d ∨
      (s.dirAt line).state = 1 ∧ (s.dirAt line).pres.getLsbD d = true) :
    State.Evicted d line (if (s.dirAt line).state = 2 then {} else (s.dirAt line).without d) s
      ((s.moveL2 d line .i).homePutc d line) := by
  have hm : State.Shifted d line .i s (s.moveL2 d line .i) := State.shifted_moveL2 hl _
  generalize s.moveL2 d line .i = u at hm
  have hdir : u.dirAt line = s.dirAt line := by rw [State.dirAt, hm.dir, State.dirAt]
  refine hm.evicted ?_
  unfold State.homePutc
  dsimp only
  rw [hdir]
  rcases hx with ⟨hx, ho⟩ | ⟨hx, hp⟩
  · simp [hx, ho]
    rfl
  · simp [hx, hp]
    rfl

end

/-- A holder that leaves a line to one other. -/
theorem Dir.without_of_two {x : Dir} {o : Nat} (hd : d < 4) (ho : o < 4) (hne : o ≠ d)
    (h : x.pres = 1#4 <<< d ||| 1#4 <<< o) : x.without d = { owner := 0, pres := 1#4 <<< o, state := 1 } := by
  have hall : ∀ d < 4, ∀ o < 4, o ≠ d → (1#4 <<< d ||| 1#4 <<< o) &&& ~~~(1#4 <<< d) = 1#4 <<< o ∧ 1#4 <<< o ≠ 0 := by decide
  obtain ⟨hp, h0⟩ := hall d hd o ho hne
  rw [Dir.without, h, hp, if_neg h0]

end Sys2Proof.Machine
end

section
/-! PROOFS. The writeback of a decaf copy (spec/10 R210). -/
namespace Sys2Proof.Machine

variable {s : State} {die line : Nat}

theorem State.decaf_setDecaf (s : State) (die line : Nat) (x : Option Decaf) : (s.setDecaf die line x).decaf die line = x :=
  Map.get_set_self none x s.decafs (decafKey die line)

/-- A step of a writeback: nothing differs but memory and its poison, the LLC with its side tags, and who owns words. -/
def State.HomeOnly (s t : State) : Prop :=
  t = { s with mem := t.mem, poisoned := t.poisoned, llc := t.llc, sideTags := t.sideTags, tick := t.tick, owners := t.owners }

theorem State.HomeOnly.trans {t u : State} (h : s.HomeOnly t) (h' : t.HomeOnly u) : s.HomeOnly u := by
  unfold State.HomeOnly at *
  rw [h', h]

theorem State.LlcMoved.homeOnly {t : State} (h : s.LlcMoved t) : s.HomeOnly t := by
  unfold State.LlcMoved at h
  unfold State.HomeOnly
  rw [h]

theorem State.llcMoved_llcFill (hr : s.roasts = []) (line : Nat) : s.LlcMoved (s.llcFill line) := by
  unfold State.llcFill
  split
  · rfl
  · have h : s.LlcMoved { s.llcRoom line with llc := (s.llcRoom line).llc.set 0 line 1 } :=
      (State.llcMoved_llcRoom hr line).trans rfl
    dsimp only
    generalize ({ s.llcRoom line with llc := (s.llcRoom line).llc.set 0 line 1 } : State) = t at h
    rw [show t.scaledAt (line * 128) = none from if_pos (h.roasts.trans hr)]
    exact h

theorem State.disown_rest (s : State) (pa n : Nat) : s.disown pa n = { s with owners := (s.disown pa n).owners } := by
  unfold State.disown
  split <;> rfl

section
variable (hw : s.watches = []) (hr : s.roasts = [])
include hw hr

/-- A byte that is written at its home, where nothing is watched and no window has a format. -/
theorem State.writeHome_one {pa : Nat} (hd : inDevice pa 1 = true) (x : Byte) :
    s.HomeOnly (s.writeHome pa [x]) ∧ ∀ a, (s.writeHome pa [x]).byte a = if a = pa then x else s.byte a := by
  have htouch : s.touch pa 1 = s.llcFill (pa / 128) := by
    simp [State.touch, hd]
  have hfill : s.LlcMoved (s.llcFill (pa / 128)) := State.llcMoved_llcFill hr _
  set u := (s.llcFill (pa / 128)).disown pa 1 with hu
  have hur : s.HomeOnly u := hfill.homeOnly.trans (by rw [State.HomeOnly, hu, State.disown_rest])
  have hwrite : u.HomeOnly (u.writePA pa [x]) := by
    rw [State.HomeOnly, State.writePA_rest hd]
  set v := (u.writePA pa [x]).llcDirty (pa / 128) with hv
  have hvr : s.HomeOnly v := (hur.trans hwrite).trans rfl
  have heq : s.writeHome pa [x] = v := by
    have hmark : v.mark pa 1 = v := if_pos (.inl (by rw [hvr]; exact hw))
    rw [State.writeHome, if_neg (by simp)]
    simp only [List.length_singleton, htouch]
    simpa using hmark
  rw [heq]
  refine ⟨hvr, fun a => ?_⟩
  have hbyte : v.byte a = (u.writePA pa [x]).byte a := rfl
  have hmem : u.mem = s.mem := by
    rw [hu, State.disown_mem, hfill]
  rw [hbyte, State.byte_writePA_one hd, State.byte, hmem, State.byte]

/-- Bytes of a line that a test picks are written at their home one after the other. -/
theorem State.foldl_writeHome (hl : line < 0x40000000) (p : Nat → Bool) (f : Nat → Byte) {n : Nat} (hn : n ≤ 128) :
    let t := (List.range n).foldl (fun s j => if p j then s.writeHome (line * 128 + j) [f j] else s) s
    s.HomeOnly t ∧ ∀ a, t.byte a = if a / 128 = line ∧ a % 128 < n ∧ p (a % 128) = true then f (a % 128) else s.byte a := by
  induction n with
  | zero => exact ⟨rfl, fun a => (if_neg (by omega)).symm⟩
  | succ n ih =>
    obtain ⟨hrest, hbyte⟩ := ih (by omega)
    dsimp only at hrest hbyte ⊢
    rw [List.range_succ, List.foldl_append, List.foldl_cons, List.foldl_nil]
    generalize (List.range n).foldl (fun s j => if p j then s.writeHome (line * 128 + j) [f j] else s) s = t at hrest hbyte
    split
    · next hp =>
      obtain ⟨h1, h2⟩ := State.writeHome_one (s := t) (by rw [hrest]; exact hw) (by rw [hrest]; exact hr)
        (inDevice_line hl (show n + 1 ≤ 128 by omega)) (f n)
      refine ⟨hrest.trans h1, fun a => ?_⟩
      rw [h2, hbyte]
      by_cases ha : a = line * 128 + n
      · have hmod : a % 128 = n := by omega
        rw [if_pos ha, if_pos ⟨by omega, by omega, by rw [hmod]; exact hp⟩, hmod]
      · rw [if_neg ha]
        refine if_congr ⟨fun ⟨h1, h2, h3⟩ => ⟨h1, by omega, h3⟩, fun ⟨h1, h2, h3⟩ => ⟨h1, by omega, h3⟩⟩ rfl rfl
    · next hp =>
      refine ⟨hrest, fun a => ?_⟩
      rw [hbyte]
      refine if_congr ⟨fun ⟨h1, h2, h3⟩ => ⟨h1, by omega, h3⟩, fun ⟨h1, h2, h3⟩ => ⟨h1, ?_, h3⟩⟩ rfl rfl
      by_contra hge
      exact hp (by rwa [show a % 128 = n by omega] at h3)

/-- A copy that is written back leaves its dirty bytes at their home. -/
theorem State.cleanDecaf_spec {c : Decaf} (hl : line < 0x40000000) (hc : s.decaf die line = some c) :
    (∃ u m, s.HomeOnly u ∧ s.cleanDecaf die line = { u with decafs := m }) ∧
      ∀ a, (s.cleanDecaf die line).byte a =
        if a / 128 = line ∧ c.dirty.getLsbD (a % 128) = true then c.data.getD (a % 128) 0 else s.byte a := by
  unfold State.cleanDecaf
  simp only [hc]
  split
  · next h0 =>
    refine ⟨⟨s, s.decafs, rfl, rfl⟩, fun a => (if_neg ?_).symm⟩
    rintro ⟨-, h⟩
    rw [h0] at h
    simp at h
  · obtain ⟨hrest, hbyte⟩ := State.foldl_writeHome hw hr hl c.dirty.getLsbD (fun j => (c.data[j]?).getD 0) (le_refl 128)
    generalize (List.range 128).foldl (fun s j => if c.dirty.getLsbD j then
      s.writeHome (line * 128 + j) [(c.data[j]?).getD 0] else s) s = t at hrest hbyte
    refine ⟨⟨t, _, hrest, rfl⟩, fun a => ?_⟩
    have hset : (t.setDecaf die line (some { c with dirty := 0 })).byte a = t.byte a := rfl
    rw [hset, hbyte, ← List.getD_eq_getElem?_getD]
    exact if_congr ⟨fun ⟨h1, _, h3⟩ => ⟨h1, h3⟩, fun ⟨h1, h3⟩ => ⟨h1, Nat.mod_lt a (by decide), h3⟩⟩ rfl rfl

theorem exec_decafWriteback {c : Decaf} (hh : s.hole = false) (hl : line < 0x40000000) (hc : s.decaf die line = some c) :
    ∃ t, exec (.decafWriteback die line) s = .next t ∧ t.decaf die line = none ∧ t.blocks = s.blocks ∧
      ∀ a, t.byte a = if a / 128 = line ∧ c.dirty.getLsbD (a % 128) = true then c.data.getD (a % 128) 0 else s.byte a := by
  obtain ⟨⟨u, m, hu, heq⟩, hbyte⟩ := State.cleanDecaf_spec hw hr hl hc
  rw [heq] at hbyte
  have he : exec (.decafWriteback die line) s = finish (State.setDecaf { u with decafs := m } die line none) :=
    congrArg (fun t : State => finish (t.setDecaf die line none)) heq
  unfold State.HomeOnly at hu
  refine ⟨_, he.trans (finish_of_noHole ?_), State.decaf_setDecaf _ _ _ _, ?_, hbyte⟩
  · rw [hu]
    exact hh
  · rw [hu]
    rfl

end

/-- Settles O38: each clause is a move of one line. A registration and a recall are publications of cores' stores to it, an
eviction a recall that the home agent takes note of, and a decaf writeback a row of writes at home. -/
theorem ownershipRules : Obligations.OwnershipRules := by
  unfold Obligations.OwnershipRules
  refine ⟨fun s hh => ⟨fun core word hp hl hx hdec => exec_ownershipRegister hh hp hl hx hdec,
      fun die line hl => exec_ownershipRecall hh die hl⟩,
    fun s d line hh hd hl => ⟨fun hb => exec_evict_of_busy hh hb, fun hb hw hr => ⟨fun hx h2 ho => ?_, fun hx h2 ho => ?_,
      fun o hod hne => ⟨fun hx hdir => ?_, fun hx hdir => ?_⟩⟩⟩,
    fun s die line c hh hl hw hr hc => exec_decafWriteback hw hr hh hl hc⟩
  · have h := State.evicted_homeWbm hl hw hr ho (.inl h2)
    rw [if_pos h2] at h
    exact ⟨_, (exec_wbm_of_idle hl hb hx (.inl rfl)).trans (finish_of_noHole (h.hole.trans hh)), h.dirAt, h.l2At, h.published,
      h.blocks⟩
  · have h := State.evicted_homePutc hl (.inl ⟨h2, ho⟩)
    rw [if_pos h2] at h
    exact ⟨_, (exec_putc_of_idle hl hb hx (.inl rfl)).trans (finish_of_noHole (h.hole.trans hh)), h.dirAt, h.l2At, h.published,
      h.blocks⟩
  · have hbit : ∀ d < 4, ∀ o < 4, (1#4 <<< d ||| 1#4 <<< o).getLsbD d = true := by decide
    have h := State.evicted_homePutc (s := s) (d := d) hl (.inr ⟨by rw [hdir], by rw [hdir]; exact hbit d hd o hod⟩)
    rw [hdir, if_neg (by simp), Dir.without_of_two hd hod hne rfl] at h
    exact ⟨_, (exec_putc_of_idle hl hb hx (.inr rfl)).trans (finish_of_noHole (h.hole.trans hh)), h.dirAt, h.l2At, h.published⟩
  · have h := State.evicted_homeWbm (s := s) (d := d) hl hw hr (by rw [hdir]) (.inr (by rw [hdir]))
    rw [hdir, if_neg (by simp), Dir.without_of_two hd hod hne rfl] at h
    exact ⟨_, (exec_wbm_of_idle hl hb hx (.inr rfl)).trans (finish_of_noHole (h.hole.trans hh)), h.dirAt, h.l2At, h.published⟩

end Sys2Proof.Machine
end

section
/-! PROOFS. Writes at the home of their bytes, and the links of the fabric (spec/10 R201; spec/17 R329; spec/27 R437). -/
namespace Sys2Proof.Machine

variable {s : State} {pa : Nat} {bs : List Byte}

/-! ### Memory after a write -/

/-- A write leaves memory alone but for its bytes. -/
theorem State.Stored.of_writePA (hd : inDevice pa bs.length = true) : s.Stored (s.writePA pa bs) pa bs := by
  refine ⟨fun j hj => ?_, fun a ha => State.byte_writePA_out s pa bs a (by omega)⟩
  rw [State.byte_writePA s pa bs hd, if_pos (Nat.le_add_right pa j), Nat.add_sub_cancel_left, List.getElem?_eq_getElem hj,
    List.getD_eq_getElem _ _ hj]
  rfl

/-- Only memory decides whether bytes stand there. -/
theorem State.Stored.of_mem {s' t t' : State} (h : s.Stored t pa bs) (hs : s'.mem = s.mem) (ht : t'.mem = t.mem) :
    s'.Stored t' pa bs := by
  unfold State.Stored State.byte at *
  rwa [hs, ht]

/-! ### Lines of the LLC -/

theorem State.llcMoved_foldl {α : Type} (f : State → α → State) (hr : s.roasts = [])
    (hf : ∀ (t : State) a, t.roasts = [] → t.LlcMoved (f t a)) (l : List α) : s.LlcMoved (l.foldl f s) := by
  induction l generalizing s with
  | nil => rfl
  | cons a l ih =>
    have h := hf s a hr
    exact h.trans (ih (h.roasts.trans hr))

theorem State.llcMoved_touch (hr : s.roasts = []) {n : Nat} (hd : inDevice pa n = true) : s.LlcMoved (s.touch pa n) := by
  unfold State.touch
  rw [hd, Bool.not_true, if_neg Bool.false_ne_true]
  split
  · rfl
  · exact State.llcMoved_foldl _ hr (fun t j ht => State.llcMoved_llcFill ht _) _

/-- A write at home is made once its lines are in the LLC, and then marked in the watch windows. -/
theorem State.writeHome_eq_mark (hr : s.roasts = []) (hd : inDevice pa bs.length = true) (hb : bs ≠ []) :
    ∃ u, s.HomeOnly u ∧ s.Stored u pa bs ∧ s.writeHome pa bs = u.mark pa bs.length := by
  have htouch := (State.llcMoved_touch (s := s) hr hd)
  have hown : (s.touch pa bs.length).HomeOnly ((s.touch pa bs.length).disown pa bs.length) := by
    rw [State.HomeOnly, State.disown_rest]
  have hread : s.HomeOnly ((s.touch pa bs.length).disown pa bs.length) := htouch.homeOnly.trans hown
  have hmem : ((s.touch pa bs.length).disown pa bs.length).mem = s.mem := by
    rw [State.disown_mem, htouch]
  rw [State.writeHome, if_neg hb]
  generalize (s.touch pa bs.length).disown pa bs.length = u at hread hmem
  have hput : u.HomeOnly (u.writePA pa bs) := by rw [State.HomeOnly, State.writePA_rest hd]
  have hroast : (u.writePA pa bs).roasts = [] := by rw [hread.trans hput]; exact hr
  have hdirty := State.llcMoved_foldl (fun (s : State) (j : Nat) => s.llcDirty (pa / 128 + j)) hroast (fun t j _ => rfl)
    (List.range ((pa + bs.length - 1) / 128 - pa / 128 + 1))
  have hstored : u.Stored (u.writePA pa bs) pa bs := .of_writePA hd
  exact ⟨_, (hread.trans hput).trans hdirty.homeOnly, hstored.of_mem hmem.symm (by rw [hdirty]), rfl⟩

/-- A write at home where nothing is watched. -/
theorem State.writeHome_stored (hw : s.watches = []) (hr : s.roasts = []) (hd : inDevice pa bs.length = true) :
    s.HomeOnly (s.writeHome pa bs) ∧ s.Stored (s.writeHome pa bs) pa bs := by
  by_cases hb : bs = []
  · subst hb
    exact ⟨rfl, fun j hj => absurd hj (Nat.not_lt_zero j), fun a _ => rfl⟩
  · obtain ⟨u, hu, hst, he⟩ := State.writeHome_eq_mark hr hd hb
    have hmark : u.mark pa bs.length = u := if_pos (.inl (by rw [hu]; exact hw))
    rw [he, hmark]
    exact ⟨hu, hst⟩

/-! ### The dirty maps of watch windows -/

/-- A window takes note of a write to a byte (the step of `State.markByte`). -/
def State.markWindow (s : State) (pa n : Nat) : State :=
  let w := s.watch n
  if w.en && decide (w.first ≤ pa) && decide (pa ≤ w.last) then
    let i := (pa - w.first) / 65536
    let a := w.live + i / 8
    { s with mem := Map.set memDefault s.mem a (s.byte a ||| (1#8 <<< (i % 8))) }
  else s

theorem State.markByte_eq (s : State) (pa : Nat) : s.markByte pa = (List.range 32).foldl (fun s n => s.markWindow pa n) s := rfl

/-- A note changes memory only, and clears no bit of it. -/
structure State.BitsSet (s t : State) : Prop where
  rest : t = { s with mem := t.mem }
  keeps : ∀ a k, (s.byte a).getLsbD k = true → (t.byte a).getLsbD k = true

theorem State.BitsSet.refl (s : State) : s.BitsSet s := ⟨rfl, fun _ _ h => h⟩

theorem State.BitsSet.trans {t u : State} (h : s.BitsSet t) (h' : t.BitsSet u) : s.BitsSet u :=
  ⟨by rw [h'.rest, h.rest], fun a k hk => h'.keeps a k (h.keeps a k hk)⟩

theorem State.BitsSet.watch {t : State} (h : s.BitsSet t) (n : Nat) : t.watch n = s.watch n := by rw [h.rest]; rfl

/-- A byte of memory after one byte of it is written. -/
theorem State.byte_setMem (s : State) (a : Nat) (x : Byte) (b : Nat) :
    ({ s with mem := Map.set memDefault s.mem a x } : State).byte b = if b = a then x else s.byte b := by
  simp [State.byte, Map.get_set]

theorem State.bitsSet_markWindow (s : State) (pa n : Nat) : s.BitsSet (s.markWindow pa n) := by
  unfold State.markWindow
  dsimp only
  split
  · refine ⟨rfl, fun a k h => ?_⟩
    rw [State.byte_setMem]
    split
    · next ha =>
      subst ha
      simp [h]
    · exact h
  · exact .refl s

theorem State.bitsSet_foldl (l : List Nat) (s : State) : s.BitsSet (l.foldl (fun s n => s.markWindow pa n) s) := by
  induction l generalizing s with
  | nil => exact .refl s
  | cons n l ih => exact (s.bitsSet_markWindow pa n).trans (ih _)

/-- The window's own note sets the bit of the tile in its live map. -/
theorem State.markWindow_sets {n : Nat} (he : (s.watch n).en = true) (hf : (s.watch n).first ≤ pa) (hl : pa ≤ (s.watch n).last) :
    ((s.markWindow pa n).byte ((s.watch n).live + (pa - (s.watch n).first) / 65536 / 8)).getLsbD
      ((pa - (s.watch n).first) / 65536 % 8) = true := by
  have hbit : ∀ k < 8, (1#8 <<< k).getLsbD k = true := by decide
  unfold State.markWindow
  dsimp only
  rw [if_pos (by simp [he, hf, hl]), State.byte_setMem, if_pos rfl, BitVec.getLsbD_or, hbit _ (Nat.mod_lt _ (by decide)),
    Bool.or_true]

theorem State.markByte_sets {n : Nat} (hn : n < 32) (he : (s.watch n).en = true) (hf : (s.watch n).first ≤ pa)
    (hl : pa ≤ (s.watch n).last) :
    ((s.markByte pa).byte ((s.watch n).live + (pa - (s.watch n).first) / 65536 / 8)).getLsbD
      ((pa - (s.watch n).first) / 65536 % 8) = true := by
  obtain ⟨before, after, hsplit⟩ := List.append_of_mem (List.mem_range.mpr hn)
  rw [State.markByte_eq, hsplit, List.foldl_append, List.foldl_cons]
  have hb := State.bitsSet_foldl (pa := pa) before s
  generalize before.foldl (fun s n => s.markWindow pa n) s = t at hb
  refine (State.bitsSet_foldl after _).keeps _ _ ?_
  rw [← hb.watch n] at he hf hl ⊢
  exact State.markWindow_sets he hf hl

/-- A write inside one tile is marked at its first byte. -/
theorem State.mark_of_tile (hw : s.watches ≠ []) {n : Nat} (hn : n ≠ 0) (ht : pa % 65536 + n ≤ 65536) :
    s.mark pa n = s.markByte pa := by
  have hone : (pa + n - 1) / 65536 - pa / 65536 + 1 = 1 := by
    have : (pa + n - 1) / 65536 = pa / 65536 := by omega
    omega
  rw [State.mark, if_neg (by simp [hw, hn]), hone]
  have hfirst : max pa ((pa / 65536 + 0) * 65536) = pa := Nat.max_eq_left (by omega)
  exact congrArg s.markByte hfirst

/-! ### Links -/

variable {l : Link}

theorem State.link_eta (s : State) (p m : Nat) : (s.link p m).port = p ∧ (s.link p m).peer = m := by
  unfold State.link
  cases h : s.links.find? fun l => l.port = p && l.peer = m with
  | none => exact ⟨rfl, rfl⟩
  | some l => simpa using List.find?_some h

/-- The links of other ports and peers. -/
def State.linksBut (s : State) (p m : Nat) : List Link := s.links.filter fun x => !(x.port = p && x.peer = m)

theorem State.setLink_links (s : State) (l : Link) : (s.setLink l).links = s.linksBut l.port l.peer ++ [l] := rfl

theorem State.link_setLink_self (s : State) (l : Link) : (s.setLink l).link l.port l.peer = l := by
  have hnone : (s.linksBut l.port l.peer).find? (fun x => x.port = l.port && x.peer = l.peer) = none := by
    rw [List.find?_eq_none]
    intro x hx
    have := (List.mem_filter.mp hx).2
    simpa [← not_and_or] using this
  rw [State.link, State.setLink_links, List.find?_append, hnone]
  simp

/-- Nothing but the links and what has been sent differs. -/
def State.LinksOnly (s t : State) : Prop := t = { s with links := t.links, sent := t.sent }

theorem State.LinksOnly.trans {t u : State} (h : s.LinksOnly t) (h' : t.LinksOnly u) : s.LinksOnly u := by
  unfold State.LinksOnly at *
  rw [h', h]

/-- The acknowledgement that a link of module `m` owes. -/
def Link.ackFrame (l : Link) (m : Nat) : Frame :=
  { blankFrame with
    port := l.port
    seq := ((List.range (l.seen.length + 1)).find? fun j => !l.seen.contains (BitVec.ofNat 32 j)).getD 0
    smod := m
    dmod := l.peer }

/-- A link sends the acknowledgement that it owes (the step of `State.sendAcks`). -/
def State.ackLink (s : State) (l : Link) : State :=
  if l.toAck then (s.setLink { l with toAck := false }).send kAck (l.ackFrame s.moduleNo) else s

theorem State.sendAcks_eq (h : s.hostQ = []) : s.sendAcks = s.links.foldl State.ackLink s := if_neg (not_not.mpr h)

theorem State.sendAcks_of_queued (h : s.hostQ ≠ []) : s.sendAcks = s := if_pos h

theorem State.sendAcks_of_noLinks (h : s.links = []) : s.sendAcks = s := by
  unfold State.sendAcks
  split
  · rfl
  · rw [h]
    rfl

theorem State.linksOnly_ackLink (s : State) (l : Link) : s.LinksOnly (s.ackLink l) := by
  unfold State.ackLink
  split <;> rfl

theorem State.linksOnly_foldl (ls : List Link) (s : State) : s.LinksOnly (ls.foldl State.ackLink s) := by
  induction ls generalizing s with
  | nil => rfl
  | cons l ls ih => exact (s.linksOnly_ackLink l).trans (ih _)

/-- A link that owes an acknowledgement sends it with the others, once nothing is queued for the HOST path. -/
theorem State.sendAcks_setLink (s : State) (hq : s.hostQ = []) (hl : l.toAck = true) :
    let t := (s.setLink l).sendAcks
    s.LinksOnly t ∧ t.link l.port l.peer = { l with toAck := false } ∧
      ∃ a, (kAck, a) ∈ t.sent ∧ a.port = l.port ∧ a.dmod = l.peer := by
  have hset : s.LinksOnly (s.setLink l) := rfl
  dsimp only
  rw [State.sendAcks_eq (s := s.setLink l) hq, State.setLink_links, List.foldl_append]
  have hrest := State.linksOnly_foldl (s.linksBut l.port l.peer) (s.setLink l)
  generalize (s.linksBut l.port l.peer).foldl State.ackLink (s.setLink l) = u at hrest
  have hack : u.ackLink l = (u.setLink { l with toAck := false }).send kAck (l.ackFrame u.moduleNo) := if_pos hl
  rw [List.foldl_cons, List.foldl_nil]
  refine ⟨(hset.trans hrest).trans (u.linksOnly_ackLink l), ?_, l.ackFrame u.moduleNo, ?_, rfl, rfl⟩
  · rw [hack]
    exact State.link_setLink_self u { l with toAck := false }
  · rw [hack]
    exact List.mem_append_right _ List.mem_cons_self

end Sys2Proof.Machine
end

section
/-! PROOFS. Writes of the host and the frames that a module receives (spec/11 R216, R231, R232; spec/27 R437, R438). -/
namespace Sys2Proof.Machine

variable {s : State}

/-! ### Writes of the host -/

section
variable {pa : Nat} {bs : List Byte} (hh : s.hole = false) (hr : s.roasts = []) (hd : pa + bs.length ≤ memEnd)
include hh hr hd

theorem exec_hostWrite (hw : s.watches = []) (hl : s.links = []) :
    ∃ t, exec (.hostWrite pa bs) s = .next t ∧ s.Stored t pa bs ∧ t.blocks = s.blocks := by
  obtain ⟨hrest, hst⟩ := State.writeHome_stored (s := { s with hostQ := s.hostQ.erase (pa, bs) }) hw hr (decide_eq_true hd)
  have he : exec (.hostWrite pa bs) s = finish ({ s with hostQ := s.hostQ.erase (pa, bs) }.writeHome pa bs).sendAcks := rfl
  generalize ({ s with hostQ := s.hostQ.erase (pa, bs) } : State).writeHome pa bs = t at hrest hst he
  rw [State.sendAcks_of_noLinks (by rw [hrest]; exact hl)] at he
  exact ⟨t, he.trans (finish_of_noHole (by rw [hrest]; exact hh)), hst.of_mem rfl rfl, by rw [hrest]⟩

/-- A write inside one tile sets the bit of the tile in the live map of a window that holds it. -/
theorem exec_hostWrite_marks (hb : bs ≠ []) (hl : s.links = []) (ht : pa % 65536 + bs.length ≤ 65536) {n : Nat} (hn : n < 32)
    (hen : (s.watch n).en = true) (hf : (s.watch n).first ≤ pa) (hlast : pa ≤ (s.watch n).last) :
    ∃ t, exec (.hostWrite pa bs) s = .next t ∧
      (t.byte ((s.watch n).live + (pa - (s.watch n).first) / 65536 / 8)).getLsbD ((pa - (s.watch n).first) / 65536 % 8) = true := by
  have hsome : s.watches ≠ [] := fun h => by
    have hdis : (s.watch n).en = false := by rw [State.watch, h]; simp [Map.get, Watch.en, bitAt]
    simp [hdis] at hen
  obtain ⟨u, hrest, -, heq⟩ :=
    State.writeHome_eq_mark (s := { s with hostQ := s.hostQ.erase (pa, bs) }) hr (decide_eq_true hd) hb
  have he : exec (.hostWrite pa bs) s = finish ({ s with hostQ := s.hostQ.erase (pa, bs) }.writeHome pa bs).sendAcks := rfl
  have hwatch : u.watch n = s.watch n := by rw [hrest]; rfl
  have hmark := State.mark_of_tile (s := u) (by rw [hrest]; exact hsome) (fun h => hb (List.eq_nil_of_length_eq_zero h)) ht
  have hset : u.BitsSet (u.markByte pa) := State.bitsSet_foldl _ u
  have hsets := State.markByte_sets (s := u) hn (hwatch ▸ hen) (hwatch ▸ hf) (hwatch ▸ hlast)
  rw [heq, hmark, State.sendAcks_of_noLinks (by rw [hset.rest, hrest]; exact hl)] at he
  exact ⟨_, he.trans (finish_of_noHole (by rw [hset.rest, hrest]; exact hh)), hwatch ▸ hsets⟩

end

/-! ### Frames -/

/-- Bytes of a number are those of its remainder. -/
theorem leBytes_mod (n v : Nat) : leBytes n (v % 2 ^ (8 * n)) = leBytes n v := by
  induction n generalizing v with
  | zero => rfl
  | succ n ih =>
    have hpow : 2 ^ (8 * (n + 1)) = 256 * 2 ^ (8 * n) := by rw [Nat.mul_succ, Nat.pow_add, Nat.mul_comm]
    rw [leBytes, leBytes, hpow, Nat.mod_mul_right_div_self, ih]
    refine congrArg (· :: _) (BitVec.eq_of_toNat_eq ?_)
    rw [BitVec.toNat_ofNat, BitVec.toNat_ofNat]
    exact Nat.mod_mul_right_mod v 256 _

/-- A module takes up a frame that is for it, of version 1 and not too long. -/
theorem State.mine_of {f : Frame} (hv : f.ver = 1) (hm : f.dmod = s.moduleNo) (hl : f.payload.length ≤ 4096) : s.mine f = true := by
  simp [State.mine, hv, hm, hl]

/-- A number that a link has seen is known. -/
theorem State.known_of_seen {t : State} {f : Frame} (h : BitVec.ofNat 32 f.seq ∈ (t.link f.port f.smod).seen) : t.known f = true :=
  List.contains_iff_mem.mpr h

/-- The link on which a numbered frame has been taken. -/
def State.takenLink (s : State) (f : Frame) : Link :=
  { s.link f.port f.smod with seen := (s.link f.port f.smod).seen ++ [BitVec.ofNat 32 f.seq], toAck := true }

theorem State.took_eq (s : State) (f : Frame) : s.took f = s.setLink (s.takenLink f) := rfl

theorem State.takenLink_port (s : State) (f : Frame) : (s.takenLink f).port = f.port := (s.link_eta f.port f.smod).1
theorem State.takenLink_peer (s : State) (f : Frame) : (s.takenLink f).peer = f.smod := (s.link_eta f.port f.smod).2

theorem State.link_took (s : State) (f : Frame) : (s.took f).link f.port f.smod = s.takenLink f := by
  have h := State.link_setLink_self s (s.takenLink f)
  rwa [s.takenLink_port, s.takenLink_peer] at h

section
variable {f : Frame} (hmine : s.mine f = true)
include hmine

theorem execData_bad (hg : f.good = false) : exec (.data f) s = finish (s.nak f 1) := by
  have he : exec (.data f) s = execData f s := rfl
  simp [he, execData, hmine, hg]

theorem execData_refused (hg : f.good = true) (hk : s.known f = false) (hr : (s.fn f.dvfn).receives f = false) :
    exec (.data f) s = finish (s.nak f 2) := by
  have he : exec (.data f) s = execData f s := rfl
  simp [he, execData, hmine, hg, hk, hr]

theorem execData_taken (hg : f.good = true) (hk : s.known f = false) (hr : (s.fn f.dvfn).receives f = true) {pa : Nat}
    (hp : s.cpPieces f.dvfn .write 3 (addr (bits64 (s.fn f.dvfn).rxCtl 63 16 * 65536 + bits64 f.arg 34 0)) f.payload.length =
      .ok [(pa, f.payload.length)]) :
    exec (.data f) s = finish (({ s with hostQ := s.hostQ ++ [(pa, f.payload)] }.took f).sendAcks) := by
  have he : exec (.data f) s = execData f s := rfl
  simp [he, execData, hmine, hg, hk, hr, hp]

theorem execRxnote_taken (hg : f.good = true) (hk : s.known f = false) (hf : f.dvfn ≤ 64)
    (hx : f.rxslot < bits64 (s.fn f.dvfn).rxCtr 11 0) (hq : s.hostQ = []) {pa : Nat}
    (hp : s.cpPieces f.dvfn .write 2 (addr (bits64 (s.fn f.dvfn).rxCtr 63 12 * 4096 + 8 * f.rxslot)) 8 = .ok [(pa, 8)]) :
    exec (.rxnote f) s = finish (((s.writeHome pa (leBytes 8 (s.num pa 8 + f.arg.toNat))).took f).sendAcks) := by
  have he : exec (.rxnote f) s = execRxnote f s := rfl
  have hnone : ({ s with hostQ := [] } : State) = s := by rw [← hq]
  have hfn : ¬ 64 < f.dvfn := by omega
  have hslot : ¬ bits64 (s.fn f.dvfn).rxCtr 11 0 ≤ f.rxslot := by omega
  simp [he, execRxnote, hmine, hg, hk, hfn, hslot, hp, hq, hnone, State.putPieces, State.num,
    List.take_of_length_le, length_leBytes]

end

/-- Settles O36: a write of the host is a write at home, which the watch windows note; a frame is answered, or joins the HOST
path, by the link that it came on; RXNOTE is a write at home and an acknowledgement. -/
theorem receiveRules : Obligations.ReceiveRules := by
  unfold Obligations.ReceiveRules
  refine ⟨fun s pa bs hh _ hr hd hb => ⟨fun hw hl => exec_hostWrite hh hr hd hw hl, fun n hn hen hf hlast ht hl =>
      exec_hostWrite_marks hh hr hd hb hl ht hn hen hf hlast⟩,
    fun s f hh hv hm hlen hne => ⟨fun hg => ?_, fun hg hk hr => ?_, fun pa hg hk hr hp => ?_⟩,
    fun s f pa hh hv hm hlen hg hk hf hx _ hw hr hq hd hp => ?_⟩
  · exact ⟨_, _, (execData_bad (State.mine_of hv hm hlen) hg).trans (finish_of_noHole hh), rfl, rfl, rfl, rfl, rfl, rfl⟩
  · exact ⟨_, _, (execData_refused (State.mine_of hv hm hlen) hg hk hr).trans (finish_of_noHole hh), rfl, rfl, rfl, rfl, rfl⟩
  · have he := execData_taken (State.mine_of hv hm hlen) hg hk hr hp
    rw [State.sendAcks_of_queued (by simp [State.took, State.setLink])] at he
    refine ⟨_, he.trans (finish_of_noHole hh), rfl, State.known_of_seen ?_, rfl⟩
    rw [State.link_took]
    exact List.mem_append_right _ List.mem_cons_self
  · have he := execRxnote_taken (State.mine_of hv hm hlen) hg hk hf hx hq hp
    obtain ⟨hrest, hst⟩ := State.writeHome_stored (s := s) (pa := pa) (bs := leBytes 8 (s.num pa 8 + f.arg.toNat)) hw hr
      (decide_eq_true (by rw [length_leBytes]; exact hd))
    generalize s.writeHome pa (leBytes 8 (s.num pa 8 + f.arg.toNat)) = u at hrest hst he
    obtain ⟨hlinks, hlink, a, ha, hport, hpeer⟩ :=
      State.sendAcks_setLink (l := u.takenLink f) u (by rw [hrest]; exact hq) rfl
    rw [u.takenLink_port, u.takenLink_peer] at hlink
    rw [u.takenLink_port] at hport
    rw [u.takenLink_peer] at hpeer
    have hsame : u.link f.port f.smod = s.link f.port f.smod := by rw [hrest]; rfl
    refine ⟨_, he.trans (finish_of_noHole (by rw [u.took_eq, hlinks, hrest]; exact hh)), ?_, ?_, a, ha, hport, hpeer⟩
    · rw [leBytes_mod 8 (s.num pa 8 + f.arg.toNat)]
      exact hst.of_mem rfl (by rw [u.took_eq, hlinks])
    · rw [u.took_eq, hlink, State.takenLink, hsame]

end Sys2Proof.Machine
end

section
/-! PROOFS. The acquire of a core, and an operation that one thread performs in its block (spec/10 R202; spec/13 R247, R250,
R251). -/
namespace Sys2Proof.Machine

/-! ### The acquire -/

section
variable {s : State} {core : Nat}

/-- Words of a line that bits of the core's mask stand for are the core's. -/
theorem State.owner_of_ownedMask {line j : Nat} (h : (s.ownedMask core line).getLsbD j = true) :
    s.owner (dieOf core) (line * 32 + j / 4) = some core := by
  have hrun : ∀ i, (bitRun (4 * i) 4).getLsbD j = true → j / 4 = i := fun i hi => by
    simp only [bitRun, BitVec.getLsbD_shiftLeft, BitVec.getLsbD_ushiftRight, BitVec.getLsbD_allOnes, Bool.and_eq_true,
      Bool.not_eq_true', decide_eq_true_eq, decide_eq_false_iff_not] at hi
    omega
  have hfold : ∀ (is : List Nat) (m : BitVec 128),
      (is.foldl (fun m i => if s.owner (dieOf core) (line * 32 + i) = some core then m ||| bitRun (4 * i) 4 else m) m).getLsbD j =
        true → m.getLsbD j = true ∨ s.owner (dieOf core) (line * 32 + j / 4) = some core := by
    intro is
    induction is with
    | nil => exact fun m h => .inl h
    | cons i is ih =>
      intro m h
      refine (ih _ h).elim (fun h => ?_) .inr
      dsimp only at h
      split at h
      · next ho =>
        rw [BitVec.getLsbD_or, Bool.or_eq_true] at h
        exact h.imp_right fun hi => hrun i hi ▸ ho
      · exact .inl h
  exact (hfold _ 0 h).resolve_left (by simp)

/-- What the core's copy of a line holds are words that it owns and stores that the L2 has not received. -/
def State.LineAcquired (s : State) (core line : Nat) : Prop :=
  ∀ x, s.l1At core line = some x → ∀ j < 128, x.valid.getLsbD j = true →
    x.dirty.getLsbD j = true ∨ s.owner (dieOf core) (line * 32 + j / 4) = some core

/-- The acquire of one line (the step of `State.acquire`). -/
def State.acquireLine (core : Nat) (s : State) (line : Nat) : State :=
  match s.l1At core line with
  | none => s
  | some x => s.dropMask core line (~~~(x.dirty ||| s.ownedMask core line))

theorem State.acquire_eq (s : State) (core : Nat) : s.acquire core = (s.l1Lines core).foldl (State.acquireLine core) s := rfl

theorem State.dropMask_of_some {line : Nat} {x : L1Line} (hx : s.l1At core line = some x) (m : BitVec 128) :
    s.dropMask core line m = s.setL1 core line (if x.valid &&& ~~~m = 0 then none else
      some { x with valid := x.valid &&& ~~~m, dirty := x.dirty &&& ~~~m }) := by
  rw [State.dropMask, hx]

theorem State.l1Only_acquireLine (s : State) (line : Nat) :
    State.L1Only core s (s.acquireLine core line) ∧ (s.acquireLine core line).mem = s.mem := by
  unfold State.acquireLine
  split
  · exact ⟨.refl core s, rfl⟩
  · next x hx =>
    rw [State.dropMask_of_some hx]
    exact ⟨.setL1 _ _ _ _, rfl⟩

theorem State.lineAcquired_acquireLine (s : State) (line : Nat) : (s.acquireLine core line).LineAcquired core line := by
  unfold State.acquireLine
  split
  · next hx =>
    intro x hx'
    simp [hx] at hx'
  · next x hx =>
    rw [State.dropMask_of_some hx]
    intro y hy j hj hv
    rw [State.l1At_setL1, if_pos rfl] at hy
    split at hy
    · exact absurd hy (by simp)
    · obtain rfl := Option.some.inj hy
      simp only [BitVec.not_not, BitVec.getLsbD_and, BitVec.getLsbD_or, Bool.and_eq_true, Bool.or_eq_true] at hv ⊢
      obtain ⟨-, hd | ho⟩ := hv
      · exact .inl ⟨hd, .inl hd⟩
      · exact .inr (State.owner_of_ownedMask ho)

/-- The acquire of another line keeps what a line has. -/
theorem State.LineAcquired.acquireLine {line : Nat} (h : s.LineAcquired core line) (l : Nat) :
    (s.acquireLine core l).LineAcquired core line := by
  by_cases hl : line = l
  · subst hl
    exact s.lineAcquired_acquireLine line
  · have hsame : (s.acquireLine core l).l1At core line = s.l1At core line := by
      unfold State.acquireLine
      split
      · rfl
      · next x hx => rw [State.dropMask_of_some hx, State.l1At_setL1, if_neg hl]
    intro x hx j hj hv
    rw [hsame] at hx
    have howner : (s.acquireLine core l).owners = s.owners := (s.l1Only_acquireLine l).1.owners
    rw [State.owner, howner]
    exact h x hx j hj hv

theorem State.lineAcquired_foldl (ls : List Nat) (s : State) {line : Nat} (h : line ∈ ls ∨ s.LineAcquired core line) :
    (ls.foldl (State.acquireLine core) s).LineAcquired core line := by
  induction ls generalizing s with
  | nil => exact h.resolve_left List.not_mem_nil
  | cons l ls ih =>
    refine ih _ ?_
    rcases h with h | h
    · rcases List.mem_cons.mp h with rfl | h
      · exact .inr (s.lineAcquired_acquireLine _)
      · exact .inl h
    · exact .inr (h.acquireLine l)

/-- After its acquire a core has acquired; nothing but its L1 differs. -/
theorem State.acquire_spec (s : State) (core : Nat) :
    State.L1Only core s (s.acquire core) ∧ (s.acquire core).mem = s.mem ∧ (s.acquire core).Acquired core := by
  rw [State.acquire_eq]
  refine ⟨.foldl _ (fun s l => (s.l1Only_acquireLine l).1) _ s, ?_, fun l => ?_⟩
  · have hmem : ∀ (ls : List Nat) (s : State), (ls.foldl (State.acquireLine core) s).mem = s.mem := by
      intro ls
      induction ls with
      | nil => exact fun s => rfl
      | cons l ls ih => exact fun s => (ih _).trans (s.l1Only_acquireLine l).2
    exact hmem _ s
  · refine State.lineAcquired_foldl _ s ?_
    by_cases hl : s.l1At core l = none
    · refine .inr fun x hx => ?_
      simp [hl] at hx
    · exact .inl (List.mem_map.mpr ⟨_, Map.mem_of_get_ne hl, rfl⟩)

end

/-! ### The own scratchpad -/

theorem State.scratchAccess_own {s : State} {b : Nat} {a : Word} {n align : Nat} (ha : a.toNat < 0x10000000)
    (hn : a.toNat + n ≤ (s.blk b).scratchSize) (hal : a.toNat % align = 0) :
    s.scratchAccess b a n align = .place (.scratch b a.toNat) := by
  have hmod : a.toNat % 0x10000000 = a.toNat := Nat.mod_eq_of_lt ha
  have hblk : s.scratchBlk b a = some b := by
    rw [State.scratchBlk, Nat.div_eq_of_lt ha]
    exact if_pos rfl
  unfold State.scratchAccess
  simp [hmod, hblk, hal, Nat.not_lt.mpr hn]

/-- Nothing is ahead of an access of a thread whose block has no instruction pending that is still to access memory. -/
theorem State.feedAhead_of_noneAhead {s : State} {b : Nat} (h : ∀ p ∈ (s.blk b).pend, p.k = none ∧ p.log = none) (t : Nat)
    (p : Place) : s.feedAhead b t p = false := by
  refine List.any_eq_false.mpr fun q hq => ?_
  obtain ⟨hk, hl⟩ := h q hq
  have hops : s.pendOps b q = [] := by simp [State.pendOps, hk, hl]
  simp [hops]

/-- Of block `b` at most the scratchpad differs, and no other block does; the machine has no new hole and no new error due. -/
structure State.ScratchMoved (b : Nat) (s t : State) : Prop where
  blk : t.blk b = { s.blk b with scratch := (t.blk b).scratch }
  others : ∀ c, c ≠ b → t.blocks.get none c = s.blocks.get none c
  has : s.hasBlk b → t.hasBlk b
  sel : t.sel = s.sel
  hole : t.hole = s.hole
  due : t.dueErrors = s.dueErrors

theorem State.ScratchMoved.of_blocks {b : Nat} {s t : State} (hb : t.blocks = s.blocks) (hs : t.sel = s.sel)
    (hh : t.hole = s.hole) (hd : t.dueErrors = s.dueErrors) : State.ScratchMoved b s t := by
  have hblk : t.blk b = s.blk b := by rw [State.blk, hb, State.blk]
  refine ⟨by rw [hblk], fun c _ => by rw [hb], fun h => ?_, hs, hh, hd⟩
  rwa [State.hasBlk, hb]

theorem State.ScratchMoved.trans {b : Nat} {s t u : State} (h : State.ScratchMoved b s t) (h' : State.ScratchMoved b t u) :
    State.ScratchMoved b s u := by
  refine ⟨?_, fun c hc => (h'.others c hc).trans (h.others c hc), fun hb => h'.has (h.has hb), h'.sel.trans h.sel,
    h'.hole.trans h.hole, h'.due.trans h.due⟩
  rw [h'.blk, h.blk]

theorem State.scratchMoved_setArrival {s : State} {b : Nat} (hb : s.hasBlk b) (off : Nat) (o : Arrival) :
    State.ScratchMoved b s (s.setArrival b off o) := by
  have ho := s.onlyBlocks_updBlk b fun k => { k with scratch := k.scratch.setList 0 off o.bytes }
  refine ⟨?_, fun c hc => ?_, fun h => (State.hasBlk_updBlk _ _ _ _).mpr h, ho.sel, ho.hole, ?_⟩
  · rw [State.setArrival, State.blk_updBlk_self _ _ _ hb]
  · rw [State.setArrival, State.blocks_updBlk, if_neg hc]
  · rw [State.setArrival, ho]

/-- The scratchpad with bytes written. -/
theorem Block.scratch_setList (m : Map Byte) (off : Nat) (bs : List Byte) :
    (∀ j < bs.length, (m.setList 0 off bs).get 0 (off + j) = bs.getD j 0) ∧
      ∀ a, ¬ (off ≤ a ∧ a < off + bs.length) → (m.setList 0 off bs).get 0 a = m.get 0 a := by
  refine ⟨fun j hj => ?_, fun a ha => ?_⟩
  · rw [Map.get_setList, if_pos (Nat.le_add_right off j), Nat.add_sub_cancel_left, List.getElem?_eq_getElem hj,
      List.getD_eq_getElem _ _ hj]
    rfl
  · rw [Map.get_setList]
    split
    · next h => rw [List.getElem?_eq_none (by omega)]; rfl
    · rfl

/-! ### One change of a block after another -/

section
variable {β : Type} [DecidableEq β]

omit [DecidableEq β] in
theorem Map.erase_insert (m : Map β) (k : Nat) (v : β) : Map.erase (Map.insert m k v) k = Map.erase m k := by
  induction m with
  | nil => simp [Map.insert, Map.erase]
  | cons e m ih =>
    obtain ⟨j, x⟩ := e
    rw [Map.insert]
    split
    · simp [Map.erase]
    · have htail : Map.erase (Map.insert m k v) k = Map.erase m k := ih
      unfold Map.erase at htail ⊢
      rw [List.filter_cons, List.filter_cons, htail]

/-- Of two writes at a key the last counts. -/
theorem Map.set_set (d : β) (m : Map β) (k : Nat) (v w : β) : (m.set d k v).set d k w = m.set d k w := by
  have herase : (m.set d k v).erase k = m.erase k := by
    have htwice : (m.erase k).erase k = m.erase k := by simp [Map.erase, List.filter_filter]
    unfold Map.set
    split
    · exact htwice
    · rw [Map.erase_insert, htwice]
  rw [Map.set, herase]
  rfl

end

theorem State.updBlk_updBlk (s : State) (b : Nat) (f g : Block → Block) :
    (s.updBlk b f).updBlk b g = s.updBlk b fun k => g (f k) := by
  cases hk : s.blocks.get none b with
  | none => simp [State.updBlk, hk]
  | some k =>
    simp only [State.updBlk, hk, Map.get_set_self, Map.set_set]

theorem Block.updThr_updThr (k : Block) (t : Nat) (f g : Thread → Thread) :
    (k.updThr t f).updThr t g = k.updThr t fun th => g (f th) := by
  unfold Block.updThr Map.upd
  dsimp only
  rw [Map.get_set_self, Map.set_set]

/-! ### One thread performs an operation -/

section
variable {s s' : State} {c : Ctx} {i : Instr} {h : Hdr} {o : MemOp} {F : State → MemOp → AccOut × State}
  (hov : s.overtakes c.b o.thr none ((s.blk c.b).ranges c.wp i o) = false)
include hov

/-- An operation that is done sends the threads that it concerns on. -/
theorem State.issueOps_done {v : QWord} (hF : F s o = (.done v, s')) (hd : s'.dueErrors = s.dueErrors)
    (hne : c.spread o.thr ≠ []) :
    s.issueOps c i h false 0 .none [o] F = s'.advance c.b (c.spread o.thr) c.next := by
  have hvals : ((c.spread o.thr).map fun t => (t, v)).map (·.1) = c.spread o.thr := by
    rw [List.map_map]
    exact List.map_id _
  have hdue : s'.spreadDue c s.dueErrors.length = s' := by simp [State.spreadDue, hd]
  simp only [State.issueOps, State.runOps, List.foldl_cons, List.foldl_nil, hov, Bool.false_eq_true, if_false, hF, Outs.add,
    List.nil_append, hdue, List.flatMap_cons, List.flatMap_nil, List.append_nil, hvals, hne, Block.putDst, if_true, State.advance,
    State.updBlk_updBlk]

/-- An operation that raises an exception raises it in the threads that it concerns. -/
theorem State.issueOps_throws {code : Word} {a : Aux} (hF : F s o = (.exc code a, s)) :
    s.issueOps c i h false 0 .none [o] F = (s.raiseAll c.b (c.spread o.thr) c.pc code a).updBlk c.b fun k => k := by
  simp [State.issueOps, State.runOps, hov, hF, State.spreadDue, Outs.add, Block.putDst]

end

section
variable {s s' : State} {i : Instr} {f : Uses} {x : Nat} (hp : s.Solo i f x)

/-- An operation of one thread concerns all of Executing. -/
theorem State.Solo.spread_eq (hp : s.Solo i f x) : (s.exeCtx f.h).spread x = s.executing f.h := by
  have hsole := hp.sole
  unfold State.acting at hsole
  show (if f.h.u = true then s.executing f.h else [x]) = _
  split
  · rfl
  · next hu => rw [← hsole, if_neg hu]

theorem State.Solo.mem_executing (hp : s.Solo i f x) : x ∈ s.executing f.h := by
  have hsole := hp.sole
  unfold State.acting at hsole
  split at hsole
  · next hu =>
    obtain rfl := List.singleton_inj.mp hsole
    by_contra hn
    have hidle := hp.toPasses.idle_of_uniform hu
    have hin := (s.mem_idle f.h (s.sel.thrs.headD 0)).mpr ⟨hp.toPasses.head_mem, hn⟩
    rw [hidle] at hin
    exact absurd hin List.not_mem_nil
  · rw [hsole]
    exact List.mem_singleton_self x

/-- A thread that executes stays where it is while the others go on. -/
theorem State.thr_advance_idle {h : Hdr} {y : Nat} (hy : y ∈ s.executing h) :
    (s.bk.advance (s.idle h) s.sel.next).thr y = s.bk.thr y := by
  rw [Block.thr_advance, if_neg fun hi => ((s.mem_idle h y).mp hi).2 hy]

include hp

/-- The operands of thread `x` at a scratchpad base, as an operation captures them. -/
def State.op32 (s : State) (h : Hdr) (x : Nat) (a : Src) (off : Word) (b c : Src) : MemOp :=
  { thr := x, ea := (s.bk.word x a + off).setWidth 64, b := s.bk.src x 1 b, c := s.bk.src x 1 c,
    thrs := if h.u then s.executing h else [], instr := s.issued }

section
variable {a b c : Src} {off : Word}

/-- The one thread performs the operation in the state in which the idle threads have gone on. -/
theorem opInstr_solo (F : Ctx → State → MemOp → AccOut × State) :
    opInstr i s f.h false 0 .none (cap32 a off 1 b 1 c) F = finish ((s.idleOn f.h).issueOps (s.exeCtx f.h) i f.h false 0 .none
      [s.op32 f.h x a off b c] (F (s.exeCtx f.h))) := by
  have hact : (s.exeCtx f.h).acting = [x] := hp.sole
  have hk := s.blk_idleOn f.h hp.hasBlk
  have hissued : (s.idleOn f.h).issued = s.issued := by rw [s.onlyBlocks_idleOn f.h]
  rw [opInstr, issue_of_passes hp.toPasses]
  dsimp only
  rw [show (s.exeCtx f.h).b = s.sel.blk from rfl, hk, hact, hissued]
  simp [State.op32, cap32, Block.ea32]
  rfl

/-- An operation that is done, having changed no more of its block than the scratchpad: the bundle passes. -/
theorem State.Solo.performs {F : Ctx → State → MemOp → AccOut × State} {v : QWord}
    (he : exec i s = opInstr i s f.h false 0 .none (cap32 a off 1 b 1 c) F)
    (hF : F (s.exeCtx f.h) (s.idleOn f.h) (s.op32 f.h x a off b c) = (.done v, s'))
    (hm : State.ScratchMoved s.sel.blk (s.idleOn f.h) s') :
    ∃ t, exec i s = .next t ∧ s'.OnlyBlocks t ∧ s.Passed t ∧ t.bk.scratch = (s'.blk s.sel.blk).scratch := by
  have hspread : (s.exeCtx f.h).spread (s.op32 f.h x a off b c).thr = s.executing f.h := hp.spread_eq
  rw [opInstr_solo hp, State.issueOps_done (hp.noOvertake _) hF hm.due (by rw [hspread]; exact hp.runs), hspread] at he
  change exec i s = finish (s'.advance s.sel.blk (s.executing f.h) s.sel.next) at he
  have hb1 : s'.hasBlk s.sel.blk := hm.has (s.hasBlk_idleOn f.h hp.hasBlk)
  have ho : s'.OnlyBlocks (s'.advance s.sel.blk (s.executing f.h) s.sel.next) := State.onlyBlocks_updBlk _ _ _
  have hkeep : s'.blk s.sel.blk =
      { s.bk.advance (s.idle f.h) s.sel.next with scratch := (s'.blk s.sel.blk).scratch } := by
    rw [← s.blk_idleOn f.h hp.hasBlk]
    exact hm.blk
  have hbk : (s'.advance s.sel.blk (s.executing f.h) s.sel.next).bk =
      (s'.blk s.sel.blk).advance (s.executing f.h) s.sel.next := by
    rw [State.bk, ho.sel, hm.sel, (s.onlyBlocks_idleOn f.h).sel, State.advance, State.blk_updBlk_self _ _ _ hb1]
  refine ⟨_, he.trans (finish_of_noHole ?_), ho, ⟨fun y => ?_, ?_, ?_, fun j hj => ?_⟩, by rw [hbk]; rfl⟩
  · rw [ho.hole, hm.hole, (s.onlyBlocks_idleOn f.h).hole, hp.noHole]
  · refine thr_goneOn (f := f) (fun k => { k with scratch := (s'.blk s.sel.blk).scratch }) (fun _ => rfl) ?_ y
    rw [hbk]
    exact congrArg (·.advance (s.executing f.h) s.sel.next) hkeep
  · rw [hbk, hkeep]
    exact Block.SameRegs.refl _
  · rw [hbk, hkeep]
    rfl
  · rw [State.advance, State.blocks_updBlk, if_neg hj, hm.others j hj, State.idleOn, State.advance, State.blocks_updBlk, if_neg hj]

/-- An operation that raises an exception and changes nothing: the instruction traps in Executing. -/
theorem State.Solo.throws {F : Ctx → State → MemOp → AccOut × State} {code : Word} {e : Aux}
    (he : exec i s = opInstr i s f.h false 0 .none (cap32 a off 1 b 1 c) F)
    (hF : F (s.exeCtx f.h) (s.idleOn f.h) (s.op32 f.h x a off b c) = (.exc code e, s.idleOn f.h)) :
    Traps s i (s.executing f.h) code := by
  have hspread : (s.exeCtx f.h).spread (s.op32 f.h x a off b c).thr = s.executing f.h := hp.spread_eq
  rw [opInstr_solo hp, State.issueOps_throws (hp.noOvertake _) hF, hspread] at he
  change exec i s = finish (((s.idleOn f.h).raiseAll s.sel.blk (s.executing f.h) s.sel.pc code e).updBlk s.sel.blk fun k => k) at he
  have hk := s.blk_idleOn f.h hp.hasBlk
  have h0 : s.ThreadsMoved s.sel.blk (s.idleOn f.h) := s.threadsMoved_advance _ _ _
  have h1 := (s.idleOn f.h).threadsMoved_raiseAll s.sel.blk (s.executing f.h) s.sel.pc code e
  have hraise := fun y => (s.idleOn f.h).raiseAll_spec (x := y) (State.nodup_executing (h := f.h) hp.distinct) s.sel.pc code e
    (s.hasBlk_idleOn f.h hp.hasBlk)
  generalize (s.idleOn f.h).raiseAll s.sel.blk (s.executing f.h) s.sel.pc code e = t at he h1 hraise
  have h2 : t.ThreadsMoved s.sel.blk (t.updBlk s.sel.blk fun k => k) := .updBlk _ _ _ (fun _ => rfl) fun _ _ => id
  have hm := (h0.trans h1).trans h2
  have hbk : (t.updBlk s.sel.blk fun k => k).bk = t.blk s.sel.blk := by
    rw [State.bk, hm.sel, State.blk_updBlk_self _ _ _ ((h0.trans h1).hasBlk hp.hasBlk)]
  refine ⟨_, he.trans (finish_of_noHole (hm.hole.trans hp.noHole)), fun y hy hcan => ?_, hm.mem, hm.sameRegs_bk hp.hasBlk⟩
  have hthry : ((s.idleOn f.h).blk s.sel.blk).thr y = s.bk.thr y := by rw [hk, State.thr_advance_idle hy]
  obtain ⟨hagent, hlive, hraised⟩ := hcan
  obtain ⟨e, hcode, hpc, hasync, hcarried, hthr, hstop⟩ := hraise y hy
    ⟨by rw [hk]; exact hagent, by rw [hthry]; exact hlive, by rw [hthry]; exact hraised⟩
  subst hcode
  rw [hthry] at hthr hstop
  rw [hk] at hstop
  exact State.raised_of_thr (by rw [hbk, hthr]) hpc hasync hcarried (h2.stops _ hstop)

end

end

end Sys2Proof.Machine
end

section
/-! PROOFS. Arrival objects (spec/11 R221..R224). -/
namespace Sys2Proof.Machine

/-! ### An object of the own scratchpad -/

section
variable {s : State} {i : Instr} {f : Uses} {x : Nat} (hp : s.Solo i f x)
include hp

theorem State.Solo.scratchAccess_idleOn {a : Word} {n align : Nat} (ha : s.InScratch a n align) :
    (s.idleOn f.h).scratchAccess s.sel.blk a n align = .place (.scratch s.sel.blk a.toNat) := by
  obtain ⟨hlow, hsize, halign⟩ := ha
  exact State.scratchAccess_own hlow (by rw [s.blk_idleOn f.h hp.hasBlk]; exact hsize) halign

theorem State.Solo.feedAhead_idleOn (t : Nat) (p : Place) : (s.idleOn f.h).feedAhead s.sel.blk t p = false := by
  refine State.feedAhead_of_noneAhead (fun q hq => ?_) t p
  rw [s.blk_idleOn f.h hp.hasBlk] at hq
  obtain ⟨r, hr, rfl⟩ := List.mem_map.mp hq
  exact hp.noneAhead r hr

theorem State.Solo.settle_idleOn (b t : Nat) (p : Place) (n : Nat) : (s.idleOn f.h).settle b t p n = s.idleOn f.h :=
  State.settle_of_noRed (by rw [s.onlyBlocks_idleOn f.h]; exact hp.noRed) b t p n

theorem State.Solo.arrival_idleOn (off : Nat) : (s.idleOn f.h).arrival s.sel.blk off = s.arrival s.sel.blk off := by
  rw [State.arrival, s.blk_idleOn f.h hp.hasBlk]
  rfl

/-- The operation that writes an object of the own scratchpad, and does nothing else. -/
theorem State.Solo.writesArrival {a b c : Src} {off : Word} {F : Ctx → State → MemOp → AccOut × State} {v : QWord} {at_ : Nat}
    {o : Arrival} (he : exec i s = opInstr i s f.h false 0 .none (cap32 a off 1 b 1 c) F)
    (hF : F (s.exeCtx f.h) (s.idleOn f.h) (s.op32 f.h x a off b c) = (.done v, (s.idleOn f.h).setArrival s.sel.blk at_ o)) :
    ∃ t, exec i s = .next t ∧ s.Scratched t at_ o.bytes ∧ s.Passed t ∧ t.mem = s.mem := by
  have hb0 := s.hasBlk_idleOn f.h hp.hasBlk
  obtain ⟨t, ht, ho, hpass, hscratch⟩ := hp.performs he hF (State.scratchMoved_setArrival hb0 at_ o)
  have hmem : t.mem = s.mem := by rw [ho, State.setArrival, State.onlyBlocks_updBlk, s.onlyBlocks_idleOn f.h]
  have hset : t.bk.scratch = s.bk.scratch.setList 0 at_ o.bytes := by
    rw [hscratch, State.setArrival, State.blk_updBlk_self _ _ _ hb0, s.blk_idleOn f.h hp.hasBlk]
    rfl
  refine ⟨t, ht, ?_, hpass, hmem⟩
  rw [State.Scratched, hset]
  exact Block.scratch_setList _ _ _

end

/-! ### AARM, AARRIVE and AWAIT -/

/-- The scratchpad address of the operands. -/
theorem State.op32_ea (s : State) (h : Hdr) (x : Nat) (a : Src) (off : Word) (b c : Src) :
    (s.op32 h x a off b c).ea.setWidth 32 = s.bk.word x a + off :=
  BitVec.setWidth_setWidth_of_le _ (by decide)

section
variable {s : State} {h : Hdr} {a b c : Src} {off : Word} {f : Uses} {x : Nat}

section
variable (hp : s.Solo (.aarm h a b c off) f x) (ha : s.InScratch (s.bk.word x a + off) 16 16)
include hp ha

/-- What AARM makes of the object that it reaches. -/
theorem aarmAt_solo : (s.idleOn f.h).aarmAt (s.exeCtx f.h) (s.op32 f.h x a off b c) =
    ((s.arrival s.sel.blk (s.bk.word x a + off).toNat).arm (s.bk.num x 1 b) (s.bk.num x 1 c)).elim
      (.exc cARMOVF .free, s.idleOn f.h)
      fun o => (.done 0, (s.idleOn f.h).setArrival s.sel.blk (s.bk.word x a + off).toNat o) := by
  have hword : ∀ y, (s.bk.src x 1 y).toNat % 2 ^ 32 = s.bk.num x 1 y := fun y =>
    Nat.mod_eq_of_lt (show s.bk.num x 1 y < 2 ^ 32 by rw [Block.num_one]; exact BitVec.isLt _)
  have hctx : (s.exeCtx f.h).b = s.sel.blk := rfl
  have hb : (s.op32 f.h x a off b c).b = s.bk.src x 1 b := rfl
  have hc : (s.op32 f.h x a off b c).c = s.bk.src x 1 c := rfl
  rw [State.aarmAt, State.op32_ea, hctx, hp.scratchAccess_idleOn ha]
  dsimp only
  rw [hp.feedAhead_idleOn, if_neg Bool.false_ne_true, hp.settle_idleOn, hp.arrival_idleOn, hb, hc, hword, hword]
  cases (s.arrival s.sel.blk (s.bk.word x a + off).toNat).arm (s.bk.num x 1 b) (s.bk.num x 1 c) <;> rfl

theorem aarm_arms (hn : (s.arrival s.sel.blk (s.bk.word x a + off).toNat).pend + s.bk.num x 1 b < 2 ^ 28) :
    let o := s.arrival s.sel.blk (s.bk.word x a + off).toNat
    ∃ t, exec (.aarm h a b c off) s = .next t ∧ s.Scratched t (s.bk.word x a + off).toNat
        { o with pend := o.pend + s.bk.num x 1 b, paths := o.paths ||| s.bk.num x 1 c % 16 }.bytes ∧
      s.Passed t ∧ t.mem = s.mem := by
  obtain rfl : f.h = h := by cases hp.row; rfl
  have hF := aarmAt_solo hp ha
  rw [Arrival.arm, if_neg (by omega)] at hF
  exact hp.writesArrival rfl hF

theorem aarm_overflows (hn : 2 ^ 28 ≤ (s.arrival s.sel.blk (s.bk.word x a + off).toNat).pend + s.bk.num x 1 b) :
    Traps s (.aarm h a b c off) (s.executing h) cARMOVF := by
  obtain rfl : f.h = h := by cases hp.row; rfl
  have hF := aarmAt_solo hp ha
  rw [Arrival.arm, if_pos (by omega)] at hF
  exact hp.throws rfl hF

end

theorem aarrive_arrives (hp : s.Solo (.aarrive h a off) f x) (ha : s.InScratch (s.bk.word x a + off) 16 16) :
    ∃ t, exec (.aarrive h a off) s = .next t ∧ s.Scratched t (s.bk.word x a + off).toNat
        (s.arrival s.sel.blk (s.bk.word x a + off).toNat).arriveOne.bytes ∧
      s.Passed t ∧ t.mem = s.mem := by
  obtain rfl : f.h = h := by cases hp.row; rfl
  refine hp.writesArrival (b := .zero) (c := .zero) (v := 0) rfl ?_
  have hctx : (s.exeCtx f.h).b = s.sel.blk := rfl
  rw [State.aarriveAt, State.op32_ea, hctx, hp.scratchAccess_idleOn ha]
  dsimp only
  rw [hp.feedAhead_idleOn, if_neg Bool.false_ne_true, hp.settle_idleOn, State.updArrival, hp.arrival_idleOn]

theorem Arrival.arriveOne_counts {o : Arrival} (h : 1 < o.arrive ∨ o.arrive = 1 ∧ o.pend ≠ 0) :
    o.arriveOne = { o with arrive := o.arrive - 1 } := by
  rw [Arrival.arriveOne, if_neg (by omega)]
  dsimp only
  rw [if_neg]
  simp only [Bool.and_eq_true, decide_eq_true_eq, not_and]
  omega

theorem Arrival.arriveOne_last {o : Arrival} (h1 : o.arrive = 1) (h0 : o.pend = 0) :
    o.arriveOne = { o with gen := (o.gen + 1) % 2 ^ 32, arrive := o.expect, hi := o.hi / 2 * 2 } := by
  rw [Arrival.arriveOne, if_neg (by omega)]
  dsimp only
  rw [if_pos (by simp [h1, h0])]
  rfl

theorem Arrival.arriveOne_extra {o : Arrival} (h : o.arrive = 0) :
    o.arriveOne = { o with hi := o.hi / 4 * 4 + 2 + o.hi % 2 } := if_pos h

section
variable (hp : s.Solo (.await h a b off) f x) (ha : s.InScratch (s.bk.word x a + off) 16 16)
include hp ha

/-- What AWAIT does with the object that it reaches. -/
theorem awaitAt_solo : (s.idleOn f.h).awaitAt (s.exeCtx f.h) (s.op32 f.h x a off b .zero) =
    if (s.arrival s.sel.blk (s.bk.word x a + off).toNat).passed (s.bk.word x b) &&
        (!(s.arrival s.sel.blk (s.bk.word x a + off).toNat).hostFed || s.hostQ = []) then (.done 0, (s.idleOn f.h).acquire s.bk.core)
    else (.moved, (s.idleOn f.h).setWait s.sel.blk x
      (.await s.sel.blk (s.bk.word x a + off).toNat (s.bk.word x b) s.sel.next)) := by
  have hctx : (s.exeCtx f.h).b = s.sel.blk := rfl
  have hb : (s.op32 f.h x a off b .zero).b.setWidth 32 = s.bk.word x b := rfl
  have hcore : ((s.idleOn f.h).blk s.sel.blk).core = s.bk.core := by rw [s.blk_idleOn f.h hp.hasBlk]; rfl
  have hqueue : (s.idleOn f.h).hostQ = s.hostQ := by rw [s.onlyBlocks_idleOn f.h]
  rw [State.awaitAt, State.op32_ea, hctx, hp.scratchAccess_idleOn ha]
  dsimp only
  rw [hp.settle_idleOn, hp.arrival_idleOn, hb, hcore, hqueue]
  rfl

omit ha in
theorem await_hdr : f.h = h ∧ f.h.u = false :=
  ⟨by cases hp.row; rfl, hp.not_uniform rfl rfl (by cases hp.row; rfl)⟩

theorem await_passes (hhost : (s.arrival s.sel.blk (s.bk.word x a + off).toNat).paths < 8)
    (hpass : (s.arrival s.sel.blk (s.bk.word x a + off).toNat).passed (s.bk.word x b) = true) :
    ∃ t, exec (.await h a b off) s = .next t ∧ t.mem = s.mem ∧ s.Passed t ∧ s.CachesOnly t ∧ t.Acquired s.bk.core := by
  obtain ⟨rfl, -⟩ := await_hdr hp
  obtain ⟨hl1, hmem, hacq⟩ := (s.idleOn f.h).acquire_spec s.bk.core
  have hF := awaitAt_solo hp ha
  have hfed : (s.arrival s.sel.blk (s.bk.word x a + off).toNat).hostFed = false :=
    decide_eq_false (Nat.not_le.mpr hhost)
  rw [hpass, hfed, Bool.not_false, Bool.true_or, Bool.true_and, if_pos rfl] at hF
  obtain ⟨t, ht, ho, hpassed, -⟩ := hp.performs (c := .zero) rfl hF
    (.of_blocks hl1.blocks hl1.sel (by rw [hl1.rest]) (by rw [hl1.rest]))
  have hidle := s.onlyBlocks_idleOn f.h
  have hcore : ∀ c, t.core c = ((s.idleOn f.h).acquire s.bk.core).core c := fun c => by rw [ho]; rfl
  have hcore0 : ∀ c, (s.idleOn f.h).core c = s.core c := fun c => by rw [hidle]; rfl
  refine ⟨t, ht, by rw [ho, hmem, hidle], hpassed, ⟨?_, fun c => ?_, fun c hc => ?_, hpassed.blocks⟩, fun l y hy j hj hv => ?_⟩
  · rw [ho, hl1.rest, hidle]
  · rw [hcore, hl1.lines c, hcore0]
  · rw [hcore, hl1.others c hc, hcore0]
  · rw [State.l1At, hcore] at hy
    have howner : t.owners = ((s.idleOn f.h).acquire s.bk.core).owners := by rw [ho]
    rw [State.owner, howner]
    exact hacq l y hy j hj hv

theorem await_waits (hpass : (s.arrival s.sel.blk (s.bk.word x a + off).toNat).passed (s.bk.word x b) = false) :
    ∃ t, exec (.await h a b off) s = .next t ∧ t.mem = s.mem ∧ s.bk.SameRegs t.bk ∧ t.bk.thr x = { s.bk.thr x with
        wait := some (.await s.sel.blk (s.bk.word x a + off).toNat (s.bk.word x b) s.sel.next) } := by
  obtain ⟨rfl, hu⟩ := await_hdr hp
  have hF := awaitAt_solo hp ha
  rw [hpass, Bool.false_and, if_neg Bool.false_ne_true] at hF
  have he : exec (.await f.h a b off) s = opInstr (.await f.h a b off) s f.h false 0 .none (cap32 a off 1 b 1 .zero)
      fun c s o => s.awaitAt c o := rfl
  rw [opInstr_solo hp, State.issueOps_moved (hp.noOvertake _) hu hF] at he
  rw [State.setWait, State.updThr, show (s.exeCtx f.h).b = s.sel.blk from rfl, State.updBlk_updBlk] at he
  set G : Block → Block := fun k => k.updThr x fun th =>
    { th with wait := some (.await s.sel.blk (s.bk.word x a + off).toNat (s.bk.word x b) s.sel.next) } with hG
  have hu : (s.idleOn f.h).OnlyBlocks ((s.idleOn f.h).updBlk s.sel.blk G) := State.onlyBlocks_updBlk _ _ _
  have ho := (s.onlyBlocks_idleOn f.h).trans hu
  have hbk : ((s.idleOn f.h).updBlk s.sel.blk G).bk = G (s.bk.advance (s.idle f.h) s.sel.next) := by
    rw [State.bk, ho.sel, State.blk_updBlk_self _ _ _ (s.hasBlk_idleOn f.h hp.hasBlk), s.blk_idleOn f.h hp.hasBlk]
  refine ⟨_, he.trans (finish_of_noHole (ho.hole.trans hp.noHole)), by rw [ho], ?_, ?_⟩
  · rw [hbk]
    exact Block.SameRegs.refl _
  · rw [hbk, hG, Block.thr_updThr, if_pos rfl, State.thr_advance_idle hp.mem_executing]

end

end

/-! ### The fence of the HOST path -/

/-- A wait for an object ends once its generation has passed, and every write of the HOST path that it asks for is made. -/
theorem State.endWait_await {s : State} {b x p off : Nat} {v : Word} {next : DWord}
    (hwait : (s.thr b x).wait = some (.await p off v next)) (hraised : (s.thr b x).raised = none)
    (hpass : (s.arrival p off).passed v = true) (hq : s.hostQ = []) :
    s.endWait b x = (s.acquire (s.blk b).core).updThr b x fun th => { th with wait := none, pc := next } := by
  have hwait' : ((s.blk b).thr x).wait = some (.await p off v next) := hwait
  have hholds : s.waitHolds b x = true := by simp [State.waitHolds, hwait', hpass, hq]
  rw [State.endWait]
  rw [hraised, hholds, Option.isSome_none, Bool.not_true, Bool.or_self, if_neg Bool.false_ne_true, hwait]

theorem exec_hostPathFence {s : State} {b x p off : Nat} {v : Word} {next : DWord} {pa : Nat} {bs : List Byte}
    (hh : s.hole = false) (hb : s.hasBlk b) (hw : s.watches = []) (hr : s.roasts = []) (hl : s.links = [])
    (hwait : (s.thr b x).wait = some (.await p off v next)) (hraised : (s.thr b x).raised = none)
    (hpass : (s.arrival p off).passed v = true) (hhost : 8 ≤ (s.arrival p off).paths) (hq : s.hostQ = [(pa, bs)])
    (hd : pa + bs.length ≤ memEnd) :
    ∃ t, exec (.hostPathFence b x) s = .next t ∧ s.Stored t pa bs ∧ t.hostQ = [] ∧ (t.thr b x).wait = none ∧
      (t.thr b x).pc = next := by
  obtain ⟨hrest, hst⟩ := State.writeHome_stored (s := { s with hostQ := [] }) hw hr (decide_eq_true hd)
  have hfed : (s.arrival p off).hostFed = true := decide_eq_true hhost
  have he : exec (.hostPathFence b x) s = execHostPathFence b x s := rfl
  rw [execHostPathFence, hwait] at he
  dsimp only at he
  rw [hpass, hfed, hraised, Option.isNone_none, Bool.and_self, Bool.and_self, if_pos rfl, hq, List.foldl_cons, List.foldl_nil] at he
  generalize ({ s with hostQ := [] } : State).writeHome pa bs = u at hrest hst he
  have hblk : u.blk = s.blk := by rw [hrest]; rfl
  have hthr : u.thr = s.thr := by funext c y; rw [State.thr, hblk, State.thr]
  have harr : u.arrival p off = s.arrival p off := by rw [State.arrival, hblk, State.arrival]
  rw [State.sendAcks_of_noLinks (by rw [hrest]; exact hl), State.endWait_await (by rw [hthr]; exact hwait)
    (by rw [hthr]; exact hraised) (by rw [harr]; exact hpass) (by rw [hrest])] at he
  obtain ⟨hl1, hmem, -⟩ := u.acquire_spec (u.blk b).core
  generalize u.acquire (u.blk b).core = w at hl1 hmem he
  have hwb : w.hasBlk b := by
    rw [State.hasBlk, hl1.blocks, hrest]
    exact hb
  have ho := w.onlyBlocks_updBlk b fun k => k.updThr x fun th => { th with wait := none, pc := next }
  have hthr' : (w.updThr b x fun th => { th with wait := none, pc := next }).thr b x =
      { w.thr b x with wait := none, pc := next } := by
    rw [State.thr, State.updThr, State.blk_updBlk_self _ _ _ hwb, Block.thr_updThr, if_pos rfl]
    rfl
  refine ⟨_, he.trans (finish_of_noHole ?_), ?_, ?_, ?_, ?_⟩
  · rw [State.updThr, ho.hole, hl1.rest, hrest]
    exact hh
  · exact hst.of_mem rfl (by rw [State.updThr, ho, hmem])
  · rw [State.updThr, ho, hl1.rest, hrest]
  · rw [hthr']
  · rw [hthr']

/-- Settles O23: AARM and AARRIVE are operations of one thread that write the object of its scratchpad; AWAIT acquires or waits;
the fence makes the write that is queued, and the wait ends. -/
theorem arrivalRules : Obligations.ArrivalRules := by
  unfold Obligations.ArrivalRules
  refine ⟨fun s => ⟨fun h a b c off f x hp ha => ⟨fun hn => aarm_arms hp ha hn, fun hn => aarm_overflows hp ha hn⟩,
    fun h a off f x hp ha => ?_, fun h a b off f x hp ha => ⟨fun hhost h1 h2 => ?_, fun hd => ?_⟩⟩,
    fun s b x p off v next pa bs hh hb _ hw hr hl hwait hraised hpass hhost hq hd =>
      exec_hostPathFence hh hb hw hr hl hwait hraised hpass hhost hq hd⟩
  · obtain ⟨t, ht, hsc, hpass, hmem⟩ := aarrive_arrives hp ha
    exact ⟨t, ht, hpass, hmem, fun hc => Arrival.arriveOne_counts hc ▸ hsc, fun h1 h0 => Arrival.arriveOne_last h1 h0 ▸ hsc,
      fun h0 => Arrival.arriveOne_extra h0 ▸ hsc⟩
  · refine await_passes hp ha hhost ?_
    rw [Arrival.passed, ← Block.num_one]
    simp only [Bool.and_eq_true, decide_eq_true_eq]
    exact ⟨h1, h2⟩
  · refine await_waits hp ha ?_
    rw [Arrival.passed, ← Block.num_one]
    simp only [Bool.and_eq_false_iff, decide_eq_false_iff_not]
    omega

end Sys2Proof.Machine
end

section
/-! PROOFS. Copies: where an engine reaches, and what it reads and writes there (spec/11 R219, R220). -/
namespace Sys2Proof.Machine

/-! ### The places that an engine reaches -/

theorem State.enginePlaces_of {s : State} {look : State → DWord → Access × State} {p : Nat → Place} {n : Nat} {va : DWord}
    (h : ∀ j < n, look s (va + BitVec.ofNat 64 j) = (.place (p j), s)) :
    s.enginePlaces look n va = (.ok ((List.range n).map p), s) := by
  induction n generalizing va p with
  | zero => rfl
  | succ n ih =>
    have h0 : look s va = (.place (p 0), s) := by simpa using h 0 (Nat.succ_pos n)
    have hrest : s.enginePlaces look n (va + 1) = (.ok ((List.range n).map (p ∘ Nat.succ)), s) := by
      refine ih fun j hj => ?_
      have hnext : va + 1 + BitVec.ofNat 64 j = va + BitVec.ofNat 64 (j + 1) := by
        rw [BitVec.add_assoc, BitVec.ofNat_add, BitVec.add_comm (BitVec.ofNat 64 j)]
        rfl
      rw [hnext]
      exact h (j + 1) (Nat.succ_lt_succ hj)
    rw [State.enginePlaces, h0]
    dsimp only
    rw [hrest]
    dsimp only
    rw [List.range_succ_eq_map, List.map_cons, List.map_map]

theorem State.enginePlaces_fails {s s' : State} {look : State → DWord → Access × State} {n : Nat} (hn : n ≠ 0) {va : DWord}
    {a : Access} (h : look s va = (a, s')) (ha : ∀ p, a ≠ .place p) : s.enginePlaces look n va = (.error a, s') := by
  obtain ⟨m, rfl⟩ := Nat.exists_eq_succ_of_ne_zero hn
  rw [State.enginePlaces, h]
  cases a with
  | place p => exact absurd rfl (ha p)
  | exc c x => rfl
  | page v c g => rfl
  | stall => rfl

theorem toNat_add_ofNat {va : DWord} {j : Nat} (h : va.toNat + j < 2 ^ 64) : (va + BitVec.ofNat 64 j).toNat = va.toNat + j := by
  rw [BitVec.toNat_add, BitVec.toNat_ofNat, Nat.mod_eq_of_lt (show j < 2 ^ 64 by omega), Nat.mod_eq_of_lt h]

/-- A copy's side in the scratchpad. -/
theorem State.copySide_scratch {s : State} {q : Copy} {kind : AccKind} {va : DWord} {n : Nat} (h : s.scratchHolds q.blk va n) :
    ∀ j < n, s.copySide q true kind (va + BitVec.ofNat 64 j) = (.place (.scratch q.blk (va.toNat + j)), s) := by
  intro j hj
  obtain ⟨hlow, hsize⟩ := h
  have hva := toNat_add_ofNat (va := va) (j := j) (by omega)
  have hw : ((va + BitVec.ofNat 64 j).setWidth 32).toNat = va.toNat + j := by
    rw [BitVec.toNat_setWidth, hva]
    omega
  have hacc := State.scratchAccess_own (s := s) (b := q.blk) (a := (va + BitVec.ofNat 64 j).setWidth 32) (n := 1) (align := 1)
    (by omega) (by omega) (Nat.mod_one _)
  rw [State.copySide, if_pos rfl, hacc, hw]

/-- Addresses in one 8-byte unit are in one space. -/
theorem deviceSpace_congr {a b : DWord} (h : a.toNat / 8 = b.toNat / 8) : deviceSpace a = deviceSpace b := by
  have hbits : ∀ hi lo, 3 ≤ lo → bits64 a hi lo = bits64 b hi lo := by
    intro hi lo hlo
    have hpow : 2 ^ lo = 8 * 2 ^ (lo - 3) := by
      rw [show (8 : Nat) = 2 ^ 3 from rfl, ← Nat.pow_add, Nat.add_sub_cancel' hlo]
    rw [bits64, bits64, hpow, ← Nat.div_div_eq_div_mul, ← Nat.div_div_eq_div_mul, h]
  have hbit : bitAt a 56 = bitAt b 56 := by
    have h56 := hbits 56 56 (by decide)
    simp only [bits64, Nat.add_sub_cancel_left, pow_one] at h56
    rw [bitAt, bitAt, BitVec.getLsbD, BitVec.getLsbD, Nat.testBit_eq_decide_div_mod_eq, Nat.testBit_eq_decide_div_mod_eq, h56]
  simp only [deviceSpace, canonical, inFabric, inAperture, hbit, hbits 63 56 (by decide), hbits 63 32 (by decide)]

/-- An engine of a core that reaches bytes of memory. -/
theorem State.EngineReaches.engineByte {s : State} {core fn n pa : Nat} {va : DWord} {kind : AccKind}
    (h : s.EngineReaches core fn va n kind pa) :
    ∀ j < n, s.engineByte core fn (va + BitVec.ofNat 64 j) kind = (.place (.mem (pa + j) false), s) := by
  intro j hj
  obtain ⟨hspace, hunit, ⟨pg, htlb, hholds, hbits, hperm, hdecaf, rfl⟩, -⟩ := h
  have hva : (va + BitVec.ofNat 64 j).toNat = va.toNat + j := toNat_add_ofNat (by have := va.isLt; omega)
  have hsame : (va + BitVec.ofNat 64 j).toNat / 8 = va.toNat / 8 := by omega
  have hpow : 2 ^ pg.bits = 8 * 2 ^ (pg.bits - 3) := by
    rw [show (8 : Nat) = 2 ^ 3 from rfl, ← Nat.pow_add, Nat.add_sub_cancel' (by omega)]
  have hpage : (va.toNat + j) / 2 ^ pg.bits = va.toNat / 2 ^ pg.bits := by
    rw [hpow, ← Nat.div_div_eq_div_mul, ← Nat.div_div_eq_div_mul, ← hva, hsame]
  have hholds' : pg.holds fn (va.toNat + j) = true := by rwa [Xlat.holds, hpage]
  have haddr : pg.addr (va.toNat + j) = pg.addr va.toNat + j := by
    have h1 := Nat.div_add_mod (va.toNat + j) (2 ^ pg.bits)
    have h2 := Nat.div_add_mod va.toNat (2 ^ pg.bits)
    rw [hpage] at h1
    rw [Xlat.addr, Xlat.addr]
    omega
  have hwalk : s.engineWalk core fn (va.toNat + j) kind = (.ok pg, s) := by
    unfold State.engineWalk
    simp [htlb, hholds', hperm]
  rw [State.engineByte, deviceSpace_congr hsame, hspace, Bool.not_true, if_neg Bool.false_ne_true, hva, hwalk]
  dsimp only
  rw [haddr, hdecaf]

/-! ### What it reads and writes -/

section
variable {s : State} {q : Copy}

theorem Map.getList_snoc {β : Type} (d : β) (m : Map β) (k n : Nat) :
    m.getList d k (n + 1) = m.getList d k n ++ [m.get d (k + n)] := by
  induction n generalizing k with
  | zero => rfl
  | succ n ih =>
    rw [Map.getList, ih (k + 1), Map.getList, List.cons_append, Nat.add_assoc, Nat.add_comm 1 n]

/-- Consecutive bytes of the scratchpad, read one by one. -/
theorem State.engineReads_scratch (s : State) (q : Copy) (b off n : Nat) :
    s.engineReads q ((List.range n).map fun j => .scratch b (off + j)) = ((s.blk b).scratch.getList 0 off n, s) := by
  have hread : ∀ j, s.engineRead q (.scratch b (off + j)) = ((s.blk b).scratch.get 0 (off + j), s) := fun j => by
    unfold State.engineRead
    split
    · next h => cases h
    · rfl
  induction n with
  | zero => rfl
  | succ n ih =>
    rw [State.engineReads, List.range_succ, List.map_append, List.foldl_append, ← State.engineReads, ih, List.map_cons,
      List.map_nil, List.foldl_cons, List.foldl_nil]
    dsimp only
    rw [hread, Map.getList_snoc]

/-- A copy of a thread writes its bytes one by one. -/
theorem State.engineWrites_cons (hq : q.packet = none) (p : Nat → Place) (x : Byte) (bs : List Byte) :
    s.engineWrites q ((List.range (bs.length + 1)).map p) (x :: bs) =
      (s.writePlace q.blk .engine (p 0) [x]).engineWrites q ((List.range bs.length).map fun j => p (j + 1)) bs := by
  have hzip : ((List.range (bs.length + 1)).map p).zip (x :: bs) =
      (p 0, x) :: ((List.range bs.length).map fun j => p (j + 1)).zip bs := by
    rw [List.range_succ_eq_map, List.map_cons, List.map_map]
    rfl
  rw [State.engineWrites, hzip, List.foldl_cons, hq, State.engineWrites, hq]

/-- Bytes of the scratchpad of block `b` have been written, and nothing outside the block. -/
structure State.ScratchWritten (b off : Nat) (bs : List Byte) (s t : State) : Prop where
  frame : s.OnlyBlocks t
  has : t.hasBlk b
  get : ∀ a, (t.blk b).scratch.get 0 a = ((s.blk b).scratch.setList 0 off bs).get 0 a

theorem State.engineWrites_scratch (hq : q.packet = none) {b : Nat} (hb : s.hasBlk b) (bs : List Byte) (off : Nat) :
    State.ScratchWritten b off bs s (s.engineWrites q ((List.range bs.length).map fun j => .scratch b (off + j)) bs) := by
  induction bs generalizing s off with
  | nil => exact ⟨rfl, hb, fun a => rfl⟩
  | cons x bs ih =>
    have ho : s.OnlyBlocks (s.writePlace q.blk .engine (.scratch b off) [x]) := State.onlyBlocks_updBlk _ _ _
    have hk : ((s.writePlace q.blk .engine (.scratch b off) [x]).blk b).scratch = (s.blk b).scratch.set 0 off x := by
      rw [State.writePlace, State.blk_updBlk_self _ _ _ hb]
      rfl
    have h := ih (s := s.writePlace q.blk .engine (.scratch b off) [x]) ((State.hasBlk_updBlk _ _ _ _).mpr hb) (off + 1)
    have hnext : (fun j => Place.scratch b (off + (j + 1))) = fun j => Place.scratch b (off + 1 + j) := by
      funext j
      rw [Nat.add_assoc, Nat.add_comm 1 j]
    rw [List.length_cons, State.engineWrites_cons hq, Nat.add_zero, hnext]
    refine ⟨ho.trans h.frame, h.has, fun a => ?_⟩
    rw [h.get, hk]
    rfl

/-- A byte, and then the bytes after it. -/
theorem State.Stored.cons {s t u : State} {pa : Nat} {x : Byte} {bs : List Byte}
    (h : ∀ a, t.byte a = if a = pa then x else s.byte a) (h' : t.Stored u (pa + 1) bs) : s.Stored u pa (x :: bs) := by
  obtain ⟨hin, hout⟩ := h'
  refine ⟨fun j hj => ?_, fun a ha => ?_⟩
  · cases j with
    | zero =>
      rw [Nat.add_zero, hout pa (by omega), h, if_pos rfl]
      rfl
    | succ j =>
      have hj' := hin j (Nat.lt_of_succ_lt_succ hj)
      rwa [Nat.add_assoc, Nat.add_comm 1 j] at hj'
  · rw [List.length_cons] at ha
    rw [hout a (by omega), h, if_neg (by omega)]

theorem State.engineWrites_mem (hq : q.packet = none) (hw : s.watches = []) (hr : s.roasts = [])
    (hc : (s.blk q.blk).contained = false) (bs : List Byte) {pa : Nat} (hd : pa + bs.length ≤ memEnd) :
    s.HomeOnly (s.engineWrites q ((List.range bs.length).map fun j => .mem (pa + j) false) bs) ∧
      s.Stored (s.engineWrites q ((List.range bs.length).map fun j => .mem (pa + j) false) bs) pa bs := by
  induction bs generalizing s pa with
  | nil => exact ⟨rfl, fun j hj => absurd hj (Nat.not_lt_zero j), fun a _ => rfl⟩
  | cons x bs ih =>
    rw [List.length_cons] at hd
    have hput : s.writePlace q.blk .engine (.mem pa false) [x] = s.writeHome pa [x] := by
      simp [State.writePlace, State.store, Block.tentative, hc, State.storeThrough, State.dieStore, State.remote]
    obtain ⟨hone, hbyte⟩ := State.writeHome_one hw hr (decide_eq_true (show pa + 1 ≤ memEnd by omega)) x
    have hnext : (fun j => Place.mem (pa + (j + 1)) false) = fun j => Place.mem (pa + 1 + j) false := by
      funext j
      rw [Nat.add_assoc, Nat.add_comm 1 j]
    rw [List.length_cons, State.engineWrites_cons hq, Nat.add_zero, hput, hnext]
    generalize s.writeHome pa [x] = u at hone hbyte
    obtain ⟨hrest, hst⟩ := ih (s := u) (by rw [hone]; exact hw) (by rw [hone]; exact hr)
      (by rw [show u.blk = s.blk by rw [hone]; rfl]; exact hc) (pa := pa + 1) (by omega)
    exact ⟨hone.trans hrest, .cons hbyte hst⟩

end

end Sys2Proof.Machine
end

section
/-! PROOFS. The landing of a copy, and the exception that it reports (spec/11 R219, R220; spec/23 R400). -/
namespace Sys2Proof.Machine

/-! ### A landing -/

/-- Bytes of the only copy of a thread have landed: it is over when none is left. -/
theorem State.landed_one {s : State} {q : Copy} (hone : s.copies = [q]) (hpk : q.packet = none) (hrx : q.rxNote = false)
    (haoff : q.aoff = 0xFFFFFFFF) (hfab : inFabric q.dst = false) (n : Nat) :
    s.landed q.id n = { s with copies := if q.todo = [] then [] else [q] } := by
  have hobj : s.onObject q.blk q.aoff (fun a => a.credit n) = s := by
    rw [State.onObject, State.objectAt, if_pos haoff]
  have hland : q.landed = decide (q.todo = []) := by simp [Copy.landed, hfab]
  have hfind : s.copies.find? (fun x => x.id = q.id) = some q := by simp [hone]
  rw [State.landed, hfind]
  dsimp only
  rw [hobj, hpk, hrx, hland, Option.isNone_none, Bool.true_and, Bool.not_false, Bool.and_true]
  by_cases htodo : q.todo = []
  · simp [htodo, hone]
  · simp [htodo, ← hone]

/-- The bytes that have landed are taken off the copy; with the last it is over. -/
theorem State.landed_take {s : State} {q : Copy} (hone : s.copies = [q]) (hpk : q.packet = none) (hrx : q.rxNote = false)
    (haoff : q.aoff = 0xFFFFFFFF) (hfab : inFabric q.dst = false) (o n : Nat) :
    (s.updCopy q.id fun x => x.take o n).landed q.id n =
      { s with copies := if (q.take o n).todo = [] then [] else [q.take o n] } := by
  have htake : (s.updCopy q.id fun x => x.take o n).copies = [q.take o n] := by simp [State.updCopy, hone]
  exact State.landed_one htake hpk hrx haoff hfab n

/-- The only copy is one of a thread of a running block, asks for no RXNOTE, and neither waits for a verdict nor has stopped. -/
structure State.OnlyCopy (s : State) (q : Copy) : Prop where
  one : s.copies = [q]
  noFault : q.fault = none
  goesOn : q.stopped = false
  own : q.packet = none
  noNote : q.rxNote = false
  running : (s.blk q.blk).status = .running
  noHole : s.hole = false

section
variable {s : State} {q : Copy} (hq : s.OnlyCopy q)
include hq

section
variable {at_ : Nat} (hn : q.runAt (q.unitAt at_) ≠ 0) (hnet : (inFabric (q.dstAt (q.unitAt at_)) && !q.dstSp) = false)
include hn hnet

/-- A source that the engine does not reach stops the copy. -/
theorem exec_copyLanding_stops {a : Access} (hsrc : s.enginePlaces (fun s va => s.copySide q q.srcSp .read va)
      (q.cutAt (q.unitAt at_) 8) (q.srcAt (q.unitAt at_)) = (.error a, s)) :
    exec (.copyLanding q.id at_) s = finish (s.copyStop q (q.unitAt at_) a) := by
  have he : exec (.copyLanding q.id at_) s = execCopyLanding q.id at_ s := rfl
  have hfind : s.copies.find? (fun x => x.id = q.id) = some q := by simp [hq.one]
  rw [he, execCopyLanding, hfind]
  simp [hq.noNote, hq.noFault, hq.goesOn, hq.running, hn, hnet, hsrc]

/-- Bytes that the engine reaches on both sides land. -/
theorem exec_copyLanding_lands {src dst : List Place} {bs : List Byte} (hsp : q.srcSp = true)
    (hsrc : s.enginePlaces (fun s va => s.copySide q q.srcSp .read va)
      (q.cutAt (q.unitAt at_) 8) (q.srcAt (q.unitAt at_)) = (.ok src, s))
    (hdst : s.enginePlaces (fun s va => s.copySide q q.dstSp .write va)
      (q.cutAt (q.unitAt at_) 8) (q.dstAt (q.unitAt at_)) = (.ok dst, s))
    (hread : s.engineReads q src = (bs, s)) :
    exec (.copyLanding q.id at_) s = finish (((s.engineWrites q dst bs).updCopy q.id
      fun x => x.take (q.unitAt at_) (q.cutAt (q.unitAt at_) 8)).landed q.id (q.cutAt (q.unitAt at_) 8)) := by
  have he : exec (.copyLanding q.id at_) s = execCopyLanding q.id at_ s := rfl
  have hfind : s.copies.find? (fun x => x.id = q.id) = some q := by simp [hq.one]
  have hnote : s.noteCopy q (q.srcAt (q.unitAt at_)) (q.cutAt (q.unitAt at_) 8) = s := by simp [State.noteCopy, hsp]
  rw [he, execCopyLanding, hfind]
  simp [hq.noNote, hq.noFault, hq.goesOn, hq.running, hn, hnet, hsrc, hdst, hnote, hread]

end

section
variable {at_ : Nat} (hn : q.runAt (q.unitAt at_) ≠ 0) (haoff : q.aoff = 0xFFFFFFFF) (hsp : q.srcSp = true)
  (hfab : inFabric q.dst = false) (hsrc : s.scratchHolds q.blk (q.srcAt (q.unitAt at_)) (q.cutAt (q.unitAt at_) 8))
include hn haoff hsp hfab hsrc

/-- Bytes of the scratchpad that land at places that the engine reaches. -/
theorem exec_copyLanding_ofScratch {p : Nat → Place} (hnet : (inFabric (q.dstAt (q.unitAt at_)) && !q.dstSp) = false)
    (hdst : ∀ j < q.cutAt (q.unitAt at_) 8, s.copySide q q.dstSp .write (q.dstAt (q.unitAt at_) + BitVec.ofNat 64 j) =
      (.place (p j), s)) {w : State} {bs : List Byte}
    (hbs : bs = (s.blk q.blk).scratch.getList 0 (q.srcAt (q.unitAt at_)).toNat (q.cutAt (q.unitAt at_) 8))
    (hw : s.engineWrites q ((List.range bs.length).map p) bs = w) (hcopies : w.copies = s.copies) (hhole : w.hole = s.hole) :
    exec (.copyLanding q.id at_) s = .next { w with
      copies := if (q.take (q.unitAt at_) (q.cutAt (q.unitAt at_) 8)).todo = [] then []
        else [q.take (q.unitAt at_) (q.cutAt (q.unitAt at_) 8)] } := by
  have hreach := State.copySide_scratch (kind := .read) hsrc
  rw [← hsp] at hreach
  have hlen : bs.length = q.cutAt (q.unitAt at_) 8 := by rw [hbs, Map.getList_length]
  have he := exec_copyLanding_lands hq hn hnet hsp (State.enginePlaces_of hreach)
    (State.enginePlaces_of hdst) (State.engineReads_scratch s q _ _ _)
  rw [← hbs, ← hlen, hw, hlen, State.landed_take (hcopies.trans hq.one) hq.own hq.noNote haoff hfab] at he
  exact he.trans (finish_of_noHole (hhole.trans hq.noHole))

theorem exec_copyLanding_toScratch (hb : s.hasBlk q.blk) (hdsp : q.dstSp = true)
    (hdst : s.scratchHolds q.blk (q.dstAt (q.unitAt at_)) (q.cutAt (q.unitAt at_) 8)) :
    ∃ t, exec (.copyLanding q.id at_) s = .next t ∧ t.mem = s.mem ∧
      (∀ a, (t.blk q.blk).scratch.get 0 a =
        if (q.dstAt (q.unitAt at_)).toNat ≤ a ∧ a < (q.dstAt (q.unitAt at_)).toNat + q.cutAt (q.unitAt at_) 8
        then (s.blk q.blk).scratch.get 0 ((q.srcAt (q.unitAt at_)).toNat + (a - (q.dstAt (q.unitAt at_)).toNat))
        else (s.blk q.blk).scratch.get 0 a) ∧
      t.copies = if (q.take (q.unitAt at_) (q.cutAt (q.unitAt at_) 8)).todo = [] then []
        else [q.take (q.unitAt at_) (q.cutAt (q.unitAt at_) 8)] := by
  have hreach := State.copySide_scratch (kind := .write) hdst
  rw [← hdsp] at hreach
  have hput := State.engineWrites_scratch hq.own hb
    ((s.blk q.blk).scratch.getList 0 (q.srcAt (q.unitAt at_)).toNat (q.cutAt (q.unitAt at_) 8)) (q.dstAt (q.unitAt at_)).toNat
  have he := exec_copyLanding_ofScratch hq hn haoff hsp hfab hsrc (by simp [hdsp]) hreach rfl rfl
    (by rw [hput.frame]) hput.frame.hole
  refine ⟨_, he, by rw [hput.frame], fun a => ?_, rfl⟩
  refine (hput.get a).trans ?_
  rw [Map.get_setList]
  split
  · next h1 =>
    by_cases h2 : a < (q.dstAt (q.unitAt at_)).toNat + q.cutAt (q.unitAt at_) 8
    · rw [if_pos ⟨h1, h2⟩, Map.getElem?_getList _ _ _ (by omega)]
      rfl
    · rw [if_neg (fun h => h2 h.2), List.getElem?_eq_none (by rw [Map.getList_length]; omega)]
      rfl
  · next h1 => rw [if_neg fun h => h1 h.1]

theorem exec_copyLanding_toMemory (hp : s.PlainFor q.blk) (hdsp : q.dstSp = false)
    (hout : inFabric (q.dstAt (q.unitAt at_)) = false) {pa : Nat}
    (hdst : s.EngineReaches q.core q.fn (q.dstAt (q.unitAt at_)) (q.cutAt (q.unitAt at_) 8) .write pa) :
    ∃ t, exec (.copyLanding q.id at_) s = .next t ∧
      s.Stored t pa ((s.blk q.blk).scratch.getList 0 (q.srcAt (q.unitAt at_)).toNat (q.cutAt (q.unitAt at_) 8)) ∧
      t.blocks = s.blocks ∧ t.copies = if (q.take (q.unitAt at_) (q.cutAt (q.unitAt at_) 8)).todo = [] then []
        else [q.take (q.unitAt at_) (q.cutAt (q.unitAt at_) 8)] := by
  have hreach : ∀ j < q.cutAt (q.unitAt at_) 8, s.copySide q q.dstSp .write (q.dstAt (q.unitAt at_) + BitVec.ofNat 64 j) =
      (.place (.mem (pa + j) false), s) := fun j hj => by
    rw [State.copySide, hdsp, if_neg Bool.false_ne_true]
    exact hdst.engineByte j hj
  obtain ⟨hrest, hst⟩ := State.engineWrites_mem hq.own hp.unwatched hp.unroasted.1 hp.uncontained
    ((s.blk q.blk).scratch.getList 0 (q.srcAt (q.unitAt at_)).toNat (q.cutAt (q.unitAt at_) 8)) (pa := pa)
    (by rw [Map.getList_length]; exact hdst.device)
  have he := exec_copyLanding_ofScratch hq hn haoff hsp hfab hsrc (by simp [hout]) hreach rfl rfl
    (by rw [hrest]) (by rw [hrest])
  exact ⟨_, he, hst.of_mem rfl rfl, by rw [hrest], rfl⟩

end

end

/-! ### A landing that is not made -/

theorem Copy.unitAt_zero (q : Copy) : q.unitAt 0 = 0 := by
  unfold Copy.unitAt
  split
  · rfl
  · exact Nat.zero_sub _

theorem Copy.cutAt_ne_zero {q : Copy} {o : Nat} (h : q.runAt o ≠ 0) : q.cutAt o 8 ≠ 0 := by
  unfold Copy.cutAt
  omega

section
variable {s : State} {q : Copy} (hq : s.OnlyCopy q) (hn : q.runAt 0 ≠ 0) (hsp : q.srcSp = false) (hdsp : q.dstSp = true)
include hq hn hsp hdsp

/-- The first byte of a copy is not read. -/
theorem exec_copyLanding_first {a : Access} (ha : ∀ p, a ≠ .place p)
    (hlook : s.engineByte q.core q.fn (q.srcAt 0) .read = (a, s)) :
    exec (.copyLanding q.id 0) s = finish (s.copyStop q 0 a) := by
  have hside : s.copySide q q.srcSp .read (q.srcAt 0) = (a, s) := by rw [State.copySide, hsp, if_neg Bool.false_ne_true, hlook]
  have he := exec_copyLanding_stops (at_ := 0) (a := a) hq (by rwa [q.unitAt_zero]) (by simp [hdsp])
    (by rw [q.unitAt_zero]; exact State.enginePlaces_fails (Copy.cutAt_ne_zero hn) hside ha)
  rwa [q.unitAt_zero] at he

/-- PERM is reported to the thread of the copy, which stops. -/
theorem exec_copyLanding_perm (hspace : deviceSpace (q.srcAt 0) = false) (hlive : ((s.blk q.blk).thr q.thr).live = true)
    (hb : s.hasBlk q.blk) :
    ∃ t e, exec (.copyLanding q.id 0) s = .next t ∧ t.copies = [{ q with stopped := true, todo := [] }] ∧ e.code = cPERM ∧
      e.async = true ∧ e.pc = q.pc ∧ e.aux = q.recAddr.setWidth 64 ∧
      (t.thr q.blk q.thr).asyncs = (s.thr q.blk q.thr).asyncs ++ [e] ∧ t.mem = s.mem := by
  have hlook : s.engineByte q.core q.fn (q.srcAt 0) .read = (.exc cPERM .free, s) := by
    rw [State.engineByte, hspace, Bool.not_false, if_pos rfl]
  have he := exec_copyLanding_first hq hn hsp hdsp (fun p => by simp) hlook
  set e : Exc := { code := cPERM, aux := q.recAddr.setWidth 64, pc := q.pc, async := true } with hexc
  set u := s.updCopy q.id fun x => { x with stopped := true, todo := [], fault := none } with hu
  have hcopies : u.copies = [{ q with stopped := true, todo := [] }] := by
    simp [hu, State.updCopy, hq.one, ← hq.noFault]
  have haux : BitVec.ofNat 64 (0 % 2 ^ 28 * 2 ^ 32 + q.recAddr.toNat) = q.recAddr.setWidth 64 := by
    rw [Nat.zero_mod, Nat.zero_mul, Nat.zero_add, BitVec.ofNat_toNat]
  have hreport : s.copyStop q 0 (.exc cPERM .free) = u.updThr q.blk q.thr fun th => { th with asyncs := th.asyncs ++ [e] } := by
    have hlive' : (s.thr q.blk q.thr).live = true := hlive
    have hlive'' : (u.thr q.blk q.thr).live = true := hlive
    rw [State.copyStop, State.stopCopy, hq.own]
    dsimp only
    rw [if_pos hlive', State.report, if_pos hlive'', haux]
  have ho := u.onlyBlocks_updBlk q.blk fun k => k.updThr q.thr fun th => { th with asyncs := th.asyncs ++ [e] }
  rw [hreport] at he
  refine ⟨_, e, he.trans (finish_of_noHole (ho.hole.trans hq.noHole)), ?_, rfl, rfl, rfl, rfl, ?_, ?_⟩
  · rw [State.updThr, ho, hcopies]
  · rw [State.thr, State.updThr, State.blk_updBlk_self u _ _ hb, Block.thr_updThr, if_pos rfl]
    rfl
  · rw [State.updThr, ho]
    rfl

/-- A fault leaves a record, and the copy waits for its verdict. -/
theorem exec_copyLanding_faults {c g : Nat} (hspace : deviceSpace (q.srcAt 0) = true) (hcore : (s.core q.core).tlb = [])
    (hregion : (s.region (regionOf q.core)).tlb = []) (hdie : (s.die (dieOf q.core)).tlb = [])
    (hwalk : s.walkFor q.fn (q.srcAt 0).toNat .read = .fault c g) :
    ∃ t r, exec (.copyLanding q.id 0) s = .next t ∧ t.records = s.records ++ [r] ∧ r.kind = .copy ∧ r.cause = c ∧
      r.w0 = q.srcAt 0 ∧ t.copies = [{ q with fault := some r.id, off := 0 }] ∧ t.mem = s.mem := by
  have hlook : s.engineByte q.core q.fn (q.srcAt 0) .read = (.page (q.srcAt 0) c g, s) := by
    simp [State.engineByte, hspace, State.engineWalk, hcore, hregion, hdie, hwalk]
  have he := exec_copyLanding_first hq hn hsp hdsp (fun p => by simp) hlook
  have hstopped : s.copyStop q 0 (.page (q.srcAt 0) c g) =
      ((s.newRecord q.fn (q.srcAt 0) (s.blk q.blk).lid (BitVec.ofNat 32 (s.blk q.blk).q) q.thr c g .copy (.copy q.id)).2.updCopy
        q.id fun x => { x with
          fault := some (s.newRecord q.fn (q.srcAt 0) (s.blk q.blk).lid (BitVec.ofNat 32 (s.blk q.blk).q) q.thr c g .copy
            (.copy q.id)).1, off := 0 }) := by
    rw [State.copyStop, hq.own]
  rw [hstopped] at he
  refine ⟨_, _, he.trans (finish_of_noHole hq.noHole), rfl, rfl, rfl, rfl, ?_, rfl⟩
  show List.map _ s.copies = _
  rw [hq.one, List.map_cons, List.map_nil, if_pos rfl]
  rfl

end

/-! ### The exception that an engine has reported -/

theorem State.hasBlk_of_status {s : State} {b : Nat} (h : (s.blk b).status = .running) : s.hasBlk b := by
  by_contra hn
  have hnone : s.blocks.get none b = none := by simpa [State.hasBlk] using hn
  rw [State.blk, hnone] at h
  exact absurd h (by decide)

theorem exec_asyncExceptionRaise {s : State} {b x : Nat} {e : Exc} {rest : List Exc} (hh : s.hole = false)
    (hasyncs : (s.thr b x).asyncs = e :: rest) (hrun : (s.blk b).status = .running) (hagent : (s.blk b).agent = false)
    (hraised : (s.thr b x).raised = none) (hlive : (s.thr b x).live = true) (hmode : (s.thr b x).mode ≠ 1)
    (hasync : e.async = true) (hcarried : e.carried = none) :
    ∃ t r, exec (.asyncExceptionRaise b x) s = .next t ∧ (t.thr b x).asyncs = rest ∧ (t.thr b x).raised = some r ∧
      r.code = e.code ∧ r.aux = e.aux ∧ r.pc = e.pc ∧ (t.thr b x).pc = (s.thr b x).pc ∧
      r.level = (if launchCode e.code then none else (s.thr b x).tstack.head?.map (·.region)) ∧ t.mem = s.mem := by
  have hb := State.hasBlk_of_status hrun
  have he : exec (.asyncExceptionRaise b x) s = execAsyncExceptionRaise b x s := rfl
  rw [execAsyncExceptionRaise, hasyncs] at he
  dsimp only at he
  rw [if_neg (by simp [hraised, hrun])] at he
  have hm1 : s.ThreadsMoved b (s.updThr b x fun th => { th with asyncs := rest }) := s.threadsMoved_updThr _ _ _
  have hthr : ((s.updThr b x fun th => { th with asyncs := rest }).blk b).thr x = { s.thr b x with asyncs := rest } := by
    rw [State.updThr, State.blk_updBlk_self _ _ _ hb, Block.thr_updThr, if_pos rfl]
    rfl
  generalize s.updThr b x (fun th => { th with asyncs := rest }) = u at he hm1 hthr
  have hcan : (u.blk b).canRaise x := ⟨(hm1.agent hb).trans hagent, by rw [hthr]; exact hlive, by rw [hthr]; exact hraised⟩
  have hm2 := u.threadsMoved_raiseExc b x e
  have hself : (u.raiseExc b x e).thr b x = ({ s.thr b x with asyncs := rest } : Thread).raise e := by
    rw [State.thr, u.thr_raiseExc_self e (hm1.hasBlk hb) hcan, hthr]
  refine ⟨_, ({ s.thr b x with asyncs := rest } : Thread).heldExc e, he.trans (finish_of_noHole ((hm1.trans hm2).hole.trans hh)),
    by rw [hself]; rfl, by rw [hself]; rfl, rfl, rfl, ?_, ?_, ?_, (hm1.trans hm2).mem⟩
  · simp [Thread.heldExc, hasync]
  · rw [hself]
    exact (if_neg hmode).trans (if_pos hasync)
  · simp [Thread.heldExc, Thread.levelOf, hcarried]

/-- Settles O22: the engine reaches its places without a change, reads the bytes and then writes them one by one; where it does not
reach the first, the copy stops; an exception that it has reported is raised like any other. -/
theorem copyEngineRules : Obligations.CopyEngineRules := by
  unfold Obligations.CopyEngineRules
  refine ⟨?_, ?_, fun s b x e rest hh hasyncs hrun hagent hraised hlive hmode hasync hcarried =>
    exec_asyncExceptionRaise hh hasyncs hrun hagent hraised hlive hmode hasync hcarried⟩
  · intro s q at_ hone hfault hstop hpk haoff hrx hh hb hrun hp hsp o hn n left hsrc hfab
    have hq : s.OnlyCopy q := ⟨hone, hfault, hstop, hpk, hrx, hrun, hh⟩
    exact ⟨fun hdsp hdst => exec_copyLanding_toScratch hq hn haoff hsp hfab hsrc hb hdsp hdst,
      fun pa hdsp hout hdst => exec_copyLanding_toMemory hq hn haoff hsp hfab hsrc hp hdsp hout hdst⟩
  · intro s q hone hfault hstop hpk hrx hsp hdsp hh hrun hn
    have hq : s.OnlyCopy q := ⟨hone, hfault, hstop, hpk, hrx, hrun, hh⟩
    exact ⟨fun hspace hlive hb => exec_copyLanding_perm hq hn hsp hdsp hspace hlive hb,
      fun c g hspace hcore hregion hdie hwalk => exec_copyLanding_faults hq hn hsp hdsp hspace hcore hregion hdie hwalk⟩

end Sys2Proof.Machine
end

section
/-! PROOFS. CPQ, CPLD and CQWAIT, and the landings of a CPLD (spec/11 R217, R218, R222, R226, R227; spec/13 R263, R264). -/
namespace Sys2Proof.Machine

/-! ### CPQ -/

section
variable {s s1 : State} {h : Hdr} {a : Src} {off : Word} {f : Uses} {x : Nat}

/-- The record that CPQ names. -/
def State.cpqRec (s : State) (x : Nat) (a : Src) (off : Word) : CopyRec :=
  CopyRec.of (s.bk.scratch.getList 0 (s.bk.word x a + off).toNat 48)

/-- The copy that CPQ hands to the engine. -/
def State.cpqCopy (s : State) (x : Nat) (a : Src) (off : Word) : Copy :=
  let r := s.cpqRec x a off
  { id := s.nextId, core := s.bk.core, blk := s.sel.blk, thr := x, pc := s.sel.pc, recAddr := s.bk.word x a + off, fn := s.bk.fn,
    src := r.src, dst := r.dst, rows := max r.rows 1, rowBytes := if r.rows = 0 then r.bytes else r.rowBytes,
    bytes := r.bytes, sstride := r.sstride, dstride := r.dstride, aoff := r.aoff, srcSp := r.srcSp,
    dstSp := r.dstSp, rxNote := r.rxNote, rxSlot := bits64 r.ctl 31 16, todo := [(0, r.bytes)] }

/-- The engine takes a copy. -/
def State.takeCopy (s : State) (q : Copy) : State := { s with nextId := s.nextId + 1, copies := s.copies ++ [q] }

variable (hp : s.Solo (.cpq h a off) f x) (ha : s.InScratch (s.bk.word x a + off) 48 16) (hroom : s.copiesOf s.bk.core < 64)
include hp ha hroom

omit ha in
/-- The engine has room for the request. -/
theorem State.Solo.roomForCopy : ¬ 64 ≤ (s.idleOn f.h).copiesOf ((s.idleOn f.h).blk s.sel.blk).core := by
  have hcore : ((s.idleOn f.h).blk s.sel.blk).core = s.bk.core := by rw [s.blk_idleOn f.h hp.hasBlk]; rfl
  have hcopies : (s.idleOn f.h).copies = s.copies := by rw [s.onlyBlocks_idleOn f.h]
  rw [hcore, State.copiesOf, hcopies]
  exact Nat.not_le.mpr hroom

omit ha hroom in
theorem State.Solo.readRecord_idleOn :
    (s.idleOn f.h).readPlace s.sel.blk x .lsu (.scratch s.sel.blk (s.bk.word x a + off).toNat) 48 =
      (s.bk.scratch.getList 0 (s.bk.word x a + off).toNat 48, s.idleOn f.h) := by
  rw [State.readPlace, s.blk_idleOn f.h hp.hasBlk]
  rfl

theorem cpqAt_invalid (hv : (s.cpqRec x a off).valid = false) :
    (s.idleOn f.h).cpqAt (s.exeCtx f.h) s.sel.w0 (s.op32 f.h x a off .zero .zero) =
      (.exc cILL (.all (BitVec.ofNat 64 (s.sel.w0.toNat + 0xB * 2 ^ 32))), s.idleOn f.h) := by
  have hctx : (s.exeCtx f.h).b = s.sel.blk := rfl
  have hthr : (s.op32 f.h x a off .zero .zero).thr = x := rfl
  rw [State.cpqRec] at hv
  rw [State.cpqAt, hctx, if_neg (hp.roomForCopy hroom), State.op32_ea, hp.scratchAccess_idleOn ha, hthr]
  dsimp only
  rw [hp.settle_idleOn, hp.readRecord_idleOn, hv, Bool.not_false, if_pos rfl]

/-- A valid request of some bytes, no fabric copy, is handed over once its object has been told. -/
theorem cpqAt_hands (hv : (s.cpqRec x a off).valid = true) (hfab : (s.cpqRec x a off).fabric = false)
    (hbytes : (s.cpqRec x a off).bytes ≠ 0) (ho : (s.idleOn f.h).OnlyBlocks s1)
    (hm : State.ScratchMoved s.sel.blk (s.idleOn f.h) s1)
    (hfeed : (s.idleOn f.h).feedObject s.sel.blk (s.cpqRec x a off).aoff 1 = (none, s1)) :
    (s.idleOn f.h).cpqAt (s.exeCtx f.h) s.sel.w0 (s.op32 f.h x a off .zero .zero) =
      (.done 0, s1.takeCopy (s.cpqCopy x a off)) := by
  have hctx : (s.exeCtx f.h).b = s.sel.blk := rfl
  have hthr : (s.op32 f.h x a off .zero .zero).thr = x := rfl
  have hahead : ((s.idleOn f.h).objectAt s.sel.blk (s.cpqRec x a off).aoff).any
      (fun y => (s.idleOn f.h).feedAhead s.sel.blk x (.scratch y.1 y.2)) = false := by
    cases (s.idleOn f.h).objectAt s.sel.blk (s.cpqRec x a off).aoff with
    | none => rfl
    | some y => exact hp.feedAhead_idleOn _ _
  have hkeep : s1.blk s.sel.blk = { s.bk.advance (s.idle f.h) s.sel.next with scratch := (s1.blk s.sel.blk).scratch } := by
    rw [← s.blk_idleOn f.h hp.hasBlk]
    exact hm.blk
  have hcore : (s1.blk s.sel.blk).core = s.bk.core := by rw [hkeep]; rfl
  have hfn : (s1.blk s.sel.blk).fn = s.bk.fn := by rw [hkeep]; rfl
  have hrows : s1.noteRows s.sel.blk x (s.cpqRec x a off) = s1 := by
    have htrace : (s1.blk s.sel.blk).trace = none := by rw [hkeep]; exact hp.untraced
    rw [State.noteRows, htrace, Option.isNone_none, Bool.true_or, if_pos rfl]
  have hid : s1.nextId = s.nextId := by rw [ho, s.onlyBlocks_idleOn f.h]
  unfold State.cpqRec at hv hfab hbytes hahead hfeed hrows
  rw [State.cpqAt, hctx, if_neg (hp.roomForCopy hroom), State.op32_ea, hp.scratchAccess_idleOn ha, hthr]
  dsimp only
  rw [hp.settle_idleOn, hp.readRecord_idleOn]
  dsimp only
  rw [hv, hahead, Bool.not_true, if_neg Bool.false_ne_true, if_neg Bool.false_ne_true, hfeed]
  dsimp only
  rw [hfab, if_neg Bool.false_ne_true, hrows]
  rw [State.takeCopy, State.cpqCopy, ← hcore, ← hfn, ← hid]
  exact Prod.ext rfl (if_neg fun h => hbytes (of_decide_eq_true (Bool.and_eq_true_iff.mp h).1))

theorem cpq_hands (hv : (s.cpqRec x a off).valid = true) (hfab : (s.cpqRec x a off).fabric = false)
    (hbytes : (s.cpqRec x a off).bytes ≠ 0)
    (hobj : (s.cpqRec x a off).aoff = 0xFFFFFFFF ∨ s.InScratch (s.cpqRec x a off).aoff 16 16) :
    ∃ t, exec (.cpq h a off) s = .next t ∧
      t = { s with blocks := t.blocks, copies := s.copies ++ [s.cpqCopy x a off], nextId := t.nextId } ∧ s.Passed t ∧
      (if (s.cpqRec x a off).aoff = 0xFFFFFFFF then t.bk.scratch = s.bk.scratch
       else s.Scratched t (s.cpqRec x a off).aoff.toNat
         (let o := s.arrival s.sel.blk (s.cpqRec x a off).aoff.toNat
          { o with paths := o.paths ||| 1 }.bytes)) := by
  obtain rfl : f.h = h := by cases hp.row; rfl
  have hb0 := s.hasBlk_idleOn f.h hp.hasBlk
  have hk := s.blk_idleOn f.h hp.hasBlk
  have hgoes : ∀ s1, (s.idleOn f.h).OnlyBlocks s1 → State.ScratchMoved s.sel.blk (s.idleOn f.h) s1 →
      (s.idleOn f.h).feedObject s.sel.blk (s.cpqRec x a off).aoff 1 = (none, s1) →
      ∃ t, exec (.cpq f.h a off) s = .next t ∧
        t = { s with blocks := t.blocks, copies := s.copies ++ [s.cpqCopy x a off], nextId := t.nextId } ∧ s.Passed t ∧
        t.bk.scratch = (s1.blk s.sel.blk).scratch := by
    intro s1 ho hm hfeed
    obtain ⟨t, ht, hot, hpass, hsc⟩ := hp.performs (c := .zero) (F := fun c s' o => s'.cpqAt c s.sel.w0 o) rfl
      (cpqAt_hands hp ha hroom hv hfab hbytes ho hm hfeed) (hm.trans (.of_blocks rfl rfl rfl rfl))
    have hcopies : s1.copies = s.copies := by rw [ho, s.onlyBlocks_idleOn f.h]
    refine ⟨t, ht, ?_, hpass, hsc⟩
    rw [hot, State.takeCopy, hcopies, ho, s.onlyBlocks_idleOn f.h]
  split
  · next hnone =>
    obtain ⟨t, ht, hframe, hpass, hsc⟩ := hgoes (s.idleOn f.h) rfl (.of_blocks rfl rfl rfl rfl) (by
      rw [State.feedObject, if_pos hnone])
    exact ⟨t, ht, hframe, hpass, by rw [hsc, hk]; rfl⟩
  · next hsome =>
    have hfeed : (s.idleOn f.h).feedObject s.sel.blk (s.cpqRec x a off).aoff 1 =
        (none, (s.idleOn f.h).setArrival s.sel.blk (s.cpqRec x a off).aoff.toNat
          ((s.arrival s.sel.blk (s.cpqRec x a off).aoff.toNat).feed 1)) := by
      rw [State.feedObject, if_neg hsome, hp.scratchAccess_idleOn (hobj.resolve_left hsome), ← hp.arrival_idleOn]
      rfl
    obtain ⟨t, ht, hframe, hpass, hsc⟩ := hgoes _ (State.onlyBlocks_updBlk _ _ _) (State.scratchMoved_setArrival hb0 _ _) hfeed
    refine ⟨t, ht, hframe, hpass, ?_⟩
    rw [State.blk_updBlk_self _ _ _ hb0, hk] at hsc
    rw [State.Scratched, hsc]
    exact Block.scratch_setList _ _ _

theorem cpq_invalid (hv : (s.cpqRec x a off).valid = false) : Traps s (.cpq h a off) (s.executing h) cILL := by
  obtain rfl : f.h = h := by cases hp.row; rfl
  exact hp.throws (c := .zero) (F := fun c s' o => s'.cpqAt c s.sel.w0 o) rfl (cpqAt_invalid hp ha hroom hv)

end

end Sys2Proof.Machine
end

section
/-! PROOFS. CPLD and CQWAIT, and the landings of a CPLD (spec/11 R226, R227; spec/13 R264). -/
namespace Sys2Proof.Machine

/-! ### CQWAIT -/

/-- Changes of threads of a block, one after the other. -/
theorem State.foldl_updThr (b : Nat) (g : Thread → Thread) (ts : List Nat) (s : State) (hb : s.hasBlk b) :
    s.OnlyBlocks (ts.foldl (fun s t => s.updThr b t g) s) ∧
      (ts.foldl (fun s t => s.updThr b t g) s).blk b =
        { s.blk b with threads := ts.foldl (fun m t => m.upd {} t g) (s.blk b).threads } := by
  induction ts generalizing s with
  | nil => exact ⟨rfl, rfl⟩
  | cons t ts ih =>
    obtain ⟨ho, hk⟩ := ih (s.updThr b t g) ((State.hasBlk_updBlk _ _ _ _).mpr hb)
    rw [State.updThr, State.blk_updBlk_self _ _ _ hb] at hk
    exact ⟨(State.onlyBlocks_updBlk _ _ _).trans ho, hk⟩

section
variable {s : State} {h : Hdr} {cq : Nat} {f : Uses} (hp : s.Passes (.cqwait h cq) f)
include hp

theorem cqwait_passes (h0 : s.bk.sreg s.wp (48 + cq) = 0) :
    ∃ t, exec (.cqwait h cq) s = .next t ∧ s.Moved t h fun _ => s.sel.next := by
  obtain rfl : f.h = h := by cases hp.row; rfl
  have hb0 := s.hasBlk_idleOn f.h hp.hasBlk
  have hm : s.Moved ((s.idleOn f.h).advance s.sel.blk (s.executing f.h) s.sel.next) f.h fun _ => s.sel.next := by
    refine s.moved_of_goTo f.h hp.hasBlk _ (State.onlyBlocks_updBlk _ _ _) ?_ fun c hc => ?_
    · rw [State.advance, State.blk_updBlk_self _ _ _ hb0, Block.advance_eq_goTo]
    · rw [State.advance, State.blocks_updBlk, if_neg hc]
  have hbody : ((s.idleOn f.h).blk s.sel.blk).sreg s.wp (48 + cq) = 0 := by
    rw [s.blk_idleOn f.h hp.hasBlk]
    exact h0
  refine ⟨_, ?_, hm⟩
  have he : exec (.cqwait f.h cq) s = execCqwait f.h cq s := rfl
  rw [he, execCqwait, issue_of_passes hp]
  exact (congrArg finish (if_pos hbody)).trans (finish_of_noHole (hm.frame.hole.trans hp.noHole))

theorem cqwait_waits (h0 : s.bk.sreg s.wp (48 + cq) ≠ 0) :
    ∃ t, exec (.cqwait h cq) s = .next t ∧
      (∀ x ∈ s.executing h, t.bk.thr x = { s.bk.thr x with wait := some (.cqwait cq s.sel.next) }) ∧ s.OnlyBlocks t ∧
      s.bk.SameRegs t.bk := by
  obtain rfl : f.h = h := by cases hp.row; rfl
  have hk0 := s.blk_idleOn f.h hp.hasBlk
  obtain ⟨ho, hk⟩ := State.foldl_updThr s.sel.blk (fun th => { th with wait := some (.cqwait cq s.sel.next) }) (s.executing f.h)
    (s.idleOn f.h) (s.hasBlk_idleOn f.h hp.hasBlk)
  have hbody : ¬ ((s.idleOn f.h).blk s.sel.blk).sreg s.wp (48 + cq) = 0 := by
    rw [hk0]
    exact h0
  have he : exec (.cqwait f.h cq) s = finish ((s.executing f.h).foldl
      (fun s' t => s'.updThr s.sel.blk t fun th => { th with wait := some (.cqwait cq s.sel.next) }) (s.idleOn f.h)) := by
    have hx : exec (.cqwait f.h cq) s = execCqwait f.h cq s := rfl
    rw [hx, execCqwait, issue_of_passes hp]
    exact congrArg finish (if_neg hbody)
  generalize (s.executing f.h).foldl (fun s' t => s'.updThr s.sel.blk t fun th => { th with wait := some (.cqwait cq s.sel.next) })
    (s.idleOn f.h) = t at he ho hk
  have hframe := (s.onlyBlocks_idleOn f.h).trans ho
  rw [hk0] at hk
  have hbk : t.bk = t.blk s.sel.blk := by rw [State.bk, hframe.sel]
  refine ⟨t, he.trans (finish_of_noHole (hframe.hole.trans hp.noHole)), fun x hx => ?_, hframe, ?_⟩
  · have hthr := foldl_updBy_get {} (fun _ (th : Thread) => { th with wait := some (.cqwait cq s.sel.next) }) (s.executing f.h)
      (s.bk.advance (s.idle f.h) s.sel.next).threads x fun _ _ => rfl
    rw [if_pos hx] at hthr
    rw [hbk, hk, Block.thr, hthr, ← State.thr_advance_idle hx]
    rfl
  · rw [hbk, hk]
    exact Block.SameRegs.refl _

end

/-! ### The landing of a byte of a CPLD -/

section
variable {s : State} {b n : Nat} {l : Landing} (hh : s.hole = false) (hb : s.hasBlk b) (hl : (s.blk b).landings = [l])

/-- A completion register counts down. -/
def Block.countDown (k : Block) (l : Landing) : Block :=
  k.setSreg (warpOf l.thr) (48 + l.cq) (k.sreg (warpOf l.thr) (48 + l.cq) - 1)

theorem Block.sreg_countDown (k : Block) (l : Landing) :
    (k.countDown l).sreg (warpOf l.thr) (48 + l.cq) = k.sreg (warpOf l.thr) (48 + l.cq) - 1 := by
  rw [Block.countDown, Block.sreg_setSreg, if_pos rfl]

/-- A vector register that takes its value, and what it leaves alone. -/
theorem Block.putLanding_vec {l : Landing} (k : Block) (hd : l.dst = .v n) (x : Word) :
    (k.putLanding l x).vreg (warpOf l.thr) n (laneOf l.thr) = x ∧ (k.putLanding l x).sregs = k.sregs ∧
      (k.putLanding l x).landings = k.landings := by
  have hword : wordAt (x.setWidth 128) 0 = x := by simp [wordAt]
  rw [Block.putLanding, hd]
  refine ⟨?_, rfl, rfl⟩
  show (k.setVreg (warpOf l.thr) n (laneOf l.thr) (wordAt (x.setWidth 128) 0)).vreg _ _ _ = x
  rw [Block.vreg_setVreg, if_pos rfl, hword]

include hh hb hl

theorem exec_cpldLanding_counts (h1 : 1 < l.bytes) :
    ∃ t, exec (.cpldLanding b 0) s = .next t ∧ (t.blk b).landings = [{ l with bytes := l.bytes - 1 }] ∧
      (t.blk b).sreg (warpOf l.thr) (48 + l.cq) = (s.blk b).sreg (warpOf l.thr) (48 + l.cq) - 1 ∧
      (t.blk b).vregs = (s.blk b).vregs ∧ t.mem = s.mem := by
  have he : exec (.cpldLanding b 0) s = finish (s.updBlk b fun k =>
      (k.countDown l).setLanding 0 { l with bytes := l.bytes - 1 }) := by
    have hx : exec (.cpldLanding b 0) s = execCpldLanding b 0 s := rfl
    rw [hx, execCpldLanding, hl, List.getElem?_cons_zero]
    dsimp only
    rw [if_neg (by omega), if_pos (by omega), State.updBlk_updBlk]
    rfl
  have ho := s.onlyBlocks_updBlk b fun k => (k.countDown l).setLanding 0 { l with bytes := l.bytes - 1 }
  refine ⟨_, he.trans (finish_of_noHole (ho.hole.trans hh)), ?_, ?_, ?_, by rw [ho]⟩
  · rw [State.blk_updBlk_self _ _ _ hb]
    show (s.blk b).landings.set 0 _ = _
    rw [hl]
    rfl
  · rw [State.blk_updBlk_self _ _ _ hb]
    exact Block.sreg_countDown _ l
  · rw [State.blk_updBlk_self _ _ _ hb]
    rfl

theorem exec_cpldLanding_lands (hd : l.dst = .v n) (h1 : l.bytes = 1) :
    ∃ t x, exec (.cpldLanding b 0) s = .next t ∧ (t.blk b).landings = [{ l with bytes := 0, seen := x }] ∧
      (l.spoiled = false → x = l.val) ∧
      (t.blk b).sreg (warpOf l.thr) (48 + l.cq) = (s.blk b).sreg (warpOf l.thr) (48 + l.cq) - 1 ∧
      (t.blk b).vreg (warpOf l.thr) n (laneOf l.thr) = x ∧ t.mem = s.mem := by
  have ho1 : s.OnlyBlocks (s.updBlk b fun k => k.countDown l) := State.onlyBlocks_updBlk _ _ _
  have hk1 : (s.updBlk b fun k => k.countDown l).blk b = (s.blk b).countDown l := State.blk_updBlk_self _ _ _ hb
  have hb1 : (s.updBlk b fun k => k.countDown l).hasBlk b := (State.hasBlk_updBlk _ _ _ _).mpr hb
  obtain ⟨u, x, he, hu, hx⟩ : ∃ (u : State) (x : Word), exec (.cpldLanding b 0) s =
        finish (u.updBlk b fun k => (k.putLanding l x).setLanding 0 { l with bytes := 0, seen := x }) ∧
      u = { s.updBlk b (fun k => k.countDown l) with tick := u.tick } ∧ (l.spoiled = false → x = l.val) := by
    have hx : exec (.cpldLanding b 0) s = execCpldLanding b 0 s := rfl
    rw [hx, execCpldLanding, hl, List.getElem?_cons_zero]
    dsimp only
    rw [if_neg (by omega), if_neg (not_not.mpr h1)]
    cases hsp : l.spoiled with
    | false => exact ⟨s.updBlk b fun k => k.countDown l, l.val, rfl, rfl, fun _ => rfl⟩
    | true => exact ⟨(s.updBlk b fun k => k.countDown l).freeWord.2, (s.updBlk b fun k => k.countDown l).freeWord.1, rfl, rfl,
        fun h => absurd h (by simp)⟩
  have hub : u.hasBlk b := by
    rw [State.hasBlk, hu]
    exact hb1
  have huk : u.blk b = (s.blk b).countDown l := by
    rw [← hk1, hu]
    rfl
  have ho2 := u.onlyBlocks_updBlk b fun k => (k.putLanding l x).setLanding 0 { l with bytes := 0, seen := x }
  have hk2 := State.blk_updBlk_self u b (fun k => (k.putLanding l x).setLanding 0 { l with bytes := 0, seen := x }) hub
  rw [huk] at hk2
  obtain ⟨hvreg, hsregs, hland⟩ := ((s.blk b).countDown l).putLanding_vec hd x
  refine ⟨_, x, he.trans (finish_of_noHole ?_), ?_, hx, ?_, ?_, ?_⟩
  · rw [ho2.hole, hu, ← hh]
    exact ho1.hole
  · rw [hk2]
    show (((s.blk b).countDown l).putLanding l x).landings.set 0 _ = _
    rw [hland]
    show (s.blk b).landings.set 0 _ = _
    rw [hl]
    rfl
  · rw [hk2, ← Block.sreg_countDown, Block.sreg, Block.sreg, ← hsregs]
    rfl
  · rw [hk2]
    exact hvreg
  · rw [ho2, hu, ho1]

end

end Sys2Proof.Machine
end

section
/-! PROOFS. CPLD (spec/11 R226; spec/13 R264). -/
namespace Sys2Proof.Machine

/-! ### A page that is found again -/

section
variable {s : State} {i : Instr} {f : Uses} {x : Nat} {pg : Xlat}

/-- The last-page register is written with what it holds. -/
theorem State.paged_again (s : State) (h : Hdr) (x : Nat) (pg : Xlat) :
    ((s.paged h x pg).updThr s.sel.blk x fun th => { th with lastPage := some pg }) = s.paged h x pg := by
  rw [State.paged, State.updThr, State.updThr, State.updBlk_updBlk]
  refine congrArg _ (funext fun k => ?_)
  rw [Block.updThr_updThr]

section
variable (hp : s.Solo i f x) (hu : f.h.u = false) {ea : DWord} {n align : Nat} {kind : AccKind} {pa : Nat}
  (hr : s.Reaches x ea n align kind pa)
include hp hu hr

/-- An access of the thread through its last-page register, made twice: first, and again. -/
theorem State.Solo.globalAccess_twice (ap : Bool) : ∃ pg, (s.bk.thr x).lastPage = some pg ∧
    (s.idleOn f.h).globalAccess s.sel.blk x ea n align kind ap = (.place (.mem pa false), s.paged f.h x pg) ∧
    (s.paged f.h x pg).globalAccess s.sel.blk x ea n align kind ap = (.place (.mem pa false), s.paged f.h x pg) := by
  obtain ⟨pg, hpg, hholds, hperm, hdecaf, rfl⟩ := hr.page
  have hk := s.blk_idleOn f.h hp.hasBlk
  have hkp := hp.blk_paged pg
  have hb0 := s.hasBlk_idleOn f.h hp.hasBlk
  have hacc : ∀ u : State, u.hasBlk s.sel.blk → ((u.blk s.sel.blk).thr x).lastPage = some pg → (u.blk s.sel.blk).fn = s.bk.fn →
      (u.blk s.sel.blk).smaps = s.bk.smaps → u.globalAccess s.sel.blk x ea n align kind ap =
        (.place (.mem (pg.addr ea.toNat) false), u.updThr s.sel.blk x fun th => { th with lastPage := some pg }) := by
    intro u hb hlast hfn hsmaps
    rw [State.globalAccess_of_lastPage ap hb hr.space hr.aligned hlast (by rw [hfn]; exact hholds) hperm
      (by rw [hfn]; exact hr.own) (by rw [hsmaps]; exact hp.unmapped), hdecaf]
  refine ⟨pg, hpg, hacc _ hb0 (by rw [hk, hp.thr_idleOn hu]; exact hpg) (by rw [hk]; rfl) (by rw [hk]; rfl), ?_⟩
  have hagain := hacc (s.paged f.h x pg) ((State.hasBlk_updBlk _ _ _ _).mpr hb0)
    (by rw [hkp, Block.thr_updThr, if_pos rfl]) (by rw [hkp]; rfl) (by rw [hkp]; rfl)
  rwa [State.paged_again] at hagain

omit hu in
/-- A plain load of the thread changes no more than its core's caches. -/
theorem State.Solo.l1Only_load (pg : Xlat) (h128 : n ≤ 128) :
    State.L1Only s.bk.core (s.paged f.h x pg) ((s.paged f.h x pg).load s.sel.blk x false .lsu pa n).2 ∧
      ((s.paged f.h x pg).load s.sel.blk x false .lsu pa n).2.mem = s.mem := by
  have ho := s.onlyBlocks_paged f.h x pg
  have hk := hp.blk_paged pg
  have hcore : ((s.paged f.h x pg).blk s.sel.blk).core = s.bk.core := by rw [hk]; rfl
  have hc1 : (s.paged f.h x pg).core s.bk.core = s.core s.bk.core := by rw [ho]; rfl
  have hmis : ∀ l, (s.paged f.h x pg).misCached s.bk.core false l = s.misCached s.bk.core false l := fun l => by rw [ho]; rfl
  obtain ⟨-, hl1, hmem⟩ := State.load_spec (s := s.paged f.h x pg) (b := s.sel.blk) (t := x) (pa := pa) (n := n)
    ⟨by rw [ho]; exact hp.unroasted.1, by rw [ho]; exact hp.unroasted.2⟩ (by rw [ho]; exact hp.unpoisoned) hr.device
    (by rw [hk]; exact hp.noBuf) (fun l h1 h2 => by rw [hcore, hmis]; exact hr.tracked l h1 h2)
    (by rw [hcore, State.l1Count, hc1]; exact lt_of_le_of_lt (Nat.add_le_add_left h128 _) hp.room)
  rw [hcore] at hl1
  exact ⟨hl1, hmem.trans (by rw [ho])⟩

end

section
variable (hp : s.Solo i f x)
include hp

/-- A change of the block after a step that changes only its core's caches and memory. -/
theorem State.Solo.updBlk_paged {u : State} (hl1 : State.L1Only s.bk.core (s.paged f.h x pg) u) (G : Block → Block) :
    s.CachesOnly (u.updBlk s.sel.blk G) ∧ (u.updBlk s.sel.blk G).bk = G ((s.paged f.h x pg).blk s.sel.blk) ∧
      (u.updBlk s.sel.blk G).mem = u.mem := by
  have hpaged := s.onlyBlocks_paged f.h x pg
  have ho := u.onlyBlocks_updBlk s.sel.blk G
  have hub : u.hasBlk s.sel.blk := by
    rw [State.hasBlk, hl1.blocks]
    exact (State.hasBlk_updBlk _ _ _ _).mpr (s.hasBlk_idleOn f.h hp.hasBlk)
  have hcore : ∀ c, (u.updBlk s.sel.blk G).core c = u.core c := fun c => by rw [ho]; rfl
  have hcore0 : ∀ c, (s.paged f.h x pg).core c = s.core c := fun c => by rw [hpaged]; rfl
  refine ⟨⟨by rw [ho, hl1.rest, hpaged], fun c => by rw [hcore, hl1.lines c, hcore0],
    fun c hc => by rw [hcore, hl1.others c hc, hcore0], fun b hb => ?_⟩, ?_, by rw [ho]⟩
  · rw [State.blocks_updBlk, if_neg hb, hl1.blocks, State.paged, State.updThr, State.blocks_updBlk, if_neg hb, State.idleOn,
      State.advance, State.blocks_updBlk, if_neg hb]
  · rw [State.bk, ho.sel, hl1.sel, hpaged.sel, State.blk_updBlk_self _ _ _ hub, hl1.blk]

/-- The thread goes on, the others of the bundle having gone on before. -/
theorem State.Solo.thr_paged_advance (hu : f.h.u = false) (hpg : (s.bk.thr x).lastPage = some pg) (y : Nat) :
    (((s.paged f.h x pg).blk s.sel.blk).advance [x] s.sel.next).thr y =
      if y ∈ s.sel.thrs then { s.bk.thr y with pc := s.sel.next } else s.bk.thr y := by
  rw [Block.thr_advance, hp.blk_paged, Block.thr_updThr]
  by_cases hy : y = x
  · subst hy
    rw [if_pos (List.mem_singleton_self y), if_pos rfl, if_pos (hp.mem_thrs hu), hp.thr_idleOn hu, ← hpg]
  · rw [if_neg (by simpa using hy), if_neg hy, Block.thr_advance]
    exact if_congr ((hp.mem_idle hu y).trans (and_iff_left hy)) rfl rfl

end

end

/-! ### Registers that are to land -/

/-- The register `j` places on. -/
def Dst.plus (d : Dst) (j : Nat) : Dst :=
  match d with
  | .v n => .v (n + j)
  | .s n => .s (n + j)
  | .none => .none

theorem getElem?_landingsOf (k : Block) (wp cq : Nat) (ty : Ty) (d : Dst) (x : Nat) (v : QWord) {j : Nat} (hj : j < ty.regs) :
    (landingsOf k wp cq ty d x v)[j]? = some
      { thr := x, dst := Dst.plus d j, val := wordAt v j, cq := cq, bytes := min 4 ty.bytes,
        seen := k.dstWord wp x (Dst.plus d j) } := by
  rw [landingsOf, List.getElem?_map, List.getElem?_range hj]
  cases d <;> rfl

/-- The registers of a CPLD are to land: its completion register counts their bytes. -/
def Block.awaitLandings (k : Block) (wp cq n : Nat) (ty : Ty) (d : Dst) (x : Nat) (v : QWord) : Block :=
  let j := k.setSreg wp (48 + cq) (k.sreg wp (48 + cq) + BitVec.ofNat 32 n)
  { j with landings := j.landings ++ landingsOf j wp cq ty d x v }

theorem Block.sreg_awaitLandings (k : Block) (wp cq n : Nat) (ty : Ty) (d : Dst) (x : Nat) (v : QWord) :
    (k.awaitLandings wp cq n ty d x v).sreg wp (48 + cq) = k.sreg wp (48 + cq) + BitVec.ofNat 32 n :=
  (Block.sreg_setSreg _ _ _ _ _ _).trans (if_pos rfl)

theorem Block.landings_awaitLandings (k : Block) (wp cq n : Nat) (ty : Ty) (d : Dst) (x : Nat) (v : QWord) :
    ∃ ls, (k.awaitLandings wp cq n ty d x v).landings = k.landings ++ ls ∧ ls.length = ty.regs ∧
      ∀ j < ty.regs, ∃ l, ls[j]? = some l ∧ l.thr = x ∧ l.cq = cq ∧ l.bytes = min 4 ty.bytes ∧ l.val = wordAt v j ∧
        l.dst = Dst.plus d j :=
  ⟨_, rfl, by simp [landingsOf], fun _ hj => ⟨_, getElem?_landingsOf _ _ _ _ _ _ _ hj, rfl, rfl, rfl, rfl, rfl⟩⟩

/-! ### CPLD -/

section
variable {s : State} {h : Hdr} {ty : Ty} {d : Dst} {a : Src} {cq : Nat} {off : Word} {f : Uses} {x pa : Nat}
  (hp : s.Solo (.cpld h ty d a cq off) f x)
  (hr : s.Reaches x (s.bk.pair x a + off.signExtend 64) ty.bytes ty.bytes .read pa)
  (hfits : (s.bk.sreg s.wp (48 + cq)).toNat + ty.bytes < 2 ^ 31)
include hp

theorem State.Solo.cpld_hdr : f.h = h ∧ f.h.u = false :=
  ⟨by cases hp.row; rfl, hp.not_uniform rfl rfl (by cases hp.row; rfl)⟩

include hr hfits

/-- CPLD reads its bytes and goes on; the registers are to land. -/
theorem exec_cpld : ∃ pg, (s.bk.thr x).lastPage = some pg ∧
    exec (.cpld h ty d a cq off) s =
      finish (((s.paged f.h x pg).load s.sel.blk x false .lsu pa ty.bytes).2.updBlk s.sel.blk fun k =>
        (k.awaitLandings s.wp cq ty.bytes ty d x
          (extend ty ((s.paged f.h x pg).load s.sel.blk x false .lsu pa ty.bytes).1)).advance [x] s.sel.next) := by
  obtain ⟨rfl, hu⟩ := hp.cpld_hdr
  obtain ⟨pg, hpg, hfirst, hagain⟩ := hp.globalAccess_twice hu hr true
  refine ⟨pg, hpg, ?_⟩
  have hk := s.blk_idleOn f.h hp.hasBlk
  have hexe : (s.exeCtx f.h).exe = [x] := hp.executing_eq hu
  have hctx : (s.exeCtx f.h).b = s.sel.blk := rfl
  have he : exec (.cpld f.h ty d a cq off) s = execCpld f.h ty d a cq off s := rfl
  have hfit : ((s.idleOn f.h).blk s.sel.blk).cqFits (s.exeCtx f.h).wp cq (ty.bytes * 1) = true := by
    rw [hk]
    exact decide_eq_true (by rw [Nat.mul_one]; exact hfits)
  have hop : cap64 a off 1 .zero 1 .zero (s.exeCtx f.h) ((s.idleOn f.h).blk s.sel.blk) x =
      { thr := x, ea := s.bk.pair x a + off.signExtend 64, b := 0, c := 0 } := by
    rw [hk, cap64, Block.ea64, Block.advance_pair]
    rfl
  rw [he, execCpld, issue_of_passes hp.toPasses]
  dsimp only
  rw [hctx, hexe, List.length_singleton, if_pos hfit, List.map_cons, List.map_nil, hop]
  have hnote : (s.idleOn f.h).note s.sel.blk x (s.bk.pair x a + off.signExtend 64) ty.bytes = s.idleOn f.h := by
    have htrace : ((s.idleOn f.h).blk s.sel.blk).trace = none := by rw [hk]; exact hp.untraced
    rw [State.note, htrace]
  have hover := hp.noOvertake { thr := x, ea := s.bk.pair x a + off.signExtend 64, b := 0, c := 0 }
  have hred : (s.paged f.h x pg).reds = [] := by rw [s.onlyBlocks_paged f.h x pg]; exact hp.noRed
  have hload : (s.paged f.h x pg).loadAt s.sel.blk x false ty (.mem pa false) =
      (.done (extend ty ((s.paged f.h x pg).load s.sel.blk x false .lsu pa ty.bytes).1),
        ((s.paged f.h x pg).load s.sel.blk x false .lsu pa ty.bytes).2) := by
    rw [State.loadAt, State.settle_of_noRed hred]
    rfl
  rw [hctx] at hover
  unfold State.cpldRun
  simp only [hctx, List.foldl_cons, List.foldl_nil, hnote, State.runOps, Option.bind_none, hover, Bool.false_eq_true, if_false,
    hfirst, Outs.add, ne_eq, not_true_eq_false, hagain, hload, List.nil_append, List.flatMap_cons, List.flatMap_nil,
    List.append_nil, hexe, List.length_singleton, Nat.mul_one, State.advance, State.updBlk_updBlk]
  rfl

/-- What a CPLD reads, what it leaves to land, and what it leaves alone. -/
theorem cpld_reads : ∃ t ls bs, exec (.cpld h ty d a cq off) s = .next t ∧ s.Reads s.sel.blk pa ty.bytes bs ∧
      t.bk.sreg s.wp (48 + cq) = s.bk.sreg s.wp (48 + cq) + BitVec.ofNat 32 ty.bytes ∧
      t.bk.landings = s.bk.landings ++ ls ∧ ls.length = ty.regs ∧
      (∀ j < ty.regs, ∃ l, ls[j]? = some l ∧ l.thr = x ∧ l.cq = cq ∧ l.bytes = min 4 ty.bytes ∧
        l.val = wordAt (extend ty bs) j ∧ l.dst = Dst.plus d j) ∧
      t.mem = s.mem ∧ s.CachesOnly t ∧ t.bk.vregs = s.bk.vregs ∧
      ∀ y, t.bk.thr y = if y ∈ s.sel.thrs then { s.bk.thr y with pc := s.sel.next } else s.bk.thr y := by
  obtain ⟨pg, hpg, he⟩ := exec_cpld hp hr hfits
  obtain ⟨rfl, hu⟩ := hp.cpld_hdr
  have hsmall : ty.bytes ≤ 128 := by cases ty <;> decide
  have hreads := (hp.loads_leave hu hr hpg hsmall).1
  obtain ⟨hl1, hmem⟩ := hp.l1Only_load hr pg hsmall
  have hthr := hp.thr_paged_advance hu hpg
  have hupd := fun u hl1 => hp.updBlk_paged (pg := pg) (u := u) hl1
  have hsreg : ((s.paged f.h x pg).blk s.sel.blk).sreg s.wp (48 + cq) = s.bk.sreg s.wp (48 + cq) := by rw [hp.blk_paged]; rfl
  have hland : ((s.paged f.h x pg).blk s.sel.blk).landings = s.bk.landings := by rw [hp.blk_paged]; rfl
  have hvregs : ((s.paged f.h x pg).blk s.sel.blk).vregs = s.bk.vregs := by rw [hp.blk_paged]; rfl
  generalize (s.paged f.h x pg).load s.sel.blk x false .lsu pa ty.bytes = r at he hreads hl1 hmem
  obtain ⟨bs, u⟩ := r
  dsimp only at he hreads hl1 hmem
  obtain ⟨hcaches, hbk, hmem'⟩ := hupd u hl1 fun k =>
    (k.awaitLandings s.wp cq ty.bytes ty d x (extend ty bs)).advance [x] s.sel.next
  generalize u.updBlk s.sel.blk (fun k => (k.awaitLandings s.wp cq ty.bytes ty d x (extend ty bs)).advance [x] s.sel.next) = t
    at he hcaches hbk hmem'
  generalize (s.paged f.h x pg).blk s.sel.blk = k at hthr hsreg hland hvregs hbk
  obtain ⟨ls, hls, hlen, hget⟩ := k.landings_awaitLandings s.wp cq ty.bytes ty d x (extend ty bs)
  refine ⟨t, ls, bs, he.trans (finish_of_noHole ?_), hreads, ?_, ?_, hlen, hget, hmem'.trans hmem, hcaches, ?_, fun y => ?_⟩
  · rw [hcaches.rest]
    exact hp.noHole
  · rw [hbk, Block.advance_sreg, Block.sreg_awaitLandings, hsreg]
  · rw [hbk, ← hland]
    exact hls
  · rw [hbk, ← hvregs]
    rfl
  · rw [hbk, ← hthr y]
    rfl

end

/-- Settles O21: CPQ and CPLD are operations of one thread, the one on its scratchpad, the other a plain load whose registers are to
land; CQWAIT looks at its register; a landing counts the register down, and the last one writes. -/
theorem copyRequestRules : Obligations.CopyRequestRules := by
  unfold Obligations.CopyRequestRules
  refine ⟨fun s => ⟨fun h a off f x hp ha hroom => ⟨fun hv hfab hbytes hobj => ?_, fun hv => cpq_invalid hp ha hroom hv⟩,
      fun h ty d a cq off f x pa hp hr hfits => ?_, fun h cq f hp h0 => cqwait_passes hp h0,
      fun h cq f hp h0 => cqwait_waits hp h0⟩,
    fun s b l n hh hb hl hd hcq hn => ⟨fun h1 => exec_cpldLanding_counts hh hb hl h1, fun h1 =>
      exec_cpldLanding_lands hh hb hl hd h1⟩⟩
  · obtain ⟨t, ht, hframe, hpass, hobject⟩ := cpq_hands hp ha hroom hv hfab hbytes hobj
    exact ⟨t, s.cpqCopy x a off, ht, hframe, rfl, rfl, rfl, rfl, rfl, rfl, rfl, rfl, rfl, hpass, hobject⟩
  · obtain ⟨t, ls, bs, ht, hreads, hsreg, hland, hlen, hget, hrest⟩ := cpld_reads hp hr hfits
    exact ⟨t, ls, bs, ht, hreads, hsreg, hland, hlen, fun j hj => by cases d <;> exact hget j hj, hrest⟩

end Sys2Proof.Machine
end
